-- ==== Sys2Proof/Word.lean ====
section
/-! DEFINITION. The words of the FLS-9608: 32-bit registers (R9), bytes, and the plainest arithmetic on them. -/

namespace Sys2Proof

/-- A 32-bit register word (R9). -/
abbrev Word := BitVec 32

/-- A byte. -/
abbrev Byte := BitVec 8

/-- A count of `8 × n` bits held as a little-endian list of bytes (R8). -/
def leBytes : (n : Nat) → Nat → List Byte
  | 0, _ => []
  | n + 1, x => BitVec.ofNat 8 x :: leBytes n (x / 256)

/-- The number a little-endian list of bytes spells (R8). -/
def leNat : List Byte → Nat
  | [] => 0
  | b :: bs => b.toNat + 256 * leNat bs

/-- The number a big-endian list of bytes spells (network byte order). -/
def beNat (bs : List Byte) : Nat := bs.foldl (fun a b => 256 * a + b.toNat) 0

/-- `n` bytes of `x`, most significant first. -/
def beBytes (n x : Nat) : List Byte := (leBytes n x).reverse

/-- `ceil (a / b)`. -/
def ceilDiv (a b : Nat) : Nat := (a + b - 1) / b

/-- A Bool as 0 or 1. -/
def b2n (b : Bool) : Nat := if b then 1 else 0

/-- Low 32 bits of `x` read as a two's-complement number (00_scope.md, Pseudocode). -/
def signed32 (x : Int) : Int :=
  let m := x % 4294967296
  if m < 2147483648 then m else m - 4294967296

/-- `inside(t, o, c)`: the half-open window of R16. -/
def inside (t o c : Int) : Bool := decide (0 ≤ signed32 (t - o)) && decide (signed32 (t - c) < 0)

/-- Clip to `[lo, hi]`. -/
def clipInt (lo hi x : Int) : Int := max lo (min hi x)

end Sys2Proof
end

