-- ==== Sys2Proof/Machine/Messages.lean ====
section
/-! DEFINITION. The messages and measurements that commands carry as operands: what arrives from outside the block, or
what its own datapath found, laid out by the rules named. -/

namespace Sys2Proof

/-- A plane of samples, rows from the top; and a picture, or some of its rows: planes Y, Cb and Cr, or G, B and R (R217). -/
abbrev Plane := List (List Nat)
abbrev Pic := List Plane

/-- Samples of one line of an input picture (R109): the line, the first luma sample and one past the last, and the samples of
each component. -/
structure LineRun where
  line : Nat
  lo : Nat
  hi : Nat
  comps : List (List Nat)
deriving DecidableEq, Repr

/-- A sample row data segment of a video datagram (R109): the line, its first luma sample and one past the last, and the
octets of its pixel groups. -/
structure VideoRun where
  line : Nat
  lo : Nat
  hi : Nat
  octets : List Byte
deriving DecidableEq, Repr

/-- A Beacon message as received (R504): header fields, payload and tag; the address and port it came from (`src`);
the network port it came in on, or none for the MGMT lane; and the requests already waiting when it came (R509). -/
structure BeaconMsg where
  magic : Nat
  version : Nat
  op : Nat
  flags : Nat
  status : Nat
  length : Nat
  session : Nat
  seq : Nat
  payload : List Byte
  tag : List Byte
  src : Nat
  port : Option Nat
  waiting : Nat
deriving DecidableEq, Repr

/-- A PTP Announce message (R326): what the best master clock algorithm compares, with the synchronization metadata TLV it carries, its
transport (as in a Sync) and logAnnounceInterval. -/
structure Announce where
  port : Nat
  domain : Nat
  prio1 : Nat
  cls : Nat
  accuracy : Nat
  variance : Nat
  prio2 : Nat
  gm : Nat
  steps : Nat
  sender : Nat
  sm : List Word
  transport : Nat
  interval : Int
deriving DecidableEq, Repr

/-- A Sync message (R325, R328): ingress port, sender, origin time, correction, transport (0 UDP over IPv4, 1 UDP over IPv6, 2 IEEE 802.3)
and logSyncInterval. -/
structure SyncMsg where
  port : Nat
  domain : Nat
  sender : Nat
  seq : Nat
  twoStep : Bool
  origin : Int
  correction : Int
  transport : Nat
  interval : Int
deriving DecidableEq, Repr

/-- The picture part of a decision record, field by field (R172). -/
structure DecisionRecord where
  chan : Nat
  forceRefresh : Bool
  discontinuity : Bool
  mirrorH : Bool
  mirrorV : Bool
  slateEn : Bool
  effort : Nat
  dim : Nat
  lookahead : Nat
  boundary : Nat
  index : Nat
  qtarget : Nat
  capPic : Nat
  capRate : Nat
  capWin : Nat
  gdrSpan : Nat
  period : Nat
  slateId : Nat
  slateTime : Nat
  /-- 0 accepted, 1 repeat, 2 slate. -/
  outcome : Nat
  refreshCause : Nat
  splices : List Nat
  sourceTs : Nat
  refInstant : Nat
  bandCount : Nat
deriving DecidableEq, Repr

/-- A band entry (R173): `runs` is 0 to 16, or 255; each run is first line and count. -/
structure BandEntry where
  chan : Nat
  index : Nat
  band : Nat
  runs : Nat
  lines : List (Nat × Nat)
deriving DecidableEq, Repr

/-- A gap entry (R246). -/
structure GapEntry where
  chan : Nat
  count : Nat
  first : Nat
deriving DecidableEq, Repr

/-- The rails beside the eight VCOREd (R43). -/
inductive Rail where
  | vsd | vsh | vgio | vaux | vio
deriving DecidableEq, Repr

/-- What the calibration sampler measures of a lane in one interval (R383): the vertical openings of its eyes and the level
separations, in one unit; the horizontal openings and the unit interval, in another. -/
structure EyeScan where
  heights : List Nat
  separations : List Nat
  widths : List Nat
  ui : Nat
deriving DecidableEq, Repr

/-- The header of a received Lantern frame, and whether its CRC passes (R396, R398). -/
structure LHeader where
  type : Nat
  flags : Nat
  lseq : Nat
  crcOk : Bool
deriving DecidableEq, Repr

/-- Carried rate-control state (R194): QP in 1/256, g in 1/256 of 0.1 SQI, F in units of 1/f_num bit. -/
structure RateCtl where
  qRef : Int
  g : Int
  cRef : Nat
  cPrev : Nat
  f : Int
  rh : Nat
  sizes : List Nat
  last : Option (Nat × Int)
deriving DecidableEq, Repr

/-- The analysis record of a band (R164): C, activity and the activity of its CTUs, coarse motion, histogram. -/
structure BandAnalysis where
  cost : Nat
  act : Nat
  acts : List Nat
  coarse : List (Int × Int)
  hist : List Nat
deriving DecidableEq, Repr

/-- The analysis record of an item (R164, R186, R370): inter shares, and its bands. -/
structure AnalysisCopy where
  item : Nat
  share : Option (Nat × Nat)
  share2 : Option (Nat × Nat)
  bands : List BandAnalysis
deriving DecidableEq, Repr

/-- What an engine's access to a buffer carries (R219): channel, part and number of the buffer, and the picture index of the item whose
picture it is. -/
structure AccessTag where
  chan : Nat
  part : Nat
  no : Nat
  idx : Nat
deriving DecidableEq, Repr

/-- An access by an engine to a buffer, with what it carries. -/
structure EngineAccess where
  engine : Fin 464
  tag : AccessTag
deriving DecidableEq, Repr

/-- The bytes that a memory port writes, none for a read, and what its access to a buffer carries. -/
structure TaggedData where
  bytes : List Byte
  tag : Option AccessTag
deriving DecidableEq, Repr

/-- What an ARP request, or with `nd` an ND solicitation, asks for: `own` says an address of the unit. -/
structure AddrRequest where
  nd : Bool
  own : Bool
deriving DecidableEq, Repr

/-- A pinned buffer as the copy carries it (R229): the items that share it, the one whose picture it is last; for each part the units
of the first-written plane set and of the overlay as stored, each with its side-table byte; the samples that they hold by band, as
first written and final; and the CTU CRCs of its header. -/
structure RefCopy where
  items : List Nat
  stored : List (List (Nat × List Byte) × List (Nat × List Byte))
  first : List (Nat × Pic)
  final : List (Nat × Pic)
  crcs : List Nat
deriving DecidableEq, Repr

/-- The state of a channel closed after item J − 1 (R370): rate control, last refresh start with its PERIOD, last IRAP item, the sweep begun
last, the hold state of R228, the last accepted item, the first item of a run, and the analysis records of items J − 1 to J + L. -/
structure JoinState where
  rc : RateCtl
  lastRefresh : Option (Nat × Nat)
  lastIrap : Option Nat
  sweepFrom : Option (Nat × Nat)
  hold : Option (Nat × Nat)
  run : Option Nat
  last : Option Nat
  analysis : List AnalysisCopy
deriving DecidableEq, Repr

/-- What R280, R281 and R298 carry for a program, instants on the DTC: the item whose video comes next and how far it has
been placed (bytes of its PES packet; packets in a KIND 1 flow), the exact due instant of the last packet of the item before it in ns,
and the due instant of the last PCR; the item whose sections and audio come next and how far they have been placed (unit, bytes of
it); the mux digest so far; and the DOFF of the time base of the item whose first packet was placed last (R288). -/
structure MuxState where
  item : Nat
  off : Nat
  tAf : Rat
  pcrAt : Option Int
  side : Nat
  unit : Nat
  sideOff : Nat
  crc : Nat
  base : Int
deriving DecidableEq, Repr

def MuxState.reset : MuxState := ⟨0, 0, 0, none, 0, 0, 0, 0, 0⟩

/-- Contents of a channel snapshot (R370 to R372). -/
inductive SnapBody where
  /-- The references, pinned at item S, and the hold picture. -/
  | references (item : Nat) (hold : Option Nat) (refs : List RefCopy)
  /-- A sealed band of the catch-up stream: its item's record, HRD rate, whether it is an IRAP picture or a GDR start, and its
  references; the band, its sealed bytes and the CRCs of its CTUs. -/
  | catchUp (r : DecisionRecord) (rh : Nat) (starts : Bool) (refs : List Nat) (band : Nat) (bytes : List Byte) (crcs : List Nat)
  | joinState (item : Nat) (x : JoinState)
  /-- The mux state of a flow before its datagram m: datagrams formed, jump, last PAT, time base, continuity counters, and the
  state of each channel's program. -/
  | mux (flow formed jump : Nat) (psi : Option (Int × Nat)) (base : Int) (cc : List (Nat × Nat)) (progs : List (Nat × MuxState))
deriving DecidableEq, Repr

/-- A join control message (R397): a snapshot request, a join item, the seconds count of R333. -/
inductive JoinBody where
  | request (chan : Nat)
  | item (chan index : Nat)
  | seconds (count : Int)
deriving DecidableEq, Repr

/-- What a Lantern frame carries (R345, R397). -/
inductive LBody where
  /-- Picture part of a record (R172): fixed at the control step (`input` false) or at the input step. -/
  | record (input : Bool) (bytes : List Byte)
  /-- A band entry (R173) with its channel and item; a gap entry (R246). -/
  | band (chan index : Nat) (bytes : List Byte)
  | gap (bytes : List Byte)
  /-- A live write, with the picture index it reaches (R98). -/
  | liveWrite (addr : Nat) (value : Nat) (chan index : Nat)
  /-- The full body of a splice command (R345). -/
  | splice (chan id index : Nat) (body : List Byte)
  | dim (chan level : Nat)
  | inputDigest (chan index part : Nat) (digest : Nat)
  | outputDigest (chan index band : Nat) (digest : Nat)
  | muxDigest (chan index : Nat) (digest : Nat)
  | failure (bytes : List Byte)
  | liveImage (fields : List (Nat × Nat))
  | snapshot (chan : Nat) (x : SnapBody)
  /-- Join control: snapshot request, join item, seconds count (R371, R333). -/
  | snapRequest (chan : Nat)
  | joinItem (chan index : Nat)
  | seconds (count : Int)
  /-- A cursor frame: flow and low 32 bits of the cursor (R358). -/
  | cursors (entries : List (Nat × Nat))
deriving DecidableEq, Repr

/-- A Lantern frame as sent: link sequence number, RESENT, channel, body. -/
structure LFrame where
  lseq : Nat
  resent : Bool
  body : LBody
deriving DecidableEq, Repr

/-- A flame word as received: a FLAME set or a wick word (R350, R351). -/
structure FlameWord where
  kind : Nat
  unit : Nat
  aux : Nat
  epoch : Nat
  check : Nat
deriving DecidableEq, Repr

/-- What a confidence check reads (R237, R238): the channel and picture index in the header of the output buffer; from it the item's
units that are not slices, the band and the band after it; and from the header of the reconstruction buffer the CRC of each CTU of
the band and of the band above it. -/
structure CheckRead where
  chan : Nat
  index : Nat
  head : List Byte
  band : List Byte
  next : List Byte
  ctus : List Nat
  above : List Nat
deriving DecidableEq, Repr

/-- What the multiplexer reads of a sealed band (R417): the band, the channel and picture index in the header of its output buffer, and its
bytes with the item's units that go with it. -/
structure BandRead where
  chan : Nat
  index : Nat
  band : Nat
  tagChan : Nat
  tagIndex : Nat
  bytes : List Byte
deriving DecidableEq, Repr

/-- A splice command (R126, R127, R291): its type, 1 to 5 of splice_insert, 6 a time signal, 0 one that the device does not
support; event, pre_roll_time in ms, and body. -/
structure SpliceCmd where
  kind : Nat
  event : Nat
  preroll : Nat
  body : List Byte
deriving DecidableEq, Repr

/-- A sample of an audio datagram (R135): its bits, and for ST 2110-31 the V, U, C and block-start bits of its subframe. -/
structure AudioSample where
  bits : Nat
  v : Bool
  u : Bool
  c : Bool
  z : Bool
deriving DecidableEq, Repr

/-- What a datagram carries, by essence (R100, R109, R110, R125, R236, R245). -/
inductive MediaBody where
  | video (runs : List VideoRun)
  /-- Samples of each channel, oldest first. -/
  | audio (samples : List (List AudioSample))
  /-- Ancillary packets as 10-bit words: DID, SDID, data count, data, checksum. -/
  | anc (packets : List (List Nat))
  /-- What follows the RTP header, and whether there is one. -/
  | ts (rtp : Bool) (payload : List Byte)
  /-- FEC dimensions and the datagrams of the media flow it recovers: extended sequence numbers and payloads. -/
  | fec (l d : Nat) (recovered : List (Nat × List Byte))
deriving DecidableEq, Repr

/-- A received frame (R101, R102). -/
structure MediaFrame where
  port : Nat
  sub : Nat
  len : Nat
  /-- 0 good; 1 bad FCS; 2 MAC control; 3 converter overrun. -/
  fault : Nat
  /-- VIDs of its IEEE 802.1Q tags, outermost first. -/
  tags : List Nat
  ipv6 : Bool
  /-- IP options or extension headers; a fragment; the IPv4 header checksum is right. -/
  options : Bool
  fragment : Bool
  headerSum : Bool
  /-- The UDP checksum is right; none where the field is 0. -/
  udpSum : Option Bool
  /-- Traffic for the unit's control handlers. -/
  control : Bool
  dst : Nat
  src : Nat
  dport : Nat
  /-- Extended RTP sequence number, and RTP timestamp. -/
  seq : Nat
  ts : Nat
  body : MediaBody
deriving DecidableEq, Repr

/-- Whose data an uncorrectable word or block holds (R231, R420): an engine store, a descriptor or decision record of an
item, a sealed band (`copy` where another good copy stands), a frame in a traffic manager's buffers (its place in the
queue), or a picture buffer of a channel's part. -/
inductive DataOwner where
  | nobody
  | engine (e : Nat)
  | item (n k : Nat)
  | sealed (n k b : Nat) (copy : Bool)
  | frame (i : Nat) (copy : Bool)
  | buffer (n part no : Nat)
deriving DecidableEq, Repr

/-- How a memory access went (R431, R432, R435): link CRC retries made and whether the transfer still failed, per 64 B block
0 good, 1 corrected, 2 uncorrectable; whose data it was; the rows that stand open in the channel; and the 8-byte row tag, read
where the access activated its row. -/
structure MemResult where
  retries : Nat
  failed : Bool
  ecc : List Nat
  owner : DataOwner
  rows : List Nat
  tag : Option Nat
deriving DecidableEq, Repr

/-- Statistics of one adaptation cycle (R452): per slicer (one for a lane, one for each DQ) the sum and count of the samples
of each level, lowest first, and of the edge positions; per DFE tap the summed correlation; reads of each DQ. -/
structure AdaptStats where
  levels : List (List (Int × Nat))
  edges : List (Int × Nat)
  taps : List Int
  reads : List Nat
deriving DecidableEq, Repr

/-- What training found for one channel at one rate (R440): its setting, the passing windows of each DQ for read and for write
delay in 1/64 UI, and the errors of each DQ in the PRBS31 compare pass. -/
structure TrainFound where
  setting : List Int
  windows : List (Nat × Nat)
  errors : List Nat
deriving DecidableEq, Repr

/-- What an AES3 frame brought (R142): preamble Z; and for each subframe its biphase marks and parity good, the 24 audio
bits, V, U, C. -/
structure Aes3Sub where
  good : Bool
  sample : Nat
  v : Bool
  u : Bool
  c : Bool
deriving DecidableEq, Repr

structure Aes3Frame where
  z : Bool
  subs : List Aes3Sub
deriving DecidableEq, Repr

/-- A fabric burst that was cut short (R492 to R495): die and ID of its master, first address, beats done and asked, and the
item it served. -/
structure Burst where
  mdie : Nat
  mid : Nat
  addr : Nat
  beats : Nat
  total : Nat
  item : Option (Nat × Nat)
deriving DecidableEq, Repr

/-- What a write burst cut short in SRAM or picture memory has left part-written (R492, R494): nothing that counts, a decision
record, band entry, gap entry or failure record of an item, or a 64-byte block (die, byte address on it). -/
inductive PartWritten where
  | nothing
  | record (n k : Nat)
  | block (d addr : Nat)
deriving DecidableEq, Repr

end Sys2Proof
end

