-- ==== Sys2Proof/Syntax.lean ====
section
/-! DEFINITION. The commands of the FLS-9608: one constructor for each row of `spec/opcode_table.json`. The first operand
`dt` of every command is the number of DTC ticks since the command before it; the others are what the happening
brings from outside, or what the block's own datapath found. -/

namespace Sys2Proof

inductive Instr where
  /-- R45. RESET_N is recognised low; the device snuffs as for a self-detected dangerous fault and enters chrysalis state within 5 µs. -/
  | resetNAssert (dt : Nat)
  /-- R43. Emergence begins at E0 once the listed rails are in range and RESET_N is high. -/
  | e0Start (dt : Nat) (vcores : List Nat) (rails : List (Rail × Nat))
  /-- R46. A rail other than VCOREd leaves its range; the unit snuffs and takes a cold reset. -/
  | railLoss (dt : Nat) (rail : Rail) (uv : Nat)
  /-- R43. A late VCOREd rail comes into range and die d begins its E1 self-test. -/
  | vcoreRailInRange (dt : Nat) (d : Fin 8)
  /-- R43. A VCOREd rail is still out of range 1 s after E0 began, and die d is failed for this emergence. -/
  | vcoreRangeTimeout (dt : Nat) (d : Fin 8)
  /-- R47. The pilot oscillator is started, the fuses are read and the I²C target is up; E1 begins. -/
  | e0Complete (dt : Nat)
  /-- R47. A die completes its E1 self-test; E1 ends when every die has passed or failed. -/
  | dieSelfTestDone (dt : Nat) (d : Fin 8) (passed : Bool)
  /-- R47. A die has not passed E1 within its 45 ms and is failed. -/
  | e1DieTimeout (dt : Nat) (d : Fin 8)
  /-- R50. The die links are trained, the lead die is elected, the control fabric is up and the MGMT lane starts. -/
  | e2Complete (dt : Nat) (linksUp : List Bool)
  /-- R53. E3 chooses, authenticates and loads the newest valid copy, or enters HALTED. -/
  | imageLoadDone (dt : Nat) (answersA answersB : Bool)
  /-- R63. Every 60 s in HALTED, the device scans the flashes again and restarts at E3. -/
  | haltedRescan (dt : Nat)
  /-- R71. A write of 1 to EMG_CTRL.RESTORE_DONE closes the calibration restore window. -/
  | restoreDone (dt : Nat)
  /-- R71. The restore window's time runs out and the window closes. -/
  | restoreWindowTimeout (dt : Nat)
  /-- R440. A controller finishes training its channels, stepping down its rate or failing channels as needed. -/
  | memoryTrainingDone (dt : Nat) (d : Fin 8) (m : Fin 2) (density : Fin 4) (compared : List Nat) (tries : List (List (Option TrainFound)))
  /-- R441. A controller finishes writing zero data with valid check bytes to its working channels. -/
  | memoryFillDone (dt : Nat) (d : Fin 8) (m : Fin 2)
  /-- R47. The E5 lane-up time expires; lanes not up are alarmed and emergence goes on. -/
  | laneUpTimeout (dt : Nat)
  /-- R47. The network, Lantern and MGMT lanes are up and E6 begins. -/
  | e5Complete (dt : Nat)
  /-- R334. E6 reaches its bound without lock and the unit goes on in FREE or HOLDOVER. -/
  | timeAcquisitionTimeout (dt : Nat)
  /-- R48. All three lease paths stay silent for the twin-join time, and the unit becomes holder-designate alone. -/
  | twinJoinTimeout (dt : Nat)
  /-- R86. At E8 the device admits, places and sizes the pool of each enabled channel in admission order. -/
  | admission (dt : Nat)
  /-- R49. With no channel admitted, the unit becomes LIVE 5 ms after E8 began. -/
  | e8Timeout (dt : Nat)
  /-- R73. A write of the key to EMG_RESET starts a warm reset where it is honoured, and is counted as refused otherwise. -/
  | emgReset (dt : Nat) (key : Word)
  /-- R66. A FLASH session is opened for a port and a copy. -/
  | flashOpen (dt : Nat) (m : BeaconMsg) (port copy : Fin 2)
  /-- R66. A FLASH data message writes up to 1,024 contiguous bytes, erasing sectors before their first write. -/
  | flashData (dt : Nat) (m : BeaconMsg) (offset : Nat) (data : List Byte)
  /-- R66. The session programs its first 4 KiB, reads the copy back and validates it. -/
  | flashCommit (dt : Nat) (m : BeaconMsg)
  /-- R508. The FLASH session is abandoned and its copy is left erased. -/
  | flashAbort (dt : Nat) (m : BeaconMsg)
  /-- R66. A FLASH session is aborted after 10 s without a message. -/
  | flashSessionTimeout (dt : Nat)
  /-- R60. A Beacon KEY_CLAIM is checked, the fuses are blown and the unit restarts at E3. -/
  | keyClaim (dt : Nat) (m : BeaconMsg)
  /-- R69. A wear-log record is programmed at the next page once the flash port is free. -/
  | wearLogAppend (dt : Nat)
  /-- R97. A live write of CHN_CTRL.ENABLE enables a channel for the next re-planning, or disables it. -/
  | chnEnableWrite (dt : Nat) (n : Fin 96) (enable : Bool)
  /-- R80. A channel disabled by the host reaches DISABLED once its last accepted picture has left. -/
  | channelDisabled (dt : Nat) (n : Fin 96)
  /-- R80. A channel's picture boundary arrives, moving ADMITTED or SHED channels to PRIMING and starting snapshots. -/
  | pictureBoundary (dt : Nat) (n : Fin 96)
  /-- R170. At F_k the control part of item k's decision record is fixed. -/
  | controlStep (dt : Nat) (n : Fin 96)
  /-- R102. A received frame is matched in the flow table, policed and forwarded to the dies that need it. -/
  | mediaFrameRx (dt : Nat) (m : MediaFrame)
  /-- R111. A path goes down when no datagram has arrived on it for three picture periods, or 3 ms for TS. -/
  | pathDown (dt : Nat) (n : Fin 96) (path : Fin 2)
  /-- R110. A TS sequence gap held for the skew allowance W is passed over and fixed as a gap entry. -/
  | tsGapPass (dt : Nat) (n : Fin 96)
  /-- R115. At A + T/2 an empty slot is filled with a repeat or slate picture. -/
  | slotEmpty (dt : Nat) (n : Fin 96) (k : Nat)
  /-- R118. At a band's deadline its missing input lines are repaired and the band becomes ready. -/
  | bandDeadline (dt : Nat) (n : Fin 96) (k b : Nat)
  /-- R106. A live write to FT_POL_RATE or FT_POL_BURST reaches every copy and refills the entry's buckets. -/
  | ftPolWrite (dt : Nat) (entry : Fin 65536) (burst : Bool) (v : Word)
  /-- R344. A standby waits 20 µs for the holder's record part, then fixes it itself and the channel becomes unconfirmed. -/
  | recordWaitTimeout (dt : Nat) (n : Fin 96) (k step b : Nat)
  /-- R120. Input preparation completes a picture and the input digest is sent. -/
  | preparationDone (dt : Nat) (n : Fin 96) (k : Nat)
  /-- R269. A waiting stage-0 allocation is made when a descriptor or slot frees. -/
  | allocationWaitEnd (dt : Nat) (i : Nat)
  /-- R263. An engine's take request is acknowledged with the first eligible READY descriptor. -/
  | takeRequest (dt : Nat) (e : Fin 464)
  /-- R260. An engine completes a piece with OK, dependants' WAIT fall and the descriptor advances. -/
  | workComplete (dt : Nat) (e : Fin 464) (r : CheckRead)
  /-- R266. A piece completed with FAULT is re-dispatched and its engine is reset. -/
  | workFault (dt : Nat) (e : Fin 464)
  /-- R418. An access whose channel and picture index disagree with the header is aborted and the piece is re-dispatched. -/
  | channelTagFault (dt : Nat) (e : EngineAccess)
  /-- R415. A descriptor TAKEN beyond WD_FACTOR band periods is re-dispatched with fault kind 3. -/
  | stallWatchdog (dt : Nat) (die : Fin 8) (no : Fin 32768)
  /-- R415. A band not past stage 6 at its R162 bound is counted and signalled. -/
  | bandTimingDeparture (dt : Nat) (n : Fin 96) (k b : Nat)
  /-- R266. A reset engine becomes ready to take work again. -/
  | engineResetDone (dt : Nat) (e : Fin 464)
  /-- R268. An engine not ready within 20 µs of its reset is failed. -/
  | engineResetTimeout (dt : Nat) (e : Fin 464)
  /-- R274. A write of 1 to TRC_CTRL.RESTART sets the trace head to entry 0 and clears FULL. -/
  | trcRestart (dt : Nat) (d : Fin 8) (v : Word)
  /-- R281. A datagram reaches its close instant and is filled with due packets and null packets. -/
  | datagramClose (dt : Nat) (i : Fin 2048) (reads : List BandRead) (noCopy : Bool)
  /-- R282. A datagram is handed to each port's traffic manager once closed, built from sealed bands and after its predecessor. -/
  | datagramRelease (dt : Nat) (i : Fin 2048) (seq : Nat) (blue : Bool)
  /-- R303. When a line is free, the scheduler selects and sends or discards one eligible frame. -/
  | frameSelect (dt : Nat) (p : Fin 8) (q : Fin 4) (reads : List (List Byte)) (noCopy : Bool)
  /-- R299. Every 1 µs each emit cursor is sampled and a cursor frame is sent to the standby. -/
  | cursorSample (dt : Nat)
  /-- R416. At E_k + 1 ms an item that has not left is judged a departure and acted on by role. -/
  | departureJudgement (dt : Nat) (n : Fin 96) (k : Nat)
  /-- R416. An item still not left at E_k + DIE_LIMIT names a die that takes a die fault. -/
  | dieLimitExpiry (dt : Nat) (n : Fin 96) (k : Nat)
  /-- R310. A live TF_RATE write is checked against its floor and the port sum, then keeps the credit. -/
  | tfRateWrite (dt : Nat) (i : Fin 2048) (v : Word)
  /-- R318. A write stores a shadow gate entry at INDEX and increments INDEX. -/
  | tmgGclDataWrite (dt : Nat) (p : Fin 8) (v : Word)
  /-- R313. A write of 1 to TMG_GCL_CTRL.COMMIT makes the shadow list pending, or refuses it. -/
  | gclCommit (dt : Nat) (p : Fin 8) (v : Word)
  /-- R311. A gate cycle starts and a pending list comes into force. -/
  | gateCycleStart (dt : Nat) (p : Fin 8)
  /-- R311. A gate entry's interval ends and the next entry's gate states take effect. -/
  | gateEntryExpiry (dt : Nat) (p : Fin 8)
  /-- R141. A port's frame sync takes the staged slot mask and moves pre-roll, data and post-roll. -/
  | audioFrameSync (dt : Nat) (p : Fin 16) (ins : List Word) (edge : Option Int)
  /-- R141. A slot mask write is staged for the next frame sync. -/
  | audSlotMaskWrite (dt : Nat) (p : Fin 16) (v : Word)
  /-- R144. A channel-status write takes effect at the next AES3 block start. -/
  | audCsTxWrite (dt : Nat) (p : Fin 16) (b : Bool) (i : Fin 6) (v : Word)
  /-- R145. A live write of AUD_CTRL.ENABLE starts or stops a port. -/
  | audEnableWrite (dt : Nat) (p : Fin 16) (enable : Bool)
  /-- R142. An AES3 input frame is received, locked to its block and written to its buffers. -/
  | aes3FrameRx (dt : Nat) (p : Fin 16) (f : Aes3Frame)
  /-- R148. No WCLK_IN edge for two nominal periods starts the flywheel. -/
  | wclkStop (dt : Nat)
  /-- R149. An out-of-tolerance WCLK_IN period is ignored and the PLL flywheels. -/
  | wclkGlitch (dt : Nat)
  /-- R149. A WCLK_IN rate change makes ports fall back to synthesis or stop. -/
  | wclkRateChange (dt : Nat) (estimate : Int)
  /-- R149. The flywheel ends without WCLK_IN returning and the device acts as for a rate change. -/
  | flywheelExpiry (dt : Nat)
  /-- R150. WCLK_IN qualifies again; ports revert to it or start. -/
  | wclkQualified (dt : Nat) (estimate : Int)
  /-- R328. A Sync message updates the servo, time state and offset handling. -/
  | syncRx (dt : Nat) (m : SyncMsg)
  /-- R325. A two-step master's Follow_Up completes a Sync measurement. -/
  | followUpRx (dt : Nat) (sender seq : Nat) (origin correction : Int)
  /-- R326. An Announce message feeds the best master clock algorithm. -/
  | announceRx (dt : Nat) (m : Announce)
  /-- R327. A Delay_Req or Pdelay_Req is sent one-step at its interval. -/
  | delayReqSend (dt : Nat)
  /-- R328. A delay response adds a path-delay measurement. -/
  | delayRespRx (dt : Nat) (domain seq : Nat) (receipt correction : Int) (transport : Nat)
  /-- R327. A Pdelay_Req is answered with a one-step Pdelay_Resp. -/
  | pdelayReqRx (dt : Nat) (port domain : Nat) (correction : Int) (transport : Nat)
  /-- R328. announceReceiptTimeout expires with no master and the clock enters HOLDOVER. -/
  | announceTimeout (dt : Nat)
  /-- R333. A PPS_IN edge is timestamped and, in island mode, serves as the master. -/
  | ppsInEdge (dt : Nat)
  /-- R333. No good PPS_IN edge for 1.1 s gives ISLAND_FREE. -/
  | ppsStop (dt : Nat)
  /-- R332. PPS_OUT rises at a whole second of PTP-visible time and falls WIDTH later. -/
  | ppsOutSecond (dt : Nat)
  /-- R335. A reference clock shows no edge for 64 ns. -/
  | refclkStop (dt : Nat) (r : Fin 2)
  /-- R335. A reference clock period falls outside 6.08–6.72 ns. -/
  | refclkGlitch (dt : Nat) (r : Fin 2)
  /-- R335. A 1 ms frequency estimate shows a reference more than 200 ppm off. -/
  | refclkRateChange (dt : Nat) (r : Fin 2) (estimate : Int)
  /-- R335. A reference runs fault-free for QUAL, is selected or reverted to, and can start E4 training. -/
  | refclkQualified (dt : Nat) (r : Fin 2)
  /-- R337. Every 1 ms the pilot's ratio to the selected reference updates PILOT_FREQ. -/
  | pilotRatioMeasure (dt : Nat) (ratio : Int)
  /-- R353. A FLAME ordered set is validated as renewal, RELEASE, CLAIM, HANDOVER or STANDBY. -/
  | flameSetRx (dt : Nat) (lane : Fin 8) (w : FlameWord)
  /-- R351. A wick word is received and validated as a flame word. -/
  | wickWordRx (dt : Nat) (w : FlameWord)
  /-- R352. A presence beacon is authenticated and its flame word is applied. -/
  | presenceBeaconRx (dt : Nat) (port : Fin 8) (payload : List Byte)
  /-- R350. Every 1 µs a FLAME set is sent on every Lantern lane. -/
  | leaseSend (dt : Nat)
  /-- R351. Every 2 µs a wick word is sent. -/
  | wickWordSend (dt : Nat)
  /-- R352. Every 8 µs a presence beacon is sent in TC7 from every port in service. -/
  | presenceBeaconSend (dt : Nat)
  /-- R354. All three paths are silent for 18 µs; a LIVE standby takes the flame, and a unit becomes alone. -/
  | leaseLapse (dt : Nat)
  /-- R366. A host handover request starts a planned handover or is refused. -/
  | twnCmdHandover (dt : Nat)
  /-- R367. After the gates close and frames finish, the holder sends final cursors and HANDOVER. -/
  | handoverDrainDone (dt : Nat)
  /-- R380. A standby request starts a snapshot of every unconfirmed channel. -/
  | twnCmdResync (dt : Nat)
  /-- R371. The references are checked and the catch-up decode begins. -/
  | snapshotReferencesArrived (dt : Nat) (n : Fin 96)
  /-- R369. A confirmed U0 completes its hold-off and starts refreshes before setting READY. -/
  | holdOffExpiry (dt : Nat)
  /-- R346. A holder digest still missing at E_k + 1 ms makes the channel unconfirmed. -/
  | holderDigestMissing (dt : Nat) (n : Fin 96) (k : Nat)
  /-- R343. A standby receives the holder's decision record part. -/
  | decisionRecordRx (dt : Nat) (h : LHeader) (input : Bool) (bytes : List Byte)
  /-- R119. A standby receives the holder's band entry. -/
  | bandEntryRx (dt : Nat) (h : LHeader) (n : Fin 96) (k : Nat) (bytes : List Byte)
  /-- R246. A standby receives the holder's gap entry. -/
  | gapEntryRx (dt : Nat) (h : LHeader) (bytes : List Byte)
  /-- R345. A standby writes a mirrored live write into its own registers. -/
  | liveWriteRx (dt : Nat) (h : LHeader) (addr : Nat) (v : Word)
  /-- R345. A standby receives the full splice command body. -/
  | spliceCommandRx (dt : Nat) (h : LHeader) (n : Fin 96) (id index : Nat) (body : List Byte)
  /-- R376. A unit receives its partner's dim levels for the pair dim level. -/
  | dimReportRx (dt : Nat) (h : LHeader) (n : Fin 96) (level : Fin 5)
  /-- R346. A partner's input digest is compared for confirmation. -/
  | inputDigestRx (dt : Nat) (h : LHeader) (n : Fin 96) (k part digest : Nat)
  /-- R346. A partner's output and mux digests are compared for confirmation. -/
  | outputDigestRx (dt : Nat) (h : LHeader) (n : Fin 96) (k : Nat) (band : Option Nat) (digest : Nat)
  /-- R358. A standby applies cursor entries later than those it holds and frees covered replay copies. -/
  | cursorFrameRx (dt : Nat) (h : LHeader) (entries : List (Nat × Nat))
  /-- R423. A partner's failure record adds 1 to SAF_FR_PARTNER. -/
  | failureRecordRx (dt : Nat) (h : LHeader) (bytes : List Byte)
  /-- R375. The standby writes the holder's live register image and returns to its records. -/
  | liveRegisterImageRx (dt : Nat) (h : LHeader) (fields : List (Nat × Nat))
  /-- R370. A joining unit receives snapshot references, catch-up stream, join state or mux state. -/
  | snapshotFrameRx (dt : Nat) (h : LHeader) (n : Fin 96) (x : SnapBody)
  /-- R371. A snapshot request, a join item or an island seconds count is received. -/
  | joinControlRx (dt : Nat) (h : LHeader) (x : JoinBody)
  /-- R391. An IDLE set updates the partner's RX_LANES, stripe set and acknowledgements. -/
  | idleSetRx (dt : Nat) (lane : Fin 8) (rx tx ack check : Nat) (underWay : Bool)
  /-- R391. An IDLE set is sent at least every 0.5 µs and at each RX_LANES change. -/
  | idleSend (dt : Nat)
  /-- R394. A SKIP set is sent once 1,024 code groups have passed since the last one. -/
  | skipSend (dt : Nat)
  /-- R395. A received SKIP adds or deletes one K28.0 to centre the elastic buffer. -/
  | skipSetRx (dt : Nat) (lane : Fin 8) (drift : Int)
  /-- R389. An ABORT voids the frame under way. -/
  | abortSetRx (dt : Nat)
  /-- R398. 4 µs without an ACK causes every unacknowledged frame to be resent. -/
  | lanternResendTimeout (dt : Nat)
  /-- R384. A lane loses lock; RX_LANES, stripe sets and sub-port states follow. -/
  | laneLockLoss (dt : Nat) (d : Fin 8) (n : Fin 10) (underWay : Bool)
  /-- R384. A lane locks on commas or PCS alignment. -/
  | laneLockAcquire (dt : Nat) (d : Fin 8) (n : Fin 10) (underWay : Bool)
  /-- R399. A lane locked and GOOD for 1 ms joins RX_LANES, and the link may return. -/
  | laneJoin (dt : Nat) (lane : Fin 8) (skewed : Bool)
  /-- R383. Every 1 ms each receiver's FOM sets its lane state. -/
  | fomUpdate (dt : Nat) (d : Fin 8) (n : Fin 10) (eye : EyeScan) (viol corr uncorr : Nat)
  /-- R388. A sub-port becomes UP after its lanes have been GOOD and aligned for NP_RETURN. -/
  | subportUp (dt : Nat) (p : Fin 8) (q : Fin 4)
  /-- R401. The MGMT lane's auto-negotiation brings the link up or down. -/
  | mgmtLinkChange (dt : Nat) (up refused : Bool) (errs : Nat)
  /-- R453. Each cycle moves calibration parameters one step toward their targets in the shadow. -/
  | adaptationCycle (dt : Nat) (r : Fin 144) (st : AdaptStats)
  /-- R454. At a commit point the staged calibration values come into force together. -/
  | calibrationCommit (dt : Nat) (d : Fin 8) (n : Fin 10)
  /-- R458. A read of CAL_CTX latches the calibration window. -/
  | calCtxRead (dt : Nat) (mdie : Fin 8) (mid : Fin 4) (r : Fin 144)
  /-- R458. A read of CAL_SIG returns the signature and ends the latch. -/
  | calSigRead (dt : Nat) (mdie : Fin 8) (mid : Fin 4) (r : Fin 144)
  /-- R459. A calibration write goes to the holding copy while the restore window is open. -/
  | calWindowWrite (dt : Nat) (r : Fin 144) (i : Fin 11) (v : Word)
  /-- R421. A VCOREd rail outside its window for 1 µs is a die fault. -/
  | vcoreOutOfWindow (dt : Nat) (d : Fin 8) (uv : Nat)
  /-- R410. AUTO_DELAY after a snuff, the unit makes an automatic warm reset. -/
  | autoResetExpiry (dt : Nat)
  /-- R419. A lockstep pair is held and restarts; a second mismatch within 1 s is a die fault. -/
  | lockstepMismatch (dt : Nat) (d : Fin 8) (pair : Fin 2)
  /-- R419. A control-core pair completes its restart from checkpoint. -/
  | lockstepRestartDone (dt : Nat) (d : Fin 8) (pair : Fin 2)
  /-- R420. An uncorrectable SRAM error is counted and handed to the data's owner. -/
  | sramUncorrectableError (dt : Nat) (d : Fin 8) (owner : DataOwner)
  /-- R22. A die link fails and unacknowledged transactions are reissued on the new route. -/
  | dieLinkFailure (dt : Nat) (l : Fin 12) (cut : List Burst) (taken : List Nat)
  /-- R22. A link acknowledgement frees an in-flight transaction. -/
  | dieLinkAck (dt : Nat) (seq : Nat)
  /-- R433. A controller accepts a memory port request, waking the die from self-refresh if needed. -/
  | memoryRequest (dt : Nat) (d : Fin 8) (m : Fin 2) (port : Fin 8) (write scrub : Bool) (addr len : Nat) (data : TaggedData)
  /-- R435. A memory access completes and the channel chooses its next access. -/
  | memoryAccessDone (dt : Nat) (d : Fin 8) (k : Fin 8) (res : MemResult)
  /-- R437. A refresh falls due and, at its idle interval, staged calibration commits. -/
  | refreshDue (dt : Nat) (d : Fin 8) (k : Fin 8)
  /-- R437. Every 32 ms the device temperature is read and retraining may become pending. -/
  | memoryTempRead (dt : Nat) (d : Fin 8) (m : Fin 2) (temp : Int)
  /-- R438. A die idle for 10 ms enters self-refresh. -/
  | selfRefreshEntry (dt : Nat) (d : Fin 8)
  /-- R438. After 24 h in self-refresh a die leaves it to run a scrub pass. -/
  | selfRefreshScrub (dt : Nat) (d : Fin 8)
  /-- R442. 15 min after its last training, or 60 s for a MARGINAL channel, a retraining becomes pending. -/
  | retrainIntervalExpiry (dt : Nat) (d : Fin 8) (k : Fin 8)
  /-- R445. A 1 s error count triggers retraining or makes a MARGINAL channel FAILED. -/
  | memoryErrorInterval (dt : Nat) (d : Fin 8) (k : Fin 8)
  /-- R443. A retraining slice stalls the channel and tests one trial setting. -/
  | retrainingSliceStart (dt : Nat) (d : Fin 8) (m : Fin 2)
  /-- R443. A slice restores the setting, and after the last slice the result is staged or refused. -/
  | retrainingSliceEnd (dt : Nat) (d : Fin 8) (m : Fin 2) (passed : Fin 256)
  /-- R462. A die samples its 16 sensors and judges broken sensors and its thermal state. -/
  | sensorSample (dt : Nat) (d : Fin 8) (elems : List (Int × Int))
  /-- R465. The grace time ends in the throttle state and the thermal dim level rises to D1. -/
  | thermalGraceExpiry (dt : Nat) (d : Fin 8)
  /-- R465. Every 100 ms in the throttle state the dim level rises one step. -/
  | dimStepTimer (dt : Nat) (d : Fin 8)
  /-- R465. Each 2 s below the clear level lowers the dim level one step. -/
  | dimRecoveryTimer (dt : Nat) (d : Fin 8)
  /-- R470. Every 60 s the wax gauges count over a 1 ms window and the speed indices and lim update. -/
  | waxMeasurement (dt : Nat) (d : Fin 8) (counts : List Nat)
  /-- R473. PMB_ALERT_N falls and STATUS_WORD of every regulator is read. -/
  | pmbAlert (dt : Nat)
  /-- R473. Every 100 ms the regulators' READ commands are read. -/
  | pmbusPoll (dt : Nat)
  /-- R473. A PMBus transfer completes, is retried, or confirms a voltage step. -/
  | pmbusTransferDone (dt : Nat) (ok : Bool) (value : Nat)
  /-- R535. A line held low for 25 ms ends the transfer with nine clocks and a STOP. -/
  | pmbusStuck (dt : Nat)
  /-- R474. The device writes one 5 mV VOUT_COMMAND step and widens the rail window. -/
  | voutStep (dt : Nat) (d : Fin 8)
  /-- R474. An unconfirmed step is written back after 1 ms and further steps stop. -/
  | voutConfirmTimeout (dt : Nat) (d : Fin 8)
  /-- R476. Every 24 h of LIVE time voltages, limits, advisories and the ageing record are updated. -/
  | dailyPlanning (dt : Nat)
  /-- R485. CRC_START loads CRC_INIT into CRC_VALUE and clears CRC_COUNT. -/
  | crcStart (dt : Nat) (host : Bool) (d u : Fin 8) (v : Word)
  /-- R486. One byte is fed through the CRC model. -/
  | crcFeedB (dt : Nat) (host : Bool) (d u : Fin 8) (v : Word)
  /-- R486. Two bytes are fed through the CRC model. -/
  | crcFeedH (dt : Nat) (host : Bool) (d u : Fin 8) (v : Word)
  /-- R486. Four bytes are fed through the CRC model. -/
  | crcFeedW (dt : Nat) (host : Bool) (d u : Fin 8) (v : Word)
  /-- R485. A CRC_CFG write sets width and reflection, or is discarded for an invalid width. -/
  | crcCfgWrite (dt : Nat) (host : Bool) (d u : Fin 8) (v : Word)
  /-- R487. A CRC_VALUE write sets the running register and clears CRC_COUNT. -/
  | crcValueWrite (dt : Nat) (host : Bool) (d u : Fin 8) (v : BitVec 64)
  /-- R10. A _LO read latches _HI for the reading master. -/
  | reg64LoRead (dt : Nat) (mdie : Fin 8) (mid : Fin 4) (addr : Nat)
  /-- R10. A _LO write is held for the writing master. -/
  | reg64LoWrite (dt : Nat) (mdie : Fin 8) (mid : Fin 4) (addr : Nat) (v : Word)
  /-- R10. A _HI write brings both halves into force with the held lower half. -/
  | reg64HiWrite (dt : Nat) (mdie : Fin 8) (mid : Fin 4) (addr : Nat) (v : Word)
  /-- R12. A write to a register with no row of its own is judged field by field, refused writes being counted. -/
  | registerWrite (dt : Nat) (mdie : Fin 8) (mid : Fin 4) (addr : Nat) (v : Word)
  /-- R9. An access of wrong width or alignment completes without effect and is logged. -/
  | wrongWidthAccess (dt : Nat) (mdie : Fin 8) (mid : Fin 4) (addr width : Nat)
  /-- R513. An access to an undecoded address completes without effect and is logged. -/
  | undecodedAccess (dt : Nat) (mdie : Fin 8) (mid : Fin 4) (addr : Nat)
  /-- R492. A target completes a burst whose master was reset, with strobes off, and logs an abort. -/
  | masterResetMidBurst (dt : Nat) (b : Burst) (sram : Bool) (left : PartWritten)
  /-- R500. The host moves EVT_TAIL to acknowledge records, or the write is refused. -/
  | evtTailWrite (dt : Nat) (v : Word)
  /-- R541. A rate-limit window closes and sources 1 and 5 write their record. -/
  | rateLimitWindowClose (dt : Nat) (src : Nat)
  /-- R508. A Beacon READ returns up to 64 register words. -/
  | beaconRead (dt : Nat) (m : BeaconMsg)
  /-- R508. A Beacon WRITE makes up to 64 register writes and reports the refused ones. -/
  | beaconWrite (dt : Nat) (m : BeaconMsg)
  /-- R508. A Beacon BLOCK_READ returns up to 256 consecutive words. -/
  | beaconBlockRead (dt : Nat) (m : BeaconMsg) (start count : Nat)
  /-- R510. A SUBSCRIBE creates, renews or ends an events, telemetry or trace subscription. -/
  | beaconSubscribe (dt : Nat) (m : BeaconMsg) (kind action : Nat) (params : List Nat)
  /-- R510. A subscription ends after 60 s without renewal. -/
  | subscriptionExpiry (dt : Nat) (i : Fin 8)
  /-- R510. At each period the device reads the subscribed ranges and sends them. -/
  | telemetryNotify (dt : Nat) (i : Fin 8)
  /-- R510. A batch of event records is sent within 1 ms of its first record. -/
  | eventBatchNotify (dt : Nat) (i : Fin 8)
  /-- R510. A batch of 64 trace entries is sent to a trace subscriber. -/
  | traceNotify (dt : Nat) (i : Fin 8)
  /-- R101. An ARP request or ND solicitation for the unit's address is answered. -/
  | arpRx (dt : Nat) (port : Option (Fin 8)) (sub : Fin 4) (src : Nat) (own : AddrRequest)
  /-- R101. An echo request is answered within the per-port rate. -/
  | icmpEchoRx (dt : Nat) (port : Option (Fin 8)) (sub : Fin 4) (src len : Nat)
  /-- R101. An IGMP or MLD query is answered with reports for the flows. -/
  | igmpQueryRx (dt : Nat) (port : Fin 8) (sub : Fin 4) (mld : Bool)
  /-- R512. A one-byte I²C write sets the window pointer. -/
  | i2cPointerWrite (dt : Nat) (v : Byte)
  /-- R512. An I²C read returns window bytes from a copy taken at START. -/
  | i2cRead (dt : Nat) (len : Nat) (stop : Bool)
  /-- R512. Every 1 ms the I²C window copy is refreshed. -/
  | i2cWindowRefresh (dt : Nat)
  /-- R534. SCL held low for 35 ms abandons the transfer. -/
  | i2cTimeout (dt : Nat)
  /-- R284. For a channel whose output sends nothing, an item already sealed counts as released at E_k, moving PRIMING to LIVE or SHADOW and updating the release counters. -/
  | releaseInstant (dt : Nat) (n : Fin 96) (k : Nat)
  /-- R289. At G_k the multiplexer reads an item's audio window from its buffers and counts an underrun for every sample not yet written. -/
  | audioDueInstant (dt : Nat) (n : Fin 96) (k : Nat)
  /-- R295. At each 1 ms or 125 µs packet time, a KIND 2 ST 2110-30 egress flow reads its buffers and forms a datagram. -/
  | audioFlowPacketTime (dt : Nat) (i : Fin 2048) (short : Bool)
  /-- R420. The SRAM scrubber or a read finds a correctable SECDED error, writes back the corrected word and adds 1 to SAF_SRAM_CE. -/
  | sramCorrectedError (dt : Nat) (d : Fin 8)
  /-- R61. An instruction shifted in on TCK and TMS runs boundary scan or IDCODE and may drive TDO. -/
  | jtagInstruction (dt : Nat) (kind : Fin 3) (capture : Nat)
deriving DecidableEq, Repr

end Sys2Proof
end

