-- ==== Sys2Proof/Decode.lean ====
section
/-! DEFINITION. Words that spell commands. The opcode table of this block gives no row any bits: its commands are register
accesses, operations of its protocols, events on its pins and instants of its own datapath, and none of them is spelled by a
word. So no word decodes. -/

namespace Sys2Proof

/-- The command that the word `w` of `nbits` bits spells: none, whatever the word. -/
def decodeTableWord (_nbits _w : Nat) : Option Instr := none

end Sys2Proof
end

