-- ==== Sys2Proof/Machine/CodingTypes.lean ====
section
/-! DEFINITION. What the coding engines hand to one another: candidates of a coding unit, decided CTUs, and what the headers of
an item signal (R158, R164 to R166, R175 to R183, R201, R227, R290). -/

namespace Sys2Proof

/-- Split choices of a coding unit, in the order of R165. -/
inductive SplitMode where
  | quad | binH | binV | terH | terV
deriving DecidableEq, Repr

/-- Candidates within a coding unit (R165): merge index; MMVD, affine merge, GPM and CIIP variant; reference index and search
point; intra mode, MIP mode, ISP mode. -/
inductive CandKind where
  | merge (i : Nat)
  | mmvd (i : Nat)
  | sbtmvp
  | affineMerge (i : Nat)
  | gpm (i : Nat)
  | ciip (i : Nat)
  | motion (ref point : Nat)
  | intra (mode : Nat)
  | mip (i : Nat)
  | isp (i : Nat)
deriving DecidableEq, Repr

/-- Tools that an effort level turns on or off (R175, R176). -/
inductive Tool where
  | ternary | mrl | dualTree | cclm | mip | isp | amvr | mmvd | sbtmvp | smvd | bdof | dmvr | gpm | ciip | bcw | affine
  | prof | lfnst | mts | sbt | rdoq | dependent | alf | ccAlf | lmcs | amp
deriving DecidableEq, Repr

/-- Luma samples that a candidate reads of a reference, interpolation support and DMVR and BDOF margins included (R183, R189):
reference index, first column and one past the last, first row and one past the last. -/
structure RefRead where
  ref : Nat
  x0 : Int
  x1 : Int
  y0 : Int
  y1 : Int
deriving DecidableEq, Repr

/-- Motion of a block: position and size in its band, and for each list that it uses the reference index and the vector. -/
structure Motion where
  x : Nat
  y : Nat
  w : Nat
  h : Nat
  refs : List (Nat × Int × Int)
deriving DecidableEq, Repr

/-- What the evaluation of a candidate gives: the tools it uses, the samples it reads, the coding unit whose motion vector it
takes, its motion and quantised levels, its reconstruction, its rate in 1/32 bit, and the CABAC contexts after it (R164, R166). -/
structure Cand where
  tools : List Tool
  reads : List RefRead
  mvFrom : Option (Nat × Nat)
  motion : List Motion
  levels : List Int
  samples : Pic
  rate : Nat
  ctx : List Nat
deriving DecidableEq, Repr

/-- A decided coding unit: position, size, candidate, its motion and its quantised levels (R164); without motion it is intra, and
a skipped one has no level. -/
structure Leaf where
  x : Nat
  y : Nat
  w : Nat
  h : Nat
  kind : CandKind
  tools : List Tool
  motion : List Motion
  levels : List Int
deriving DecidableEq, Repr

/-- What an engine sees of a reference picture: the rows of its own part, and beside the boundary of a split picture those of the
halo (R160, R189), as the first luma row and the samples from there on; and the motion of the part, band by band. -/
structure RefView where
  top : Int
  samples : Pic
  motion : List (List Motion)
deriving DecidableEq, Repr

/-- What fixes the candidates of a coding unit (R165): codec, effort, QP, first luma row of its band, position in the band and
size, depth of its splits, whether inter candidates exist; the decision record; its source samples, the references, the
reconstruction and the coding units of its band so far, the contexts, and the search results of its CTU. `extent` is the search
range, horizontal and vertical, the finest step as a fraction of a sample and the transform tree depth of the effort level (R175,
R176). -/
structure CuIn where
  hevc : Bool
  effort : Nat
  extent : List Nat
  qp : Nat
  top : Nat
  x : Nat
  y : Nat
  w : Nat
  h : Nat
  mtt : Nat
  inter : Bool
  record : List Byte
  src : Pic
  refs : List RefView
  pre : Pic
  before : List Leaf
  ctx : List Nat
  search : List Int
deriving DecidableEq, Repr

/-- A decided CTU (R164, R198): its QP, whether it must be intra, and its coding units. -/
structure CtuSyntax where
  qp : Nat
  intra : Bool
  leaves : List Leaf
deriving DecidableEq, Repr

/-- A band before its loop filters: reconstruction and decided CTUs. -/
structure Unfiltered where
  pre : Pic
  ctus : List CtuSyntax
deriving DecidableEq, Repr

/-- What the loop filter of a band reads (R160): the band and those beside it in its part before the filters, its source, whether
SAO, ALF, CC-ALF and LMCS are on, and the models sent with the item. -/
structure FilterIn where
  hevc : Bool
  effort : Nat
  alf : Bool
  ccAlf : Bool
  lmcs : Bool
  sao : Bool
  above : Unfiltered
  cur : Unfiltered
  below : Unfiltered
  src : Pic
  models : List Nat
deriving DecidableEq, Repr

/-- Reference list signalling of an item (R227): active entries of list 0, to which list 1 is equal, each with whether it is a
long-term entry; a hold kept without being active; the collocated index. -/
structure ListSig where
  active : List (Nat × Bool)
  inactive : Option Nat
  collocated : Nat
deriving DecidableEq, Repr

/-- SEI messages of an item (R182, R290). -/
inductive Sei where
  /-- user_data_registered_itu_t_t35 with country code 0xB5 and provider code 0x0031: user identifier, its type code where it
  has one, and data. -/
  | t35 (user : List Byte) (type : Option Nat) (data : List Byte)
  | mastering (words : List Nat)
  | lightLevel (word : Nat)
  | alternativeTransfer (value : Nat)
  | recoveryPoint (count : Nat) (exact : Bool)
  | bufferingPeriod (delay : Nat)
  /-- Removal of the item from the CPB: picture periods after that of the item of the latest buffering period (R201). -/
  | pictureTiming (removal : Nat)
deriving DecidableEq, Repr

/-- How a refresh is coded: NAL unit type of the item's slices (R179, R181 to R184). -/
inductive NalKind where
  | idrNLp | cra | gdr | trail
deriving DecidableEq, Repr

/-- Coding tools that the device never uses (R179). -/
inductive UnusedTool where
  | palette | ibc | act | bdpcm | transformSkip | resampling | scalingLists | multipleLayers | sliceQpTables
  | pcm | crossComponent | extendedPrecision | dependentSegments
deriving DecidableEq, Repr

/-- What the codec alone fixes of an item's signalling (R158, R176, R179, R227). -/
structure FixedSyntax where
  bitDepth : Nat
  /-- field_seq_flag. -/
  fieldSeq : Bool
  ctu : Nat
  smallestCu : Nat
  /-- pps_rect_slice_flag (VVC). -/
  rectSlices : Bool
  /-- entropy_coding_sync_enabled_flag. -/
  entropySync : Bool
  /-- In-loop filters across slices; across subpictures or tiles. -/
  filterSlices : Bool
  filterParts : Bool
  /-- subpic_treated_as_pic_flag (VVC). -/
  partIsPicture : Bool
  /-- Sign data hiding (HEVC). -/
  signHiding : Bool
  /-- sps_long_term_ref_pics_flag, long_term_ref_pics_present_flag. -/
  longTerm : Bool
  /-- The lists stand in the picture header (VVC), or in each slice header with an explicit short-term set and
  delta_poc_msb_present_flag (HEVC). -/
  listsInPictureHeader : Bool
  explicitShortTerm : Bool
  deltaPocMsb : Bool
  off : List UnusedTool
deriving DecidableEq, Repr

/-- What the parameter sets and the picture header of an item say (R158, R177, R179, R180, R182, R188, R201, R227, R290). -/
structure Head where
  hevc : Bool
  fixed : FixedSyntax
  /-- general_profile_idc, general_level_idc, High tier. -/
  profile : Nat
  level : Nat
  high : Bool
  /-- Effort whose tools the parameter sets enable: ADMITTED (R177). -/
  tools : Nat
  width : Nat
  height : Nat
  /-- Rows and columns that conformance cropping removes. -/
  cropW : Nat
  cropH : Nat
  chroma : Nat
  /-- First CTU row of the lower part of a split channel. -/
  boundary : Option Nat
  /-- Parameter sets go with the item. -/
  sets : Bool
  nal : NalKind
  recovery : Option Nat
  /-- Column of the vertical virtual boundary. -/
  virtualAt : Option Nat
  lists : ListSig
  poc : Nat
  alf : Bool
  ccAlf : Bool
  lmcs : Bool
  models : List Nat
  primaries : Nat
  transfer : Nat
  matrix : Nat
  /-- HRD: bit rate in b/s, CPB size in bits, cbr_flag. -/
  hrd : Nat × Nat × Bool
  /-- Picture period in seconds, as a fraction. -/
  period : Nat × Nat
  sei : List Sei
deriving DecidableEq, Repr

/-- A slice as the entropy engine codes it (R158): the band, its slice address as CTU row, whether it is a dependent slice segment,
whether it is a B slice rather than an I slice, the slice QP, entry points, the filters used in it with the filter syntax of each
CTU, and its CTUs. -/
structure SliceSyntax where
  band : Nat
  ctuRow : Nat
  dependent : Bool
  bSlice : Bool
  qp : Nat
  entries : Nat
  sao : Bool
  alf : Bool
  ccAlf : Bool
  lmcs : Bool
  filters : List (List Nat)
  ctus : List CtuSyntax
deriving DecidableEq, Repr

/-- What a splice_info_section says (R291): the event, a cancel, a time signal rather than splice_insert,
out_of_network_indicator, pts_time, and the request's body with break duration or segmentation descriptors. -/
structure SpliceInfo where
  event : Nat
  cancel : Bool
  timeSignal : Bool
  out : Bool
  pts : Nat
  body : List Byte
deriving DecidableEq, Repr

/-- What the decoder reads of a picture of a catch-up stream (R371): codec, format, size, the sealed bytes of its bands, and its
references. -/
structure DecodeIn where
  hevc : Bool
  chroma : Nat
  width : Nat
  height : Nat
  bytes : List (List Byte)
  refs : List Pic
deriving DecidableEq, Repr

/-- What picture memory and the engines hold of an item, by band (R164, R211, R217): the input picture and its sampling (3 for
a decoded 4:2:0 picture), the prepared source, and for a repeat item coded as a refresh the source it is coded from (R185); the
activity of each band and CTU, the coarse motion and the histogram that the analysis found; the search results of each CTU, the
decided CTUs, the reconstruction before the loop filter, the filter syntax of each CTU, the samples as first written at stage 4, the
final samples, the halo that each part has sent, as first written and final (R189); the coded bytes, in a catch-up stream the CTU
CRCs that came with them (R370), what the confidence check of a part has read and reconstructed (R237), and what the headers say; and
the item whose picture this one repeats (R225). -/
structure PicSt where
  idx : Nat
  sampling : Nat
  input : List LineRun
  src : List (Nat × Pic)
  again : List (Nat × Pic)
  means : List (Nat × Nat)
  acts : List (Nat × List Nat)
  coarse : List (Nat × List (Int × Int))
  hists : List (Nat × List Nat)
  search : List (Nat × List (List Int))
  ctus : List (Nat × List CtuSyntax)
  pre : List (Nat × Pic)
  filters : List (Nat × List (List Nat))
  first : List (Nat × Pic)
  final : List (Nat × Pic)
  halo : List (Nat × Pic × Pic)
  bytes : List (Nat × List Byte)
  crcs : List (Nat × List Nat)
  checked : List (Nat × Option (NalKind × SliceSyntax) × Pic)
  head : Option Head
  same : Option Nat
deriving DecidableEq, Repr

def PicSt.blank (k : Nat) : PicSt := ⟨k, 0, [], [], [], [], [], [], [], [], [], [], [], [], [], [], [], [], [], none, none⟩

end Sys2Proof
end

