-- ==== Sys2Proof/Machine/StreamTypes.lean ====
section
/-! DEFINITION. What a contribution stream says and what the moth decoder holds of it: parameter sets, slices, pictures under way
and its DPB (R112, R127, R236, R244 to R251). -/

namespace Sys2Proof

/-- Kinds of parameter set. -/
inductive SetKind where
  | vps | sps | pps | aps
deriving DecidableEq, Repr

/-- What the decoder needs of a sequence parameter set (R244): codec, general_profile_idc, whether its constraints say Main 4:2:2 10,
general_level_idc, bit depth, chroma format (0 4:2:0, 1 4:2:2, 2 4:4:4), fields instead of pictures, coded size, first column and row
of the conformance window and its size, and CTU size. -/
structure SpsInfo where
  hevc : Bool
  profile : Nat
  main422 : Bool
  level : Nat
  bitDepth : Nat
  chroma : Nat
  field : Bool
  width : Nat
  height : Nat
  cropX : Nat
  cropY : Nat
  outW : Nat
  outH : Nat
  ctu : Nat
deriving DecidableEq, Repr

/-- A parameter set: its ID, that of the set it refers to, and of a sequence parameter set what it says. -/
structure ParamSet where
  kind : SetKind
  id : Nat
  needs : Nat
  sps : Option SpsInfo
  bytes : List Byte
deriving DecidableEq, Repr

/-- What a slice header says (R248 to R251): its first CTU in raster order, whether it is an I slice, the picture order count of its
picture, the pictures that its reference lists and reference picture set name, and ph_recovery_poc_cnt. -/
structure SliceHead where
  addr : Nat
  intra : Bool
  poc : Int
  names : List Int
  recovery : Option Nat
deriving DecidableEq, Repr

/-- A slice as received: its NAL unit up to the first missing byte, and whether a byte is missing, which was counted as an error. -/
structure SliceIn where
  head : SliceHead
  bytes : List Byte
  cut : Bool
deriving DecidableEq, Repr

/-- A picture as a reference: its picture order count, samples and motion. -/
structure RefPic where
  poc : Int
  samples : Pic
  motion : List Motion
deriving DecidableEq, Repr

/-- What fixes the decoding of a piece (R236): the parameter sets, the slices of the picture, the references, the luma rows of the piece,
the picture's samples before the filters so far, and the state that the piece before left: CABAC contexts and parsing position. -/
structure PieceIn where
  sps : SpsInfo
  sets : List ParamSet
  slices : List SliceIn
  refs : List RefPic
  lo : Nat
  hi : Nat
  before : Pic
  state : List Nat
deriving DecidableEq, Repr

/-- What the decoding of a piece gives: its rows before the filters, the CTUs decoded, for each slice in which an error is detected
its place and the CTU at which it is, the filter syntax of the CTUs, motion, and the state for the next piece. -/
structure PieceOut where
  rows : Pic
  ctus : List Nat
  errs : List (Nat × Nat)
  filters : List (List Nat)
  motion : List Motion
  state : List Nat
deriving DecidableEq, Repr, Inhabited

/-- A contribution picture under way (R236, R245, R248): number in decoding order, PTS (extended) and that mapped to the DTC; its
sequence parameter set, the other sets in force, its slices, whether it is an IRAP picture, whether it is a recovery point, its picture
order count (none where no slice header was decoded) and the pictures it names; pieces and those complete, whether it has begun, the
item whose slot it took, captions of its SEI; and of the decoding so far the samples before the filters, filter syntax, motion, CTUs
decoded, lost, and lost by an error in their slice, the state, the rows filtered and the rows passed on, and whether it used a substitute or refers to a concealed picture. -/
structure DecPic where
  m : Nat
  pts : Nat
  p : Int
  sps : SpsInfo
  sets : List ParamSet
  slices : List SliceIn
  irap : Bool
  recovery : Bool
  poc : Option Int
  names : List Int
  pieces : Nat
  doneP : Nat
  begun : Bool
  item : Option Nat
  captions : List Byte
  refs : List RefPic
  pre : Pic
  filters : List (List Nat)
  motion : List Motion
  ctus : List Nat
  lost : List Nat
  known : List Nat
  state : List Nat
  sent : Nat
  subst : Bool
  refBad : Bool
deriving DecidableEq, Repr

/-- A picture in the moth decoder's DPB (R249 to R251): picture order count, PTS, which gives its place in output order, samples,
motion, decoded with no lost CTU, marked concealed, and the item whose input buffer holds it. -/
structure DpbPic where
  poc : Option Int
  pts : Nat
  samples : Pic
  motion : List Motion
  whole : Bool
  concealed : Bool
  item : Option Nat
deriving DecidableEq, Repr

/-- A picture whose access unit is being received: PTS, slices so far, sequence parameter set, IRAP, recovery point, captions. -/
structure OpenPic where
  pts : Nat
  sps : SpsInfo
  irap : Bool
  recovery : Bool
  slices : List SliceIn
  captions : List Byte
deriving DecidableEq, Repr

/-- The demultiplexer of a contribution flow (R127, R247, R248). `pmt`, `video` (with HEVC), `pcr`, `audio`, `splice`: the PIDs of the
program. `sections` and `pes`: sections and audio PES packets under way, by PID. `cc`: continuity counter of the video PID. `pts`: the PTS
of the video PES packet under way and whether a picture has taken it. `zeros`: zero bytes just seen. `nal`: the NAL unit under
way, none while bytes are discarded to the next start code; `kept`: the part of a damaged one before the first missing byte. `resync`: an error since the last start code.
`sets`: the last valid parameter sets, `sps` the sequence parameter set last used. `ph`, `phNew`: the last VVC picture header, and whether a
slice has followed it. `recCount`: of an HEVC recovery point message for the picture to come. `prevPoc`, `recoverAt`: picture order
counts of the last picture that others are counted from, and of the next recovery picture. `captions`: of the SEI of the picture to come. `pic`: the picture. -/
structure Demux where
  pmt : Option Nat
  video : Option (Nat × Bool)
  pcr : Option Nat
  audio : List Nat
  splice : List Nat
  sections : List (Nat × List Byte)
  pes : List (Nat × List Byte)
  cc : Option Nat
  pts : Option (Nat × Bool)
  zeros : Nat
  nal : Option (List Byte)
  kept : Option (List Byte)
  resync : Bool
  sets : List ParamSet
  ph : List Byte
  phNew : Bool
  recCount : Option Int
  sps : Option SpsInfo
  prevPoc : Int
  recoverAt : Option Int
  captions : List Byte
  pic : Option OpenPic
deriving DecidableEq, Repr

def Demux.reset : Demux :=
  ⟨none, none, none, [], [], [], [], none, none, 0, none, none, false, [], [], false, none, none, 0, none, [], none⟩

end Sys2Proof
end

