-- ==== Sys2Proof/Config.lean ====
section
/-! DEFINITION. What an implementation fixes and the spec leaves open. Every constant here is opaque: nothing can be
proved of its value, so a claim about the machine holds for every value. The assumption log names each. -/

namespace Sys2Proof.Config

/-- The fused unit serial number (R517), silicon revision and 32-byte recovery key (R505). -/
opaque serial : List Byte
opaque revision : Nat
opaque recoveryKey : List Byte

/-- Random draws: EMG_NONCE (R60) and MGT_SESSION (R507), by number of the draw. -/
opaque draw : Nat → BitVec 64

/-- DTC increment of one pilot tick in E0 to E3: nominal, corrected by the temperature compensation (R322, R337). -/
opaque pilotIncEarly : Nat → Int → Nat

/-- The servo's increment scaled by the pilot's learned ratio (R322): increment, learned offset, correction of the trim. -/
opaque pilotIncScaled : Nat → Int → Int → Nat

/-- The correction that an element's fused coefficients give for a reading of its serving sensor (R469): die, sensor, reading in
1/16 °C. -/
opaque compensate : Nat → Nat → Int → Int

/-- The integrator and the proportional part of the servo of R328, by bandwidth code. -/
opaque servoInteg : Nat → Int → Int → Int
opaque servoProp : Nat → Int → Int

/-- The mean of the two middle measurements when they differ (R328, median of an even number). -/
opaque medianMid : Int → Int → Int

/-- The learned pilot offset after one more ratio measurement (R337). -/
opaque pilotLearn : Int → Int → Int

/-- Does the value of a section keep the layout and range rules of its defining chapter, beyond what the register
fields' own ranges say (R57)? Section type, version, value. -/
opaque sectionLayoutOk : Nat → Nat → List Byte → Bool

/-- Byte offset in the section value at which R57 finds the fault. -/
opaque sectionFaultOffset : Nat → List Byte → Nat

/-- The registers a section loads (R56): address and value. The spec gives no byte layout of these sections. -/
opaque sectionLoads : Nat → List Byte → List (Nat × Nat)

/-- Is the version SVER of a section type known (R55)? -/
opaque sverKnown : Nat → Nat → Bool

/-- Settings the image holds that no register shows, read from a section's value: lane-up time in ms (network, R47),
restore window in ms (calibration seeds, R71), Beacon operating key (identity, R56). -/
opaque laneUpMs : List Byte → Nat
opaque restoreMs : List Byte → Nat
opaque operatingKey : List Byte → List Byte
/-- The pair key of the twin section (R352). -/
opaque pairKey : List Byte → List Byte

/-- Time from a snuff's detection to SAFE_N low, in ns (R409 bounds it by 5 µs); by number of the free value. -/
opaque snuffLatency : Nat → Nat

/-- Time from the taking decision to the gates opening, in ns (R356 bounds it by 0.5 µs). -/
opaque gateDelay : Nat → Nat

/-- Rounding of a mean that falls between two values, by number of the free value: up where it is odd. -/
opaque roundUp : Nat → Nat

/-- The logarithm of R196 for a quotient of 0, which no rule gives, by divisor. -/
opaque log2Zero : Nat → Int

/-- Inter shares of a slate picture against the picture before it and the one before that, as blocks with the smaller match
and all blocks (R163, R186): channel, item. -/
opaque slateShare : Nat → Nat → Nat × Nat
opaque slateShare2 : Nat → Nat → Nat × Nat

/-! ## Input preparation (R120, R124): the fixed coefficients, which the spec does not give -/

/-- Full-range to narrow-range scaling of a sample: component, code. -/
opaque narrow : Nat → Nat → Nat

/-- RGB to Y, Cb, Cr with the matrix of a colorimetry: colorimetry code, G, B, R. -/
opaque rgbToYcc : Nat → Nat → Nat → Nat → List Nat

/-- Colour conversion of the luma lines that share one line of Cb and Cr samples: CONV, the lines. -/
opaque convertRows : Nat → Pic → Pic

/-- One scaled sample: filter set; input rows, output rows, output row, input columns, output columns, output column; and the
8 × 8 samples under the taps. -/
opaque scaleTap : Nat → List Nat → Plane → Nat

/-- One resampled chroma row: input columns, input rows, output columns, output rows, component, output row; and the ten input
rows around it. -/
opaque chromaRow : List Nat → Plane → List Nat

/-- A picture of the slate section and its colorimetry: section value, SLATE_ID. -/
opaque slatePicture : List Byte → Nat → Option (Pic × Nat)

/-- The activity of an 8×8 block of samples (R164). -/
opaque activity : Plane → Nat

/-- The histogram that the analysis takes of the quarter-resolution luma of a band (R164). -/
opaque histogram : Plane → List Nat

/-! ## Coding (R164 to R166, R205, R210): what the codec standards and the device's fixed tables give, which the spec does
not write out -/

/-- The decoder's samples of each band of a picture (R371). -/
opaque decodePicture : DecodeIn → List Pic

/-- λ of R166 with 16 fraction bits, by QP. -/
opaque lambda : Nat → Nat

/-- The evaluation of a candidate of a coding unit; none where the unit has no such candidate. -/
opaque candidate : CuIn → CandKind → Option Cand

/-- Number of variants of MMVD, affine merge, GPM, CIIP, MIP and ISP (in this order) of a coding unit. -/
opaque variants : CuIn → Nat → Nat

/-- Search points of a reference index that the range and step of the effort level give (R175): effort, codec, reference. -/
opaque searchPoints : CuIn → Nat → Nat

/-- Intra modes of a coding unit in the order of the pre-selection of stage 2. -/
opaque intraRank : CuIn → List Nat

/-- Does the codec allow the split here, must it split, and the rate of signalling it (none: not split). -/
opaque splitLegal : CuIn → SplitMode → Bool
opaque splitForced : CuIn → Bool
opaque splitRate : CuIn → Option SplitMode → Nat

/-- May a candidate be skipped (R166): effort, costs already computed, what is to be skipped? -/
opaque skips : Nat → List Nat → CandKind → Bool
opaque prunes : Nat → List Nat → SplitMode → Bool

/-- CABAC contexts at the start of a band: HEVC, QP. -/
opaque ctxStart : Bool → Nat → List Nat

/-- Stage 2 of a CTU (R164): HEVC (1) or VVC (0), effort, search range, step and depth of R175 and R176, column, row and size of
the CTU; its source samples, the coarse motion of its band, and the samples as first written of the search references; the
search results. -/
opaque searchCtu : List Nat → Pic → List (Int × Int) → List RefView → List Int

/-- The filter syntax of each CTU of a band, and the in-loop filters of the codec over the band with it (R160, R164). -/
opaque filterSyntax : FilterIn → List (List Nat)
opaque loopFilter : FilterIn → List (List Nat) → Pic

/-- The lowest merge index whose candidate has zero motion on reference index 0 (R205): HEVC, column and row of the CTU, the
coding units of the band before it, and the motion of the references. -/
opaque zeroMerge : Bool → Nat → Nat → List Leaf → List RefView → Nat

/-- The slice QP that a decoder reads in a coded band: HEVC, its bytes. -/
opaque readQp : Bool → List Byte → Nat

/-- What a decoder reads in the bytes of a coded band under an item's head (R237): NAL unit type and syntax elements; none where
one is out of range, an emulation prevention byte is missing or misplaced, or the data does not end at rbsp_trailing_bits. -/
opaque readSlice : Head → List Byte → Option (NalKind × SliceSyntax)

/-- A band before its loop filters as a decoder reconstructs it: its syntax and the references. -/
opaque reconstruct : Head → SliceSyntax → List RefView → Pic

/-- The reference samples that a coding unit reads, and the unit whose motion vector it takes (R183). -/
opaque leafReads : Head → SliceSyntax → Leaf → List RefRead × Option (Nat × Nat)

/-- ALF and LMCS models derived from a picture: its source and its final samples (R164). -/
opaque models : Pic → Pic → List Nat

/-- Planar intra prediction of a coding unit of an ember band (R205): HEVC, the luma column at which its reference samples end,
where R183 restricts them, its column, row, width and height, and the reconstruction of the band so far. -/
opaque planarIntra : Bool → Option Nat → List Nat → Pic → Pic

/-- NAL unit of a slice, in bytes (R158, R208): the item's head, the slice. -/
opaque sliceBytes : Head → SliceSyntax → List Byte

/-- NAL units of an item that are not slices, in bytes (R207). -/
opaque headBytes : Head → List Byte

/-! ## Contribution streams (R127, R236, R244 to R251): what the standards named give -/

/-- The parameter set in a NAL unit, none where it has a syntax error: HEVC, kind, the valid sets, the unit. -/
opaque parseSet : Bool → SetKind → List ParamSet → List Byte → Option ParamSet

/-- The picture parameter set that a slice refers to, none where its header has an error: HEVC, the VVC picture header before it, its
NAL unit. -/
opaque slicePps : Bool → List Byte → List Byte → Option Nat

/-- A slice header, none where it has an error: HEVC, the valid sets, the VVC picture header, the picture order count that others are
counted from, the NAL unit. -/
opaque sliceHead : Bool → List ParamSet → List Byte → Int → List Byte → Option SliceHead

/-- The decoding of a piece, and the in-loop filters over the rows decoded so far, which leave out the CTUs named and their edges:
sequence parameter set, filter syntax, those CTUs, the rows. -/
opaque decodePiece : PieceIn → PieceOut
opaque decodeFilter : SpsInfo → List (List Nat) → List Nat → Pic → Pic

/-- The words of each channel in the payload of an ST 302M PES packet, and the audio buffer that a channel of a PID of a context
goes to: the spec gives no map (R127). -/
opaque read302 : List Byte → List (List Word)
opaque buffer302 : Nat → Nat → Nat → Nat

/-- The command of a splice_info_section and its splice time as PTS. -/
opaque readSplice : List Byte → Option (SpliceCmd × Nat)

/-! ## Streams (R285, R289, R291, R297): what the standards named give, which the spec does not write out -/

/-- A splice_info_section. -/
opaque spliceSection : SpliceInfo → List Byte

/-- Video descriptor of a PMT: HEVC, profile, level, High tier. -/
opaque videoDescriptor : Bool → Nat → Nat → Bool → List Byte

/-- ST 302M payload of a PES packet: BITS, and the words of each channel. -/
opaque st302 : Nat → List (List Word) → List Byte

/-- The unit's own IP address on a sub-port (port × 4 + sub-port), as bytes: IPv6 or IPv4. -/
opaque portAddress : Bool → Nat → List Byte

/-- Length of the PTP messages the unit sends, from destination address to FCS; the spec names no PTP transport. -/
opaque ptpLength : Nat

/-- Rounding of a credit to 2⁻¹⁶ B (R308), by number of the free value and flow: up where it is odd. -/
opaque creditUp : Nat → Nat → Nat

/-- Error of a PCR in ns, which R287 bounds by 500: by number of the free value and place in the datagram. -/
opaque pcrError : Nat → Nat → Int

/-- Error of a PTP timestamp in ns, which R327 bounds by 4. -/
opaque ptpError : Nat → Int

/-- 1 where this unit's serial number is the lower one of two units that claim the same unit number (R48). -/
opaque serialLower : Nat

/-- The seed that the calibration-seeds section gives a receiver (R451): section value, receiver. -/
opaque calSeed : List Byte → Nat → List Int

/-- Payload of a boot record of the wear log, which no chapter defines (R69): the draws made so far. -/
opaque bootPayload : Nat → List Byte

/-- Fused reference frequency in Hz and temperature coefficient (0.001 per °C) of a wax gauge (R470): die, gauge. -/
opaque gaugeRef : Nat → Nat → Nat
opaque gaugeTc : Nat → Nat → Int

/-- SI_MIN of a die as it would read at another voltage, by the gauges' fused voltage coefficients (R478): die, SI_MIN, the
two voltages in mV. -/
opaque siAt : Nat → Nat → Nat → Nat → Nat

/-- A reading of 1/8 °C in whole °C (R479 gives no rounding). -/
opaque degrees : Int → Int

/-- Days to shortfall where every record has the same operating time and no line is fixed (R478). -/
opaque daysOpen : Nat

/-- The SCTE-104 message in the data of an ancillary packet (R125), whose layout the spec does not give: its opIDs, and the
command of each splice_request_data and time_signal_request_data with its segmentation descriptors. -/
opaque scte104 : List Byte → List Nat × List SpliceCmd

/-- Centre of a passing window of an even number of steps, which lies between two of them (R440, R444): the upper one where
this is odd, by first and last offset. -/
opaque centreUp : Int → Int → Nat

/-- The user bit of an AES3 subframe sent with CS_SRC = 0, which R144 leaves open, by number of the free value. -/
opaque userBit : Nat → Bool

/-- A word of MC_TRN or MC_TRN_PAT once a controller trains, whose content the spec does not lay out (R449): by number of the
free value and address. -/
opaque trainingWord : Nat → Nat → Nat

/-- Number of the stream-assembly output buffer of a band (R259): die, channel, item, band, and how many of its buffers were sealed
before. Free value (log 52). -/
opaque outBuffer : Nat → Nat → Nat → Nat → Nat → Nat

end Sys2Proof.Config
end

