-- ==== Sys2Proof/Machine/RegNames.lean ====
section
/-! DEFINITION. The addresses of the registers, by the names the spec gives them (`spec/22_register_map.md`, R513
to R518, and the register tables it indexes). -/

namespace Sys2Proof.Machine.Reg

/-! R517, 22_register_map.md: identity. -/

abbrev IDN_PART : Nat := 0x00000000
abbrev IDN_UNIT : Nat := 0x00000004
abbrev IDN_SERIAL (i : Nat) : Nat := 0x00000010 + 4 * i
abbrev IDN_MAC_LO : Nat := 0x00000020
abbrev IDN_MAC_HI : Nat := 0x00000024
abbrev IDN_NAME (i : Nat) : Nat := 0x00000030 + 4 * i

/-! R73, 02_emergence_cocoon.md: emergence. -/

abbrev EMG_STATUS : Nat := 0x00001000
abbrev EMG_CTRL : Nat := 0x00001004
abbrev EMG_IMAGE : Nat := 0x00001008
abbrev EMG_SEQ_LO : Nat := 0x0000100C
abbrev EMG_SEQ_HI : Nat := 0x00001010
abbrev EMG_FAIL : Nat := 0x00001014
abbrev EMG_FAIL_OFFSET : Nat := 0x00001018
abbrev EMG_NONCE_LO : Nat := 0x0000101C
abbrev EMG_NONCE_HI : Nat := 0x00001020
abbrev EMG_T_E (i : Nat) : Nat := 0x00001024 + 4 * i
abbrev EMG_T_LIVE : Nat := 0x00001048
abbrev EMG_RESET : Nat := 0x00001050
abbrev EMG_BOOTS : Nat := 0x00001054
abbrev EMG_LOG_HEAD : Nat := 0x00001058
abbrev EMG_LOG_SEL : Nat := 0x0000105C
abbrev EMG_LOG_DROP : Nat := 0x00001060
abbrev EMG_LOG_WIN (i : Nat) : Nat := 0x00001100 + 4 * i

/-! R502, 21_events_telemetry.md: event unit. -/

abbrev EVT_CTRL : Nat := 0x00002000
abbrev EVT_HEAD : Nat := 0x00002004
abbrev EVT_TAIL : Nat := 0x00002008
abbrev EVT_PENDING : Nat := 0x0000200C
abbrev EVT_LOST : Nat := 0x00002010
abbrev EVT_SEV_MAX : Nat := 0x00002014
abbrev EVT_COUNT_SEV (i : Nat) : Nat := 0x00002020 + 4 * i

/-! R425, 16_functional_safety.md: safety. -/

abbrev SAF_CTRL : Nat := 0x00008000
abbrev SAF_STATUS : Nat := 0x00008004
abbrev SAF_SNUFF_T : Nat := 0x00008008
abbrev SAF_SNUFF_LAT : Nat := 0x0000800C
abbrev SAF_DEPARTURES : Nat := 0x00008010
abbrev SAF_BAND_LATE : Nat := 0x00008014
abbrev SAF_WD_FIRES : Nat := 0x00008018
abbrev SAF_LOCKSTEP : Nat := 0x0000801C
abbrev SAF_SRAM_CE : Nat := 0x00008020
abbrev SAF_SRAM_UE : Nat := 0x00008024
abbrev SAF_CRC_CHAIN : Nat := 0x00008028
abbrev SAF_TAG_FAULTS : Nat := 0x0000802C
abbrev SAF_FR_PARTNER : Nat := 0x00008030
abbrev SAF_LATE (i : Nat) : Nat := 0x00008040 + 4 * i
abbrev SAF_LAST_SNUFF : Nat := 0x00008050
abbrev SAF_LAST_SNUFF_T : Nat := 0x00008054

/-! R380, 14_twin_flame.md: twin and flame. -/

abbrev TWN_CTRL : Nat := 0x00009000
abbrev TWN_HOLDOFF : Nat := 0x00009004
abbrev TWN_CMD : Nat := 0x00009008
abbrev TWN_BEACON_PORT : Nat := 0x0000900C
abbrev TWN_BEACON_DST (i : Nat) : Nat := 0x00009010 + 4 * i
abbrev TWN_STATUS : Nat := 0x00009040
abbrev TWN_EPOCH : Nat := 0x00009044
abbrev TWN_TAKEOVERS : Nat := 0x00009048
abbrev TWN_HANDOVERS : Nat := 0x0000904C
abbrev TWN_REPLAYED : Nat := 0x00009050
abbrev TWN_REPLAY_DROP : Nat := 0x00009054
abbrev TWN_CMD_REFUSED : Nat := 0x00009058
abbrev TWN_LAST_TAKE : Nat := 0x0000905C
abbrev TWN_JOINING : Nat := 0x00009060
abbrev TWN_HOLDOFF_LEFT : Nat := 0x00009064
abbrev TWN_CONF (i : Nat) : Nat := 0x00009070 + 4 * i

/-! R340, 13_time_clocks.md: device time. -/

abbrev DTC_NS_LO : Nat := 0x0000A000
abbrev DTC_NS_HI : Nat := 0x0000A004
abbrev DTC_FRAC : Nat := 0x0000A008
abbrev DTC_INC_LO : Nat := 0x0000A010
abbrev DTC_INC_HI : Nat := 0x0000A014
abbrev DOFF_LO : Nat := 0x0000A018
abbrev DOFF_HI : Nat := 0x0000A01C
abbrev TIME_CTRL : Nat := 0x0000A020
abbrev TIME_STATUS : Nat := 0x0000A024
abbrev DOFF_STEPS : Nat := 0x0000A028
abbrev ISLAND_SEC_LO : Nat := 0x0000A02C
abbrev ISLAND_SEC_HI : Nat := 0x0000A030
abbrev REF_CTRL : Nat := 0x0000A040
abbrev REF_STATUS : Nat := 0x0000A044
abbrev REF_FREQ_A : Nat := 0x0000A048
abbrev REF_FREQ_B : Nat := 0x0000A04C
abbrev PILOT_FREQ : Nat := 0x0000A050
abbrev REF_SWITCHES : Nat := 0x0000A054
abbrev PPS_CTRL : Nat := 0x0000A060
abbrev PPS_IN_LAST : Nat := 0x0000A064
abbrev PPS_IN_ERR : Nat := 0x0000A068
abbrev PPS_IN_GLITCH : Nat := 0x0000A06C

/-! R341, 13_time_clocks.md: PTP. -/

abbrev PTP_CTRL : Nat := 0x0000B000
abbrev PTP_PORTS : Nat := 0x0000B004
abbrev PTP_GLIDE : Nat := 0x0000B008
abbrev PTP_SLEW : Nat := 0x0000B00C
abbrev PTP_STEP_CONFIRM : Nat := 0x0000B010
abbrev PTP_ACQ : Nat := 0x0000B014
abbrev PTP_DREQ : Nat := 0x0000B018
abbrev PTP_STATUS : Nat := 0x0000B040
abbrev PTP_OFFSET : Nat := 0x0000B044
abbrev PTP_MPD : Nat := 0x0000B048
abbrev PTP_GM_LO : Nat := 0x0000B04C
abbrev PTP_GM_HI : Nat := 0x0000B050
abbrev PTP_GM_CLASS : Nat := 0x0000B054
abbrev PTP_SYNC_RX : Nat := 0x0000B058
abbrev PTP_RX_DISCARD : Nat := 0x0000B05C
abbrev PTP_OUTLIERS : Nat := 0x0000B060
abbrev PTP_ANN_TIMEOUT : Nat := 0x0000B064
abbrev PTP_SM (i : Nat) : Nat := 0x0000B080 + 4 * i

/-! R99/R483, 03_channels_capacity.md: capacity planner. -/

abbrev CAP_CTRL : Nat := 0x0000C000
abbrev CAP_UNIT_LIMIT : Nat := 0x0000C004
abbrev CAP_UNIT_LOAD : Nat := 0x0000C008
abbrev CAP_UNIT_LOAD_EFF : Nat := 0x0000C00C
abbrev CAP_SHED_COUNT : Nat := 0x0000C010
abbrev CAP_LIM_D (i : Nat) : Nat := 0x0000C020 + 4 * i
abbrev CAP_AVS : Nat := 0x0000C040
abbrev CAP_AVS_CFG : Nat := 0x0000C044
abbrev CAP_PMB_ADDR0 : Nat := 0x0000C048
abbrev CAP_PMB_ADDR1 : Nat := 0x0000C04C
abbrev CAP_T_PLAN : Nat := 0x0000C050
abbrev CAP_HOURS : Nat := 0x0000C054
abbrev CAP_NEXT_PLAN : Nat := 0x0000C058
abbrev CAP_ADVISORY : Nat := 0x0000C05C
abbrev CAP_DIE (i : Nat) : Nat := 0x0000C060 + 4 * i

/-! R482, 19_thermal_ageing.md: thermal. -/

abbrev THM_CTRL : Nat := 0x0000D000
abbrev THM_STATUS : Nat := 0x0000D004
abbrev THM_DIM : Nat := 0x0000D008
abbrev THM_HOTTEST : Nat := 0x0000D00C
abbrev THM_THROTTLES : Nat := 0x0000D010
abbrev THM_DIM_STEPS : Nat := 0x0000D014

/-! R511, 21_events_telemetry.md: management. -/

abbrev MGT_CTRL : Nat := 0x0000E000
abbrev MGT_SESSION : Nat := 0x0000E004
abbrev MGT_REFUSED : Nat := 0x0000E008
abbrev MGT_RX_OK : Nat := 0x0000E00C
abbrev MGT_AUTH_FAIL : Nat := 0x0000E010
abbrev MGT_STALE : Nat := 0x0000E014
abbrev MGT_OVERRUN : Nat := 0x0000E018
abbrev MGT_NOTIFY_DROP : Nat := 0x0000E01C
abbrev MGT_SUBS : Nat := 0x0000E020

/-! R155, 05_audio_ports.md: audio port n. -/

abbrev AUD_CTRL (n : Nat) : Nat := 0x00010000 + 0x400 * n
abbrev AUD_SLOT_MASK (n : Nat) : Nat := 0x00010004 + 0x400 * n
abbrev AUD_PREROLL (n : Nat) : Nat := 0x00010008 + 0x400 * n
abbrev AUD_LAT (n : Nat) : Nat := 0x0001000C + 0x400 * n
abbrev AUD_SLOT_BUF (n i : Nat) : Nat := 0x00010040 + 0x400 * n + 4 * i
abbrev AUD_STATUS (n : Nat) : Nat := 0x00010080 + 0x400 * n
abbrev AUD_STARTS (n : Nat) : Nat := 0x00010084 + 0x400 * n
abbrev AUD_PARITY_ERR (n : Nat) : Nat := 0x00010088 + 0x400 * n
abbrev AUD_CRCC_ERR (n : Nat) : Nat := 0x0001008C + 0x400 * n
abbrev AUD_BLOCK_RESYNC (n : Nat) : Nat := 0x00010090 + 0x400 * n
abbrev AUD_VALIDITY (n : Nat) : Nat := 0x00010094 + 0x400 * n
abbrev AUD_CS_TX_A (n i : Nat) : Nat := 0x00010100 + 0x400 * n + 4 * i
abbrev AUD_CS_TX_B (n i : Nat) : Nat := 0x00010120 + 0x400 * n + 4 * i
abbrev AUD_CS_RX_A (n i : Nat) : Nat := 0x00010140 + 0x400 * n + 4 * i
abbrev AUD_CS_RX_B (n i : Nat) : Nat := 0x00010160 + 0x400 * n + 4 * i

/-! R156, 05_audio_ports.md: word clock and audio buffers. -/

abbrev AUD_WC_CTRL : Nat := 0x00014000
abbrev AUD_WC_STATUS : Nat := 0x00014004
abbrev AUD_WC_FREQ : Nat := 0x00014008
abbrev AUD_WC_SWITCHES : Nat := 0x0001400C
abbrev AUD_WC_GLITCHES : Nat := 0x00014010
abbrev AUD_BUF_SEL : Nat := 0x00014100
abbrev AUD_BUF_WRITER : Nat := 0x00014104
abbrev AUD_BUF_FILL : Nat := 0x00014108
abbrev AUD_BUF_UNDER : Nat := 0x0001410C
abbrev AUD_BUF_OVER : Nat := 0x00014110
abbrev AUD_BUF_TIME : Nat := 0x00014114

/-! R300, 11_output_release.md: egress flow n. -/

abbrev OF_CTRL (n : Nat) : Nat := 0x00020000 + 0x40 * n
abbrev OF_NET (n : Nat) : Nat := 0x00020004 + 0x40 * n
abbrev OF_VLAN (n : Nat) : Nat := 0x00020008 + 0x40 * n
abbrev OF_UDP (n : Nat) : Nat := 0x0002000C + 0x40 * n
abbrev OF_RED_DST (n i : Nat) : Nat := 0x00020010 + 0x40 * n + 4 * i
abbrev OF_BLUE_DST (n i : Nat) : Nat := 0x00020020 + 0x40 * n + 4 * i
abbrev OF_SSRC (n : Nat) : Nat := 0x00020030 + 0x40 * n
abbrev OF_TS (n : Nat) : Nat := 0x00020034 + 0x40 * n
abbrev OF_AUX (n : Nat) : Nat := 0x00020038 + 0x40 * n
abbrev OF_CURSOR (n : Nat) : Nat := 0x0002003C + 0x40 * n

/-! R318, 12_egress_scheduling.md: traffic manager of port n. -/

abbrev TMG_CTRL (n : Nat) : Nat := 0x00040000 + 0x2000 * n
abbrev TMG_STATUS (n : Nat) : Nat := 0x00040004 + 0x2000 * n
abbrev TMG_CYCLE (n : Nat) : Nat := 0x00040008 + 0x2000 * n
abbrev TMG_LEN (n : Nat) : Nat := 0x0004000C + 0x2000 * n
abbrev TMG_BASE_LO (n : Nat) : Nat := 0x00040010 + 0x2000 * n
abbrev TMG_BASE_HI (n : Nat) : Nat := 0x00040014 + 0x2000 * n
abbrev TMG_ADMIN_CYCLE (n : Nat) : Nat := 0x00040018 + 0x2000 * n
abbrev TMG_ADMIN_LEN (n : Nat) : Nat := 0x0004001C + 0x2000 * n
abbrev TMG_GCL_CTRL (n : Nat) : Nat := 0x00040020 + 0x2000 * n
abbrev TMG_GCL_DATA (n : Nat) : Nat := 0x00040024 + 0x2000 * n
abbrev TMG_GCL_OPER (n : Nat) : Nat := 0x00040028 + 0x2000 * n
abbrev TMG_SWITCHES (n : Nat) : Nat := 0x0004002C + 0x2000 * n
abbrev TMG_GCL_REFUSED (n : Nat) : Nat := 0x00040030 + 0x2000 * n
abbrev TMG_BUF_FREE (n : Nat) : Nat := 0x00040034 + 0x2000 * n
abbrev TMG_BUF_LOW (n : Nat) : Nat := 0x00040038 + 0x2000 * n
abbrev TMC_FRAMES (n i j : Nat) : Nat := 0x00040100 + 0x2000 * n + 256 * i + 16 * j
abbrev TMC_BYTES (n i j : Nat) : Nat := 0x00040104 + 0x2000 * n + 256 * i + 16 * j
abbrev TMC_DROPPED (n i j : Nat) : Nat := 0x00040108 + 0x2000 * n + 256 * i + 16 * j
abbrev TMC_DEFERRED (n i j : Nat) : Nat := 0x0004010C + 0x2000 * n + 256 * i + 16 * j
abbrev TMS_GATE_DISCARD (n i : Nat) : Nat := 0x00040180 + 0x2000 * n + 256 * i

/-! R319, 12_egress_scheduling.md: shaper entry of flow n. -/

abbrev TF_RATE (n : Nat) : Nat := 0x00050000 + 0x20 * n
abbrev TF_FLOOR (n : Nat) : Nat := 0x00050004 + 0x20 * n
abbrev TF_WEIGHT (n : Nat) : Nat := 0x00050008 + 0x20 * n
abbrev TF_CREDIT_RED (n : Nat) : Nat := 0x00050010 + 0x20 * n
abbrev TF_CREDIT_BLUE (n : Nat) : Nat := 0x00050014 + 0x20 * n
abbrev TF_SENT_RED (n : Nat) : Nat := 0x00050018 + 0x20 * n
abbrev TF_SENT_BLUE (n : Nat) : Nat := 0x0005001C + 0x20 * n

/-! R274, 10_dispatch.md: scheduler share of die n. -/

abbrev SCH_FREE (n : Nat) : Nat := 0x00060100 + 0x40 * n
abbrev SCH_SHARED_FREE (n : Nat) : Nat := 0x00060104 + 0x40 * n
abbrev SCH_RESERVED (n : Nat) : Nat := 0x00060108 + 0x40 * n
abbrev SCH_LOW_FREE (n : Nat) : Nat := 0x0006010C + 0x40 * n
abbrev SCH_WAITS (n : Nat) : Nat := 0x00060110 + 0x40 * n
abbrev SCH_REDISPATCH (n : Nat) : Nat := 0x00060114 + 0x40 * n
abbrev SCH_ENG_FAIL (n : Nat) : Nat := 0x00060118 + 0x40 * n
abbrev TRC_CTRL (n : Nat) : Nat := 0x00060120 + 0x40 * n
abbrev TRC_FILTER (n : Nat) : Nat := 0x00060124 + 0x40 * n
abbrev TRC_HEAD (n : Nat) : Nat := 0x00060128 + 0x40 * n
abbrev TRC_DROP (n : Nat) : Nat := 0x0006012C + 0x40 * n

/-! R404, 15_serial_lanes.md: Lantern link and MGMT lane. -/

abbrev LNK_CTRL : Nat := 0x00080000
abbrev LNK_STATUS : Nat := 0x00080004
abbrev LNK_TX_FRAMES : Nat := 0x00080008
abbrev LNK_RX_FRAMES : Nat := 0x0008000C
abbrev LNK_CRC_ERR : Nat := 0x00080010
abbrev LNK_DISCARD : Nat := 0x00080014
abbrev LNK_RESENT : Nat := 0x00080018
abbrev LNK_ABORTS : Nat := 0x0008001C
abbrev LNK_RESTRIPES : Nat := 0x00080020
abbrev LNK_SKP_ADD : Nat := 0x00080024
abbrev LNK_SKP_DEL : Nat := 0x00080028
abbrev LNK_DESKEW_FAIL : Nat := 0x0008002C
abbrev MGL_CTRL : Nat := 0x00080100
abbrev MGL_STATUS : Nat := 0x00080104
abbrev MGL_RX_FRAMES : Nat := 0x00080108
abbrev MGL_RX_ERR : Nat := 0x0008010C

/-! R74/R128/R253/R301/R76/R234/R275/R77/R78, 03_channels_capacity.md: channel context n. -/

abbrev CHN_CTRL (n : Nat) : Nat := 0x00100000 + 0x1000 * n
abbrev CHN_STATE (n : Nat) : Nat := 0x00100004 + 0x1000 * n
abbrev CHN_PRIO (n : Nat) : Nat := 0x00100008 + 0x1000 * n
abbrev CHN_FORMAT (n : Nat) : Nat := 0x00100010 + 0x1000 * n
abbrev CHN_CODEC (n : Nat) : Nat := 0x00100020 + 0x1000 * n
abbrev CHN_EFFORT (n : Nat) : Nat := 0x00100024 + 0x1000 * n
abbrev CHN_LOOKAHEAD (n : Nat) : Nat := 0x00100030 + 0x1000 * n
abbrev CHN_QTARGET (n : Nat) : Nat := 0x00100040 + 0x1000 * n
abbrev CHN_CAP_PIC (n : Nat) : Nat := 0x00100044 + 0x1000 * n
abbrev CHN_CAP_RATE (n : Nat) : Nat := 0x00100048 + 0x1000 * n
abbrev CHN_CAP_WIN (n : Nat) : Nat := 0x0010004C + 0x1000 * n
abbrev CHN_CPB_SIZE (n : Nat) : Nat := 0x00100050 + 0x1000 * n
abbrev CHN_DELAY (n : Nat) : Nat := 0x00100060 + 0x1000 * n
abbrev CHN_REFRESH (n : Nat) : Nat := 0x00100070 + 0x1000 * n
abbrev CHN_IN_MEDIA (n : Nat) : Nat := 0x00100080 + 0x1000 * n
abbrev CHN_IN_ANC (n : Nat) : Nat := 0x00100084 + 0x1000 * n
abbrev CHN_IN_SIZE (n : Nat) : Nat := 0x00100088 + 0x1000 * n
abbrev CHN_IN_FORMAT (n : Nat) : Nat := 0x0010008C + 0x1000 * n
abbrev CHN_IN_PREP (n : Nat) : Nat := 0x00100090 + 0x1000 * n
abbrev CHN_IN_TRO (n : Nat) : Nat := 0x00100094 + 0x1000 * n
abbrev CHN_IN_SKEW (n : Nat) : Nat := 0x00100098 + 0x1000 * n
abbrev CHN_IN_SLATE (n : Nat) : Nat := 0x0010009C + 0x1000 * n
abbrev CHN_IN_TS (n : Nat) : Nat := 0x001000A0 + 0x1000 * n
abbrev CHN_IN_STATUS (n : Nat) : Nat := 0x001000C0 + 0x1000 * n
abbrev CHN_IN_SKEW_MEAS (n : Nat) : Nat := 0x001000C4 + 0x1000 * n
abbrev CHN_IN_LINES_REP (n : Nat) : Nat := 0x001000C8 + 0x1000 * n
abbrev CHN_IN_LATE (n : Nat) : Nat := 0x001000CC + 0x1000 * n
abbrev CHN_IN_DUP (n : Nat) : Nat := 0x001000D0 + 0x1000 * n
abbrev CHN_IN_ANC_DROP (n : Nat) : Nat := 0x001000D4 + 0x1000 * n
abbrev CHN_IN_FEC_REC (n : Nat) : Nat := 0x001000D8 + 0x1000 * n
abbrev CHN_IN_DEC_STATUS (n : Nat) : Nat := 0x001000DC + 0x1000 * n
abbrev CHN_IN_DEC_ERR (n : Nat) : Nat := 0x001000E0 + 0x1000 * n
abbrev CHN_IN_RESYNC (n : Nat) : Nat := 0x001000E4 + 0x1000 * n
abbrev CHN_IN_CONC_CTU (n : Nat) : Nat := 0x001000E8 + 0x1000 * n
abbrev CHN_IN_SUBST (n : Nat) : Nat := 0x001000EC + 0x1000 * n
abbrev CHN_IN_GAPS (n : Nat) : Nat := 0x001000F0 + 0x1000 * n
abbrev CHN_IN_LATE_LINES (n : Nat) : Nat := 0x001000F4 + 0x1000 * n
abbrev CHN_IN_LAST_ERR (n : Nat) : Nat := 0x001000F8 + 0x1000 * n
abbrev CHN_OUT_FLOW (n : Nat) : Nat := 0x00100100 + 0x1000 * n
abbrev CHN_OUT_PROG (n : Nat) : Nat := 0x00100104 + 0x1000 * n
abbrev CHN_OUT_PIDS (n : Nat) : Nat := 0x00100108 + 0x1000 * n
abbrev CHN_OUT_FLAGS (n : Nat) : Nat := 0x0010010C + 0x1000 * n
abbrev CHN_OUT_DTS (n : Nat) : Nat := 0x00100110 + 0x1000 * n
abbrev CHN_OUT_MDCV (n i : Nat) : Nat := 0x00100114 + 0x1000 * n + 4 * i
abbrev CHN_OUT_CLL (n : Nat) : Nat := 0x0010012C + 0x1000 * n
abbrev CHN_OUT_AUD (n i : Nat) : Nat := 0x00100140 + 0x1000 * n + 8 * i
abbrev CHN_OUT_AUD_SRC (n i : Nat) : Nat := 0x00100144 + 0x1000 * n + 8 * i
abbrev CHN_OUT_RB (n : Nat) : Nat := 0x00100180 + 0x1000 * n
abbrev CHN_OUT_DMIN (n : Nat) : Nat := 0x00100184 + 0x1000 * n
abbrev CHN_OUT_LATE (n : Nat) : Nat := 0x00100188 + 0x1000 * n
abbrev CHN_OUT_SPLICES (n : Nat) : Nat := 0x0010018C + 0x1000 * n
abbrev CHN_OUT_AUD_UNDER (n : Nat) : Nat := 0x00100190 + 0x1000 * n
abbrev CHN_OUT_MARGIN (n : Nat) : Nat := 0x00100194 + 0x1000 * n
abbrev CHN_PLACE (n : Nat) : Nat := 0x00100200 + 0x1000 * n
abbrev CHN_COST (n : Nat) : Nat := 0x00100208 + 0x1000 * n
abbrev CHN_COST_EFF (n : Nat) : Nat := 0x0010020C + 0x1000 * n
abbrev CHN_MOTH_LOAD (n : Nat) : Nat := 0x00100210 + 0x1000 * n
abbrev CHN_MEM_DEMAND (n : Nat) : Nat := 0x00100214 + 0x1000 * n
abbrev CHN_POOL_BUFS (n : Nat) : Nat := 0x00100218 + 0x1000 * n
abbrev CHN_ADMIT_RANK (n : Nat) : Nat := 0x0010021C + 0x1000 * n
abbrev CHN_BUF_COUNT0 (n : Nat) : Nat := 0x00100220 + 0x1000 * n
abbrev CHN_BUF_COUNT1 (n : Nat) : Nat := 0x00100224 + 0x1000 * n
abbrev CHN_DESC_RESERVE (n : Nat) : Nat := 0x00100228 + 0x1000 * n
abbrev CHN_DESC_HELD (n : Nat) : Nat := 0x0010022C + 0x1000 * n
abbrev CHN_LA_EFF (n : Nat) : Nat := 0x00100230 + 0x1000 * n
abbrev CHN_LA_SHORT (n : Nat) : Nat := 0x00100234 + 0x1000 * n
abbrev CHN_REDISPATCH (n : Nat) : Nat := 0x00100238 + 0x1000 * n
abbrev CHN_PIC_ACC_LO (n : Nat) : Nat := 0x00100300 + 0x1000 * n
abbrev CHN_PIC_ACC_HI (n : Nat) : Nat := 0x00100304 + 0x1000 * n
abbrev CHN_PIC_REL_LO (n : Nat) : Nat := 0x00100308 + 0x1000 * n
abbrev CHN_PIC_REL_HI (n : Nat) : Nat := 0x0010030C + 0x1000 * n
abbrev CHN_PIC_REPEAT (n : Nat) : Nat := 0x00100310 + 0x1000 * n
abbrev CHN_PIC_SLATE (n : Nat) : Nat := 0x00100314 + 0x1000 * n
abbrev CHN_PIC_REFUSED (n : Nat) : Nat := 0x00100318 + 0x1000 * n
abbrev CHN_EMBER_BANDS (n : Nat) : Nat := 0x0010031C + 0x1000 * n
abbrev CHN_CONCEALED (n : Nat) : Nat := 0x00100320 + 0x1000 * n
abbrev CHN_SQI_LAST (n : Nat) : Nat := 0x00100324 + 0x1000 * n
abbrev CHN_BITS_LAST (n : Nat) : Nat := 0x00100328 + 0x1000 * n
abbrev CHN_FR_TOTAL (n : Nat) : Nat := 0x0010032C + 0x1000 * n
abbrev CHN_FR_COUNT (n : Nat) : Nat := 0x00100400 + 0x1000 * n
abbrev CHN_FR_SEL (n : Nat) : Nat := 0x00100404 + 0x1000 * n
abbrev CHN_FR_WIN (n i : Nat) : Nat := 0x00100420 + 0x1000 * n + 4 * i

/-! R103, 04_ingest.md: flow-table entry n. -/

abbrev FT_CTRL (n : Nat) : Nat := 0x00200000 + 0x40 * n
abbrev FT_VLAN_PORT (n : Nat) : Nat := 0x00200004 + 0x40 * n
abbrev FT_DST (n i : Nat) : Nat := 0x00200008 + 0x40 * n + 4 * i
abbrev FT_SRC (n i : Nat) : Nat := 0x00200018 + 0x40 * n + 4 * i
abbrev FT_BIND (n : Nat) : Nat := 0x00200028 + 0x40 * n
abbrev FT_FORMAT (n : Nat) : Nat := 0x0020002C + 0x40 * n
abbrev FT_POL_RATE (n : Nat) : Nat := 0x00200030 + 0x40 * n
abbrev FT_POL_BURST (n : Nat) : Nat := 0x00200034 + 0x40 * n
abbrev FT_MATCHED (n : Nat) : Nat := 0x00200038 + 0x40 * n
abbrev FT_POLICED (n : Nat) : Nat := 0x0020003C + 0x40 * n

/-! R518/R234, 22_register_map.md: die control of die d. -/

abbrev DIE_STATUS (d : Nat) : Nat := 0x01000000 + 0x400000 * d
abbrev DIE_POOL_SPACE_LO (d : Nat) : Nat := 0x01000100 + 0x400000 * d
abbrev DIE_POOL_SPACE_HI (d : Nat) : Nat := 0x01000104 + 0x400000 * d
abbrev DIE_POOL_USED_LO (d : Nat) : Nat := 0x01000108 + 0x400000 * d
abbrev DIE_POOL_USED_HI (d : Nat) : Nat := 0x0100010C + 0x400000 * d
abbrev DIE_POOL_EXHAUST (d : Nat) : Nat := 0x01000110 + 0x400000 * d
abbrev DIE_BUF_POISON (d : Nat) : Nat := 0x01000114 + 0x400000 * d

/-! R481, 19_thermal_ageing.md: thermal and wax block of die d. -/

abbrev THS_READ (d i : Nat) : Nat := 0x01010000 + 0x400000 * d + 4 * i
abbrev THD_STATUS (d : Nat) : Nat := 0x01010040 + 0x400000 * d
abbrev THD_MAX (d : Nat) : Nat := 0x01010044 + 0x400000 * d
abbrev THD_MAX_DAY (d : Nat) : Nat := 0x01010048 + 0x400000 * d
abbrev THD_THROTTLES (d : Nat) : Nat := 0x0101004C + 0x400000 * d
abbrev WAX_C (d i : Nat) : Nat := 0x01010080 + 0x400000 * d + 4 * i
abbrev WAX_G (d i : Nat) : Nat := 0x010100A0 + 0x400000 * d + 4 * i
abbrev AVS_VOUT (d : Nat) : Nat := 0x01010120 + 0x400000 * d
abbrev AVS_READ (d : Nat) : Nat := 0x01010124 + 0x400000 * d
abbrev AVS_TEMP (d : Nat) : Nat := 0x01010128 + 0x400000 * d
abbrev AVS_STATUS (d : Nat) : Nat := 0x0101012C + 0x400000 * d
abbrev AVS_STEPS (d : Nat) : Nat := 0x01010130 + 0x400000 * d
abbrev AVS_PMB_ERR (d : Nat) : Nat := 0x01010134 + 0x400000 * d

/-! R449/R457, 17_picture_memory.md: memory controller m of die d. -/

abbrev MC_CTRL (d m : Nat) : Nat := 0x01020000 + 0x400000 * d + 0x10000 * m
abbrev MC_STATUS (d m : Nat) : Nat := 0x01020004 + 0x400000 * d + 0x10000 * m
abbrev MC_SCRUB_POS (d m : Nat) : Nat := 0x01020010 + 0x400000 * d + 0x10000 * m
abbrev MC_SCRUB_PASSES (d m : Nat) : Nat := 0x01020014 + 0x400000 * d + 0x10000 * m
abbrev MC_SCRUB_CE (d m : Nat) : Nat := 0x01020018 + 0x400000 * d + 0x10000 * m
abbrev MC_SCRUB_UE (d m : Nat) : Nat := 0x0102001C + 0x400000 * d + 0x10000 * m
abbrev MC_POISONED (d m : Nat) : Nat := 0x01020020 + 0x400000 * d + 0x10000 * m
abbrev MC_SR_ENTRIES (d m : Nat) : Nat := 0x01020024 + 0x400000 * d + 0x10000 * m
abbrev MC_WDRAIN (d m : Nat) : Nat := 0x01020028 + 0x400000 * d + 0x10000 * m
abbrev MCC_STATUS (d m i : Nat) : Nat := 0x01020100 + 0x400000 * d + 0x10000 * m + 64 * i
abbrev MCC_CE (d m i : Nat) : Nat := 0x01020104 + 0x400000 * d + 0x10000 * m + 64 * i
abbrev MCC_UE (d m i : Nat) : Nat := 0x01020108 + 0x400000 * d + 0x10000 * m + 64 * i
abbrev MCC_CRC_RETRY (d m i : Nat) : Nat := 0x0102010C + 0x400000 * d + 0x10000 * m + 64 * i
abbrev MCC_RETRAINS (d m i : Nat) : Nat := 0x01020110 + 0x400000 * d + 0x10000 * m + 64 * i
abbrev MCC_SLICES (d m i : Nat) : Nat := 0x01020114 + 0x400000 * d + 0x10000 * m + 64 * i
abbrev MCC_TEMP (d m i : Nat) : Nat := 0x01020118 + 0x400000 * d + 0x10000 * m + 64 * i
abbrev MCC_LAST_TRAIN (d m i : Nat) : Nat := 0x0102011C + 0x400000 * d + 0x10000 * m + 64 * i
abbrev MCC_NOSET (d m i : Nat) : Nat := 0x01020120 + 0x400000 * d + 0x10000 * m + 64 * i
abbrev MCP_REQ (d m i : Nat) : Nat := 0x01020200 + 0x400000 * d + 0x10000 * m + 16 * i
abbrev MCP_LAT_MISS (d m i : Nat) : Nat := 0x01020204 + 0x400000 * d + 0x10000 * m + 16 * i
abbrev MCP_LAT_MAX (d m i : Nat) : Nat := 0x01020208 + 0x400000 * d + 0x10000 * m + 16 * i
abbrev MCAL_CTX (d m i : Nat) : Nat := 0x01020300 + 0x400000 * d + 0x10000 * m + 64 * i
abbrev MCAL_DQ (d m i j : Nat) : Nat := 0x01020304 + 0x400000 * d + 0x10000 * m + 64 * i + 4 * j
abbrev MCAL_WCK (d m i : Nat) : Nat := 0x01020324 + 0x400000 * d + 0x10000 * m + 64 * i
abbrev MCAL_SIG (d m i : Nat) : Nat := 0x01020328 + 0x400000 * d + 0x10000 * m + 64 * i
abbrev MCAL_STAT (d m i : Nat) : Nat := 0x0102032C + 0x400000 * d + 0x10000 * m + 64 * i
abbrev MCAL_COMMITS (d m i : Nat) : Nat := 0x01020330 + 0x400000 * d + 0x10000 * m + 64 * i
abbrev MC_TRN (d m i : Nat) : Nat := 0x01020400 + 0x400000 * d + 0x10000 * m + 4 * i
abbrev MC_TRN_PAT (d m i : Nat) : Nat := 0x01020800 + 0x400000 * d + 0x10000 * m + 4 * i

/-! R402, 15_serial_lanes.md: network port of die d. -/

abbrev NP_CTRL (d : Nat) : Nat := 0x01040000 + 0x400000 * d
abbrev NP_STATUS (d : Nat) : Nat := 0x01040004 + 0x400000 * d
abbrev NP_RETURN (d : Nat) : Nat := 0x01040008 + 0x400000 * d
abbrev NP_RX_FRAMES (d i : Nat) : Nat := 0x01040100 + 0x400000 * d + 128 * i
abbrev NP_TX_FRAMES (d i : Nat) : Nat := 0x01040104 + 0x400000 * d + 128 * i
abbrev NP_RX_FCS (d i : Nat) : Nat := 0x01040108 + 0x400000 * d + 128 * i
abbrev NP_RX_UNMATCHED (d i : Nat) : Nat := 0x0104010C + 0x400000 * d + 128 * i
abbrev NP_RX_POLICED (d i : Nat) : Nat := 0x01040110 + 0x400000 * d + 128 * i
abbrev NP_RX_MALFORMED (d i : Nat) : Nat := 0x01040114 + 0x400000 * d + 128 * i
abbrev NP_RX_HEADER (d i : Nat) : Nat := 0x01040118 + 0x400000 * d + 128 * i
abbrev NP_RX_ICMP_LIMIT (d i : Nat) : Nat := 0x0104011C + 0x400000 * d + 128 * i
abbrev NP_RX_MACCTL (d i : Nat) : Nat := 0x01040120 + 0x400000 * d + 128 * i
abbrev NP_RX_OVERRUN (d i : Nat) : Nat := 0x01040124 + 0x400000 * d + 128 * i
abbrev NP_FEC_CORR_LO (d i : Nat) : Nat := 0x01040128 + 0x400000 * d + 128 * i
abbrev NP_FEC_CORR_HI (d i : Nat) : Nat := 0x0104012C + 0x400000 * d + 128 * i
abbrev NP_FEC_UNCORR (d i : Nat) : Nat := 0x01040130 + 0x400000 * d + 128 * i

/-! R403/R456, 15_serial_lanes.md: lane slot n of die d. -/

abbrev LN_STATUS (d n : Nat) : Nat := 0x01050000 + 0x400000 * d + 0x100 * n
abbrev LN_VIOL (d n : Nat) : Nat := 0x01050004 + 0x400000 * d + 0x100 * n
abbrev LN_LOCK_LOSS (d n : Nat) : Nat := 0x01050008 + 0x400000 * d + 0x100 * n
abbrev CAL_CTX (d n : Nat) : Nat := 0x01050040 + 0x400000 * d + 0x100 * n
abbrev CAL_RX (d n : Nat) : Nat := 0x01050044 + 0x400000 * d + 0x100 * n
abbrev CAL_DFE0 (d n : Nat) : Nat := 0x01050048 + 0x400000 * d + 0x100 * n
abbrev CAL_DFE1 (d n : Nat) : Nat := 0x0105004C + 0x400000 * d + 0x100 * n
abbrev CAL_THR (d n : Nat) : Nat := 0x01050050 + 0x400000 * d + 0x100 * n
abbrev CAL_SIG (d n : Nat) : Nat := 0x01050054 + 0x400000 * d + 0x100 * n
abbrev CAL_STAT (d n : Nat) : Nat := 0x01050058 + 0x400000 * d + 0x100 * n
abbrev CAL_COMMITS (d n : Nat) : Nat := 0x0105005C + 0x400000 * d + 0x100 * n

/-! R485, 20_checkvalue_fabric.md: general CRC unit u of die d. -/

abbrev CRC_CFG (d u : Nat) : Nat := 0x01060000 + 0x400000 * d + 0x100 * u
abbrev CRC_POLY_LO (d u : Nat) : Nat := 0x01060008 + 0x400000 * d + 0x100 * u
abbrev CRC_POLY_HI (d u : Nat) : Nat := 0x0106000C + 0x400000 * d + 0x100 * u
abbrev CRC_INIT_LO (d u : Nat) : Nat := 0x01060010 + 0x400000 * d + 0x100 * u
abbrev CRC_INIT_HI (d u : Nat) : Nat := 0x01060014 + 0x400000 * d + 0x100 * u
abbrev CRC_XOROUT_LO (d u : Nat) : Nat := 0x01060018 + 0x400000 * d + 0x100 * u
abbrev CRC_XOROUT_HI (d u : Nat) : Nat := 0x0106001C + 0x400000 * d + 0x100 * u
abbrev CRC_VALUE_LO (d u : Nat) : Nat := 0x01060020 + 0x400000 * d + 0x100 * u
abbrev CRC_VALUE_HI (d u : Nat) : Nat := 0x01060024 + 0x400000 * d + 0x100 * u
abbrev CRC_RESULT_LO (d u : Nat) : Nat := 0x01060028 + 0x400000 * d + 0x100 * u
abbrev CRC_RESULT_HI (d u : Nat) : Nat := 0x0106002C + 0x400000 * d + 0x100 * u
abbrev CRC_START (d u : Nat) : Nat := 0x01060030 + 0x400000 * d + 0x100 * u
abbrev CRC_FEED_B (d u : Nat) : Nat := 0x01060040 + 0x400000 * d + 0x100 * u
abbrev CRC_FEED_H (d u : Nat) : Nat := 0x01060044 + 0x400000 * d + 0x100 * u
abbrev CRC_FEED_W (d u : Nat) : Nat := 0x01060048 + 0x400000 * d + 0x100 * u
abbrev CRC_COUNT (d u : Nat) : Nat := 0x0106004C + 0x400000 * d + 0x100 * u

/-! R495, 20_checkvalue_fabric.md: fabric block of die d. -/

abbrev FAB_ABORTS (d : Nat) : Nat := 0x01070000 + 0x400000 * d
abbrev FAB_HEAD (d : Nat) : Nat := 0x01070004 + 0x400000 * d
abbrev FAB_ISSUE_WAITS (d : Nat) : Nat := 0x01070008 + 0x400000 * d
abbrev FAB_ABORT_LOG (d i : Nat) : Nat := 0x01070100 + 0x400000 * d + 4 * i

/-! R191, 06_coding_pipeline.md: cluster c of die d. -/

abbrev CL_STATUS (d c : Nat) : Nat := 0x01080000 + 0x400000 * d + 0x2000 * c
abbrev CL_USE (d c : Nat) : Nat := 0x01080004 + 0x400000 * d + 0x2000 * c
abbrev CL_USE_EFF (d c : Nat) : Nat := 0x01080008 + 0x400000 * d + 0x2000 * c
abbrev CL_ITEMS_E (d c i : Nat) : Nat := 0x01080010 + 0x400000 * d + 0x2000 * c + 4 * i
abbrev CL_BUSY_E (d c i : Nat) : Nat := 0x01080030 + 0x400000 * d + 0x2000 * c + 4 * i
abbrev CL_CTU_LO (d c : Nat) : Nat := 0x01080050 + 0x400000 * d + 0x2000 * c
abbrev CL_CTU_HI (d c : Nat) : Nat := 0x01080054 + 0x400000 * d + 0x2000 * c
abbrev CL_BITS_LO (d c : Nat) : Nat := 0x01080058 + 0x400000 * d + 0x2000 * c
abbrev CL_BITS_HI (d c : Nat) : Nat := 0x0108005C + 0x400000 * d + 0x2000 * c
abbrev CL_REDISPATCH (d c : Nat) : Nat := 0x01080060 + 0x400000 * d + 0x2000 * c
abbrev CL_EMBER (d c : Nat) : Nat := 0x01080064 + 0x400000 * d + 0x2000 * c
abbrev CL_BANDS_EFF (d c i : Nat) : Nat := 0x01080070 + 0x400000 * d + 0x2000 * c + 4 * i

/-! R252, 09_moth_decoder.md: moth decoder of die d. -/

abbrev MD_STATUS (d : Nat) : Nat := 0x010C0000 + 0x400000 * d
abbrev MD_LOAD_CHECK (d : Nat) : Nat := 0x010C0004 + 0x400000 * d
abbrev MD_LOAD_DEC (d : Nat) : Nat := 0x010C0008 + 0x400000 * d
abbrev MD_BANDS_LO (d : Nat) : Nat := 0x010C0010 + 0x400000 * d
abbrev MD_BANDS_HI (d : Nat) : Nat := 0x010C0014 + 0x400000 * d
abbrev MD_FAIL (d i : Nat) : Nat := 0x010C0018 + 0x400000 * d + 4 * i
abbrev MD_SUBST_BANDS (d : Nat) : Nat := 0x010C002C + 0x400000 * d
abbrev MD_ESCALATE (d : Nat) : Nat := 0x010C0030 + 0x400000 * d
abbrev MD_DEC_PICS_LO (d : Nat) : Nat := 0x010C0040 + 0x400000 * d
abbrev MD_DEC_PICS_HI (d : Nat) : Nat := 0x010C0044 + 0x400000 * d
abbrev MD_LATE_LINES (d : Nat) : Nat := 0x010C0048 + 0x400000 * d
abbrev MD_BUSY_LO (d : Nat) : Nat := 0x010C0050 + 0x400000 * d
abbrev MD_BUSY_HI (d : Nat) : Nat := 0x010C0054 + 0x400000 * d

/-! R518, 22_register_map.md: input preparation of die d. -/

abbrev IP_CHANNELS (d : Nat) : Nat := 0x010D0000 + 0x400000 * d
abbrev IP_LOAD_IN (d : Nat) : Nat := 0x010D0004 + 0x400000 * d
abbrev IP_LOAD_OUT (d : Nat) : Nat := 0x010D0008 + 0x400000 * d
abbrev IP_PICS_LO (d : Nat) : Nat := 0x010D0010 + 0x400000 * d
abbrev IP_PICS_HI (d : Nat) : Nat := 0x010D0014 + 0x400000 * d
abbrev IP_BUSY_LO (d : Nat) : Nat := 0x010D0018 + 0x400000 * d
abbrev IP_BUSY_HI (d : Nat) : Nat := 0x010D001C + 0x400000 * d

/-- The source table word of source `s` (R498). -/
abbrev EVT_SRC (s : Nat) : Nat := 0x00004000 + 4 * s

/-- Word `w` of event record `i` of the ring (R500). -/
abbrev EVT_RING (i w : Nat) : Nat := 0x000A0000 + 16 * i + 4 * w

/-- Word `w` of trace entry `i` of die `d` (R272). -/
abbrev TRACE (d i w : Nat) : Nat := 0x01100000 + 0x400000 * d + 16 * i + 4 * w

end Sys2Proof.Machine.Reg
end

