-- ==== Sys2Proof/Machine/RegMap.lean ====
section
/-! DEFINITION. The register map of `spec/22_register_map.md` (R513 to R518): every block, every register, every
field with its access code (R11), its reset value and the range its description gives. The tables below are
the spec's register tables, block by block; `regAt` finds the register an address names. -/

namespace Sys2Proof.Machine

/-- Access codes of R11. `live` marks an RWL field whose chapter lets the live-permission mask cover it. -/
inductive Acc where
  | rw | ro | wo | rwl (live : Bool)
deriving DecidableEq, Repr

/-- The range or set of codes a field's description gives (R12). -/
inductive Rng where
  | any
  | nat (lo hi : Nat)
  | zeroOr (lo hi : Nat)
  | int (lo hi : Int)
deriving DecidableEq, Repr

/-- A field: bits `[hi:lo]`, access and range. -/
structure Fld where
  hi : Nat
  lo : Nat
  acc : Acc
  rng : Rng
deriving DecidableEq, Repr

/-- A register, or an array of them: `dims` lists (stride, count), outermost first; `half` is 1 for the _LO and 2 for
the _HI register of a 64-bit pair (R10). -/
structure RegDef where
  off : Nat
  dims : List (Nat × Nat)
  name : String
  half : Nat
  flds : List Fld
deriving DecidableEq, Repr

/-- A block of registers: base address, array dimensions, extent (R513) and registers. -/
structure Block where
  name : String
  base : Nat
  dims : List (Nat × Nat)
  extent : Nat
  regs : List RegDef
deriving DecidableEq, Repr

def Fld.width (f : Fld) : Nat := f.hi + 1 - f.lo

/-- Does the field's description admit the value `v` (R12)? -/
def Rng.admits (r : Rng) (w v : Nat) : Bool :=
  match r with
  | .any => true
  | .nat lo hi => decide (lo ≤ v) && decide (v ≤ hi)
  | .zeroOr lo hi => decide (v = 0) || (decide (lo ≤ v) && decide (v ≤ hi))
  | .int lo hi =>
    let i : Int := if v < 2 ^ (w - 1) then (v : Int) else (v : Int) - 2 ^ w
    decide (lo ≤ i) && decide (i ≤ hi)

def ro (hi lo : Nat) : Fld := ⟨hi, lo, .ro, .any⟩
def rwf (hi lo : Nat) (r : Rng := .any) : Fld := ⟨hi, lo, .rw, r⟩
def wof (hi lo : Nat) : Fld := ⟨hi, lo, .wo, .any⟩
def rwl (hi lo : Nat) (r : Rng := .any) : Fld := ⟨hi, lo, .rwl false, r⟩
def liv (hi lo : Nat) (r : Rng := .any) : Fld := ⟨hi, lo, .rwl true, r⟩

/-- R517, 22_register_map.md: identity. -/
def regsIDN : List RegDef :=
  [ ⟨0x000, [], "IDN_PART", 0, [ro 23 16, ro 15 0]⟩,
    ⟨0x004, [], "IDN_UNIT", 0, [ro 31 16, ro 11 8, ro 1 1, ro 0 0]⟩,
    ⟨0x010, [(4, 4)], "IDN_SERIAL", 0, [ro 31 0]⟩,
    ⟨0x020, [], "IDN_MAC_LO", 1, [ro 31 0]⟩,
    ⟨0x024, [], "IDN_MAC_HI", 2, [ro 15 0]⟩,
    ⟨0x030, [(4, 8)], "IDN_NAME", 0, [ro 31 0]⟩ ]

/-- R73, 02_emergence_cocoon.md: emergence. -/
def regsEMG : List RegDef :=
  [ ⟨0x000, [], "EMG_STATUS", 0, [ro 31 24, ro 22 20, ro 11 11, ro 10 10, ro 9 9, ro 8 8, ro 3 0]⟩,
    ⟨0x004, [], "EMG_CTRL", 0, [wof 0 0]⟩,
    ⟨0x008, [], "EMG_IMAGE", 0, [ro 23 16, ro 15 8, ro 1 1, ro 0 0]⟩,
    ⟨0x00C, [], "EMG_SEQ_LO", 1, [ro 31 0]⟩,
    ⟨0x010, [], "EMG_SEQ_HI", 2, [ro 31 0]⟩,
    ⟨0x014, [], "EMG_FAIL", 0, [ro 31 16, ro 7 0]⟩,
    ⟨0x018, [], "EMG_FAIL_OFFSET", 0, [ro 31 0]⟩,
    ⟨0x01C, [], "EMG_NONCE_LO", 1, [ro 31 0]⟩,
    ⟨0x020, [], "EMG_NONCE_HI", 2, [ro 31 0]⟩,
    ⟨0x024, [(4, 9)], "EMG_T_E", 0, [ro 31 0]⟩,
    ⟨0x048, [], "EMG_T_LIVE", 0, [ro 31 0]⟩,
    ⟨0x050, [], "EMG_RESET", 0, [wof 31 0]⟩,
    ⟨0x054, [], "EMG_BOOTS", 0, [ro 31 0]⟩,
    ⟨0x058, [], "EMG_LOG_HEAD", 0, [ro 31 0]⟩,
    ⟨0x05C, [], "EMG_LOG_SEL", 0, [rwf 12 0]⟩,
    ⟨0x060, [], "EMG_LOG_DROP", 0, [ro 31 0]⟩,
    ⟨0x100, [(4, 64)], "EMG_LOG_WIN", 0, [ro 31 0]⟩ ]

/-- R502, 21_events_telemetry.md: event unit. -/
def regsEVT : List RegDef :=
  [ ⟨0x000, [], "EVT_CTRL", 0, [rwf 0 0]⟩,
    ⟨0x004, [], "EVT_HEAD", 0, [ro 11 0]⟩,
    ⟨0x008, [], "EVT_TAIL", 0, [rwf 11 0]⟩,
    ⟨0x00C, [], "EVT_PENDING", 0, [ro 12 0]⟩,
    ⟨0x010, [], "EVT_LOST", 0, [ro 31 0]⟩,
    ⟨0x014, [], "EVT_SEV_MAX", 0, [ro 1 0]⟩,
    ⟨0x020, [(4, 4)], "EVT_COUNT_SEV", 0, [ro 31 0]⟩ ]

/-- R425, 16_functional_safety.md: safety. -/
def regsSAF : List RegDef :=
  [ ⟨0x000, [], "SAF_CTRL", 0, [rwl 31 31, rwl 23 16 (.nat 1 255), rwl 12 8 (.nat 1 16), rwl 7 0 (.nat 10 250)]⟩,
    ⟨0x004, [], "SAF_STATUS", 0, [ro 31 31, ro 30 30, ro 26 24, ro 23 16, ro 7 0]⟩,
    ⟨0x008, [], "SAF_SNUFF_T", 0, [ro 31 0]⟩,
    ⟨0x00C, [], "SAF_SNUFF_LAT", 0, [ro 31 0]⟩,
    ⟨0x010, [], "SAF_DEPARTURES", 0, [ro 31 0]⟩,
    ⟨0x014, [], "SAF_BAND_LATE", 0, [ro 31 0]⟩,
    ⟨0x018, [], "SAF_WD_FIRES", 0, [ro 31 0]⟩,
    ⟨0x01C, [], "SAF_LOCKSTEP", 0, [ro 31 0]⟩,
    ⟨0x020, [], "SAF_SRAM_CE", 0, [ro 31 0]⟩,
    ⟨0x024, [], "SAF_SRAM_UE", 0, [ro 31 0]⟩,
    ⟨0x028, [], "SAF_CRC_CHAIN", 0, [ro 31 0]⟩,
    ⟨0x02C, [], "SAF_TAG_FAULTS", 0, [ro 31 0]⟩,
    ⟨0x030, [], "SAF_FR_PARTNER", 0, [ro 31 0]⟩,
    ⟨0x040, [(4, 3)], "SAF_LATE", 0, [ro 31 0]⟩,
    ⟨0x050, [], "SAF_LAST_SNUFF", 0, [ro 31 31, ro 7 0]⟩,
    ⟨0x054, [], "SAF_LAST_SNUFF_T", 0, [ro 31 0]⟩ ]

/-- R380, 14_twin_flame.md: twin and flame. -/
def regsTWN : List RegDef :=
  [ ⟨0x000, [], "TWN_CTRL", 0, [rwl 31 31, rwl 30 30, rwl 23 16 (.nat 1 255), rwl 15 0 (.nat 100 60000)]⟩,
    ⟨0x004, [], "TWN_HOLDOFF", 0, [rwl 11 0 (.nat 1 3600)]⟩,
    ⟨0x008, [], "TWN_CMD", 0, [liv 31 31, liv 30 30]⟩,
    ⟨0x00C, [], "TWN_BEACON_PORT", 0, [rwl 16 16, rwl 15 0]⟩,
    ⟨0x010, [(4, 4)], "TWN_BEACON_DST", 0, [rwl 31 0]⟩,
    ⟨0x040, [], "TWN_STATUS", 0, [ro 31 31, ro 30 30, ro 29 29, ro 26 24, ro 18 16]⟩,
    ⟨0x044, [], "TWN_EPOCH", 0, [ro 31 0]⟩,
    ⟨0x048, [], "TWN_TAKEOVERS", 0, [ro 31 0]⟩,
    ⟨0x04C, [], "TWN_HANDOVERS", 0, [ro 31 0]⟩,
    ⟨0x050, [], "TWN_REPLAYED", 0, [ro 31 0]⟩,
    ⟨0x054, [], "TWN_REPLAY_DROP", 0, [ro 31 0]⟩,
    ⟨0x058, [], "TWN_CMD_REFUSED", 0, [ro 31 0]⟩,
    ⟨0x05C, [], "TWN_LAST_TAKE", 0, [ro 31 0]⟩,
    ⟨0x060, [], "TWN_JOINING", 0, [ro 6 0]⟩,
    ⟨0x064, [], "TWN_HOLDOFF_LEFT", 0, [ro 11 0]⟩,
    ⟨0x070, [(4, 3)], "TWN_CONF", 0, [ro 31 0]⟩ ]

/-- R340, 13_time_clocks.md: device time. -/
def regsDTC : List RegDef :=
  [ ⟨0x000, [], "DTC_NS_LO", 1, [ro 31 0]⟩,
    ⟨0x004, [], "DTC_NS_HI", 2, [ro 31 0]⟩,
    ⟨0x008, [], "DTC_FRAC", 0, [ro 31 0]⟩,
    ⟨0x010, [], "DTC_INC_LO", 1, [ro 31 0]⟩,
    ⟨0x014, [], "DTC_INC_HI", 2, [ro 7 0]⟩,
    ⟨0x018, [], "DOFF_LO", 1, [ro 31 0]⟩,
    ⟨0x01C, [], "DOFF_HI", 2, [ro 31 0]⟩,
    ⟨0x020, [], "TIME_CTRL", 0, [rwl 0 0]⟩,
    ⟨0x024, [], "TIME_STATUS", 0, [ro 8 8, ro 2 0]⟩,
    ⟨0x028, [], "DOFF_STEPS", 0, [ro 31 0]⟩,
    ⟨0x02C, [], "ISLAND_SEC_LO", 1, [rwl 31 0]⟩,
    ⟨0x030, [], "ISLAND_SEC_HI", 2, [rwl 31 0]⟩,
    ⟨0x040, [], "REF_CTRL", 0, [rwl 15 8 (.nat 1 255), rwl 1 1, rwl 0 0]⟩,
    ⟨0x044, [], "REF_STATUS", 0, [ro 17 16, ro 11 11, ro 10 10, ro 9 9, ro 8 8, ro 3 3, ro 2 2, ro 1 1, ro 0 0]⟩,
    ⟨0x048, [], "REF_FREQ_A", 0, [ro 31 0]⟩,
    ⟨0x04C, [], "REF_FREQ_B", 0, [ro 31 0]⟩,
    ⟨0x050, [], "PILOT_FREQ", 0, [ro 31 0]⟩,
    ⟨0x054, [], "REF_SWITCHES", 0, [ro 31 0]⟩,
    ⟨0x060, [], "PPS_CTRL", 0, [rwl 31 31, rwl 30 30, rwl 9 0 (.nat 1 999)]⟩,
    ⟨0x064, [], "PPS_IN_LAST", 0, [ro 31 0]⟩,
    ⟨0x068, [], "PPS_IN_ERR", 0, [ro 31 0]⟩,
    ⟨0x06C, [], "PPS_IN_GLITCH", 0, [ro 31 0]⟩ ]

/-- R341, 13_time_clocks.md: PTP. -/
def regsPTP : List RegDef :=
  [ ⟨0x000, [], "PTP_CTRL", 0, [rwl 31 24 (.nat 0 127), rwl 18 16 (.nat 0 4), rwl 11 8 (.nat 2 10), rwl 4 4, rwl 3 3, rwl 2 2, rwl 0 0]⟩,
    ⟨0x004, [], "PTP_PORTS", 0, [rwl 15 15, rwl 12 8, rwl 4 0]⟩,
    ⟨0x008, [], "PTP_GLIDE", 0, [rwl 15 0 (.nat 1 10000)]⟩,
    ⟨0x00C, [], "PTP_SLEW", 0, [rwl 8 0 (.nat 1 500)]⟩,
    ⟨0x010, [], "PTP_STEP_CONFIRM", 0, [rwl 3 0 (.nat 1 15)]⟩,
    ⟨0x014, [], "PTP_ACQ", 0, [rwl 11 0 (.nat 1 3600)]⟩,
    ⟨0x018, [], "PTP_DREQ", 0, [rwl 7 0 (.int (-7) 6)]⟩,
    ⟨0x040, [], "PTP_STATUS", 0, [ro 8 8, ro 4 4, ro 0 0]⟩,
    ⟨0x044, [], "PTP_OFFSET", 0, [ro 31 0]⟩,
    ⟨0x048, [], "PTP_MPD", 0, [ro 31 0]⟩,
    ⟨0x04C, [], "PTP_GM_LO", 1, [ro 31 0]⟩,
    ⟨0x050, [], "PTP_GM_HI", 2, [ro 31 0]⟩,
    ⟨0x054, [], "PTP_GM_CLASS", 0, [ro 15 8, ro 7 0]⟩,
    ⟨0x058, [], "PTP_SYNC_RX", 0, [ro 31 0]⟩,
    ⟨0x05C, [], "PTP_RX_DISCARD", 0, [ro 31 0]⟩,
    ⟨0x060, [], "PTP_OUTLIERS", 0, [ro 31 0]⟩,
    ⟨0x064, [], "PTP_ANN_TIMEOUT", 0, [ro 31 0]⟩,
    ⟨0x080, [(4, 16)], "PTP_SM", 0, [ro 31 0]⟩ ]

/-- R99/R483, 03_channels_capacity.md: capacity planner. -/
def regsCAP : List RegDef :=
  [ ⟨0x000, [], "CAP_CTRL", 0, [rwl 15 8 (.nat 10 100), rwl 0 0]⟩,
    ⟨0x004, [], "CAP_UNIT_LIMIT", 0, [ro 31 0]⟩,
    ⟨0x008, [], "CAP_UNIT_LOAD", 0, [ro 31 0]⟩,
    ⟨0x00C, [], "CAP_UNIT_LOAD_EFF", 0, [ro 31 0]⟩,
    ⟨0x010, [], "CAP_SHED_COUNT", 0, [ro 31 0]⟩,
    ⟨0x020, [(4, 8)], "CAP_LIM_D", 0, [ro 31 0]⟩,
    ⟨0x040, [], "CAP_AVS", 0, [rwl 31 16 (.nat 620 860), rwl 15 0 (.nat 620 860)]⟩,
    ⟨0x044, [], "CAP_AVS_CFG", 0, [rwl 31 16 (.zeroOr 620 860), rwl 7 0 (.nat 0 100)]⟩,
    ⟨0x048, [], "CAP_PMB_ADDR0", 0, [rwl 30 24, rwl 22 16, rwl 14 8, rwl 6 0]⟩,
    ⟨0x04C, [], "CAP_PMB_ADDR1", 0, [rwl 30 24, rwl 22 16, rwl 14 8, rwl 6 0]⟩,
    ⟨0x050, [], "CAP_T_PLAN", 0, [ro 7 0]⟩,
    ⟨0x054, [], "CAP_HOURS", 0, [ro 31 0]⟩,
    ⟨0x058, [], "CAP_NEXT_PLAN", 0, [ro 31 0]⟩,
    ⟨0x05C, [], "CAP_ADVISORY", 0, [ro 7 0]⟩,
    ⟨0x060, [(4, 8)], "CAP_DIE", 0, [ro 31 16, ro 15 0]⟩ ]

/-- R482, 19_thermal_ageing.md: thermal. -/
def regsTHM : List RegDef :=
  [ ⟨0x000, [], "THM_CTRL", 0, [rwl 31 24 (.nat 60 98), rwl 23 16 (.nat 70 106), rwl 12 0 (.nat 0 5000)]⟩,
    ⟨0x004, [], "THM_STATUS", 0, [ro 31 31, ro 26 24, ro 23 16, ro 15 8, ro 7 0]⟩,
    ⟨0x008, [], "THM_DIM", 0, [ro 30 28, ro 26 24, ro 22 20, ro 18 16, ro 14 12, ro 10 8, ro 6 4, ro 2 0]⟩,
    ⟨0x00C, [], "THM_HOTTEST", 0, [ro 15 0]⟩,
    ⟨0x010, [], "THM_THROTTLES", 0, [ro 31 0]⟩,
    ⟨0x014, [], "THM_DIM_STEPS", 0, [ro 31 0]⟩ ]

/-- R511, 21_events_telemetry.md: management. -/
def regsMGT : List RegDef :=
  [ ⟨0x000, [], "MGT_CTRL", 0, [rwl 31 31, rwl 7 0]⟩,
    ⟨0x004, [], "MGT_SESSION", 0, [ro 31 0]⟩,
    ⟨0x008, [], "MGT_REFUSED", 0, [ro 31 0]⟩,
    ⟨0x00C, [], "MGT_RX_OK", 0, [ro 31 0]⟩,
    ⟨0x010, [], "MGT_AUTH_FAIL", 0, [ro 31 0]⟩,
    ⟨0x014, [], "MGT_STALE", 0, [ro 31 0]⟩,
    ⟨0x018, [], "MGT_OVERRUN", 0, [ro 31 0]⟩,
    ⟨0x01C, [], "MGT_NOTIFY_DROP", 0, [ro 31 0]⟩,
    ⟨0x020, [], "MGT_SUBS", 0, [ro 7 0]⟩ ]

/-- R155, 05_audio_ports.md: audio port n. -/
def regsAUD : List RegDef :=
  [ ⟨0x000, [], "AUD_CTRL", 0, [liv 31 31, rwl 29 29, rwl 28 28, rwl 17 16, rwl 12 12, rwl 8 8, rwl 5 4 (.nat 0 2), rwl 0 0]⟩,
    ⟨0x004, [], "AUD_SLOT_MASK", 0, [liv 15 0]⟩,
    ⟨0x008, [], "AUD_PREROLL", 0, [rwl 28 16 (.nat 0 4096), rwl 12 0 (.nat 0 4096)]⟩,
    ⟨0x00C, [], "AUD_LAT", 0, [rwl 12 0 (.nat 4 8000)]⟩,
    ⟨0x040, [(4, 16)], "AUD_SLOT_BUF", 0, [rwl 9 0]⟩,
    ⟨0x080, [], "AUD_STATUS", 0, [ro 9 9, ro 8 8, ro 2 0]⟩,
    ⟨0x084, [], "AUD_STARTS", 0, [ro 31 0]⟩,
    ⟨0x088, [], "AUD_PARITY_ERR", 0, [ro 31 0]⟩,
    ⟨0x08C, [], "AUD_CRCC_ERR", 0, [ro 31 0]⟩,
    ⟨0x090, [], "AUD_BLOCK_RESYNC", 0, [ro 31 0]⟩,
    ⟨0x094, [], "AUD_VALIDITY", 0, [ro 31 0]⟩,
    ⟨0x100, [(4, 6)], "AUD_CS_TX_A", 0, [liv 31 0]⟩,
    ⟨0x120, [(4, 6)], "AUD_CS_TX_B", 0, [liv 31 0]⟩,
    ⟨0x140, [(4, 6)], "AUD_CS_RX_A", 0, [ro 31 0]⟩,
    ⟨0x160, [(4, 6)], "AUD_CS_RX_B", 0, [ro 31 0]⟩ ]

/-- R156, 05_audio_ports.md: word clock and audio buffers. -/
def regsAUDW : List RegDef :=
  [ ⟨0x000, [], "AUD_WC_CTRL", 0, [rwl 24 24, rwl 23 23, rwl 22 16 (.nat 1 100), rwl 15 8 (.nat 1 100), rwl 4 4, rwl 1 1, rwl 0 0]⟩,
    ⟨0x004, [], "AUD_WC_STATUS", 0, [ro 11 11, ro 10 10, ro 9 9, ro 8 8, ro 2 0]⟩,
    ⟨0x008, [], "AUD_WC_FREQ", 0, [ro 31 0]⟩,
    ⟨0x00C, [], "AUD_WC_SWITCHES", 0, [ro 31 0]⟩,
    ⟨0x010, [], "AUD_WC_GLITCHES", 0, [ro 31 0]⟩,
    ⟨0x100, [], "AUD_BUF_SEL", 0, [rwf 9 0]⟩,
    ⟨0x104, [], "AUD_BUF_WRITER", 0, [ro 31 28, ro 15 0]⟩,
    ⟨0x108, [], "AUD_BUF_FILL", 0, [ro 13 0]⟩,
    ⟨0x10C, [], "AUD_BUF_UNDER", 0, [ro 31 0]⟩,
    ⟨0x110, [], "AUD_BUF_OVER", 0, [ro 31 0]⟩,
    ⟨0x114, [], "AUD_BUF_TIME", 0, [ro 31 0]⟩ ]

/-- R300, 11_output_release.md: egress flow n. -/
def regsOUT : List RegDef :=
  [ ⟨0x000, [], "OF_CTRL", 0, [rwl 31 31, rwl 30 30, rwl 29 29, rwl 28 28, rwl 23 20 (.nat 0 4), rwl 19 8, rwl 6 0]⟩,
    ⟨0x004, [], "OF_NET", 0, [rwl 31 27, rwl 26 22, rwl 21 16, rwl 15 8 (.nat 1 255)]⟩,
    ⟨0x008, [], "OF_VLAN", 0, [rwl 31 31, rwl 27 16, rwl 15 15, rwl 11 0]⟩,
    ⟨0x00C, [], "OF_UDP", 0, [rwl 31 16, rwl 15 0]⟩,
    ⟨0x010, [(4, 4)], "OF_RED_DST", 0, [rwl 31 0]⟩,
    ⟨0x020, [(4, 4)], "OF_BLUE_DST", 0, [rwl 31 0]⟩,
    ⟨0x030, [], "OF_SSRC", 0, [rwl 31 0]⟩,
    ⟨0x034, [], "OF_TS", 0, [rwl 31 16, rwl 15 0]⟩,
    ⟨0x038, [], "OF_AUX", 0, [rwl 31 0]⟩,
    ⟨0x03C, [], "OF_CURSOR", 0, [ro 31 0]⟩ ]

/-- R318, 12_egress_scheduling.md: traffic manager of port n. -/
def regsTMG : List RegDef :=
  [ ⟨0x000, [], "TMG_CTRL", 0, [rwl 0 0]⟩,
    ⟨0x004, [], "TMG_STATUS", 0, [ro 31 31, ro 30 30, ro 23 16, ro 9 0]⟩,
    ⟨0x008, [], "TMG_CYCLE", 0, [ro 31 0]⟩,
    ⟨0x00C, [], "TMG_LEN", 0, [ro 10 0]⟩,
    ⟨0x010, [], "TMG_BASE_LO", 1, [rwl 31 0]⟩,
    ⟨0x014, [], "TMG_BASE_HI", 2, [rwl 31 0]⟩,
    ⟨0x018, [], "TMG_ADMIN_CYCLE", 0, [liv 31 0 (.nat 1000 1000000000)]⟩,
    ⟨0x01C, [], "TMG_ADMIN_LEN", 0, [liv 10 0 (.nat 1 1024)]⟩,
    ⟨0x020, [], "TMG_GCL_CTRL", 0, [liv 31 31, liv 9 0]⟩,
    ⟨0x024, [], "TMG_GCL_DATA", 0, [liv 31 24, liv 23 0]⟩,
    ⟨0x028, [], "TMG_GCL_OPER", 0, [ro 31 24, ro 23 0]⟩,
    ⟨0x02C, [], "TMG_SWITCHES", 0, [ro 31 0]⟩,
    ⟨0x030, [], "TMG_GCL_REFUSED", 0, [ro 31 0]⟩,
    ⟨0x034, [], "TMG_BUF_FREE", 0, [ro 16 0]⟩,
    ⟨0x038, [], "TMG_BUF_LOW", 0, [ro 16 0]⟩,
    ⟨0x100, [(256, 4), (16, 8)], "TMC_FRAMES", 0, [ro 31 0]⟩,
    ⟨0x104, [(256, 4), (16, 8)], "TMC_BYTES", 0, [ro 31 0]⟩,
    ⟨0x108, [(256, 4), (16, 8)], "TMC_DROPPED", 0, [ro 31 0]⟩,
    ⟨0x10C, [(256, 4), (16, 8)], "TMC_DEFERRED", 0, [ro 31 0]⟩,
    ⟨0x180, [(256, 4)], "TMS_GATE_DISCARD", 0, [ro 31 0]⟩ ]

/-- R319, 12_egress_scheduling.md: shaper entry of flow n. -/
def regsTF : List RegDef :=
  [ ⟨0x000, [], "TF_RATE", 0, [liv 29 0 (.nat 0 360000000)]⟩,
    ⟨0x004, [], "TF_FLOOR", 0, [rwl 29 0]⟩,
    ⟨0x008, [], "TF_WEIGHT", 0, [rwl 15 0 (.nat 1 65535)]⟩,
    ⟨0x010, [], "TF_CREDIT_RED", 0, [ro 31 0]⟩,
    ⟨0x014, [], "TF_CREDIT_BLUE", 0, [ro 31 0]⟩,
    ⟨0x018, [], "TF_SENT_RED", 0, [ro 31 0]⟩,
    ⟨0x01C, [], "TF_SENT_BLUE", 0, [ro 31 0]⟩ ]

/-- R274, 10_dispatch.md: scheduler share of die n. -/
def regsSCH : List RegDef :=
  [ ⟨0x000, [], "SCH_FREE", 0, [ro 16 0]⟩,
    ⟨0x004, [], "SCH_SHARED_FREE", 0, [ro 16 0]⟩,
    ⟨0x008, [], "SCH_RESERVED", 0, [ro 16 0]⟩,
    ⟨0x00C, [], "SCH_LOW_FREE", 0, [ro 16 0]⟩,
    ⟨0x010, [], "SCH_WAITS", 0, [ro 31 0]⟩,
    ⟨0x014, [], "SCH_REDISPATCH", 0, [ro 31 0]⟩,
    ⟨0x018, [], "SCH_ENG_FAIL", 0, [ro 31 0]⟩,
    ⟨0x020, [], "TRC_CTRL", 0, [rwf 31 16, rwf 9 8 (.nat 0 2), wof 0 0]⟩,
    ⟨0x024, [], "TRC_FILTER", 0, [rwf 31 31, rwf 30 24, rwf 15 8]⟩,
    ⟨0x028, [], "TRC_HEAD", 0, [ro 16 16, ro 15 0]⟩,
    ⟨0x02C, [], "TRC_DROP", 0, [ro 31 0]⟩ ]

/-- R404, 15_serial_lanes.md: Lantern link and MGMT lane. -/
def regsLNK : List RegDef :=
  [ ⟨0x000, [], "LNK_CTRL", 0, [rwl 23 16, rwl 15 8, rwl 7 0]⟩,
    ⟨0x004, [], "LNK_STATUS", 0, [ro 31 24, ro 23 16, ro 15 8, ro 7 0]⟩,
    ⟨0x008, [], "LNK_TX_FRAMES", 0, [ro 31 0]⟩,
    ⟨0x00C, [], "LNK_RX_FRAMES", 0, [ro 31 0]⟩,
    ⟨0x010, [], "LNK_CRC_ERR", 0, [ro 31 0]⟩,
    ⟨0x014, [], "LNK_DISCARD", 0, [ro 31 0]⟩,
    ⟨0x018, [], "LNK_RESENT", 0, [ro 31 0]⟩,
    ⟨0x01C, [], "LNK_ABORTS", 0, [ro 31 0]⟩,
    ⟨0x020, [], "LNK_RESTRIPES", 0, [ro 31 0]⟩,
    ⟨0x024, [], "LNK_SKP_ADD", 0, [ro 31 0]⟩,
    ⟨0x028, [], "LNK_SKP_DEL", 0, [ro 31 0]⟩,
    ⟨0x02C, [], "LNK_DESKEW_FAIL", 0, [ro 31 0]⟩,
    ⟨0x100, [], "MGL_CTRL", 0, [rwl 0 0]⟩,
    ⟨0x104, [], "MGL_STATUS", 0, [ro 31 31, ro 0 0]⟩,
    ⟨0x108, [], "MGL_RX_FRAMES", 0, [ro 31 0]⟩,
    ⟨0x10C, [], "MGL_RX_ERR", 0, [ro 31 0]⟩ ]

/-- R74/R128/R253/R301/R76/R234/R275/R77/R78, 03_channels_capacity.md: channel context n. -/
def regsCHN : List RegDef :=
  [ ⟨0x000, [], "CHN_CTRL", 0, [rwl 14 8 (.nat 0 95), rwl 5 4 (.nat 0 2), liv 0 0]⟩,
    ⟨0x004, [], "CHN_STATE", 0, [ro 18 16, ro 13 13, ro 12 12, ro 11 8, ro 2 0]⟩,
    ⟨0x008, [], "CHN_PRIO", 0, [liv 3 0]⟩,
    ⟨0x010, [], "CHN_FORMAT", 0, [rwl 25 24 (.nat 0 2), rwl 23 20 (.nat 0 11), rwl 19 10 (.nat 18 540), rwl 9 0 (.nat 32 960)]⟩,
    ⟨0x020, [], "CHN_CODEC", 0, [rwl 23 16, rwl 8 8, rwl 0 0]⟩,
    ⟨0x024, [], "CHN_EFFORT", 0, [ro 18 16, ro 10 8, liv 2 0]⟩,
    ⟨0x030, [], "CHN_LOOKAHEAD", 0, [rwl 3 0]⟩,
    ⟨0x040, [], "CHN_QTARGET", 0, [liv 9 0 (.nat 0 1000)]⟩,
    ⟨0x044, [], "CHN_CAP_PIC", 0, [liv 31 0]⟩,
    ⟨0x048, [], "CHN_CAP_RATE", 0, [liv 19 0 (.nat 100 800000)]⟩,
    ⟨0x04C, [], "CHN_CAP_WIN", 0, [liv 13 0 (.nat 10 10000)]⟩,
    ⟨0x050, [], "CHN_CPB_SIZE", 0, [rwl 19 0 (.nat 1 800000)]⟩,
    ⟨0x060, [], "CHN_DELAY", 0, [rwl 22 0 (.nat 500 5000000)]⟩,
    ⟨0x070, [], "CHN_REFRESH", 0, [rwl 31 31, liv 23 16 (.nat 1 255), liv 15 0 (.nat 1 65535)]⟩,
    ⟨0x080, [], "CHN_IN_MEDIA", 0, [rwl 31 31, rwl 15 0]⟩,
    ⟨0x084, [], "CHN_IN_ANC", 0, [rwl 31 31, rwl 15 0]⟩,
    ⟨0x088, [], "CHN_IN_SIZE", 0, [rwl 28 16 (.nat 144 7680), rwl 12 0 (.nat 144 7680)]⟩,
    ⟨0x08C, [], "CHN_IN_FORMAT", 0, [rwl 23 20 (.nat 0 11), rwl 17 16 (.nat 0 2), rwl 13 12 (.nat 0 2), rwl 8 8, rwl 5 4 (.nat 0 2), rwl 2 2, rwl 1 0 (.nat 0 1)]⟩,
    ⟨0x090, [], "CHN_IN_PREP", 0, [rwl 18 16 (.nat 0 2), rwl 9 8 (.nat 0 2), liv 5 5, liv 4 4, rwl 1 0]⟩,
    ⟨0x094, [], "CHN_IN_TRO", 0, [rwl 10 0 (.nat 0 2000)]⟩,
    ⟨0x098, [], "CHN_IN_SKEW", 0, [rwl 13 0 (.nat 0 10000)]⟩,
    ⟨0x09C, [], "CHN_IN_SLATE", 0, [liv 31 31, liv 23 16, liv 15 0 (.nat 10 60000)]⟩,
    ⟨0x0A0, [], "CHN_IN_TS", 0, [rwl 15 0]⟩,
    ⟨0x0C0, [], "CHN_IN_STATUS", 0, [ro 7 7, ro 6 6, ro 5 5, ro 4 4, ro 1 1, ro 0 0]⟩ ] ++
  [ ⟨0x0C4, [], "CHN_IN_SKEW_MEAS", 0, [ro 16 16, ro 15 0]⟩,
    ⟨0x0C8, [], "CHN_IN_LINES_REP", 0, [ro 31 0]⟩,
    ⟨0x0CC, [], "CHN_IN_LATE", 0, [ro 31 0]⟩,
    ⟨0x0D0, [], "CHN_IN_DUP", 0, [ro 31 0]⟩,
    ⟨0x0D4, [], "CHN_IN_ANC_DROP", 0, [ro 31 0]⟩,
    ⟨0x0D8, [], "CHN_IN_FEC_REC", 0, [ro 31 0]⟩,
    ⟨0x0DC, [], "CHN_IN_DEC_STATUS", 0, [ro 31 31, ro 30 30, ro 1 0]⟩,
    ⟨0x0E0, [], "CHN_IN_DEC_ERR", 0, [ro 31 0]⟩,
    ⟨0x0E4, [], "CHN_IN_RESYNC", 0, [ro 31 0]⟩,
    ⟨0x0E8, [], "CHN_IN_CONC_CTU", 0, [ro 31 0]⟩,
    ⟨0x0EC, [], "CHN_IN_SUBST", 0, [ro 31 0]⟩,
    ⟨0x0F0, [], "CHN_IN_GAPS", 0, [ro 31 0]⟩,
    ⟨0x0F4, [], "CHN_IN_LATE_LINES", 0, [ro 31 0]⟩,
    ⟨0x0F8, [], "CHN_IN_LAST_ERR", 0, [ro 7 0]⟩,
    ⟨0x100, [], "CHN_OUT_FLOW", 0, [rwl 31 31, rwl 10 0]⟩,
    ⟨0x104, [], "CHN_OUT_PROG", 0, [rwl 31 16 (.nat 1 65535), rwl 12 0]⟩,
    ⟨0x108, [], "CHN_OUT_PIDS", 0, [rwl 28 16, rwl 12 0]⟩,
    ⟨0x10C, [], "CHN_OUT_FLAGS", 0, [rwl 3 3, rwl 2 2, rwl 1 1, rwl 0 0]⟩,
    ⟨0x110, [], "CHN_OUT_DTS", 0, [rwl 16 0 (.nat 0 100000)]⟩,
    ⟨0x114, [(4, 6)], "CHN_OUT_MDCV", 0, [rwl 31 0]⟩,
    ⟨0x12C, [], "CHN_OUT_CLL", 0, [rwl 31 16, rwl 15 0]⟩,
    ⟨0x140, [(8, 8)], "CHN_OUT_AUD", 0, [rwl 31 31, rwl 28 16, rwl 9 8 (.nat 0 2), rwl 1 0]⟩,
    ⟨0x144, [(8, 8)], "CHN_OUT_AUD_SRC", 0, [rwl 31 22, rwl 16 0 (.nat 0 100000)]⟩,
    ⟨0x180, [], "CHN_OUT_RB", 0, [ro 31 0]⟩ ] ++
  [ ⟨0x184, [], "CHN_OUT_DMIN", 0, [ro 31 0]⟩,
    ⟨0x188, [], "CHN_OUT_LATE", 0, [ro 31 0]⟩,
    ⟨0x18C, [], "CHN_OUT_SPLICES", 0, [ro 31 0]⟩,
    ⟨0x190, [], "CHN_OUT_AUD_UNDER", 0, [ro 31 0]⟩,
    ⟨0x194, [], "CHN_OUT_MARGIN", 0, [ro 31 31, ro 30 0]⟩,
    ⟨0x200, [], "CHN_PLACE", 0, [ro 31 31, ro 30 30, ro 29 27, ro 26 24, ro 23 20, ro 19 16, ro 15 8, ro 7 0]⟩,
    ⟨0x208, [], "CHN_COST", 0, [ro 31 0]⟩,
    ⟨0x20C, [], "CHN_COST_EFF", 0, [ro 31 0]⟩,
    ⟨0x210, [], "CHN_MOTH_LOAD", 0, [ro 31 0]⟩,
    ⟨0x214, [], "CHN_MEM_DEMAND", 0, [ro 31 0]⟩,
    ⟨0x218, [], "CHN_POOL_BUFS", 0, [ro 31 16, ro 15 0]⟩,
    ⟨0x21C, [], "CHN_ADMIT_RANK", 0, [ro 31 0]⟩,
    ⟨0x220, [], "CHN_BUF_COUNT0", 0, [ro 31 24, ro 23 16, ro 15 8, ro 7 0]⟩,
    ⟨0x224, [], "CHN_BUF_COUNT1", 0, [ro 31 24, ro 23 16, ro 15 8, ro 7 0]⟩,
    ⟨0x228, [], "CHN_DESC_RESERVE", 0, [ro 16 0]⟩,
    ⟨0x22C, [], "CHN_DESC_HELD", 0, [ro 17 0]⟩,
    ⟨0x230, [], "CHN_LA_EFF", 0, [ro 3 0]⟩,
    ⟨0x234, [], "CHN_LA_SHORT", 0, [ro 31 0]⟩,
    ⟨0x238, [], "CHN_REDISPATCH", 0, [ro 31 0]⟩,
    ⟨0x300, [], "CHN_PIC_ACC_LO", 1, [ro 31 0]⟩,
    ⟨0x304, [], "CHN_PIC_ACC_HI", 2, [ro 31 0]⟩,
    ⟨0x308, [], "CHN_PIC_REL_LO", 1, [ro 31 0]⟩,
    ⟨0x30C, [], "CHN_PIC_REL_HI", 2, [ro 31 0]⟩,
    ⟨0x310, [], "CHN_PIC_REPEAT", 0, [ro 31 0]⟩ ] ++
  [ ⟨0x314, [], "CHN_PIC_SLATE", 0, [ro 31 0]⟩,
    ⟨0x318, [], "CHN_PIC_REFUSED", 0, [ro 31 0]⟩,
    ⟨0x31C, [], "CHN_EMBER_BANDS", 0, [ro 31 0]⟩,
    ⟨0x320, [], "CHN_CONCEALED", 0, [ro 31 0]⟩,
    ⟨0x324, [], "CHN_SQI_LAST", 0, [ro 9 0]⟩,
    ⟨0x328, [], "CHN_BITS_LAST", 0, [ro 31 0]⟩,
    ⟨0x32C, [], "CHN_FR_TOTAL", 0, [ro 31 0]⟩,
    ⟨0x400, [], "CHN_FR_COUNT", 0, [ro 6 0]⟩,
    ⟨0x404, [], "CHN_FR_SEL", 0, [rwf 5 0]⟩,
    ⟨0x420, [(4, 8)], "CHN_FR_WIN", 0, [ro 31 0]⟩ ]

/-- R103, 04_ingest.md: flow-table entry n. -/
def regsFT : List RegDef :=
  [ ⟨0x000, [], "FT_CTRL", 0, [rwl 31 31, rwl 30 30, rwl 29 29, rwl 28 28, rwl 27 27, rwl 26 24 (.nat 0 6), rwl 23 16, rwl 15 0]⟩,
    ⟨0x004, [], "FT_VLAN_PORT", 0, [rwl 27 16, rwl 15 0]⟩,
    ⟨0x008, [(4, 4)], "FT_DST", 0, [rwl 31 0]⟩,
    ⟨0x018, [(4, 4)], "FT_SRC", 0, [rwl 31 0]⟩,
    ⟨0x028, [], "FT_BIND", 0, [rwl 30 24 (.nat 0 95), rwl 19 10, rwl 6 0 (.nat 0 64)]⟩,
    ⟨0x02C, [], "FT_FORMAT", 0, [rwl 15 0]⟩,
    ⟨0x030, [], "FT_POL_RATE", 0, [liv 19 0 (.nat 1 400000)]⟩,
    ⟨0x034, [], "FT_POL_BURST", 0, [liv 23 0 (.nat 1518 16777215)]⟩,
    ⟨0x038, [], "FT_MATCHED", 0, [ro 31 0]⟩,
    ⟨0x03C, [], "FT_POLICED", 0, [ro 31 0]⟩ ]

/-- R518/R234, 22_register_map.md: die control of die d. -/
def regsDIE : List RegDef :=
  [ ⟨0x000, [], "DIE_STATUS", 0, [ro 31 31, ro 30 30, ro 29 29, ro 2 0]⟩,
    ⟨0x100, [], "DIE_POOL_SPACE_LO", 1, [ro 31 0]⟩,
    ⟨0x104, [], "DIE_POOL_SPACE_HI", 2, [ro 31 0]⟩,
    ⟨0x108, [], "DIE_POOL_USED_LO", 1, [ro 31 0]⟩,
    ⟨0x10C, [], "DIE_POOL_USED_HI", 2, [ro 31 0]⟩,
    ⟨0x110, [], "DIE_POOL_EXHAUST", 0, [ro 31 0]⟩,
    ⟨0x114, [], "DIE_BUF_POISON", 0, [ro 31 0]⟩ ]

/-- R481, 19_thermal_ageing.md: thermal and wax block of die d. -/
def regsTHD : List RegDef :=
  [ ⟨0x000, [(4, 16)], "THS_READ", 0, [ro 31 31, ro 15 0]⟩,
    ⟨0x040, [], "THD_STATUS", 0, [ro 31 31, ro 30 30, ro 29 29, ro 26 24, ro 23 22, ro 20 16, ro 15 0]⟩,
    ⟨0x044, [], "THD_MAX", 0, [ro 15 0]⟩,
    ⟨0x048, [], "THD_MAX_DAY", 0, [ro 15 0]⟩,
    ⟨0x04C, [], "THD_THROTTLES", 0, [ro 31 0]⟩,
    ⟨0x080, [(4, 8)], "WAX_C", 0, [ro 31 16, ro 15 0]⟩,
    ⟨0x0A0, [(4, 32)], "WAX_G", 0, [ro 31 31, ro 15 0]⟩,
    ⟨0x120, [], "AVS_VOUT", 0, [ro 15 0]⟩,
    ⟨0x124, [], "AVS_READ", 0, [ro 31 16, ro 15 0]⟩,
    ⟨0x128, [], "AVS_TEMP", 0, [ro 15 0]⟩,
    ⟨0x12C, [], "AVS_STATUS", 0, [ro 15 0]⟩,
    ⟨0x130, [], "AVS_STEPS", 0, [ro 31 0]⟩,
    ⟨0x134, [], "AVS_PMB_ERR", 0, [ro 31 0]⟩ ]

/-- R449/R457, 17_picture_memory.md: memory controller m of die d. -/
def regsMC : List RegDef :=
  [ ⟨0x000, [], "MC_CTRL", 0, [rwl 23 16 (.nat 1 255), rwl 15 8 (.nat 1 255), rwl 7 7, rwl 6 6, rwl 2 0 (.nat 0 4)]⟩,
    ⟨0x004, [], "MC_STATUS", 0, [ro 31 31, ro 26 24, ro 17 16, ro 11 8, ro 3 0]⟩,
    ⟨0x010, [], "MC_SCRUB_POS", 0, [ro 31 0]⟩,
    ⟨0x014, [], "MC_SCRUB_PASSES", 0, [ro 31 0]⟩,
    ⟨0x018, [], "MC_SCRUB_CE", 0, [ro 31 0]⟩,
    ⟨0x01C, [], "MC_SCRUB_UE", 0, [ro 31 0]⟩,
    ⟨0x020, [], "MC_POISONED", 0, [ro 31 0]⟩,
    ⟨0x024, [], "MC_SR_ENTRIES", 0, [ro 31 0]⟩,
    ⟨0x028, [], "MC_WDRAIN", 0, [ro 31 0]⟩,
    ⟨0x100, [(64, 4)], "MCC_STATUS", 0, [ro 23 16, ro 9 9, ro 8 8, ro 2 0]⟩,
    ⟨0x104, [(64, 4)], "MCC_CE", 0, [ro 31 0]⟩,
    ⟨0x108, [(64, 4)], "MCC_UE", 0, [ro 31 0]⟩,
    ⟨0x10C, [(64, 4)], "MCC_CRC_RETRY", 0, [ro 31 0]⟩,
    ⟨0x110, [(64, 4)], "MCC_RETRAINS", 0, [ro 31 0]⟩,
    ⟨0x114, [(64, 4)], "MCC_SLICES", 0, [ro 31 0]⟩,
    ⟨0x118, [(64, 4)], "MCC_TEMP", 0, [ro 7 0]⟩,
    ⟨0x11C, [(64, 4)], "MCC_LAST_TRAIN", 0, [ro 31 0]⟩,
    ⟨0x120, [(64, 4)], "MCC_NOSET", 0, [ro 31 0]⟩,
    ⟨0x200, [(16, 8)], "MCP_REQ", 0, [ro 31 0]⟩,
    ⟨0x204, [(16, 8)], "MCP_LAT_MISS", 0, [ro 31 0]⟩,
    ⟨0x208, [(16, 8)], "MCP_LAT_MAX", 0, [ro 31 0]⟩,
    ⟨0x300, [(64, 4)], "MCAL_CTX", 0, [rwf 31 24, rwf 23 16, rwf 10 8, rwf 7 0]⟩,
    ⟨0x304, [(64, 4), (4, 8)], "MCAL_DQ", 0, [rwf 31 24, rwf 23 16, rwf 15 8, rwf 7 0]⟩,
    ⟨0x324, [(64, 4)], "MCAL_WCK", 0, [rwf 6 0]⟩ ] ++
  [ ⟨0x328, [(64, 4)], "MCAL_SIG", 0, [rwf 31 0]⟩,
    ⟨0x32C, [(64, 4)], "MCAL_STAT", 0, [ro 31 31, ro 30 30, ro 29 29, ro 28 28]⟩,
    ⟨0x330, [(64, 4)], "MCAL_COMMITS", 0, [ro 31 0]⟩,
    ⟨0x400, [(4, 64)], "MC_TRN", 0, [ro 31 0]⟩,
    ⟨0x800, [(4, 512)], "MC_TRN_PAT", 0, [ro 31 0]⟩ ]

/-- R402, 15_serial_lanes.md: network port of die d. -/
def regsNP : List RegDef :=
  [ ⟨0x000, [], "NP_CTRL", 0, [rwl 31 24, rwl 23 16, rwl 8 8, rwl 2 2, rwl 1 0]⟩,
    ⟨0x004, [], "NP_STATUS", 0, [ro 31 24, ro 23 16, ro 7 0]⟩,
    ⟨0x008, [], "NP_RETURN", 0, [rwl 13 0 (.nat 10 10000)]⟩,
    ⟨0x100, [(128, 4)], "NP_RX_FRAMES", 0, [ro 31 0]⟩,
    ⟨0x104, [(128, 4)], "NP_TX_FRAMES", 0, [ro 31 0]⟩,
    ⟨0x108, [(128, 4)], "NP_RX_FCS", 0, [ro 31 0]⟩,
    ⟨0x10C, [(128, 4)], "NP_RX_UNMATCHED", 0, [ro 31 0]⟩,
    ⟨0x110, [(128, 4)], "NP_RX_POLICED", 0, [ro 31 0]⟩,
    ⟨0x114, [(128, 4)], "NP_RX_MALFORMED", 0, [ro 31 0]⟩,
    ⟨0x118, [(128, 4)], "NP_RX_HEADER", 0, [ro 31 0]⟩,
    ⟨0x11C, [(128, 4)], "NP_RX_ICMP_LIMIT", 0, [ro 31 0]⟩,
    ⟨0x120, [(128, 4)], "NP_RX_MACCTL", 0, [ro 31 0]⟩,
    ⟨0x124, [(128, 4)], "NP_RX_OVERRUN", 0, [ro 31 0]⟩,
    ⟨0x128, [(128, 4)], "NP_FEC_CORR_LO", 1, [ro 31 0]⟩,
    ⟨0x12C, [(128, 4)], "NP_FEC_CORR_HI", 2, [ro 31 0]⟩,
    ⟨0x130, [(128, 4)], "NP_FEC_UNCORR", 0, [ro 31 0]⟩ ]

/-- R403/R456, 15_serial_lanes.md: lane slot n of die d. -/
def regsLN : List RegDef :=
  [ ⟨0x000, [], "LN_STATUS", 0, [ro 31 31, ro 26 24, ro 15 8, ro 7 0]⟩,
    ⟨0x004, [], "LN_VIOL", 0, [ro 31 0]⟩,
    ⟨0x008, [], "LN_LOCK_LOSS", 0, [ro 31 0]⟩,
    ⟨0x040, [], "CAL_CTX", 0, [rwf 31 24, rwf 23 16, rwf 10 8, rwf 7 0]⟩,
    ⟨0x044, [], "CAL_RX", 0, [rwf 22 16, rwf 3 0]⟩,
    ⟨0x048, [], "CAL_DFE0", 0, [rwf 31 24, rwf 23 16, rwf 15 8, rwf 7 0]⟩,
    ⟨0x04C, [], "CAL_DFE1", 0, [rwf 31 24, rwf 23 16, rwf 15 8, rwf 7 0]⟩,
    ⟨0x050, [], "CAL_THR", 0, [rwf 23 16, rwf 15 8, rwf 7 0]⟩,
    ⟨0x054, [], "CAL_SIG", 0, [rwf 31 0]⟩,
    ⟨0x058, [], "CAL_STAT", 0, [ro 31 31, ro 30 30, ro 29 29, ro 28 28]⟩,
    ⟨0x05C, [], "CAL_COMMITS", 0, [ro 31 0]⟩ ]

/-- R485, 20_checkvalue_fabric.md: general CRC unit u of die d. -/
def regsCRC : List RegDef :=
  [ ⟨0x000, [], "CRC_CFG", 0, [rwf 31 31, rwf 30 30, rwf 6 0]⟩,
    ⟨0x008, [], "CRC_POLY_LO", 1, [rwf 31 0]⟩,
    ⟨0x00C, [], "CRC_POLY_HI", 2, [rwf 31 0]⟩,
    ⟨0x010, [], "CRC_INIT_LO", 1, [rwf 31 0]⟩,
    ⟨0x014, [], "CRC_INIT_HI", 2, [rwf 31 0]⟩,
    ⟨0x018, [], "CRC_XOROUT_LO", 1, [rwf 31 0]⟩,
    ⟨0x01C, [], "CRC_XOROUT_HI", 2, [rwf 31 0]⟩,
    ⟨0x020, [], "CRC_VALUE_LO", 1, [rwf 31 0]⟩,
    ⟨0x024, [], "CRC_VALUE_HI", 2, [rwf 31 0]⟩,
    ⟨0x028, [], "CRC_RESULT_LO", 1, [ro 31 0]⟩,
    ⟨0x02C, [], "CRC_RESULT_HI", 2, [ro 31 0]⟩,
    ⟨0x030, [], "CRC_START", 0, [wof 0 0]⟩,
    ⟨0x040, [], "CRC_FEED_B", 0, [wof 7 0]⟩,
    ⟨0x044, [], "CRC_FEED_H", 0, [wof 15 0]⟩,
    ⟨0x048, [], "CRC_FEED_W", 0, [wof 31 0]⟩,
    ⟨0x04C, [], "CRC_COUNT", 0, [ro 31 0]⟩ ]

/-- R495, 20_checkvalue_fabric.md: fabric block of die d. -/
def regsFAB : List RegDef :=
  [ ⟨0x000, [], "FAB_ABORTS", 0, [ro 31 0]⟩,
    ⟨0x004, [], "FAB_HEAD", 0, [ro 5 0]⟩,
    ⟨0x008, [], "FAB_ISSUE_WAITS", 0, [ro 31 0]⟩,
    ⟨0x100, [(4, 256)], "FAB_ABORT_LOG", 0, [ro 31 0]⟩ ]

/-- R191, 06_coding_pipeline.md: cluster c of die d. -/
def regsCL : List RegDef :=
  [ ⟨0x000, [], "CL_STATUS", 0, [ro 31 31, ro 23 16, ro 8 8, ro 6 0]⟩,
    ⟨0x004, [], "CL_USE", 0, [ro 31 0]⟩,
    ⟨0x008, [], "CL_USE_EFF", 0, [ro 31 0]⟩,
    ⟨0x010, [(4, 7)], "CL_ITEMS_E", 0, [ro 31 0]⟩,
    ⟨0x030, [(4, 7)], "CL_BUSY_E", 0, [ro 31 0]⟩,
    ⟨0x050, [], "CL_CTU_LO", 1, [ro 31 0]⟩,
    ⟨0x054, [], "CL_CTU_HI", 2, [ro 31 0]⟩,
    ⟨0x058, [], "CL_BITS_LO", 1, [ro 31 0]⟩,
    ⟨0x05C, [], "CL_BITS_HI", 2, [ro 31 0]⟩,
    ⟨0x060, [], "CL_REDISPATCH", 0, [ro 31 0]⟩,
    ⟨0x064, [], "CL_EMBER", 0, [ro 31 0]⟩,
    ⟨0x070, [(4, 8)], "CL_BANDS_EFF", 0, [ro 31 0]⟩ ]

/-- R252, 09_moth_decoder.md: moth decoder of die d. -/
def regsMD : List RegDef :=
  [ ⟨0x000, [], "MD_STATUS", 0, [ro 31 31, ro 23 16, ro 7 0]⟩,
    ⟨0x004, [], "MD_LOAD_CHECK", 0, [ro 19 0]⟩,
    ⟨0x008, [], "MD_LOAD_DEC", 0, [ro 19 0]⟩,
    ⟨0x010, [], "MD_BANDS_LO", 1, [ro 31 0]⟩,
    ⟨0x014, [], "MD_BANDS_HI", 2, [ro 31 0]⟩,
    ⟨0x018, [(4, 5)], "MD_FAIL", 0, [ro 31 0]⟩,
    ⟨0x02C, [], "MD_SUBST_BANDS", 0, [ro 31 0]⟩,
    ⟨0x030, [], "MD_ESCALATE", 0, [ro 31 0]⟩,
    ⟨0x040, [], "MD_DEC_PICS_LO", 1, [ro 31 0]⟩,
    ⟨0x044, [], "MD_DEC_PICS_HI", 2, [ro 31 0]⟩,
    ⟨0x048, [], "MD_LATE_LINES", 0, [ro 31 0]⟩,
    ⟨0x050, [], "MD_BUSY_LO", 1, [ro 31 0]⟩,
    ⟨0x054, [], "MD_BUSY_HI", 2, [ro 31 0]⟩ ]

/-- R518, 22_register_map.md: input preparation of die d. -/
def regsIP : List RegDef :=
  [ ⟨0x000, [], "IP_CHANNELS", 0, [ro 6 0]⟩,
    ⟨0x004, [], "IP_LOAD_IN", 0, [ro 21 0]⟩,
    ⟨0x008, [], "IP_LOAD_OUT", 0, [ro 21 0]⟩,
    ⟨0x010, [], "IP_PICS_LO", 1, [ro 31 0]⟩,
    ⟨0x014, [], "IP_PICS_HI", 2, [ro 31 0]⟩,
    ⟨0x018, [], "IP_BUSY_LO", 1, [ro 31 0]⟩,
    ⟨0x01C, [], "IP_BUSY_HI", 2, [ro 31 0]⟩ ]

/-- The blocks of R513 and the tables after it. -/
def blocks : List Block :=
  [ ⟨"IDN", 0x00000000, [], 0x50, regsIDN⟩,
    ⟨"EMG", 0x00001000, [], 0x200, regsEMG⟩,
    ⟨"EVT", 0x00002000, [], 0x30, regsEVT⟩,
    ⟨"SAF", 0x00008000, [], 0x58, regsSAF⟩,
    ⟨"TWN", 0x00009000, [], 0x7C, regsTWN⟩,
    ⟨"DTC", 0x0000A000, [], 0x70, regsDTC⟩,
    ⟨"PTP", 0x0000B000, [], 0xC0, regsPTP⟩,
    ⟨"CAP", 0x0000C000, [], 0x80, regsCAP⟩,
    ⟨"THM", 0x0000D000, [], 0x18, regsTHM⟩,
    ⟨"MGT", 0x0000E000, [], 0x24, regsMGT⟩,
    ⟨"AUD", 0x00010000, [(0x400, 16)], 0x178, regsAUD⟩,
    ⟨"AUDW", 0x00014000, [], 0x118, regsAUDW⟩,
    ⟨"OUT", 0x00020000, [(0x40, 2048)], 0x40, regsOUT⟩,
    ⟨"TMG", 0x00040000, [(0x2000, 8)], 0x490, regsTMG⟩,
    ⟨"TF", 0x00050000, [(0x20, 2048)], 0x20, regsTF⟩,
    ⟨"SCH", 0x00060100, [(0x40, 8)], 0x40, regsSCH⟩,
    ⟨"LNK", 0x00080000, [], 0x110, regsLNK⟩,
    ⟨"CHN", 0x00100000, [(0x1000, 96)], 0x1000, regsCHN⟩,
    ⟨"FT", 0x00200000, [(0x40, 65536)], 0x40, regsFT⟩,
    ⟨"DIE", 0x01000000, [(0x400000, 8)], 0x118, regsDIE⟩,
    ⟨"THD", 0x01010000, [(0x400000, 8)], 0x138, regsTHD⟩,
    ⟨"MC", 0x01020000, [(0x400000, 8), (0x10000, 2)], 0x1000, regsMC⟩,
    ⟨"NP", 0x01040000, [(0x400000, 8)], 0x2B4, regsNP⟩,
    ⟨"LN", 0x01050000, [(0x400000, 8), (0x100, 10)], 0x100, regsLN⟩,
    ⟨"CRC", 0x01060000, [(0x400000, 8), (0x100, 8)], 0x50, regsCRC⟩,
    ⟨"FAB", 0x01070000, [(0x400000, 8)], 0x500, regsFAB⟩,
    ⟨"CL", 0x01080000, [(0x400000, 8), (0x2000, 8)], 0x90, regsCL⟩,
    ⟨"MD", 0x010C0000, [(0x400000, 8)], 0x58, regsMD⟩,
    ⟨"IP", 0x010D0000, [(0x400000, 8)], 0x20, regsIP⟩ ]

/-- The index tuple and the remainder when `x` is split by the strides of `dims`. -/
def splitDims : List (Nat × Nat) → Nat → Option (List Nat × Nat)
  | [], x => some ([], x)
  | (st, n) :: ds, x =>
    if x / st < n then (splitDims ds (x % st)).map fun (is, r) => (x / st :: is, r) else none

/-- Where an address lies: its block, the block's indices, and the offset in the block. -/
def blockAt (a : Nat) : Option (Block × List Nat × Nat) :=
  blocks.findSome? fun b =>
    if a < b.base then none
    else match splitDims b.dims (a - b.base) with
      | some (is, r) =>
        if r < b.extent && !(b.base == 0x01050000 && is.drop 1 == [9] && is.take 1 != [0] && is.take 1 != [7])
        then some (b, is, r) else none
      | none => none

def RegDef.hits (d : RegDef) (o : Nat) : Bool :=
  decide (d.off ≤ o) && (match splitDims d.dims (o - d.off) with | some (_, 0) => true | _ => false)

/-- The severity of each event source (R497). -/
def severityOf (s : Nat) : Nat :=
  if s < 64 then
    if s = 0 then 0
    else if s ∈ [1, 2, 4] then 1
    else if s ∈ [5, 18, 19, 21, 22, 23] then 2
    else if s ∈ [3, 16, 17, 20] then 3 else 0
  else if s < 576 then
    let k := (s - 64) % 64
    if k ∈ [9, 10, 11, 14, 15, 18, 22] then 1
    else if k ∈ [1, 8, 12, 13, 16, 17, 19, 20, 21] then 2
    else if k = 0 then 3 else 0
  else if s < 960 then
    let k := (s - 576) % 4
    if k = 0 then 0 else if k = 3 then 2 else 1
  else if s ∈ [961, 962, 966, 967, 1008, 1013] then 1
  else if s ∈ [960, 965, 1009, 1010, 1011, 1012] then 2
  else if s = 964 then 3 else 0

/-- The hierarchy level of each event source (R497). -/
def levelOf (s : Nat) : Nat :=
  if s < 64 then 4
  else if s < 576 then (if (s - 64) % 64 = 10 then 1 else 3)
  else if s < 960 then 0
  else if s ∈ [960, 961, 962, 963, 964, 965] then 5 else 4

/-- Is the source assigned (R496)? A reserved source never raises. -/
def sourceAssigned (s : Nat) : Bool :=
  if s < 64 then decide (s ∈ [0, 1, 2, 3, 4, 5, 16, 17, 18, 19, 20, 21, 22, 23])
  else if s < 576 then
    decide ((s - 64) % 64 ∈ [0, 1, 8, 9, 10, 11, 12, 13, 14, 15, 16, 17, 18, 19, 20, 21, 22])
  else if s < 960 then true
  else decide (s ∈ [960, 961, 962, 963, 964, 965, 966, 967, 1008, 1009, 1010, 1011, 1012, 1013])

/-- One word of the source table (R498). -/
def sourceDef (s : Nat) : RegDef :=
  if sourceAssigned s then ⟨0, [], "EVT_SRC", 0, [rwf 31 31, rwf 30 30, ro 29 28, ro 15 0]⟩
  else ⟨0, [], "EVT_SRC", 0, [rwf 30 30]⟩

/-- What an address decodes to (R513, R514): a register with its reset value, a reserved offset of a block,
or nothing. Die numbers are the reset value of DIE_STATUS.DIE (R518). -/
inductive Target where
  | reg (d : RegDef)
  | reserved
  | undecoded
deriving DecidableEq, Repr

def roWord (name : String) : RegDef := ⟨0, [], name, 0, [ro 31 0]⟩

def regAt (a : Nat) : Target :=
  if a % 4 ≠ 0 then .undecoded
  else if 0x4000 ≤ a ∧ a < 0x5000 then .reg (sourceDef ((a - 0x4000) / 4))
  else if 0x000A0000 ≤ a ∧ a < 0x000B0000 then .reg (roWord "EVT_RING")
  else if 0x01000000 ≤ a ∧ a < 0x03000000 ∧ 0x100000 ≤ (a - 0x01000000) % 0x400000 ∧
      (a - 0x01000000) % 0x400000 < 0x200000 then .reg (roWord "TRACE_RING")
  else match blockAt a with
    | none => .undecoded
    | some (b, _, o) =>
      match b.regs.find? (·.hits o) with
      | none => .reserved
      | some d => .reg d

/-- The reset values that are not 0 (R11: a field's reset value is 0 unless its description states otherwise):
EVT_CTRL (R502), CAP_AVS and CAP_AVS_CFG (R483), THM_CTRL (R482), TMG_STATUS (R318), MC_CTRL (R449), the die number
of DIE_STATUS (R518) and the source table (R498). -/
def resetNat (a : Nat) : Nat :=
  if a < 0x01000000 then
    if a = 0x2000 then 1
    else if a = 0xC040 then 0x035C026C
    else if a = 0xC044 then 30
    else if a = 0xD000 then 0x626A01F4
    else if 0x4000 ≤ a ∧ a < 0x5000 then
      (if a % 4 = 0 ∧ sourceAssigned ((a - 0x4000) / 4) then
        let sev := severityOf ((a - 0x4000) / 4)
        2 ^ 31 + (if 2 ≤ sev then 2 ^ 30 else 0) + sev * 2 ^ 28
       else 0)
    else if 0x40000 ≤ a ∧ a < 0x50000 ∧ a % 0x2000 = 4 then 0x40000000
    else 0
  else if a < 0x03000000 then
    let o := (a - 0x01000000) % 0x400000
    if o = 0 then (a - 0x01000000) / 0x400000
    else if o = 0x20000 ∨ o = 0x30000 then 0x00400884
    else 0
  else 0

/-- The reset value of the register at `a` (R11). -/
def resetOf (a : Nat) : Word := BitVec.ofNat 32 (resetNat a)

end Sys2Proof.Machine
end

