-- ==== Sys2Proof/Machine/State.lean ====
section
/-! DEFINITION. The state of the FLS-9608 as plain data: one sparse register file for every register of
`spec/22_register_map.md`, the structures the spec gives the block behind its registers, the queue of waiting commands,
and the model's own record of what has left the block. -/

namespace Sys2Proof.Machine

/-- Why a step stops with a fault. No command of this block does: every command of the opcode table has an effect on
every state (a happening that the state does not admit only lets time pass). Raised by nobody; safe. -/
inductive Fault where
  | none
deriving DecidableEq, Repr

/-- Why a command is refused by the model. -/
inductive Refusal where
  /-- Raised by `exec` for a command that has no meaning in the model yet. Safe: nothing can be proved of it. -/
  | notModelled (mnemonic : String)
deriving DecidableEq, Repr

/-- What leaves the block: one constructor for each kind of emission. -/
inductive Sent where
  /-- A Beacon message (R504): destination, header fields, payload, tag. -/
  | beacon (dst op flags status session seq : Nat) (payload tag : List Byte)
  /-- A flame word on a path (R350 to R352): 0 the Lantern lanes given by `where_`, 1 the wick lines. -/
  | flame (path where_ kind unit aux epoch check : Nat)
  /-- A presence beacon from a port (R352). -/
  | presence (port : Nat) (payload : List Byte)
  /-- An IDLE, SKIP or ABORT set on the Lantern lanes given by the mask (R389, R391). -/
  | idle (lanes : Nat) (bytes : List Nat)
  | skip (lanes : Nat)
  | abort (lanes : Nat)
  /-- A Lantern frame (R396). -/
  | lantern (stripe : Nat) (f : LFrame)
  /-- A PTP message sent (R325): 1 Delay_Req, 2 Pdelay_Req, 3 Pdelay_Resp; its own time field or correction. -/
  | ptp (kind port : Nat) (time : Int)
  /-- A datagram of an egress flow leaves a port (R293, R305): sub-port (4 × port + sub-port), flow, extended sequence
  number, RTP timestamp, marker bit, frame length, the items that start in it (channel, item, PTS, discontinuity), its PCRs,
  the bytes of its RTP payload as they left, its UDP checksum, and the DTC instant of its last bit. -/
  | media (sub flow seq stamp : Nat) (marker : Bool) (len : Nat) (starts : List (Nat × Nat × Nat × Bool)) (pcrs : List Int)
      (payload : List Byte) (sum : Nat) (at_ : Int)
  /-- A frame of another kind, on a network port or (8) the MGMT lane: an ARP or ND answer (1), an echo reply (2), IGMP or
  MLD reports of the groups given, as joined (3) or as left (4). -/
  | reply (kind port dst : Nat) (groups : List (List Nat))
  /-- A read on the control fabric completes with this word (R9): master die and number, address, value. -/
  | busRead (mdie mid addr value : Nat)
  /-- A PMBus transfer to the regulator of a die (R473): command code, and the value written (0 for a read). -/
  | pmbus (die cmd value : Nat)
  /-- A frame of a serial audio port at its pins (R130): the words of its slots or subframes. -/
  | audio (port : Nat) (words : List Nat)
  /-- Bytes returned on I²C (R512), and the value a JTAG instruction drives on TDO (R61). -/
  | i2c (bytes : List Byte)
  | tdo (value : Nat)
  /-- CFGA_RST_N and CFGB_RST_N driven low for 10 µs by the lead die (R533), at this DTC instant. -/
  | cfgReset (at_ : Nat)
  /-- A pulse on PPS_OUT for a whole second of PTP-visible time (R332). -/
  | pps (second : Int) (widthMs : Nat)
deriving DecidableEq, Repr

/-- A gate control list (R311): cycle in ns, entries (gates, interval). -/
structure GateList where
  cycle : Nat
  entries : List (Nat × Nat)
deriving DecidableEq, Repr

/-- The time gates of a port (R311 to R314): the list in force, the entries of the shadow copy that are not 0, the pending
list with the count of its commit, the instant (DTC ns) at which the running cycle started and the count of DOFF steps it started at, and
the entry in force. -/
structure Gates where
  oper : GateList
  shadow : List (Nat × Nat)
  pending : Option (GateList × Nat)
  start : Option (Int × Nat)
  entry : Nat
deriving DecidableEq, Repr

def Gates.reset : Gates := ⟨⟨0, []⟩, [], none, none, 0⟩

/-- A packet that stream assembly has placed (R280, R285 to R291, R294): kind 0 PAT, 1 PMT, 2 PCR-only, 3 SCTE-35, 4 audio,
5 video, 6 null; channel, item and PID; for video the last band whose bytes it holds, and whether it is the first or the last
packet of the item's video (for SCTE-35, `last` ends a section); the payload_unit_start, PCR, random_access and discontinuity
indicators; the continuity_counter; its payload; and the DOFF of the time base that a PCR in it takes (R288). -/
structure TsPacket where
  kind : Nat
  chan : Nat
  idx : Nat
  pid : Nat
  band : Nat
  first : Bool
  last : Bool
  unit : Bool
  pcr : Bool
  rai : Bool
  disc : Bool
  cc : Nat
  payload : List Byte
  doff : Int
deriving DecidableEq, Repr

/-- A datagram of an egress flow (R281, R282): flow, count since the flow's first, close instant on the DTC, RTP timestamp and
marker bit, the bytes of its RTP payload on red and on blue with PCR fields zero, the packets placed, and for red and blue
whether the copy is still to be handed over and still to leave. -/
structure Dgram where
  flow : Nat
  seq : Nat
  close : Int
  stamp : Nat
  marker : Bool
  payload : List Byte × List Byte
  pkts : List TsPacket
  wait : Bool × Bool
  out : Bool × Bool
deriving DecidableEq, Repr

/-- A media datagram that left a path of a flow that FEC protects (R296): flow, path, count since the flow's first, RTP
timestamp, and payload as it left. -/
structure KeptCopy where
  flow : Nat
  blue : Bool
  seq : Nat
  stamp : Nat
  payload : List Byte
deriving DecidableEq, Repr

/-- A flow on one of its paths (R307, R308): credit in 2⁻¹⁶ B as it stood at `upTo` (1/50 ns of DTC), from when to when the bytes of
its latest frame are on the line, and the tag of its previous frame. -/
structure FlowPath where
  credit : Int
  upTo : Int
  bytes : Option (Int × Int)
  tag : Nat
deriving DecidableEq, Repr

/-- An egress flow: datagrams formed, datagrams that have left every port, the two paths, the due instant of the latest PAT
and how many packets of PAT and PMTs have been placed of those due with it, the DOFF of the flow's time base (R540), the jump
of the extended sequence number, the datagrams formed since the last cursor was received, the PIDs whose next packet carries a
discontinuity (R362), and the next continuity_counter of each PID (R285). -/
structure Flow where
  no : Nat
  formed : Nat
  left : Nat
  red : FlowPath
  blue : FlowPath
  psi : Option (Int × Nat)
  base : Int
  jump : Nat
  since : Nat
  marks : List Nat
  cc : List (Nat × Nat)
deriving DecidableEq, Repr

/-- A frame in a queue of a traffic manager (R302): port, sub-port, class, flow with path and datagram for TC6 and TC5,
length L, finish tag, counted as deferred (R312), resent from the replay store, and what it sends. -/
structure QFrame where
  port : Nat
  sub : Nat
  cls : Nat
  flow : Nat
  blue : Bool
  seq : Nat
  len : Nat
  tag : Nat
  deferred : Bool
  replay : Bool
  /-- Bytes of the frame through the base of each PCR, and the DOFF of its program's time base (R287). -/
  pcrs : List (Nat × Int)
  what : Sent
deriving DecidableEq, Repr

/-- Stream assembly and the traffic managers: datagrams not yet gone, flows in use, queued frames (oldest first), virtual
times by (port, sub-port, class), the gates of each port, the lowest count of free buffers of each port, the bytes below 256
of each TMC_BYTES counter, the departed datagrams that FEC still needs, TC7 frames whose generator waits for a buffer (R315), when the
line of each sub-port is free again (4 × port + sub-port; 1/50 ns of DTC), and the copies whose last bit is still to leave: flow,
datagram, path and instant in 1/50 ns (R299, R305). -/
structure Egress where
  dgrams : List Dgram
  flows : List Flow
  queue : List QFrame
  vtimes : List (Nat × Nat)
  gates : List Gates
  low : List Nat
  part : List (Nat × Nat)
  kept : List KeptCopy
  waiting : List QFrame
  lines : List (Nat × Int)
  leaving : List (Nat × Nat × Bool × Int)
deriving DecidableEq, Repr

def Egress.reset : Egress := ⟨[], [], [], [], List.replicate 8 Gates.reset, List.replicate 8 32768, [], [], [], [], []⟩

/-- The fuses that the device blows (R59, R62). Fused identity is in `Config`. -/
structure Fuses where
  rootHash : BitVec 384
  claimLock : Bool
  antiRollback : BitVec 64
deriving DecidableEq, Repr

/-- Progress of a die's E1 self-test (R47); `lost` is a die that passed it and lost its rail in E2 (R46). -/
inductive DieTest where
  | waiting | testing | passed | failed | lost
deriving DecidableEq, Repr

/-- An open FLASH session (R66): port, copy, next copy offset, the held first 4 KiB, sectors already erased. -/
structure FlashSession where
  port : Nat
  copy : Nat
  next : Nat
  held : List Byte
deriving DecidableEq, Repr

/-- A wear-log record waiting for the flash port (R68, R69). `time` is the DTC in ns when it was queued. -/
structure LogReq where
  type : Nat
  payload : List Byte
deriving DecidableEq, Repr

/-- Emergence, fuses' surroundings and the flash (R41 to R73). -/
structure Emg where
  /-- RESET_N as recognised (R45), and E0 has begun since the last reset (R43). -/
  resetN : Bool
  started : Bool
  /-- VCOREd rails in range (R43), and the E1 state of each die (R47). -/
  rails : List Bool
  tests : List DieTest
  /-- The twelve die links: link of dimension k at die d without bit k is number 4 k + rank (R20). -/
  links : List Bool
  /-- I²C target answering, MGMT lane and Beacon started (R42). -/
  i2cUp : Bool
  mgmtUp : Bool
  /-- Valid image loaded; the running copy (port, copy), its ROLLBACK_COMMIT, its flags word (R65). -/
  imageLoaded : Bool
  running : Option (Nat × Nat)
  rollbackCommit : Bool
  flashLive : Bool
  resetLive : Bool
  /-- Live-permission entries after SCOPE is applied: address and field mask (R65). -/
  livePerms : List (Nat × Nat)
  operatingKey : List Byte
  laneUpMs : Nat
  restoreMs : Nat
  hasTwin : Bool
  slateSection : List Byte
  /-- Flash port that carries the wear log (R69), next page, and the instants of the journal records of the last
  24 h (R70), in DTC ns. -/
  logPort : Nat
  logNext : Nat
  journalTimes : List Int
  logQueue : List LogReq
  /-- The failure-summary record kept across a warm reset (R411). -/
  summary : Option (List Byte)
  session : Option FlashSession
  /-- The boot record of this emergence has been written (R69). -/
  booted : Bool
  /-- E6 is over but for the voltage raises that come before E8 (R475). -/
  e6Over : Bool
deriving DecidableEq, Repr

/-- A run of offsets beyond the glide limit (R329): count, sum. -/
structure OffRun where
  n : Nat
  sum : Int
deriving DecidableEq, Repr

/-- Device time, PTP servo, PPS and reference clocks beyond their registers (R320 to R341). -/
structure Clock where
  /-- The 96-bit DTC: nanoseconds and 32 bits of fraction (R320). -/
  dtc : Nat
  inc : Nat
  doff : Int
  /-- DOFF steps since E0, counted without bound (R314). -/
  moves : Nat
  /-- The instant of the last of them, DTC ns (R314). -/
  movedAt : Int
  integ : Int
  /-- Consecutive offsets within 100 ns, and beyond 1 µs (R328). -/
  inLock : Nat
  outLock : Nat
  run : Option OffRun
  mpds : List Int
  /-- DTC_INC changes while locked: instant in ns and value, newest first (R328, HOLDOVER). -/
  incLog : List (Nat × Nat)
  everLocked : Bool
  foreign : List Announce
  master : Option Announce
  /-- A two-step master's Sync and its ingress time on the DTC; receipt less origin and correction of the last complete
  Sync; the departure of the delay request of the present sequence number (R327, R328). -/
  waitFollow : Option (SyncMsg × Int)
  syncDiff : Int
  dreqAt : Option Int
  /-- Good PPS_IN edges: DTC of the latest, count of consecutive ones; the seconds count has been given (R333). -/
  ppsGood : Option Int
  ppsRun : Nat
  ppsStopped : Bool
  /-- PPS_OUT is high until this DTC instant, and the last whole second marked (R332). -/
  ppsUntil : Int
  ppsMarked : Option Int
  dreqSeq : Nat
deriving DecidableEq, Repr

/-- An open window of a rate-limited source (R541): source, opening instant in DTC ns, first information, count. -/
structure EvtWindow where
  src : Nat
  opened : Int
  info : Nat
  count : Nat
deriving DecidableEq, Repr

/-- A raise not yet written to the ring: source, 64-bit information
(R499, R500), and whether R541 limits it. -/
structure Raise where
  src : Nat
  info : Nat
  limited : Bool
deriving DecidableEq, Repr

/-- The event unit beyond its registers. -/
structure Evt where
  seq : Nat
  /-- Ring indices of the unread records whose source had PIN at 1 (R501). -/
  pinned : List Nat
  windows : List EvtWindow
  raises : List Raise
deriving DecidableEq, Repr

/-- How to undo a live write or a change of dim level: the register's word, or the capacity dim levels, as they stood. -/
inductive Undo where
  | reg (a : Nat) (old : Word)
  | dims (old : List Nat)
deriving DecidableEq, Repr

/-- The fabric: the words each master has latched (R10, R324, R458), its held lower half of each pair (R10), and what undoes the
changes of the last 100 ms that enter decision records, each with its instant (DTC ns), newest first (R171). -/
structure Bus where
  latches : List (Nat × Nat × Word)
  held : List (Nat × Nat × Word)
  undo : List (Nat × Undo)
deriving DecidableEq, Repr

def Emg.reset : Emg where
  resetN := false
  started := false
  rails := List.replicate 8 false
  tests := List.replicate 8 .waiting
  links := List.replicate 12 true
  i2cUp := false
  mgmtUp := false
  imageLoaded := false
  running := none
  rollbackCommit := false
  flashLive := false
  resetLive := false
  livePerms := []
  operatingKey := []
  laneUpMs := 0
  restoreMs := 0
  hasTwin := false
  slateSection := []
  logPort := 0
  logNext := 0
  journalTimes := []
  logQueue := []
  summary := none
  session := none
  booted := false
  e6Over := false

def Clock.reset : Clock where
  dtc := 0
  inc := 27487790694
  doff := 0
  moves := 0
  movedAt := 0
  integ := 0
  inLock := 0
  outLock := 0
  run := none
  mpds := []
  incLog := []
  everLocked := false
  foreign := []
  master := none
  waitFollow := none
  syncDiff := 0
  dreqAt := none
  ppsGood := none
  ppsRun := 0
  ppsStopped := false
  ppsUntil := 0
  ppsMarked := none
  dreqSeq := 0

/-- Role of a unit in its pair (R342). `unpaired` also stands for a unit whose role is not yet decided (R48). -/
inductive Role where
  | unpaired | holder | standby | alone
deriving DecidableEq, Repr

/-- Twin operation beyond its registers (R342 to R381). Path 0 is the Lantern link, 1 the wick lines, 2 the beacons. -/
structure Twin where
  role : Role
  /-- Holder-designate; joins a holding partner by snapshot (R48, R369). -/
  designate : Bool
  joins : Bool
  /-- The stream gates serve (R306). -/
  gatesOpen : Bool
  /-- Last renewal and last valid word received on each path, in DTC ns; SEQ of the last word (R353). -/
  renewAt : List (Option Int)
  validAt : List (Option Int)
  lastSeq : List (Option Nat)
  beaconTx : Nat
  /-- SEQ of the last flame set and of the last wick word sent (R350, R351). -/
  seqTx : Nat
  wickTx : Nat
  /-- STATUS bits of the partner's STANDBY words (R350). -/
  partnerStatus : Nat
  /-- A planned handover is under way (R366), and the last one for a departure (R413). -/
  handover : Bool
  /-- Dies to be retired, with their reasons, once the handover under way has drained (R413). -/
  after : List (Nat × Nat)
  departHandAt : Option Int
  /-- Hold-off start; after it, the channels whose refresh is awaited, each with the item it may start at; READY (R369). -/
  holdoffFrom : Option Int
  refreshFrom : Option (List (Nat × Nat))
  ready : Bool
  /-- The partner's dim reports: channel, level, level before, instant of receipt (R376). -/
  partnerDims : List (Nat × Nat × Nat × Int)
  ownDims : List (Nat × Nat)
  /-- The replay store, oldest first, and the last cursor received for each flow (R357, R358). -/
  replay : List QFrame
  cursors : List (Nat × Nat)
  /-- Own cursors: flow, cursor, samples since it last advanced (R358). -/
  ownCursors : List (Nat × Nat × Nat)
  /-- The pair key of the twin section (R352). -/
  pairKey : List Byte
  /-- Island seconds count sent or taken (R333). -/
  island : Bool
deriving DecidableEq, Repr

def Twin.reset : Twin where
  role := .unpaired
  designate := false
  joins := false
  gatesOpen := false
  renewAt := [none, none, none]
  validAt := [none, none, none]
  lastSeq := [none, none, none]
  beaconTx := 0
  seqTx := 0
  wickTx := 0
  partnerStatus := 0
  handover := false
  after := []
  departHandAt := none
  holdoffFrom := none
  refreshFrom := none
  ready := false
  partnerDims := []
  ownDims := []
  replay := []
  cursors := []
  ownCursors := []
  pairKey := []
  island := false

/-- A Lantern frame kept until an ACK covers it, with the instant of its EOF (R398). -/
structure Unacked where
  frame : LFrame
  sentAt : Int
deriving DecidableEq, Repr

/-- The Lantern link beyond its registers (R389 to R400). -/
structure Lantern where
  /-- LSEQ of the next new frame, the last LSEQ accepted, the partner's latest RX_LANES. -/
  txSeq : Nat
  rxSeq : Nat
  partnerRx : Nat
  unacked : List Unacked
  queue : List LBody
  /-- Fill of each lane's elastic buffer from its centre, in code groups (R395); the link is up (R400). -/
  elastic : List Int
  up : Bool
  /-- The link has been up since reset; the standby waits for the live register image (R375). -/
  everUp : Bool
  imageDue : Bool
  /-- Consecutive 1 ms intervals with an uncorrectable codeword, by sub-port 4 p + s (R388). -/
  fecRun : List Nat
  /-- Instants: a lane, as 10 × die + slot, locked and became GOOD last (R388, R399); the end of a sub-port's last interval with an
  uncorrectable codeword (R388); the start of the last SKIP set sent (R394). -/
  lockAt : List (Nat × Int)
  goodAt : List (Nat × Int)
  fecBadAt : List (Nat × Int)
  skipAt : Option Int
deriving DecidableEq, Repr

def Lantern.reset : Lantern where
  txSeq := 1
  rxSeq := 0
  partnerRx := 0
  unacked := []
  queue := []
  elastic := List.replicate 8 0
  up := false
  everUp := false
  imageDue := false
  fecRun := List.replicate 32 0
  lockAt := []
  goodAt := []
  fecBadAt := []
  skipAt := none

/-- Safety state beyond the registers (R415 to R420): instants of the last lockstep mismatch of each pair
(2 × die + pair) and the pairs held in restart, and the instant of the snuff in force (R410). -/
structure Safety where
  lockstepAt : List (Nat × Int)
  held : List Nat
  snuffAt : Option Int
deriving DecidableEq, Repr

/-- A completion that the scheduler's share on one die reports to that on another (R260): channel, item, band and stage. -/
structure Note where
  chan : Nat
  idx : Nat
  band : Nat
  stage : Nat
deriving DecidableEq, Repr

/-- A transaction on a die link (R21, R22): sequence number, source and destination die, the link direction (3 × die +
dimension) it is on, and the dimensions it still has to cross after that link; it carries ingest payload (R270), or a completion. -/
structure LinkTx where
  seq : Nat
  src : Nat
  dst : Nat
  link : Nat
  rest : List Nat
  ingest : Bool
  note : Option Note
  /-- The control-fabric master that issued it (R489). -/
  master : Option Nat
deriving DecidableEq, Repr

/-- Die links: transactions in flight, oldest first, those waiting at the bound of 512, the next number, and the numbers that
their destination has accepted while another copy is still under way. -/
structure Links where
  next : Nat
  flight : List LinkTx
  waiting : List LinkTx
  accepted : List Nat
  /-- Issues of each die's masters that waited at the bound of 64 transactions (R271, R495). -/
  waits : List Nat
deriving DecidableEq, Repr

/-- A Beacon subscription (R510): number, kind (1 events, 2 telemetry, 3 trace), parameters, subscriber, whether its key
is the recovery key, last renewal, next notification number, own cursor, entries overwritten before they were sent. -/
structure Sub where
  num : Nat
  kind : Nat
  params : List Nat
  dst : Nat
  port : Option Nat
  recovery : Bool
  renewed : Int
  seq : Nat
  cursor : Nat
  lost : Nat
deriving DecidableEq, Repr

/-- The management block beyond its registers: highest SEQ accepted under each key (R506), subscriptions, and the I²C
target's pointer and window copies (R512). -/
structure Mgt where
  seqOp : Nat
  seqRec : Nat
  subs : List Sub
  /-- I²C: pointer, the refreshed copy of the window, and whether a transfer is under way. -/
  i2cPtr : Nat
  i2cCopy : List Byte
  i2cBusy : Bool
  /-- The JTAG instruction in force: 0 none since reset, 1 IDCODE, 2 boundary scan, 3 one that does not drive TDO (R61, R536). -/
  jtag : Nat
deriving DecidableEq, Repr

/-- Progress of a channel's snapshot resynchronisation (R369 to R373), on the joining unit or on the holder. -/
inductive Snap where
  | none
  /-- Joining unit: requested; the request has been sent where `sent`. -/
  | requested (sent : Bool)
  /-- Joining unit: references arrived, the decoder catches up. -/
  | catching
  /-- Joining unit: the join item is known; the flow has not joined yet. -/
  | joining (item : Nat)
  | joined
  /-- Holder: asked for, starts at the next picture boundary. -/
  | asked
  /-- Holder: references pinned at item S and being sent. -/
  | sending (item : Nat)
  /-- Holder: the partner has named its join item. -/
  | sent (item : Nat)
deriving DecidableEq, Repr

/-- One part of a channel on a die (R86): exclusive clusters, the shared cluster, the cost it carries (0.01 taper), its
whether that is half of a split channel's, its buffers, pool bytes and descriptor reserve. -/
structure PartPlace where
  die : Nat
  excl : List Nat
  shared : Option Nat
  cost : Nat
  half : Bool
  bufs : Nat
  pool : Nat
  reserve : Nat
deriving DecidableEq, Repr

/-- Placement of a channel: its parts, and whether both stand on one die (R88, R190). -/
structure Placement where
  parts : List PartPlace
  oneDie : Bool
deriving DecidableEq, Repr

/-- What a picture buffer may hold (R217). -/
inductive BufKind where
  | input | source | recon
deriving DecidableEq, Repr

/-- Marks of a picture buffer (R223). -/
inductive Mark where
  | free | input | lookahead | coding | refShort | refLong | outputHold | snapshot
deriving DecidableEq, Repr

/-- A picture buffer and its header (R219): part, number, kind, mark, the items that hold it (one, or several sharing it
under R225), poisoned (R231), and the CTU CRCs of its reconstruction. A slate's buffer is held by no item. -/
structure Buf where
  part : Nat
  no : Nat
  kind : BufKind
  mark : Mark
  items : List Nat
  poisoned : Bool
deriving DecidableEq, Repr

/-- Form in which an item leaves (R77, R163). -/
inductive Form where
  | coded | repeated | slate
deriving DecidableEq, Repr

/-- How an item is refreshed (R181 to R185): not, as IDR_N_LP, as CRA, as the first picture of a sweep, or as an
all-intra GDR picture. -/
inductive Refresh where
  | none | idr | cra | gdr | allIntra
deriving DecidableEq, Repr

/-- A band of an item (R157, R160): the stages completed (0 none, k + 1 when stage k is complete), its band entry and
whether this unit fixed it itself, and what the engines found. -/
structure Band where
  done : Nat
  entry : Option BandEntry
  own : Bool
  readyAt : Int
  /-- Complexity C of the band and its mean 8×8 activity (R196, R198). -/
  cost : Nat
  act : Nat
  qp : Int
  /-- Sum of the SQI of the band's CTUs, and that of its part up to this band as stage 5 of the band left it (R193, R195). -/
  sqi : Nat
  sqiSum : Nat
  /-- Coded size in bits, whether it is an ember band, whether that came from substitution, and whether a memory or die
  fault forced it (R208, R214, R231). -/
  size : Nat
  ember : Bool
  subst : Bool
  forced : Bool
  /-- Checked by form because its buffers are lost (R232, R240). -/
  form : Bool
  /-- Output digest of this unit, and the partner's (R298, R346). -/
  digest : Option Nat
  partner : Option Nat
  late : Bool
  /-- Its deadline has passed while this unit waits for the holder's entry (R119). -/
  due : Bool
  /-- Counted as an ember band (R214). -/
  counted : Bool
  /-- Output buffers that the band has had sealed before (R239). -/
  outGen : Nat
deriving DecidableEq, Repr

/-- An item of a channel from its control step until it has left (R113, R170). -/
structure Item where
  idx : Nat
  /-- Boundary B_k as PTP-visible time in ns, and the DOFF of the channel time base it belongs to (R279). -/
  bnd : Int
  doff : Int
  dr : DecisionRecord
  controlFixed : Bool
  inputFixed : Bool
  /-- A step was fixed by this unit although a holder's part was due (R344). -/
  own : Bool
  form : Form
  /-- The slot has taken a picture (R114), and what of the input picture has arrived: (line, first, end) runs. -/
  accepted : Bool
  got : List (Nat × Nat × Nat)
  /-- Preparation: 0 not begun, 1 begun, 2 complete (R120). -/
  prep : Nat
  bands : List Band
  refresh : Option Refresh
  /-- Position in a running sweep and its length (R182); length 0 outside one. -/
  sweep : Nat
  sweepLen : Nat
  /-- References, fixed with the refresh decision (R226); the hold picture that its lists keep, and whether it is active (R228). -/
  refs : List Nat
  kept : Option Nat
  holdOn : Bool
  /-- Inter shares of R186: blocks with the smaller match SAD and all blocks, of bands so far, against j − 1 and
  against j − 2; and the refresh state before the item's decision (last refresh, last IRAP item, sweep). -/
  share : Option (Nat × Nat)
  share2 : Option (Nat × Nat)
  prior : Option (Option (Nat × Nat) × Option Nat × Option (Nat × Nat))
  /-- Rate control of the item (R196 to R208): overhead, limit, picture QP, and per part whether its budget
  is spent. -/
  overhead : Nat
  lim : Option Nat
  qpPic : Int
  out : List Bool
  budgetBand : Option Nat
  closed : Bool
  bits : Nat
  sqi : Nat
  redispatched : Bool
  concealed : Bool
  /-- Ember record written (R214). -/
  noted : Bool
  /-- Causes of the failure records written for it: one record for each (R423). -/
  causes : List Nat
  /-- Ended by R94: never released. -/
  abandoned : Bool
  /-- HRD rate of the item (R203, R280); the audio PES of each audio PID, once the multiplexer has read them (R289). -/
  rh : Nat
  audio : Option (List (Nat × List Byte))
  /-- Instant its last datagram left, or would have left (R284), on the DTC. -/
  left : Option Int
  /-- Departure judged at E_k + 1 ms (R416). -/
  judged : Bool
  /-- Input digests of its parts, own and the partner's; mux digests (R345, R346). -/
  inDigest : List (Option Nat)
  inPartner : List (Option Nat)
  mux : Option Nat
  muxPartner : Option Nat
  /-- Compared for confirmation (R346). -/
  compared : Bool
  captions : List Byte
  afd : List Byte
  accAt : Int
  /-- P of the accepted picture, on the DTC (R112). -/
  pAt : Option Int
  /-- A repeat item coded as a refresh, from the repeated picture (R185). -/
  refreshed : Bool
  /-- Effort whose tools the parameter sets of its stream enable (R177), and the QP of the mean band of the item before (R197). -/
  tools : Nat
  prevQp : Int
deriving DecidableEq, Repr

/-- One path of a context (R111): up, and its last datagram. -/
structure PathSt where
  up : Bool
  last : Option Int
deriving DecidableEq, Repr

/-- A splice command that sections announce (R291): event, kind (1 to 5, 6 time signal), the slot that carried it and the item
that it falls on, as indices of the context whose input brought it, the slot from which a cancel or an ANC command ends it, its
body, and whether it came by the ANC flow. -/
structure SpliceSection where
  event : Nat
  kind : Nat
  carry : Nat
  item : Nat
  stop : Option Nat
  body : List Byte
  anc : Bool
deriving DecidableEq, Repr

/-- A pending splice command (R126): its event, kind (1 to 5, 6 time signal), the slot that carried it, the item it
falls on, its body, and whether it came by the ANC flow. -/
structure Splice where
  id : Nat
  kind : Nat
  carry : Nat
  item : Nat
  body : List Byte
  anc : Bool
deriving DecidableEq, Repr

/-- A channel behind its context registers. -/
structure Chan where
  place : Option Placement
  /-- Consecutive items that satisfied R346. -/
  confirmRun : Nat
  snap : Snap
  /-- The newest 64 failure records, newest first (R78, R423). -/
  records : List (List Byte)
  pool : List Buf
  /-- The pictures that its buffers and items hold. -/
  pics : List PicSt
  /-- On a joining unit: the last item that its decoder has completed, and the join item (R371); and the join item while
  its join state has not arrived (R370). -/
  catchTo : Option (Nat × Nat)
  await : Option Nat
  /-- References received and not yet checked; the holder's analysis records (R370, R371). -/
  copied : List RefCopy
  given : List AnalysisCopy
  /-- Items from their control step until they have left, oldest first. -/
  items : List Item
  /-- Index of the item whose control step comes next (R172). -/
  next : Nat
  /-- Grid number of item 0 on the grid in force, and the DOFF of the channel time base (R279, R330). -/
  anchor : Int
  doff : Int
  /-- A DOFF step waits for the next control step (R330). -/
  reanchor : Bool
  /-- The next item starts a stream (R82), with its cause 1; a takeover without confirmation marks the next (R362). -/
  starts : Bool
  takeover : Bool
  /-- ADMITTED at the refresh that started the stream (R177). -/
  tools : Nat
  paths : List PathSt
  /-- Skew sum and count over the two latest pictures, newest first (R111): timestamp, sum, count; and the copies waiting for
  their partner: path, sequence number, timestamp, arrival. -/
  skew : List (Nat × Int × Nat)
  arrivals : List (Nat × Nat × Nat × Int)
  /-- TS flow (R110): the next sequence number due, the later datagrams held, with their TS packets, and the demultiplexer. -/
  nextSeq : Option Nat
  held : List (Nat × List (List Byte))
  demux : Demux
  /-- Absence start of the run under way, on the DTC (R115), and whether the run has reached slates. -/
  absent : Option Int
  slating : Bool
  splices : List Splice
  rc : RateCtl
  /-- Lookahead control (R269): L, calm, the allocation waits that have ended, from and to, and the instant F of the last control
  step. -/
  la : Nat
  calm : Nat
  presses : List (Int × Int)
  laFrom : Int
  /-- Last refresh start with its record's PERIOD (R97), the last IRAP item, the sweep begun last, and a refresh that a skipped
  item left to the next (R181, R230). -/
  lastRefresh : Option (Nat × Nat)
  lastIrap : Option Nat
  sweepFrom : Option (Nat × Nat)
  owed : Option Refresh
  decided : Nat
  /-- Hold picture (R228): its item, and how many accepted items since the run ended; and the first item of an absence run. -/
  hold : Option (Nat × Nat)
  run : Option Nat
  /-- Timestamps of pictures refused (R114) and accepted (R109), of the last half turn of the 32-bit count. -/
  refused : List Nat
  taken : List Nat
  lastAccepted : Option Nat
  /-- SQI means: sums over the last round(f) items (R215), newest first, and the alarm. -/
  sqis : List Nat
  alarm : Bool
  /-- Holder's parts received before their step (R343): index, input step, record. -/
  parts : List (Nat × Bool × DecisionRecord)
  entries : List BandEntry
  gaps : List GapEntry
  bodies : List (Nat × Nat × List Byte)
  /-- Contribution decoding (R245): pictures under way, the count of pictures, and the offset of the PTS mapping. -/
  dec : List DecPic
  decNext : Nat
  /-- Its DPB, in decoding order; the substitute of each missing picture that the picture under way names (R250). -/
  dpb : List DpbPic
  subs : List (Int × Pic)
  /-- The latest PCR of the program and its arrival on the DTC (R112), and the last PTS (R247). -/
  pcr : Option (Nat × Int)
  lastPts : Option Nat
  tsOffset : Option Int
  errsAt : List (Nat × Int)
  /-- Items whose pictures the decoder has dropped while they are prepared (R223). -/
  dropped : List Nat
  /-- Live ENABLE = 0 waits for the last accepted picture (R80); enabled by the host since the last re-planning (R95). -/
  disabling : Bool
  shedding : Option Nat
  /-- Capacity counts as free although begun items still run (R92, R94); channels whose end this one waits for. -/
  freed : Bool
  waitFor : List Nat
  /-- A placement made while begun items still run on the old one (R94, R95); it becomes `place` when they have gone. -/
  later : Option Placement
  /-- Cause of the next entry to PRIMING (1, 10 or 14). -/
  cause : Nat
  /-- The latest item for which a degrading condition was fixed: only a later one ends DEGRADED (R80). -/
  worst : Option Nat
  /-- Last accepted picture, kept for line repair (R118). -/
  repairFrom : Option Nat
  /-- Stream assembly (R280 to R291), the splice commands its sections announce, and on a joining unit the items before the
  join item that come by the catch-up stream (R372). -/
  mux : MuxState
  sections : List SpliceSection
  caught : List Item
deriving DecidableEq, Repr

def RateCtl.reset : RateCtl := ⟨0, 0, 0, 0, 0, 0, [], none⟩

def Chan.reset : Chan where
  place := none
  confirmRun := 0
  snap := .none
  records := []
  pool := []
  pics := []
  catchTo := none
  await := none
  copied := []
  given := []
  items := []
  next := 0
  anchor := 0
  doff := 0
  reanchor := false
  starts := false
  takeover := false
  tools := 0
  paths := [⟨false, none⟩, ⟨false, none⟩]
  skew := []
  arrivals := []
  nextSeq := none
  held := []
  demux := Demux.reset
  absent := none
  slating := false
  splices := []
  rc := RateCtl.reset
  la := 0
  calm := 0
  presses := []
  laFrom := 0
  lastRefresh := none
  lastIrap := none
  sweepFrom := none
  owed := none
  decided := 0
  hold := none
  run := none
  refused := []
  taken := []
  lastAccepted := none
  sqis := []
  alarm := false
  parts := []
  entries := []
  gaps := []
  bodies := []
  dec := []
  decNext := 0
  dpb := []
  subs := []
  pcr := none
  lastPts := none
  tsOffset := none
  errsAt := []
  dropped := []
  disabling := false
  shedding := none
  freed := false
  waitFor := []
  later := none
  cause := 1
  worst := none
  repairFrom := none
  mux := MuxState.reset
  sections := []
  caught := []

/-- The capacity planner beyond its registers: the capacity dim level of each die (R91), channels enabled by the host
since the last re-planning (R95), whether measured capacities have been set, and whether E8 has admitted (R89). -/
structure Planner where
  dims : List Nat
  offered : List Nat
  admitted : Bool
deriving DecidableEq, Repr

/-- States of a descriptor (R259); a FREE one is not listed. -/
inductive DescState where
  | waiting | ready | taken
deriving DecidableEq, Repr

/-- A descriptor that is not FREE (R259): die and local index, channel, item, band and stage of its queue ID, and its
fields. WAIT is the number of conditions of R160, R161 and R237 not yet met. REPEAT, FORM_CHECK and the buffer numbers are those of its
item, band and pool (`State.descBytes`). -/
structure Desc where
  die : Nat
  no : Nat
  chan : Nat
  idx : Nat
  band : Nat
  stage : Nat
  st : DescState
  wait : Nat
  part : Nat
  redisp : Bool
  ember : Bool
  attempt : Nat
  engine : Nat
  tReady : Nat
  tTake : Nat
  decode : Bool
deriving DecidableEq, Repr

/-- An engine that is not idle (R263, R266): holding a piece, waiting for one, each with the instant since when, under reset, or failed. -/
inductive EngSt where
  | holds (die no : Nat) (since : Nat)
  | waits (since : Nat)
  | resets
  | failed
deriving DecidableEq, Repr

/-- An allocation that waits at stage 0 (R269): channel, item and band, or contribution picture and piece (`decode`), 1 for a descriptor
or 2 for a slot, the die whose share makes it, and since when. -/
structure AllocWait where
  chan : Nat
  idx : Nat
  band : Nat
  why : Nat
  decode : Bool
  die : Nat
  since : Int
deriving DecidableEq, Repr

/-- The scheduler: descriptors in use, engines that are not idle, allocations that wait, the instants of engine faults (R268), and the
number of trace entries of each die. -/
structure Sched where
  descs : List Desc
  engines : List (Nat × EngSt)
  waits : List AllocWait
  faults : List (Nat × Int)
  traceSeq : List Nat
  /-- Fill of each engine's fraction of a microsecond of busy time, in ns. -/
  busyNs : List (Nat × Nat)
  /-- Lowest number of FREE descriptors of each die since reset (R274). -/
  lowFree : List Nat
  /-- Dies whose shared pool is empty (R271). -/
  dry : List Nat
  /-- Trace staging of each die (R271, R273): the instant of its latest entry, and how many it has taken at that instant. -/
  staged : List (Int × Nat)
deriving DecidableEq, Repr

def Sched.reset : Sched := ⟨[], [], [], [], List.replicate 8 0, [], List.replicate 8 32768, [], List.replicate 8 (0, 0)⟩

/-- The policer bucket of a flow-table entry on a port (R107): entry, port, fill in units of 1/8000 byte, and when. -/
structure Bucket where
  entry : Nat
  port : Nat
  fill : Nat
  at_ : Int
deriving DecidableEq, Repr

/-- Policer buckets that are not full (R107), ICMP echo requests answered in the current second on each port (R101). -/
structure Ingest where
  buckets : List Bucket
  echoes : List (Int × Nat)
  /-- Sequence numbers taken: flow, extended number, instant (R110). -/
  seen : List (Nat × Nat × Int)
  /-- What each die's copy of the flow table has counted (R103, R106): address of the counter, die and count. -/
  copies : List (Nat × Nat × Nat)
  /-- Groups joined: network port, IPv6, and each group's address and source words (R101). -/
  joined : List ((Nat × Bool) × List (List Nat))
deriving DecidableEq, Repr

def Ingest.reset : Ingest := ⟨[], List.replicate 8 (0, 0), [], [], []⟩

/-- A reader of an audio buffer (R136): 16 × port + slot, 256 + 8 × channel + PID for a multiplexer, 1024 + flow for an
ST 2110-30 egress flow; its read index as a count of samples, whether it has started, the last word
it read, and whether its buffer has restarted on another die since (R134). -/
structure AReader where
  id : Nat
  idx : Nat
  started : Bool
  last : Word
  moved : Bool
deriving DecidableEq, Repr

/-- An audio channel buffer (R133 to R139): samples written, the newest 8,192 words (newest first), the instant of the
newest sample (ns), its readers, and its counters. -/
structure ABuf where
  wr : Nat
  words : List Word
  stamp : Int
  rds : List AReader
  under : Nat
  overs : Nat
  underAt : Option Int
  overAt : Option Int
  /-- The transcode context whose ST 302M PID writes it. -/
  from302 : Option Nat
deriving DecidableEq, Repr

def ABuf.reset : ABuf := ⟨0, [], 0, [], 0, 0, none, none, none⟩

/-- Progress of a serial audio port (R145). -/
inductive APhase where
  | stopped | pre | data | post
deriving DecidableEq, Repr

/-- A serial audio port (R140 to R146, R151): phase, frames left of a roll, the slot mask in force and those staged with the
instants of their writes, frames since the last Z preamble received (or since the last Z in the words sent), the AES3
receiver's last good words and the channel-status bits of its block, the transmitter's frame in its block and the channel
status in force there, a silent restart is due, and the instant at which the port stopped for one; the number of the latest sync of
the synthesised grid taken or the instant of the last WCLK_IN edge, whether the next edge of a 96 kHz WCLK_IN is passed over (R147), and whether the port of a unit that
has taken the flame waits for its first sync (R153). -/
structure APort where
  phase : APhase
  left : Nat
  mask : Nat
  staged : List (Nat × Int)
  zGap : Option Nat
  lastGood : List Word
  csBits : List (List Bool)
  frame : Nat
  csTx : List Byte
  restart : Bool
  stopAt : Option Int
  grid : Option Int
  skip : Bool
  waits : Bool
deriving DecidableEq, Repr

def APort.reset : APort := ⟨.stopped, 0, 0, [], none, [0, 0], [[], []], 0, [], false, none, none, false, false⟩

/-- Serial audio: the buffers that are not empty, the ports, and the word clock on WCLK_IN (R147 to R150): flywheel running,
fallen back to synthesis, or lost until it is qualified. -/
structure Audio where
  bufs : List (Nat × ABuf)
  ports : List APort
  flywheel : Bool
  fallback : Bool
  lost : Bool
deriving DecidableEq, Repr

def Audio.reset : Audio := ⟨[], List.replicate 16 APort.reset, false, false, false⟩

/-- A receiver's calibration (R451 to R459). The parameters of a lane are CTLE, phase, DFE taps 1 to 8, THR_L, THR_M, THR_H;
those of a memory channel RD_DELAY, WR_DELAY, THR_HI, THR_LO of each DQ, then the WCK alignment. -/
structure Recv where
  /-- Training has set the parameters (R451); the values in force. -/
  on : Bool
  force : List Int
  /-- Staged values (R454), and those in force when the lane was last GOOD (R455). -/
  shadow : Option (List Int)
  good : List Int
  /-- Adaptation cycles, and the CTLE trial (R453): value and FOM before it, whether it has been committed; the next trial
  goes up; a commit fell into the cycle under way. -/
  cycles : Nat
  trial : Option (Int × Nat × Bool)
  up : Bool
  spans : Bool
  /-- Parameters whose last step was refused at a range edge (R451). -/
  clamped : List Nat
  /-- The holding copy (word, value), and an accepted copy not yet verified (R459). -/
  held : List (Nat × Nat)
  accepted : Option (List Int)
deriving DecidableEq, Repr

/-- Calibration: receivers that are not as they are at reset (10 × die + lane slot; 80 + 8 × die + 4 × controller + channel for a
memory channel), the temperature corrections of their references, in force and staged (R469), and the calibration-seeds
section. -/
structure Calib where
  recvs : List (Nat × Recv)
  refs : List (Nat × Int × Option Int)
  seeds : Option (List Byte)
deriving DecidableEq, Repr

def Calib.reset : Calib := ⟨[], [], none⟩

/-- A request at a memory controller (R433): port, byte address on the die, length, data of a write; when it was accepted
(ns); and for a read what queued writes already hold of it (R436). -/
structure MReq where
  port : Nat
  write : Bool
  scrub : Bool
  addr : Nat
  len : Nat
  data : List Byte
  at_ : Nat
  fwd : List (Nat × Byte)
deriving DecidableEq, Repr

/-- A memory channel (R428 to R448): its bytes (unlisted ones are 0 after the fill of R441), its poisoned blocks, the access
under way, corrected errors and CRC retries of late (instant, count), uncorrectable errors of late, temperature and instant of the last
training, slices made in a running retraining with the DQs that passed in each, a retraining found a setting not yet in
force, and a trigger that waits for the end of self-refresh. -/
structure MChan where
  mem : List (Nat × Byte)
  poison : List Nat
  cur : Option MReq
  errs : List (Int × Nat)
  ues : List Int
  trainTemp : Int
  trainAt : Int
  passes : List Nat
  found : Bool
  later : Bool
deriving DecidableEq, Repr

def MChan.reset : MChan := ⟨[], [], none, [], [], 0, 0, [], false, false⟩

/-- Progress of a controller (R440, R441). -/
inductive MPhase where
  | off | training | filling | ready
deriving DecidableEq, Repr

/-- A memory controller: progress, the channels a fill writes, reads and writes accepted and requests that wait at a port,
oldest first, a write drain (R435), the channel whose slice runs and the one whose turn was last (R443). -/
structure MCtl where
  phase : MPhase
  fill : List Nat
  reads : List MReq
  writes : List MReq
  waits : List MReq
  drain : Bool
  slicing : Option Nat
  turn : Nat
  /-- When its latest slice started (R443); the scrub pass runs for which the die left self-refresh (R438). -/
  sliceAt : Option Int
  pass : Bool
  /-- The last word read for each port, with its poison (the model's own record of what a reader got). -/
  last : List (Nat × List Byte × Bool)
deriving DecidableEq, Repr

def MCtl.reset : MCtl := ⟨.off, [], [], [], [], false, none, 3, none, false, []⟩

/-- Self-refresh of a die's memory (R438): the last instant at which a port but M7 had a request, since when it is in self-refresh,
and the time spent in it since the last scrub pass, before that. -/
structure MDie where
  busyAt : Int
  srAt : Option Int
  srTime : Int
deriving DecidableEq, Repr

def MDie.reset : MDie := ⟨0, none, 0⟩

/-- Picture memory: controllers (2 × die + controller) and channels (8 × die + 4 × controller + channel), and the dies' idle and
self-refresh times. -/
structure PicMem where
  ctls : List MCtl
  chans : List MChan
  dies : List MDie
deriving DecidableEq, Repr

def PicMem.reset : PicMem := ⟨List.replicate 16 MCtl.reset, List.replicate 64 MChan.reset, List.replicate 8 MDie.reset⟩

/-- A die's thermal state (R463 to R467): sampled since reset and since the last daily planning, levels held, the sensor that
decided, grace running, dim time of the day in ns and since when the dim level stands above D0. -/
structure Therm where
  seen : Bool
  today : Bool
  warn : Bool
  throt : Bool
  shut : Bool
  sensor : Nat
  /-- Instant of the next rise of the thermal dim level in the throttle state, and the instant from which the next 2 s below
  the clear level count (R465). -/
  riseAt : Option Int
  below : Option Int
  dimNs : Nat
  dimFrom : Option Int
  /-- Temperature corrections of the pilot's trim and of the bandgap references (R469). -/
  pilot : Int
  bandgap : Int
deriving DecidableEq, Repr

/-- Core voltage of a die (R473 to R476): no AVS until the next emergence, setpoint before an unconfirmed step with the instant
of its write once that has been made, instant of the last confirmation, a measurement since the last step, no further step
until the next daily planning, the SI_MIN that raises aim at (outside a daily planning), one raise step due, raises held back
by the throttle state: those to the target and a single one. -/
structure Avs where
  lost : Bool
  step : Option (Nat × Option Int)
  confirmed : Option Int
  measured : Bool
  stopped : Bool
  raiseTo : Option Nat
  once : Bool
  deferred : Bool
  heldOnce : Bool
  need : Nat
  days : Nat
deriving DecidableEq, Repr

/-- Stage of the daily planning of a die (R476): raising, one lowering step due, its measurement due, restoring. -/
inductive PlanStage where
  | raising (made : Bool) | lowering | lowered | restoring
deriving DecidableEq, Repr

/-- Why the device makes a PMBus transfer (R467, R473, R474). -/
inductive PmbWhy where
  | mode | setpoint | back | vout | iout | temp | status | alert | off
deriving DecidableEq, Repr

/-- A PMBus transfer that waits: die, purpose, value written, failed attempts (R473). -/
structure PmbXfer where
  die : Nat
  why : PmbWhy
  value : Nat
  tries : Nat
deriving DecidableEq, Repr

/-- Thermal control, supplies and ageing (R460 to R484). Operating time: hours of the newest ageing record, and the instant at
which the unit became LIVE (R476). -/
structure Plant where
  dies : List Therm
  avs : List Avs
  pmb : List PmbXfer
  daily : Option (Nat × PlanStage)
  baseHours : Nat
  /-- Whole days of operating time already planned (R476). -/
  plannedDays : Nat
  liveFrom : Option Int
deriving DecidableEq, Repr

def Therm.reset : Therm := ⟨false, false, false, false, false, 0, none, none, 0, none, 0, 0⟩
def Avs.reset : Avs := ⟨false, none, none, false, false, none, false, false, false, 1000, 65535⟩
def Plant.reset : Plant := ⟨List.replicate 8 Therm.reset, List.replicate 8 Avs.reset, [], none, 0, 0, none⟩

/-- The whole state: plain data. Registers live in `regs`, keyed by bus address, in one canonical form (strictly
rising, no entry equal to the reset value of its address). -/
structure State where
  /-- Commands waiting, first in, first out. -/
  pending : List Instr
  /-- What has left the block's ports and pins, newest first: the model's own record. -/
  sent : List Sent
  /-- Number of the next free value (the model's own counter). -/
  fresh : Nat
  /-- Number of the next random draw (R60, R507). -/
  draws : Nat
  /-- Every register that differs from its reset value (R9, R11). -/
  regs : List (Nat × Word)
  /-- The fuses the device blows (R59, R62). -/
  fuses : Fuses
  /-- The flash on port CFGA; an unlisted byte is erased, 0xFF (R52). -/
  flashA : List Host.Cell
  /-- The flash on port CFGB. -/
  flashB : List Host.Cell
  /-- Emergence (R41 to R73). -/
  emg : Emg
  /-- Device time, PTP, PPS and references (R320 to R341). -/
  clk : Clock
  /-- The event unit (R496 to R502, R541). -/
  evt : Evt
  /-- Read latches of R10, R324 and R458, and held halves of R10. -/
  bus : Bus
  /-- Twin operation and the flame (R342 to R381). -/
  twin : Twin
  /-- The Lantern link (R389 to R400). -/
  link : Lantern
  /-- Functional safety (R406 to R426). -/
  saf : Safety
  /-- Transactions on the die links (R22). -/
  links : Links
  /-- Beacon sessions, subscriptions, the I²C target and the JTAG instruction (R504 to R512, R61). -/
  mgt : Mgt
  /-- The capacity planner (R84 to R96). -/
  cap : Planner
  /-- The 96 channel contexts behind their registers. -/
  chans : List Chan
  /-- The scheduler (R255 to R274). -/
  sch : Sched
  /-- Policers and echo limits of the network ports (R101, R107). -/
  ing : Ingest
  /-- Serial audio ports and audio buffers (R130 to R156). -/
  aud : Audio
  /-- Stream assembly and the egress traffic managers (R276 to R319). -/
  egr : Egress
  /-- Calibration of every receiver (R451 to R459). -/
  cal : Calib
  /-- Picture memory and its controllers (R427 to R450). -/
  pic : PicMem
  /-- Thermal control, supplies and ageing (R460 to R484). -/
  plant : Plant
deriving DecidableEq, Repr


/-- The machine right after reset: every register at its reset value (R11), nothing begun (R41). -/
def State.reset : State where
  pending := []
  sent := []
  fresh := 0
  draws := 0
  regs := []
  fuses := ⟨0, false, 0⟩
  flashA := []
  flashB := []
  emg := Emg.reset
  clk := Clock.reset
  evt := ⟨0, [], [], []⟩
  bus := ⟨[], [], []⟩
  twin := Twin.reset
  link := Lantern.reset
  saf := ⟨[], [], none⟩
  links := ⟨0, [], [], [], List.replicate 8 0⟩
  mgt := ⟨0, 0, [], 0, [], false, 0⟩
  cap := ⟨List.replicate 8 0, [], false⟩
  chans := List.replicate 96 Chan.reset
  sch := Sched.reset
  ing := Ingest.reset
  aud := Audio.reset
  egr := Egress.reset
  cal := Calib.reset
  pic := PicMem.reset
  plant := Plant.reset

end Sys2Proof.Machine
end

