-- ==== Sys2Proof/Machine/Ops.lean ====
section
/-! DEFINITION. The named operations over the state: the register file, device time, events, the record of what is
sent. Every meaning is written over these. -/

namespace Sys2Proof.Machine

/-! ## Sparse tables in canonical form -/

/-- The value at `a`, `d a` where nothing is listed. -/
def sparseGet {α : Type} (d : Nat → α) : List (Nat × α) → Nat → α
  | [], a => d a
  | (b, w) :: r, a => if a = b then w else sparseGet d r a

/-- The table without `a`. -/
def sparseErase {α : Type} : List (Nat × α) → Nat → List (Nat × α)
  | [], _ => []
  | (b, w) :: r, a => if b = a then sparseErase r a else (b, w) :: sparseErase r a

/-- The table with `v` at `a` before the first greater address. -/
def sparseInsert {α : Type} : List (Nat × α) → Nat → α → List (Nat × α)
  | [], a, v => [(a, v)]
  | (b, w) :: r, a, v => if a < b then (a, v) :: (b, w) :: r else (b, w) :: sparseInsert r a v

/-- The table with `v` at `a`, in canonical form: strictly rising, nothing listed that equals `d`. -/
def sparseSet {α : Type} [DecidableEq α] (d : Nat → α) (l : List (Nat × α)) (a : Nat) (v : α) : List (Nat × α) :=
  if v = d a then sparseErase l a else sparseInsert (sparseErase l a) a v

/-- The canonical form, as a test. -/
def sparseWf {α : Type} [DecidableEq α] (d : Nat → α) : List (Nat × α) → Bool
  | [] => true
  | (a, v) :: r => decide (v ≠ d a) && r.all (fun e => decide (a < e.1)) && sparseWf d r

/-- Bytes of a flash: an unlisted byte is erased (R52). -/
def erased : Nat → Byte := fun _ => 0xFF

/-- Bytes of a memory channel: an unlisted byte is 0, as the fill of R441 leaves it. -/
def zeroed : Nat → Byte := fun _ => 0

/-- The canonical form of a byte memory whose unlisted bytes read `0xFF`. -/
def Memory.wf (m : List Host.Cell) : Bool := sparseWf erased m

/-- Association lists with natural keys: first match. -/
def assocGet {α : Type} (d : α) (l : List (Nat × α)) (k : Nat) : α :=
  match l.find? (fun e => e.1 == k) with
  | some e => e.2
  | none => d

/-- Replace the entry of `k`, or add one. -/
def assocSet {α : Type} (l : List (Nat × α)) (k : Nat) (v : α) : List (Nat × α) :=
  if l.any (fun e => e.1 == k) then l.map (fun e => if e.1 = k then (k, v) else e) else l ++ [(k, v)]

/-! ## Control of updates -/

/-- Apply `f` where `c` holds. -/
def State.when (s : State) (c : Bool) (f : State → State) : State := if c then f s else s

/-- Apply `f` for each element, in order. -/
def State.each {α : Type} (s : State) (l : List α) (f : α → State → State) : State :=
  l.foldl (fun t x => f x t) s

/-! ## Registers -/

/-- Bits `[hi:lo]` of a word. -/
def fldOf (w : Word) (hi lo : Nat) : Nat := w.toNat / 2 ^ lo % 2 ^ (hi + 1 - lo)

/-- `w` with bits `[hi:lo]` replaced. -/
def fldPut (w : Word) (hi lo v : Nat) : Word :=
  BitVec.ofNat 32 (w.toNat - fldOf w hi lo * 2 ^ lo + v % 2 ^ (hi + 1 - lo) * 2 ^ lo)

/-- The register at `a`. -/
def State.rd (s : State) (a : Nat) : Word := sparseGet resetOf s.regs a

/-- Set the register at `a`: the one place the register file changes. -/
def State.wr (s : State) (a : Nat) (v : Word) : State := { s with regs := sparseSet resetOf s.regs a v }

def State.rdN (s : State) (a : Nat) : Nat := (s.rd a).toNat
def State.wrN (s : State) (a v : Nat) : State := s.wr a (BitVec.ofNat 32 v)
def State.wrI (s : State) (a : Nat) (v : Int) : State := s.wr a (BitVec.ofInt 32 v)

/-- Field `[hi:lo]` of the register at `a`. -/
def State.fld (s : State) (a hi lo : Nat) : Nat := fldOf (s.rd a) hi lo
def State.setFld (s : State) (a hi lo v : Nat) : State := s.wr a (fldPut (s.rd a) hi lo v)
def State.bit (s : State) (a i : Nat) : Bool := decide (s.fld a i i = 1)
def State.setBit (s : State) (a i : Nat) (b : Bool) : State := s.setFld a i i (b2n b)

/-- Add to a counter; counters wrap at 2³² (R502, R511). -/
def State.bump (s : State) (a : Nat) (n : Nat := 1) : State := s.wrN a (s.rdN a + n)

/-- A 64-bit pair, _LO at `a`. -/
def State.rd64 (s : State) (a : Nat) : Nat := s.rdN a + 4294967296 * s.rdN (a + 4)
def State.wr64 (s : State) (a v : Nat) : State := (s.wrN a v).wrN (a + 4) (v / 4294967296)
def State.bump64 (s : State) (a : Nat) (n : Nat := 1) : State := s.wr64 a (s.rd64 a + n)

/-- Keep the larger value. -/
def State.maxN (s : State) (a v : Nat) : State := s.wrN a (max (s.rdN a) v)

/-! ## Phase and pins -/

def State.phase (s : State) : Nat := s.fld Reg.EMG_STATUS 3 0
/-- The unit is LIVE (R73). -/
def State.live (s : State) : Bool := decide (s.phase = 9)
def State.halted (s : State) : Bool := decide (s.phase = 10)
def State.sealed (s : State) : Bool := s.bit Reg.EMG_STATUS 8
def State.snuffed (s : State) : Bool := s.bit Reg.SAF_STATUS 31
/-- Chrysalis state: until the end of E3, and in HALTED (R41, R63). -/
def State.chrysalis (s : State) : Bool := !s.emg.started || decide (s.phase ≤ 3) || s.halted
def State.lead (s : State) : Nat := s.fld Reg.SAF_STATUS 26 24
/-- Die `d` works: passed E1 and not retired (R425). -/
def State.dieOk (s : State) (d : Nat) : Bool := s.bit Reg.SAF_STATUS (16 + d)

/-! ## Device time -/

/-- The correction of the lead die's pilot for its temperature (R469). -/
def State.pilotTrim (s : State) : Int := (s.plant.dies.getD s.lead Therm.reset).pilot

/-- What one tick adds to the DTC (R320, R322). -/
def State.tickInc (s : State) : Nat :=
  if s.chrysalis then Config.pilotIncEarly s.clk.dtc s.pilotTrim
  else if s.fld Reg.REF_STATUS 17 16 = 2 then
    Config.pilotIncScaled s.clk.inc (s.rd Reg.PILOT_FREQ).toInt s.pilotTrim
  else s.clk.inc

/-- `n` ticks of the DTC pass. The count starts at 0 when E0 begins (R320). -/
def State.elapse (s : State) (n : Nat) : State :=
  { s with clk := { s.clk with
      dtc := if s.emg.started then (s.clk.dtc + n * s.tickInc) % 2 ^ 96 else s.clk.dtc } }

/-- The DTC in whole nanoseconds, 64 bits. -/
def State.ns (s : State) : Nat := s.clk.dtc / 4294967296
/-- The DTC as an integer, in ns. -/
def State.now (s : State) : Int := s.ns
/-- Phase time: DTC bits [31:0] (R15). -/
def State.phaseTime (s : State) : Nat := s.ns % 4294967296
/-- PTP-visible time in ns (R323). -/
def State.ptpNow (s : State) : Int := s.ns + s.clk.doff

/-- The timestamp of an event message at a port now, on the DTC: a DTC sample within the accuracy of R327 (R28). -/
def State.portStamp (s : State) : Int := s.ns + clipInt (-4) 4 (Config.ptpError s.fresh)
/-- Microseconds since E0 began (R49). -/
def State.usE0 (s : State) : Nat := s.ns / 1000

/-! ## What leaves the block -/

def State.send (s : State) (x : Sent) : State := { s with sent := x :: s.sent }

/-! ## Free values and draws -/

def State.freshId (s : State) : State := { s with fresh := s.fresh + 1 }

/-- Draw a random value (R60, R507). -/
def State.drawn (s : State) : BitVec 64 := Config.draw s.draws
def State.afterDraw (s : State) : State := { s with draws := s.draws + 1 }

/-! ## Events (R496 to R502, R541) -/

/-- Raise a source with 64 bits of information; written to the ring by `settle`. -/
def State.raise (s : State) (src info : Nat) : State :=
  { s with evt := { s.evt with raises := s.evt.raises ++ [⟨src, info, false⟩] } }

/-- A happening of a rate-limited source (R541). -/
def State.raiseLimited (s : State) (src info : Nat) : State :=
  { s with evt := { s.evt with raises := s.evt.raises ++ [⟨src, info, true⟩] } }

/-- Safety, time and other sources carry the low 32 bits of the DTC in [63:32]. -/
def State.raiseT (s : State) (src info : Nat) : State :=
  s.raise src (info % 4294967296 + 4294967296 * s.phaseTime)

/-- Unread records (R500). -/
def State.unread (s : State) : Nat := (s.rdN Reg.EVT_HEAD + 4096 - s.rdN Reg.EVT_TAIL) % 4096

def State.setPinned (s : State) (l : List Nat) : State :=
  ({ s with evt := { s.evt with pinned := l } }).wrN Reg.EVT_PENDING l.length

/-- An events subscription sends the record with this first word (R510): at or above its severity, or of source 22. -/
def Sub.wants (x : Sub) (w : Nat) : Bool := decide (x.params.getD 0 0 ≤ w / 1024 % 4) || decide (w % 1024 = 22)

/-- The record at ring index `h` is about to be overwritten: an events subscription that has not sent it counts it (R510). -/
def State.noteOverwrite (s : State) (h : Nat) : State :=
  if s.evt.seq < 4096 then s
  else
    let old := s.evt.seq - 4096
    let w := s.rdN (Reg.EVT_RING h 0)
    { s with mgt := { s.mgt with subs := s.mgt.subs.map fun x =>
      (if x.kind = 1 ∧ x.cursor ≤ old then { x with cursor := old + 1, lost := x.lost + b2n (x.wants w) } else x) } }

/-- Write one record (R499, R500, R501). -/
def State.writeRecord (s : State) (src time info : Nat) : State :=
  let h := s.rdN Reg.EVT_HEAD % 4096
  let s := s.noteOverwrite h
  let t := s.rdN Reg.EVT_TAIL % 4096
  let full := decide (s.unread = 4095)
  let pin := s.bit (Reg.EVT_SRC src) 30
  let old := if full then s.evt.pinned.filter (· ≠ t) else s.evt.pinned
  let w0 := s.evt.seq % 65536 * 65536 + levelOf src * 4096 + severityOf src * 1024 + src
  let s := (((s.wrN (Reg.EVT_RING h 0) w0).wrN (Reg.EVT_RING h 1) time).wrN (Reg.EVT_RING h 2) info).wrN
    (Reg.EVT_RING h 3) (info / 4294967296)
  let s := s.wrN Reg.EVT_HEAD ((h + 1) % 4096)
  let s := s.when full fun s => (s.wrN Reg.EVT_TAIL ((t + 1) % 4096)).bump Reg.EVT_LOST
  let s := s.bump (Reg.EVT_COUNT_SEV (severityOf src))
  let s := { s with evt := { s.evt with seq := s.evt.seq + 1 } }
  s.setPinned (if pin then old ++ [h] else old)

/-- Write a record where the source's EN is 1 (R498). -/
def State.recordIfEnabled (s : State) (src time info : Nat) : State :=
  s.when (s.bit (Reg.EVT_SRC src) 31) fun s => s.writeRecord src time info

/-- Information of a closed window of source 1 or 5 (R496, R541). -/
def EvtWindow.record (w : EvtWindow) : Nat :=
  min w.count 4294967295 * 4294967296 + (if w.src = 5 then min w.count 65535 else w.info % 4294967296)

/-- Close the window of source `src`: sources 1 and 5 write their record, with the opening instant (R541). -/
def State.closeWindow (s : State) (src : Nat) : State :=
  match s.evt.windows.find? (fun w => w.src == src) with
  | none => s
  | some w =>
    let s := { s with evt := { s.evt with windows := s.evt.windows.filter (fun w => w.src != src) } }
    s.when (src == 1 || src == 5) fun s => s.recordIfEnabled src (w.opened % 4294967296).toNat w.record

/-- One raise reaches the event unit: COUNT, and the record or the window (R498, R541). -/
def State.takeRaise (s : State) (r : Raise) : State :=
  if sourceAssigned r.src then
    let s := s.setFld (Reg.EVT_SRC r.src) 15 0 (s.fld (Reg.EVT_SRC r.src) 15 0 + 1)
    if r.limited then
      match s.evt.windows.find? (fun w => w.src == r.src) with
      | some w =>
        if (s.ns : Int) < w.opened + 1000000000 then
          { s with evt := { s.evt with windows := s.evt.windows.map fun v =>
              if v.src = r.src then { v with count := v.count + 1 } else v } }
        else
          let s := s.closeWindow r.src
          let s := { s with evt := { s.evt with windows := ⟨r.src, s.ns, r.info, 1⟩ :: s.evt.windows } }
          s.when (r.src != 1 && r.src != 5) fun s => s.recordIfEnabled r.src s.phaseTime r.info
      | none =>
        let s := { s with evt := { s.evt with windows := ⟨r.src, s.ns, r.info, 1⟩ :: s.evt.windows } }
        s.when (r.src != 1 && r.src != 5) fun s => s.recordIfEnabled r.src s.phaseTime r.info
    else s.recordIfEnabled r.src s.phaseTime r.info
  else s

/-- Put a raise in ascending order of source, after its equals (R500). -/
def insertRaise (r : Raise) : List Raise → List Raise
  | [] => [r]
  | x :: xs => if r.src < x.src then r :: x :: xs else x :: insertRaise r xs

/-- The raises of one command carry one DTC sample: they are written in ascending source number (R500). -/
def State.settle (s : State) : State :=
  let rs := s.evt.raises.foldl (fun l r => insertRaise r l) []
  ({ s with evt := { s.evt with raises := [] } }).each rs fun r s => s.takeRaise r

/-- A refused write is counted and raises source 1 (R12). -/
def State.refuse (s : State) (a : Nat) : State := (s.bump Reg.MGT_REFUSED).raiseLimited 1 a

/-- EVT_N is driven low (R501); released in chrysalis state. -/
def State.evtLow (s : State) : Bool :=
  decide (0 < s.evt.pinned.length) && s.bit Reg.EVT_CTRL 0 && !s.chrysalis

/-! ## Emergence phases -/

/-- Enter phase `p`: PHASE, its entry time and source 0 (R47, R49, R496). Where E3 repeats, EMG_T_E3 keeps the entry time of the
latest one; R49 does not say which. DESIGN CHOICE (log 49). -/
def State.enterPhase (s : State) (p : Nat) : State :=
  let s := s.setFld Reg.EMG_STATUS 3 0 p
  let s := s.when (decide (p ≤ 8)) fun s => s.wrN (Reg.EMG_T_E p) s.usE0
  let s := s.when (decide (p = 9)) fun s => s.wrN Reg.EMG_T_LIVE s.usE0
  s.raise 0 p

/-- End a command: settle its events and answer the next state. -/
def done (s : State) : Host.Outcome State Fault Refusal := .next s.settle

end Sys2Proof.Machine
end

