-- ==== Sys2Proof/Machine/Access.lean ====
section
/-! DEFINITION. Which fields a write may set (R11, R12, R64, R65). -/

namespace Sys2Proof.Machine

/-- Bits `[hi:lo]` as a mask. -/
def maskBits (hi lo : Nat) : Nat := (2 ^ (hi + 1 - lo) - 1) * 2 ^ lo

/-- The live-permission mask covers the field, and the configuration is sealed (R11, R64, R65). -/
def State.mayWrite (s : State) (a hi lo : Nat) : Bool :=
  s.sealed && s.emg.livePerms.any fun e => e.1 == a && decide (e.2 &&& maskBits hi lo = maskBits hi lo)

/-- A write may set the field of register `a` to `v`: by its access code, and after sealing by its range (R11, R12). R12
discards a reserved code of a live-permitted field; a reserved code of an RW field (TRC_CTRL.MODE 3 is the one there is) is
taken to lie outside the limit that the field's rule places on writes, and is discarded and refused as well. DESIGN CHOICE
(log 49). -/
def State.fieldTakes (s : State) (a : Nat) (f : Fld) (v : Nat) : Bool :=
  match f.acc with
  | .rw => f.rng.admits f.width v
  | .rwl _ => s.mayWrite a f.hi f.lo && f.rng.admits f.width v
  | _ => false

/-- The word that a write of `v` leaves in a register of the fields `l` holding `old` and reading as `seen`, and whether some
field's write is refused: discarded though its value differs from the present one (R12, R13). -/
def State.judgeWrite (s : State) (a : Nat) (l : List Fld) (old seen v : Word) : Word × Bool :=
  l.foldl (fun (acc : Word × Bool) f =>
    let x := fldOf v f.hi f.lo
    if s.fieldTakes a f x then (fldPut acc.1 f.hi f.lo x, acc.2)
    else (acc.1, acc.2 || (decide (f.acc ≠ .wo) && decide (x ≠ fldOf seen f.hi f.lo)))) (old, false)

end Sys2Proof.Machine
end

