-- ==== Sys2Proof/Machine/Crc.lean ====
section
/-! DEFINITION. The cyclic check of R486, bit by bit as its pseudocode gives it, and the fixed parameter sets of
R487 and R488 that the datapath uses. -/

namespace Sys2Proof.Machine

/-- The parameters of a check: width, polynomial, initial value, reflections, final XOR (R485). -/
structure CrcParams where
  w : Nat
  poly : Nat
  init : Nat
  refin : Bool
  refout : Bool
  xorout : Nat
deriving DecidableEq, Repr

/-- The low `w` bits of `x` in the opposite order (R486, `reflect`). -/
def reflectBits : Nat → Nat → Nat
  | 0, _ => 0
  | w + 1, x => (x % 2) * 2 ^ w + reflectBits w (x / 2)

/-- One bit of the inner loop of R486. -/
def crcBit (p : CrcParams) (x i v : Nat) : Nat :=
  let top := (v / 2 ^ (p.w - 1) + x / 2 ^ i) % 2
  let v' := v * 2 % 2 ^ p.w
  if top = 1 then v' ^^^ p.poly else v'

/-- The loop of R486 over bits `n - 1` down to 0. -/
def crcBits (p : CrcParams) (x : Nat) : Nat → Nat → Nat
  | 0, v => v
  | n + 1, v => crcBits p x n (crcBit p x n v)

/-- `feed(x)` of R486: one byte. A unit of width 0 ignores feeds (R485). -/
def crcFeed (p : CrcParams) (v x : Nat) : Nat :=
  if p.w = 0 then v else crcBits p (if p.refin then reflectBits 8 x else x % 256) 8 v

/-- `result()` of R486; 0 at width 0 (R485). -/
def crcResult (p : CrcParams) (v : Nat) : Nat :=
  if p.w = 0 then 0 else ((if p.refout then reflectBits p.w v else v) ^^^ p.xorout) % 2 ^ p.w

/-- The check of a list of bytes. -/
def crcOf (p : CrcParams) (bs : List Byte) : Nat :=
  crcResult p (bs.foldl (fun v b => crcFeed p v b.toNat) p.init)

/-- CRC-32 of R53. -/
def crc32Params : CrcParams := ⟨32, 0x04C11DB7, 0xFFFFFFFF, true, true, 0xFFFFFFFF⟩
/-- CRC-32C of R104. -/
def crc32cParams : CrcParams := ⟨32, 0x1EDC6F41, 0xFFFFFFFF, true, true, 0xFFFFFFFF⟩
/-- The flame check of R350. -/
def crc8FlameParams : CrcParams := ⟨8, 0x07, 0, false, false, 0⟩
/-- The AES3 channel-status check of R143. -/
def crc8Aes3Params : CrcParams := ⟨8, 0x1D, 0xFF, true, true, 0⟩
/-- The picture-memory row tag of R431. -/
def crc16RowParams : CrcParams := ⟨16, 0x1021, 0xFFFF, false, false, 0⟩
/-- The digests of R298. -/
def crc64Params : CrcParams := ⟨64, 0x42F0E1EBA9EA3693, 0, false, false, 0⟩

def crc32 (bs : List Byte) : Nat := crcOf crc32Params bs
def crc32c (bs : List Byte) : Nat := crcOf crc32cParams bs
def crc64 (bs : List Byte) : Nat := crcOf crc64Params bs
def crc8Flame (bs : List Byte) : Nat := crcOf crc8FlameParams bs

end Sys2Proof.Machine
end

