-- ==== Sys2Proof/Machine/Port.lean ====
section
/-! DEFINITION. Handing frames to the traffic managers of the network ports (R302, R315, R316). -/

namespace Sys2Proof.Machine

/-- State of a sub-port (R388): 0 DISABLED, 1 DOWN, 2 UP, 3 ALARMED. -/
def State.subState (s : State) (p i : Nat) : Nat := s.fld (Reg.NP_STATUS p) (2 * i + 1) (2 * i)

def State.subUp (s : State) (p i : Nat) : Bool := decide (s.subState p i = 2)

/-- Ports with a sub-port in service: state UP (R388). -/
def State.portUp (s : State) (p : Nat) : Bool := (List.range 4).any fun i => s.subUp p i

/-- Frames in the buffers of a port. -/
def State.framesOn (s : State) (p : Nat) : Nat := (s.egr.queue.filter fun f => f.port == p).length

/-- Free frame buffers of a port (R315, R318). -/
def State.bufFree (s : State) (p : Nat) : Nat := 32768 - s.framesOn p

/-- Frames of one class on a port. -/
def State.classOn (s : State) (p c : Nat) : Nat :=
  (s.egr.queue.filter fun f => f.port == p && f.cls == c).length

/-- Put a frame into the buffers of its port. -/
def State.enqueueFrame (s : State) (f : QFrame) : State :=
  let s := { s with egr := { s.egr with queue := s.egr.queue ++ [f] } }
  let free := s.bufFree f.port
  { s with egr := { s.egr with low := s.egr.low.modify f.port fun v => min v free } }

/-- A class that is not for streams has room on a port: its own limit, and a free buffer (R302, R315). -/
def State.classRoom (s : State) (p cls : Nat) : Bool :=
  decide (s.classOn p cls < if cls = 7 then 256 else if cls = 4 then 1024 else 2048) && decide (0 < s.bufFree p)

/-- Hand a frame of TC7, TC4 or TC0 to the traffic manager of a sub-port (R302): out of service it is dropped (R316);
without room a TC4 or TC0 frame is dropped and counted, and the generator of a TC7 frame waits (R315). -/
def State.toSub (s : State) (p i cls len : Nat) (x : Sent) : State :=
  let f : QFrame := ⟨p, i, cls, 0, false, 0, max 64 len, 0, false, false, [], x⟩
  if !s.subUp p i then s.bump (Reg.TMC_DROPPED p i cls)
  else if s.classRoom p cls then s.enqueueFrame f
  else if cls = 7 then { s with egr := { s.egr with waiting := s.egr.waiting ++ [f] } }
  else s.bump (Reg.TMC_DROPPED p i cls)

/-- The oldest TC7 frame whose generator waits on port `p` is handed over once there is room (R315, R316). -/
def State.promoteFrame (s : State) (p : Nat) : State :=
  match s.egr.waiting.find? fun f => f.port == p with
  | none => s
  | some f =>
    if !s.classRoom p 7 then s
    else
      let s := { s with egr := { s.egr with waiting := s.egr.waiting.erase f } }
      if s.subUp f.port f.sub then s.enqueueFrame f else s.bump (Reg.TMC_DROPPED f.port f.sub f.cls)

/-- Hand such a frame to a port: to its first sub-port in service. -/
def State.toPort (s : State) (p cls len : Nat) (x : Sent) : State :=
  s.toSub p (((List.range 4).find? fun i => s.subUp p i).getD 0) cls len x

/-- Length of a UDP frame over IPv4 or IPv6 (R305). -/
def udpLen (v6 : Bool) (payload : Nat) : Nat := 14 + (if v6 then 40 else 20) + 8 + payload + 4

/-! ## The shadow gate list of a port (R311, R318) -/

def State.gate (s : State) (p : Nat) : Gates := s.egr.gates.getD p Gates.reset

def State.modGate (s : State) (p : Nat) (f : Gates → Gates) : State :=
  { s with egr := { s.egr with gates := s.egr.gates.modify p f } }

/-- INDEX of a port's gate list. -/
def State.gclIndex (s : State) (p : Nat) : Nat := s.fld (Reg.TMG_GCL_CTRL p) 9 0

/-- The shadow entry at INDEX as a word. -/
def State.gclShadow (s : State) (p : Nat) : Nat := assocGet 0 (s.gate p).shadow (s.gclIndex p)

/-- Store a shadow entry and move INDEX on (R318). -/
def State.storeEntry (s : State) (p : Nat) (v : Nat) : State :=
  let i := s.gclIndex p
  let s := s.modGate p fun g => { g with shadow := assocSet g.shadow i v }
  s.setFld (Reg.TMG_GCL_CTRL p) 9 0 ((i + 1) % 1024)

/-- The list that the shadow copy holds. -/
def State.shadowList (s : State) (p : Nat) : GateList :=
  ⟨s.rdN (Reg.TMG_ADMIN_CYCLE p), (List.range (s.fld (Reg.TMG_ADMIN_LEN p) 10 0)).map fun i =>
    (let w := assocGet 0 (s.gate p).shadow i; (w / 16777216, w % 16777216))⟩

/-- Cycle and length in their ranges, no interval 0 (R313, R318). -/
def GateList.valid (g : GateList) : Bool :=
  decide (1000 ≤ g.cycle) && decide (g.cycle ≤ 1000000000) && decide (1 ≤ g.entries.length) &&
  decide (g.entries.length ≤ 1024) && g.entries.all fun e => decide (e.2 ≠ 0)

end Sys2Proof.Machine
end

