-- ==== Sys2Proof/Machine/Safety.lean ====
section
/-! DEFINITION. What every family shares with functional safety: journal records, flame words, the stream gates, the
snuffed state and the resets (R44, R68, R70, R349 to R352, R409 to R411). -/

namespace Sys2Proof.Machine

/-! ## The flash and its session (R52, R66, R67) -/

def State.flash (s : State) (port : Nat) : List Host.Cell := if port = 0 then s.flashA else s.flashB

def State.setFlash (s : State) (port : Nat) (m : List Host.Cell) : State :=
  if port = 0 then { s with flashA := m } else { s with flashB := m }

/-- `n` bytes from address `a`. -/
def flashBytes (m : List Host.Cell) (a n : Nat) : List Byte := (List.range n).map fun i => sparseGet erased m (a + i)

/-- Program bytes from address `a` upward. -/
def flashProgram (m : List Host.Cell) : Nat → List Byte → List Host.Cell
  | _, [] => m
  | a, b :: bs => flashProgram (sparseSet erased m a b) (a + 1) bs

/-- Erase `n` bytes from `a`. -/
def flashErase (m : List Host.Cell) (a n : Nat) : List Host.Cell :=
  m.filter fun e => decide (e.1 < a) || decide (a + n ≤ e.1)

/-- Base address of a copy region (R52). -/
def copyBase (copy : Nat) : Nat := if copy = 0 then 0 else 0x2000000

def State.endSession (s : State) : State := { s with emg := { s.emg with session := none } }

/-- Erase the whole copy region's written part: an aborted session leaves the copy erased (R66), unless the unit has come to
run that copy (R67). -/
def State.abortSession (s : State) (f : FlashSession) : State :=
  if s.emg.running = some (f.port, f.copy) then s.endSession
  else (s.setFlash f.port (flashErase (s.flash f.port) (copyBase f.copy) 32505856)).endSession

/-! ## The wear log's queue -/

/-- Journal records of the last 24 h (R70). -/
def State.recentJournal (s : State) : List Int :=
  s.emg.journalTimes.filter fun t => decide ((s.ns : Int) < t + 86400000000000)

/-- Ask for a journal record: at most 64 wait beside the ageing records, at most 1,440 in any 24 h (R68, R70). -/
def State.journal (s : State) (type : Nat) (payload : List Byte) : State :=
  if 64 ≤ (s.emg.logQueue.filter fun r => r.type != 2).length ∨ 1440 ≤ s.recentJournal.length then s.bump Reg.EMG_LOG_DROP
  else { s with emg := { s.emg with
    logQueue := s.emg.logQueue ++ [⟨type, payload⟩], journalTimes := s.ns :: s.recentJournal } }

/-- An ageing record is never dropped (R68). -/
def State.ageingRecord (s : State) (payload : List Byte) : State :=
  { s with emg := { s.emg with logQueue := s.emg.logQueue ++ [⟨2, payload⟩] } }

/-! ## Flame words (R348 to R352) -/

def State.unitNo (s : State) : Nat := s.fld Reg.IDN_UNIT 0 0
def State.paired (s : State) : Bool := s.bit Reg.IDN_UNIT 1
def State.epoch (s : State) : Nat := s.rdN Reg.TWN_EPOCH
/-- The unit holds the flame; a paired unit that is alone holds it too (R342, R356). -/
def State.holding (s : State) : Bool := decide (s.twin.role = Role.holder) || decide (s.twin.role = Role.alone)

/-- The first byte of a flame word: KIND, UNIT, AUX. -/
def flameB0 (kind unit aux : Nat) : Nat := kind % 8 * 32 + unit % 2 * 16 + aux % 16

/-- CHECK of a FLAME set: CRC-8 of B0 to B4, the epoch least significant byte first (R350). -/
def flameCheck (kind unit aux epoch : Nat) : Nat :=
  crc8Flame (BitVec.ofNat 8 (flameB0 kind unit aux) :: leBytes 4 epoch)

/-- CHECK of a wick word: CRC-8 of bits [47:8], most significant bit first (R351). -/
def wickCheck (kind unit aux epoch : Nat) : Nat :=
  crc8Flame (BitVec.ofNat 8 (flameB0 kind unit aux) :: beBytes 4 epoch)

/-- Bytes 0x00 to 0x17 of a presence beacon (R352). -/
def presenceHead (kind unit aux group pair epoch seq : Nat) : List Byte :=
  beBytes 4 0x4C414D50 ++ [BitVec.ofNat 8 kind, BitVec.ofNat 8 (aux % 16 * 16 + unit % 2)] ++ beBytes 2 group ++
  [BitVec.ofNat 8 pair, 0, 0, 0] ++ beBytes 4 epoch ++ beBytes 8 seq

/-- AUX of this unit's words: STATUS of a standby, which a snuffed unit sends as 0, or `seq`, the path's next SEQ, of a holder
(R350, R409). -/
def State.wordAux (s : State) (kind seq : Nat) : Nat :=
  if kind = 5 ∧ s.snuffed then 0
  else if kind = 5 then 8 * b2n (decide (s.fld Reg.TWN_STATUS 26 24 ≥ 3)) + 4 * b2n s.twin.ready else seq % 16

/-- One flame set on every lane, with the next SEQ of the lanes (R350, R353: a renewal's SEQ has changed). -/
def State.sendSet (s : State) (kind : Nat) : State :=
  let s := { s with twin := { s.twin with seqTx := (s.twin.seqTx + 1) % 16 } }
  let aux := s.wordAux kind s.twin.seqTx
  s.send (.flame 0 (s.fld Reg.LNK_CTRL 7 0) kind s.unitNo aux s.epoch (flameCheck kind s.unitNo aux s.epoch))

/-- One wick word, with the next SEQ of the wick lines (R351). -/
def State.sendWick (s : State) (kind : Nat) : State :=
  let s := { s with twin := { s.twin with wickTx := (s.twin.wickTx + 1) % 16 } }
  let aux := s.wordAux kind s.twin.wickTx
  s.send (.flame 1 0 kind s.unitNo aux s.epoch (wickCheck kind s.unitNo aux s.epoch))

/-- One presence beacon in TC7 from every port in service, each with the next SEQ (R352). -/
def State.sendPresence (s : State) (kind : Nat) : State :=
  s.each (List.range 8) fun p s => s.when (s.portUp p) fun s =>
    let head := presenceHead kind s.unitNo (s.wordAux kind (s.twin.beaconTx + 1)) (s.fld Reg.IDN_UNIT 31 16) (s.fld Reg.IDN_UNIT 11 8)
      s.epoch (s.twin.beaconTx + 1)
    ({ s with twin := { s.twin with beaconTx := s.twin.beaconTx + 1 } }).toPort p 7
      (udpLen (s.bit Reg.TWN_BEACON_PORT 16) 40) (.presence p (head ++ beaconTag s.twin.pairKey head))

/-- A word on every path at once (R350, R351, R356). -/
def State.sendEverywhere (s : State) (kind : Nat) : State :=
  (((s.sendSet kind).sendWick kind).sendPresence kind)

/-! ## Gates and channel states -/

def State.setGates (s : State) (b : Bool) : State := { s with twin := { s.twin with gatesOpen := b } }

def State.chanState (s : State) (n : Nat) : Nat := s.fld (Reg.CHN_STATE n) 2 0

/-- A transition of channel `n`: STATE, CAUSE and source 576 + 4n (R80). -/
def State.setChan (s : State) (n st cause : Nat) : State :=
  ((s.setFld (Reg.CHN_STATE n) 2 0 st).setFld (Reg.CHN_STATE n) 11 8 cause).raise (576 + 4 * n) 0

def allChans : List Nat := List.range 96

/-- The unit releases the flame: LIVE and DEGRADED channels go to SHADOW with cause 8, unconfirmed (R80, R355). -/
def State.chansToShadow (s : State) : State :=
  s.each allChans fun n s => s.when (s.chanState n == 3 || s.chanState n == 4) fun s =>
    (s.setChan n 5 8).setBit (Reg.CHN_STATE n) 12 true

/-- Does item `it`, whose control step has passed, keep item `j` as a reference (R226, R228): before its refresh decision, any item
that the decision may leave it? -/
def Chan.refKept (c : Chan) (it : Item) (j : Nat) : Bool :=
  decide (it.idx ≤ j) ||
  (match it.refresh with
   | some _ => it.refs.contains j || it.kept == some j
   | none => decide (it.idx ≤ j + 2) || c.hold.any fun h => h.1 == j)

/-- Some item's references exclude item `j` (R223). -/
def Chan.excluded (c : Chan) (j : Nat) : Bool := c.items.any fun it => it.controlFixed && !c.refKept it j

/-- The pool after its snapshot pins are released: each buffer takes the mark its roles call for (R223, R229). -/
def Chan.unpinned (c : Chan) : Chan :=
  let hold := c.hold.map (·.1)
  let roleOf := fun (b : Buf) =>
    if b.items.all c.excluded then Mark.outputHold
    else if b.items.any (fun j => some j == hold) then Mark.refLong else Mark.refShort
  { c with pool := c.pool.map fun b => (if b.mark = .snapshot then { b with mark := roleOf b } else b) }

/-- Frames of an aborted snapshot that have not left are not sent (R373). -/
def State.dropCopy (s : State) (n : Nat) : State :=
  let mine := fun (b : LBody) => match b with
    | .snapshot m _ => m == n
    | _ => false
  { s with link := { s.link with queue := s.link.queue.filter fun b => !mine b } }

/-- The holder gives up the flame: its snapshots end (R373). -/
def State.endSnaps (s : State) : State :=
  s.each allChans fun n s =>
    match ((s.chans[n]?).map (·.snap)).getD .none with
    | .asked => { s with chans := s.chans.modify n fun c => { c with snap := .none } }
    | .sending _ | .sent _ =>
      (({ s with chans := s.chans.modify n fun c => { c.unpinned with snap := .none } }).dropCopy n).raise 963
        (n * 16777216 + 4 + 4294967296 * s.epoch)
    | _ => s

/-- Role in the pair, with TWN_STATUS.HOLDER. -/
def State.setRole (s : State) (r : Role) : State :=
  ({ s with twin := { s.twin with role := r } }).setBit Reg.TWN_STATUS 31 (decide (r = Role.holder) || decide (r = Role.alone))

/-- Flame change event (R381). -/
def State.flameEvent (s : State) (holds : Bool) (cause : Nat) : State :=
  s.raise 960 (8 * b2n holds + cause + 4294967296 * s.epoch)

/-- Give up the flame, with or without RELEASE words: gates closed, FLAME low, standby, unconfirmed (R355, R363). -/
def State.dropFlame (s : State) (cause : Nat) : State :=
  let s := { s with twin := { s.twin with handover := false } }
  let s := s.setBit Reg.TWN_CMD 31 false
  ((((s.setGates false).setRole .standby).chansToShadow).endSnaps).flameEvent false cause

/-- RELEASE on every path, then give up the flame; on the wick lines alone when the lanes cannot run (R363, R365). -/
def State.releaseFlame (s : State) (lanesRun : Bool) : State :=
  (if lanesRun then s.sendEverywhere 2 else s.sendWick 2).dropFlame 2

/-! ## Snuff (R409 to R411) -/

/-- Nanoseconds from detection to SAFE_N low: at most 5 µs (R409); the spec gives no figure. -/
def snuffLatency (n : Nat) : Nat := Config.snuffLatency n % 5001

/-- ROLE of the failure-summary record (R411). -/
def Role.code : Role → Nat
  | .unpaired => 0 | .holder => 1 | .standby => 2 | .alone => 3

/-- The failure-summary payload, 236 bytes (R69, R411). -/
def State.summaryBytes (s : State) (role cause : Nat) : List Byte :=
  let b := [BitVec.ofNat 8 cause, BitVec.ofNat 8 role, BitVec.ofNat 8 (s.fld Reg.SAF_STATUS 23 16),
      BitVec.ofNat 8 s.lead] ++ leBytes 4 s.epoch ++ leBytes 4 (s.rdN Reg.SAF_SNUFF_T) ++
    leBytes 4 (s.rdN Reg.SAF_SNUFF_LAT) ++ (List.range 3).flatMap (fun i => leBytes 4 (s.rdN (Reg.SAF_LATE i))) ++
    leBytes 2 (s.fld Reg.THM_HOTTEST 15 0)
  b ++ List.replicate (236 - b.length) 0

/-- Enter the snuffed state for `cause` (R409). A unit already snuffed does not snuff again. -/
def State.snuff (s : State) (cause : Nat) : State :=
  if s.snuffed then s
  else
    let role := s.twin.role.code
    let s := s.setGates false
    let s := s.when s.holding fun s => s.releaseFlame (decide (cause ≠ 3))
    let s := s.setFld Reg.SAF_STATUS 31 30 2
    let s := s.setFld Reg.SAF_STATUS 7 0 cause
    let s := { s with saf := { s.saf with snuffAt := some s.now } }
    let s := (s.wrN Reg.SAF_SNUFF_T s.phaseTime).wrN Reg.SAF_SNUFF_LAT (snuffLatency s.fresh)
    let s := s.freshId.raiseT 16 cause
    let b := s.summaryBytes role cause
    if cause = 6 then s
    else
      let s := { s with emg := { s.emg with summary := some b } }
      s.when (decide (cause = 4 ∨ cause = 5 ∨ cause = 7)) fun s => s.journal 3 b

/-! ## Resets (R44, R45, R46) -/

/-- What both resets keep: fuses, flash, the rails' state, and the model's own records. -/
def State.cleared (s : State) : State :=
  { State.reset with
      pending := s.pending, sent := s.sent, fresh := s.fresh, draws := s.draws, fuses := s.fuses,
      flashA := s.flashA, flashB := s.flashB,
      emg := { Emg.reset with rails := s.emg.rails, resetN := s.emg.resetN } }

/-- What self-refresh keeps of picture memory over a warm reset: data and check bytes (R441). -/
def PicMem.kept (p : PicMem) : PicMem :=
  { PicMem.reset with chans := p.chans.map fun x => { MChan.reset with mem := x.mem, poison := x.poison } }

/-- A warm reset: also the last snuff's cause and instant, and its summary until E3 appends it (R44, R411, R425). -/
def State.warmReset (s : State) : State :=
  let t := { s.cleared with
    emg := { s.cleared.emg with summary := s.emg.summary }, pic := s.pic.kept }
  let t := t.setBit Reg.EMG_STATUS 10 true
  let t := t.when s.snuffed fun t =>
    (t.wrN Reg.SAF_LAST_SNUFF (2147483648 + s.fld Reg.SAF_STATUS 7 0)).wrN Reg.SAF_LAST_SNUFF_T
      (s.rdN Reg.SAF_SNUFF_T)
  t

/-- A cold reset clears them (R44). -/
def State.coldReset (s : State) : State := s.cleared

/-- Snuff for `cause`, then a warm reset (R45, R338). -/
def State.snuffAndReset (s : State) (cause : Nat) : State := (s.snuff cause).warmReset

end Sys2Proof.Machine
end

