-- ==== Sys2Proof/Machine/Fabric.lean ====
section
/-! DEFINITION. The general CRC units (R485 to R487), the abort log (R494, R495), the 64-bit pairs of R10 and the die
links (R20 to R22). -/

namespace Sys2Proof.Machine

/-! ## The abort log (R495) -/

/-- One entry: kind, first address, die and ID of the master, channel (0x7F none), beats done and asked, and the low
32 bits of the picture index. Kinds 1 and 2 raise under the rate limit of R541. -/
def State.abortLog (s : State) (d kind addr mdie mid chan beats total idx : Nat) : State :=
  let i := s.fld (Reg.FAB_HEAD d) 5 0
  let w := kind % 16 * 268435456 + mdie % 8 * 33554432 + mid % 8 * 4194304 + chan % 128 * 32768 +
    beats % 32 * 1024 + total % 32 * 32
  let a := Reg.FAB_ABORT_LOG d (4 * i)
  let s := (((s.wrN a s.phaseTime).wrN (a + 4) addr).wrN (a + 8) w).wrN (a + 12) idx
  let s := (s.setFld (Reg.FAB_HEAD d) 5 0 (i + 1)).bump (Reg.FAB_ABORTS d)
  let info := w + 4294967296 * (addr % 4294967296)
  if kind = 1 ∨ kind = 2 then s.raiseLimited (64 + 64 * d + 22) info else s.raise (64 + 64 * d + 22) info

/-- Die `d` failed E1 or is retired: of its blocks only the thermal one decodes (R515). -/
def State.dieGone (s : State) (d : Nat) : Bool := decide (3 ≤ s.phase) && !s.dieOk d

/-! ## General CRC units -/

def State.crcCfg (s : State) (d u : Nat) : CrcParams :=
  let w := s.fld (Reg.CRC_CFG d u) 6 0
  ⟨w, s.rd64 (Reg.CRC_POLY_LO d u) % 2 ^ w, s.rd64 (Reg.CRC_INIT_LO d u) % 2 ^ w, s.bit (Reg.CRC_CFG d u) 31,
    s.bit (Reg.CRC_CFG d u) 30, s.rd64 (Reg.CRC_XOROUT_LO d u) % 2 ^ w⟩

def State.crcValue (s : State) (d u : Nat) : Nat := s.rd64 (Reg.CRC_VALUE_LO d u)

/-- RESULT of a unit (R486). -/
def State.crcResultOf (s : State) (d u : Nat) : Nat := crcResult (s.crcCfg d u) (s.crcValue d u)

/-- Units 0–3 belong to the firmware: a host write to them is discarded, and counted where it would change the register's
value (R12, R485): `differs` says so, and a WO register always counts. -/
def State.crcGuard (s : State) (host : Bool) (u a : Nat) (differs : Bool) (f : State → State) : State :=
  if host ∧ u < 4 then s.when differs fun s => s.refuse a else f s

/-- The unit is reached; on a die that failed E1 or is retired the host's access is undecoded (R489, R515). -/
def State.crcReach (s : State) (host : Bool) (d a : Nat) (f : State → State) : State :=
  if s.dieGone d then s.when host fun s => s.abortLog s.lead 2 a s.lead 2 0x7F 0 1 0 else f s

def State.crcStart (s : State) (d u : Nat) : State :=
  (s.wr64 (Reg.CRC_VALUE_LO d u) (s.crcCfg d u).init).wrN (Reg.CRC_COUNT d u) 0

/-- Feed the low `n` bytes of `x`, [7:0] first (R486); COUNT counts bytes fed. A unit of width 0 ignores feeds. -/
def State.crcFeedBytes (s : State) (d u n x : Nat) : State :=
  let p := s.crcCfg d u
  if p.w = 0 then s
  else (s.wr64 (Reg.CRC_VALUE_LO d u)
      ((leBytes n x).foldl (fun v b => crcFeed p v b.toNat) (s.crcValue d u))).bump (Reg.CRC_COUNT d u) n

/-- Hold only the low `w` bits of the pair at `a` (R485). -/
def State.crcMask (s : State) (w a : Nat) : State := s.wr64 a (s.rd64 a % 2 ^ w)

/-- A CRC_CFG write; a width of 0 or of 65–127 is discarded whole, and counted where it differs (R485). -/
def State.crcCfgWrite (s : State) (d u : Nat) (v : Word) : State :=
  let a := Reg.CRC_CFG d u
  let w := fldOf v 6 0
  let v' := fldPut v 29 7 0
  if w = 0 ∨ 64 < w then s.when (decide (v' ≠ s.rd a)) fun s => s.refuse a
  else ((((s.wr a v').crcMask w (Reg.CRC_POLY_LO d u)).crcMask w (Reg.CRC_INIT_LO d u)).crcMask w
    (Reg.CRC_XOROUT_LO d u)).crcMask w (Reg.CRC_VALUE_LO d u)

/-- A CRC_VALUE write sets the running register and clears COUNT (R487). -/
def State.crcValueWrite (s : State) (d u x : Nat) : State :=
  (s.wr64 (Reg.CRC_VALUE_LO d u) (x % 2 ^ s.fld (Reg.CRC_CFG d u) 6 0)).wrN (Reg.CRC_COUNT d u) 0

def execCrcStart (dt : Nat) (host : Bool) (d u : Fin 8) (v : Word) (s : State) :
    Host.Outcome State Fault Refusal :=
  done ((s.elapse dt).crcReach host d (Reg.CRC_START d u) fun s =>
    s.crcGuard host u (Reg.CRC_START d u) true fun s => s.when (decide (fldOf v 0 0 = 1)) fun s =>
    s.crcStart d u)

def execCrcFeedB (dt : Nat) (host : Bool) (d u : Fin 8) (v : Word) (s : State) :
    Host.Outcome State Fault Refusal :=
  done ((s.elapse dt).crcReach host d (Reg.CRC_FEED_B d u) fun s =>
    s.crcGuard host u (Reg.CRC_FEED_B d u) true fun s => s.crcFeedBytes d u 1 v.toNat)

def execCrcFeedH (dt : Nat) (host : Bool) (d u : Fin 8) (v : Word) (s : State) :
    Host.Outcome State Fault Refusal :=
  done ((s.elapse dt).crcReach host d (Reg.CRC_FEED_H d u) fun s =>
    s.crcGuard host u (Reg.CRC_FEED_H d u) true fun s => s.crcFeedBytes d u 2 v.toNat)

def execCrcFeedW (dt : Nat) (host : Bool) (d u : Fin 8) (v : Word) (s : State) :
    Host.Outcome State Fault Refusal :=
  done ((s.elapse dt).crcReach host d (Reg.CRC_FEED_W d u) fun s =>
    s.crcGuard host u (Reg.CRC_FEED_W d u) true fun s => s.crcFeedBytes d u 4 v.toNat)

def execCrcCfgWrite (dt : Nat) (host : Bool) (d u : Fin 8) (v : Word) (s : State) :
    Host.Outcome State Fault Refusal :=
  let s := s.elapse dt
  done (s.crcReach host d (Reg.CRC_CFG d u) fun s =>
    s.crcGuard host u (Reg.CRC_CFG d u) (decide (fldPut v 29 7 0 ≠ s.rd (Reg.CRC_CFG d u))) fun s => s.crcCfgWrite d u v)

/-- R487: both halves of CRC_VALUE come into force together. -/
def execCrcValueWrite (dt : Nat) (host : Bool) (d u : Fin 8) (v : BitVec 64) (s : State) :
    Host.Outcome State Fault Refusal :=
  let s := s.elapse dt
  done ((s.when (s.dieGone d) fun s => s.crcReach host d (Reg.CRC_VALUE_LO d u) fun s => s).crcReach host d (Reg.CRC_VALUE_HI d u)
    fun s => s.crcGuard host u (Reg.CRC_VALUE_HI d u) (decide (v.toNat ≠ s.crcValue d u)) fun s =>
      s.crcValueWrite d u v.toNat)

/-! ## Accesses that do not decode (R9, R489, R495) -/

/-- The die of an address in a die's own region. -/
def dieAt (a : Nat) : Option Nat :=
  if 0x01000000 ≤ a ∧ a < 0x03000000 then some ((a - 0x01000000) / 0x400000) else none

def inThermal (a : Nat) : Bool :=
  decide (0x10000 ≤ (a - 0x01000000) % 0x400000) && decide ((a - 0x01000000) % 0x400000 < 0x20000)

/-- The die whose log takes the entry of an access to `a` by a master of die `mdie` (R495): the die that serves it. -/
def State.logDie (s : State) (a mdie : Nat) : Nat :=
  match dieAt a with
  | some d => if s.dieGone d && !inThermal a then s.lead else d
  | none => if 0x200000 ≤ a ∧ a < 0x600000 then mdie else s.lead

/-- Does the address decode (R513 to R515)? -/
def State.decodes (s : State) (a : Nat) : Bool :=
  (match regAt a with | .undecoded => false | _ => true) &&
  (match dieAt a with | some d => !s.dieGone d || inThermal a | none => true)

/-- R9: an access of a width other than 32 bits, or not aligned, completes without effect and is logged. -/
def execWrongWidthAccess (dt : Nat) (mdie : Fin 8) (mid : Fin 4) (addr width : Nat) (s : State) :
    Host.Outcome State Fault Refusal :=
  let s := s.elapse dt
  if width = 32 ∧ addr % 4 = 0 then done s
  else done (s.abortLog (s.logDie addr mdie) 1 addr mdie mid 0x7F 0 1 0)

/-- R489, R513: an access to an address that nothing decodes completes without effect and is logged. -/
def execUndecodedAccess (dt : Nat) (mdie : Fin 8) (mid : Fin 4) (addr : Nat) (s : State) :
    Host.Outcome State Fault Refusal :=
  let s := s.elapse dt
  if s.decodes addr then done s
  else done (s.abortLog (s.logDie addr mdie) 2 addr mdie mid 0x7F 0 1 0)

/-! ## Latches and held halves (R10) -/

/-- Master number: 4 × die + ID. -/
def masterNo (mdie mid : Nat) : Nat := 4 * mdie + mid

def State.latchSet (s : State) (m a : Nat) (v : Word) : State :=
  { s with bus := { s.bus with
      latches := (m, a, v) :: s.bus.latches.filter (fun e => !(e.1 == m && e.2.1 == a)) } }

/-- The latched word of master `m` for the register at `a`, if it holds one. -/
def State.latchOf (s : State) (m a : Nat) : Option Word :=
  (s.bus.latches.find? (fun e => e.1 == m && e.2.1 == a)).map (·.2.2)

def State.latchDrop (s : State) (m a : Nat) : State :=
  { s with bus := { s.bus with latches := s.bus.latches.filter (fun e => !(e.1 == m && e.2.1 == a)) } }

def State.holdLo (s : State) (m a : Nat) (v : Word) : State :=
  { s with bus := { s.bus with held := (m, a, v) :: s.bus.held.filter (fun e => !(e.1 == m && e.2.1 == a)) } }

/-- The held lower half of master `m`: 0 after reset (R10). -/
def State.heldLo (s : State) (m a : Nat) : Word :=
  match s.bus.held.find? (fun e => e.1 == m && e.2.1 == a) with
  | some e => e.2.2
  | none => 0

/-- The reset of a master clears its latches and its held lower halves (R10, R491). -/
def State.masterReset (s : State) (m : Nat) : State :=
  { s with bus := { s.bus with
      latches := s.bus.latches.filter fun e => e.1 != m, held := s.bus.held.filter fun e => e.1 != m } }

/-! ## Die links (R20 to R22) -/

/-- Number of the link between `a` and its neighbour in dimension `k`. -/
def linkNo (a k : Nat) : Nat :=
  let low := a &&& (7 ^^^ 2 ^ k)
  4 * k + (if k = 0 then low / 2 else if k = 1 then low / 4 * 2 + low % 2 else low % 4)

def State.linkUp (s : State) (a k : Nat) : Bool := s.emg.links.getD (linkNo a k) false

/-- The dimensions of a route of exactly `n` hops from `a` to `b` over working links, the first in dimension order. -/
def State.routeOf (s : State) : Nat → Nat → Nat → Option (List Nat)
  | 0, a, b => if a = b then some [] else none
  | n + 1, a, b => [0, 1, 2].findSome? fun k =>
      if s.linkUp a k then (s.routeOf n (a ^^^ 2 ^ k) b).map fun r => k :: r else none

/-- The route of a transfer (R21): a shortest one over the links that work, and of these the first in dimension order. With no
failed link that is dimension order. Where the next link in that order has failed it takes the next needed dimension first,
and where a single needed dimension has failed it crosses the lowest working other dimension, the failed one there, and back:
R21's own cases. Taking the shortest route from the start keeps R21's bound of three hops with one failed link, which choosing
die by die would not where the last needed link is the failed one. DEDUCED (log 50). -/
def State.route (s : State) (a b : Nat) : Option (List Nat) := (List.range 8).findSome? fun n => s.routeOf n a b

/-- A die whose three links have failed is isolated (R21). -/
def State.isolated (s : State) (d : Nat) : Bool := (List.range 3).all fun k => !s.linkUp d k

/-- Transactions of a control-fabric master on their way (R489). -/
def Links.ofMaster (x : Links) (m : Nat) : Nat := (x.flight.filter fun y => y.master == some m).length

/-- A link direction takes one more transaction into flight: 512, of which 128 are kept for ingest payload (R22, R270); a
control-fabric master issues one more where it has fewer than 64 under way (R271). -/
def Links.fits (x : Links) (t : LinkTx) : Bool :=
  let there := x.flight.filter fun y => y.link == t.link
  (decide (t.link / 3 ≠ t.src) || t.master.all fun m => decide (x.ofMaster m < 64)) && decide (there.length < 512) && (t.ingest || decide ((there.filter fun y => !y.ingest).length < 384))

/-- A transaction takes its place on its link direction: in flight, or waiting where the bound is met (R22, R270). -/
def Links.push (x : Links) (t : LinkTx) : Links :=
  if x.fits t then { x with flight := x.flight ++ [t] } else { x with waiting := x.waiting ++ [t] }

/-- Another copy of the transaction is under way. -/
def Links.under (x : Links) (seq : Nat) : Bool := x.flight.any (fun y => y.seq == seq) || x.waiting.any fun y => y.seq == seq

/-- The transaction reaches its destination: accepted once, and a later copy of it discarded by its number (R22). -/
def Links.arrive (x : Links) (t : LinkTx) : Links :=
  let others := x.accepted.filter fun q => q != t.seq
  if x.under t.seq then { x with accepted := t.seq :: others } else { x with accepted := others }

/-- The transaction stands at die `a`: it is at its destination, or goes on by the route it has, or by a new one where the next
link of that has failed. A destination that no route reaches is a failed die (R21): the transaction ends. -/
def State.carry (s : State) (x : Links) (a : Nat) (t : LinkTx) : Links :=
  if a = t.dst then x.arrive t
  else
    let kept := match t.rest with
      | [] => none
      | k :: ks => if s.linkUp a k then some (k :: ks) else none
    match kept.orElse fun _ => s.route a t.dst with
    | some (k :: ks) => x.push { t with link := 3 * a + k, rest := ks }
    | _ => x

/-- Post a transaction from die `a` to die `b` (R22). -/
def State.postTx (s : State) (a b : Nat) (ingest : Bool) (note : Option Note) (master : Option Nat) : State :=
  let x := s.links
  let t : LinkTx := ⟨x.next, a, b, 0, [], ingest, note, master⟩
  if a = b then s else { s with links := s.carry { x with next := x.next + 1 } a t }

def State.postAs (s : State) (ingest : Bool) (note : Option Note) (a b : Nat) : State := s.postTx a b ingest note none

/-- Master `mid` of die `a` issues an access to die `b`: at its bound of 64 the issue waits, and is counted (R271, R495). -/
def State.issue (s : State) (a mid b : Nat) : State :=
  let m := masterNo a mid
  let full := decide (a ≠ b) && decide (64 ≤ s.links.ofMaster m + (s.links.waiting.filter fun y => y.master == some m).length)
  let s := s.when full fun s => { s with links := { s.links with waits := s.links.waits.modify a (· + 1) } }
  s.postTx a b false none (some m)

/-- A completion of stage `st` of band `b`, or with `none` of any band, of item `k` of channel `n` is on its way to die `d` (R260). -/
def State.noted (s : State) (n k : Nat) (b : Option Nat) (st d : Nat) : Bool :=
  (s.links.flight ++ s.links.waiting).any fun t => t.dst == d && !s.links.accepted.contains t.seq &&
    t.note.any fun x => x.chan == n && x.idx == k && b.all (fun b => b == x.band) && x.stage == st

/-- The die at the far end of a link direction. -/
def farDie (link : Nat) : Nat := link / 3 ^^^ 2 ^ (link % 3)

/-- The oldest transaction that waits on a link direction, and that its bounds allow, goes into flight. -/
def Links.promote (x : Links) (link : Nat) : Links :=
  match x.waiting.find? (fun y => y.link == link && x.fits y) with
  | none => x
  | some w => { x with flight := x.flight ++ [w], waiting := x.waiting.erase w }

/-- The next die on the route acknowledges the transaction `t`, which frees it on that link; it is carried on from there, or has
arrived (R22). Then the oldest transaction that waits on each link direction, and may now go, goes. -/
def State.acked (s : State) (t : LinkTx) : State :=
  let x := s.carry { s.links with flight := s.links.flight.erase t } (farDie t.link) t
  { s with links := (List.range 24).foldl Links.promote x }

/-- The transaction is on a link that has failed. -/
def State.stranded (s : State) (t : LinkTx) : Bool := !s.linkUp (t.link / 3) (t.link % 3)

/-- After a link failure: what was on it, in flight or waiting, is issued again on the new route from the die where it stood,
in the original order and within the bound of each direction. One whose number is in `taken` had been accepted by the next
die before the failure, its acknowledgement being lost: that copy goes on as well, and the destination discards the second
(R21, R22). -/
def State.reroute (s : State) (taken : List Nat) : State :=
  let old := s.links
  let lost := old.flight.filter s.stranded ++ old.waiting.filter s.stranded
  let base : Links := { old with
    flight := old.flight.filter fun t => !s.stranded t, waiting := old.waiting.filter fun t => !s.stranded t }
  let x := lost.foldl (fun x t => s.carry x (t.link / 3) { t with rest := [] }) base
  let x := (old.flight.filter fun t => s.stranded t && taken.contains t.seq).foldl
    (fun x t => s.carry x (farDie t.link) t) x
  { s with links := x }

end Sys2Proof.Machine
end

