-- ==== Sys2Proof/Machine/Calib.lean ====
section
/-! DEFINITION. Calibration of every receiver: parameters, staging and commit, adaptation, the window, saving and restoring
(R71, R72, R451 to R459). A lane receiver has the number 10 × die + slot, a memory channel 80 + 8 × die + 4 × controller +
channel. -/

namespace Sys2Proof.Machine

/-! ## Receivers -/

def laneId (d n : Nat) : Nat := 10 * d + n
def memId (d k : Nat) : Nat := 80 + 8 * d + k
def isMem (r : Nat) : Bool := decide (80 ≤ r)

/-- FAMILY, DIE and INDEX of a receiver (R456). -/
def recvFamily (r : Nat) : Nat := if 80 ≤ r then 4 else if r % 10 < 8 then 1 else if r % 10 = 8 then 2 else 3
def recvDie (r : Nat) : Nat := if 80 ≤ r then (r - 80) / 8 else r / 10
def recvIndex (r : Nat) : Nat := if 80 ≤ r then (r - 80) % 8 else r % 10

/-- CAL_STAT and CAL_COMMITS of a receiver (R456, R457). -/
def calStat (r : Nat) : Nat :=
  if 80 ≤ r then Reg.MCAL_STAT (recvDie r) (recvIndex r / 4) (recvIndex r % 4) else Reg.CAL_STAT (recvDie r) (recvIndex r)
def calCommits (r : Nat) : Nat :=
  if 80 ≤ r then Reg.MCAL_COMMITS (recvDie r) (recvIndex r / 4) (recvIndex r % 4)
  else Reg.CAL_COMMITS (recvDie r) (recvIndex r)

/-- Every receiver: lane slot 9 exists on D0 and D7 only (R403). -/
def allRecvs : List Nat := (List.range 144).filter fun r => r != 19 && r != 29 && r != 39 && r != 49 && r != 59 && r != 69

/-- Range of parameter `i` of a receiver; none where the receiver has no such parameter (R451). -/
def paramRange (r i : Nat) : Option (Int × Int) :=
  if 80 ≤ r then
    if i = 32 then some (0, 127) else if 32 < i then none
    else if i % 4 < 2 then some (0, 255) else some (-128, 127)
  else if i = 0 then some (0, 15)
  else if i = 1 then some (0, 127)
  else if recvFamily r = 3 then none
  else if i = 2 then some (-63, 63)
  else if i < 10 then some (-31, 31)
  else if i = 11 ∨ (recvFamily r = 1 ∧ (i = 10 ∨ i = 12)) then some (-128, 127)
  else none

/-- The built-in seed (R451). The memory delays come from the sweep of R440, the PAM3 thresholds with them. -/
def builtinSeed (r : Nat) : List Int :=
  if 80 ≤ r then List.replicate 33 0
  else [8, 64] ++ List.replicate 8 0 ++ (if recvFamily r = 1 then [-64, 0, 64] else [0, 0, 0])

def Recv.start (v : List Int) : Recv := ⟨true, v, none, v, 0, none, true, false, [], [], none⟩

/-- A receiver at reset: every parameter 0 until training sets it (R451, R456). -/
def Recv.blank (r : Nat) : Recv := { Recv.start (List.replicate (if 80 ≤ r then 33 else 13) 0) with on := false }

/-- Does the receiver exist? -/
def recvExists (r : Nat) : Bool := allRecvs.contains r

def State.recv (s : State) (r : Nat) : Recv := assocGet (Recv.blank r) s.cal.recvs r

def State.setRecv (s : State) (r : Nat) (x : Recv) : State :=
  { s with cal := { s.cal with recvs := assocSet s.cal.recvs r x } }

/-- The seed of a receiver: from the calibration-seeds section, or built in (R451). -/
def State.seedOf (s : State) (r : Nat) : List Int :=
  match s.cal.seeds with
  | none => builtinSeed r
  | some v => Config.calSeed v r

/-! ## Staging and commit (R454, R455) -/

/-- Stage a setting. -/
def State.stage (s : State) (r : Nat) (v : List Int) : State :=
  (s.setRecv r { s.recv r with shadow := some v }).setBit (calStat r) 31 true

/-- A temperature correction of a receiver's references is staged (R469). -/
def State.stageRef (s : State) (r : Nat) (v : Int) : State :=
  let x := assocGet (0, none) s.cal.refs r
  { s with cal := { s.cal with refs := assocSet s.cal.refs r (x.1, some v) } }

/-- The correction staged for a receiver's references comes into force (R454, R469). -/
def State.commitRef (s : State) (r : Nat) : State :=
  let x := assocGet (0, none) s.cal.refs r
  match x.2 with
  | none => s
  | some v => { s with cal := { s.cal with refs := assocSet s.cal.refs r (v, none) } }

/-- The commit point: what is staged comes into force together. DEDUCED (log 53): CAL_STAT.STAGED and CAL_COMMITS tell of the
parameters, not of a correction of R469. -/
def State.commitRecv (s : State) (r : Nat) : State :=
  let s := s.commitRef r
  let x := s.recv r
  match x.shadow with
  | none => s
  | some v =>
    let t := x.trial.map fun t => (t.1, t.2.1, true)
    ((s.setRecv r { x with force := v, shadow := none, spans := true, trial := t }).setBit (calStat r) 31 false).bump
      (calCommits r)

/-- A lane that loses lock discards what is staged and starts again from the values in force when it was last GOOD. -/
def State.recvLost (s : State) (r : Nat) : State :=
  let x := s.recv r
  (s.setRecv r { x with force := x.good, shadow := none, trial := none }).setBit (calStat r) 31 false

/-- A lane is GOOD with the values now in force. -/
def State.recvGood (s : State) (r : Nat) : State :=
  let x := s.recv r
  if x.good = x.force then s else s.setRecv r { x with good := x.force }

/-! ## Adaptation (R452, R453) -/

/-- A mean, rounded toward zero. -/
def meanOf (e : Int × Nat) : Option Int := if e.2 = 0 then none else some (Int.tdiv e.1 e.2)

/-- The midpoint of the means of two adjacent levels, rounded toward zero. -/
def midOf (l : List (Int × Nat)) (i : Nat) : Option Int :=
  match (l[i]?).bind meanOf, (l[i + 1]?).bind meanOf with
  | some a, some b => some (Int.tdiv (a + b) 2)
  | _, _ => none

def signTo (cur : Int) : Option Int → Int
  | none => 0
  | some t => if cur < t then 1 else if t < cur then -1 else 0

/-- The direction of the step of parameter `i` toward its target in this cycle; CTLE, write delay and WCK have none. -/
def stepDir (r i : Nat) (cur : Int) (st : AdaptStats) : Int :=
  if 80 ≤ r then
    let q := i / 4
    if i = 32 ∨ st.reads.getD q 0 < 4096 then 0
    else
      let lv := st.levels.getD q []
      match i % 4 with
      | 0 => signTo cur (((st.edges[q]?).bind meanOf).map fun m => (m + 32) % 256)
      | 2 => signTo cur (midOf lv 1)
      | 3 => signTo cur (midOf lv 0)
      | _ => 0
  else if i = 1 then
    match (st.edges[0]?).bind meanOf with
    | none => 0
    | some m =>
      let d := (m + 64 - cur) % 128
      if d = 0 then 0 else if d ≤ 64 then 1 else -1
  else if 2 ≤ i ∧ i < 10 then
    let t := st.taps.getD (i - 2) 0
    if t.natAbs < 16384 then 0 else if 0 < t then 1 else -1
  else if 10 ≤ i then
    let lv := st.levels.getD 0 []
    if recvFamily r = 1 then signTo cur (midOf lv (i - 10)) else signTo cur (midOf lv 0)
  else 0

/-- One step of parameter `i`: the new value, and whether the step was refused at a range edge (R451). -/
def stepParam (r i : Nat) (cur dir : Int) : Int × Bool :=
  match paramRange r i with
  | none => (cur, false)
  | some (lo, hi) =>
    if dir = 0 then (cur, false)
    else if !isMem r && decide (i = 1) then ((cur + dir) % 128, false)
    else if cur + dir < lo ∨ hi < cur + dir then (cur, true) else (cur + dir, false)

/-- FOM of a lane as its latest interval gave it (R383). -/
def State.lastFom (s : State) (r : Nat) : Nat :=
  if 80 ≤ r then 0 else s.fld (Reg.LN_STATUS (recvDie r) (recvIndex r)) 7 0

/-- The direction CTLE takes in this cycle: the trial of R453, or back from one that did not help. -/
def State.ctleTrial (s : State) (r : Nat) (x : Recv) : Recv × Option Int :=
  let fom := s.lastFom r
  match x.trial with
  | some (old, before, true) =>
    if x.spans then (x, none)
    else if before < fom then ({ x with trial := none }, none)
    else ({ x with trial := none }, some old)
  | some (_, _, false) => (x, none)
  | none =>
    if isMem r || decide (x.cycles % 16 ≠ 0) then (x, none)
    else
      let cur := x.force.getD 0 0
      let v := (stepParam r 0 cur (if x.up then 1 else -1)).1
      let y := { x with up := !x.up }
      if v = cur then ({ y with clamped := 0 :: x.clamped.filter (· ≠ 0) }, none)
      else ({ y with trial := some (cur, fom, false) }, some v)

/-- One cycle of adaptation. -/
def State.adapt (s : State) (r : Nat) (st : AdaptStats) : State :=
  let x := s.recv r
  let x := { x with cycles := x.cycles + 1 }
  if x.shadow.isSome then s.setRecv r { x with spans := false }
  else
    let (x, ctle) := s.ctleTrial r x
    let steps := x.force.mapIdx fun i cur =>
      (if i = 0 && !isMem r then ((ctle.getD cur), false) else stepParam r i cur (stepDir r i cur st))
    let v := steps.map (·.1)
    let refused := (List.range v.length).filter fun i => (steps.getD i (0, false)).2
    let moved := (List.range v.length).filter fun i => decide (v.getD i 0 ≠ x.force.getD i 0)
    let clamped := x.clamped.filter (fun i => !moved.contains i && !refused.contains i) ++ refused
    let s := s.setRecv r { x with spans := false, clamped := clamped }
    let s := s.setBit (calStat r) 28 (decide (clamped ≠ []))
    if v = x.force then s else s.stage r v

/-! ## The window (R456 to R458) -/

/-- A signed value in `n` bits. -/
def bitsOf (n : Nat) (v : Int) : Nat := (v % (2 ^ n : Nat)).toNat

/-- CAL_CTX of a receiver: its family, mode or rate, die and index. -/
def State.calCtx (s : State) (r : Nat) : Nat :=
  let d := recvDie r
  let k := recvIndex r
  let mode := if 80 ≤ r then s.fld (Reg.MC_STATUS d (k / 4)) 26 24
    else if k < 8 then s.fld (Reg.NP_CTRL d) 1 0 else 0
  recvFamily r * 16777216 + mode * 65536 + d * 256 + k

/-- The words after CAL_CTX and before CAL_SIG for a setting. -/
def settingWords (r : Nat) (v : List Int) : List Nat :=
  let b := fun i => bitsOf 8 (v.getD i 0)
  let four := fun i => b i + 256 * b (i + 1) + 65536 * b (i + 2) + 16777216 * b (i + 3)
  if 80 ≤ r then
    (List.range 8).map (fun q => b (4 * q) * 16777216 + b (4 * q + 1) * 65536 + b (4 * q + 2) * 256 + b (4 * q + 3)) ++
      [bitsOf 7 (v.getD 32 0)]
  else [bitsOf 7 (v.getD 1 0) * 65536 + bitsOf 4 (v.getD 0 0), four 2, if recvFamily r = 3 then 0 else four 6,
    b 10 + 256 * b 11 + 65536 * b 12]

/-- CAL_SIG over the serial number and the window's words. -/
def calSignature (ws : List Nat) : Nat := crc32 (Config.serial ++ ws.flatMap (leBytes 4))


/-- Index of CAL_SIG in the window. -/
def sigIndex (r : Nat) : Nat := if 80 ≤ r then 10 else 5

/-- The window of the values in force, CAL_SIG last; before training has set them every word reads its reset value 0
(R456). -/
def State.windowNow (s : State) (r : Nat) : List Nat :=
  let ws := s.calCtx r :: settingWords r (s.recv r).force
  if (s.recv r).on then ws ++ [calSignature ws] else List.replicate (sigIndex r + 1) 0

/-- Address of word `i` of a receiver's window. -/
def calAddr (r i : Nat) : Nat :=
  if 80 ≤ r then Reg.MCAL_CTX (recvDie r) (recvIndex r / 4) (recvIndex r % 4) + 4 * i
  else Reg.CAL_CTX (recvDie r) (recvIndex r) + 4 * i

/-- The bits of word `i` that take a write. -/
def calMask (r i : Nat) : Nat :=
  if i = 0 then 0xFFFF07FF
  else if 80 ≤ r then (if i = 9 then 0x7F else 0xFFFFFFFF)
  else if i = 1 then 0x007F000F else if i = 4 then 0x00FFFFFF else 0xFFFFFFFF

/-- A write of word `i`: to the holding copy while the restore window is open, otherwise refused (R458, R459). -/
def State.calWrite (s : State) (r i v : Nat) : State :=
  if s.bit Reg.EMG_STATUS 11 then
    let x := s.recv r
    s.setRecv r { x with held := assocSet x.held i (v &&& calMask r i) }
  else s.when (decide (v &&& calMask r i ≠ (s.windowNow r).getD i 0 &&& calMask r i)) fun s => s.refuse (calAddr r i)

/-! ## Restoring (R71, R72, R459) -/

def signedOf (n x : Nat) : Int := if x < 2 ^ (n - 1) then x else (x : Int) - (2 ^ n : Nat)

/-- The setting that the words of a window spell. -/
def wordsSetting (r : Nat) (ws : List Nat) : List Int :=
  let byte := fun (i k : Nat) => ws.getD i 0 / 256 ^ k % 256
  let u := fun (i k : Nat) => ((byte i k : Nat) : Int)
  let w := fun (i k : Nat) => signedOf 8 (byte i k)
  if 80 ≤ r then
    (List.range 8).flatMap (fun q => [u (q + 1) 3, u (q + 1) 2, w (q + 1) 1, w (q + 1) 0]) ++
      [((byte 9 0 % 128 : Nat) : Int)]
  else [((byte 1 0 % 16 : Nat) : Int), ((byte 1 2 % 128 : Nat) : Int)] ++
    (List.range 8).map (fun k => w (2 + k / 4) (k % 4)) ++ (List.range 3).map fun k => w 4 k

/-- Every parameter the receiver has lies in its range. -/
def inRanges (r : Nat) (v : List Int) : Bool :=
  (List.range v.length).all fun i => match paramRange r i with
    | none => true
    | some (lo, hi) => decide (lo ≤ v.getD i 0) && decide (v.getD i 0 ≤ hi)

/-- The setting that the holding copy of receiver `r` gives: none where a word of it is missing, or its signature, its context
or a range does not hold (R71). -/
def State.heldSetting (s : State) (r : Nat) : Option (List Int) :=
  let held := (s.recv r).held
  let whole := (List.range (sigIndex r + 1)).filterMap fun i => (held.find? fun e => e.1 == i).map (·.2)
  let body := whole.take (sigIndex r)
  let v := wordsSetting r body
  if whole.length = sigIndex r + 1 ∧ whole.getD (sigIndex r) 0 = calSignature body ∧ body.getD 0 0 = s.calCtx r ∧
      inRanges r v then some v
  else none

/-- The restore window closes: the holding copy of a receiver is accepted or refused. -/
def State.restoreJudge (s : State) (r : Nat) : State :=
  let x := s.recv r
  match s.heldSetting r with
  | some v => s.setRecv r { x with held := [], accepted := some v }
  | none => (s.setRecv r { x with held := [] }).setBit (calStat r) 29 true

/-- Close the restore window (R71). -/
def State.closeRestore (s : State) : State :=
  if !s.bit Reg.EMG_STATUS 11 then s
  else (s.setBit Reg.EMG_STATUS 11 false).each allRecvs fun r s => s.restoreJudge r

/-- The restored values of a receiver passed R72, or did not: it then trains from its seed. -/
def State.restorePassed (s : State) (r : Nat) (ok : Bool) : State :=
  let x := s.recv r
  if ok then (s.setRecv r { x with accepted := none }).setBit (calStat r) 30 true
  else (s.setRecv r { Recv.start (s.seedOf r) with cycles := x.cycles }).setBit (calStat r) 29 true

/-- At the start of E5 every lane starts from its accepted copy or its seed (R72, R451). -/
def State.startLanes (s : State) : State :=
  s.each (allRecvs.filter fun r => !isMem r) fun r s =>
    let x := s.recv r
    let v := x.accepted.getD (s.seedOf r)
    s.setRecv r { Recv.start v with accepted := x.accepted }

/-- A lane with restored values must reach a FOM of 96 within 10 ms of the start of E5 (R72). -/
def State.verifyLane (s : State) (r fom : Nat) : State :=
  match (s.recv r).accepted with
  | none => s
  | some _ =>
    if recvFamily r = 3 then s
    else if s.usE0 ≤ s.rdN (Reg.EMG_T_E 5) + 10000 then s.when (decide (96 ≤ fom)) fun s => s.restorePassed r true
    else s.restorePassed r false

/-! ## Commands -/

/-- Does a receiver adapt: a locked lane, or a working memory channel out of self-refresh (R453, R455)? -/
def State.adapts (s : State) (r : Nat) : Bool :=
  let d := recvDie r
  let k := recvIndex r
  if 80 ≤ r then
    (let st := s.fld (Reg.MCC_STATUS d (k / 4) (k % 4)) 2 0
     (st == 2 || st == 3) && !s.bit (Reg.MC_STATUS d (k / 4)) 31)
  else s.bit (Reg.LN_STATUS d k) 31

/-- R453: a cycle of adaptation of receiver `r`. -/
def execAdaptationCycle (dt : Nat) (r : Fin 144) (st : AdaptStats) (s : State) : Host.Outcome State Fault Refusal :=
  let s := s.elapse dt
  if !recvExists r || !s.adapts r then done s else done (s.adapt r st)

/-- R454: the commit point of a lane. -/
def execCalibrationCommit (dt : Nat) (d : Fin 8) (n : Fin 10) (s : State) : Host.Outcome State Fault Refusal :=
  let s := s.elapse dt
  if !recvExists (laneId d n) then done s else done (s.commitRecv (laneId d n))

/-- R459: a write of word `i` of a receiver's window. -/
def execCalWindowWrite (dt : Nat) (r : Fin 144) (i : Fin 11) (v : Word) (s : State) : Host.Outcome State Fault Refusal :=
  let s := s.elapse dt
  if sigIndex r < i.val ∨ !recvExists r then done s else done (s.calWrite r i v.toNat)

end Sys2Proof.Machine
end

