-- ==== Sys2Proof/Machine/MemBase.lean ====
section
/-! DEFINITION. Picture memory: the address map, the controllers' queues and their service, retraining, the pool space (R222,
R427 to R448). Controller `m` of die `d` has the number 2 d + m, its channel `c` the number 8 d + 4 m + c. -/

namespace Sys2Proof.Machine

/-! ## Access -/

def State.mctl (s : State) (i : Nat) : MCtl := s.pic.ctls.getD i MCtl.reset

def State.modMctl (s : State) (i : Nat) (f : MCtl → MCtl) : State :=
  { s with pic := { s.pic with ctls := s.pic.ctls.modify i f } }

def State.mchan (s : State) (i : Nat) : MChan := s.pic.chans.getD i MChan.reset

def State.modMchan (s : State) (i : Nat) (f : MChan → MChan) : State :=
  { s with pic := { s.pic with chans := s.pic.chans.modify i f } }

def State.mdie (s : State) (d : Nat) : MDie := s.pic.dies.getD d MDie.reset

def State.modMdie (s : State) (d : Nat) (f : MDie → MDie) : State :=
  { s with pic := { s.pic with dies := s.pic.dies.modify d f } }

/-- MCC_STATUS of channel `k` (4 × controller + channel) of a die, and its state (R446). -/
def mccStatus (d k : Nat) : Nat := Reg.MCC_STATUS d (k / 4) (k % 4)

def State.mcState (s : State) (d k : Nat) : Nat := s.fld (mccStatus d k) 2 0

/-- The memory event's place bits (R450). -/
def mcPlace (k : Nat) : Nat := 4096 * (k / 4) + 256 * (k % 4)

/-- A channel changes state: the event, and the sets of MC_STATUS (R446, R449, R450). -/
def State.setMc (s : State) (d k st : Nat) : State :=
  if s.mcState d k = st then s
  else
    let s := (s.setFld (mccStatus d k) 2 0 st).raise (64 + 64 * d + 16) (mcPlace k + st)
    let s := s.setBit (Reg.MC_STATUS d (k / 4)) (8 + k % 4) (decide (st = 4))
    s.setBit (Reg.MC_STATUS d (k / 4)) (k % 4) (decide (st = 3))

/-- A working channel: GOOD or MARGINAL. -/
def State.mcWorks (s : State) (d k : Nat) : Bool := s.mcState d k == 2 || s.mcState d k == 3

/-! ## The address map (R429, R430) -/

/-- Channels of the die that are not FAILED, in order. -/
def State.mcList (s : State) (d : Nat) : List Nat := (List.range 8).filter fun k => decide (s.mcState d k ≠ 4)

/-- Usable bytes of a channel: 720 or 960 MiB; two devices of different density count at the lower one (R428, R429). -/
def State.chanBytes (s : State) (d : Nat) : Nat :=
  let a := s.fld (Reg.MC_STATUS d 0) 17 16
  let b := s.fld (Reg.MC_STATUS d 1) 17 16
  if (a = 1 ∨ a = 2) ∧ (b = 1 ∨ b = 2) then (if a = 2 ∧ b = 2 then 1006632960 else 754974720)
  else if a = 2 ∨ b = 2 then 1006632960 else if a = 1 ∨ b = 1 then 754974720 else 0

/-- Usable bytes of a die. -/
def State.dieBytes (s : State) (d : Nat) : Nat := (s.mcList d).length * s.chanBytes d

/-- Channel and byte within it of byte `a` of the die's address space: granules of 128 B in turn (R430). -/
def State.mcPlaceOf (s : State) (d a : Nat) : Nat × Nat :=
  let w := s.mcList d
  let g := a / 128
  (w.getD (g % w.length) 0, g / w.length * 128 + a % 128)

/-- Row of a byte of a channel: 15 granules (R430). -/
def rowOf (a : Nat) : Nat := a / 128 / 15

/-- Pool space of a die (R222, R447). -/
def State.showPool (s : State) (d : Nat) : State :=
  let n := (s.mcList d).length
  s.wr64 (Reg.DIE_POOL_SPACE_LO d) (if n = 0 then 0 else s.dieBytes d - 268435456)

/-- The fill of R441 runs on the die, or its memory is not yet ready: nothing is placed on it (R447). -/
def State.memReady (s : State) (d : Nat) : Bool :=
  decide ((s.mctl (2 * d)).phase = MPhase.ready) && decide ((s.mctl (2 * d + 1)).phase = MPhase.ready)

/-! ## Poison (R431, R432) -/

def insertNat (x : Nat) : List Nat → List Nat
  | [] => [x]
  | y :: ys => if x < y then x :: y :: ys else if x = y then y :: ys else y :: insertNat x ys

/-- MC_POISONED in step. -/
def State.countPoison (s : State) (d m : Nat) : State :=
  s.wrN (Reg.MC_POISONED d m) ((List.range 4).foldl (fun a c => a + (s.mchan (8 * d + 4 * m + c)).poison.length) 0)

def State.poisonBlock (s : State) (d k blk : Nat) (on : Bool) : State :=
  (s.modMchan (8 * d + k) fun x => { x with poison := (if on then insertNat blk x.poison else x.poison.erase blk) }).countPoison
    d (k / 4)

/-! ## Live errors (R442, R445) -/

/-- Corrected errors and CRC retries of a channel within the last second, scrub's among them (R448). -/
def State.liveErrs (s : State) (d k : Nat) : Nat :=
  ((s.mchan (8 * d + k)).errs.filter fun e => decide ((s.ns : Int) < e.1 + 1000000000)).foldl (fun a e => a + e.2) 0

def State.addErrs (s : State) (d k n : Nat) : State :=
  if n = 0 then s
  else
    let t : Int := s.ns
    s.modMchan (8 * d + k) fun x => { x with errs := (t, n) :: x.errs.filter fun e => decide (t < e.1 + 1000000000) }

/-! ## Retraining triggers (R442) -/

/-- A retraining of channel `k` of the die becomes pending; in self-refresh it waits for the exit (R438, R442). -/
def State.wantTraining (s : State) (d k : Nat) : State :=
  if !s.mcWorks d k || s.bit (mccStatus d k) 9 || s.bit (mccStatus d k) 8 then s
  else if s.bit (Reg.MC_STATUS d (k / 4)) 31 then s.modMchan (8 * d + k) fun x => { x with later := true }
  else s.setBit (mccStatus d k) 9 true

/-- Time that a die has spent in self-refresh since its last scrub pass (R438). -/
def State.srSpent (s : State) (d : Nat) : Int := (s.mdie d).srTime + ((s.mdie d).srAt.map fun t => s.now - t).getD 0

/-- The die leaves self-refresh (R438). -/
def State.wake (s : State) (d : Nat) : State :=
  if !s.bit (Reg.MC_STATUS d 0) 31 then s
  else
    let spent := s.srSpent d
    let s := s.modMdie d fun x => { x with srAt := none, srTime := spent }
    let s := (s.setBit (Reg.MC_STATUS d 0) 31 false).setBit (Reg.MC_STATUS d 1) 31 false
    s.each (List.range 8) fun k s => s.when (s.mchan (8 * d + k)).later fun s =>
      (s.modMchan (8 * d + k) fun x => { x with later := false }).wantTraining d k

/-! ## Requests (R433 to R436) -/

/-- Latency target of a port in ns (R433). -/
def portTarget (p : Nat) : Nat := [2000, 4000, 800, 4000, 2000, 4000, 10000, 50000].getD p 50000

/-- Urgency of a request by its age (R434). -/
def State.urgency (s : State) (r : MReq) : Nat :=
  let age := s.ns - r.at_
  let t := portTarget r.port
  if t ≤ age then 3 else if 3 * t ≤ 4 * age then 2 else if t ≤ 2 * age then 1 else 0

/-- Do two requests touch one 32 B granule? -/
def sameGranule (a b : MReq) : Bool :=
  decide (a.addr / 32 ≤ (b.addr + b.len - 1) / 32) && decide (b.addr / 32 ≤ (a.addr + a.len - 1) / 32)

/-- Do the bytes of two requests overlap? -/
def overlaps (a b : MReq) : Bool := decide (a.addr < b.addr + b.len) && decide (b.addr < a.addr + a.len)

/-- The bytes of a request with their addresses. -/
def MReq.cells (r : MReq) : List (Nat × Byte) := r.data.mapIdx fun i b => (r.addr + i, b)

/-- What queued writes already hold of the bytes of a read. -/
def forwarded (ws : List MReq) (r : MReq) : List (Nat × Byte) :=
  let cells := (ws.filter fun w => overlaps w r).flatMap MReq.cells
  (List.range r.len).filterMap fun i => (cells.filter fun c => c.1 == r.addr + i).getLast?

/-- MCP counters at the completion of a request (R434). -/
def State.completed (s : State) (d m : Nat) (r : MReq) : State :=
  let lat := s.ns - r.at_
  let s := (s.bump (Reg.MCP_REQ d m r.port)).maxN (Reg.MCP_LAT_MAX d m r.port) (min lat 4294967295)
  s.when (decide (portTarget r.port < lat)) fun s => s.bump (Reg.MCP_LAT_MISS d m r.port)

def sameBytes (r w : MReq) : Bool := decide (w.addr = r.addr ∧ w.len = r.len)

/-- The queue with the write `r` in the place of the one to the same bytes; after the last write that shares a granule with it, so that
the order of those stays the order of their acceptance (R436). -/
def replaced : List MReq → MReq → List MReq
  | [], r => [r]
  | w :: ws, r =>
    if sameBytes r w then
      (if ws.any (sameGranule r) then ws ++ [r] else { r with at_ := w.at_ } :: ws)
    else w :: replaced ws r

/-- The requests of a queue that no earlier one of it to the same granule holds back (R436). -/
def inOrderOf : List MReq → List MReq → List MReq
  | _, [] => []
  | seen, r :: l => if seen.any (sameGranule r) then inOrderOf (seen ++ [r]) l else r :: inOrderOf (seen ++ [r]) l

/-- Accept a request where its queue has room: a write completes with that and takes the place of a queued one to the same
bytes (R433, R436). -/
def State.accept1 (s : State) (d m : Nat) (r : MReq) : Option State :=
  let i := 2 * d + m
  let x := s.mctl i
  let now := s.ns
  if r.write then
    let r := { r with at_ := now }
    if x.writes.any (sameBytes r) then
      some ((s.modMctl i fun x => { x with writes := replaced x.writes r }).completed d m r)
    else if 96 ≤ x.writes.length then none
    else some ((s.modMctl i fun x => { x with writes := x.writes ++ [r] }).completed d m r)
  else if 192 ≤ x.reads.length then none
  else some (s.modMctl i fun x => { x with reads := x.reads ++ [{ r with at_ := now, fwd := forwarded x.writes r }] })

/-- Accept what waits at the ports, oldest first. -/
def State.acceptWaits (d m : Nat) : Nat → State → State
  | 0, s => s
  | fuel + 1, s =>
    let ws := (s.mctl (2 * d + m)).waits
    match (List.range ws.length).findSome? (fun j => (ws[j]?).bind fun r => (s.accept1 d m r).map fun t => (j, t)) with
    | none => s
    | some (j, t) => State.acceptWaits d m fuel (t.modMctl (2 * d + m) fun x => { x with waits := x.waits.eraseIdx j })

/-! ## Choosing the next access (R435) -/

/-- Channel of a request. -/
def State.chanOf (s : State) (d : Nat) (r : MReq) : Nat := (s.mcPlaceOf d r.addr).1

/-- M7 takes part only when no other port waits in its direction, unless it has reached urgency 3. -/
def State.takesPart (s : State) (l : List MReq) (r : MReq) : Bool :=
  r.port != 7 || s.urgency r == 3 || l.all fun q => q.port == 7

/-- Start and end of a write drain (R435). -/
def State.drainStep (s : State) (d m : Nat) : State :=
  let i := 2 * d + m
  let x := s.mctl i
  let late := x.writes.any fun w => s.urgency w == 3
  if x.drain then s.modMctl i fun x => { x with drain := !(decide (x.writes.length ≤ 16) && !late) }
  else if 64 ≤ x.writes.length ∨ late then (s.modMctl i fun x => { x with drain := true }).bump (Reg.MC_WDRAIN d m)
  else s

/-- The read that goes first: highest urgency, then an open row, then the oldest (R435). -/
def State.bestRead (s : State) (d : Nat) (rows : List Nat) (l : List MReq) : Option MReq :=
  l.foldl (fun b r => match b with
    | none => some r
    | some q =>
      let o := fun (x : MReq) => rows.contains (rowOf (s.mcPlaceOf d x.addr).2)
      if s.urgency q < s.urgency r || (s.urgency q == s.urgency r && o r && !o q) then some r else b) none

/-- The next access of channel `k` (4 m + c). -/
def State.nextAccess (s : State) (d k : Nat) (rows : List Nat) : Option MReq :=
  let x := s.mctl (2 * d + k / 4)
  let mine := fun (l : List MReq) => l.filter fun r => s.chanOf d r == k
  let reads := mine x.reads
  let writes := (mine x.writes).filter fun w => !(reads.any fun r => sameGranule r w && decide (r.at_ ≤ w.at_))
  let first := inOrderOf [] reads
  let writes := writes.filter (inOrderOf [] (mine x.writes)).contains
  let rs := first.filter (s.takesPart reads)
  let ws := writes.filter (s.takesPart writes)
  let plain := (s.bestRead d rows rs).orElse fun _ => ws.head?
  if x.drain then
    ((writes.find? fun w => s.urgency w == 3).orElse fun _ => s.bestRead d rows (rs.filter fun r => s.urgency r == 3)).orElse
      fun _ => ws.head?.orElse fun _ => plain
  else plain

/-- Start the next access of a channel that is free to. -/
def State.startAccess (s : State) (d k : Nat) (rows : List Nat) : State :=
  let i := 2 * d + k / 4
  if (s.mchan (8 * d + k)).cur.isSome || (s.mctl i).slicing == some (k % 4) || !s.mcWorks d k ||
      s.bit (Reg.MC_STATUS d (k / 4)) 31 then s
  else
    let s := s.drainStep d (k / 4)
    match s.nextAccess d k rows with
    | none => s
    | some r =>
      let s := s.modMctl i fun x => { x with reads := x.reads.erase r, writes := x.writes.erase r }
      (s.modMchan (8 * d + k) fun x => { x with cur := some r }).drainStep d (k / 4)

/-- Start what can start on every channel of a controller. -/
def State.startAll (s : State) (d m : Nat) : State :=
  s.each (List.range 4) fun c s => s.startAccess d (4 * m + c) []

/-! ## Controllers and dies out of use -/

/-- The die's memory is out of use: its queues are gone (R447, a retired die). -/
def State.memStop (s : State) (d : Nat) (p : MPhase) : State :=
  let s := s.modMdie d fun x => { x with srAt := none }
  let s := s.each [0, 1] fun m s => s.modMctl (2 * d + m) fun x =>
    { MCtl.reset with phase := p, turn := x.turn, last := x.last, fill := x.fill }
  let s := s.each (List.range 8) fun k s => s.modMchan (8 * d + k) fun x => { x with cur := none }
  (s.setBit (Reg.MC_STATUS d 0) 31 false).setBit (Reg.MC_STATUS d 1) 31 false

end Sys2Proof.Machine
end

