-- ==== Sys2Proof/Machine/Channel.lean ====
section
/-! DEFINITION. Channel contexts: access, failure records (R78, R423). -/

namespace Sys2Proof.Machine

def State.chan (s : State) (n : Nat) : Chan := s.chans.getD n Chan.reset

def State.modChan (s : State) (n : Nat) (f : Chan → Chan) : State := { s with chans := s.chans.modify n f }

/-- The 32 bytes of a failure record (R423). -/
def failureBytes (n action cause level element first bands idx time info : Nat) : List Byte :=
  let b := [BitVec.ofNat 8 (n % 128), BitVec.ofNat 8 action, BitVec.ofNat 8 cause, BitVec.ofNat 8 level] ++
    leBytes 2 element ++ [BitVec.ofNat 8 first, BitVec.ofNat 8 (min bands 255)] ++ leBytes 8 idx ++ leBytes 8 time ++
    leBytes 4 (info % 1048576)
  b ++ leBytes 4 (crc32 b)

/-- Write one failure record of channel `n`: kept among the newest 64, counted, raised (R78, R423). -/
def State.writeFailure (s : State) (n action cause level element first bands idx info : Nat) : State :=
  let s := s.modChan n fun c => { c with records :=
    (failureBytes n action cause level element first bands idx s.ns info :: c.records).take 64 }
  let s := (s.wrN (Reg.CHN_FR_COUNT n) (s.chan n).records.length).bump (Reg.CHN_FR_TOTAL n)
  s.raise (576 + 4 * n + 1) 0

end Sys2Proof.Machine
end

