-- ==== Sys2Proof/Machine/Trace.lean ====
section
/-! DEFINITION. The trace of dispatch, and the end of descriptors and of waiting allocations (R255, R260, R269, R271 to R273). -/

namespace Sys2Proof.Machine

/-- Is a happening of channel `n` at stage `stage` traced on die `d`? -/
def State.traced (s : State) (d kind n stage : Nat) : Bool :=
  decide (s.fld (Reg.TRC_CTRL d) 9 8 ≠ 0) && s.bit (Reg.TRC_CTRL d) (16 + kind) &&
  (!s.bit (Reg.TRC_FILTER d) 31 || decide (s.fld (Reg.TRC_FILTER d) 30 24 = n)) &&
  (decide (s.fld (Reg.TRC_FILTER d) 15 8 = 0) || s.bit (Reg.TRC_FILTER d) (8 + stage)) && !s.bit (Reg.TRC_HEAD d) 16

/-- Queue ID (R255); the slot is the index modulo 16 (R256). -/
def qid (n idx band stage : Nat) : Nat := ((n % 128 * 16 + idx % 16) * 64 + band % 64) * 8 + stage % 8

/-- One trace entry in the ring of die `d` (R272); with MODE 2 the ring stops at its end. The staging buffer holds the 64 entries of
one instant and is empty at the next; an entry that finds it full is dropped and counted, and takes a number of SEQ, whose gap shows it
(R273). DESIGN CHOICE (log 36): the spec does not say how fast staging drains. -/
def State.trace (s : State) (d kind n idx band stage attempt eng no info : Nat) : State :=
  if !s.traced d kind n stage then s
  else
    let x := s.sch.staged.getD d (0, 0)
    let count := if x.1 = s.now then x.2 else 0
    let seq := s.sch.traceSeq.getD d 0
    let s := { s with sch := { s.sch with
      traceSeq := s.sch.traceSeq.set d (seq + 1), staged := s.sch.staged.set d (s.now, count + 1) } }
    if 64 ≤ count then s.bump (Reg.TRC_DROP d)
    else
      let h := s.fld (Reg.TRC_HEAD d) 15 0
      let s := s.wrN (Reg.TRACE d h 0) s.phaseTime
      let s := s.wrN (Reg.TRACE d h 1) (kind * 268435456 + qid n idx band stage)
      let s := s.wrN (Reg.TRACE d h 2) (attempt % 4 * 268435456 + eng % 1024 * 262144 + no % 262144)
      let s := s.wrN (Reg.TRACE d h 3) (seq % 65536 * 65536 + min info 65535)
      let s := s.setFld (Reg.TRC_HEAD d) 15 0 ((h + 1) % 65536)
      s.when (decide (h = 65535) && decide (s.fld (Reg.TRC_CTRL d) 9 8 = 2)) fun s => s.setBit (Reg.TRC_HEAD d) 16 true

/-- The descriptor is freed (R260). -/
def State.freeDesc (s : State) (d : Desc) : State :=
  let s := { s with sch := { s.sch with descs := s.sch.descs.filter fun x => !(x.die == d.die && x.no == d.no) } }
  s.trace d.die 9 d.chan d.idx d.band d.stage d.attempt d.engine (32768 * d.die + d.no) 0

/-- Free every descriptor that satisfies `p`. -/
def State.freeDescs (s : State) (p : Desc → Bool) : State := s.each (s.sch.descs.filter p) fun d s => s.freeDesc d

/-- Every waiting allocation that satisfies `p` ends: the channel keeps from when to when it waited (R269, R272). -/
def State.endAllocs (s : State) (p : AllocWait → Bool) : State :=
  let s := s.each (s.sch.waits.filter p) fun w s =>
    (s.modChan w.chan fun c => { c with presses := c.presses ++ [(w.since, s.now)] }).trace w.die 6 w.chan w.idx w.band 0 0 1023 262143 w.why
  { s with sch := { s.sch with waits := s.sch.waits.filter fun w => !p w } }

end Sys2Proof.Machine
end

