-- ==== Sys2Proof/Machine/TwinBase.lean ====
section
/-! DEFINITION. What other families use of the pair: confirmation, the Lantern queue, snapshot state, the lease paths
(R344 to R347, R353, R358, R396 to R400). -/

namespace Sys2Proof.Machine

/-! ## Confirmation (R346) -/

def State.confirmed (s : State) (n : Nat) : Bool := s.bit (Reg.TWN_CONF (n / 32)) (n % 32)

def State.setConf (s : State) (n : Nat) (b : Bool) : State := s.setBit (Reg.TWN_CONF (n / 32)) (n % 32) b

def State.isStandby (s : State) : Bool := decide (s.twin.role = Role.standby)

/-- Lanes of the stripe set: the number of 1 bits. -/
def lanesOf (mask : Nat) : Nat := ((List.range 8).filter fun k => mask / 2 ^ k % 2 == 1).length

def State.stripe (s : State) : Nat := s.fld Reg.LNK_STATUS 31 24

/-! ## Sending on the Lantern link (R396 to R398) -/

/-- TYPE of a message (R397). -/
def bodyType : LBody → Nat
  | .record .. => 1
  | .band .. => 2
  | .gap .. => 3
  | .liveWrite .. => 4
  | .splice .. => 5
  | .dim .. => 6
  | .inputDigest .. => 7
  | .outputDigest .. => 8
  | .muxDigest .. => 8
  | .cursors .. => 9
  | .failure .. => 10
  | .snapshot .. => 11
  | .snapRequest .. => 12
  | .joinItem .. => 12
  | .seconds .. => 12
  | .liveImage .. => 13

/-- Priority of a frame type; the smallest goes first (R397). -/
def typePriority (t : Nat) : Nat :=
  if t = 9 then 0 else if t ∈ [1, 2, 3, 4, 5, 12] then 1 else if t = 11 then 3 else 2

/-- May a frame of this body go on a stripe set of this many lanes (R400)? -/
def bodyAllowed (lanes : Nat) (b : LBody) : Bool :=
  decide (2 ≤ lanes) || (decide (lanes = 1) && (match b with
    | .snapshot .. => false
    | .snapRequest .. => false
    | .joinItem .. => false
    | _ => true))

/-- Send one frame: sequenced and kept until acknowledged, but for cursor frames (R398). -/
def State.emitFrame (s : State) (b : LBody) : State :=
  if bodyType b = 9 then (s.bump Reg.LNK_TX_FRAMES).send (.lantern s.stripe ⟨0, false, b⟩)
  else
    let f : LFrame := ⟨s.link.txSeq, false, b⟩
    let u : Unacked := ⟨f, s.ns⟩
    let s := { s with link := { s.link with txSeq := (s.link.txSeq + 1) % 65536, unacked := s.link.unacked ++ [u] } }
    (s.bump Reg.LNK_TX_FRAMES).send (.lantern s.stripe f)

/-- The oldest queued message of the lowest priority number that the stripe set allows (R397, R400). -/
def pickBody (lanes : Nat) (q : List LBody) : Option LBody :=
  (List.range 4).findSome? fun p => q.find? fun b => decide (typePriority (bodyType b) = p) && bodyAllowed lanes b

/-- Drain the queue while a frame may be sent: at most 256 unacknowledged (R398). -/
def State.pumpLantern : Nat → State → State
  | 0, s => s
  | fuel + 1, s =>
    match pickBody (lanesOf s.stripe) s.link.queue with
    | none => s
    | some b =>
      if bodyType b ≠ 9 ∧ 256 ≤ s.link.unacked.length then s
      else State.pumpLantern fuel
        (({ s with link := { s.link with queue := s.link.queue.erase b } }).emitFrame b)

/-- Queue a message for the partner and send what may go. An unpaired unit sends none, and mirroring stops while the link
is down (R374). -/
def State.lanternSend (s : State) (b : LBody) : State :=
  if !s.paired || !s.link.up then s
  else
    let s := { s with link := { s.link with queue := s.link.queue ++ [b] } }
    State.pumpLantern s.link.queue.length s

/-- A live write is mirrored by the holder at its completion (R345), with the channel and the index of its next control step
(R98); 127 for a register of no channel. -/
def State.mirrorWrite (s : State) (a v : Nat) : State :=
  let n := if 0x100000 ≤ a ∧ a < 0x160000 then (a - 0x100000) / 0x1000 else 127
  s.when (s.paired && s.holding) fun s =>
    s.lanternSend (.liveWrite a v n (if n < 96 then ((s.chans[n]?).map (·.next)).getD 0 else 0))

/-! ## Confirmation changes and snapshot requests -/

/-- What the channel had under way falls away: while it is caught up it codes nothing (R371). The slate's buffers stay. -/
def State.dropWork (s : State) (n : Nat) : State :=
  let drop := fun (b : Buf) => (if b.items = [] then b else { b with mark := .free, items := [], poisoned := false })
  let s := (s.freeDescs fun d => d.chan == n).endAllocs fun w => w.chan == n
  s.modChan n fun c => { c with items := [], caught := [], pool := c.pool.map drop, catchTo := none, await := none }

/-- A join is under way: the copy or the decoder has not reached the join item, or the join state has not come. -/
def Chan.joinOpen (c : Chan) : Bool :=
  match c.snap with
  | .catching => true
  | .joining _ => true
  | .joined => c.await.isSome || c.catchTo.any fun x => decide (x.1 + 1 < x.2)
  | _ => false

/-- A join under way ends unfinished, and the items begun for it with it (R373). -/
def State.endJoin (s : State) (n : Nat) : State := if (s.chan n).joinOpen then s.dropWork n else s

/-- Ask the holder for a snapshot of channel `n` (R347, R371). -/
def State.requestSnapshot (s : State) (n : Nat) : State :=
  ((s.endJoin n).modChan n fun c => { c with snap := .requested (decide (2 ≤ lanesOf s.stripe)) }).lanternSend (.snapRequest n)

/-- A channel becomes unconfirmed (R346); with AUTO_RESYNC and two lanes up the standby asks for a snapshot (R347),
once the register image that follows a lost link has come (R375). -/
def State.unconfirm (s : State) (n : Nat) : State :=
  let was := s.confirmed n
  let s := (s.modChan n fun c => { c with confirmRun := 0 }).setConf n false
  let s := s.when (s.chanState n == 5) fun s => s.setBit (Reg.CHN_STATE n) 12 true
  let s := s.when was fun s => s.raise 962 (n * 16777216 + 4294967296 * s.epoch)
  s.when (s.isStandby && s.bit Reg.TWN_CTRL 30 && decide (2 ≤ lanesOf s.stripe) && s.chanState n == 5 &&
      !s.link.imageDue && decide ((s.chan n).snap = Snap.none ∨ (s.chan n).snap = Snap.joined)) fun s => s.requestSnapshot n

/-- A channel becomes confirmed (R346). -/
def State.confirm (s : State) (n : Nat) : State :=
  ((s.setConf n true).setBit (Reg.CHN_STATE n) 12 false).raise 962 (n * 16777216 + 1 + 4294967296 * s.epoch)

/-- Channels the standby codes in SHADOW. -/
def State.shadowChans (s : State) : List Nat := allChans.filter fun n => s.chanState n == 5

/-- The standby is confirmed (R346): every channel in SHADOW confirmed, no snapshot running. -/
def State.standbyConfirmed (s : State) : Bool :=
  s.shadowChans.all (fun n => s.confirmed n) &&
  allChans.all fun n => decide ((s.chan n).snap = Snap.none) || decide ((s.chan n).snap = Snap.joined)

/-- Channels not yet joined (R380, TWN_JOINING). -/
def State.joiningCount (s : State) : Nat :=
  (allChans.filter fun n => decide ((s.chan n).snap ≠ Snap.none) && decide ((s.chan n).snap ≠ Snap.joined)).length

/-! ## Lease paths (R353) -/

/-- A path is not silent: a renewal within 18 µs. -/
def State.pathAlive (s : State) (p : Nat) : Bool :=
  match s.twin.renewAt.getD p none with
  | none => false
  | some t => decide ((s.ns : Int) < t + 18000)

/-- A valid word from the partner within 18 µs on some path (R342, R380). -/
def State.partnerSeen (s : State) : Bool :=
  s.twin.validAt.any fun v => match v with
    | none => false
    | some t => decide ((s.ns : Int) < t + 18000)

/-- The partner is confirmed, as the holder knows it from its STANDBY words (R350, R366). -/
def State.partnerConfirmed (s : State) : Bool := s.partnerSeen && decide (s.twin.partnerStatus / 8 % 2 = 1)

/-- State of the standby as this unit knows it (R380, TWN_STATUS.SYNC). -/
def State.syncState (s : State) : Nat :=
  match s.twin.role with
  | .unpaired => 0
  | .alone => 0
  | .holder =>
    if !s.partnerSeen then 0 else if 0 < s.joiningCount then 1 else if s.twin.partnerStatus / 4 % 2 = 1 then 5
    else if s.twin.partnerStatus / 8 % 2 = 1 then 4 else 2
  | .standby =>
    if 0 < s.joiningCount then 1
    else if !s.standbyConfirmed then 2
    else if s.twin.ready then 5
    else if s.twin.holdoffFrom.isSome || s.twin.refreshFrom.isSome then 3 else 4

/-- Bring TWN_STATUS and TWN_JOINING in step; a change of the paths raises source 961 (R380, R381). -/
def State.twinStatus (s : State) : State :=
  let paths := b2n (s.pathAlive 0) + 2 * b2n (s.pathAlive 1) + 4 * b2n (s.pathAlive 2)
  let was := s.fld Reg.TWN_STATUS 18 16
  let s := s.setFld Reg.TWN_STATUS 18 16 paths
  let s := s.when (decide (was ≠ paths)) fun s => s.raise 961 (paths + 4294967296 * s.epoch)
  let s := s.setBit Reg.TWN_STATUS 30 s.partnerSeen
  let s := s.setFld Reg.TWN_STATUS 26 24 s.syncState
  s.wrN Reg.TWN_JOINING s.joiningCount

end Sys2Proof.Machine
end

