-- ==== Sys2Proof/Machine/Capacity.lean ====
section
/-! DEFINITION. Cost, admission, placement, dimming, displacement and shedding (R75, R83 to R96, R123, R220 to R222,
R235, R261). -/

namespace Sys2Proof.Machine

/-! ## Formats and costs -/

/-- Pictures per second, as a multiple of 1/1001 (R75). -/
def rate1001 (code : Nat) : Nat :=
  [24000, 24024, 25025, 30000, 30030, 48048, 50050, 60000, 60060, 100100, 120000, 120120].getD code 0

def State.chW (s : State) (n : Nat) : Nat := 8 * s.fld (Reg.CHN_FORMAT n) 9 0
def State.chH (s : State) (n : Nat) : Nat := 8 * s.fld (Reg.CHN_FORMAT n) 19 10
def State.chRate (s : State) (n : Nat) : Nat := rate1001 (s.fld (Reg.CHN_FORMAT n) 23 20)
def State.chKind (s : State) (n : Nat) : Nat := s.fld (Reg.CHN_CTRL n) 5 4
def State.chSource (s : State) (n : Nat) : Nat := s.fld (Reg.CHN_CTRL n) 14 8
/-- The context whose input binding serves channel `n` (R79). -/
def State.inputOf (s : State) (n : Nat) : Nat := if s.chKind n = 2 then s.chSource n else n
def State.bands (s : State) (n : Nat) : Nat := ceilDiv (s.chH n) 128

/-- Twice (1 + c): 4:2:0, 4:2:2, 4:4:4 (R87). -/
def chroma2 (code : Nat) : Nat := [3, 4, 6].getD code 3

def chromaFactor (code : Nat) : Nat := [100, 125, 160].getD code 100
def effortFactor (e : Nat) : Nat := [50, 60, 72, 85, 100, 118, 138, 160].getD e 160

/-- Cost in 0.01 taper at effort `e`, rounded up (R83). -/
def State.costAt (s : State) (n e : Nat) : Nat :=
  let f := Reg.CHN_FORMAT n
  let codec := if s.bit (Reg.CHN_CODEC n) 0 then 70 else 100
  let look := if s.fld (Reg.CHN_LOOKAHEAD n) 3 0 = 0 then 100 else 103
  ceilDiv (s.chW n * s.chH n * s.chRate n * chromaFactor (s.fld f 25 24) * effortFactor e * codec * look)
    (1001 * 1000000 * 1000000)

/-- Effort under dim level `k` (R178). -/
def dimCap (admitted k : Nat) : Nat := if 4 ≤ k then 0 else admitted - k

def State.effortAt (s : State) (n k : Nat) : Nat :=
  let adm := s.fld (Reg.CHN_EFFORT n) 18 16
  min (s.fld (Reg.CHN_EFFORT n) 2 0) (min adm (dimCap adm k))

/-- Luma rate of the coded format, in samples/s × 1001. -/
def State.luma (s : State) (n : Nat) : Nat := s.chW n * s.chH n * s.chRate n

/-- Luma rate of the input (R85, R123), in samples/s × 1001. -/
def State.lumaIn (s : State) (n : Nat) : Nat :=
  let m := s.inputOf n
  s.fld (Reg.CHN_IN_SIZE m) 28 16 * s.fld (Reg.CHN_IN_SIZE m) 12 0 * s.chRate n

/-! ## Die resources -/

def State.lim (s : State) (d : Nat) : Nat := s.rdN (Reg.CAP_LIM_D d)
def State.margin (s : State) : Nat := s.fld Reg.CAP_CTRL 15 8

def State.clusterOk (s : State) (d c : Nat) : Bool := s.dieOk d && !s.bit (Reg.CL_STATUS d c) 31

/-- The placement that takes capacity: none once the capacity of a shed channel counts as free (R92, R94). -/
def State.placed (s : State) (n : Nat) : Option Placement :=
  match s.chans[n]? with
  | none => none
  | some c => if c.freed then none else c.place

/-- Every placement that takes capacity: the one the channel runs on, and the one kept for it while its begun items still
run on the old one (R94, R95). -/
def State.placements (s : State) (n : Nat) : List Placement :=
  (s.placed n).toList ++ ((s.chans[n]?).bind (·.later)).toList

/-- The parts placed on die `d`, each with its channel. -/
def State.partsOn (s : State) (d : Nat) : List (Nat × PartPlace) :=
  allChans.flatMap fun n => (s.placements n).flatMap fun p =>
    (p.parts.filter fun x => x.die == d).map fun x => (n, x)

/-- Cost a part carries at effort `e`: half the channel's when it is split over two dies (R83). -/
def State.partCost (s : State) (n : Nat) (x : PartPlace) (e : Nat) : Nat :=
  if x.cost = 0 then 0 else if x.half then ceilDiv (s.costAt n e) 2 else s.costAt n e

/-- Use of a shared cluster with channel `n` at effort `e n`: what its parts cost beyond their exclusive clusters. -/
def State.sharedUseAt (s : State) (d c : Nat) (e : Nat → Nat) : Nat :=
  ((s.partsOn d).filter fun x => x.2.shared == some c).foldl
    (fun a x => a + (s.partCost x.1 x.2 (e x.1) - x.2.excl.length * s.lim d)) 0

/-- EFFECTIVE effort of channel `n` with the dies' dim levels `lv`: the highest of the dies it is placed on (R178). -/
def State.effortUnder (s : State) (lv : Nat → Nat) (n : Nat) : Nat :=
  s.effortAt n ((s.placements n).foldl (fun a p => p.parts.foldl (fun a x => max a (lv x.die)) a) 0)

def State.clusterFree (s : State) (d c : Nat) : Bool :=
  s.clusterOk d c && !(s.partsOn d).any fun x => x.2.excl.contains c || x.2.shared == some c

/-- Clusters for a cost on die `d`, the channels already there at effort `e` (R86, `fits`). -/
def State.fitClusters (s : State) (d cost : Nat) (e : Nat → Nat) : Option (List Nat × Option Nat) :=
  let lim := s.lim d
  if lim = 0 ∨ !s.dieOk d then none
  else
    let free := (List.range 8).filter fun c => s.clusterFree d c
    let q := cost / lim
    let r := cost % lim
    if free.length < q then none
    else if r = 0 then some (free.take q, none)
    else
      let partly := (List.range 8).find? fun c => s.clusterOk d c && !s.clusterFree d c &&
        !(s.partsOn d).any (fun x => x.2.excl.contains c) && decide (s.sharedUseAt d c e + r ≤ lim)
      match partly with
      | some c => some (free.take q, some c)
      | none => (free.drop q).head?.map fun c => (free.take q, some c)

/-- Rows of a part: 0 the whole picture, 1 the upper, 2 the lower part (R188). -/
def State.partRows (s : State) (n part : Nat) : Nat :=
  let h := s.chH n
  let u := 128 * ceilDiv (s.bands n) 2
  if part = 0 then h else if part = 1 then min u h else h - u

def State.partBands (s : State) (n part : Nat) : Nat :=
  let b := s.bands n
  if part = 0 then b else if part = 1 then ceilDiv b 2 else b - ceilDiv b 2

def round64K (x : Nat) : Nat := ceilDiv x 65536 * 65536

def roundTo (x m : Nat) : Nat := ceilDiv x m * m

/-- DPB that a codec allows for a picture of `ps` luma samples at a level whose largest picture has `top`. PRESUMED (log 52), from the
standards: 16, 12, 8 or 6 pictures in HEVC, and 16, 12 or 8 in VVC. -/
def dpbSize (hevc : Bool) (top ps : Nat) : Nat :=
  if hevc then
    if 4 * ps ≤ top then 16 else if 2 * ps ≤ top then 12 else if 4 * ps ≤ 3 * top then 8 else 6
  else if 2 * ps ≤ top then 16 else if 3 * ps ≤ 2 * top then 12 else 8

/-- The largest at level 6.2 (R220). -/
def dpb62 (hevc : Bool) (ps : Nat) : Nat := dpbSize hevc 35651584 ps

/-- The picture is rotated by this channel or by a rendition of it (R220). -/
def State.rotates (s : State) (n : Nat) : Bool :=
  let rot := fun m => s.fld (Reg.CHN_IN_PREP m) 1 0 % 2 == 1
  rot n || allChans.any fun m => s.chKind m == 2 && s.chSource m == n && rot m

/-- Input buffers of a channel (R220): none for a rendition. No setting names the codec of a contribution stream, which is known only
once it is decoded: a transcode channel has as many as the codec that needs more. DESIGN CHOICE (log 52). -/
def State.inputBufs (s : State) (n : Nat) : Nat :=
  if s.chKind n = 2 then 0
  else if s.chKind n = 1 then
    let ps := s.fld (Reg.CHN_IN_SIZE n) 28 16 * s.fld (Reg.CHN_IN_SIZE n) 12 0
    max (dpb62 false ps) (dpb62 true ps) + 1
  else if s.rotates n then 4 else 3

/-- Buffers and bytes of the pool of a part; the input buffers stand on DIE_A (R220, R221). -/
def State.poolOf (s : State) (n part : Nat) : Nat × Nat :=
  let w := s.chW n
  let r := s.partRows n part
  let c2 := chroma2 (s.fld (Reg.CHN_FORMAT n) 25 24)
  let ctu := if s.bit (Reg.CHN_CODEC n) 0 then 64 else 128
  let rc := roundTo r ctu + (if part = 0 then 0 else 192)
  let wc := roundTo w ctu
  let nin := if part = 2 then 0 else s.inputBufs n
  let cin2 := if s.chKind n = 1 then 6 else if s.fld (Reg.CHN_IN_FORMAT n) 5 4 = 0 then 4 else 6
  let sin := s.fld (Reg.CHN_IN_SIZE n) 28 16 * s.fld (Reg.CHN_IN_SIZE n) 12 0 * cin2
  let ssrc := w * r * c2
  let srec := 2 * (wc * rc * c2 + ceilDiv (wc * rc) 128)
  let nsrc := s.fld (Reg.CHN_LOOKAHEAD n) 3 0 + 4
  let nrec := if s.emg.hasTwin then 9 else 6
  (nin + nsrc + 1 + nrec, nin * round64K sin + (nsrc + 1) * round64K ssrc + nrec * round64K srec)

/-- Descriptor reserve of a part (R261). -/
def State.reserveOf (s : State) (n part : Nat) : Nat :=
  s.partBands n part * (s.fld (Reg.CHN_LOOKAHEAD n) 3 0 + 3) +
  (if s.chKind n = 1 ∧ part ≠ 2 then 2 * ceilDiv (s.fld (Reg.CHN_IN_SIZE n) 28 16) 128 else 0)

/-- Memory demand on one die, in units of 1/30030 B/s (R87). -/
def State.memDemand (s : State) (n : Nat) (split : Bool) : Nat :=
  let c2 := chroma2 (s.fld (Reg.CHN_FORMAT n) 25 24)
  let f := s.chRate n
  let coded := s.chW n * s.chH n * c2
  let inp := s.fld (Reg.CHN_IN_SIZE n) 28 16 * s.fld (Reg.CHN_IN_SIZE n) 12 0 * 6
  let whole := (19 * coded + (if s.chKind n = 1 then 5 * inp else 0)) * f * 16
  if split then whole / 2 + 2 * 2 * 192 * s.chW n * c2 * f * 16 else whole

/-- The demand a channel puts on a die by its placement: split, whole, or both parts on one die (R87). -/
def State.memOn (s : State) (n d : Nat) : Nat :=
  (s.placements n).foldl (fun a p => (p.parts.filter fun x => x.die == d).foldl
    (fun a _ => a + s.memDemand n (decide (p.parts.length = 2))) a) 0

/-- Confidence-check and contribution-decoding load on a die's moth decoder, in half samples/s × 1001 (R85, R235). -/
def State.checkOn (s : State) (n d : Nat) : Nat :=
  (s.placements n).foldl (fun a p => (p.parts.filter fun x => x.die == d).foldl
    (fun a _ => a + (if p.parts.length = 2 then s.luma n else 2 * s.luma n)) a) 0

def State.decodeOn (s : State) (n d : Nat) : Nat :=
  (s.placements n).foldl
    (fun a p => a + (if s.chKind n = 1 ∧ (p.parts.head?.map (·.die)) = some d then 2 * s.lumaIn n else 0)) 0

def State.mothOn (s : State) (n d : Nat) : Nat := s.checkOn n d + s.decodeOn n d

def sumOver (l : List Nat) (f : Nat → Nat) : Nat := l.foldl (fun a n => a + f n) 0

/-- Channels prepared on die `d` (R123). DESIGN CHOICE (log 49): the spec does not say which dies prepare a split channel;
each of its two dies prepares the rows of its part, and both carry the channel's sums whole. -/
def State.preparedOn (s : State) (d : Nat) : List Nat :=
  allChans.filter fun n => (s.placements n).any fun p => p.parts.any fun x => x.die == d

/-- The conditions of R85, R123, R261 and R447 on die `d` for the placements that stand. -/
def State.dieFits (s : State) (d : Nat) : Bool :=
  let m := 1000 - s.margin
  let parts := s.partsOn d
  let prepared := s.preparedOn d
  decide (sumOver allChans (fun n => s.mothOn n d) * 1000 ≤ 2 * 8000 * 1000000 * 1001 * m) &&
  decide (sumOver allChans (fun n => s.memOn n d) * 8 ≤ 179200000000 * 30030 * (s.mcList d).length) &&
  (parts.isEmpty || s.memReady d) &&
  decide (parts.foldl (fun a x => a + x.2.pool) 0 ≤ s.rd64 (Reg.DIE_POOL_SPACE_LO d)) &&
  decide (parts.foldl (fun a x => a + x.2.reserve) 0 ≤ 28672) &&
  decide (sumOver prepared s.lumaIn * 1000 ≤ 24000 * 1000000 * 1001 * m) &&
  decide (sumOver prepared s.luma * 1000 ≤ 16000 * 1000000 * 1001 * m)

/-! ## Placing (R86, R88, R92) -/

def neighbourPairs : List (Nat × Nat) :=
  [(0, 1), (0, 2), (0, 4), (1, 3), (1, 5), (2, 3), (2, 6), (3, 7), (4, 5), (4, 6), (5, 7), (6, 7)]

def State.partAt (s : State) (n part d cost : Nat) (half : Bool) (cl : List Nat × Option Nat) : PartPlace :=
  let p := s.poolOf n part
  ⟨d, cl.1, cl.2, cost, half, p.1, p.2, s.reserveOf n part⟩

/-- The channel's last accepted items still run on a placement that it is leaving (R80, R94). -/
def Chan.drains (c : Chan) : Bool := c.place.isSome && (c.freed || c.disabling)

/-- Give the channel a placement: kept for later where its last items still run on the old one. -/
def State.setPlace (s : State) (n : Nat) (p : Placement) : State :=
  s.modChan n fun c => if c.drains then { c with later := some p } else { c with place := some p }

/-- Keep a placement where every die it stands on still fits. -/
def State.tryPlace (s : State) (n : Nat) (p : Placement) : Option State :=
  let t := s.setPlace n p
  if p.parts.all fun x => t.dieFits x.die then some t else none

/-- A whole placement on die `d` at effort `e`, the other channels at effort `eff`. -/
def State.placeWhole (s : State) (n d e : Nat) (eff : Nat → Nat) : Option State :=
  let cost := s.costAt n e
  (s.fitClusters d cost eff).bind fun cl => s.tryPlace n ⟨[s.partAt n 0 d cost false cl], false⟩

/-- Both parts on one die (R88, R190): the cost stands once, on the clusters both run on. -/
def State.placeOneDie (s : State) (n d e : Nat) (eff : Nat → Nat) : Option State :=
  let cost := s.costAt n e
  (s.fitClusters d cost eff).bind fun cl =>
    s.tryPlace n ⟨[s.partAt n 1 d cost false cl, s.partAt n 2 d 0 false ([], none)], true⟩

/-- A split across two neighbours. -/
def State.placeSplit (s : State) (n a b e : Nat) (eff : Nat → Nat) : Option State :=
  let h := ceilDiv (s.costAt n e) 2
  (s.fitClusters a h eff).bind fun ca => (s.fitClusters b h eff).bind fun cb =>
    s.tryPlace n ⟨[s.partAt n 1 a h true ca, s.partAt n 2 b h true cb], false⟩

/-- A candidate of R86: whole on `a` (`b` none), split on `a` and `b`, or both parts on `a`. -/
structure PlaceCand where
  a : Nat
  b : Option Nat
  oneDie : Bool
deriving DecidableEq, Repr

/-- The candidates in order: for channel 0 the pairs first (R86, R88, R92). -/
def placeCandidates (n : Nat) : List PlaceCand :=
  let pairs := neighbourPairs.map fun p => (⟨p.1, some p.2, false⟩ : PlaceCand)
  let wholes := (List.range 8).map fun d => (⟨d, none, decide (n = 0)⟩ : PlaceCand)
  if n = 0 then pairs ++ wholes else wholes ++ pairs

def State.dimOf (s : State) (d : Nat) : Nat := s.cap.dims.getD d 0

def State.thermDim (s : State) (d : Nat) : Nat := s.fld Reg.THM_DIM (4 * d + 2) (4 * d)

/-- The dim level in force on a die: the higher of the capacity planner's and thermal control's (R91). -/
def State.levelOn (s : State) (d : Nat) : Nat := max (s.dimOf d) (s.thermDim d)

def PlaceCand.has (c : PlaceCand) (d : Nat) : Bool := d == c.a || c.b == some d

/-- Try a candidate at effort `e`, or at EFFECTIVE effort under its dies' levels, with the dim levels `lv`. -/
def State.tryCand (s : State) (n : Nat) (c : PlaceCand) (e : Option Nat) (lv : Nat → Nat) : Option State :=
  let eff := s.effortUnder lv
  match c.b with
  | none =>
    let e' := e.getD (s.effortAt n (lv c.a))
    if c.oneDie then s.placeOneDie n c.a e' eff else s.placeWhole n c.a e' eff
  | some b => s.placeSplit n c.a b (e.getD (s.effortAt n (max (lv c.a) (lv b)))) eff

/-- Place at full ADMITTED effort without raising any dim level (R86, R95). -/
def State.placeFull (s : State) (n : Nat) : Option State :=
  (placeCandidates n).findSome? fun c => s.tryCand n c (some (s.fld (Reg.CHN_EFFORT n) 18 16)) s.levelOn

/-- Remember how to undo a change (R171). -/
def State.noteUndo (s : State) (u : Undo) : State :=
  { s with bus := { s.bus with undo := (s.ns, u) :: s.bus.undo.filter fun e => decide (s.ns ≤ e.1 + 100000000) } }

/-- Set the capacity dim levels. -/
def State.setDims (s : State) (l : List Nat) : State :=
  let s := s.when (l != s.cap.dims) fun s => s.noteUndo (.dims s.cap.dims)
  { s with cap := { s.cap with dims := l } }

/-- Raise the dim level of a candidate's dies to `k` at least. -/
def State.raiseDims (s : State) (c : PlaceCand) (k : Nat) : State :=
  s.setDims (s.cap.dims.mapIdx fun d v => if c.has d && decide (s.levelOn d < k) then k else v)

/-- The dim level a candidate would reach at `k`, the higher of its dies' (R92). -/
def State.candLevel (s : State) (c : PlaceCand) (k : Nat) : Nat :=
  max (max k (s.levelOn c.a)) (match c.b with | none => 0 | some b => s.levelOn b)

/-- R92: the first candidate that fits at the dim levels in force, otherwise the one whose resulting level is lowest,
the first in order among equals. -/
def State.placeDimmed (s : State) (n : Nat) : Option State :=
  match (placeCandidates n).findSome? fun c => s.tryCand n c none s.levelOn with
  | some t => some t
  | none => [1, 2, 3, 4].findSome? fun k =>
      (placeCandidates n).findSome? fun c =>
        if s.candLevel c k = k then
          (s.tryCand n c none fun d => if c.has d then max (s.levelOn d) k else s.levelOn d).map fun t => t.raiseDims c k
        else none

/-! ## Registers of placements (R76, R99, R191, R518) -/

def maskOf (l : List Nat) : Nat := l.foldl (fun a c => a ||| 2 ^ c) 0

def PartPlace.clusters (x : PartPlace) : Nat :=
  maskOf (x.excl ++ (match x.shared with | none => [] | some c => [c]))

def PartPlace.sharedField (x : PartPlace) : Nat := match x.shared with | none => 0 | some c => 8 + c

/-- CHN_PLACE (R76). -/
def placeWord (p : Placement) : Nat :=
  match p.parts with
  | [] => 0
  | [a] => 2147483648 + a.die * 16777216 + a.sharedField * 65536 + a.clusters
  | a :: b :: _ =>
    let b' := if p.oneDie then a else b
    2147483648 + 1073741824 + b'.die * 134217728 + a.die * 16777216 + b'.sharedField * 1048576 +
      a.sharedField * 65536 + b'.clusters * 256 + a.clusters

/-! ## Dim levels (R178, R376) -/

/-- The level this unit would apply without the pair term. -/
def State.ownDim (s : State) (n : Nat) : Nat :=
  match (s.chan n).place with
  | none => 0
  | some p => p.parts.foldl (fun a x => max a (s.levelOn x.die)) 0

/-- The latest level the partner reported before this instant (R376); none while the link is down. -/
def State.partnerDim (s : State) (n : Nat) : Nat :=
  if s.isStandby || !s.link.up then 0
  else match s.twin.partnerDims.find? (fun e => e.1 == n) with
    | none => 0
    | some (_, lvl, before, t) => if t < s.now then lvl else before

def State.dimInForce (s : State) (n : Nat) : Nat := max (s.ownDim n) (s.partnerDim n)

/-- EFFECTIVE effort of a channel at this instant (R178). -/
def State.effortNow (s : State) (n : Nat) : Nat := s.effortAt n (s.dimInForce n)

/-- The placement registers (R76). DESIGN CHOICE (log 49): the spec states no rounding of CHN_MOTH_LOAD and CHN_MEM_DEMAND,
which are rounded down, and one figure for dies that differ; DIE_A's is shown. -/
def State.showPlace (s : State) (n : Nat) : State :=
  match (s.chan n).place with
  | none => [Reg.CHN_PLACE n, Reg.CHN_COST n, Reg.CHN_COST_EFF n, Reg.CHN_MOTH_LOAD n, Reg.CHN_MEM_DEMAND n,
      Reg.CHN_POOL_BUFS n, Reg.CHN_ADMIT_RANK n, Reg.CHN_DESC_RESERVE n].foldl (fun t a => t.wrN a 0) s
  | some p =>
    let d := (p.parts.head?.map (·.die)).getD 0
    let s := s.wrN (Reg.CHN_PLACE n) (placeWord p)
    let s := s.wrN (Reg.CHN_COST n) (s.costAt n (s.fld (Reg.CHN_EFFORT n) 18 16))
    let s := s.wrN (Reg.CHN_COST_EFF n) (s.costAt n (s.effortNow n))
    let s := s.wrN (Reg.CHN_MOTH_LOAD n) (s.mothOn n d * 100 / (2 * 1001 * 1000000))
    let s := s.wrN (Reg.CHN_MEM_DEMAND n) (s.memOn n d / (30030 * 1000000))
    let s := s.wrN (Reg.CHN_POOL_BUFS n)
      ((p.parts.map (·.bufs)).getD 0 0 + 65536 * (p.parts.map (·.bufs)).getD 1 0)
    s.wrN (Reg.CHN_DESC_RESERVE n) (p.parts.foldl (fun a x => a + x.reserve) 0)

/-- CAP_UNIT_LOAD_EFF and the cluster uses at EFFECTIVE effort (R99, R191). -/
def State.sumEff (s : State) : State :=
  let s := s.wrN Reg.CAP_UNIT_LOAD_EFF
    (sumOver (allChans.filter fun n => s.placements n ≠ []) fun n => s.rdN (Reg.CHN_COST_EFF n))
  s.each (List.range 8) fun d s => s.each (List.range 8) fun c s =>
    let excl := (s.partsOn d).any fun x => x.2.excl.contains c
    s.wrN (Reg.CL_USE_EFF d c) (if excl then s.lim d else s.sharedUseAt d c s.effortNow)

/-- Unit sums, per-die pools, reserves and cluster uses after a change of placement. -/
def State.showSums (s : State) : State :=
  let placed := allChans.filter fun n => s.placements n ≠ []
  let s := s.wrN Reg.CAP_UNIT_LOAD (sumOver placed fun n => s.rdN (Reg.CHN_COST n))
  let s := s.sumEff
  let s := s.wrN Reg.CAP_SHED_COUNT (allChans.filter fun n => s.chanState n == 6).length
  let s := s.wrN Reg.CAP_UNIT_LIMIT (sumOver (List.range 8) fun d =>
    s.lim d * ((List.range 8).filter fun c => s.clusterOk d c).length)
  s.each (List.range 8) fun d s =>
    let parts := s.partsOn d
    let prepared := s.preparedOn d
    let s := s.wr64 (Reg.DIE_POOL_USED_LO d) (parts.foldl (fun a x => a + x.2.pool) 0)
    let s := s.wrN (Reg.IP_CHANNELS d) prepared.length
    let s := s.wrN (Reg.IP_LOAD_IN d) (sumOver prepared s.lumaIn * 100 / (1001 * 1000000))
    let s := s.wrN (Reg.IP_LOAD_OUT d) (sumOver prepared s.luma * 100 / (1001 * 1000000))
    let s := s.wrN (Reg.MD_LOAD_CHECK d) (sumOver placed (fun n => s.checkOn n d) * 100 / (2 * 1001 * 1000000))
    let s := s.wrN (Reg.MD_LOAD_DEC d) (sumOver placed (fun n => s.decodeOn n d) * 100 / (2 * 1001 * 1000000))
    let s := s.setFld (Reg.MD_STATUS d) 23 16 (placed.filter fun n => s.checkOn n d != 0).length
    let s := s.setFld (Reg.MD_STATUS d) 7 0 (placed.filter fun n => s.decodeOn n d != 0).length
    s.each (List.range 8) fun c s =>
      let on := parts.filter fun x => x.2.excl.contains c || x.2.shared == some c
      let excl := parts.any fun x => x.2.excl.contains c
      let s := s.setFld (Reg.CL_STATUS d c) 23 16 on.length
      let s := s.setBit (Reg.CL_STATUS d c) 8 (decide (2 ≤ (parts.filter fun x => x.2.shared == some c).length))
      s.wrN (Reg.CL_USE d c) (if excl then s.lim d
        else s.sharedUseAt d c fun n => s.fld (Reg.CHN_EFFORT n) 18 16)

/-! ## Limits and dim levels (R84, R91, R472) -/

/-- Capacity of a cluster of die `d` in 0.01 taper: guaranteed, or the lowest measured among working clusters. -/
def State.capacityOf (s : State) (d : Nat) : Nat :=
  if !s.bit Reg.CAP_CTRL 0 then 64000
  else
    let ms := ((List.range 8).filter fun c => s.clusterOk d c).map fun c =>
      64000 * s.fld (Reg.WAX_C d c) 31 16 / 1000
    match ms with
    | [] => 0
    | x :: xs => xs.foldl min x

def State.limFor (s : State) (d : Nat) : Nat :=
  if s.dieOk d then s.capacityOf d * (1000 - s.margin) / 1000 else 0

def State.setLims (s : State) : State :=
  s.each (List.range 8) fun d s => s.wrN (Reg.CAP_LIM_D d) (s.limFor d)

/-- What a loss leaves in force: no limit rises outside a daily planning (R472). -/
def State.dropLims (s : State) : State :=
  s.each (List.range 8) fun d s => s.wrN (Reg.CAP_LIM_D d) (min (s.lim d) (s.limFor d))

/-- The costs on die `d` fit its limit with the dies at the dim levels `lv`: each cluster alone holds what R86 put in it, and no
cluster is over its `lim` (R84, R91). A split channel costs what it does at the higher of its two dies' levels (R178). -/
def State.levelFits (s : State) (lv : List Nat) (d : Nat) : Bool :=
  let e := s.effortUnder fun x => lv.getD x 0
  let parts := s.partsOn d
  (parts.all fun x => x.2.shared.isSome || decide (s.partCost x.1 x.2 (e x.1) ≤ x.2.excl.length * s.lim d)) &&
  (List.range 8).all fun c => decide (s.sharedUseAt d c e ≤ s.lim d)

/-- The first die over its limit and below D4 is raised one step at a time, until none is left: one step per unit of fuel (R91). -/
def State.raiseLevels (s : State) : Nat → List Nat → List Nat
  | 0, lv => lv
  | i + 1, lv => match (List.range 8).find? fun d => decide (lv.getD d 0 < 4) && !s.levelFits lv d with
    | none => lv
    | some d => State.raiseLevels s i (lv.set d (lv.getD d 0 + 1))

/-- Each die in turn at the lowest level at which every die that fits still fits. -/
def State.lowerLevels (s : State) (lv : List Nat) : List Nat :=
  (List.range 8).foldl (fun lv d =>
    let ok := fun (k : Nat) => (List.range 8).all fun x => !s.levelFits lv x || s.levelFits (lv.set d k) x
    lv.set d (((List.range (lv.getD d 0)).find? ok).getD (lv.getD d 0))) lv

/-- The lowest levels at which the load of every die fits its limit; D4 where none does (R91). Dies that share a split channel
depend on each other's level, and R91 gives no order: the levels rise from D0, the lowest-numbered die first, and then each die
takes the lowest level the others allow. Thermal and pair levels, which fall without a re-planning, are not counted on.
DESIGN CHOICE (log 49). -/
def State.dimsNeeded (s : State) : List Nat := s.lowerLevels (s.raiseLevels 32 (List.replicate 8 0))

def State.redim (s : State) : State := s.setDims s.dimsNeeded

/-- What the registers show of EFFECTIVE effort after a change of dim level (R76, R99, R191). -/
def State.showEff (s : State) : State :=
  (s.each (allChans.filter fun n => s.placements n ≠ []) fun n s => s.wrN (Reg.CHN_COST_EFF n) (s.costAt n (s.effortNow n))).sumEff

/-- Show every placement again. -/
def State.showAll (s : State) : State := (s.each allChans fun n s => s.showPlace n).showSums

/-! ## Admission order and ranks -/

def State.prio (s : State) (n : Nat) : Nat := s.fld (Reg.CHN_PRIO n) 3 0

/-- Channel 0 first, then descending PRIO, then ascending number (R86). -/
def State.before (s : State) (a b : Nat) : Bool :=
  if a = 0 then true else if b = 0 then false
  else if s.prio a = s.prio b then decide (a ≤ b) else decide (s.prio b < s.prio a)

def insertBy (le : Nat → Nat → Bool) (x : Nat) : List Nat → List Nat
  | [] => [x]
  | y :: ys => if le x y then x :: y :: ys else y :: insertBy le x ys

def State.inOrder (s : State) (l : List Nat) : List Nat :=
  l.foldl (fun r n => insertBy (fun a b => s.before a b) n r) []

/-- CHN_ADMIT_RANK: the place of channel `n` among the enabled channels in admission order (R76). -/
def State.showRank (s : State) (n : Nat) : State :=
  s.wrN (Reg.CHN_ADMIT_RANK n) ((s.inOrder (allChans.filter fun m => s.bit (Reg.CHN_CTRL m) 0)).idxOf n)

/-- CAP_SHED_COUNT (R99). -/
def State.countShed (s : State) : State := s.wrN Reg.CAP_SHED_COUNT (allChans.filter fun n => s.chanState n == 6).length

end Sys2Proof.Machine
end

