-- ==== Sys2Proof/Machine/Items.lean ====
section
/-! DEFINITION. Items, bands and their instants: the slot grid, alignment and release times, dim levels, what a channel
may change (R75, R112, R157, R170, R178, R182, R188, R276, R279). -/

namespace Sys2Proof.Machine

/-! ## Instants -/

/-- Nanoseconds × rate1001 of one picture period: T = 1001 × 10⁹ / rate1001 ns (R75). -/
def perNum : Nat := 1001000000000

/-- The ST 2059-1 grid instant of number `n`, in PTP-visible ns rounded up (R279). -/
def gridAt (rate : Nat) (n : Int) : Int := -(-(n * perNum) / (rate : Int))

def State.rate (s : State) (n : Nat) : Nat := max 1 (s.chRate n)

/-- A picture period in ns, rounded down. -/
def State.period (s : State) (n : Nat) : Nat := perNum / s.rate n

/-- The first grid number whose instant is at or after `t`. -/
def gridFrom (rate : Nat) (t : Int) : Int := -((-t * (rate : Int)) / (perNum : Int))

/-- TRO + W of the channel's input, in ns (R79, R112). -/
def State.align (s : State) (n : Nat) : Nat :=
  let m := s.inputOf n
  1000 * (s.fld (Reg.CHN_IN_TRO m) 10 0 + s.fld (Reg.CHN_IN_SKEW m) 13 0)

/-- B_k, A (with P = B_k) and E_k on the DTC, in ns (R112, R276, R279). -/
def bndDtc (it : Item) : Int := it.bnd - it.doff
def State.alignAt (s : State) (n : Nat) (it : Item) : Int := bndDtc it + s.align n
def State.releaseAt (s : State) (n : Nat) (it : Item) : Int :=
  bndDtc it + s.align n + 1000 * s.fld (Reg.CHN_DELAY n) 22 0

/-- Boundary of item `k` of channel `n`, in PTP-visible ns, on the grid in force. -/
def State.boundary (s : State) (n k : Nat) : Int := gridAt (s.rate n) ((s.chan n).anchor + k)

/-! ## Items -/

def Band.reset : Band :=
  ⟨0, none, false, 0, 0, 0, 0, 0, 0, 0, false, false, false, false, none, none, false, false, false, 0⟩

def State.item? (s : State) (n k : Nat) : Option Item := (s.chan n).items.find? fun it => it.idx == k

def State.modItem (s : State) (n k : Nat) (f : Item → Item) : State :=
  s.modChan n fun c => { c with items := c.items.map fun it => (if it.idx = k then f it else it) }

def State.modBand (s : State) (n k b : Nat) (f : Band → Band) : State :=
  s.modItem n k fun it => { it with bands := it.bands.modify b f }

def Item.band (it : Item) (b : Nat) : Band := it.bands.getD b Band.reset

/-- Channels in the states in which items run (R80). -/
def State.running (s : State) (n : Nat) : Bool := decide (2 ≤ s.chanState n) && decide (s.chanState n ≤ 5)

/-- Renditions of context `m` that run. -/
def State.renditionsOf (s : State) (m : Nat) : List Nat :=
  allChans.filter fun n => s.chKind n == 2 && s.chSource n == m && s.running n

/-- The channels that the input of context `m` serves: itself, where it is no rendition, and its renditions. -/
def State.servedBy (s : State) (m : Nat) : List Nat :=
  (if s.running m && s.chKind m != 2 then [m] else []) ++ s.renditionsOf m

/-! ## Parts (R188) -/

/-- The channel is coded as two parts. -/
def State.split (s : State) (n : Nat) : Bool :=
  match (s.chan n).place with
  | none => false
  | some p => decide (p.parts.length = 2)

/-- First band of the lower part. -/
def State.lowerFrom (s : State) (n : Nat) : Nat := ceilDiv (s.bands n) 2

def State.partOf (s : State) (n b : Nat) : Nat := if s.split n && decide (s.lowerFrom n ≤ b) then 1 else 0

/-- Bands of a part: first, and one past the last. -/
def State.partRange (s : State) (n part : Nat) : Nat × Nat :=
  if s.split n then (if part = 0 then (0, s.lowerFrom n) else (s.lowerFrom n, s.bands n)) else (0, s.bands n)

/-- Die of a part (R86, R190). -/
def State.dieOf (s : State) (n part : Nat) : Nat :=
  match (s.chan n).place with
  | none => 0
  | some p => (p.parts[part]? <|> p.parts.head?).elim 0 (·.die)

/-- Clusters of the channel on the part's die, as a mask (CHN_PLACE.CL_A, CL_B). -/
def State.clustersOf (s : State) (n part : Nat) : Nat :=
  if part = 1 then s.fld (Reg.CHN_PLACE n) 15 8 else s.fld (Reg.CHN_PLACE n) 7 0

/-! ## CTUs, sweeps and ember bounds (R158, R182, R205 to R207) -/

def State.hevc (s : State) (n : Nat) : Bool := s.bit (Reg.CHN_CODEC n) 0
def State.ctu (s : State) (n : Nat) : Nat := if s.hevc n then 64 else 128
/-- CTU columns of the picture. -/
def State.ctuCols (s : State) (n : Nat) : Nat := ceilDiv (s.chW n) (s.ctu n)
/-- Luma rows of band `b` (R157). -/
def State.bandRows (s : State) (n b : Nat) : Nat := min 128 (s.chH n - 128 * b)
def State.ctuRows (s : State) (n b : Nat) : Nat := ceilDiv (s.bandRows n b) (s.ctu n)
def State.ctusOf (s : State) (n b : Nat) : Nat := s.ctuCols n * s.ctuRows n b

/-- c(j) of R182: columns refreshed after sweep picture `j` of `len`. -/
def sweepCols (cols len j : Nat) : Nat := ceilDiv ((j + 1) * cols) (max 1 len)

/-- Columns an item codes as intra: all for IRAP and all-intra pictures, the sweep's columns inside one (R182, R205). -/
def State.intraCols (s : State) (n : Nat) (it : Item) : Nat :=
  let cols := s.ctuCols n
  match it.refresh with
  | some .idr => cols
  | some .cra => cols
  | some .allIntra => cols
  | _ => if it.sweepLen = 0 then 0
      else sweepCols cols it.sweepLen it.sweep - (if it.sweep = 0 then 0 else sweepCols cols it.sweepLen (it.sweep - 1))

/-- E(b) with `intra` columns in the intra form (R206). -/
def State.emberBound (s : State) (n b intra : Nat) : Nat :=
  let rows := s.ctuRows n b
  let inter := s.ctuCols n - intra
  2048 + rows * (if s.hevc n then 16 * inter + 32 * intra else 24 * inter + 48 * intra)

/-- E(b) of an item: a repeat item off a refresh has every CTU in the inter form (R163, R205). -/
def State.emberOf (s : State) (n : Nat) (it : Item) (b : Nat) : Nat :=
  s.emberBound n b (if it.form = .repeated ∧ !it.refreshed then 0 else s.intraCols n it)

def overheadMax : Nat := 24576

/-- E_pic, the ember floor (R207). -/
def State.emberFloor (s : State) (n : Nat) : Nat :=
  overheadMax + sumOver (List.range (s.bands n)) fun b => s.emberBound n b (s.ctuCols n)

/-! ## Dim level reports (R376) -/

/-- Report every dim level that has changed to the partner (R376). -/
def State.reportDims (s : State) : State :=
  s.each allChans fun n s =>
    if (s.chan n).place.isSome && s.paired && assocGet 0 s.twin.ownDims n != s.ownDim n then
      let d := s.ownDim n
      ({ s with twin := { s.twin with ownDims := assocSet s.twin.ownDims n d } }).lanternSend (.dim n d)
    else s

/-- A timestamp joins those of the last half turn of a 32-bit count: an older one can no longer come again (R172). -/
def recentStamps (l : List Nat) (ts : Nat) : List Nat := ts :: l.filter fun t => decide (ts < t + 2147483648)

/-! ## Causes of a transition and degrading conditions (R80, R81) -/

/-- A memory channel of a die of the channel is MARGINAL (R81, R446). -/
def State.marginalAt (s : State) (n : Nat) : Bool :=
  match (s.chan n).place with
  | none => false
  | some p => p.parts.any fun x => (List.range 2).any fun m => (List.range 4).any fun c =>
      s.fld (Reg.MCC_STATUS x.die m c) 2 0 == 3

/-- Degrading conditions that hold for an item of channel `n`, by cause code, lowest first. -/
def State.degrading (s : State) (n : Nat) (it : Item) : List Nat :=
  let absent := decide (it.form ≠ Form.coded) && (s.chan (s.inputOf n)).absent.isSome
  let dimmed := decide (it.dr.effort < s.fld (Reg.CHN_EFFORT n) 2 0) && decide (0 < it.dr.dim)
  let marginal := s.marginalAt n
  (if absent then [4] else []) ++ (if dimmed then [5] else []) ++ (if it.concealed then [6] else []) ++
    (if marginal then [7] else [])

/-- Instants of R80 at which a channel's degrading conditions are looked at: LIVE becomes DEGRADED, DEGRADED becomes LIVE
with cause 15 at an item later than every one for which a condition was fixed; in SHADOW only CAUSE shows them. -/
def State.judge (s : State) (n : Nat) (it : Item) (mayEnd : Bool) : State :=
  match s.degrading n it with
  | c :: _ =>
    let s := s.modChan n fun x => { x with worst := some (if s.chanState n = 4 ∨ s.chanState n = 5 then max (x.worst.getD 0) it.idx else it.idx) }
    if s.chanState n = 3 then s.setChan n 4 c
    else if s.chanState n = 5 then s.setFld (Reg.CHN_STATE n) 11 8 c else s
  | [] =>
    if s.chanState n = 4 && mayEnd && (s.chan n).worst.all (fun w => decide (w < it.idx)) then s.setChan n 3 15 else s

/-- A memory channel of die `d` has become MARGINAL: a LIVE channel with a part there is DEGRADED at once with CAUSE 7; in
SHADOW only CAUSE shows it (R80, R81). -/
def State.judgeMarginal (s : State) (d : Nat) : State :=
  s.each (allChans.filter fun n => ((s.chan n).place.map fun p => p.parts.any fun x => x.die == d).getD false) fun n s =>
    if s.chanState n = 3 then (s.modChan n fun x => { x with worst := none }).setChan n 4 7 else if s.chanState n = 5 then s.setFld (Reg.CHN_STATE n) 11 8 7 else s

/-! ## Failure records (R423) -/

/-- Write a failure record and send it to the partner (R345): one for each item and each cause that affects it (R423). A refused
input is no item: each has its own record (R114). -/
def State.fail (s : State) (n action cause level element first bands idx info : Nat) : State :=
  if decide (cause ≠ 7 ∧ cause ≠ 8) && (s.item? n idx).any (fun it => it.causes.contains cause) then s else
  let s := s.modItem n idx fun it => { it with causes := if cause = 7 ∨ cause = 8 then it.causes else cause :: it.causes }
  let b := failureBytes n action cause level element first bands idx s.ns info
  (s.writeFailure n action cause level element first bands idx info).lanternSend (.failure b)

/-- Bands of an item that R214 records. -/
def Item.ownEmbers (it : Item) : List Nat :=
  (List.range it.bands.length).filter fun b => (it.band b).ember && !(it.band b).forced

/-- One failure record for the ember bands of rate control and substitution (R214), with the event of R215. -/
def State.noteEmbers (s : State) (n k : Nat) : State :=
  match s.item? n k with
  | none => s
  | some it =>
    match it.ownEmbers with
    | [] => s
    | first :: more =>
      if it.noted then s
      else
        let subst := it.bands.any (·.subst)
        let cause := if subst then 3 else if it.out.contains true then 1 else 2
        (s.modItem n k fun it => { it with noted := true }).fail n 2 cause 0 0 first (more.length + 1) k 0

/-! ## The buffer pool (R217 to R225) -/

/-- Buffers of one part, all FREE but the slate's, which is INPUT from admission on (R220, R223, R124). -/
def State.poolFor (s : State) (n part which : Nat) : List Buf :=
  let nin := if part = 1 then 0 else s.inputBufs n
  let nsrc := s.fld (Reg.CHN_LOOKAHEAD n) 3 0 + 4
  let nrec := if s.emg.hasTwin then 9 else 6
  (List.range which).flatMap fun _ =>
    ((List.range nin).map fun i => (⟨part, i, .input, .free, [], false⟩ : Buf)) ++
    ((List.range nsrc).map fun i => (⟨part, nin + i, .source, .free, [], false⟩ : Buf)) ++
    [⟨part, nin + nsrc, .source, .input, [], false⟩] ++
    ((List.range nrec).map fun i => (⟨part, nin + nsrc + 1 + i, .recon, .free, [], false⟩ : Buf))

/-- Give a channel its pool, for its placement (R220). -/
def State.makePool (s : State) (n : Nat) : State :=
  let l := s.poolFor n 0 1 ++ (if s.split n then s.poolFor n 1 1 else [])
  s.modChan n fun c => { c with pool := l }

/-- The last item of a shed channel has left: the old placement is gone, and one made meanwhile stands (R94, R95). -/
def State.vacate (s : State) (n : Nat) : State :=
  let c := s.chan n
  if decide (s.chanState n = 6) && c.freed && decide (c.pool = []) && c.items.all (fun it => it.left.isSome || it.abandoned) then
    let s := s.modChan n fun c => { c with place := c.later, later := none, freed := false, items := [] }
    (s.when c.later.isSome fun s => s.makePool n).showAll
  else s

/-- Does the lowest-numbered FREE buffer of the kind exist in the part? -/
def State.hasFree (s : State) (n part : Nat) (k : BufKind) : Bool :=
  (s.chan n).pool.any fun b => b.part == part && decide (b.kind = k) && decide (b.mark = Mark.free)

/-- Mark the first listed buffer that satisfies `p`; buffers are listed by part, then number. -/
def markFirst (p : Buf → Bool) (f : Buf → Buf) : List Buf → List Buf
  | [] => []
  | b :: bs => if p b then f b :: bs else b :: markFirst p f bs

/-- Allocate the lowest-numbered FREE buffer of the kind to item `k` (R223). -/
def State.allocBuf (s : State) (n part : Nat) (kind : BufKind) (m : Mark) (k : Nat) : State :=
  let free := fun (b : Buf) => b.part == part && decide (b.kind = kind) && decide (b.mark = Mark.free)
  let take := fun (b : Buf) => { b with mark := m, items := [k] }
  s.modChan n fun c => { c with pool := markFirst free take c.pool }

/-- Move the buffers of item `k` of one kind from one mark to another (R223). -/
def State.reMark (s : State) (n k : Nat) (kind : BufKind) (froms : List Mark) (m : Mark) : State :=
  s.modChan n fun c => { c with pool := c.pool.map fun b =>
    (if b.kind = kind && b.items.contains k && froms.contains b.mark then { b with mark := m } else b) }

/-- Free the buffers of a kind that item `k` holds; a shared one stays with its other holders (R225). -/
def State.freeBuf (s : State) (n k : Nat) (kind : BufKind) : State :=
  s.modChan n fun c => { c with pool := c.pool.map fun b =>
    (if b.kind = kind && b.items.contains k then
      (if b.items.erase k = [] then { b with mark := .free, items := [], poisoned := false }
       else { b with items := b.items.erase k }) else b) }

/-- A repeat item shares the reconstruction of the item before it, whose buffer takes the mark that its sharers need (R225). -/
def State.shareRecon (s : State) (n k j : Nat) : State :=
  s.modChan n fun c => { c with pool := c.pool.map fun b =>
    (if b.kind = .recon && b.items.contains j && !b.items.contains k then
      { b with items := k :: b.items, mark := if b.mark = .outputHold then .refShort else b.mark } else b) }

/-- A reconstruction buffer is taken for item `k` in every part, with the repeat items that share it (R223, R225). -/
def State.takeRecon (s : State) (n k : Nat) (sharers : List Nat) : State :=
  let s := s.each (if s.split n then [0, 1] else [0]) fun q s => s.allocBuf n q .recon .coding k
  s.modChan n fun c => { c with pool := c.pool.map fun b =>
    (if b.kind = .recon ∧ b.items = [k] then { b with items := sharers ++ [k] } else b) }

/-- The memory controller compares an access with the header of its buffer (R219). The slate's buffer is no item's. DEDUCED (log 51):
an access carries the index of the item whose picture the buffer holds, which for a reference is not that of the work. -/
def State.ownsBuf (s : State) (t : AccessTag) : Bool :=
  (s.chan t.chan).pool.any fun b => b.part == t.part && b.no == t.no && decide (b.mark ≠ Mark.free) &&
    (decide (b.items = []) || b.items.contains t.idx)

/-- References that some item's lists exclude become OUTPUT_HOLD (R223). -/
def State.excludeRefs (s : State) (n : Nat) : State :=
  s.modChan n fun c => { c with pool := c.pool.map fun b =>
    (if (b.mark = .refShort || b.mark = .refLong) && b.items.all c.excluded then { b with mark := .outputHold } else b) }

/-- Item `k` gives up its share of another item's reconstruction; buffers of its own it keeps. -/
def State.leaveRecon (s : State) (n k : Nat) : State :=
  s.modChan n fun c => { c with pool := c.pool.map fun b =>
    (if b.kind = .recon && b.items.contains k && decide (b.items ≠ [k]) then { b with items := b.items.erase k } else b) }

/-- Number of a buffer of item `k` on a part, 0xFFFF for none (R259). -/
def State.bufNo (s : State) (n part k : Nat) (kind : BufKind) : Nat :=
  (((s.chan n).pool.find? fun b => b.part == part && decide (b.kind = kind) && b.items.contains k).map (·.no)).getD 65535

end Sys2Proof.Machine
end

