-- ==== Sys2Proof/Machine/AudioBuf.lean ====
section
/-! DEFINITION. The 1,024 audio channel buffers (R133 to R139). -/

namespace Sys2Proof.Machine

def State.abuf (s : State) (b : Nat) : ABuf := assocGet ABuf.reset s.aud.bufs b

def State.setAbuf (s : State) (b : Nat) (x : ABuf) : State :=
  { s with aud := { s.aud with bufs := assocSet s.aud.bufs b x } }

/-! ## Writers (R133, R156) -/

/-- Valid entries: those whose FT_CTRL is listed with VALID. -/
def State.flows (s : State) : List Nat :=
  s.regs.filterMap fun e =>
    if 0x200000 ≤ e.1 ∧ e.1 < 0x600000 ∧ e.1 % 64 = 0 ∧ fldOf e.2 31 31 = 1 then some ((e.1 - 0x200000) / 64) else none

def State.audMode (s : State) (p : Nat) : Nat := s.fld (Reg.AUD_CTRL p) 5 4
def State.audOut (s : State) (p : Nat) : Bool := s.bit (Reg.AUD_CTRL p) 0
/-- Slots of a frame (R130). -/
def State.audSlots (s : State) (p : Nat) : Nat := if s.audMode p = 1 then 2 ^ (1 + s.fld (Reg.AUD_CTRL p) 17 16) else 2
def State.audBuf (s : State) (p i : Nat) : Nat := s.fld (Reg.AUD_SLOT_BUF p i) 9 0

/-- Flow `i` of essence 1 or 2 writes buffer `b`. -/
def State.flowTakes (s : State) (i b : Nat) : Bool :=
  let e := s.fld (Reg.FT_CTRL i) 26 24
  let buf := s.fld (Reg.FT_BIND i) 19 10
  s.bit (Reg.FT_CTRL i) 31 && (e == 1 || e == 2) && decide (buf ≤ b) && decide (b < buf + s.fld (Reg.FT_BIND i) 6 0)

/-- Slot `k % 16` of input port `k / 16` writes buffer `b`. -/
def State.slotTakes (s : State) (k b : Nat) : Bool :=
  let p := k / 16
  !s.audOut p && s.bit (Reg.AUD_CTRL p) 31 && s.bit (Reg.AUD_SLOT_MASK p) (k % 16) &&
    decide (k % 16 < s.audSlots p) && decide (s.audBuf p (k % 16) = b)

/-- The writer of audio buffer `b` (R133, R156): a flow of the flow table, a slot of an input port, or an ST 302M PID. -/
def State.bufWriter (s : State) (b : Nat) : Nat :=
  match s.flows.find? (fun i => s.flowTakes i b), (List.range 256).find? (fun k => s.slotTakes k b), (s.abuf b).from302 with
  | some i, _, _ => (s.fld (Reg.FT_CTRL i) 26 24) * 268435456 + i % 65536
  | none, some k, _ => 3 * 268435456 + k
  | none, none, some c => 4 * 268435456 + c
  | none, none, none => 0

/-! ## Writing and reading -/

/-- The package audio event (R139, R149, R496): what, port and buffer. Where no port takes part, as at an overrun, at an underrun of a
multiplexer's or a flow's reader and at a switch of the word clock, the port field is 0; R496 does not say. DESIGN CHOICE (log 39). -/
def State.audioEvent (s : State) (what port buf : Nat) : State :=
  s.raise 4 (1048576 * what + 65536 * port + buf % 65536)

/-- The first of its kind in any 1 s of a buffer raises the event (R139). -/
def State.firstIn1s (s : State) (t : Option Int) : Bool :=
  match t with
  | none => true
  | some x => decide (x + 1000000000 ≤ s.now)

/-- The writer of buffer `b` stores one word; at 8,192 for any attached reader it overwrites the newest (R138). -/
def State.audioWrite (s : State) (b : Nat) (w : Word) (stamp : Int) : State :=
  let x := s.abuf b
  if x.rds.any fun r => decide (8192 ≤ x.wr - r.idx) then
    let y := { x with words := w :: x.words.drop 1, overs := x.overs + 1, stamp := stamp,
                      overAt := (if s.firstIn1s x.overAt then some s.now else x.overAt) }
    (s.setAbuf b y).when (s.firstIn1s x.overAt) fun s => s.audioEvent 2 0 b
  else s.setAbuf b { x with words := (w :: x.words).take 8192, wr := x.wr + 1, stamp := stamp }

/-- Attach a reader that is to begin with sample `idx`; a buffer has at most four (R133). -/
def State.attachAt (s : State) (b id idx : Nat) : State :=
  let x := s.abuf b
  if x.rds.any (fun r => r.id == id) || decide (4 ≤ x.rds.length) then s
  else s.setAbuf b { x with rds := x.rds ++ [AReader.mk id (min x.wr (max (x.wr - 8192) idx)) false 0 false] }

/-- Attach a reader: its index stands at what is written now. -/
def State.attach (s : State) (b id : Nat) : State := s.attachAt b id (s.abuf b).wr

/-- Index of the first 48 kHz sample instant at or after `t` ns. -/
def sampleAt (t : Int) : Int := -(-(t * 48000) / 1000000000)

/-- Index of the 48 kHz sample instant nearest to `t` ns. -/
def sampleNear (t : Int) : Int := (t * 96000 + 1000000000) / 2000000000

/-- Where sample `n` of PTP-visible time stands in buffer `b`, going by the instant of the newest sample. -/
def State.sampleIndex (s : State) (b : Nat) (n : Int) : Nat :=
  let x := s.abuf b
  ((x.wr : Int) - 1 - sampleNear (x.stamp + s.clk.doff) + n).toNat

def State.detach (s : State) (b id : Nat) : State :=
  let x := s.abuf b
  s.setAbuf b { x with rds := x.rds.filter fun r => r.id != id }

/-- Set a reader's record. -/
def setReader (x : ABuf) (r : AReader) : ABuf :=
  { x with rds := x.rds.map fun q => (if q.id = r.id then r else q) }

/-- A reader reads one word (R136, R137): with `lat` it starts only once its fill reaches it; an underrun repeats the last
word. A reader that has not started is in underrun where its buffer has no writer (R133) or was moved (R134). Answers the
word, and whether it was an underrun. -/
def State.audioRead (s : State) (b id lat : Nat) : State × Word × Bool :=
  let x := s.abuf b
  match x.rds.find? (fun r => r.id == id) with
  | none => (s, 0, false)
  | some r =>
    let fill := x.wr - r.idx
    let waits := !r.started && decide (fill < lat)
    if waits && !r.moved && decide (s.bufWriter b ≠ 0) then (s, 0, false)
    else if waits || decide (fill = 0) then
      let at' := if s.firstIn1s x.underAt then some s.now else x.underAt
      let y := setReader { x with under := x.under + 1, underAt := at' } { r with started := !waits }
      ((s.setAbuf b y).when (s.firstIn1s x.underAt) fun s => s.audioEvent 1 (if id < 256 then id / 16 else 0) b,
        r.last, true)
    else
      let w := x.words.getD (fill - 1) 0
      (s.setAbuf b (setReader x { r with idx := r.idx + 1, started := true, moved := false, last := w }), w, false)

/-- Die that holds buffer `b` (R133, R134). -/
def State.bufDie (s : State) (b : Nat) : Nat :=
  let d := b / 128
  if s.dieOk d then d else ([d ^^^ 1, d ^^^ 2, d ^^^ 4].find? s.dieOk).getD
    (((List.range 8).find? s.dieOk).getD d)

/-- A buffer begun again: empty, its serial readers to start anew under R136 (R134). -/
def ABuf.restarted (x : ABuf) : ABuf :=
  { x with wr := 0, words := [], rds := x.rds.map fun r => { r with
    idx := 0, started := r.started && decide (256 ≤ r.id), moved := r.started || r.moved } }

/-- Every buffer that die `d` holds restarts empty on its host when the die is retired (R134). -/
def State.restartBufs (s : State) (d : Nat) : State :=
  let was := s.setBit Reg.SAF_STATUS (16 + d) true
  let f := fun (e : Nat × ABuf) => if was.bufDie e.1 = d then (e.1, e.2.restarted) else e
  { s with aud := { s.aud with bufs := s.aud.bufs.map f } }

/-! ## Ports (R130, R140) -/

def State.aport (s : State) (p : Nat) : APort := s.aud.ports.getD p APort.reset

def State.modAport (s : State) (p : Nat) (f : APort → APort) : State :=
  { s with aud := { s.aud with ports := s.aud.ports.modify p f } }

/-- Detach every slot of a port from its buffer (R139, R140). -/
def State.detachPort (s : State) (p : Nat) : State :=
  s.each (List.range 16) fun i s => s.detach (s.fld (Reg.AUD_SLOT_BUF p i) 9 0) (16 * p + i)

/-- A port is still in the post-roll before it leaves WCLK_IN, which runs on the flywheel frequency (R149). -/
def State.rolling (s : State) : Bool :=
  s.aud.ports.any fun x => decide (x.phase ≠ .stopped) && (x.restart || s.aud.lost)

/-- The flywheel ends with the last post-roll that runs on it (R149). -/
def State.endFlywheel (s : State) : State :=
  s.when ((s.aud.fallback || s.aud.lost) && !s.rolling) fun s => { s with aud := { s.aud with flywheel := false } }

/-- A die that fails takes its two ports with it (R130, R134). -/
def State.losePorts (s : State) (d : Nat) : State :=
  (s.each [2 * d, 2 * d + 1] fun p s =>
    (s.detachPort p).modAport p fun x => { x with phase := .stopped, restart := false }).endFlywheel

/-- A counter of die `d`'s copy of the flow table; the register shows the sum over the dies (R103, R106). -/
def State.countFlow (s : State) (a d : Nat) : State :=
  let n := ((s.ing.copies.find? fun e => e.1 == a && e.2.1 == d).map (·.2.2)).getD 0
  ({ s with ing := { s.ing with
    copies := (a, d, (n + 1) % 4294967296) :: s.ing.copies.filter fun e => !(e.1 == a && e.2.1 == d) } }).bump a

/-- The copies of a die that works no more leave the sum. -/
def State.loseCopies (s : State) (d : Nat) : State :=
  let gone := s.ing.copies.filter fun e => e.2.1 == d
  let s := { s with ing := { s.ing with copies := s.ing.copies.filter fun e => e.2.1 != d } }
  s.each gone fun e s => s.bump e.1 (4294967296 - e.2.2)

/-- The masks of the image are in force when the unit becomes LIVE. -/
def State.loadMasks (s : State) : State :=
  s.each (List.range 16) fun p s =>
    let m := s.fld (Reg.AUD_SLOT_MASK p) 15 0
    s.modAport p fun x => { x with mask := m, staged := [] }

/-- The word of a sample of an ST 2110-30 flow, L16 or L24, or of an ST 2110-31 one (R135). -/
def audioWord (aes l24 : Bool) (x : AudioSample) : Word :=
  if aes then BitVec.ofNat 32 (256 * (x.bits % 16777216) + 8 * b2n x.v + 4 * b2n x.u + 2 * b2n x.c + b2n x.z)
  else if l24 then BitVec.ofNat 32 (256 * (x.bits % 16777216)) else BitVec.ofNat 32 (65536 * (x.bits % 65536))

end Sys2Proof.Machine
end

