-- ==== Sys2Proof/Machine/Confirm.lean ====
section
/-! DEFINITION. Comparing the digests of an item with the partner's (R345 to R347), and whether a channel has an output. -/

namespace Sys2Proof.Machine

/-! ## Whether a channel has an output (R284) -/

def State.flowValid (s : State) (i : Nat) : Bool := s.bit (Reg.OF_CTRL i) 31

/-- The flow sends on its red (`false`) or blue path. -/
def State.pathEn (s : State) (i : Nat) (blue : Bool) : Bool := s.bit (Reg.OF_CTRL i) (if blue then 28 else 29)

def State.outFlow (s : State) (n : Nat) : Nat := s.fld (Reg.CHN_OUT_FLOW n) 10 0

/-- The output of channel `n` sends nothing (R284). -/
def State.noOutput (s : State) (n : Nat) : Bool :=
  let i := s.outFlow n
  !s.bit (Reg.CHN_OUT_FLOW n) 31 || !s.flowValid i || (!s.pathEn i false && !s.pathEn i true)

/-! ## Confirmation of an item (R346) -/

/-- Every comparison of an item that has both sides; `none` while one side is missing. -/
def Item.agrees (it : Item) : Option Bool :=
  let pairs := (it.inDigest.zip it.inPartner) ++ (it.bands.map fun b => (b.digest, b.partner)) ++
    [(it.mux, it.muxPartner)]
  if pairs.any fun p => (match p with | (some a, some b) => a != b | _ => false) then some false
  else if pairs.all fun p => p.1.isSome && p.2.isSome then some true else none

/-- An item as it is compared: a channel without output has no mux digest on either unit, and none is awaited. DEDUCED
(log 53). -/
def State.asCompared (s : State) (n : Nat) (it : Item) : Item :=
  if s.noOutput n then { it with mux := some 0, muxPartner := some 0 } else it

/-- Compare item `k` (R346): the first mismatch makes the channel unconfirmed; CONFIRM_N items in a row confirm it. -/
def State.compareItem (s : State) (n k : Nat) : State :=
  match s.item? n k with
  | none => s
  | some it =>
    if it.compared || !s.paired then s
    else match (s.asCompared n it).agrees with
      | none => s
      | some false => (s.modItem n k fun it => { it with compared := true }).unconfirm n
      | some true =>
        let s := s.modItem n k fun it => { it with compared := true }
        let run := if it.own then 0 else (s.chan n).confirmRun + 1
        let s := s.modChan n fun c => { c with confirmRun := run }
        if s.isStandby && !s.confirmed n && decide (s.fld Reg.TWN_CTRL 23 16 ≤ run) && decide (s.chanState n = 5)
        then s.confirm n else s

end Sys2Proof.Machine
end

