-- ==== Sys2Proof/Machine/Picture.lean ====
section
/-! DEFINITION. Pictures as samples: unpacking, input preparation, the slate, and the analysis of stage 1 (R118, R120 to R124,
R164, R186, R196). -/

namespace Sys2Proof.Machine

/-- A sample of a plane; outside it, the nearest one inside. -/
def pixel (p : Plane) (x y : Int) : Nat :=
  let row := p.getD (clipInt 0 ((p.length : Int) - 1) y).toNat []
  row.getD (clipInt 0 ((row.length : Int) - 1) x).toNat 0

/-- The `w` × `h` samples of a plane from column `x` and row `y` on. -/
def window (p : Plane) (x y : Int) (w h : Nat) : Plane :=
  (List.range h).map fun (j : Nat) => (List.range w).map fun (i : Nat) => pixel p (x + i) (y + j)

def plane (p : Pic) (c : Nat) : Plane := p.getD c []

def planeWidth (p : Plane) : Nat := (p.head?.map List.length).getD 0

/-! ## Unpacking (R120, step 1) -/

/-- The samples that octets hold, most significant bit first. -/
def unpackSamples (depth : Nat) (bs : List Byte) : List Nat :=
  let v := bs.foldl (fun a b => a * 256 + b.toNat) 0
  let n := 8 * bs.length
  (List.range (n / depth)).map fun i => v / 2 ^ (n - depth * (i + 1)) % 2 ^ depth

/-- Every `k`-th sample from number `i` on. -/
def every (k i : Nat) (l : List Nat) : List Nat := (List.range ((l.length + k - 1 - i) / k)).map fun j => l.getD (k * j + i) 0

/-- The samples of each component, in the order of the planes. PRESUMED (log 51): the pixel groups of ST 2110-20, Cb Y Cr Y
for 4:2:2, Cb Y Cr for 4:4:4 and R G B for RGB. -/
def groupComps (sampling : Nat) (l : List Nat) : List (List Nat) :=
  match sampling with
  | 0 => [every 2 1 l, every 4 0 l, every 4 2 l]
  | 1 => [every 3 1 l, every 3 0 l, every 3 2 l]
  | _ => [every 3 1 l, every 3 2 l, every 3 0 l]

def unpackRun (sampling depth : Nat) (r : VideoRun) : LineRun :=
  ⟨r.line, r.lo, r.hi, groupComps sampling (unpackSamples depth r.octets)⟩

/-! ## Lines of an input picture -/

/-- Luma columns, and lines, for one sample of component `c` of the input: sampling 3 is a decoded 4:2:0 picture. -/
def inputStep (sampling c : Nat) : Nat := if (sampling = 0 ∨ sampling = 3) ∧ c ≠ 0 then 2 else 1
def inputRowStep (sampling c : Nat) : Nat := if sampling = 3 ∧ c ≠ 0 then 2 else 1

/-- The sample of component `c` at luma column `x` of a line: of the first run that holds it, since the first write stands. -/
def runSample (runs : List LineRun) (sampling c l x : Nat) : Nat :=
  match runs.find? (fun r => r.line == l && decide (r.lo ≤ x) && decide (x < r.hi)) with
  | none => 0
  | some r => (r.comps.getD c []).getD ((x - r.lo) / inputStep sampling c) 0

def inputLine (runs : List LineRun) (sampling w l : Nat) : List (List Nat) :=
  (List.range 3).map fun c =>
    let k := inputStep sampling c
    (List.range (w / k)).map fun i => runSample runs sampling c l (k * i)

def inputPic (runs : List LineRun) (sampling w h : Nat) : Pic :=
  (List.range 3).map fun c =>
    let k := inputRowStep sampling c
    (List.range (h / k)).map fun l => (inputLine runs sampling w (k * l)).getD c []

/-- What a repaired line holds (R118): the collocated line of the last accepted input picture, or code 512. -/
def repairLine (last : Option (List LineRun)) (sampling w l : Nat) : LineRun :=
  ⟨l, 0, w, match last with
    | some runs => inputLine runs sampling w l
    | none => (List.range 3).map fun c => List.replicate (w / inputStep sampling c) 512⟩

/-! ## Preparation (R120, R121) -/

/-- What preparation of a picture depends on besides its samples. -/
structure Prep where
  idx : Nat
  depth12 : Bool
  sampling : Nat
  full : Bool
  colorimetry : Nat
  conv : Nat
  rot : Nat
  mirH : Bool
  mirV : Bool
  filter : Nat
  outW : Nat
  outH : Nat
  chroma : Nat
deriving DecidableEq, Repr

/-- One step of the LFSR of R121, taps 16, 14, 13 and 11. -/
def lfsrStep (v : Nat) : Nat := v / 2 + 32768 * ((v ^^^ v / 4 ^^^ v / 8 ^^^ v / 32) % 2)

def lfsrSeed (idx : Nat) : Nat := 0xACE1 ^^^ (idx % 65536)

def ditherSample (v s : Nat) : Nat := min 1023 ((s + v % 4) / 4)

/-- Dither of one line from LFSR state `v`: at each column Y, and where it has them Cb and Cr. DEDUCED (log 51): raster order
with the components of a position in the order Y, Cb, Cr; the first sample takes the seed itself. -/
def ditherLine (k : Nat) : Nat → Nat → List Nat → List Nat → List Nat → Nat × List Nat × List Nat × List Nat
  | v, _, [], cb, cr => (v, [], cb, cr)
  | v, x, y :: ys, cb, cr =>
    let y' := ditherSample v y
    let v1 := lfsrStep v
    if x % k = 0 then
      let v2 := lfsrStep v1
      let (w, ys', cb', cr') := ditherLine k (lfsrStep v2) (x + 1) ys cb.tail cr.tail
      (w, y' :: ys', ditherSample v1 (cb.headD 0) :: cb', ditherSample v2 (cr.headD 0) :: cr')
    else
      let (w, ys', cb', cr') := ditherLine k v1 (x + 1) ys cb cr
      (w, y' :: ys', cb', cr')

/-- Dither of a picture. R121 names the order of Y, Cb and Cr only: of an RGB picture the planes are taken as they stand, G, B, R.
DESIGN CHOICE (log 51). -/
def ditherLines (k : Nat) : Nat → Plane → Plane → Plane → Pic
  | _, [], _, _ => [[], [], []]
  | v, y :: ys, cb, cr =>
    let (w, y', cb', cr') := ditherLine k v 0 y (cb.headD []) (cr.headD [])
    let rest := ditherLines k w ys cb.tail cr.tail
    [y' :: plane rest 0, cb' :: plane rest 1, cr' :: plane rest 2]

def mapPlane (f : Nat → Nat) (p : Plane) : Plane := p.map fun r => r.map f

/-- Steps 2 to 5: dither, range, matrix, conversion. -/
def prepColour (x : Prep) (p : Pic) : Pic :=
  let p := if x.depth12 then
      ditherLines (inputStep x.sampling 1) (lfsrSeed x.idx) (plane p 0) (plane p 1) (plane p 2)
    else p
  let p := if x.full then p.mapIdx fun c q => mapPlane (Config.narrow c) q else p
  let p := if x.sampling = 2 then
      (List.range 3).map fun c => (plane p 0).mapIdx fun y r => r.mapIdx fun i g =>
        (Config.rgbToYcc x.colorimetry g (pixel (plane p 1) i y) (pixel (plane p 2) i y)).getD c 0
    else p
  if x.conv = 0 then p
  else
    -- The luma lines that share one chroma line, two in a 4:2:0 picture, are converted together.
    let k := inputRowStep x.sampling 1
    let out := fun (g : Nat) => Config.convertRows x.conv
      [(List.range k).map fun i => (plane p 0).getD (k * g + i) [], [(plane p 1).getD g []], [(plane p 2).getD g []]]
    let lines := fun (c n d : Nat) => (List.range n).map fun l => (plane (out (l / d)) c).getD (l % d) []
    [lines 0 (plane p 0).length k, lines 1 (plane p 1).length 1, lines 2 (plane p 2).length 1]

def transpose (p : Plane) : Plane := (List.range (planeWidth p)).map fun x => p.map fun r => r.getD x 0

/-- Clockwise rotation by quarter turns, then mirroring (step 6). -/
def turnPlane (rot : Nat) (mirH mirV : Bool) (p : Plane) : Plane :=
  let q := match rot with
    | 1 => transpose p.reverse
    | 2 => (p.map List.reverse).reverse
    | 3 => (transpose p).reverse
    | _ => p
  let q := if mirH then q.map List.reverse else q
  if mirV then q.reverse else q

/-- Input position of output row or column `i`, rounded down (R542). -/
def tapPos (n out i : Nat) : Int := ((2 * (i : Int) + 1) * n - out) / (2 * out)

/-- One row of a plane scaled to `w` × `h` (step 7): eight taps each way, held inside the plane. -/
def scaleRow (filter w h : Nat) (p : Plane) (y : Nat) : List Nat :=
  let pw := planeWidth p
  (List.range w).map fun x => min 1023 (Config.scaleTap filter [p.length, h, y, pw, w, x]
    (window p (tapPos pw w x - 3) (tapPos p.length h y - 3) 8 8))

def scalePlane (filter w h : Nat) (p : Plane) : Plane := (List.range h).map fun y => scaleRow filter w h p y

/-- Columns and rows of a chroma plane of a `w` × `h` picture (R75). -/
def chromaSize (chroma w h : Nat) : Nat × Nat := (if chroma = 2 then w else w / 2, if chroma = 0 then h / 2 else h)

/-- Rows `lo` to `hi` − 1 of a picture of rows already scaled (step 8): `luma` gives a luma row, `rows` a row of a chroma component
and `size` its columns and rows before they are resampled. -/
def resampleRows (chroma outW outH : Nat) (luma : Nat → List Nat) (rows : Nat → Nat → List Nat) (size : Nat → Nat × Nat)
    (lo hi : Nat) : Pic :=
  let (cw, ch) := chromaSize chroma outW outH
  let span := fun (lo hi : Nat) (f : Nat → List Nat) => (List.range (hi - lo)).map fun i => f (lo + i)
  let k := if chroma = 0 then 2 else 1
  let chromaOf := fun (c : Nat) => span (lo / k) (hi / k) fun r =>
    let (w1, h1) := size c
    let centre : Int := (r * h1 / max 1 ch : Nat)
    let near := (List.range 10).map fun (i : Nat) => rows c (clipInt 0 ((h1 : Int) - 1) (centre - 4 + i)).toNat
    ((Config.chromaRow [w1, h1, cw, ch, c, r] near).take cw).map (min 1023)
  [span lo hi luma, chromaOf 1, chromaOf 2]

/-- Rows `lo` to `hi` − 1 of the prepared picture, from the picture after step 6: scaling and chroma resampling (steps 7 and
8). -/
def prepRows (x : Prep) (p : Pic) (lo hi : Nat) : Pic :=
  let y := plane p 0
  let size := fun (c : Nat) =>
    (x.outW * planeWidth (plane p c) / max 1 (planeWidth y), x.outH * (plane p c).length / max 1 y.length)
  resampleRows x.chroma x.outW x.outH (fun r => scaleRow x.filter x.outW x.outH y r)
    (fun c r => scaleRow x.filter (size c).1 (size c).2 (plane p c) r) size lo hi

/-- Rows of the prepared picture of what has arrived (R120). -/
def prepare (x : Prep) (w h : Nat) (runs : List LineRun) (lo hi : Nat) : Pic :=
  prepRows x ((prepColour x (inputPic runs x.sampling w h)).map (turnPlane x.rot x.mirH x.mirV)) lo hi

/-! ## The slate (R124) -/

/-- Scale by passes of at most 2×, as many as the size needs: none for a plane that has it. -/
def slatePasses : Nat → Nat → Nat → Plane → Plane
  | 0, _, _, p => p
  | fuel + 1, w, h, p =>
    if planeWidth p = w ∧ p.length = h then p
    else slatePasses fuel w h (scalePlane 0 (min w (2 * planeWidth p)) (min h (2 * p.length)) p)

/-- Code 512 in every component. -/
def greyPic (chroma w h : Nat) : Pic :=
  let (cw, ch) := chromaSize chroma w h
  let grey := fun (w h : Nat) => List.replicate h (List.replicate w 512)
  [grey w h, grey cw ch, grey cw ch]

/-- CONV that brings a slate of a colorimetry to the BT.2020 (`wide`) or BT.709 samples of a channel's SDR pictures. -/
def slateConv (colorimetry : Nat) (wide : Bool) : Nat :=
  if wide && decide (colorimetry = 0) then 1 else if !wide && decide (colorimetry ≠ 0) then 2 else 0

/-- The prepared slate: the section's picture of SLATE_ID, or the built-in one. The spec does not say which preparation settings
apply to a slate: it takes filter set 0, no rotation and no mirroring, and is converted from its own colorimetry to that of the
channel's prepared pictures where those are SDR (`wide`). DESIGN CHOICE (log 51). -/
def slatePic (section_ : List Byte) (id chroma w h : Nat) (wide : Option Bool) : Pic :=
  match if id = 255 then none else Config.slatePicture section_ id with
  | none => greyPic chroma w h
  | some (p, colorimetry) =>
    let conv := (wide.map (slateConv colorimetry)).getD 0
    let p := prepColour ⟨0, false, 0, false, colorimetry, conv, 0, false, false, 0, w, h, chroma⟩ p
    let y := slatePasses 8 w h (plane p 0)
    let c := fun (i : Nat) => slatePasses 8 (w / 2) h (plane p i)
    resampleRows chroma w h (fun r => y.getD r []) (fun i r => (c i).getD r []) (fun _ => (w / 2, h)) 0 h

/-! ## Analysis (R164, R186, R196) -/

/-- Quarter-resolution luma: the integer mean of each 4 × 4 samples, rounded down. -/
def quarter (p : Plane) : Plane :=
  (List.range (ceilDiv p.length 4)).map fun (y : Nat) => (List.range (ceilDiv (planeWidth p) 4)).map fun (x : Nat) =>
    (window p (4 * x) (4 * y) 4 4).foldl (fun a r => r.foldl (· + ·) a) 0 / 16

def flat (p : Plane) : List Nat := p.flatMap fun r => r

/-- Sum of absolute differences. -/
def sad (a b : List Nat) : Nat := (a.zip b).foldl (fun t x => t + ((x.1 : Int) - x.2).natAbs) 0

def meanNat (l : List Nat) : Nat := l.foldl (· + ·) 0 / max 1 l.length

/-- SAD of an 8×8 block against its own mean. -/
def selfSad (b : List Nat) : Nat := sad b (List.replicate b.length (meanNat b))

/-- The best match of an 8×8 block within ±8 samples of the reference, of equal ones the one nearest to raster order after zero
motion: its SAD and offset. -/
def bestMatch (b : List Nat) (ref : Plane) (x y : Nat) : Nat × Int × Int :=
  let offs := (List.range 17).flatMap fun (j : Nat) => (List.range 17).map fun (i : Nat) => ((i : Int) - 8, (j : Int) - 8)
  let cost := fun (o : Int × Int) => sad b (flat (window ref (x + o.1) (y + o.2) 8 8))
  offs.foldl (fun best o => if cost o < best.1 then (cost o, o) else best) (cost (0, 0), (0, 0))

/-- What the analysis of a band finds: complexity C, mean activity and that of each 8×8 block row of CTUs, how many blocks
have the smaller match against the picture before and the one before that, of all (R186, R196, R198), the coarse motion of each
block against the picture before, in quarter-resolution samples, and the histogram (R164). -/
structure Analysis where
  cost : Nat
  act : Nat
  acts : List Nat
  small : Nat
  small2 : Nat
  blocks : Nat
  coarse : List (Int × Int)
  hist : List Nat
deriving DecidableEq, Repr

/-- The 8×8 blocks of a plane's rows: positions. -/
def blockGrid (p : Plane) : List (Nat × Nat) :=
  (List.range (ceilDiv p.length 8)).flatMap fun y => (List.range (ceilDiv (planeWidth p) 8)).map fun x => (8 * x, 8 * y)

/-- Stage 1 of a band (R164): `band` are its prepared luma rows from row `top` on, `ctu` the CTU size, `before` and `before2` the
luma of the source pictures j − 1 and j − 2. DEDUCED (log 51): the intra cost estimate of a quarter-resolution block is its SAD
against its own mean and the inter cost estimate that of its best match, the two that R186 compares; without a picture
before, no match is the smaller. -/
def analyse (band : Plane) (top ctu : Nat) (before before2 : Option Plane) : Analysis :=
  let q := quarter band
  let q1 := before.map quarter
  let q2 := before2.map quarter
  let found := (blockGrid q).map fun o =>
    let b := flat (window q o.1 o.2 8 8)
    let own := selfSad b
    let m := fun (r : Option Plane) => r.map fun r => bestMatch b r o.1 (top / 4 + o.2)
    (own, m q1, m q2)
  let less := fun (m : Option (Nat × Int × Int)) (own : Nat) => match m with | none => false | some v => decide (v.1 < own)
  let acts := (blockGrid band).map fun o => (o, Config.activity (window band o.1 o.2 8 8))
  let cols := ceilDiv (planeWidth band) ctu
  ⟨found.foldl (fun t f => t + min f.1 ((f.2.1.map (·.1)).getD f.1)) 0, meanNat (acts.map (·.2)),
    (List.range (cols * ceilDiv band.length ctu)).map fun i =>
      meanNat ((acts.filter fun a => decide (a.1.1 / ctu = i % cols) && decide (a.1.2 / ctu = i / cols)).map (·.2)),
    (found.filter fun f => less f.2.1 f.1).length, (found.filter fun f => less f.2.2 f.1).length, found.length,
    found.map fun f => (f.2.1.map (·.2)).getD (0, 0), Config.histogram q⟩

/-- The samples of a picture as R345 orders them for a digest: planes in turn, each in raster order, each sample as two octets,
low one first. -/
def picOctets (p : Pic) : List Byte :=
  p.flatMap fun q => q.flatMap fun r => r.flatMap fun v => [BitVec.ofNat 8 v, BitVec.ofNat 8 (v / 256)]

end Sys2Proof.Machine
end

