-- ==== Sys2Proof/Machine/Coding.lean ====
section
/-! DEFINITION. Coding of a band as a function of its declared inputs: candidates and their order, cost and choice, what effort
levels and refresh exclude, the SQI, ember reconstruction, storage of reconstructions and concealment (R158, R159, R164 to R168,
R175, R176, R183, R189, R192, R193, R198, R205, R210, R211, R218, R219, R249). -/

namespace Sys2Proof.Machine

/-! ## Effort levels (R175, R176) -/

def byEffort (l : List Nat) (e : Nat) : Nat := l.getD e (l.getLastD 0)

/-- The lowest effort level at which a tool is used; none: never. -/
def toolFrom (hevc : Bool) (t : Tool) : Option Nat :=
  if hevc then (match t with
    | .amp => some 4
    | .rdoq => some 1
    | _ => none)
  else match t with
    | .ternary => some 3
    | .mrl => some 3
    | .dualTree => some 3
    | .cclm => some 2
    | .mip => some 6
    | .isp => some 7
    | .amvr => some 3
    | .mmvd => some 4
    | .sbtmvp => some 4
    | .smvd => some 4
    | .bdof => some 4
    | .dmvr => some 4
    | .gpm => some 5
    | .ciip => some 5
    | .bcw => some 5
    | .affine => some 6
    | .prof => some 6
    | .lfnst => some 4
    | .mts => some 5
    | .sbt => some 6
    | .rdoq => some 1
    | .dependent => some 4
    | .alf => some 1
    | .ccAlf => some 4
    | .lmcs => some 5
    | .amp => none

/-- RDOQ gives way to dependent quantisation in VVC from e4 on. -/
def toolOn (hevc : Bool) (e : Nat) (t : Tool) : Bool :=
  match toolFrom hevc t with
  | none => false
  | some k => decide (k ≤ e) && (decide (t ≠ .rdoq) || hevc || decide (e < 4))

/-- Smallest CU that quadtree splits reach. -/
def minCu (hevc : Bool) (e : Nat) : Nat :=
  byEffort (if hevc then [32, 16, 8] else [32, 16, 16, 8]) e

def mttDepth (hevc : Bool) (e : Nat) : Nat := if hevc then 0 else byEffort [0, 1, 1, 2, 2, 3] e

/-- Transform tree depth (HEVC). -/
def transformDepth (e : Nat) : Nat := byEffort [1, 2, 2, 2, 3] e

def intraCount (hevc : Bool) (e : Nat) : Nat := byEffort [2, 3, 4, 6, 8, 12, 16, if hevc then 35 else 67] e
def mergeCount (hevc : Bool) (e : Nat) : Nat := byEffort (if hevc then [2, 3, 5] else [2, 3, 4, 6]) e
def searchRefs (e : Nat) : Nat := byEffort [1, 1, 2] e

/-- Search range, ± horizontal and ± vertical. -/
def searchRange (e : Nat) : Nat × Nat :=
  [(32, 16), (48, 24), (64, 32), (96, 48), (128, 64), (192, 96), (256, 128)].getD e (256, 128)

/-- Finest search step as a fraction of a sample. -/
def searchStep (hevc : Bool) (e : Nat) : Nat := byEffort (if hevc then [2, 4] else [2, 4, 4, 4, 4, 4, 16]) e

/-- Splits pruned by cost thresholds: at every level but VVC's highest. -/
def prunesSplits (hevc : Bool) (e : Nat) : Bool := hevc || decide (e < 7)

/-- Search range, finest step and transform tree depth of an effort level. -/
def extentOf (hevc : Bool) (e : Nat) : List Nat :=
  [(searchRange e).1, (searchRange e).2, searchStep hevc e, if hevc then transformDepth e else 0]

/-! ## Blocks -/

/-- Columns and rows of a luma rectangle in a plane of the picture. -/
def subX (chroma c : Nat) : Nat := if c ≠ 0 ∧ chroma ≠ 2 then 2 else 1
def subY (chroma c : Nat) : Nat := if c ≠ 0 ∧ chroma = 0 then 2 else 1

/-- The samples of a luma rectangle and the chroma samples that belong to it. -/
def blockOf (chroma : Nat) (p : Pic) (x y w h : Nat) : Pic :=
  (List.range 3).map fun c =>
    let kx := subX chroma c
    let ky := subY chroma c
    window (plane p c) ((x / kx : Nat) : Int) ((y / ky : Nat) : Int) (w / kx) (h / ky)

def setPlaneBlock (p : Plane) (x y : Nat) (b : Plane) : Plane :=
  p.mapIdx fun j r => if y ≤ j ∧ j < y + b.length then
    (let l := b.getD (j - y) []; r.mapIdx fun i v => if x ≤ i ∧ i < x + l.length then l.getD (i - x) v else v) else r

def setBlock (chroma : Nat) (p : Pic) (x y : Nat) (b : Pic) : Pic :=
  p.mapIdx fun c q => setPlaneBlock q (x / subX chroma c) (y / subY chroma c) (plane b c)

/-- Sum of squared differences (R166). -/
def ssd (a b : Pic) : Nat :=
  ((a.flatMap flat).zip (b.flatMap flat)).foldl (fun t x => t + (((x.1 : Int) - x.2) * ((x.1 : Int) - x.2)).natAbs) 0

/-! ## Limits on a candidate (R183, R189) -/

/-- What a coding unit may read. `edge`: it lies in the refreshed region of a sweep picture, which ends at this luma column;
`refEdges`: for each reference, the column where its refreshed region ends, none where it is from before the sweep's start;
`above` and `below`: the first luma row within reach across a part boundary, and one past the last. -/
structure Limits where
  hevc : Bool
  edge : Option Nat
  refEdges : List (Option Nat)
  above : Option Int
  below : Option Int
deriving DecidableEq, Repr

/-- Does a unit that reads these samples and takes its motion vector from there keep the limits? In the refreshed region it reads no sample outside the refreshed region of its reference (in
HEVC none within 8 columns of its edge), no reference from before the sweep, and takes no motion vector from outside the
region; beside a part boundary it reaches no further than the halo. -/
def Limits.allow (l : Limits) (reads : List RefRead) (mvFrom : Option (Nat × Nat)) : Bool :=
  (match l.edge with
   | none => true
   | some e =>
     reads.all (fun r => match l.refEdges.getD r.ref none with
       | none => false
       | some re => decide (r.x1 ≤ (re : Int) - (if l.hevc then 8 else 0))) && mvFrom.all fun p => decide (p.1 < e)) &&
  reads.all fun r => l.above.all (fun a => decide (a ≤ r.y0)) && l.below.all (fun b => decide (r.y1 ≤ b))

/-! ## Candidates in order, cost and choice (R165, R166) -/

/-- Ascending order of mode numbers. -/
def insertMode (x : Nat) : List Nat → List Nat
  | [] => [x]
  | y :: ys => if x ≤ y then x :: y :: ys else y :: insertMode x ys

def sortModes (l : List Nat) : List Nat := l.foldl (fun r x => insertMode x r) []

/-- The candidates within a coding unit in their order (R165), as far as the effort level evaluates them. -/
def kindsOf (i : CuIn) : List CandKind :=
  let e := i.effort
  let on := toolOn i.hevc e
  let some_ := fun (t : Tool) (k : Nat) (f : Nat → CandKind) =>
    if on t then (List.range (Config.variants i k)).map f else []
  let inter :=
    (List.range (mergeCount i.hevc e)).map CandKind.merge ++ some_ .mmvd 0 CandKind.mmvd ++
    (if on .sbtmvp then [CandKind.sbtmvp] else []) ++ some_ .affine 1 CandKind.affineMerge ++ some_ .gpm 2 CandKind.gpm ++
    some_ .ciip 3 CandKind.ciip ++
    (List.range (min (searchRefs e) i.refs.length)).flatMap fun r =>
      (List.range (Config.searchPoints i r)).map fun p => CandKind.motion r p
  (if i.inter then inter else []) ++
    (sortModes ((Config.intraRank i).take (intraCount i.hevc e))).map CandKind.intra ++
    some_ .mip 4 CandKind.mip ++ some_ .isp 5 CandKind.isp

/-- J = D + λ × R as a 64-bit integer (R166). The rule gives it no unit: here it is 2⁻²¹, so that the 16 fraction bits of λ and the
five of R are kept. DESIGN CHOICE (log 51). -/
def costJ (d lambda rate : Nat) : BitVec 64 := BitVec.ofNat 64 (d * 2097152 + lambda * rate)

/-- A coding unit decided: its cost (none: it cannot stand so), the band's reconstruction and the contexts after it, and its
leaves. -/
structure CuRes where
  j : Option (BitVec 64)
  pre : Pic
  ctx : List Nat
  leaves : List Leaf
deriving DecidableEq, Repr

/-- The candidate of lowest cost, of equal ones the first (R166); candidates that a limit excludes are not evaluated. -/
def bestLeaf (chroma : Nat) (lim : Limits) (i : CuIn) : CuRes :=
  let lambda := Config.lambda i.qp
  let none_ : CuRes := ⟨none, i.pre, i.ctx, []⟩
  if Config.splitForced i then none_
  else ((kindsOf i).foldl (fun (acc : CuRes × List Nat) k =>
    if Config.skips i.effort acc.2 k then acc
    else match Config.candidate i k with
      | none => acc
      | some c =>
        if !lim.allow c.reads c.mvFrom || !c.tools.all (toolOn i.hevc i.effort) then acc
        else
          let j := costJ (ssd i.src c.samples) lambda (c.rate + Config.splitRate i none)
          let better : Bool := match acc.1.j with | none => true | some b => decide (j < b)
          (if better then ⟨some j, setBlock chroma i.pre i.x i.y c.samples, c.ctx,
              [⟨i.x, i.y, i.w, i.h, k, c.tools, c.motion, c.levels⟩]⟩
            else acc.1, acc.2 ++ [j.toNat])) (none_, [])).1

/-- The units a split makes: position and size. -/
def splitRects (m : SplitMode) (x y w h : Nat) : List (Nat × Nat × Nat × Nat) :=
  match m with
  | .quad => [(x, y, w / 2, h / 2), (x + w / 2, y, w / 2, h / 2), (x, y + h / 2, w / 2, h / 2), (x + w / 2, y + h / 2, w / 2, h / 2)]
  | .binH => [(x, y, w, h / 2), (x, y + h / 2, w, h / 2)]
  | .binV => [(x, y, w / 2, h), (x + w / 2, y, w / 2, h)]
  | .terH => [(x, y, w, h / 4), (x, y + h / 4, w, h / 2), (x, y + 3 * h / 4, w, h / 4)]
  | .terV => [(x, y, w / 4, h), (x + w / 4, y, w / 2, h), (x + 3 * w / 4, y, w / 4, h)]

/-- Is a split within the effort level's extents and the codec's rules? -/
def splitAllowed (i : CuIn) (m : SplitMode) : Bool :=
  Config.splitLegal i m &&
  (match m with
   | .quad => decide (i.mtt = 0) && decide (minCu i.hevc i.effort ≤ i.w / 2)
   | .binH => decide (i.mtt < mttDepth i.hevc i.effort)
   | .binV => decide (i.mtt < mttDepth i.hevc i.effort)
   | _ => decide (i.mtt < mttDepth i.hevc i.effort) && toolOn i.hevc i.effort .ternary)

/-- Decide a coding unit: not split, then each split in order, of equal costs the first (R165, R166). `src` gives the source
samples of a rectangle of the band. -/
def codeCu (chroma : Nat) (lim : Limits) (src : Pic) : Nat → CuIn → CuRes
  | 0, i => bestLeaf chroma lim i
  | fuel + 1, i =>
    ([SplitMode.quad, .binH, .binV, .terH, .terV].foldl (fun (acc : CuRes × List Nat) m =>
      if !splitAllowed i m || (prunesSplits i.hevc i.effort && Config.prunes i.effort acc.2 m) then acc
      else
        let start : CuRes := ⟨some (costJ 0 (Config.lambda i.qp) (Config.splitRate i (some m))), i.pre, i.ctx, []⟩
        let r := (splitRects m i.x i.y i.w i.h).foldl (fun (a : CuRes) q =>
          let b := codeCu chroma lim src fuel { i with
            x := q.1, y := q.2.1, w := q.2.2.1, h := q.2.2.2, mtt := if m = .quad then 0 else i.mtt + 1,
            src := blockOf chroma src q.1 q.2.1 q.2.2.1 q.2.2.2, pre := a.pre, before := i.before ++ a.leaves, ctx := a.ctx }
          ⟨match a.j, b.j with | some u, some v => some (u + v) | _, _ => none, b.pre, b.ctx, a.leaves ++ b.leaves⟩) start
        let better : Bool := match r.j, acc.1.j with
          | none, _ => false
          | some _, none => true
          | some u, some v => decide (u < v)
        (if better then r else acc.1, acc.2 ++ r.j.toList.map (·.toNat))) (let l := bestLeaf chroma lim i; (l, l.j.toList.map (·.toNat)))).1

/-! ## Bands (R158, R159, R164, R198) -/

/-- What stage 3 of a band depends on. `lims` and `qps` give, for each CTU column and row, its limits, whether it must be intra,
and its QP. -/
structure BandIn where
  hevc : Bool
  effort : Nat
  chroma : Nat
  ctu : Nat
  cols : Nat
  rows : Nat
  sliceQp : Nat
  top : Nat
  record : List Byte
  src : Pic
  refs : List RefView
  search : List (List Int)
  ctus : List (Nat × Bool × Limits)
deriving DecidableEq, Repr

/-- One CTU of a band, after the coding units `before`: its decision, and the reconstruction and contexts after it. Source samples
outside the picture repeat its last column and row (DESIGN CHOICE, log 51). -/
def codeCtu (b : BandIn) (i : Nat) (pre : Pic) (before : List Leaf) (ctx : List Nat) : CtuSyntax × Pic × List Nat :=
  let (qp, intra, lim) := b.ctus.getD i (b.sliceQp, false, ⟨b.hevc, none, [], none, none⟩)
  let x := i % max 1 b.cols * b.ctu
  let y := i / max 1 b.cols * b.ctu
  let r := codeCu b.chroma lim b.src 8 ⟨b.hevc, b.effort, extentOf b.hevc b.effort, qp, b.top, x, y, b.ctu, b.ctu, 0, !intra,
    b.record, blockOf b.chroma b.src x y b.ctu b.ctu, b.refs, pre, before, ctx, b.search.getD i []⟩
  (⟨qp, intra, r.leaves⟩, r.pre, r.ctx)

/-- A picture of code 0 of whole CTUs, as a reconstruction is stored (R217). -/
def blankPic (chroma ctu cols rows : Nat) : Pic :=
  (List.range 3).map fun c => List.replicate (rows * ctu / subY chroma c) (List.replicate (cols * ctu / subX chroma c) 0)

/-- Code the CTUs of a band from left to right, its rows one after the other; a second row takes its contexts from the state
after CTU 1 of the first (R159). -/
def codeBand (b : BandIn) : List CtuSyntax × Pic :=
  let start := Config.ctxStart b.hevc b.sliceQp
  let out := (List.range (b.cols * b.rows)).foldl (fun (a : List CtuSyntax × Pic × List Nat × List Nat) i =>
    let ctx := if i % max 1 b.cols = 0 then (if i = 0 then start else a.2.2.2) else a.2.2.1
    let (c, pre, after) := codeCtu b i a.2.1 (a.1.flatMap (·.leaves)) ctx
    (a.1 ++ [c], pre, after, if i ≤ 1 then after else a.2.2.2)) ([], blankPic b.chroma b.ctu b.cols b.rows, start, start)
  (out.1, out.2.1)

/-- Eight fraction bits of the base-2 logarithm of p / q, for 1 ≤ p / q < 2, by squaring. -/
def log2Bits : Nat → Nat → Nat → Nat → Nat
  | 0, _, _, acc => acc
  | n + 1, p, q, acc =>
    let p2 := p * p
    let q2 := q * q
    if 2 * q2 ≤ p2 then log2Bits n p2 (2 * q2) (2 * acc + 1) else log2Bits n p2 q2 (2 * acc)

/-- Base-2 logarithm of a / b in steps of 1/256 (R196), rounded down (DEDUCED, log 35); no rule gives that of 0. -/
def log2q (a b : Nat) : Int :=
  if a = 0 ∨ b = 0 then Config.log2Zero b
  else if b ≤ a then
    let e := Nat.log2 (a / b)
    256 * e + log2Bits 8 a (b * 2 ^ e) 0
  else
    let e := Nat.log2 ((b - 1) / a) + 1
    log2Bits 8 (a * 2 ^ e) b 0 - 256 * (e : Int)

/-- 65,536 × 2^(r/1536) for r below 1,536, rounded down: the largest factor whose 1,536th power is no larger than that of 65,536
times 2^r, bit by bit from bit `n` − 1. -/
def pow2Bits (r : Nat) : Nat → Nat → Nat
  | 0, f => f
  | n + 1, f =>
    let g := f + 2 ^ n
    pow2Bits r n (if g ^ 1536 ≤ 65536 ^ 1536 * 2 ^ r then g else f)

/-- `x × 2^(k/1536)` with `k` in 1/256 QP (R197), rounded down. DESIGN CHOICE (log 35): the spec gives the fixed table no
precision; here its values have 16 fraction bits. -/
def pow2q (x : Nat) (k : Int) : Nat :=
  let q := k / 1536
  let f := x * pow2Bits (k % 1536).toNat 16 65536
  if 0 ≤ q then f * 2 ^ q.toNat / 65536 else f / (65536 * 2 ^ (-q).toNat)

/-- QP of a CTU (R198): the band's plus the activity offset, two less for an intra CTU of a sweep, clipped. DEDUCED (log 51):
qp_b and the logarithm, both in 1/256, round to the nearest step, halves up. -/
def ctuQp (hevc : Bool) (qp : Int) (aCtu aBand : Nat) (sweepIntra : Bool) : Nat :=
  let off := clipInt (-3) 3 ((log2q aCtu aBand + 128) / 256)
  (clipInt 4 (if hevc then 51 else 63) ((qp + 128) / 256 + off - (if sweepIntra then 2 else 0))).toNat

/-! ## Structural quality index (R192, R193) -/

/-- Score of one block of 64 samples: source, reconstruction. -/
def blockScore (x y : List Nat) : Nat :=
  let sum := fun (l : List Nat) => l.foldl (· + ·) (0 : Nat)
  let prod := fun (a b : List Nat) => sum ((a.zip b).map fun p => p.1 * p.2)
  let n : Int := 64
  let sx : Int := sum x
  let sy : Int := sum y
  let sxx : Int := prod x x
  let syy : Int := prod y y
  let sxy : Int := prod x y
  let num := (2 * sx * sy + 430080) * (2 * (n * sxy - sx * sy) + 3858432)
  let den := (sx * sx + sy * sy + 430080) * ((n * sxx - sx * sx) + (n * syy - sy * sy) + 3858432)
  (clipInt 0 65536 (65536 * num / den)).toNat

/-- Block scores of one component of a CTU: their sum and count. Blocks wholly outside the picture are left out. -/
def planeScore (src rec : Plane) (x y w h : Nat) : Nat × Nat :=
  let blocks : List (Nat × Nat) := ((List.range (ceilDiv h 8)).flatMap fun (j : Nat) => (List.range (ceilDiv w 8)).map fun (i : Nat) =>
    (x + 8 * i, y + 8 * j)).filter
    fun o => decide (o.1 < planeWidth src) && decide (o.2 < src.length)
  (blocks.foldl (fun t o => t + blockScore (flat (window src o.1 o.2 8 8)) (flat (window rec o.1 o.2 8 8))) 0, blocks.length)

/-- SQI of the CTU at luma column `x` and row `y` of some rows of a picture, in tenths. -/
def ctuSqi (chroma ctu : Nat) (src rec : Pic) (x y : Nat) : Nat :=
  let s := fun (c : Nat) => planeScore (plane src c) (plane rec c) (x / subX chroma c) (y / subY chroma c)
    (ctu / subX chroma c) (ctu / subY chroma c)
  let (a, na) := s 0
  let (b, nb) := s 1
  let (r, nr) := s 2
  let n := max 1 na * max 1 nb * max 1 nr
  1000 * (6 * a * (max 1 nb * max 1 nr) + b * (max 1 na * max 1 nr) + r * (max 1 na * max 1 nb)) / (65536 * 8 * n)

/-- Sum of the SQI of a band's CTUs. -/
def bandSqi (chroma ctu cols rows : Nat) (src rec : Pic) : Nat :=
  (List.range (cols * rows)).foldl (fun t i => t + ctuSqi chroma ctu src rec (i % max 1 cols * ctu) (i / max 1 cols * ctu)) 0

/-! ## Ember bands (R205, R210) -/

/-- Coding units of an intra CTU of an ember band: split as far as the codec forces, by the first split it allows (R165), each
planar. -/
def planarLeaves : Nat → CuIn → List Leaf
  | 0, i => [⟨i.x, i.y, i.w, i.h, .intra 0, [], [], []⟩]
  | fuel + 1, i =>
    match (if Config.splitForced i then [SplitMode.quad, .binH, .binV, .terH, .terV].find? (Config.splitLegal i) else none) with
    | none => [⟨i.x, i.y, i.w, i.h, .intra 0, [], [], []⟩]
    | some m => (splitRects m i.x i.y i.w i.h).flatMap fun q => planarLeaves fuel { i with
        x := q.1, y := q.2.1, w := q.2.2.1, h := q.2.2.2, mtt := if m = .quad then 0 else i.mtt + 1 }

/-- The skip unit of an inter CTU of an ember band: the whole CTU, zero motion from reference 0. -/
def skipLeaf (x y ctu merge : Nat) : Leaf := ⟨x, y, ctu, ctu, .merge merge, [], [⟨x, y, ctu, ctu, [(0, 0, 0)]⟩], []⟩

/-- The CTUs of a band as an ember band: the form of each, intra or inter, at QP `qp`. -/
def emberCtus (b : BandIn) (qp : Nat) (forms : List Bool) : List CtuSyntax :=
  (forms.zipIdx).foldl (fun acc f =>
    let x := f.2 % max 1 b.cols * b.ctu
    let y := f.2 / max 1 b.cols * b.ctu
    let before := acc.flatMap (·.leaves)
    let cu : CuIn := ⟨b.hevc, b.effort, extentOf b.hevc b.effort, qp, b.top, x, y, b.ctu, b.ctu, 0, false, b.record, [], [], [],
      before, [], []⟩
    acc ++ [⟨qp, f.1, if f.1 then planarLeaves 8 cu
      else [skipLeaf x y b.ctu (Config.zeroMerge b.hevc x y before b.refs)]⟩]) []

/-- The reconstruction of an ember band: inter CTUs take the collocated samples of the previous item, the units of intra ones are
planar, with reference samples no further than column `edge` (R183). -/
def emberRec (hevc : Bool) (chroma : Nat) (edge : Option Nat) (ctus : List CtuSyntax) (before : Pic) : Pic :=
  (ctus.flatMap (·.leaves)).foldl (fun p l =>
    if l.motion = [] then setBlock chroma p l.x l.y (Config.planarIntra hevc edge [l.x, l.y, l.w, l.h] p) else p) before

/-! ## Storage of a reconstruction (R217 to R219) -/

/-- Residuals of one component of a unit, mapped to unsigned (R218, steps 1 and 2). -/
def unitResiduals (p : Plane) : List Nat :=
  p.zipIdx.flatMap fun r => r.1.mapIdx fun (i : Nat) (v : Nat) =>
    let pred : Int := if i = 0 then (if r.2 = 0 then 512 else pixel p 0 ((r.2 : Int) - 1)) else r.1.getD (i - 1) 0
    let d : Int := (v : Int) - pred
    if 0 ≤ d then (2 * d).toNat else (-2 * d - 1).toNat

/-- Bits of one Rice code (step 3). -/
def riceBits (k m : Nat) : Nat := if 16 ≤ m / 2 ^ k then 26 else m / 2 ^ k + 1 + k

/-- Parameter, bits and sectors of a unit: the lowest parameter that gives the fewest bits (step 4). -/
def unitCoding (c2 : Nat) (u : Pic) : Nat × Nat × Nat :=
  let ms := u.flatMap unitResiduals
  let bits := fun (k : Nat) => 4 + (ms.map (riceBits k)).foldl (· + ·) 0
  let k := (List.range 11).foldl (fun best k => if bits k < bits best then k else best) 0
  let raw := 4 * c2
  let n := ceilDiv (bits k) 256
  (k, bits k, if raw ≤ n then raw else n)

/-- Bits written for a unit that is not raw, from its samples (steps 3 and 4). -/
def unitBits (u : Pic) (k : Nat) : List Bool :=
  let low := fun (n v : Nat) => (List.range n).map fun i => v.testBit (n - 1 - i)
  let one := fun (m s : Nat) => if 16 ≤ m / 2 ^ k then List.replicate 16 true ++ low 10 s
    else List.replicate (m / 2 ^ k) true ++ [false] ++ low k m
  low 4 k ++ ((u.flatMap unitResiduals).zip (u.flatMap flat)).flatMap fun x => one x.1 x.2

/-- Bytes of a bit string, its end filled with zeros. DESIGN CHOICE (log 51): the first bit is the most significant of its byte. -/
def packBits : Nat → List Bool → List Byte
  | 0, _ => []
  | fuel + 1, l =>
    if l = [] then []
    else BitVec.ofNat 8 ((List.range 8).foldl (fun a i => 2 * a + b2n (l.getD i false)) 0) :: packBits fuel (l.drop 8)

/-- A unit as it is stored (R218): its side-table byte, RAW and the sectors used, and those sectors: raw, the samples in 16-bit
containers, or coded and padded. `c2` is twice 1 + c. -/
def storeUnit (c2 : Nat) (u : Pic) : Nat × List Byte :=
  let (k, bits, n) := unitCoding c2 u
  if 4 * c2 ≤ ceilDiv bits 256 then (128 + n, picOctets u)
  else
    let l := packBits (32 * n) (unitBits u k)
    (n, l ++ List.replicate (32 * n - l.length) 0)

/-- A plane set of a reconstruction as stored, unit by unit in raster order, of the units that `held` names by luma row; the others
are empty. -/
def storePlanes (chroma c2 : Nat) (held : Nat → Bool) (p : Pic) : List (Nat × List Byte) :=
  let w := planeWidth (plane p 0)
  (List.range (ceilDiv (plane p 0).length 4)).flatMap fun j => (List.range (ceilDiv w 32)).map fun i =>
    if held (4 * j) then storeUnit c2 (blockOf chroma p (32 * i) (4 * j) 32 4) else (0, [])

/-- CRC-32 of the final samples of each CTU of a band (R219). -/
def ctuCrcs (chroma ctu cols rows : Nat) (rec : Pic) : List Nat :=
  (List.range (cols * rows)).map fun i =>
    crc32 (picOctets (blockOf chroma rec (i % max 1 cols * ctu) (i / max 1 cols * ctu) ctu ctu))

/-! ## Concealment (R249) -/

/-- Is the sample at a position of the plane inside a lost CTU? -/
def lostAt (ctu sx sy cols : Nat) (lost : List Nat) (x y : Nat) : Bool := lost.contains (y * sy / ctu * cols + x * sx / ctu)

/-- Edge extension: the nearest decoded sample above in the column, otherwise below, otherwise code 512. -/
def extendColumn (col : List Nat) (lost : List Bool) (y : Nat) : Nat :=
  let ok := fun (i : Nat) => lost.getD i false = false
  match ((List.range y).filter ok).getLast? with
  | some i => col.getD i 0
  | none => match ((List.range col.length).filter fun i => y < i ∧ ok i).head? with
    | some i => col.getD i 0
    | none => 512

/-- A picture with its lost CTUs concealed: by collocated copy from `before`, or by edge extension. -/
def conceal (chroma ctu cols : Nat) (lost : List Nat) (before : Option Pic) (p : Pic) : Pic :=
  p.mapIdx fun c q =>
    let at_ := lostAt ctu (subX chroma c) (subY chroma c) cols lost
    match before with
    | some b => q.mapIdx fun y r => r.mapIdx fun x v => if at_ x y then pixel (plane b c) x y else v
    | none =>
      let flags := fun (x : Nat) => (List.range q.length).map fun y => at_ x y
      q.mapIdx fun y r => r.mapIdx fun x v => if at_ x y then extendColumn (q.map fun r => r.getD x 0) (flags x) y else v

end Sys2Proof.Machine
end

