-- ==== Sys2Proof/Machine/Levels.lean ====
section
/-! DEFINITION. Profiles and levels of the coded streams (R179, R180). The level tables and the profile factors are those of
Rec. ITU-T H.266 and H.265, which the spec names and does not reprint: PRESUMED (log 52). -/

namespace Sys2Proof.Machine

/-- A row of a codec standard's level table: level_idc; the largest luma picture size; CPB size and bit rate in units of the
profile's factor, Main and High tier; slices per picture; luma samples per second. -/
structure LevelRow where
  idc : Nat
  maxPs : Nat
  cpbMain : Nat
  cpbHigh : Nat
  slices : Nat
  maxSr : Nat
  brMain : Nat
  brHigh : Nat
deriving DecidableEq, Repr

/-- H.266: tables A.1 and A.2, of the levels that R179 lists. A level without a High tier lists its Main figures twice. -/
def vvcLevels : List LevelRow :=
  [ ⟨32, 122880, 1500, 1500, 16, 3686400, 1500, 1500⟩,
    ⟨35, 245760, 3000, 3000, 20, 7372800, 3000, 3000⟩, ⟨48, 552960, 6000, 6000, 30, 16588800, 6000, 6000⟩,
    ⟨51, 983040, 10000, 10000, 40, 33177600, 10000, 10000⟩, ⟨64, 2228224, 12000, 30000, 75, 66846720, 12000, 30000⟩,
    ⟨67, 2228224, 20000, 50000, 75, 133693440, 20000, 50000⟩, ⟨80, 8912896, 25000, 100000, 200, 267386880, 25000, 100000⟩,
    ⟨83, 8912896, 40000, 160000, 200, 534773760, 40000, 160000⟩,
    ⟨86, 8912896, 60000, 240000, 200, 1069547520, 60000, 240000⟩,
    ⟨96, 35651584, 80000, 240000, 600, 1069547520, 80000, 240000⟩,
    ⟨99, 35651584, 120000, 480000, 600, 2139095040, 120000, 480000⟩,
    ⟨102, 35651584, 180000, 800000, 600, 4278190080, 180000, 800000⟩ ]

/-- H.265: tables A.8 and A.9, of the same levels. -/
def hevcLevels : List LevelRow :=
  [ ⟨60, 122880, 1500, 1500, 16, 3686400, 1500, 1500⟩,
    ⟨63, 245760, 3000, 3000, 20, 7372800, 3000, 3000⟩, ⟨90, 552960, 6000, 6000, 30, 16588800, 6000, 6000⟩,
    ⟨93, 983040, 10000, 10000, 40, 33177600, 10000, 10000⟩, ⟨120, 2228224, 12000, 30000, 75, 66846720, 12000, 30000⟩,
    ⟨123, 2228224, 20000, 50000, 75, 133693440, 20000, 50000⟩, ⟨150, 8912896, 25000, 100000, 200, 267386880, 25000, 100000⟩,
    ⟨153, 8912896, 40000, 160000, 200, 534773760, 40000, 160000⟩,
    ⟨156, 8912896, 60000, 240000, 200, 1069547520, 60000, 240000⟩,
    ⟨180, 35651584, 60000, 240000, 600, 1069547520, 60000, 240000⟩,
    ⟨183, 35651584, 120000, 480000, 600, 2139095040, 120000, 480000⟩,
    ⟨186, 35651584, 240000, 800000, 600, 4278190080, 240000, 800000⟩ ]

/-- Profile of a channel (R74, R179). -/
inductive Profile where
  | vvcMain10 | vvcMain10_444 | hevcMain10 | hevcMain422_10
deriving DecidableEq, Repr

def State.chroma (s : State) (n : Nat) : Nat := s.fld (Reg.CHN_FORMAT n) 25 24

/-- HEVC has no 4:4:4 here (R74); a channel of that mix has no profile. -/
def State.profile (s : State) (n : Nat) : Option Profile :=
  match s.hevc n, s.chroma n with
  | false, 0 => some .vvcMain10
  | false, _ => some .vvcMain10_444
  | true, 0 => some .hevcMain10
  | true, 1 => some .hevcMain422_10
  | true, _ => none

/-- Bits per unit of a level's bit rate and CPB size (the standards' CpbVclFactor). -/
def Profile.factor : Profile → Nat
  | .vvcMain10 => 1000 | .vvcMain10_444 => 2500 | .hevcMain10 => 1000 | .hevcMain422_10 => 1667

/-- general_profile_idc: 1 Main 10 and 33 Main 10 4:4:4 of H.266; 2 Main 10 and 4 format range extensions of H.265. -/
def Profile.idc : Profile → Nat
  | .vvcMain10 => 1 | .vvcMain10_444 => 33 | .hevcMain10 => 2 | .hevcMain422_10 => 4

def State.levels (s : State) (n : Nat) : List LevelRow := if s.hevc n then hevcLevels else vvcLevels

/-- The limits of a level hold the channel's picture size, width and height, luma sample rate, slices per picture (one for
each band, R158), cap rate and CPB size at its tier (R180). -/
def State.levelHolds (s : State) (n : Nat) (l : LevelRow) : Bool :=
  let w := s.chW n
  let h := s.chH n
  let f := ((s.profile n).map Profile.factor).getD 1000
  let high := s.bit (Reg.CHN_CODEC n) 8
  decide (w * h ≤ l.maxPs) && decide (w * w ≤ 8 * l.maxPs) && decide (h * h ≤ 8 * l.maxPs) &&
    decide (s.luma n ≤ 1001 * l.maxSr) && decide (s.bands n ≤ l.slices) &&
    decide (1000 * s.fld (Reg.CHN_CAP_RATE n) 19 0 ≤ f * (if high then l.brHigh else l.brMain)) &&
    decide (1000 * s.fld (Reg.CHN_CPB_SIZE n) 19 0 ≤ f * (if high then l.cpbHigh else l.cpbMain))

/-- The level the stream signals: LEVEL_IDC, or for 0 the lowest level that holds the channel (R180). -/
def State.levelIdc (s : State) (n : Nat) : Nat :=
  let x := s.fld (Reg.CHN_CODEC n) 23 16
  if x ≠ 0 then x else (((s.levels n).find? (s.levelHolds n)).map (·.idc)).getD 0

/-- A LEVEL_IDC other than 0 names a level whose limits the channel keeps (R180). A code that names no level of the standard
counts as one whose limits it exceeds; with LEVEL_IDC 0 some level must hold it. DESIGN CHOICE (log 49). -/
def State.levelOk (s : State) (n : Nat) : Bool :=
  let x := s.fld (Reg.CHN_CODEC n) 23 16
  (s.levels n).any fun l => (decide (x = 0) || decide (l.idc = x)) && s.levelHolds n l

end Sys2Proof.Machine
end

