-- ==== Sys2Proof/Machine/Records.lean ====
section
/-! DEFINITION. Byte layouts of decision records, band entries and gap entries, with their CRCs (R172, R173, R246). -/

namespace Sys2Proof.Machine

/-- The field of `n` bytes at an offset. -/
def fieldAt (l : List Byte) (off n : Nat) : Nat := leNat ((l.drop off).take n)

/-- The bytes with their CRC after them (R53). -/
def withCrc (l : List Byte) : List Byte := l ++ leBytes 4 (crc32 l)

/-- `n` bytes of content and their CRC, which passes. -/
def crcPasses (l : List Byte) (n : Nat) : Bool := decide (l.length = n + 4) && decide (fieldAt l n 4 = crc32 (l.take n))

/-- The picture part of a decision record (R172), 96 bytes. -/
def recordBytes (r : DecisionRecord) : List Byte :=
  withCrc ([BitVec.ofNat 8 r.chan,
      BitVec.ofNat 8 (b2n r.forceRefresh + 2 * b2n r.discontinuity + 4 * b2n r.mirrorH + 8 * b2n r.mirrorV + 16 * b2n r.slateEn),
      BitVec.ofNat 8 (r.effort + 16 * r.dim), BitVec.ofNat 8 r.lookahead] ++
    leBytes 4 r.boundary ++ leBytes 8 r.index ++ leBytes 4 r.qtarget ++ leBytes 4 r.capPic ++ leBytes 4 r.capRate ++
    leBytes 4 r.capWin ++ leBytes 4 (65536 * r.gdrSpan + r.period) ++ leBytes 4 (65536 * r.slateId + r.slateTime) ++
    [BitVec.ofNat 8 r.outcome, BitVec.ofNat 8 r.refreshCause, BitVec.ofNat 8 r.splices.length] ++ leBytes 5 0 ++
    ((List.range 4).flatMap fun i => leBytes 4 (r.splices.getD i 0)) ++ leBytes 8 r.sourceTs ++ leBytes 4 r.refInstant ++
    leBytes 4 r.bandCount ++ leBytes 12 0)

def recordOk (l : List Byte) : Bool := crcPasses l 92

/-- The record that 96 bytes spell. -/
def readRecord (l : List Byte) : DecisionRecord :=
  let flag := fun i => fieldAt l 1 1 / 2 ^ i % 2 = 1
  { chan := fieldAt l 0 1 % 128, forceRefresh := flag 0, discontinuity := flag 1, mirrorH := flag 2, mirrorV := flag 3,
    slateEn := flag 4, effort := fieldAt l 2 1 % 8, dim := fieldAt l 2 1 / 16 % 8, lookahead := fieldAt l 3 1 % 16,
    boundary := fieldAt l 4 4, index := fieldAt l 8 8, qtarget := fieldAt l 0x10 4, capPic := fieldAt l 0x14 4,
    capRate := fieldAt l 0x18 4, capWin := fieldAt l 0x1C 4, gdrSpan := fieldAt l 0x22 1, period := fieldAt l 0x20 2,
    slateId := fieldAt l 0x26 1, slateTime := fieldAt l 0x24 2, outcome := fieldAt l 0x28 1,
    refreshCause := fieldAt l 0x29 1 % 16,
    splices := (List.range (min 4 (fieldAt l 0x2A 1))).map fun i => fieldAt l (0x30 + 4 * i) 4,
    sourceTs := fieldAt l 0x40 8, refInstant := fieldAt l 0x48 4, bandCount := fieldAt l 0x4C 4 }

/-- A band entry (R173), 72 bytes. -/
def entryBytes (e : BandEntry) : List Byte :=
  withCrc ([BitVec.ofNat 8 e.band, BitVec.ofNat 8 e.runs, 0, 0] ++
    (List.range 16).flatMap fun i => leBytes 4 (65536 * (e.lines.getD i (0, 0)).1 + (e.lines.getD i (0, 0)).2))

def entryIntact (l : List Byte) : Bool := crcPasses l 68

/-- The band entry of channel `n` and item `k` that 72 bytes spell. -/
def readEntry (n k : Nat) (l : List Byte) : BandEntry :=
  ⟨n, k, fieldAt l 0 1, fieldAt l 1 1, (List.range (if fieldAt l 1 1 ≤ 16 then fieldAt l 1 1 else 0)).map fun i =>
    (fieldAt l (6 + 4 * i) 2, fieldAt l (4 + 4 * i) 2)⟩

/-- A gap entry (R246), 16 bytes. -/
def gapBytes (g : GapEntry) : List Byte := withCrc ([BitVec.ofNat 8 g.chan, 0] ++ leBytes 2 g.count ++ leBytes 8 g.first)

def gapOk (l : List Byte) : Bool := crcPasses l 12

def readGap (l : List Byte) : GapEntry := ⟨fieldAt l 0 1, fieldAt l 2 2, fieldAt l 4 8⟩

end Sys2Proof.Machine
end

