-- ==== Sys2Proof/Machine/Datapath.lean ====
section
/-! DEFINITION. The samples and coded bytes of a channel's items: what each stage of a band computes from its declared inputs,
and what the headers of an item say (R117, R118, R120 to R124, R158 to R168, R177, R179, R182, R183, R188 to R193, R198, R201, R205 to
R207, R210, R211, R217 to R219, R225 to R227, R290). -/

namespace Sys2Proof.Machine

/-! ## The store of a channel's pictures (R211, R217, R225) -/

def State.picOf (s : State) (n k : Nat) : PicSt := ((s.chan n).pics.find? fun p => p.idx == k).getD (PicSt.blank k)

def State.modPic (s : State) (n k : Nat) (f : PicSt → PicSt) : State :=
  let put := fun (l : List PicSt) =>
    if l.any (fun p => p.idx == k) then l.map fun p => (if p.idx = k then f p else p) else l ++ [f (PicSt.blank k)]
  s.modChan n fun c => { c with pics := put c.pics }

/-- A band's samples in one of the lists of item `k`, or of the item whose picture it repeats. -/
def State.bandIn (s : State) (n k b : Nat) (own shared : PicSt → List (Nat × Pic)) : Pic :=
  let p := s.picOf n k
  match (own p).find? fun e => e.1 == b with
  | some e => e.2
  | none => match p.same with
    | none => []
    | some j => assocGet [] (shared (s.picOf n j)) b

/-- Prepared source; samples as first written and final (R211). A repeat item's are, for every later reader, the final samples
of the repeated picture (R225); its source for later analysis is the repeated picture's (R163). -/
def State.srcBand (s : State) (n k b : Nat) : Pic := s.bandIn n k b (·.src) (·.src)
def State.firstBand (s : State) (n k b : Nat) : Pic := s.bandIn n k b (·.first) (·.final)
def State.finalBand (s : State) (n k b : Nat) : Pic := s.bandIn n k b (·.final) (·.final)

/-- The source that a band is coded from: that of a repeat item coded as a refresh is the reconstruction of the repeated picture
(R185). -/
def State.codedSrc (s : State) (n k b : Nat) : Pic :=
  match (s.picOf n k).again.find? fun e => e.1 == b with
  | some e => e.2
  | none => s.srcBand n k b

/-- Bands one under the other. -/
def stack (l : List Pic) : Pic := (List.range 3).map fun c => l.flatMap fun p => plane p c

def State.srcPic (s : State) (n k : Nat) : Pic := stack ((List.range (s.bands n)).map (s.srcBand n k))
def State.codedPic (s : State) (n k : Nat) : Pic := stack ((List.range (s.bands n)).map (s.codedSrc n k))
def State.firstPic (s : State) (n k : Nat) : Pic := stack ((List.range (s.bands n)).map (s.firstBand n k))
def State.finalPic (s : State) (n k : Nat) : Pic := stack ((List.range (s.bands n)).map (s.finalBand n k))

/-- The samples of a band of code 0, of its size in whole CTUs. -/
def State.blankBand (s : State) (n b : Nat) : Pic := blankPic (s.chroma n) (s.ctu n) (s.ctuCols n) (s.ctuRows n b)

/-! ## Halo and references (R160, R189) -/

/-- The 192 luma rows of a part nearest the boundary of a split picture, with their chroma rows, of bands `rows`. -/
def haloRows (chroma part : Nat) (p : Pic) : Pic :=
  p.mapIdx fun c q => let k := 192 / subY chroma c; if part = 0 then q.drop (q.length - k) else q.take k

/-- A part of a picture, its bands one under the other. -/
def State.partPic (s : State) (n part : Nat) (band : Nat → Pic) : Pic :=
  let (lo, hi) := s.partRange n part
  stack ((List.range (hi - lo)).map fun i => band (lo + i))

/-- The halo that part `part` of item `k` sends: its rows as first written and its final ones. A repeat item's is that of the
picture it repeats (R225). -/
def State.haloOf (s : State) (n k part : Nat) : Pic × Pic :=
  (haloRows (s.chroma n) part (s.partPic n part (s.firstBand n k)), haloRows (s.chroma n) part (s.partPic n part (s.finalBand n k)))

/-- The other part's die holds the halo: what was first written stays as it was, where it has been sent before. -/
def State.keepHalo (s : State) (n k part : Nat) : State :=
  let (first, final) := s.haloOf n k part
  s.modPic n k fun p => { p with halo := assocSet p.halo part (((p.halo.find? fun e => e.1 == part).map (·.2.1)).getD first, final) }

/-- The halo of part `part` of a reference, as the other part's die holds it. -/
def State.heldHalo (s : State) (n k part : Nat) : Pic × Pic :=
  let p := s.picOf n k
  match p.halo.find? fun e => e.1 == part with
  | some e => e.2
  | none => match p.same with
    | none => ([], [])
    | some j => let h := assocGet ([], []) (s.picOf n j).halo part; (h.2, h.2)

/-- Band `b` lies within three bands of the boundary of a split picture. -/
def State.nearLine (s : State) (n b : Nat) : Bool :=
  s.split n && decide (s.lowerFrom n ≤ b + 3) && decide (b < s.lowerFrom n + 3)

/-- What an engine at band `b` sees of reference `k`: `final` samples or those first written. -/
def State.refView (s : State) (n b k : Nat) (final : Bool) : RefView :=
  let part := s.partOf n b
  let (lo, hi) := s.partRange n part
  let own := s.partPic n part (if final then s.finalBand n k else s.firstBand n k)
  let halo := if s.nearLine n b then (let h := s.heldHalo n k (1 - part); if final then h.2 else h.1) else []
  let rows := if part = 0 then stack [own, halo] else stack [halo, own]
  let p := s.picOf n k
  ⟨if part = 0 then 0 else (128 * lo : Nat) - ((plane halo 0).length : Int), rows,
    (List.range (hi - lo)).map fun i => (assocGet [] p.ctus (lo + i)).flatMap fun c => c.leaves.flatMap (·.motion)⟩

/-- Pictures that neither an item, a buffer nor another picture needs are forgotten. -/
def State.prunePics (s : State) (n : Nat) : State :=
  s.modChan n fun c =>
    let held := fun (k : Nat) => c.items.any (fun it => it.idx == k) || c.caught.any (fun it => it.idx == k) || c.pool.any (fun b => b.items.contains k) ||
      c.repairFrom == some k
    let named := c.pics.filterMap fun p => if held p.idx then p.same else none
    { c with pics := c.pics.filter fun p => held p.idx || named.contains p.idx }

/-- Item `k` repeats the picture of item `k` − 1 in every band it has not sealed itself (R163, R225). -/
def State.repeatPic (s : State) (n k : Nat) (keep : Nat → Bool) : State :=
  let j := ((s.picOf n (k - 1)).same).getD (k - 1)
  let own := fun (l : List (Nat × Pic)) => l.filter fun e => keep e.1
  let s := s.modPic n k fun p => { p with
    src := own p.src, again := [], means := (s.picOf n j).means, acts := (s.picOf n j).acts, coarse := [], hists := (s.picOf n j).hists,
    ctus := [], filters := [], halo := [], checked := p.checked.filter fun e => keep e.1,
    pre := own p.pre, first := own p.first, final := own p.final, same := if k = 0 then none else some j }
  s.modChan n fun c => { c with pics := c.pics.map fun p => (if p.same = some k then { p with same := some j } else p) }

/-! ## Input and preparation (R118, R120 to R124) -/

/-- What the preparation of item `it` depends on (R120). -/
def State.prepOf (s : State) (n : Nat) (it : Item) : Prep :=
  let m := s.inputOf n
  let f := Reg.CHN_IN_FORMAT m
  let p := Reg.CHN_IN_PREP n
  ⟨it.idx, decide (s.fld f 1 0 = 1) && s.chKind m != 1, (s.picOf n it.idx).sampling, s.bit f 8, s.fld f 13 12, s.fld p 9 8,
    s.fld p 1 0, it.dr.mirrorH, it.dr.mirrorV, s.fld p 18 16, s.chW n, s.chH n, s.chroma n⟩

/-- Prepare the rows of a band that is ready. -/
def State.prepBand (s : State) (n k b : Nat) : State :=
  match s.item? n k with
  | none => s
  | some it =>
    let size := Reg.CHN_IN_SIZE (s.inputOf n)
    let p := prepare (s.prepOf n it) (s.fld size 12 0) (s.fld size 28 16) (s.picOf n k).input (128 * b)
      (128 * b + s.bandRows n b)
    s.modPic n k fun x => { x with src := assocSet x.src b p }

/-- What arrived of the last accepted picture before item `k`. -/
def State.lastInput (s : State) (n k : Nat) : Option (List LineRun) :=
  ((s.chan n).pics.foldl (fun (best : Option PicSt) p =>
    if p.input = [] ∨ k ≤ p.idx ∨ (best.map fun b => decide (p.idx < b.idx)) = some true then best else some p) none).map (·.input)

/-- Whole lines that repair replaces (R118), from the last accepted picture before item `k`. -/
def State.repairRuns (s : State) (n k : Nat) (lines : List Nat) : State :=
  let last := s.lastInput n k
  let w := s.fld (Reg.CHN_IN_SIZE (s.inputOf n)) 12 0
  s.modPic n k fun x => { x with input := (lines.map (repairLine last x.sampling w)) ++ x.input }

/-- The prepared pictures of channel `n` have BT.2020 colour (R121). -/
def State.wideGamut (s : State) (n : Nat) : Bool :=
  match s.fld (Reg.CHN_IN_PREP n) 9 8 with
  | 1 => true
  | 2 => false
  | _ => decide (s.fld (Reg.CHN_IN_FORMAT (s.inputOf n)) 13 12 ≠ 0)

/-- The slate of an item's record as its source (R124, R163). -/
def State.slateSource (s : State) (n k id : Nat) : State :=
  let sdr := decide (s.fld (Reg.CHN_IN_FORMAT (s.inputOf n)) 17 16 = 0)
  let p := slatePic s.emg.slateSection id (s.chroma n) (s.chW n) (s.chH n) (if sdr then some (s.wideGamut n) else none)
  let rows := fun (b : Nat) => blockOf (s.chroma n) p 0 (128 * b) (s.chW n) (s.bandRows n b)
  s.modPic n k fun x => { x with src := (List.range (s.bands n)).map fun b => (b, rows b) }

/-! ## Stages 1 and 2 (R164, R175, R186, R196) -/

/-- Luma of an item's source, where it has one. -/
def State.lumaOf (s : State) (n k : Nat) : Option Plane :=
  let p := plane (s.srcPic n k) 0
  if p = [] then none else some p

/-- Stage 1 of band `b` against the source pictures of the two items before. -/
def State.analyseBand (s : State) (n k b : Nat) : Analysis :=
  analyse (plane (s.srcBand n k b) 0) (128 * b) (s.ctu n) (if k = 0 then none else s.lumaOf n (k - 1))
    (if k < 2 then none else s.lumaOf n (k - 2))

/-- References that search evaluates (R175). -/
def Item.searched (it : Item) : List Nat := it.refs.take (searchRefs it.dr.effort)

/-- Stage 2 of band `b`: search of each CTU over the references as first written (R211). -/
def State.searchBand (s : State) (n : Nat) (it : Item) (b : Nat) : List (List Int) :=
  let refs := it.searched.map fun r => s.refView n b r false
  let cols := s.ctuCols n
  let e := it.dr.effort
  (List.range (s.ctusOf n b)).map fun i =>
    Config.searchCtu (b2n (s.hevc n) :: e :: extentOf (s.hevc n) e ++ [i % max 1 cols, 128 / s.ctu n * b + i / max 1 cols, s.ctu n])
      (blockOf (s.chroma n) (s.codedSrc n it.idx b) (i % max 1 cols * s.ctu n) (i / max 1 cols * s.ctu n) (s.ctu n) (s.ctu n))
      (assocGet [] (s.picOf n it.idx).coarse b) refs

/-! ## Stage 3 (R159, R164 to R166, R182, R183, R189, R198) -/

/-- CTU columns `[lo, hi)` that an item codes as intra (R182, R184, R205). -/
def State.intraSpan (s : State) (n : Nat) (it : Item) : Nat × Nat :=
  let cols := s.ctuCols n
  match it.refresh with
  | some .idr => (0, cols)
  | some .cra => (0, cols)
  | some .allIntra => (0, cols)
  | _ => if it.sweepLen = 0 then (0, 0)
      else (if it.sweep = 0 then 0 else sweepCols cols it.sweepLen (it.sweep - 1), sweepCols cols it.sweepLen it.sweep)

/-- Columns refreshed after item `j` of the sweep that item `it` is in; none before its start. -/
def State.refreshedTo (s : State) (n : Nat) (it : Item) (j : Nat) : Option Nat :=
  if it.sweepLen = 0 ∨ it.sweep < it.idx - j then none
  else some (sweepCols (s.ctuCols n) it.sweepLen (it.sweep - (it.idx - j)) * s.ctu n)

/-- Limits on the candidates of CTU column `col` of band `b` (R183, R189). -/
def State.limitsOf (s : State) (n : Nat) (it : Item) (b col : Nat) : Limits :=
  let edge := if it.sweepLen = 0 then none else s.refreshedTo n it it.idx
  let line : Int := (128 * s.lowerFrom n : Nat)
  let lower := decide (s.partOf n b ≠ 0)
  ⟨s.hevc n, edge.filter fun e => decide (col * s.ctu n < e), it.refs.map (s.refreshedTo n it),
    if s.split n && lower then some (line - 192) else none, if s.split n && !lower then some (line + 192) else none⟩

/-- Highest QP used, and ember QP (R198). -/
def State.maxQp (s : State) (n : Nat) : Nat := if s.hevc n then 51 else 63

/-- Slice QP: the band QP, rounded and clipped (R198). -/
def State.sliceQp (s : State) (n : Nat) (qp : Int) : Nat := (clipInt 4 (s.maxQp n) ((qp + 128) / 256)).toNat

/-- Mean slice QP of the bands of an item, in 1/256, rounded down: the QP of its mean band in R197. A repeat item is coded as its
ember form is (R163, R205). DEDUCED (log 51): the mean is that of the QPs that its slices signal, which a unit that joins reads in
the catch-up stream, since the carried state holds none. -/
def State.meanQp (s : State) (n : Nat) (it : Item) : Int :=
  if it.form = .repeated ∧ !it.refreshed then 256 * s.maxQp n
  else it.bands.foldl (fun a b => a + 256 * ((if b.ember then s.maxQp n else s.sliceQp n b.qp : Nat) : Int)) (0 : Int) /
    (max 1 it.bands.length : Nat)

/-- The same as a decoder reads it in the coded bands of a catch-up stream. -/
def State.readMeanQp (s : State) (n k : Nat) : Int :=
  let bytes := (List.range (s.bands n)).map (assocGet [] (s.picOf n k).bytes)
  bytes.foldl (fun a l => a + 256 * ((Config.readQp (s.hevc n) l : Nat) : Int)) (0 : Int) / (max 1 bytes.length : Nat)

/-- The QP of the mean band of the item before item `k`, once it is closed (R197). -/
def State.prevQpOf (s : State) (n k : Nat) : Int :=
  match s.item? n (k - 1) with
  | some it => s.meanQp n it
  | none => if (s.chan n).caught.any fun it => it.idx + 1 == k then s.readMeanQp n (k - 1) else 0

/-- What stage 3 of band `b` depends on, at band QP `qp`: its references are the final samples (R211). -/
def State.bandInOf (s : State) (n : Nat) (it : Item) (b : Nat) (qp : Int) : BandIn :=
  let cols := s.ctuCols n
  let (lo, hi) := s.intraSpan n it
  let p := s.picOf n it.idx
  ⟨s.hevc n, it.dr.effort, s.chroma n, s.ctu n, cols, s.ctuRows n b, s.sliceQp n qp, 128 * b, recordBytes it.dr,
    s.codedSrc n it.idx b, it.refs.map fun r => s.refView n b r true, assocGet [] p.search b,
    (List.range (s.ctusOf n b)).map fun i =>
      let col := i % max 1 cols
      let intra := decide (lo ≤ col) && decide (col < hi)
      (ctuQp (s.hevc n) qp ((assocGet [] p.acts b).getD i 0) (it.band b).act (intra && decide (it.sweepLen ≠ 0)), intra,
        s.limitsOf n it b col)⟩

/-- Decide and reconstruct band `b`. -/
def State.codeStage (s : State) (n k b : Nat) (qp : Int) : State :=
  match s.item? n k with
  | none => s
  | some it =>
    let (c, r) := codeBand (s.bandInOf n it b qp)
    s.modPic n k fun p => { p with ctus := assocSet p.ctus b c, pre := assocSet p.pre b r }

/-! ## What the headers of an item say (R158, R177, R179, R180, R182, R188, R201, R207, R227, R290) -/

/-- Reference list signalling (R226, R227). -/
def Item.listSig (it : Item) : ListSig :=
  ⟨it.refs.map fun r => (r, it.kept == some r), it.kept.filter fun h => !it.refs.contains h, 0⟩

/-- The VUI colour description of the prepared picture (R121, R290): primaries, transfer, matrix. A slate's is the channel's
(DESIGN CHOICE, log 51). -/
def State.vui (s : State) (n : Nat) : Nat × Nat × Nat :=
  match s.fld (Reg.CHN_IN_FORMAT (s.inputOf n)) 17 16 with
  | 1 => (9, 16, 9)
  | 2 => (9, 14, 9)
  | _ => if s.wideGamut n then (9, 14, 9) else (1, 1, 1)

def ga94 : List Byte := [0x47, 0x41, 0x39, 0x34]
def dtg1 : List Byte := [0x44, 0x54, 0x47, 0x31]

/-- Is the item a refresh start: an IRAP picture or the start of a sweep, or an all-intra GDR picture? -/
def Item.starts (it : Item) : Bool := decide (it.refresh ≠ none) && decide (it.refresh ≠ some Refresh.none)

/-- Recovery count of a GDR picture (R182, R184). -/
def Item.recovery (it : Item) : Option Nat :=
  match it.refresh with
  | some .gdr => some (it.sweepLen - 1)
  | some .allIntra => some 0
  | _ => none

/-- cc_data in user_data_registered_itu_t_t35 messages of at most 31 triples (R290). PRESUMED (log 51), from ATSC A/53: the count is
preceded by a process flag, and followed and ended by a byte of ones. -/
def captionSeis : Nat → List Byte → List Sei
  | 0, _ => []
  | fuel + 1, l =>
    if l.length < 3 then []
    else
      let n := min 31 (l.length / 3)
      Sei.t35 ga94 (some 3) ([BitVec.ofNat 8 (192 + n), 0xFF] ++ l.take (3 * n) ++ [0xFF]) :: captionSeis fuel (l.drop (3 * n))

/-- SEI messages of an item (R182, R201, R290). PRESUMED (log 51): the AFD code is the first byte of its packet, bar data the
bytes from the fourth on, as SMPTE ST 2016-3 has them. -/
def State.seiOf (s : State) (n : Nat) (it : Item) (rh : Nat) : List Sei :=
  let f := Reg.CHN_OUT_FLAGS n
  (if it.starts then [Sei.bufferingPeriod (1000 * s.fld (Reg.CHN_CPB_SIZE n) 19 0 * 90000 / max 1 rh)] else []) ++
  [Sei.pictureTiming (it.idx - (((it.prior.bind (·.1)).map (·.1)).getD it.idx))] ++
  (if s.hevc n then (it.recovery.map fun c => Sei.recoveryPoint c true).toList else []) ++
  (if s.bit f 2 && it.starts then
    [Sei.mastering ((List.range 6).map fun i => s.rdN (Reg.CHN_OUT_MDCV n i)), Sei.lightLevel (s.rdN (Reg.CHN_OUT_CLL n))] else []) ++
  (if it.starts && decide (s.fld (Reg.CHN_IN_FORMAT (s.inputOf n)) 17 16 = 2) then [Sei.alternativeTransfer 18] else []) ++
  (if s.bit f 0 then captionSeis 1024 it.captions else []) ++
  (if s.bit f 1 && decide (it.afd ≠ []) then
    Sei.t35 dtg1 none (it.afd.take 1) :: (if 3 < it.afd.length then [Sei.t35 ga94 (some 6) (it.afd.drop 3)] else []) else [])

/-- What the codec alone fixes (R158, R176, R179, R227). -/
def fixedSyntax (hevc : Bool) : FixedSyntax :=
  { bitDepth := 10, fieldSeq := false, ctu := if hevc then 64 else 128, smallestCu := 8, rectSlices := !hevc, entropySync := hevc,
    filterSlices := true, filterParts := false, partIsPicture := false, signHiding := hevc, longTerm := true,
    listsInPictureHeader := !hevc, explicitShortTerm := hevc, deltaPocMsb := hevc,
    off := if hevc then [.pcm, .transformSkip, .scalingLists, .crossComponent, .extendedPrecision, .dependentSegments]
      else [.palette, .ibc, .act, .bdpcm, .transformSkip, .resampling, .scalingLists, .multipleLayers, .sliceQpTables] }

/-- What the parameter sets, picture header, APS and SEI of an item say, with HRD rate `rh` and ALF on or off; the ALF and LMCS
models are those derived from the picture before (R164, R169). A repeat item that is no refresh uses neither (R163, R205). -/
def State.headWith (s : State) (n : Nat) (it : Item) (rh : Nat) (alf : Bool) : Head :=
  let e := it.dr.effort
  let on := fun (t : Tool) => toolOn (s.hevc n) e t && !(decide (it.form = .repeated) && !it.refreshed)
  let (pri, tra, mat) := s.vui n
  let models := decide (0 < it.idx) && (on .alf || on .lmcs) && decide (it.refs ≠ [])
  { hevc := s.hevc n, fixed := fixedSyntax (s.hevc n), profile := ((s.profile n).map Profile.idc).getD 0, level := s.levelIdc n, high := s.bit (Reg.CHN_CODEC n) 8,
    tools := it.tools, width := s.chW n, height := s.chH n,
    cropW := s.ctuCols n * s.ctu n - s.chW n, cropH := ceilDiv (s.chH n) (s.ctu n) * s.ctu n - s.chH n,
    chroma := s.chroma n, boundary := if s.split n then some (128 / s.ctu n * s.lowerFrom n) else none,
    sets := it.starts,
    nal := match it.refresh with
      | some .idr => .idrNLp
      | some .cra => .cra
      | some .gdr => if s.hevc n then .trail else .gdr
      | some .allIntra => if s.hevc n then .trail else .gdr
      | _ => .trail,
    recovery := it.recovery,
    virtualAt := if s.hevc n || it.sweepLen = 0 then none
      else (s.refreshedTo n it it.idx).filter fun x => decide (x < s.chW n),
    lists := it.listSig, poc := it.idx, alf := alf && on .alf, ccAlf := alf && on .ccAlf, lmcs := on .lmcs,
    models := if models && (alf || on .lmcs) then Config.models (s.codedPic n (it.idx - 1)) (s.finalPic n (it.idx - 1)) else [],
    primaries := pri, transfer := tra, matrix := mat,
    hrd := if it.starts then (rh, 1000 * s.fld (Reg.CHN_CPB_SIZE n) 19 0, false) else (0, 0, false),
    period := (1001, s.rate n),
    sei := s.seiOf n it rh }

/-- The item's head: with ALF off where its APS would take the overhead past O_max (R207). -/
def State.headOf (s : State) (n : Nat) (it : Item) (rh : Nat) : Head :=
  let h := s.headWith n it rh true
  if h.alf && decide (overheadMax < 8 * (Config.headBytes h).length) then s.headWith n it rh false else h

/-- NAL units of an item that are not slices. R207 bounds them by O_max. -/
def headCode (h : Head) : List Byte := (Config.headBytes h).take (overheadMax / 8)

/-! ## Stage 4 (R160, R192) -/

/-- A band of item `k` before its loop filters; nothing outside the part `[lo, hi)`. -/
def State.unfiltered (s : State) (n k b lo hi : Nat) : Unfiltered :=
  let p := s.picOf n k
  if lo ≤ b ∧ b < hi then ⟨assocGet [] p.pre b, assocGet [] p.ctus b⟩ else ⟨[], []⟩

/-- What the loop filters of band `b` read: in an ember band all of SAO, ALF, CC-ALF and LMCS are off (R205). -/
def State.filterIn (s : State) (n : Nat) (it : Item) (b : Nat) (ember : Bool) : FilterIn :=
  let p := s.picOf n it.idx
  let (lo, hi) := s.partRange n (s.partOf n b)
  let on := fun (f : Head → Bool) => !ember && (p.head.map f).getD false
  ⟨s.hevc n, it.dr.effort, on (·.alf), on (·.ccAlf), on (·.lmcs), !ember,
    if lo < b then s.unfiltered n it.idx (b - 1) lo hi else ⟨[], []⟩, s.unfiltered n it.idx b lo hi,
    s.unfiltered n it.idx (b + 1) lo hi, s.codedSrc n it.idx b, if ember then [] else (p.head.map (·.models)).getD []⟩

/-- The in-loop filters over a band with its filter syntax; they read no source and know no effort level. -/
def filterWith (x : FilterIn) (y : List (List Nat)) : Pic := Config.loopFilter { x with src := [], effort := 0 } y

def State.sqiOf (s : State) (n k b : Nat) : Nat :=
  bandSqi (s.chroma n) (s.ctu n) (s.ctuCols n) (s.ctuRows n b) (s.codedSrc n k b) (s.finalBand n k b)

/-- Filter band `b`: the filter syntax of its CTUs, and its samples as first written, which are final until an ember completion
changes them. -/
def State.filterStage (s : State) (n k b : Nat) : State :=
  match s.item? n k with
  | none => s
  | some it =>
    let x := s.filterIn n it b false
    let y := Config.filterSyntax x
    let r := filterWith x y
    s.modPic n k fun p => { p with
      filters := assocSet p.filters b y, first := assocSet p.first b r, final := assocSet p.final b r }

/-! ## Stage 5 (R158, R205, R206, R208, R210) -/

/-- The form of each CTU of band `b` as an ember band: intra (true) or inter (R205). A repeat item off a refresh has the inter
form throughout (R163). -/
def State.emberForms (s : State) (n : Nat) (it : Item) (b : Nat) : List Bool :=
  let cols := max 1 (s.ctuCols n)
  let (lo, hi) := if it.form = .repeated ∧ !it.refreshed then (0, 0) else s.intraSpan n it
  (List.range (s.ctusOf n b)).map fun i => decide (lo ≤ i % cols) && decide (i % cols < hi)

/-- The CTUs of band `b` as an ember band, at the highest QP. -/
def State.emberBand (s : State) (n : Nat) (it : Item) (b : Nat) : List CtuSyntax :=
  emberCtus (s.bandInOf n it b (256 * s.maxQp n)) (s.maxQp n) (s.emberForms n it b)

/-- The slice of band `b` (R158). -/
def State.sliceOf (s : State) (n : Nat) (it : Item) (b : Nat) (ember : Bool) : SliceSyntax :=
  let p := s.picOf n it.idx
  let on := fun (f : Head → Bool) => !ember && (p.head.map f).getD false
  { band := b, ctuRow := 128 / s.ctu n * b, dependent := false, bSlice := decide (it.refs ≠ []),
    qp := if ember then s.maxQp n else s.sliceQp n (it.band b).qp, entries := if s.hevc n then s.ctuRows n b - 1 else 0,
    sao := !ember, alf := on (·.alf), ccAlf := on (·.ccAlf), lmcs := on (·.lmcs),
    filters := if ember then [] else assocGet [] p.filters b,
    ctus := if ember then s.emberBand n it b else assocGet [] p.ctus b }

/-- The coded bytes of band `b` in its normal form. -/
def State.codeNormal (s : State) (n : Nat) (it : Item) (b : Nat) : List Byte :=
  Config.sliceBytes ((s.picOf n it.idx).head.getD (s.headOf n it it.rh)) (s.sliceOf n it b false)

/-- The coded bytes of band `b` in its ember form. R206 bounds them by E(b), here `bound` bits. -/
def State.codeEmber (s : State) (n : Nat) (it : Item) (b bound : Nat) : List Byte :=
  (Config.sliceBytes ((s.picOf n it.idx).head.getD (s.headOf n it it.rh)) (s.sliceOf n it b true)).take (bound / 8)

/-- Replace the lowest 8 luma rows of a band and the chroma rows that belong to them. -/
def lowestRows (chroma : Nat) (old new : Pic) : Pic :=
  old.mapIdx fun c q => q.take (q.length - 8 / subY chroma c) ++ (plane new c).drop (q.length - 8 / subY chroma c)

/-- The ember syntax and reconstruction of band `b`, its filtering in the ember form, and that of the lowest rows of the band above
across the changed edge with the filter syntax it was coded with (R210): the final samples change, the samples as first written
stay (R211). -/
def State.emberStage (s : State) (n k b : Nat) : State :=
  match s.item? n k with
  | none => s
  | some it =>
    let (lo, _) := s.partRange n (s.partOf n b)
    let before := if k = 0 then [] else s.finalBand n (k - 1) b
    let base := if before = [] then s.blankBand n b else before
    let ctus := s.emberBand n it b
    let edge := if it.sweepLen = 0 then none else s.refreshedTo n it k
    let r := emberRec (s.hevc n) (s.chroma n) edge ctus base
    let s := s.modPic n k fun p => { p with ctus := assocSet p.ctus b ctus, pre := assocSet p.pre b r, filters := assocSet p.filters b [] }
    let f := filterWith (s.filterIn n it b true) []
    let s := s.modPic n k fun p => { p with final := assocSet p.final b f }
    s.when (decide (lo < b)) fun s =>
      let above := s.filterIn n it (b - 1) (it.band (b - 1)).ember
      let up := filterWith above (assocGet [] (s.picOf n k).filters (b - 1))
      s.modPic n k fun p => { p with final := assocSet p.final (b - 1) (lowestRows (s.chroma n) (assocGet [] p.final (b - 1)) up) }

/-! ## Buffer headers and side tables (R218, R219) -/

/-- CRC-32 of each CTU of samples of band `b`. -/
def State.crcsOf (s : State) (n b : Nat) (p : Pic) : List Nat := ctuCrcs (s.chroma n) (s.ctu n) (s.ctuCols n) (s.ctuRows n b) p

/-- CRC-32 of the final samples of each CTU of a band, and of item `k`, as its buffer's header holds them. -/
def State.bandCrcs (s : State) (n k b : Nat) : List Nat := s.crcsOf n b (s.finalBand n k b)
def State.headerCrcs (s : State) (n k : Nat) : List Nat := (List.range (s.bands n)).flatMap fun b => s.bandCrcs n k b

/-- Twice 1 + c of R218. -/
def chromaUnits (chroma : Nat) : Nat := if chroma = 0 then 3 else if chroma = 1 then 4 else 6

/-- The samples of a part of item `k` as its reconstruction buffer holds them (R217): rows of whole CTUs, and toward the boundary of
a split picture the 192 rows of the other part's halo. -/
def State.heldRows (s : State) (n k part : Nat) (final : Bool) : Pic :=
  let own := s.partPic n part (if final then s.finalBand n k else s.firstBand n k)
  if !s.split n then own
  else
    let h := s.heldHalo n k (1 - part)
    let halo := if final then h.2 else h.1
    if part = 0 then stack [own, halo] else stack [halo, own]

/-- Does the overlay of item `k` hold luma row `y` of the buffer of a part: a row of an ember band, or one of the eight above it
(R210, R211, R217)? -/
def State.overlaid (s : State) (n k part y : Nat) : Bool :=
  let (lo, hi) := s.partRange n part
  let above := if part = 0 then 0 else (plane (s.heldHalo n k 0).2 0).length
  let row := 128 * lo + y - above
  (s.item? n k).any fun it => decide (above ≤ y) && decide (row / 128 < hi) &&
    ((it.band (row / 128)).ember || (decide (row / 128 + 1 < hi) && decide (120 ≤ row % 128) && (it.band (row / 128 + 1)).ember))

/-- A reconstruction buffer of a part as stored: the units of the samples as first written, and those of the overlay, each with its
side-table byte. -/
def State.storedRecon (s : State) (n k part : Nat) : List (Nat × List Byte) × List (Nat × List Byte) :=
  let c2 := chromaUnits (s.chroma n)
  (storePlanes (s.chroma n) c2 (fun _ => true) (s.heldRows n k part false),
    storePlanes (s.chroma n) c2 (s.overlaid n k part) (s.heldRows n k part true))

/-- An input buffer as stored: the picture as received, the planes one after the other, a sample in each 16-bit container. -/
def State.storedInput (s : State) (n k : Nat) : List Byte :=
  let p := s.picOf n k
  let size := Reg.CHN_IN_SIZE (s.inputOf n)
  picOctets (inputPic p.input p.sampling (s.fld size 12 0) (s.fld size 28 16))

/-- A source buffer of a part as stored: the rows of the prepared picture, unpadded. -/
def State.storedSource (s : State) (n k part : Nat) : List Byte := picOctets (s.partPic n part (s.srcBand n k))

/-- What a buffer holds as stored, in bytes: of a reconstruction the used sectors of both plane sets and the side tables (R217). -/
def State.storedBuf (s : State) (n : Nat) (b : Buf) : List Byte :=
  match b.items.getLast? with
  | none => []
  | some k => match b.kind with
    | .input => s.storedInput n k
    | .source => s.storedSource n k b.part
    | .recon =>
      let (first, overlay) := s.storedRecon n k b.part
      first.flatMap (·.2) ++ overlay.flatMap (·.2) ++ (first ++ overlay).map fun u => BitVec.ofNat 8 u.1

/-! ## The confidence check (R237 to R242) -/

/-- What the decoder reads in the bytes of a band, and its samples before the loop filters (R237, steps 1 and 2). -/
def State.readBand (s : State) (n : Nat) (it : Item) (b : Nat) (l : List Byte) : Option (NalKind × SliceSyntax) × Pic :=
  let h := (s.picOf n it.idx).head.getD (s.headOf n it it.rh)
  match Config.readSlice h l with
  | none => (none, [])
  | some y => (some y, Config.reconstruct h y.2 (it.refs.map fun r => s.refView n b r true))

/-- Bands `b` and `b` + 1 parsed and reconstructed, each once, from their bytes; the decoder keeps them in its own store. -/
def State.parseBands (s : State) (n : Nat) (it : Item) (b : Nat) (band next : List Byte) : State :=
  let (_, hi) := s.partRange n (s.partOf n b)
  let held := (s.picOf n it.idx).checked
  let has := fun (i : Nat) => held.any fun e => e.1 == i
  let one := if has b then [] else [(b, s.readBand n it b band)]
  let two := if hi ≤ b + 1 ∨ has (b + 1) then [] else [(b + 1, s.readBand n it (b + 1) next)]
  s.modPic n it.idx fun p => { p with checked := p.checked ++ one ++ two }

/-- A band as the decoder holds it before the loop filters. -/
def checkedBand (p : PicSt) (b lo hi : Nat) : Unfiltered :=
  match if lo ≤ b ∧ b < hi then p.checked.find? fun e => e.1 == b else none with
  | some (_, y, r) => ⟨r, (y.map fun y => y.2.ctus).getD []⟩
  | none => ⟨[], []⟩

/-- The final samples of band `b` by the decoder (R237, step 3). A repeat item off a refresh is decoded as its skip syntax: they are those of
the repeated picture (R240). -/
def State.checkedFinal (s : State) (n : Nat) (it : Item) (b : Nat) : Pic :=
  if it.form = .repeated ∧ !it.refreshed then s.finalBand n it.idx b
  else
    let p := s.picOf n it.idx
    let (lo, hi) := s.partRange n (s.partOf n b)
    match (p.checked.find? fun e => e.1 == b).bind (·.2.1) with
    | none => []
    | some (_, y) =>
      filterWith ⟨s.hevc n, 0, y.alf, y.ccAlf, y.lmcs, y.sao, if lo < b then checkedBand p (b - 1) lo hi else ⟨[], []⟩,
        checkedBand p b lo hi, checkedBand p (b + 1) lo hi, [], if y.alf || y.lmcs then (p.head.map (·.models)).getD [] else []⟩ y.filters

/-- Does a slice keep the effort level's parameter sets, and every unit of it the limits of R183 and R189? -/
def State.leavesOk (s : State) (n : Nat) (it : Item) (b : Nat) (h : Head) (y : SliceSyntax) : Bool :=
  y.ctus.all fun c => c.leaves.all fun l =>
    let r := Config.leafReads h y l
    l.tools.all (toolOn (s.hevc n) it.tools) && (s.limitsOf n it b (l.x / s.ctu n)).allow r.1 r.2

/-- The syntax of band `b` is as the decision record, the parameter sets and R158, R179 and R183 have it (R238, code 3): the NAL unit
type is the one its refresh state calls for, the slice is the band's, in an ember band at the highest QP. A band checked by form, and
one of a repeat item, has every element that its position, form and QP fix (R240). -/
def State.bandSyntaxOk (s : State) (n : Nat) (it : Item) (b : Nat) (byForm : Bool) : Bool :=
  let p := s.picOf n it.idx
  let h := p.head.getD (s.headOf n it it.rh)
  match (p.checked.find? fun e => e.1 == b).bind (·.2.1) with
  | none => false
  | some (nal, y) =>
    let ember := (it.band b).ember
    let fixed := byForm || (decide (it.form = .repeated) && !it.refreshed)
    let x := s.sliceOf n it b (ember || fixed)
    let bare := fun (z : SliceSyntax) => { z with ctus := [], filters := [], qp := 0 }
    nal == h.nal &&
    (if fixed then y == x
     else bare y == bare x && (if ember then y.qp == s.maxQp n else decide (4 ≤ y.qp) && decide (y.qp ≤ s.maxQp n)) &&
      s.leavesOk n it b h y)

/-! ## Digests (R298, R345) -/

/-- Digest of the prepared samples of a part. -/
def State.inputDigestOf (s : State) (n k part : Nat) : Nat := crc64 (s.storedSource n k part)

/-- The item's units that are not slices, which go with band 0 (R298). -/
def State.unitsOf (s : State) (n k b : Nat) : List Byte := if b = 0 then ((s.picOf n k).head.map headCode).getD [] else []

/-- Sealed bytes of a band. -/
def State.sealedBytes (s : State) (n k b : Nat) : List Byte := s.unitsOf n k b ++ assocGet [] (s.picOf n k).bytes b

end Sys2Proof.Machine
end

