-- ==== Sys2Proof/Machine/Sched.lean ====
section
/-! DEFINITION. Descriptors, ready queues, engines and the conditions that stages wait for (R160, R161, R195, R226, R237,
R255 to R265). -/

namespace Sys2Proof.Machine

/-! ## Engines (R2, R258, R259) -/

/-- Engine classes of R258. -/
inductive EngClass where
  | ae | se | xe | le | ee | md | sa
deriving DecidableEq, Repr

/-- Class of an engine code below 464, the only ones that take work. -/
def engClass (code : Nat) : Option EngClass :=
  if code < 448 then
    some (match code % 7 with
      | 0 => .ae | 1 => .se | 2 => .se | 3 => .xe | 4 => .xe | 5 => .le | _ => .ee)
  else if code < 456 then some .md else if code < 464 then some .sa else none

def engDie (code : Nat) : Nat := if code < 448 then code / 56 else if code < 456 then code - 448 else code - 456
def engCluster (code : Nat) : Nat := code / 7 % 8

def State.eng? (s : State) (code : Nat) : Option EngSt :=
  (s.sch.engines.find? fun e => e.1 == code).map (·.2)

/-- Set an engine's state; `none` is idle. -/
def State.setEng (s : State) (code : Nat) (x : Option EngSt) : State :=
  let rest := s.sch.engines.filter fun e => e.1 != code
  { s with sch := { s.sch with engines := match x with
    | none => rest
    | some e => rest ++ [(code, e)] } }

/-- An engine that passed E1 and has not failed, on a working die. -/
def State.engOk (s : State) (code : Nat) : Bool :=
  s.dieOk (engDie code) &&
  (if code < 448 then s.bit (Reg.CL_STATUS (engDie code) (engCluster code)) (code % 7) &&
      !s.bit (Reg.CL_STATUS (engDie code) (engCluster code)) 31
   else decide (s.eng? code ≠ some .failed))

/-! ## Conditions of a stage -/

/-- Has item `k` of channel `n` completed stage `st` of band `b`? An item no longer kept is complete; one that has not
reached its control step is not. -/
def State.past (s : State) (n k b st : Nat) : Bool :=
  match s.item? n k with
  | some it => decide (st < (it.band b).done)
  | none => decide (k < (s.chan n).next) && (match (s.chan n).catchTo with
    | none => true
    | some (c, j) => decide (k ≤ c) || decide (j ≤ k))

/-- Has the scheduler's share for part `part` heard that item `k` completed stage `st` of band `b`? A completion on the die of the other
part counts there from the instant its message arrives (R260). -/
def State.heard (s : State) (n part k b st : Nat) : Bool :=
  s.past n k b st && (s.partOf n b == part || !s.noted n k (some b) st (s.dieOf n part))

/-- Number of bands in `[lo, hi)` of item `k` whose completion of stage `st` that share has not heard. -/
def State.unheard (s : State) (n part k lo hi st : Nat) : Nat :=
  ((List.range (hi - lo)).filter fun i => !s.heard n part k (lo + i) st).length

/-- The share on the other die is told of the completion of stage `st` (R260). -/
def State.tell (s : State) (d : Desc) (st : Nat) : State :=
  s.when (s.split d.chan) fun s =>
    s.postAs false (some ⟨d.chan, d.idx, d.band, st⟩) (s.dieOf d.chan d.part) (s.dieOf d.chan (1 - d.part))

/-- Number of bands in `[lo, hi)` of item `k` that have not completed stage `st`. -/
def State.lacking (s : State) (n k lo hi st : Nat) : Nat :=
  ((List.range (hi - lo)).filter fun i => !s.past n k (lo + i) st).length

/-- The carried state is closed for item `k` (R195): the item before it is closed or gone; a join item waits for its join
state (R370). -/
def State.closedFor (s : State) (n k : Nat) : Bool :=
  decide ((s.chan n).await ≠ some k) && (k = 0 || match s.item? n (k - 1) with
    | some it => it.closed
    | none => decide (k - 1 < (s.chan n).next))

/-- Conditions of R160, R161, R185, R189, R195 and R237 that stage `st` of band `b` of item `it` has not yet met. The refresh
decision says which pictures stage 2 waits for, so every band waits for it; a repeat item coded as a refresh waits for the
final samples of the picture it repeats, its source (DEDUCED, log 51). -/
def State.unmet (s : State) (n : Nat) (it : Item) (b st : Nat) : Nat :=
  let k := it.idx
  let nb := s.bands n
  let part := s.partOf n b
  let (lo, hi) := s.partRange n part
  let L := it.dr.lookahead
  match st with
  | 2 =>
    b2n (!s.past n k b 1) +
    (if L = 0 then 0
     else sumOver (List.range L) (fun i => s.unheard n part (k + i) 0 nb 1) +
      s.unheard n part (k + L) 0 (min (b + 1) (nb - 1) + 1) 1) +
    b2n it.refresh.isNone + (if it.refreshed then s.lacking n (k - 1) lo hi 5 else 0) +
    sumOver it.refs (fun r => s.lacking n r lo hi 4) +
    (if s.nearLine n b then
      let (lo', hi') := s.partRange n (1 - part)
      (it.searched.filter fun r => decide (s.lacking n r lo' hi' 4 ≠ 0) || s.noted n r none 4 (s.dieOf n part)).length
     else 0)
  | 3 => b2n (!s.past n k b 2) +
      (if b < lo + 2 then b2n (!s.closedFor n k || s.noted n (k - 1) none 5 (s.dieOf n part)) else b2n (!s.past n k (b - 2) 5))
  | 4 => b2n (!s.past n k b 3) + (if b + 1 < hi then b2n (!s.past n k (b + 1) 3) else 0)
  | 5 => b2n (!s.past n k b 4) + b2n (b == lo && it.refresh.isNone) + (if lo < b then b2n (!s.past n k (b - 1) 5) else 0)
  | 6 => b2n (!s.past n k b 5) + (if b + 1 < hi then b2n (!s.past n k (b + 1) 5) else 0) +
      (if lo < b then b2n (!s.past n k (b - 1) 6) else 0)
  | _ => 0

/-! ## Descriptors -/

def State.descAt (s : State) (die no : Nat) : Option Desc :=
  s.sch.descs.find? fun d => d.die == die && d.no == no

def State.modDesc (s : State) (die no : Nat) (f : Desc → Desc) : State :=
  { s with sch := { s.sch with descs := s.sch.descs.map fun d => (if d.die = die && d.no = no then f d else d) } }

/-- Descriptors in use on a die. -/
def State.used (s : State) (d : Nat) : Nat := (s.sch.descs.filter fun x => x.die == d).length

/-- Descriptors that a part holds on its die. -/
def State.heldBy (s : State) (n part d : Nat) : Nat :=
  (s.sch.descs.filter fun x => x.chan == n && x.part == part && x.die == d).length

/-- Reserve that part `part` of channel `n` has on die `d`: that of the placement it stands on, and where it is shed, for as long as it
holds a descriptor there (R261, R262); a placement that it is kept for has its own. -/
def State.reserveOn (s : State) (n part d : Nat) : Nat :=
  let c := s.chan n
  let own := fun (p : Placement) => ((p.parts[part]?).filter fun x => x.die == d).elim 0 (·.reserve)
  (if c.freed && s.heldBy n part d == 0 then 0 else c.place.elim 0 own) + c.later.elim 0 own

/-- SCH_RESERVED (R274). -/
def State.reservedOn (s : State) (d : Nat) : Nat := sumOver allChans fun n => s.reserveOn n 0 d + s.reserveOn n 1 d

/-- Free descriptors of the shared pool of die `d` (R262): what is neither reserved nor held beyond a reserve. -/
def State.sharedFree (s : State) (d : Nat) : Nat :=
  32768 - s.reservedOn d - sumOver allChans fun n =>
    (s.heldBy n 0 d - s.reserveOn n 0 d) + (s.heldBy n 1 d - s.reserveOn n 1 d)

/-- The shared pool of die `d` has become empty, or is no longer (R271). -/
def State.noteShared (s : State) (d : Nat) : State :=
  let empty := decide (s.sharedFree d = 0)
  if empty = s.sch.dry.contains d then s
  else if empty then ({ s with sch := { s.sch with dry := d :: s.sch.dry } }).raiseLimited (64 + 64 * d + 11) 0
  else { s with sch := { s.sch with dry := s.sch.dry.filter fun x => x != d } }

/-- Lowest free local index of a die. -/
def State.freeNo (s : State) (d : Nat) : Nat :=
  let used := (s.sch.descs.filter fun x => x.die == d).map (·.no)
  ((List.range (used.length + 1)).find? fun i => !used.contains i).getD 0

/-- The slot of an item is free: no item 16 pictures earlier holds it (R257). -/
def State.slotFree (s : State) (n k : Nat) (decode : Bool) : Bool :=
  !s.sch.descs.any fun d => d.chan == n && d.decode == decode && d.idx % 16 == k % 16 && d.idx != k

/-- May a part take a descriptor on die `d` (R262)? -/
def State.descFree (s : State) (n part d : Nat) : Bool :=
  decide (s.heldBy n part d < s.reserveOn n part d) || decide (0 < s.sharedFree d)

/-- The die whose moth decoder decodes the contribution stream of context `m` (R79, R245): its DIE_A. DESIGN CHOICE (log 49):
where the context itself is not placed but serves renditions, which the spec gives no die, DIE_A of the lowest of these. -/
def State.decodeDie (s : State) (m : Nat) : Nat :=
  if (s.chan m).place.isSome then s.dieOf m 0 else ((s.renditionsOf m).head?.map fun n => s.dieOf n 0).getD 0

/-- A descriptor becomes READY (R260). -/
def State.makeReady (s : State) (d : Desc) : State :=
  (s.modDesc d.die d.no fun x => { x with st := .ready, wait := 0, tReady := s.phaseTime }).trace d.die 1 d.chan d.idx
    d.band d.stage d.attempt 1023 (32768 * d.die + d.no) 0

/-- What a decode piece waits for: the pictures before its own, and the pieces before it, since the stream is decoded in decoding
order and a piece begins with the state that the one before leaves (R236, R245). -/
def State.unmetPiece (s : State) (m num b : Nat) : Nat :=
  ((s.chan m).dec.filter fun x => decide (x.m < num)).length +
    (((s.chan m).dec.find? fun x => x.m == num).map fun x => b - x.doneP).getD 0

/-- Set WAIT of a descriptor from the conditions its stage has not yet met (R260). -/
def State.setWait (s : State) (d : Desc) : State :=
  if d.decode then
    let w := s.unmetPiece d.chan d.idx d.band
    if w = 0 then s.makeReady d else s.modDesc d.die d.no fun x => { x with st := .waiting, wait := w }
  else match s.item? d.chan d.idx with
    | none => s
    | some it =>
      let w := s.unmet d.chan it d.band d.stage
      if w = 0 then s.makeReady d else s.modDesc d.die d.no fun x => { x with st := .waiting, wait := w }

/-- Each completion lowers the WAIT of its dependants (R260): WAIT of every WAITING descriptor is what is still unmet. -/
def State.countWaits (s : State) : State :=
  s.each (s.sch.descs.filter fun d => decide (d.st = DescState.waiting)) fun d s => s.setWait d

/-- Allocate a descriptor for a piece at stage `st` (R256, R260). -/
def State.allocDesc (s : State) (n k b st : Nat) (decode : Bool) : State :=
  let part := if decode then 0 else s.partOf n b
  let die := if decode then s.decodeDie n else s.dieOf n part
  let d : Desc := ⟨die, s.freeNo die, n, k, b, st, .waiting, 0, part, false, false, 0, 1023, 0, 0, decode⟩
  let s := { s with sch := { s.sch with descs := s.sch.descs ++ [d] } }
  let free := 32768 - s.used die
  let s := { s with sch := { s.sch with lowFree := s.sch.lowFree.modify die fun v => min v free } }
  (s.noteShared die).setWait d

/-- Stage-0 allocation of a band, directly into stage `st` (R256); it waits for a slot or a descriptor (R257, R262,
R269). -/
def State.enqueue (s : State) (n k b st : Nat) (decode : Bool) : State :=
  let part := if decode then 0 else s.partOf n b
  let die := if decode then s.decodeDie n else s.dieOf n part
  let why := if !s.slotFree n k decode then 2 else if !s.descFree n part die then 1 else 0
  if why = 0 then s.allocDesc n k b st decode
  else
    let s := s.bump (Reg.SCH_WAITS die)
    let s := { s with sch := { s.sch with waits := s.sch.waits ++ [AllocWait.mk n k b why decode die s.now] } }
    s.trace die 5 n k b 0 0 1023 262143 why

/-- Free every descriptor of an item, and end its waiting allocations (R94, R257). -/
def State.freeItemDescs (s : State) (n k : Nat) : State :=
  (s.freeDescs fun d => d.chan == n && d.idx == k && !d.decode).endAllocs fun w => !w.decode && w.chan == n && w.idx == k

/-- Number of the output buffer of a band. DESIGN CHOICE (log 52): free value: the spec does not say how stream assembly numbers its output
buffers; a band that is coded again after it was sealed has another (R239). -/
def State.outNo (s : State) (d : Desc) : Nat :=
  Config.outBuffer d.die d.chan d.idx d.band (((s.item? d.chan d.idx).map fun it => (it.band d.band).outGen).getD 0)

/-- The 32 bytes of a descriptor (R259). A decode piece has no item's buffers. -/
def State.descBytes (s : State) (d : Desc) : List Byte :=
  let it := if d.decode then none else s.item? d.chan d.idx
  let code := match d.st with
    | .waiting => 1
    | .ready => 2
    | .taken => 3
  let flags := d.part + 2 * b2n d.redisp + 4 * b2n d.ember + 8 * b2n (it.any fun x => decide (x.form = .repeated)) +
    16 * b2n (it.any fun x => (x.band d.band).form)
  let buf := fun (k : Option Nat) (kind : BufKind) => (k.map fun k => s.bufNo d.chan d.part k kind).getD 65535
  leBytes 4 (16777216 * code + qid d.chan d.idx d.band d.stage) ++ leBytes 4 d.idx ++ leBytes 2 d.wait ++ leBytes 1 flags ++
    leBytes 1 d.attempt ++ leBytes 2 d.engine ++ leBytes 2 (buf (it.map (·.idx)) .source) ++ leBytes 2 (buf (it.map (·.idx)) .recon) ++
    leBytes 2 (buf (it.bind fun x => x.refs[0]?) .recon) ++ leBytes 2 (buf (it.bind fun x => x.refs[1]?) .recon) ++
    leBytes 2 (if d.decode then 65535 else s.outNo d) ++ leBytes 4 d.tReady ++ leBytes 4 d.tTake

/-! ## Taking (R263, R265) -/

/-- May an engine of code `e` serve descriptor `d`? -/
def State.serves (s : State) (e : Nat) (d : Desc) : Bool :=
  decide (d.st = DescState.ready) && d.die == engDie e &&
  (match engClass e with
   | none => false
   | some .ae => d.stage == 1
   | some .se => d.stage == 2
   | some .xe => d.stage == 3
   | some .le => d.stage == 4 || (d.stage == 5 && d.ember)
   | some .ee => d.stage == 5 && !d.ember
   | some .md => d.stage == 6 || d.decode
   | some .sa => d.stage == 7 && !s.snuffed) &&
  !(d.decode && decide (engClass e ≠ some EngClass.md)) &&
  (decide (448 ≤ e) || (s.clustersOf d.chan d.part / 2 ^ engCluster e % 2 == 1))

/-- BOUNDARY of a descriptor's item in phase time, or T_READY of a decode piece (R265). -/
def State.orderKey (s : State) (d : Desc) : Nat :=
  if d.decode then d.tReady else ((s.item? d.chan d.idx).map fun it => it.dr.boundary).getD 0

/-- Service order of R265: stage 6 before decode pieces, earliest boundary, lowest band, highest stage, lowest channel. -/
def State.ahead (s : State) (a b : Desc) : Bool :=
  if a.decode != b.decode then b.decode
  else
    let x := signed32 ((s.orderKey a : Int) - s.orderKey b)
    if x ≠ 0 then decide (x < 0)
    else if a.band ≠ b.band then decide (a.band < b.band)
    else if a.stage ≠ b.stage then decide (b.stage < a.stage)
    else decide (a.chan < b.chan)

def State.bestFor (s : State) (e : Nat) : Option Desc :=
  (s.sch.descs.filter (s.serves e)).foldl (fun best d => match best with
    | none => some d
    | some x => if s.ahead d x then some d else some x) none

/-- Take descriptor `d` (R263). -/
def State.take (s : State) (e : Nat) (d : Desc) : State :=
  let s := s.modDesc d.die d.no fun x =>
    { x with st := .taken, engine := e, tTake := s.phaseTime, attempt := x.attempt + 1 }
  let s := s.setEng e (some (.holds d.die d.no s.ns))
  s.trace d.die 2 d.chan d.idx d.band d.stage (d.attempt + 1) e (32768 * d.die + d.no)
    (s.sch.descs.filter (s.serves e)).length

/-! ## Busy time (R191, R252) -/

/-- Add `ns` of busy time to the counter pair or register of an engine, whole microseconds at a time. -/
def State.busy (s : State) (e ns : Nat) : State :=
  let t := assocGet 0 s.sch.busyNs e + ns
  let s := { s with sch := { s.sch with busyNs := assocSet s.sch.busyNs e (t % 1000) } }
  if e < 448 then s.bump (Reg.CL_BUSY_E (engDie e) (engCluster e) (e % 7)) (t / 1000)
  else if e < 456 then s.bump64 (Reg.MD_BUSY_LO (engDie e)) (t / 1000)
  else if 464 ≤ e ∧ e < 472 then s.bump64 (Reg.IP_BUSY_LO (e - 464)) (t / 1000)
  else s

end Sys2Proof.Machine
end

