-- ==== Sys2Proof/Machine/Accept.lean ====
section
/-! DEFINITION. The three steps of a decision record and what each sets going (R97, R98, R113 to R119, R163, R170 to R174,
R181 to R187, R223 to R230, R269, R330, R343, R344). -/

namespace Sys2Proof.Machine

/-! ## Refresh decisions (R181 to R187) -/

/-- The bands of item `k` have all passed stage 1. -/
def State.analysed (s : State) (n k : Nat) : Bool := decide (s.lacking n k 0 (s.bands n) 1 = 0)

/-- The scene-cut test of an item: blocks whose match is the smaller below a quarter, and with L ≥ 2 the next picture's
share against the picture before below a half (R186). Items other than pictures of their own are static. -/
def State.isCut (s : State) (n : Nat) (it : Item) : Bool :=
  decide (it.form ≠ Form.repeated) &&
  (match it.share with
   | none => false
   | some (a, all) => decide (4 * a < all)) &&
  (decide (it.dr.lookahead < 2) || (match s.item? n (it.idx + 1) with
    | none => true
    | some nx => (match nx.share2 with
      | none => true
      | some (a, all) => decide (2 * a < all))))

/-- Is the test of item `it` complete? -/
def State.cutKnown (s : State) (n : Nat) (it : Item) : Bool :=
  decide (it.form = Form.repeated) ||
    (s.analysed n it.idx && (decide (it.dr.lookahead < 2) || s.analysed n (it.idx + 1)))

/-- The references of an item (R226). -/
def refsOf (k : Nat) (r : Refresh) (lastIrap hold : Option Nat) : List Nat :=
  if r = .idr ∨ r = .cra ∨ k = 0 then []
  else
    let second : Option Nat := match hold with
      | some h => some h
      | none => if k < 2 ∨ (lastIrap.getD 0) > k - 2 then none else some (k - 2)
    (k - 1) :: (match second with | none => [] | some x => if x = k - 1 then [] else [x])

/-- The refresh of item `it`, given the decisions before it (R181, R184, R187, R230). A live PERIOD counts from the next refresh
start on (R97): the record of the last one gives the PERIOD of the interval that runs. -/
def State.refreshFor (s : State) (n : Nat) (it : Item) : Refresh :=
  let c := s.chan n
  let gdr := s.bit (Reg.CHN_REFRESH n) 31
  let start := it.dr.refreshCause == 1
  let due : Bool := match c.lastRefresh with
    | none => true
    | some (l, period) => decide (l + period ≤ it.idx)
  let far : Bool := match c.lastRefresh with
    | none => true
    | some (l, period) => decide (l + max 1 (period / 4) ≤ it.idx)
  let sweeping : Bool := match c.sweepFrom with
    | none => false
    | some (a, len) => decide (it.idx < a + len)
  match c.owed with
  | some r => r
  | none =>
    if gdr then
      if it.dr.forceRefresh then (if sweeping then .allIntra else .gdr) else if due then .gdr else .none
    else if start then .idr
    else if it.dr.forceRefresh || due || (decide (1 ≤ it.dr.lookahead) && s.isCut n it && far) then .cra
    else .none

/-! ## Repeat items (R163, R185, R225) -/

/-- The bands `hit` of item `k` now begin with stage `st` in another form: their descriptors go back to it, and bands without one
are queued. -/
def State.recode (s : State) (n k st : Nat) (hit : Nat → Bool) : State :=
  let count := ((s.item? n k).map (·.bands.length)).getD 0
  let held := s.sch.descs.filter fun d => d.chan == n && d.idx == k && !d.decode && hit d.band
  let s := s.each held fun d s =>
    s.modDesc d.die d.no fun x => { x with stage := st, st := .waiting, ember := false, attempt := 0 }
  let s := s.endAllocs fun w => !w.decode && w.chan == n && w.idx == k && hit w.band
  let missing := (List.range count).filter fun b => hit b && !held.any fun d => d.band == b
  s.each missing fun b s => s.enqueue n k b st false

/-- A repeat item at a refresh start is coded as that refresh: the bands not yet sealed pass stages 2 to 5, with the
reconstruction of the repeated picture as their source and a reconstruction buffer of their own (R185). -/
def State.codeRefresh (s : State) (n k : Nat) : State :=
  match s.item? n k with
  | none => s
  | some it =>
    let open_ := fun (b : Nat) => decide ((it.band b).done < 7)
    let s := s.modItem n k fun it => { it with
      refreshed := true,
      bands := it.bands.map fun b => (if b.done < 7 then { b with done := 2, ember := false, subst := false, forced := false } else b) }
    (s.leaveRecon n k).recode n k 2 open_

/-! ## Refresh decisions made -/

/-- Decide item `it` (R181): its refresh, its sweep position and its references. -/
def State.decideItem (s : State) (n : Nat) (it : Item) : State :=
  let c := s.chan n
  let r := s.refreshFor n it
  let k := it.idx
  let irap := decide (r = .idr) || decide (r = .cra)
  let sweep : Option (Nat × Nat) := match r with
    | .gdr => some (k, it.dr.gdrSpan)
    | .none => c.sweepFrom
    | _ => none
  let pos : Nat × Nat := match sweep with
    | none => (0, 0)
    | some (a, len) => if k < a + len then (k - a, len) else (0, 0)
  let lastIrap := if irap then some k else c.lastIrap
  let lastRefresh := if r = .none then c.lastRefresh else some (k, it.dr.period)
  -- A refresh start after the hold picture ends the hold (R228).
  let stands := fun (h : Nat) => lastRefresh.all fun l => decide (l.1 ≤ h)
  let kept := it.kept.filter stands
  let s := s.modItem n k fun it => { it with
    refresh := some r, sweep := pos.1, sweepLen := pos.2, refs := refsOf k r lastIrap (if it.holdOn then kept else none), kept := kept, holdOn := it.holdOn && kept.isSome,
    prior := some (c.lastRefresh, c.lastIrap, c.sweepFrom) }
  let s := s.modChan n fun c => { c with
    decided := k + 1, owed := none, sweepFrom := sweep, lastIrap := lastIrap,
    lastRefresh := lastRefresh, hold := c.hold.filter fun h => stands h.1 }
  let s := s.excludeRefs n
  s.when (decide (it.form = Form.repeated) && decide (r ≠ .none)) fun s => s.codeRefresh n k

/-- Decide every item whose decision may be made: in order, its control step fixed and, with L ≥ 1, its test complete
(R181). A channel that joins decides nothing before its join state has arrived (R370). -/
def State.decideAll : Nat → Nat → State → State
  | 0, _, s => s
  | fuel + 1, n, s =>
    match (s.chan n).items.find? (fun it => decide ((s.chan n).decided ≤ it.idx)) with
    | none => s
    | some it =>
      if (s.chan n).await.isNone && it.controlFixed && it.inputFixed && (decide (it.dr.lookahead = 0) || s.cutKnown n it) then
        State.decideAll fuel n (s.decideItem n it)
      else s

/-- Refresh decisions, then the waiting conditions they meet. -/
def State.settleChan (s : State) (n : Nat) : State :=
  (State.decideAll (s.chan n).items.length n s).countWaits

/-- The picture of item `k`, whose preparation is over, becomes the source of line repair; the input buffer of the one before is free
(R118, R223). In a transcode channel a buffer is free once the decoder has dropped the picture. -/
def State.repairSource (s : State) (n k : Nat) : State :=
  let s := if s.chKind n = 1 then
      (if (s.chan n).dropped.contains k then
        (s.freeBuf n k .input).modChan n fun c => { c with dropped := c.dropped.filter (· ≠ k) } else s)
    else match (s.chan n).repairFrom with
      | none => s
      | some j => s.when (decide (j ≠ k)) fun s => s.freeBuf n j .input
  s.modChan n fun c => { c with repairFrom := some k }

/-- The item leaves as a repeat picture, its ember bands so far recorded (R214): no buffers of its own, stages 1 to 4 complete
without work, the bands not yet sealed coded in the inter form (R163, R225), or where it starts a refresh as that refresh (R185). Bands already
sealed stay (DEDUCED, log 34). Its buffers change their marks as R223 has it: a picture accepted for it becomes the repair source,
preparation being over; its source waits for its readers; a reconstruction buffer that it has taken already stays its own. -/
def State.becomeRepeat (s : State) (n k : Nat) : State :=
  match s.item? n k with
  | none => s
  | some it =>
    let s := s.noteEmbers n k
    let before := s.picOf n (k - 1)
    let actOf := fun (b : Nat) => assocGet (assocGet 0 (s.picOf n (before.same.getD k)).means b) before.means b
    let s := s.modItem n k fun it => { it with
      form := .repeated, prep := 2, refreshed := false,
      bands := it.bands.mapIdx fun i b => (if b.done < 7 then { b with
        done := 5, ember := false, subst := false, forced := false, form := false, cost := 0, act := actOf i } else b) }
    let s := s.when (decide (it.prep = 1)) fun s => s.repairSource n k
    let s := s.reMark n k .source [.lookahead] .coding
    let s := s.repeatPic n k fun b => decide (7 ≤ (it.band b).done)
    if it.starts then (s.codeRefresh n k).settleChan n
    else
      let own := (s.chan n).pool.any fun b => decide (b.kind = .recon) && b.items.contains k
      let s := s.when (decide (0 < k) && !own) fun s => s.shareRecon n k (k - 1)
      (s.recode n k 5 fun b => decide ((it.band b).done < 7)).settleChan n

/-- R230: a buffer that an item needs cannot be had. A refresh it would have started falls on the next item. -/
def State.poolExhausted (s : State) (n k part : Nat) : State :=
  let d := s.dieOf n part
  let s := s.bump (Reg.DIE_POOL_EXHAUST d)
  let s := s.raise (64 + 64 * d + 1) (n * 16777216 + 4294967296 * (k % 4294967296))
  let s := match (s.item? n k).bind (·.refresh) with
    | none => s
    | some .none => s
    | some r => s.modChan n fun c => { c with owed := some r, decided := min c.decided (k + 1) }
  -- The item itself starts no refresh: its references are those of an item that is no refresh picture (R226).
  let s := s.modItem n k fun it => { it with
    refresh := it.refresh.map fun _ => Refresh.none,
    sweepLen := if it.starts then 0 else it.sweepLen, sweep := if it.starts then 0 else it.sweep,
    refs := refsOf k .none ((it.prior.bind fun p => p.2.1).filter fun _ => true) (if it.holdOn then it.kept else none) }
  (s.becomeRepeat n k).fail n 1 6 3 d 255 (s.bands n) k 0

/-! ## Input step (R114 to R116, R170) -/

/-- Update CHN_IN_STATUS and raise the input-loss event (R129). -/
def State.inputEvent (s : State) (n code path idx : Nat) : State :=
  s.raise (576 + 4 * n + 3) (code + 256 * path + 4294967296 * (idx % 4294967296))

/-- The hold picture (R228): where item `k` begins an absence run, the last item released as coded with outcome accepted becomes
the hold picture and its buffer is marked REF_LONG. Where that item has itself left as a repeat picture, it is the item whose picture
it repeats. -/
def State.startHold (s : State) (n k : Nat) : State :=
  let c := s.chan n
  if c.run.isSome then s
  else
    let s := s.modChan n fun c => { c with run := some k }
    match c.lastAccepted with
    | none => s
    | some a =>
      let h := match s.item? n a with
        | none => a
        | some it => if it.form = .repeated then ((s.picOf n a).same).getD a else a
      if (s.item? n h).any fun it => decide (it.dr.outcome ≠ 0) then s
      else ((s.modChan n fun c => { c with hold := some (h, 0) }).modItem n k fun it => { it with kept := some h }).reMark n h .recon
        [.refShort] .refLong

/-- Fix the input step of item `k` of channel `n`: outcome 0 accepted, 1 repeat, 2 slate, with the source's timestamp
and P (R116, R170, R172), and set going what follows from it. -/
def State.fixInput (s : State) (n k outcome ts p : Nat) : State :=
  match s.item? n k with
  | none => s
  | some it =>
    if it.inputFixed then s
    else
      -- R230: with no free input buffer an accepted picture becomes a repeat picture; the input buffers of a rendition are those of its
      -- SOURCE context, whose item of the slot has then become one.
      let short := if s.chKind n != 2 then decide (outcome = 0) && !s.hasFree n 0 .input
        else decide (outcome = 1) && (s.chan (s.inputOf n)).items.any fun x =>
          decide (bndDtc x = bndDtc it) && x.inputFixed && decide (x.dr.outcome = 1) && x.accepted
      let o := if short then 1 else outcome
      let c := s.chan n
      -- R228: the hold leaves the lists with the third accepted item after the run, or with the 1,024th item of the run.
      let third := (decide (o = 0) && c.hold.any fun h => decide (2 ≤ h.2)) ||
        (decide (o ≠ 0) && c.run.any fun r => decide (r + 1023 ≤ k))
      let dr := { it.dr with outcome := o, sourceTs := if o = 0 then ts else 0,
                              refInstant := if o = 0 then p else it.dr.boundary }
      let s := s.modItem n k fun it => { it with
        inputFixed := true, dr := dr, kept := if third then none else c.hold.map (·.1), holdOn := decide (o = 0),
        form := if o = 0 then .coded else if o = 1 then .repeated else .slate }
      let s := s.when (s.paired && s.holding) fun s => s.lanternSend (.record true (recordBytes dr))
      let s := s.when (decide (outcome = 0)) fun s => s.bump64 (Reg.CHN_PIC_ACC_LO n)
      let s := s.when short fun s => s.modChan n fun c => { c with refused := recentStamps c.refused ts }
      let s := s.modChan n fun c => { c with
        hold := if third then none else c.hold.map fun h => (if o = 0 then (h.1, h.2 + 1) else h),
        lastAccepted := if o = 0 then some k else c.lastAccepted, run := if o = 0 ∨ short then none else c.run }
      let s := match o with
        | 0 =>
          let s := s.when (s.chKind n != 2) fun s => s.allocBuf n 0 .input .input k
          let parts := if s.split n then [0, 1] else [0]
          let s := s.modItem n k fun it => { it with prep := 1 }
          match parts.find? fun q => !s.hasFree n q .source with
          | some q => s.poolExhausted n k q
          | none => s.each parts fun q s => s.allocBuf n q .source .lookahead k
        | 1 => if short then s.poolExhausted n k 0 else (s.startHold n k).becomeRepeat n k
        | _ =>
          let s := s.startHold n k
          let nb := s.bands n
          let s := s.slateSource n k it.dr.slateId
          let found := fun (b : Nat) => analyse (plane (s.srcBand n k b) 0) (128 * b) (s.ctu n) none none
          let ready := fun (b : Nat) (x : Band) =>
            { x with done := 2, readyAt := s.now, cost := (found b).cost, act := (found b).act }
          let s := s.modPic n k fun p => { p with
            acts := (List.range nb).map fun b => (b, (found b).acts), means := (List.range nb).map fun b => (b, (found b).act),
            hists := (List.range nb).map fun b => (b, (found b).hist) }
          let s := s.modItem n k fun it => { it with
            prep := 2, bands := it.bands.mapIdx ready, share := some (Config.slateShare n k),
            share2 := some (Config.slateShare2 n k) }
          (s.each (List.range nb) fun b s => s.enqueue n k b 2 false)
      -- R92, R93: an item that a displacement has recorded as a repeat picture (cause 9) leaves as one, and until the capacity that
      -- the channel waits for is free every item does.
      let own := ((s.item? n k).map fun it => decide (it.form ≠ Form.repeated)).getD false
      let s := s.when (own && (decide ((s.chan n).waitFor ≠ []) || it.causes.contains 9)) fun s =>
        (s.becomeRepeat n k).fail n 1 9 2 0 255 (s.bands n) k 0
      match s.item? n k with
      | none => s
      | some it => (s.judge n it (!(decide (o = 0) && s.chKind (s.inputOf n) == 1))).settleChan n

/-- The items that stand in the same slot as item `k` of the input context `m`: its own and its renditions' (R79, R174). -/
def State.slotItems (s : State) (m : Nat) (bnd : Int) : List (Nat × Nat) :=
  (s.servedBy m).flatMap fun n => ((s.chan n).items.filter fun it => decide (it.bnd - it.doff = bnd)).map fun it =>
    (n, it.idx)

/-- A unit fixes steps itself unless it is a standby whose holder's records arrive (R343). -/
def State.follows (s : State) (n : Nat) : Bool :=
  s.paired && s.isStandby && decide (s.chanState n ≠ 1) && s.link.up && !s.link.imageDue

/-! ## Band step (R117 to R119, R173) -/

/-- Allocate the stage 1 piece of a band that is ready (R117, R256). -/
def State.bandReady (s : State) (n k b : Nat) (e : BandEntry) (own : Bool) : State :=
  match s.item? n k with
  | none => s
  | some it =>
    if !it.inputFixed || decide (it.form ≠ .coded) || decide ((it.band b).done ≠ 0) then s
    else
      let s := (s.modBand n k b fun x => { x with done := 1, entry := some e, own := own, readyAt := s.now }).prepBand n k b
      let s := s.when (s.paired && s.holding) fun s => s.lanternSend (.band n k (entryBytes e))
      (s.enqueue n k b 1 false).settleChan n

/-! ## Control step (R97, R98, R170 to R172, R269, R330) -/

/-- D less the coding delay C, times rate1001 × N, in µs (R277). -/
def State.delayRoom (s : State) (n : Nat) : Nat :=
  let r := s.rate n
  let nb := max 1 (s.bands n)
  let look := s.fld (Reg.CHN_LOOKAHEAD n) 3 0
  let rot := s.fld (Reg.CHN_IN_PREP n) 1 0 % 2
  (s.fld (Reg.CHN_DELAY n) 22 0 - 600) * r * nb - 1001000000 * (look * nb + 3 + rot * nb)

/-- Effective cap rate in kb/s (R97). -/
def State.capRate (s : State) (n : Nat) : Nat :=
  let room := s.delayRoom n
  let floor := if room = 0 then 0
    else ceilDiv (s.fld (Reg.CHN_CPB_SIZE n) 19 0 * 1000000 * s.rate n * max 1 (s.bands n)) room
  max (s.fld (Reg.CHN_CAP_RATE n) 19 0) floor

/-- Rate times band count: the common denominator of a channel's times (R277, R278). -/
def State.chanUnits (s : State) (n : Nat) : Nat := max 1 (s.rate n) * max 1 (s.bands n)

/-- D − Z, times rate1001 × N, in µs (R277). -/
def State.sealRoom (s : State) (n : Nat) : Nat :=
  (s.fld (Reg.CHN_DELAY n) 22 0 - 600) * s.chanUnits n -
    1001000000 * ((1 + s.fld (Reg.CHN_LOOKAHEAD n) 3 0) * max 1 (s.bands n) + 2)

/-- CHN_OUT_RB in kb/s (R278). -/
def State.burstRate (s : State) (n : Nat) : Nat :=
  let rh := (s.chan n).rc.rh
  let hrd := if rh = 0 then s.capRate n else ceilDiv rh 1000
  if s.sealRoom n = 0 then hrd
  else max hrd (ceilDiv (s.fld (Reg.CHN_CPB_SIZE n) 19 0 * 1000000 * s.chanUnits n) (s.sealRoom n))

/-- CHN_OUT_DMIN in µs (R277). -/
def State.minDelay (s : State) (n : Nat) : Nat :=
  let u := s.chanUnits n
  let nb := max 1 (s.bands n)
  let look := s.fld (Reg.CHN_LOOKAHEAD n) 3 0
  let rot := s.fld (Reg.CHN_IN_PREP n) 1 0 % 2
  let cap := s.fld (Reg.CHN_CAP_RATE n) 19 0
  if cap = 0 then 0
  else
    let c := 600 * u + 1001000000 * (look * nb + 3 + rot * nb)
    let c0 := 600 * u + 1001000000 * (look * nb + 3)
    max (ceilDiv (c * cap + s.fld (Reg.CHN_CPB_SIZE n) 19 0 * 1000000 * u) (u * cap)) (ceilDiv (c0 + 1001000000 * nb) u)

/-- F_k of item `k`, on the DTC (R170). -/
def State.controlAt (s : State) (n k : Nat) : Int :=
  gridAt (s.rate n) ((s.chan n).anchor + k - 1) - (s.chan n).doff

/-- The channel is pressed up to `t` (R269): an allocation waited at an instant from the last control step's F on and before `t`. -/
def State.pressedTo (s : State) (n : Nat) (t : Int) : Bool :=
  let c := s.chan n
  c.presses.any (fun w => decide (w.1 < t) && (decide (c.laFrom < w.2) || decide (c.laFrom ≤ w.1))) ||
    s.sch.waits.any fun w => w.chan == n && decide (w.since < t)

/-- The interval up to `t` is judged. -/
def State.judgedTo (s : State) (n : Nat) (t : Int) : State :=
  s.modChan n fun c => { c with presses := c.presses.filter fun w => decide (t < w.2) || decide (t ≤ w.1), laFrom := t }

/-- Lookahead of the item at this control step (R269). -/
def State.stepLookahead (s : State) (n k : Nat) (start : Bool) : State :=
  let c := s.chan n
  let cfg := s.fld (Reg.CHN_LOOKAHEAD n) 3 0
  let pressed := s.pressedTo n (s.controlAt n k)
  let (la, calm) :=
    if start then (cfg, 0)
    else if pressed then (c.la - 1, 0)
    else if ceilDiv (s.rate n) 1001 ≤ c.calm + 1 ∧ c.la < cfg then (c.la + 1, 0) else (c.la, c.calm + 1)
  let lowered := !start && pressed && decide (0 < c.la)
  let s := (s.modChan n fun c => { c with la := la, calm := calm }).judgedTo n (s.controlAt n k)
  s.when lowered fun s =>
    (s.bump (Reg.CHN_LA_SHORT n)).trace (s.dieOf n 0) 7 n k 0 0 0 1023 262143 la

/-- Re-anchor the channel after a DOFF step (R330): the first grid instant of the new time at or after the instant that
the old grid gives for B_k. -/
def State.reanchorChan (s : State) (n : Nat) : State :=
  let c := s.chan n
  let moved := (s.clk.doff - c.doff) * (s.rate n : Int)
  let steps := -((-moved) / (perNum : Int))
  s.modChan n fun c => { c with anchor := c.anchor + steps, doff := s.clk.doff, reanchor := false }

/-- The index, in the context whose input serves channel `n`, of the slot of its item `k`. -/
def State.sourceIndex (s : State) (n k : Nat) : Int := (s.chan n).anchor + k - (s.chan (s.inputOf n)).anchor

/-- The splice commands of the item: at most four; a fifth moves to the next (R126, R172). -/
def State.splicesFor (s : State) (n k : Nat) : List Splice :=
  ((s.chan (s.inputOf n)).splices.filter fun x => decide ((x.item : Int) = s.sourceIndex n k)).take 4

/-- At the control step of item `k` of the first channel that a context's input serves, earlier commands are done with, and
those beyond four move to the next item. -/
def State.passSplices (s : State) (n k : Nat) : State :=
  let m := s.inputOf n
  let j := (s.sourceIndex n k).toNat
  let taken := (s.splicesFor n k).map (·.id)
  let moves := fun (id item : Nat) => decide (item = j) && !taken.contains id &&
    (s.chan m).splices.any fun x => x.id == id && x.item == item
  s.when (decide ((s.servedBy m).head? = some n)) fun s => s.modChan m fun c => { c with
    splices := (c.splices.filter fun x => decide (j ≤ x.item)).map fun x =>
      (if moves x.id x.item then { x with item := j + 1 } else x),
    sections := c.sections.map fun x => (if x.kind ≠ 5 ∧ moves x.event x.item then { x with item := j + 1 } else x) }

/-- The control part of item `k` (R170 to R172) from the registers in force. -/
def State.controlRecord (s : State) (n k : Nat) (start disc : Bool) : DecisionRecord :=
  let c := s.chan n
  let m := s.inputOf n
  let dim := s.dimInForce n
  let sp := s.splicesFor n k
  let cause := if start then 1 else if sp ≠ [] then 2 else if c.takeover then 3 else 0
  { chan := n, forceRefresh := cause != 0, discontinuity := disc,
    mirrorH := s.bit (Reg.CHN_IN_PREP n) 4, mirrorV := s.bit (Reg.CHN_IN_PREP n) 5,
    slateEn := s.bit (Reg.CHN_IN_SLATE m) 31, effort := s.effortAt n dim, dim := dim, lookahead := c.la,
    boundary := ((s.boundary n k - c.doff) % 4294967296).toNat, index := k,
    qtarget := s.fld (Reg.CHN_QTARGET n) 9 0, capPic := s.rdN (Reg.CHN_CAP_PIC n), capRate := s.capRate n,
    capWin := s.fld (Reg.CHN_CAP_WIN n) 13 0, gdrSpan := s.fld (Reg.CHN_REFRESH n) 23 16,
    period := s.fld (Reg.CHN_REFRESH n) 15 0, slateId := s.fld (Reg.CHN_IN_SLATE m) 23 16,
    slateTime := s.fld (Reg.CHN_IN_SLATE m) 15 0, outcome := 0, refreshCause := cause,
    splices := sp.map (·.id), sourceTs := 0, refInstant := 0, bandCount := s.bands n }

/-- The state as a change at `t` or later (DTC ns) has not touched it: what the control part of a record takes (R171). -/
def State.asOf (s : State) (t : Int) : State :=
  (s.bus.undo.filter fun e => decide (t ≤ e.1)).foldl (fun s e => match e.2 with
    | .reg a old => s.wr a old
    | .dims old => { s with cap := { s.cap with dims := old } }) s

/-- A new item before its record is fixed. -/
def State.blankItem (s : State) (n k : Nat) (dr : DecisionRecord) : Item :=
  let parts := if s.split n then 2 else 1
  ⟨k, s.boundary n k, (s.chan n).doff, dr, false, false, false, .coded, false, [], 0,
    List.replicate (s.bands n) Band.reset, none, 0, 0, [], none, false, none, none, none, 0, none, 0,
    List.replicate parts false, none, false, 0, 0, false, false, false, [], false, 0, none, none, false,
    List.replicate parts none, List.replicate parts none, none, none, false, [], [], 0, none, false, (s.chan n).tools, s.prevQpOf n k⟩

/-- Fix the control part `dr` of item `k`: what the device's registers show of it, and what it sets going. -/
def State.fixControl (s : State) (n k : Nat) (dr : DecisionRecord) (own : Bool) : State :=
  let s := s.when (decide (dr.refreshCause = 1)) fun s =>
    let admitted := s.fld (Reg.CHN_EFFORT n) 18 16
    s.modChan n fun c => { c with tools := admitted }
  let tools := (s.chan n).tools
  let s := s.modItem n k fun it => { it with dr := dr, controlFixed := true, own := it.own || own, tools := tools }
  let s := s.setFld (Reg.CHN_EFFORT n) 10 8 dr.effort
  let s := s.setFld (Reg.CHN_STATE n) 18 16 dr.dim
  let s := s.setFld (Reg.CHN_LA_EFF n) 3 0 dr.lookahead
  let sent := (s.splicesFor n k)
  let s := s.when (s.paired && s.holding) fun s =>
    s.each sent (fun x s => s.lanternSend (.splice n x.id k x.body))
  let s := s.when (s.paired && s.holding) fun s => s.lanternSend (.record false (recordBytes dr))
  -- The hold picture leaves at the control step of the third accepted item after the run (R228).
  let s := s.modChan n fun c => { c with
    hold := c.hold.filter fun h => decide (h.2 < 2),
    takeover := false }
  let s := s.excludeRefs n
  let s := s.passSplices n k
  let s := (s.showPlace n).sumEff
  match s.item? n k with
  | none => s
  | some it => s.judge n it false

end Sys2Proof.Machine
end

