-- ==== Sys2Proof/Machine/Rate.lean ====
section
/-! DEFINITION. Constant-quality rate control with hard caps (R194 to R215). QPs are in 1/256, g in 1/256 of 0.1 SQI, F in
units of 1/f_num bit with f = rate1001 ÷ 1001. -/

namespace Sys2Proof.Machine

/-- The carried state at a start of a stream (R194). -/
def State.startRate (s : State) (n : Nat) (it : Item) : RateCtl :=
  ⟨if s.hevc n then 30 * 256 else 32 * 256, 20 * 256, 0, 0,
    (s.fld (Reg.CHN_CPB_SIZE n) 19 0 * 1000 * s.rate n : Nat), 1000 * it.dr.capRate, [], none⟩

/-- C_j: the sum of C over the item's bands (R196). -/
def Item.complexity (it : Item) : Nat := it.bands.foldl (fun a b => a + b.cost) 0

/-- c̄ of R196: the mean of C_j to C_(j+L−1), or c_prev with L = 0. -/
def State.meanComplexity (s : State) (n : Nat) (it : Item) : Nat :=
  let L := it.dr.lookahead
  if L = 0 then (s.chan n).rc.cPrev
  else sumOver (List.range L) (fun i => ((s.item? n (it.idx + i)).map Item.complexity).getD 0) / L

def Item.isIrap (it : Item) : Bool := decide (it.refresh = some .idr) || decide (it.refresh = some .cra)

/-- qp_pic (R196). -/
def State.picQp (s : State) (n : Nat) (it : Item) : Int :=
  let rc := (s.chan n).rc
  let t : Int := if it.isIrap || decide (it.refresh = some .allIntra) then -512 else 0
  rc.qRef + t - (if rc.cRef = 0 then 0 else 3 * log2q (s.meanComplexity n it) rc.cRef / 2)

/-- n_w of R200. -/
def State.windowItems (s : State) (n : Nat) (it : Item) : Nat :=
  max 1 (it.dr.capWin * s.rate n / 1001000)

/-- room_w of R200. -/
def State.windowRoom (s : State) (n : Nat) (it : Item) : Nat :=
  let nw := s.windowItems n it
  let floor := s.emberFloor n
  let budget := it.dr.capRate * 1000 * nw * 1001 / s.rate n
  max floor (budget - ((s.chan n).rc.sizes.take (nw - 1)).foldl (fun a x => a + max x floor) 0)

/-- lim_j (R199 to R202). -/
def State.limFor_ (s : State) (n : Nat) (it : Item) : Nat :=
  let room := min (s.windowRoom n it) (((s.chan n).rc.f / (s.rate n : Int)).toNat)
  if it.dr.capPic = 0 then room else min (8 * it.dr.capPic) room

/-- Fix what the headers of an item say, and so its overhead O_j (R207); once only. -/
def State.writeHead (s : State) (n k rh : Nat) : State :=
  match s.item? n k with
  | none => s
  | some it =>
    if (s.picOf n k).head.isSome then s
    else
      let h := s.headOf n it rh
      (s.modPic n k fun p => { p with head := some h }).modItem n k fun it => { it with overhead := 8 * (headCode h).length }

/-- Open an item: at a start of a stream the carried state starts, and at a refresh start R_h takes the record's cap rate;
then its picture QP and its limit (R194, R196, R202, R203, R207). A repeat item coded before the item before it is closed
opens when it closes itself (R195). -/
def State.openItem (s : State) (n k : Nat) : State :=
  match s.item? n k with
  | none => s
  | some it =>
    if it.lim.isSome then s
    else if !s.closedFor n k then s.writeHead n k (s.chan n).rc.rh
    else
      let old := (s.chan n).rc
      let rc : RateCtl := if it.dr.refreshCause = 1 then s.startRate n it
        else if it.refresh = some Refresh.none then old else { old with rh := 1000 * it.dr.capRate }
      let s := (s.modChan n fun c => { c with rc := rc }).writeHead n k rc.rh
      s.modItem n k fun it => { it with lim := some (s.limFor_ n it), qpPic := s.picQp n it, rh := rc.rh }

/-- Sum of E(b) over bands `[lo, hi)` of an item. -/
def State.emberSum (s : State) (n : Nat) (it : Item) (lo hi : Nat) : Nat :=
  sumOver (List.range (hi - lo)) fun i => s.emberOf n it (lo + i)

/-- lim_part of R208. -/
def State.partLimit (s : State) (n : Nat) (it : Item) (part : Nat) : Nat :=
  let lim := it.lim.getD 0
  if !s.split n then lim
  else
    let (a0, a1) := s.partRange n 0
    let (b0, b1) := s.partRange n 1
    let ea := s.emberSum n it a0 a1
    let eb := s.emberSum n it b0 b1
    let la := it.overhead + ea + (lim - it.overhead - ea - eb) * a1 / max 1 (s.bands n)
    if part = 0 then la else lim - la

/-- Bits spent in a part before band `b`: the overhead in the upper part, and its coded bands (R208). -/
def State.spentTo (s : State) (n : Nat) (it : Item) (b : Nat) : Nat :=
  let (lo, _) := s.partRange n (s.partOf n b)
  (if s.partOf n b = 0 then it.overhead else 0) + sumOver (List.range (b - lo)) fun i => (it.band (lo + i)).size

/-- round(x / y) to the nearest whole number. -/
def roundDiv (x : Int) (y : Nat) : Int := (2 * x + y) / (2 * (max 1 y : Nat))

/-- est(b, qp) of R197, from size, complexity and QP of the reference band. -/
def est (sr cr : Nat) (qpr : Int) (cb : Nat) (qp : Int) : Nat :=
  if cr = 0 then 0 else pow2q (sr * (cb / cr)) (qpr - qp)

/-- The QP a band was coded at: that of R197, or the highest for an ember band (R205). -/
def State.codedQp (s : State) (n : Nat) (x : Band) : Int := if x.ember then 256 * s.maxQp n else x.qp

/-- s_r, c_r, qp_r of R197: band b − 2 of the part, or the mean band of the item before. -/
def State.estRef (s : State) (n : Nat) (it : Item) (b : Nat) : Nat × Nat × Int :=
  let (lo, _) := s.partRange n (s.partOf n b)
  if lo + 2 ≤ b then ((it.band (b - 2)).size, (it.band (b - 2)).cost, s.codedQp n (it.band (b - 2)))
  else
    let rc := (s.chan n).rc
    let nb := max 1 (s.bands n)
    (rc.sizes.headD 0 / nb, rc.cPrev / nb, it.prevQp)

/-- qp_b of R197, where `prev` is the QP of band b − 1. -/
def State.bandQpFrom (s : State) (n : Nat) (it : Item) (b : Nat) (prev : Int) : Int :=
  let rc := (s.chan n).rc
  let part := s.partOf n b
  let (lo, hi) := s.partRange n part
  let cm := s.meanComplexity n it
  let seen := sumOver (List.range (b - 1 - lo)) fun i => s.ctusOf n (lo + i)
  let e : Int := if b < lo + 2 then 0 else ((it.band (b - 2)).sqiSum / seen : Nat) - (it.dr.qtarget : Int)
  let base := it.qpPic + 256 * clipInt (-2) 2 (roundDiv (256 * e) (2 * rc.g.toNat)) -
    (if cm = 0 then 0 else 3 * log2q ((it.band b).cost * s.bands n) cm / 2)
  let (sr, cr, qr) := s.estRef n it b
  let (sr', cr', qr') := s.estRef n it (b - 1)
  let room : Int := (s.partLimit n it part : Int) - s.spentTo n it (if b = lo then b else b - 1) -
    (if b = lo then 0 else est sr' cr' qr' (it.band (b - 1)).cost prev) - s.emberSum n it b hi
  let rest := sumOver (List.range (hi - b)) fun i => (it.band (b + i)).cost
  let share : Int := if rest = 0 then 0 else room * (it.band b).cost / rest
  let fits := fun (p : Nat) => decide ((est sr cr qr (it.band b).cost (base + 256 * p) : Int) ≤ share)
  base + 256 * (((List.range 6).find? fits).getD 6 : Nat)

/-- qp_b of R197. The QP of band b − 1 is formed again from what R160 makes stage 3 of band b wait for, so that it does not
matter whether stage 3 of band b − 1 is complete (R168). -/
def State.bandQp (s : State) (n : Nat) (it : Item) (b : Nat) : Int :=
  s.bandQpFrom n it b (s.bandQpFrom n it (b - 1) (it.band (b - 2)).qp)

/-! ## Stage 5 (R208, R209) -/

/-- What stage 5 writes for band `b` (R208): whether it is an ember band, whether the budget was spent here or before, and
its bytes. An ember band is never larger than E(b) (R206). -/
def State.entropy (s : State) (n : Nat) (it : Item) (b : Nat) : Bool × Bool × List Byte :=
  let x := it.band b
  let eb := s.emberOf n it b
  let em := s.codeEmber n it b eb
  if x.subst || x.forced then (true, false, em)
  else if it.form = .repeated ∧ !it.refreshed then (false, false, em)
  else
    let part := s.partOf n b
    let (_, hi) := s.partRange n part
    let room := s.partLimit n it part - s.spentTo n it b
    let reserve := s.emberSum n it (b + 1) hi
    let nm := s.codeNormal n it b
    if it.out.getD part false ∨ room < reserve + eb + eb then (true, true, em)
    else if room - reserve < 8 * nm.length then (true, false, em)
    else (false, false, nm)

/-! ## After each item (R195, R201, R212, R213) -/

/-- SQI of the picture: the floor of the mean over its CTUs (R193). -/
def State.picSqi (s : State) (n : Nat) (it : Item) : Nat :=
  let w := sumOver (List.range it.bands.length) fun b => s.ctusOf n b
  it.bands.foldl (fun a b => a + b.sqi) 0 / max 1 w

def Item.embers (it : Item) : Nat := (it.bands.filter (·.ember)).length

/-- Final size S_j (R195): overhead and bands. -/
def Item.total (it : Item) : Nat := it.overhead + it.bands.foldl (fun a b => a + b.size) 0

/-- The carried state after item `it` (R201, R212, R213). -/
def State.nextRate (s : State) (n : Nat) (it : Item) : RateCtl :=
  let rc := (s.chan n).rc
  let r := s.rate n
  let size := it.total
  let sqi := s.picSqi n it
  let cj := it.complexity
  let f := min ((s.fld (Reg.CHN_CPB_SIZE n) 19 0 * 1000 * r : Nat) : Int) (rc.f - (size * r : Nat) + (rc.rh * 1001 : Nat))
  let sizes := (size :: rc.sizes).take 1200
  if it.form = .repeated then { rc with f := f, sizes := sizes, cPrev := cj }
  else
    let cutReset := decide (it.dr.lookahead = 0) && s.isCut n it
    let cRef := if cutReset ∨ rc.cRef = 0 then cj else (7 * rc.cRef + cj) / 8
    if it.embers = 0 then
      let q := rc.qRef + 65536 * ((sqi : Int) - it.dr.qtarget) / (4 * rc.g)
      let g := match rc.last with
        | none => rc.g
        | some (ls, lq) =>
          if 256 ≤ (it.qpPic - lq).natAbs ∧ !cutReset then
            (7 * rc.g + clipInt 1280 20480 (Int.fdiv (65536 * ((ls : Int) - sqi)) (it.qpPic - lq))) / 8
          else rc.g
      { rc with qRef := q, g := g, cRef := cRef, cPrev := cj, f := f, sizes := sizes, last := some (sqi, it.qpPic) }
    else { rc with qRef := rc.qRef + 256 * (min 6 it.embers : Nat), cRef := cRef, cPrev := cj, f := f, sizes := sizes }

/-- The state closed after item `j` − 1, which the join state of a snapshot carries (R370). -/
def State.joinStateOf (s : State) (n j : Nat) : JoinState :=
  let c := s.chan n
  let p := ((s.item? n j).bind (·.prior)).getD (c.lastRefresh, c.lastIrap, c.sweepFrom)
  let later := (c.items.filter fun it => decide (j ≤ it.idx) && it.inputFixed && decide (it.dr.outcome = 0)).length
  { rc := c.rc, lastRefresh := p.1, lastIrap := p.2.1, sweepFrom := p.2.2,
    hold := (c.hold.filter fun h => decide (h.1 < j)).map fun h => (h.1, h.2 - later),
    run := c.run.filter fun r => decide (r < j), last := c.lastAccepted.filter fun l => decide (l < j),
    analysis := (c.items.filter fun it => decide (j ≤ it.idx + 1) && decide (it.idx ≤ j + s.fld (Reg.CHN_LOOKAHEAD n) 3 0) &&
        s.analysed n it.idx).map fun it =>
      ⟨it.idx, it.share, it.share2, it.bands.mapIdx fun b x =>
        let p := s.picOf n it.idx
        ⟨x.cost, x.act, assocGet [] p.acts b, assocGet [] p.coarse b, assocGet [] p.hists b⟩⟩ }

/-- The join state follows item `j` − 1, and ends the copy (R370). -/
def State.sendJoin (s : State) (n j : Nat) : State :=
  (s.lanternSend (.snapshot n (.joinState j (s.joinStateOf n j)))).modChan n fun c => { c with snap := .none }

/-- Close the carried state of item `k` when stages 5 and 6 of every band are complete and the item before is closed
(R195, R212); its reconstruction becomes a reference (R223). -/
def State.closeItem (s : State) (n k : Nat) : State :=
  match s.item? n k with
  | none => s
  | some it =>
    if it.closed || !s.closedFor n k || decide (s.lacking n k 0 it.bands.length 6 ≠ 0) then s
    else
      let s := s.openItem n k
      match s.item? n k with
      | none => s
      | some it =>
        let rc := s.nextRate n it
        let bits := it.total
        let sqi := s.picSqi n it
        let s := s.modChan n fun c => { c with rc := rc }
        let s := s.modItem n k fun it => { it with closed := true, bits := bits, sqi := sqi }
        let qp := s.meanQp n it
        let s := s.modItem n (k + 1) fun x => { x with prevQp := qp }
        let s := (s.reMark n k .recon [.coding] (if (s.chan n).hold.any fun h => h.1 == k then .refLong else .refShort)).excludeRefs n
        let s := s.noteEmbers n k
        s.when (decide ((s.chan n).snap = Snap.sent (k + 1))) fun s => s.sendJoin n (k + 1)

/-- Close items in order. -/
def State.closeItems (s : State) (n : Nat) : State :=
  s.each ((s.chan n).items.map (·.idx)) fun k s => s.closeItem n k

/-- Free the buffers whose last reader has finished (R223). -/
def State.releaseBuffers (s : State) (n : Nat) : State :=
  let items := (s.chan n).items
  let s := s.each items fun it s =>
    let k := it.idx
    let nb := it.bands.length
    let src := decide (s.lacking n k 0 nb 5 = 0) && s.analysed n (k + 1) && s.analysed n (k + 2)
    s.when src fun s => s.freeBuf n k .source
  let busy := fun (j : Nat) => (s.chan n).items.any fun it =>
    (it.refs.contains j || it.idx == j || (it.refreshed && it.idx == j + 1)) && decide (s.lacking n it.idx 0 it.bands.length 6 ≠ 0)
  let unneeded := fun (b : Buf) => decide (b.mark = Mark.outputHold) && b.items.all fun j => !busy j
  let s := s.modChan n fun c => { c with pool := c.pool.map fun b =>
    (if unneeded b then { b with mark := .free, items := [], poisoned := false } else b) }
  s.prunePics n

end Sys2Proof.Machine
end

