-- ==== Sys2Proof/Machine/Output.lean ====
section
/-! DEFINITION. Stream assembly: due instants, datagrams, hand-over, and the leaving of items (R276 to
R301, R215, R357, R416, R417, R540). -/

namespace Sys2Proof.Machine

/-- `a / b` where the spec states no rounding: up or down by a free value. -/
def State.roundQ (s : State) (a b : Nat) : Nat :=
  a / b + (if a % b = 0 then 0 else Config.roundUp s.fresh % 2)

/-- `ceil (a / b)` for an integer `a`. -/
def ceilInt (a : Int) (b : Nat) : Int := -((-a) / (b : Int))

/-! ## Flows (R297, R300, R301, R540) -/

def Flow.reset (i : Nat) : Flow := ⟨i, 0, 0, ⟨0, 0, none, 0⟩, ⟨0, 0, none, 0⟩, none, 0, 0, 0, [], []⟩

def State.flow (s : State) (i : Nat) : Flow := (s.egr.flows.find? fun f => f.no == i).getD (Flow.reset i)

def State.setFlow (s : State) (f : Flow) : State :=
  { s with egr := { s.egr with flows := f :: s.egr.flows.filter fun g => g.no != f.no } }

def State.modFlow (s : State) (i : Nat) (f : Flow → Flow) : State := s.setFlow (f (s.flow i))

def State.flowKind (s : State) (i : Nat) : Nat := s.fld (Reg.OF_CTRL i) 23 20

/-- Port and sub-port of a path of the flow. -/
def State.pathPort (s : State) (i : Nat) (blue : Bool) : Nat × Nat :=
  let x := if blue then s.fld (Reg.OF_NET i) 26 22 else s.fld (Reg.OF_NET i) 31 27
  (x / 4, x % 4)

/-- The mux of a flow runs on the die of its red port, or of its blue port when red is disabled or its die is gone
(R282). -/
def State.muxDie (s : State) (i : Nat) : Nat :=
  (s.pathPort i (!(s.pathEn i false && s.dieOk (s.pathPort i false).1))).1

/-- Extended sequence number of datagram `n` of the flow (R293, R362). -/
def State.extSeq (s : State) (i n : Nat) : Nat := (s.fld (Reg.OF_TS i) 15 0 + n + (s.flow i).jump) % 4294967296

/-- The channels a flow carries: the programs bound to a KIND 0 flow, the one source of a KIND 1 flow. -/
def State.progsOf (s : State) (i : Nat) : List Nat :=
  if s.flowKind i = 1 then [s.fld (Reg.OF_CTRL i) 19 8]
  else allChans.filter fun n => s.bit (Reg.CHN_OUT_FLOW n) 31 && s.outFlow n == i

/-- The bound channel whose program_number is lowest (R540). -/
def State.firstProg (s : State) (i : Nat) : Option Nat :=
  (s.progsOf i).foldl (fun best n => match best with
    | none => some n
    | some m => if s.fld (Reg.CHN_OUT_PROG n) 31 16 < s.fld (Reg.CHN_OUT_PROG m) 31 16 then some n else some m) none

/-- A source of the flow is in PRIMING or later (R300), or is shed with begun items still to be released (R94). -/
def State.flowRuns (s : State) (i : Nat) : Bool :=
  (s.progsOf i).any fun n => s.running n || (s.chan n).items.any fun it => it.left.isNone && !it.abandoned

/-! ## Leaving (R77, R80, R215, R276, R283, R284, R416) -/

/-- The channel's first datagram is released, or would be: PRIMING ends (R80, R284). -/
def State.enterService (s : State) (n : Nat) : State :=
  if s.chanState n ≠ 2 then s
  else if s.twin.gatesOpen && !s.snuffed then s.setChan n 3 3
  else (s.setChan n 5 3).setBit (Reg.CHN_STATE n) 12 (!s.confirmed n)

/-- Items gone and judged, which nothing compares any more, are forgotten. -/
def State.sweepItems (s : State) (n : Nat) : State :=
  let keep := s.isStandby
  s.modChan n fun c => { c with items := c.items.filter fun it =>
    !((it.left.isSome || it.abandoned) && it.judged && (it.compared || !keep)) }

/-- The SQI alarm over the last round(f) released items coded from their own source without an ember band (R215). -/
def State.sqiAlarm (s : State) (n : Nat) (it : Item) : State :=
  if it.form = .repeated ∨ 0 < it.embers then s
  else
    let f := (2 * s.rate n + 1001) / 2002
    let l := (it.sqi :: (s.chan n).sqis).take f
    let s := s.modChan n fun c => { c with sqis := l }
    let sum : Int := sumOver l id
    let gap : Int := f * it.dr.qtarget - sum
    let info := 4294967296 * (it.idx % 4294967296)
    if l.length < f then s
    else if !(s.chan n).alarm && decide (50 * (f : Int) ≤ gap) then
      (s.modChan n fun c => { c with alarm := true }).raise (576 + 4 * n + 2) (3 + info)
    else if (s.chan n).alarm && decide (gap.natAbs ≤ 20 * f) then
      (s.modChan n fun c => { c with alarm := false }).raise (576 + 4 * n + 2) (4 + info)
    else s

/-- Item `k` has left at `t` (DTC ns): counted by its form, its distance from E_k shown, lateness beyond 1 µs counted and
raised (R77, R215, R283, R300). -/
def State.itemLeft (s : State) (n k : Nat) (t : Int) : State :=
  match s.item? n k with
  | none => s
  | some it =>
    if it.left.isSome || it.abandoned then s
    else
      let e := s.releaseAt n it
      let s := s.modItem n k fun it => { it with left := some t }
      let s := s.bump64 (Reg.CHN_PIC_REL_LO n)
      let s := s.when (decide (it.form = Form.repeated)) fun s => s.bump (Reg.CHN_PIC_REPEAT n)
      let s := s.when (decide (it.form = Form.slate)) fun s => s.bump (Reg.CHN_PIC_SLATE n)
      let s := s.when (decide (it.form ≠ Form.repeated)) fun s => s.wrN (Reg.CHN_SQI_LAST n) it.sqi
      let s := s.wrN (Reg.CHN_BITS_LAST n) it.total
      let s := s.wrN (Reg.CHN_OUT_MARGIN n) (2147483648 * b2n (decide (e < t)) + min (e - t).natAbs 2147483647)
      let s := s.when (decide (e + 1000 < t)) fun s =>
        let us := min (s.roundQ (t - e).toNat 1000) 16777215
        ((s.bump (Reg.CHN_OUT_LATE n)).raise (64 + 64 * s.muxDie (s.outFlow n) + 12)
          (us + 16777216 * n + 4294967296 * (k % 4294967296))).freshId
      let s := s.when (decide (t ≤ e + 1000000)) fun s => s.setBit (Reg.SAF_LATE (n / 32)) (n % 32) false
      let s := s.when (decide (it.form ≠ Form.repeated) && decide (0 < it.embers)) fun s =>
        s.raise (576 + 4 * n + 2) (1 + 65536 * min it.embers 255 + 4294967296 * (k % 4294967296))
      ((s.sqiAlarm n it).sweepItems n).vacate n

/-- An item of a channel without output counts as released at the later of E_k and the sealing of its last band (R284). -/
def State.silentRelease (s : State) (n k : Nat) : State :=
  match s.item? n k with
  | none => s
  | some it =>
    if s.noOutput n && it.inputFixed && it.bands.all (fun b => decide (7 ≤ b.done)) then
      (s.enterService n).itemLeft n k s.now
    else s

/-- After a seal past E_k (R284). -/
def State.silentReleases (s : State) (n : Nat) : State :=
  s.each ((s.chan n).items.filter fun it => decide (s.releaseAt n it ≤ s.now)) fun it s => s.silentRelease n it.idx

def execReleaseInstant (dt : Nat) (n : Fin 96) (k : Nat) (s : State) : Host.Outcome State Fault Refusal :=
  done ((s.elapse dt).silentRelease n k)

/-! ## Due instants (R279, R280, R285, R287, R289, R294) -/

/-- CPB size in bits. -/
def State.cpb (s : State) (n : Nat) : Nat := 1000 * s.fld (Reg.CHN_CPB_SIZE n) 19 0

/-- E_k on the DTC, exactly: from the grid instant itself, which the boundary gives rounded up (R279). -/
def State.releaseExact (s : State) (n : Nat) (it : Item) : Rat :=
  mkRat (it.bnd * (s.rate n : Int) / (perNum : Int) * (perNum : Int)) (s.rate n) + ((s.releaseAt n it - it.bnd : Int) : Rat)

/-- G_k = E_k − B ÷ R_h, on the DTC, exactly. -/
def State.openExact (s : State) (n : Nat) (it : Item) : Rat :=
  s.releaseExact n it - mkRat (s.cpb n * 1000000000) (max 1 it.rh)

/-- G_k on the DTC, in ns rounded up (R279, R280, R289). -/
def State.audioDue (s : State) (n : Nat) (it : Item) : Int := (s.openExact n it).ceil

/-- A PTS, 90 kHz and 33 bits, of an instant `e` of channel time, M after it (R286). -/
def State.ptsFrom (s : State) (n : Nat) (e : Int) : Nat :=
  (((e + 1000 * s.fld (Reg.CHN_OUT_DTS n) 16 0) * 9 / 100000) % 8589934592).toNat

/-- PTS of an item (R286). -/
def State.pts (s : State) (n : Nat) (it : Item) : Nat := s.ptsFrom n (s.releaseAt n it + it.doff)

/-- Due instant of a video packet that ends `bits` coded bits into item `it`, with the video before it done at `tAf` (R280), on the
DTC, exactly. -/
def State.videoExact (s : State) (n : Nat) (it : Item) (bits : Nat) (tAf : Rat) : Rat :=
  max tAf (s.openExact n it) + mkRat (bits * 1000000000) (max 1 it.rh)

/-- The same in ns rounded up (R279). -/
def State.videoDue (s : State) (n : Nat) (it : Item) (bits : Nat) (tAf : Rat) : Int := (s.videoExact n it bits tAf).ceil

/-- RTP timestamp of a close instant in the flow's time base (R293). -/
def rtpStamp (close base : Int) : Nat := (((close + base) * 9 / 100000) % 4294967296).toNat

/-- A failure of the output CRC chain: every failure counted, a snuff when no good copy remains (R417). -/
def State.crcChain (s : State) (fails : Nat) (noCopy : Bool) : State :=
  (s.bump Reg.SAF_CRC_CHAIN fails).when (decide (0 < fails) && noCopy) fun s => s.snuff 4

/-- A read of a sealed band fails against the output CRC that stage 5 wrote or against its tag (R239, R417 step 2). -/
def State.readFails (s : State) (r : BandRead) : Bool :=
  r.tagChan != r.chan || r.tagIndex != r.index || crc32c r.bytes != crc32c (s.sealedBytes r.chan r.index r.band)

/-- The multiplexer's reads of sealed bands `caught` fail (channel, item, band): each is served again from another copy, with
a record of cause 15 (R417 step 2, R423). -/
def State.readsCaught (s : State) (caught : List (Nat × Nat × Nat)) (noCopy : Bool) : State :=
  (s.crcChain caught.length noCopy).when (!noCopy) fun s =>
    s.each caught fun c s => s.when (s.item? c.1 c.2.1).isSome fun s => s.fail c.1 0 15 0 0 c.2.2 1 c.2.1 0

/-! ## Hand-over to the traffic manager (R282, R307, R315, R316) -/

def State.modDgram (s : State) (i seq : Nat) (f : Dgram → Dgram) : State :=
  { s with egr := { s.egr with dgrams := s.egr.dgrams.map fun d => (if d.flow = i && d.seq = seq then f d else d) } }

/-- Difference of two 48-bit tags, signed (R307). -/
def tagDiff (a b : Nat) : Int :=
  let x := ((a : Int) - b) % 281474976710656
  if x < 140737488355328 then x else x - 281474976710656

def tagMax (a b : Nat) : Nat := if tagDiff a b < 0 then b else a

/-- Class of a flow's frames (R302). -/
def State.flowClass (s : State) (i : Nat) : Nat := if s.flowKind i = 3 ∨ s.flowKind i = 4 then 5 else 6

/-- Key of a virtual time: port, sub-port, class. -/
def vkey (p q c : Nat) : Nat := 32 * p + 8 * q + c

/-- Bytes of a frame before the RTP payload, on a path (R305). -/
def State.headLen (s : State) (i : Nat) (blue : Bool) : Nat :=
  14 + (if s.bit (Reg.OF_VLAN i) (if blue then 31 else 15) then 4 else 0) +
    (if s.bit (Reg.OF_CTRL i) 30 then 40 else 20) + 8 + 12

/-- Ticks of 1/50 ns that a byte takes on the line of port `p` (R304, R385). -/
def State.byteTicks (s : State) (p : Nat) : Nat :=
  match s.fld (Reg.NP_CTRL p) 1 0 with
  | 2 => 2
  | 3 => 4
  | _ => 1

/-- The DTC in 1/50 ns. -/
def State.now50 (s : State) : Int := (s.clk.dtc * 50 / 4294967296 : Nat)

def Flow.path (f : Flow) (blue : Bool) : FlowPath := if blue then f.blue else f.red
def Flow.setPath (f : Flow) (blue : Bool) (x : FlowPath) : Flow := if blue then { f with blue := x } else { f with red := x }

/-- Ceiling of a credit: 16,384 B, or 0 in a paired unit (R308, R359). -/
def State.creditCap (s : State) : Int := if s.paired then 0 else 1073741824

/-- What a credit gains in `t` ticks at TF_RATE, in 2⁻¹⁶ B (R308). -/
def State.creditRise (s : State) (i : Nat) (t : Int) : Int :=
  let x : Int := s.fld (Reg.TF_RATE i) 29 0 * t * 1024
  x / 6250000 + (if x % 6250000 = 0 then 0 else (Config.creditUp s.fresh i % 2 : Nat))

/-- A frame of the flow waits on the path. -/
def State.waitsOn (s : State) (i : Nat) (blue : Bool) : Bool :=
  s.egr.queue.any fun f => f.flow == i && f.blue == blue && (f.cls == 6 || f.cls == 5)

/-- The credit of a flow on a path now (R308, R309). Until the bytes of its latest frame are on the line the frame counts as waiting
(DEDUCED, log 52); while they are the credit falls at sendSlope; then it rises while a frame waits or it is below 0. With TF_RATE 0 it
stands still but for such bytes, and while the port is out of service altogether (R309, R316). -/
def State.creditNow (s : State) (i : Nat) (blue : Bool) : Int :=
  let fp := (s.flow i).path blue
  let (p, q) := s.pathPort i blue
  let z := s.now50
  if z ≤ fp.upTo ∨ s.subUp p q = false then fp.credit
  else
    let cut := fun (t : Int) => max fp.upTo (min z t)
    let bytes := fp.bytes.getD (fp.upTo, fp.upTo)
    let a := cut bytes.1
    let e := cut bytes.2
    let c := min (fp.credit + s.creditRise i (a - fp.upTo)) (max fp.credit s.creditCap)
    let c := c - (e - a) * 65536 / (s.byteTicks p : Int) + s.creditRise i (e - a)
    if s.fld (Reg.TF_RATE i) 29 0 = 0 ∨ e = z then c
    else if s.waitsOn i blue then min (c + s.creditRise i (z - e)) (max c s.creditCap)
    else if 0 ≤ c then 0
    else min (c + s.creditRise i (z - e)) 0

/-- Bring the credit of a path up to now. -/
def State.settleCredit (s : State) (i : Nat) (blue : Bool) : State :=
  let c := s.creditNow i blue
  (s.modFlow i fun f => f.setPath blue { f.path blue with credit := c, upTo := max (f.path blue).upTo s.now50 }).freshId

/-- An item that leaves: one of the unit's own, or of the catch-up stream of a join (R372). -/
def State.outItem? (s : State) (n k : Nat) : Option Item :=
  s.item? n k <|> (s.chan n).caught.find? fun it => it.idx == k

/-- Items that start in a datagram, with PTS and discontinuity. -/
def State.startsOf (s : State) (d : Dgram) : List (Nat × Nat × Nat × Bool) :=
  (d.pkts.filter fun p => p.kind == 5 && p.first).filterMap fun p =>
    (s.outItem? p.chan p.idx).map fun it => (p.chan, p.idx, s.pts p.chan it, it.dr.discontinuity)

/-- Places of the PCRs of a datagram in the frame (R287). -/
def Dgram.pcrs (d : Dgram) (head : Nat) : List (Nat × Int) :=
  (d.pkts.mapIdx fun j p => (j, p)).filterMap fun x =>
    if x.2.pcr then some (head + 188 * x.1 + 11, x.2.doff) else none

/-- A copy has left its port at `t`, or was discarded or dropped: the channels it carries enter service, and when every copy
has left the cursor moves and the items that end in it have left (R80, R284, R299). -/
def State.copyLeft (s : State) (i seq : Nat) (blue : Bool) (t : Int) : State :=
  match s.egr.dgrams.find? (fun d => d.flow == i && d.seq == seq) with
  | none => s
  | some d =>
    let s := s.each (d.pkts.filter fun p => decide (2 ≤ p.kind ∧ p.kind < 6)) fun p s => s.enterService p.chan
    let out := if blue then (d.out.1, false) else (false, d.out.2)
    let s := s.modDgram i seq fun d => { d with out := out }
    if out.1 || out.2 then s
    else
      let s := { s with egr := { s.egr with dgrams := s.egr.dgrams.filter fun d => !(d.flow == i && d.seq == seq) } }
      let s := s.modFlow i fun f => { f with left := max f.left (seq + 1) }
      let s := s.wrN (Reg.OF_CURSOR i) (s.extSeq i seq)
      s.each (d.pkts.filter fun p => p.kind == 5 && p.last) fun p s => s.itemLeft p.chan p.idx t

/-- A copy that has been selected leaves its port at `t` (1/50 ns), when its last bit does (R284, R299). -/
def State.leaves (s : State) (i seq : Nat) (blue : Bool) (t : Int) : State :=
  { s with egr := { s.egr with leaving := s.egr.leaving ++ [(i, seq, blue, t)] } }

/-- The copies whose last bit has left by now have left, each at its own instant, in DTC ns rounded up. DESIGN CHOICE (log 52): what
follows from a departure is entered by the first command of stream assembly, of the traffic managers or of the departure monitor at or
after its instant; the cursors are sampled every 1 µs. -/
def State.settleLeft (s : State) : State :=
  let gone := s.egr.leaving.filter fun x => decide (x.2.2.2 ≤ s.now50)
  let left := s.egr.leaving.filter fun x => !decide (x.2.2.2 ≤ s.now50)
  let s := { s with egr := { s.egr with leaving := left } }
  s.each gone fun x s => s.copyLeft x.1 x.2.1 x.2.2.1 (ceilInt x.2.2.2 50)

/-- Every packet of the datagram is built from sealed bands that stage 7 has handed over (R282). -/
def State.built (s : State) (d : Dgram) : Bool :=
  d.pkts.all fun p => decide (p.kind ≠ 5) || (s.item? p.chan p.idx).isNone || s.past p.chan p.idx p.band 7

/-- The datagram before this one has been handed to the same path (R282). -/
def State.earlierHanded (s : State) (d : Dgram) (blue : Bool) : Bool :=
  s.egr.dgrams.all fun e => decide (e.flow ≠ d.flow) || decide (d.seq ≤ e.seq) || !(if blue then e.wait.2 else e.wait.1)

/-- Hand a copy to the traffic manager of its port: dropped where the sub-port is out of service, otherwise tagged and
queued (R307, R316). -/
def State.handOver (s : State) (d : Dgram) (blue : Bool) : State :=
  let i := d.flow
  let (p, q) := s.pathPort i blue
  let c := s.flowClass i
  let s := s.modDgram i d.seq fun d => { d with wait := if blue then (d.wait.1, false) else (false, d.wait.2) }
  if !s.subUp p q then (s.bump (Reg.TMC_DROPPED p q c)).copyLeft i d.seq blue s.now
  else
    let head := s.headLen i blue
    let body := if blue then d.payload.2 else d.payload.1
    let len := max 64 (head + body.length + 4)
    let s := s.settleCredit i blue
    let w := max 1 (s.fld (Reg.TF_WEIGHT i) 15 0)
    let tag := (tagMax (assocGet 0 s.egr.vtimes (vkey p q c)) ((s.flow i).path blue).tag + len * 65536 / w) % 281474976710656
    let s := s.modFlow i fun f => f.setPath blue { f.path blue with tag := tag }
    s.enqueueFrame ⟨p, q, c, i, blue, d.seq, len, tag, false, false, d.pcrs head,
      .media (4 * p + q) i (s.extSeq i d.seq) d.stamp d.marker len (s.startsOf d) [] body 0 0⟩

def State.dropFrame (s : State) (f : QFrame) : State :=
  { s with egr := { s.egr with queue := s.egr.queue.erase f } }.promoteFrame f.port

/-- A frame is dropped and counted; a copy of a datagram counts as gone. -/
def State.discardFrame (s : State) (f : QFrame) : State :=
  let s := ((s.when (f.cls == 6 || f.cls == 5) fun s => s.settleCredit f.flow f.blue).dropFrame f).bump (Reg.TMC_DROPPED f.port f.sub f.cls)
  s.when (f.cls == 6 || f.cls == 5) fun s => s.when (!f.replay) fun s => s.copyLeft f.flow f.seq f.blue s.now

/-- A sub-port goes out of service with state `st`: its queued frames are dropped and counted, its shapers stand still, and
the port event is raised (R316, R388, R401). -/
def State.subOutage (s : State) (p q st : Nat) : State :=
  let was := s.subUp p q
  let s := s.when was fun s =>
    s.each ((List.range 2048).flatMap fun i => ([false, true].filter fun b =>
      s.flowValid i && s.pathEn i b && s.pathPort i b == (p, q)).map fun b => (i, b)) fun x s => s.settleCredit x.1 x.2
  let s := (s.setFld (Reg.NP_STATUS p) (2 * q + 1) (2 * q) st).when was fun s =>
    s.raise (64 + 64 * p + 13) (256 * q + st)
  s.each (s.egr.queue.filter fun f => f.port == p && f.sub == q) fun f s => s.discardFrame f

end Sys2Proof.Machine
end

