-- ==== Sys2Proof/Machine/Transport.lean ====
section
/-! DEFINITION. The bytes that streams consist of: TS packets, PES headers and tables, RTP payloads of VVC, FEC payloads, and
the UDP checksum (R285 to R296). Field layouts are those of the standards the spec names (ISO/IEC 13818-1, RFC 9328, RFC 768,
SMPTE ST 2022-1), which it does not reprint: PRESUMED (log 52). -/

namespace Sys2Proof.Machine

def byte (n : Nat) : Byte := BitVec.ofNat 8 n
def bytes2 (n : Nat) : List Byte := [byte (n / 256), byte n]
def bytes4 (n : Nat) : List Byte := bytes2 (n / 65536) ++ bytes2 n

/-! ## PES and TS packets (R285 to R287) -/

/-- The five bytes of a PTS (PTS_DTS_flags 0b10). -/
def ptsField (t : Nat) : List Byte :=
  [byte (33 + 2 * (t / 1073741824 % 8)), byte (t / 4194304), byte (1 + 2 * (t / 32768 % 128)), byte (t / 128),
    byte (1 + 2 * (t % 128))]

/-- Header of a PES packet with a PTS and data_alignment_indicator 1: 14 bytes (R286, R289). -/
def pesHead (id len pts : Nat) : List Byte := [0, 0, 1, byte id] ++ bytes2 len ++ [0x84, 0x80, 5] ++ ptsField pts

/-- Bytes of adaptation field that a packet's indicators call for (R286 to R288). -/
def fieldRoom (pcr flag : Bool) : Nat := if pcr then 8 else if flag then 2 else 0

/-- The 188 bytes of a packet, its PCR field zero (R287): an adaptation field fills what the payload leaves. -/
def TsPacket.octets (p : TsPacket) : List Byte :=
  let room := 184 - p.payload.length
  let flags := 128 * b2n p.disc + 64 * b2n p.rai + 16 * b2n p.pcr
  let field := if room = 0 then [] else if room = 1 then [byte 0]
    else [byte (room - 1), byte flags] ++ List.replicate (if p.pcr then 6 else 0) 0 ++
      List.replicate (room - 2 - (if p.pcr then 6 else 0)) 0xFF
  [0x47, byte (64 * b2n p.unit + p.pid / 256), byte p.pid,
    byte ((if room = 0 then 16 else if p.payload = [] then 32 else 48) + p.cc)] ++ field ++ p.payload

/-- Packet 0x1FFF that fills a datagram (R281). -/
def nullPacket : TsPacket := ⟨6, 0, 0, 8191, 0, false, false, false, false, false, false, 0, List.replicate 184 0xFF, 0⟩

/-- The PCR field for a count of 27 MHz (R287). -/
def pcrField (t : Nat) : List Byte :=
  let base := t / 300 % 8589934592
  bytes4 (base / 2) ++ [byte (128 * (base % 2) + 126 + t % 300 / 256), byte (t % 300)]

/-- Replace bytes from an offset on. -/
def patch (l : List Byte) (off : Nat) (x : List Byte) : List Byte := l.take off ++ x ++ l.drop (off + x.length)

/-! ## PSI (R285) -/

def crcMpegParams : CrcParams := ⟨32, 0x04C11DB7, 0xFFFFFFFF, false, false, 0⟩

/-- A section with version_number 0: table_id, its extension, body; the pointer_field goes before it. -/
def psiSection (table ext : Nat) (body : List Byte) : List Byte :=
  let l := byte table :: bytes2 (45056 + body.length + 9) ++ bytes2 ext ++ [0xC1, 0, 0] ++ body
  0 :: l ++ bytes4 (crcOf crcMpegParams l)

/-- The PAT of a transport stream: its programs with their PMT PIDs. -/
def patSection (tsid : Nat) (progs : List (Nat × Nat)) : List Byte :=
  psiSection 0 tsid (progs.flatMap fun p => bytes2 p.1 ++ bytes2 (57344 + p.2))

/-- A stream of a PMT: stream_type, PID, descriptors. -/
def pmtStream (type pid : Nat) (d : List Byte) : List Byte := byte type :: bytes2 (57344 + pid) ++ bytes2 (61440 + d.length) ++ d

/-- A registration descriptor. -/
def registration (id : List Byte) : List Byte := [5, 4] ++ id

def pmtSection (prog pcrPid : Nat) (loop_ : List Byte) (streams : List Byte) : List Byte :=
  psiSection 2 prog (bytes2 (57344 + pcrPid) ++ bytes2 (61440 + loop_.length) ++ loop_ ++ streams)

/-! ## VVC over RTP (R294) -/

/-- Step of the scan for start codes, from the end of the stream: pieces that begin with one, and the bytes before them. -/
def annexStep (b : Byte) (x : List Byte × List (List Byte)) : List Byte × List (List Byte) :=
  let c := b :: x.1
  if c.take 3 = [0, 0, 1] then ([], c :: x.2) else (c, x.2)

/-- A byte stream cut at its start codes, each piece with its start code. -/
def annexB (l : List Byte) : List (List Byte) := (l.foldr annexStep ([], [])).2

/-- The NAL unit of a piece: without start code and trailing zero bytes. -/
def nalOf (l : List Byte) : List Byte := ((l.drop 3).reverse.dropWhile (· == 0)).reverse

/-- Pieces of `size` bytes. -/
def chop : Nat → Nat → List Byte → List (List Byte)
  | 0, _, _ => []
  | fuel + 1, size, l => if l = [] then [] else l.take size :: chop fuel size (l.drop size)

/-- RTP payloads of a NAL unit with the bytes of it that each completes: one packet, or fragmentation units of at most 1,400
bytes (R294). -/
def nalPackets (nal : List Byte) : List (List Byte × Nat) :=
  if nal.length ≤ 1400 then [(nal, nal.length)]
  else
    let h0 := (nal.getD 0 0).toNat
    let h1 := (nal.getD 1 0).toNat
    let parts := chop nal.length 1397 (nal.drop 2)
    parts.mapIdx fun j p =>
      ([byte h0, byte (232 + h1 % 8),
        byte (128 * b2n (decide (j = 0)) + 64 * b2n (decide (j + 1 = parts.length)) + h1 / 8)] ++ p, 2 + 1397 * j + p.length)

/-- RTP payloads of a byte stream, each with the bytes of the stream through its last. -/
def rtpPackets (pieces : List (List Byte)) : List (List Byte × Nat) :=
  (pieces.foldl (fun (a : Nat × List (List Byte × Nat)) q =>
    (a.1 + q.length, a.2 ++ (nalPackets (nalOf q)).map fun x => (x.1, a.1 + 3 + x.2))) (0, [])).2

/-! ## FEC (R296) -/

def xorBytes : List Byte → List Byte → List Byte
  | [], y => y
  | x, [] => x
  | a :: x, b :: y => (a ^^^ b) :: xorBytes x y

/-- Payload of an ST 2022-1 FEC datagram: row or column, L and D, payload type and low sequence number of the media datagrams,
and these with their timestamps. -/
def fecPayload (row : Bool) (l d pt base : Nat) (ms : List (Nat × List Byte)) : List Byte :=
  let x := fun (f : Nat × List Byte → Nat) => ms.foldl (fun a m => a ^^^ f m) 0
  bytes2 base ++ bytes2 (x fun m => m.2.length) ++ [byte (128 + x fun _ => pt), 0, 0, 0] ++ bytes4 (x (·.1)) ++
    [byte (64 * b2n row), byte (if row then 1 else l), byte (if row then l else d), 0] ++
    ms.foldl (fun a m => xorBytes a m.2) []

/-! ## The UDP checksum (R287, R297) -/

/-- Sum of 16-bit words, an odd last byte padded with zero. -/
def wordSum : List Byte → Nat
  | [] => 0
  | [a] => 256 * a.toNat
  | a :: b :: r => 256 * a.toNat + b.toNat + wordSum r

/-- The checksum over pseudo header, UDP header and data; 0 is sent as 0xFFFF. -/
def udpSum (l : List Byte) : Nat :=
  let s := wordSum l
  let x := 65535 - (if s = 0 then 0 else (s - 1) % 65535 + 1)
  if x = 0 then 65535 else x

end Sys2Proof.Machine
end

