-- ==== Sys2Proof/Machine/Mux.lean ====
section
/-! DEFINITION. Stream assembly (R280, R281, R285 to R296, R298): the packets of each program as the coded bytes and the decision
records give them, the datagrams they fill, and audio into streams. -/

namespace Sys2Proof.Machine

/-! ## Items that stream assembly sees -/

/-- Items of channel `n` in order: first those of a catch-up stream, then the unit's own (R372). -/
def State.outItems (s : State) (n : Nat) : List Item :=
  (s.chan n).caught ++ (s.chan n).items.filter fun it => !it.abandoned

def State.modOut (s : State) (n k : Nat) (f : Item → Item) : State :=
  let g := fun (it : Item) => if it.idx = k then f it else it
  s.modChan n fun c => { c with items := c.items.map g, caught := c.caught.map g }

def State.modMux (s : State) (n : Nat) (f : MuxState → MuxState) : State :=
  s.modChan n fun c => { c with mux := f c.mux }

/-- The sealed bytes of the bands that stage 7 has handed over, from the first on, each band with its bytes (R282); and
whether these are all. -/
def State.handed (s : State) (n : Nat) (it : Item) : List (List Byte) × Bool :=
  let l := it.bands.takeWhile fun b => decide (b.done = 8)
  ((List.range l.length).map (s.sealedBytes n it.idx), decide (l.length = it.bands.length))

/-- The band that holds byte `i` of the item's coded bytes. -/
def bandAt (l : List (List Byte)) (i : Nat) : Nat :=
  match l with
  | [] => 0
  | b :: r => if i < b.length then 0 else 1 + bandAt r (i - b.length)

/-- The records that fix an item's due instants stand (R280). -/
def Item.timed (it : Item) : Bool := it.inputFixed && decide (0 < it.rh)

/-- The item as it would be timed before its HRD rate is fixed. DEDUCED (log 52): by the rate carried. -/
def State.asTimed (s : State) (n : Nat) (it : Item) : Item :=
  if it.rh = 0 then { it with rh := (s.chan n).rc.rh } else it

/-! ## Packets in due order (R280, R286, R287, R294) -/

/-- The next packet of a stream: due instant, packet, and what the program's state becomes; or how early it may be due while
its content is not known; or nothing more. -/
inductive NextPacket where
  | none
  | unknown (from_ : Int)
  | packet (due : Int) (p : TsPacket) (next : MuxState)

/-- The PCR-only packet due at `t` (R287), on the time base of the item whose packets have come so far (R288). -/
def State.pcrPacket (s : State) (n : Nat) (g : MuxState) (mark : Bool) (t : Int) : NextPacket :=
  .packet t ⟨2, n, g.item, s.fld (Reg.CHN_OUT_PIDS n) 12 0, 0, false, false, false, true, false, mark, 0, [], g.base⟩
    { g with pcrAt := some t }

/-- The next packet on the video PID of a program (R280, R286 to R288). `mark`: it carries a takeover's discontinuity. -/
def State.videoNext (s : State) (i n : Nat) (mark : Bool) (g : MuxState) : NextPacket :=
  let pcr := g.pcrAt.map fun (t : Int) => t + 1000000 * (s.fld (Reg.OF_AUX i) 23 16 : Int)
  let before := fun (t : Int) (x : NextPacket) => match pcr with
    | some p => if p < t then s.pcrPacket n g mark p else x
    | none => x
  match (s.outItems n).find? (fun it => decide (g.item ≤ it.idx)) with
  | none => match pcr with
    | some p => if s.running n then s.pcrPacket n g mark p else .none
    | none => .none
  | some it =>
    let off := if it.idx = g.item then g.off else 0
    let t := s.asTimed n it
    if !it.timed then before (s.videoDue n t 0 g.tAf) (.unknown (s.videoDue n t 0 g.tAf))
    else
      let (bands, full) := s.handed n it
      let bytes := pesHead 0xE0 0 (s.pts n it) ++ bands.flatten
      let first := decide (off = 0)
      let disc := mark || (first && it.dr.discontinuity)
      let cap := 184 - fieldRoom first disc
      let left := bytes.length - off
      let last := full && decide (left ≤ cap)
      let take := min cap left
      let due := s.videoDue n it (8 * (off + take - 14)) g.tAf
      if !last && decide (left < cap) then
        before (s.videoDue n it (8 * (bytes.length - 14) + 8) g.tAf) (.unknown (s.videoDue n it (8 * (bytes.length - 14) + 8) g.tAf))
      else before (if first then due else due + 1) (.packet due
        ⟨5, n, it.idx, s.fld (Reg.CHN_OUT_PIDS n) 12 0, bandAt bands (off + take - 15), first, last, first, first,
          first && it.starts, disc, 0, (bytes.drop off).take take, it.doff⟩
        { g with item := if last then it.idx + 1 else it.idx, off := if last then 0 else off + take, base := it.doff,
                 tAf := if last then s.videoExact n it (8 * (off + take - 14)) g.tAf else g.tAf, pcrAt := if first then some due else g.pcrAt })

/-- The next packet of a KIND 1 flow: one RTP payload, due at the end of its bits (R294). -/
def State.nalNext (s : State) (n : Nat) (g : MuxState) : NextPacket :=
  match (s.outItems n).find? (fun it => decide (g.item ≤ it.idx)) with
  | none => .none
  | some it =>
    if !it.timed then .unknown (s.audioDue n (s.asTimed n it))
    else
      let (bands, full) := s.handed n it
      let off := if it.idx = g.item then g.off else 0
      let l := rtpPackets (bands.flatMap annexB)
      match l[off]? with
      | none => .unknown (s.videoDue n it (8 * bands.flatten.length + 8) g.tAf)
      | some x =>
        let last := full && decide (off + 1 = l.length)
        let due := s.videoDue n it (8 * x.2) g.tAf
        .packet due ⟨5, n, it.idx, 0, bandAt bands (x.2 - 1), decide (off = 0), last, false, false, false, false, 0, x.1, it.doff⟩
          { g with item := if last then it.idx + 1 else it.idx, off := if last then 0 else off + 1, base := it.doff,
                   tAf := if last then s.videoExact n it (8 * x.2) g.tAf else g.tAf }

/-! ## Sections and audio (R289, R291) -/

/-- round(f) of a channel. -/
def State.roundRate (s : State) (n : Nat) : Nat := (2 * s.rate n + 1001) / 2002

/-- A section goes with the item of its input context's index `j`, with `f` pictures a second (R291), as long as nothing has ended
it (R126, R127). -/
def SpliceSection.goesWith (x : SpliceSection) (f : Nat) (j : Int) : Bool :=
  if x.kind = 5 then decide (j = x.carry)
  else if x.kind = 2 ∨ x.kind = 4 then decide (j = x.item) && x.stop.all fun e => decide (j < e)
  else decide (j = x.carry) || (decide ((x.carry : Int) < j) && decide (j < x.item) &&
    decide ((j - x.carry) % (max 1 f : Nat) = 0) && x.stop.all fun e => decide (j < e))

/-- PTS of the item that index `j` of the input context of channel `n` gives it. -/
def State.splicePts (s : State) (n : Nat) (j : Nat) : Nat :=
  let k := (j : Int) + (s.chan (s.inputOf n)).anchor - (s.chan n).anchor
  s.ptsFrom n (gridAt (s.rate n) ((s.chan n).anchor + k) + s.align n + 1000 * s.fld (Reg.CHN_DELAY n) 22 0)

/-- The sections that go with item `it` of channel `n`, each with its pointer_field. -/
def State.spliceSections (s : State) (n : Nat) (it : Item) : List (List Byte) :=
  if !s.bit (Reg.CHN_OUT_FLAGS n) 3 then []
  else ((s.chan (s.inputOf n)).sections.filter fun x => x.goesWith (s.roundRate n) (s.sourceIndex n it.idx)).map fun x =>
    0 :: Config.spliceSection ⟨x.event, decide (x.kind = 5), decide (x.kind = 6), decide (x.kind ≤ 2), s.splicePts n x.item,
      x.body⟩

/-- Audio PIDs of a channel, ascending: PID and number. -/
def State.audioPids (s : State) (n : Nat) : List (Nat × Nat) :=
  let l := (List.range 8).filterMap fun a =>
    if s.bit (Reg.CHN_OUT_AUD n a) 31 then some (s.fld (Reg.CHN_OUT_AUD n a) 28 16, a) else none
  l.foldl (fun r x => r.takeWhile (fun y => decide (y.1 ≤ x.1)) ++ [x] ++ r.dropWhile (fun y => decide (y.1 ≤ x.1))) []

/-- Sections and audio PES packets of an item, in the order of R280: kind, PID, bytes. None while the audio is still to be
read. -/
def State.sideUnits (s : State) (n : Nat) (it : Item) : Option (List (Nat × Nat × List Byte)) :=
  let sections := (s.spliceSections n it).map fun b => (3, s.fld (Reg.CHN_OUT_PIDS n) 28 16, b)
  match s.audioPids n, it.audio with
  | [], _ => some sections
  | _, none => none
  | _, some l => some (sections ++ l.map fun x => (4, x.1, x.2))

/-- The next packet of sections and audio of a program. `marks`: PIDs whose next packet carries a takeover's discontinuity. -/
def State.sideNext (s : State) (n : Nat) (marks : List Nat) (g : MuxState) : NextPacket :=
  if !s.bit (Reg.CHN_OUT_FLAGS n) 3 && decide (s.audioPids n = []) then .none
  else match (s.outItems n).find? (fun it => decide (g.side ≤ it.idx) && (!it.timed || s.sideUnits n it != some [])) with
    | none => .none
    | some it =>
      if !it.timed then .unknown (s.audioDue n (s.asTimed n it))
      else match s.sideUnits n it with
        | none => .unknown (s.audioDue n it)
        | some l =>
          let here := decide (it.idx = g.side)
          let u := if here then g.unit else 0
          let off := if here then g.sideOff else 0
          match l[u]? with
          | none => .none
          | some (kind, pid, bytes) =>
            let disc := marks.contains pid
            let cap := 184 - fieldRoom false disc
            let take := min cap (bytes.length - off)
            let last := decide (bytes.length ≤ off + take)
            let fill := if kind = 3 then List.replicate (cap - take) 0xFF else []
            let ends := last && decide (u + 1 = l.length)
            .packet (s.audioDue n it)
              ⟨kind, n, it.idx, pid, 0, false, last, decide (off = 0), false, false, disc, 0, (bytes.drop off).take take ++ fill, it.doff⟩
              { g with side := if ends then it.idx + 1 else it.idx, unit := if ends then 0 else if last then u + 1 else u,
                       sideOff := if last then 0 else off + take }

/-! ## PAT and PMTs (R285, R540) -/

/-- Programs of a flow by ascending program_number. -/
def State.orderedProgs (s : State) (i : Nat) : List Nat :=
  let num := fun (n : Nat) => s.fld (Reg.CHN_OUT_PROG n) 31 16
  (s.progsOf i).foldl (fun r n => insertBy (fun a b => decide (num a < num b)) n r) []

/-- The section of the PMT of channel `n`. -/
def State.pmtOf (s : State) (n : Nat) : List Byte :=
  let video := s.fld (Reg.CHN_OUT_PIDS n) 12 0
  let scte := s.bit (Reg.CHN_OUT_FLAGS n) 3
  let descriptor := Config.videoDescriptor (s.hevc n) (((s.profile n).map Profile.idc).getD 0) (s.levelIdc n)
    (s.bit (Reg.CHN_CODEC n) 8)
  pmtSection (s.fld (Reg.CHN_OUT_PROG n) 31 16) video (if scte then registration [0x43, 0x55, 0x45, 0x49] else [])
    (pmtStream (if s.hevc n then 0x24 else 0x33) video descriptor ++
      ((s.audioPids n).flatMap fun x => pmtStream 0x06 x.1 (registration [0x42, 0x53, 0x53, 0x44])) ++
      (if scte then pmtStream 0x86 (s.fld (Reg.CHN_OUT_PIDS n) 28 16) [] else []))

/-- PAT and PMT packets of a flow that are due together, in order. -/
def State.psiPackets (s : State) (i : Nat) : List TsPacket :=
  let marks := (s.flow i).marks
  let packet := fun (kind n pid : Nat) (b : List Byte) =>
    let cap := 184 - fieldRoom false (marks.contains pid)
    (⟨kind, n, 0, pid, 0, false, true, true, false, false, marks.contains pid, 0,
      b ++ List.replicate (cap - b.length) 0xFF, 0⟩ : TsPacket)
  let progs := s.orderedProgs i
  packet 0 0 0 (patSection (s.fld (Reg.OF_TS i) 31 16)
      (progs.map fun n => (s.fld (Reg.CHN_OUT_PROG n) 31 16, s.fld (Reg.CHN_OUT_PROG n) 12 0))) ::
    progs.map fun n => packet 1 n (s.fld (Reg.CHN_OUT_PROG n) 12 0) (s.pmtOf n)

/-- The next whole multiple of PSI_INT in the flow's time base after `t`, on the DTC. -/
def State.psiAfter (s : State) (i : Nat) (t : Int) : Int :=
  let per : Int := 10000000 * max 1 (s.fld (Reg.OF_AUX i) 31 24 : Nat)
  let base := (s.flow i).base
  ((t + base) / per + 1) * per - base

/-- PAT and PMT packets still to come of those under way, or else the next ones; with their due instant. `other` is the due
instant of the flow's first other packet. -/
def State.psiNext (s : State) (i : Nat) (other : Option Int) : List (Int × TsPacket) :=
  let l := s.psiPackets i
  match (s.flow i).psi with
  | none => match other with
    | none => []
    | some t => l.map fun p => (t, p)
  | some (t, k) => if k < l.length then (l.drop k).map fun p => (t, p) else l.map fun p => (s.psiAfter i t, p)

/-! ## Merging (R280, R281) -/

/-- A packet waiting to be placed: due instant, packet, and the part of its program's state that placing it changes. -/
structure Waiting where
  due : Int
  p : TsPacket
  next : MuxState

/-- Up to `fuel` packets of a stream, and how early an unknown one may be due. -/
def runOf (step : List Nat → MuxState → NextPacket) : Nat → List Nat → MuxState → List Waiting × Option Int
  | 0, _, _ => ([], none)
  | fuel + 1, marks, g => match step marks g with
    | .none => ([], none)
    | .unknown t => ([], some t)
    | .packet t p next =>
      let r := runOf step fuel (marks.filter (· ≠ p.pid)) next
      (⟨t, p, next⟩ :: r.1, r.2)

def earliest (l : List (Option Int)) : Option Int := (l.filterMap id).min?

/-- Order of packets (R280): due instant, kind, program number, PID. -/
def State.goesBefore (s : State) (a b : Waiting) : Bool :=
  let key := fun (x : Waiting) => [x.p.kind, s.fld (Reg.CHN_OUT_PROG x.p.chan) 31 16, if x.p.kind = 4 then x.p.pid else 0]
  decide (a.due < b.due) || (decide (a.due = b.due) && decide (key a < key b))

def insertWaiting (before : Waiting → Waiting → Bool) (x : Waiting) : List Waiting → List Waiting
  | [] => [x]
  | y :: r => if before x y then x :: y :: r else y :: insertWaiting before x r

/-- Packets of a TS flow in due order, those that come before any packet not yet known; and how early such a packet may be
due. -/
def State.waiting (s : State) (i : Nat) : List Waiting × Option Int :=
  let marks := (s.flow i).marks
  let runs := (s.progsOf i).flatMap fun n =>
    let g := (s.chan n).mux
    [runOf (fun m => s.videoNext i n (m.contains (s.fld (Reg.CHN_OUT_PIDS n) 12 0))) 7 marks g, runOf (s.sideNext n) 7 marks g]
  let bound := earliest (runs.map (·.2))
  let known := fun (t : Int) => bound.all fun b => decide (t < b)
  let l := (runs.flatMap (·.1)).filter fun x => known x.due
  let psi := ((s.psiNext i (l.map (·.due)).min?).map fun x => (⟨x.1, x.2, MuxState.reset⟩ : Waiting)).filter fun x => known x.due
  ((psi ++ l).foldl (fun r x => insertWaiting s.goesBefore x r) [], bound)

/-- The close instant of the next datagram of a TS flow (R281), once everything due by then is known. -/
def closeOf (l : List Waiting) (bound : Option Int) : Option Int :=
  l.head?.bind fun x =>
    let seventh := (l[6]?).elim (x.due + 100000) (·.due)
    let last := (l.find? fun y => y.p.kind == 5 && y.p.last).elim (x.due + 100000) (·.due)
    let c := min (x.due + 100000) (min seventh last)
    if bound.all fun b => decide (c < b) then some c else none

/-! ## Forming a datagram (R281, R288, R291, R293, R298) -/

/-- Append a datagram to those of its flow. -/
def State.formDatagram (s : State) (i : Nat) (close : Int) (stamp : Nat) (marker : Bool) (payload : List Byte × List Byte)
    (pkts : List TsPacket) : State :=
  let f := s.flow i
  let red := s.pathEn i false
  let blue := s.pathEn i true
  let d : Dgram := ⟨i, f.formed, close, stamp, marker, payload, pkts, (red, blue), (red, blue)⟩
  let s := s.setFlow { f with formed := f.formed + 1, since := f.since + 1 }
  if red || blue then { s with egr := { s.egr with dgrams := s.egr.dgrams ++ [d] } } else s

/-- The packet with its continuity_counter, which rises with every payload of its PID (R285). -/
def Flow.count (f : Flow) (p : TsPacket) : TsPacket :=
  let c := assocGet 0 f.cc p.pid
  { p with cc := if p.payload = [] then (c + 15) % 16 else c }

/-- Sections whose item and slot every channel that the input of context `m` serves has left behind are forgotten. -/
def State.pruneSections (s : State) (m : Nat) : State :=
  let oldest := fun (x : SpliceSection) => (s.servedBy m).all fun n =>
    decide (((max x.item x.carry : Nat) : Int) < s.sourceIndex n (min (s.chan n).mux.side (s.chan n).mux.item))
  s.modChan m fun c => { c with sections := c.sections.filter fun x => !oldest x }

/-- Items of a catch-up stream that stream assembly has left behind. -/
def State.pruneCaught (s : State) (n : Nat) : State :=
  s.modChan n fun c => { c with caught := c.caught.filter fun it => decide (c.mux.item ≤ it.idx) || decide (c.mux.side ≤ it.idx) }

/-- An item's last packet closes its mux digest (R298). -/
def State.closeMux (s : State) (n k : Nat) : State :=
  let g := (s.chan n).mux.crc
  let s := (s.modMux n fun x => { x with crc := 0 }).modItem n k fun it => { it with mux := some g }
  (((s.lanternSend (.muxDigest n k g)).compareItem n k).pruneSections (s.inputOf n)).pruneCaught n

/-- Place a packet: the schedule moves on, the flow's time base follows a transition item, a section is counted, the mux digest
grows, and an item's last packet closes it (R280, R288, R291, R298, R540). -/
def State.placePacket (s : State) (i : Nat) (x : Waiting) : State :=
  let f := s.flow i
  let p := f.count x.p
  let n := p.chan
  let s := s.setFlow { f with
    cc := if p.payload = [] then f.cc else assocSet f.cc p.pid ((p.cc + 1) % 16),
    marks := f.marks.filter (· ≠ p.pid),
    psi := if p.kind = 0 then some (x.due, 1) else if p.kind = 1 then f.psi.map fun y => (y.1, y.2 + 1) else f.psi }
  let s := s.when (p.kind == 5 && p.first && decide (s.firstProg i = some n)) fun s =>
    s.modFlow i fun f => { f with base := ((s.outItem? n p.idx).map (·.doff)).getD f.base }
  let s := s.when (p.kind == 2 || p.kind == 5) fun s => s.modMux n fun g =>
    { g with item := x.next.item, off := x.next.off, tAf := x.next.tAf, pcrAt := x.next.pcrAt, base := x.next.base }
  let s := s.when (p.kind == 3 || p.kind == 4) fun s => s.modMux n fun g =>
    { g with side := x.next.side, unit := x.next.unit, sideOff := x.next.sideOff }
  let s := s.when (p.kind != 0) fun s => s.modMux n fun g => { g with
    crc := (if s.flowKind i = 0 then p.octets else p.payload).foldl (fun v b => crcFeed crc64Params v b.toNat) g.crc }
  let s := s.when (p.kind == 3 && p.last) fun s => s.bump (Reg.CHN_OUT_SPLICES n)
  s.when (p.kind == 5 && p.last) fun s => s.closeMux n p.idx

/-- The packets as placed, their continuity counters running on. -/
def State.counted (s : State) (i : Nat) (l : List Waiting) : List TsPacket :=
  (l.foldl (fun (a : Flow × List TsPacket) x =>
    let p := a.1.count x.p
    ({ a.1 with cc := if p.payload = [] then a.1.cc else assocSet a.1.cc p.pid ((p.cc + 1) % 16) }, a.2 ++ [p])) (s.flow i, [])).2

/-- R281: the next datagram of a TS flow, once its close instant has come: the packets due by then, up to seven, and null
packets in the remaining places. -/
def State.closeTs (s : State) (i : Nat) : State :=
  let (l, bound) := s.waiting i
  match closeOf l bound with
  | none => s
  | some close =>
    if s.now < close then s
    else
      let placed := (l.filter fun x => decide (x.due ≤ close)).take 7
      let pkts := s.counted i placed ++ List.replicate (7 - placed.length) nullPacket
      let s := s.each placed fun x s => s.placePacket i x
      let bytes := pkts.flatMap TsPacket.octets
      s.formDatagram i close (rtpStamp close (s.flow i).base) false (bytes, bytes) pkts

/-- R294: the next packet of a KIND 1 flow, once it is due, with its item's PTS as timestamp and the marker bit on the item's
last. -/
def State.closeNal (s : State) (i n : Nat) : State :=
  match s.nalNext n (s.chan n).mux with
  | .packet due p next =>
    if s.now < due then s
    else
      let stamp := ((s.outItem? n p.idx).map fun it => s.pts n it % 4294967296).getD 0
      (s.placePacket i ⟨due, p, next⟩).formDatagram i due stamp p.last (p.payload, p.payload) [p]
  | _ => s

/-! ## FEC (R296) -/

/-- The media datagrams that the next FEC datagram of flow `i` covers, by count: row `r` takes L in succession; column `c` of a
block of L × D takes every L-th. -/
def State.fecMembers (s : State) (i : Nat) : List Nat :=
  let l := max 1 (s.fld (Reg.OF_AUX i) 31 27)
  let d := max 1 (s.fld (Reg.OF_AUX i) 26 22)
  let r := (s.flow i).formed
  if s.flowKind i = 4 then (List.range l).map fun j => r * l + j
  else (List.range d).map fun j => r / l * (l * d) + r % l + l * j

/-- Parity over the copies that left one path. -/
def State.fecBody (s : State) (i : Nat) (blue : Bool) : List Byte :=
  let m := s.fld (Reg.OF_AUX i) 15 0
  let ks := s.fecMembers i
  let copies := s.egr.kept.filter fun x => x.flow == m && x.blue == blue && ks.contains x.seq
  fecPayload (decide (s.flowKind i = 4)) (s.fld (Reg.OF_AUX i) 31 27) (s.fld (Reg.OF_AUX i) 26 22) (s.fld (Reg.OF_CTRL m) 6 0)
    (s.extSeq m (ks.headD 0)) (copies.map fun x => (x.stamp, x.payload))

/-- Is the media flow of `i` protected by FEC flow `j`? -/
def State.fecOf (s : State) (i j : Nat) : Bool :=
  s.flowValid j && (s.flowKind j == 3 || s.flowKind j == 4) && decide (s.fld (Reg.OF_AUX j) 15 0 = i)

/-- RTP timestamp of the media datagram that a row or column ends with, as kept for parity. -/
def State.fecStamp (s : State) (i : Nat) : Nat :=
  let m := s.fld (Reg.OF_AUX i) 15 0
  ((s.egr.kept.find? fun x => x.flow == m && x.seq == (s.fecMembers i).getLastD 0).map (·.stamp)).getD 0

/-- The FEC datagram of a row or column, once its last media datagram has left every path. It takes the RTP timestamp of that media
datagram: R31 lets no timestamp depend on a departure. DESIGN CHOICE (log 52): the spec gives a FEC datagram neither a close instant
nor the rule of its timestamp. -/
def State.closeFec (s : State) (i : Nat) : State :=
  if (s.fecMembers i).all fun k => decide (k < (s.flow (s.fld (Reg.OF_AUX i) 15 0)).left) then
    s.formDatagram i s.now (s.fecStamp i) false (s.fecBody i false, s.fecBody i true) []
  else s

/-- The time base of a flow before its first datagram (R540). -/
def State.startBase (s : State) (i : Nat) : State :=
  s.when (decide ((s.flow i).formed = 0)) fun s =>
    s.modFlow i fun f => { f with base := ((s.firstProg i).map fun n => (s.chan n).doff).getD s.clk.doff }

/-- The next datagram of a flow, by its kind. -/
def State.closeDatagram (s : State) (i : Nat) : State :=
  match s.flowKind i with
  | 0 => (s.startBase i).closeTs i
  | 1 => (s.startBase i).closeNal i (s.fld (Reg.OF_CTRL i) 19 8)
  | 3 => (s.startBase i).closeFec i
  | 4 => (s.startBase i).closeFec i
  | _ => s

def execDatagramClose (dt : Nat) (i : Fin 2048) (reads : List BandRead) (noCopy : Bool) (s : State) :
    Host.Outcome State Fault Refusal :=
  let s := (s.elapse dt).settleLeft
  let s := s.readsCaught ((reads.filter s.readFails).map fun r => (r.chan, r.index, r.band)) noCopy
  let src := if s.flowKind i = 3 ∨ s.flowKind i = 4 then s.fld (Reg.OF_AUX i) 15 0 else i.val
  let joining := (s.progsOf i).any fun n => decide ((s.chan n).snap ≠ Snap.none ∧ (s.chan n).snap ≠ Snap.joined)
  if !s.flowValid i || !s.flowRuns src || (joining && s.isStandby) then done s
  else done (s.closeDatagram i)

/-! ## Audio (R289, R295) -/

/-- Read `count` samples of buffer `b`, one of a multiplexer's readers; underruns are counted. -/
def State.readWindow (s : State) (n b id count : Nat) : State × List Word :=
  (List.range count).foldl (fun (a : State × List Word) _ =>
    let (t, w, under) := a.1.audioRead b id 0
    (t.when under fun t => t.bump (Reg.CHN_OUT_AUD_UNDER n), a.2 ++ [w])) (s, [])

/-- R289: the multiplexer reads the window of audio PID `a` of an item, its readers beginning with the window's first sample:
the PID and its PES packet. -/
def State.audioPes (s : State) (n : Nat) (it : Item) (a : Nat) : State × List Byte :=
  let off : Int := 1000 * s.fld (Reg.CHN_OUT_AUD_SRC n a) 16 0
  let from_ := gridAt (s.rate n) (gridFrom (s.rate n) it.bnd - 1) - off
  let opens := sampleAt from_
  let count := (sampleAt (it.bnd - off) - opens).toNat
  let buf := s.fld (Reg.CHN_OUT_AUD_SRC n a) 31 22
  let chs := 2 * (s.fld (Reg.CHN_OUT_AUD n a) 1 0 + 1)
  let id := 256 + 8 * n + a
  let r := (List.range chs).foldl (fun (x : State × List (List Word)) ch =>
    let b := (buf + ch) % 1024
    let t := (x.1.when it.dr.discontinuity fun t => t.detach b id).attachAt b id (x.1.sampleIndex b opens)
    let w := t.readWindow n b id count
    (w.1, x.2 ++ [w.2])) (s, [])
  let data := Config.st302 (s.fld (Reg.CHN_OUT_AUD n a) 9 8) r.2
  (r.1, pesHead 0xBD (data.length + 8) (s.ptsFrom n (from_ + s.align n + 1000 * s.fld (Reg.CHN_DELAY n) 22 0)) ++ data)

/-- R289: at G_k the multiplexer reads the windows of item `k`, once. -/
def execAudioDueInstant (dt : Nat) (n : Fin 96) (k : Nat) (s : State) : Host.Outcome State Fault Refusal :=
  let s := s.elapse dt
  match s.outItem? n k with
  | none => done s
  | some it =>
    if it.audio.isSome then done s
    else
      let r := (s.audioPids n).foldl (fun (x : State × List (Nat × List Byte)) pa =>
        let y := x.1.audioPes n it pa.2
        (y.1, x.2 ++ [(pa.1, y.2)])) (s, [])
      done (r.1.modOut n k fun it => { it with audio := some r.2 })

/-- R295: at a packet time of 1 ms, or 125 µs (`short`), a KIND 2 flow reads its buffers, each reader starting once its fill
reaches LAT, and forms a datagram once every reader has started: its samples in turn, 24 bits of each channel. The timestamp is the count of the first sample read, which `fill` samples behind the
newest one is. -/
def execAudioFlowPacketTime (dt : Nat) (i : Fin 2048) (short : Bool) (s : State) : Host.Outcome State Fault Refusal :=
  let s := s.elapse dt
  if !s.flowValid i || decide (s.flowKind i ≠ 2) || !s.live then done s
  else
    let aux := Reg.OF_AUX i
    let buf := s.fld aux 31 22
    let chs := s.fld aux 21 18 + 1
    let lat := s.fld aux 12 0
    let count := if short then 6 else 48
    let bufs := (List.range (min chs 8)).map fun ch => (buf + ch) % 1024
    let id := 1024 + i.val
    let s := s.each bufs fun b s => s.attach b id
    let ready := bufs.all fun b => (s.abuf b).rds.any fun r => r.id == id &&
      (r.started || decide (lat ≤ (s.abuf b).wr - r.idx))
    if !ready then done s
    else
      let t : Int := ((bufs.head?.map fun b => (s.abuf b).stamp).getD s.now) + s.clk.doff
      let fill := (bufs.head?.map fun b => (s.abuf b).wr -
        (((s.abuf b).rds.find? fun r => r.id == id).map (·.idx)).getD 0).getD 0
      let r := bufs.foldl (fun (x : State × List (List Word)) b =>
        let y := (List.range count).foldl (fun (a : State × List Word) _ =>
          let z := a.1.audioRead b id lat
          (z.1, a.2 ++ [z.2.1])) (x.1, [])
        (y.1, x.2 ++ [y.2])) (s, [])
      let s := r.1
      let bytes := (List.range count).flatMap fun j => r.2.flatMap fun ws =>
        let w := (ws.getD j 0).toNat
        [byte (w / 16777216), byte (w / 65536), byte (w / 256)]
      done (s.formDatagram i s.now ((sampleNear t - fill + 1) % 4294967296).toNat false (bytes, bytes) [])

end Sys2Proof.Machine
end

