-- ==== Sys2Proof/Machine/Lantern.lean ====
section
/-! DEFINITION. The Lantern link as a whole: its lanes and stripe sets, resending, the link going down and coming back, and
the snapshots that end with it; what the failure of a die takes from the lanes (R229, R373 to R375, R382 to R400). -/

namespace Sys2Proof.Machine

/-! ## Snapshots that end (R229, R373) -/

/-- Snapshot event (R381): 1 started, 2 references copied, 3 joined, 4 aborted. -/
def State.snapEvent (s : State) (n what : Nat) : State := s.raise 963 (n * 16777216 + what + 4294967296 * s.epoch)

/-- Release the pins of channel `n`, and free what nothing reads any more (R223, R229). -/
def State.unpin (s : State) (n : Nat) : State := (s.modChan n Chan.unpinned).releaseBuffers n

/-- Abort the snapshot of channel `n`, on the joining unit or on the holder (R373). A joining unit repeats its request. -/
def State.abortSnap (s : State) (n : Nat) : State :=
  match (s.chan n).snap with
  | .none => s
  | .joined => s.when (s.chan n).joinOpen fun s =>
      ((s.endJoin n).modChan n fun c => { c with snap := .requested false }).snapEvent n 4
  | .asked => s.modChan n fun c => { c with snap := .none }
  | .sending _ => (((s.modChan n fun c => { c with snap := .none }).unpin n).dropCopy n).snapEvent n 4
  | .sent _ => ((s.modChan n fun c => { c with snap := .none }).dropCopy n).snapEvent n 4
  | .requested _ => s.modChan n fun c => { c with snap := .requested false }
  | _ => ((s.endJoin n).modChan n fun c => { c with snap := .requested false }).snapEvent n 4

def State.abortSnaps (s : State) : State := s.each allChans fun n s => s.abortSnap n

/-- The joining unit asks again for every snapshot that waits for lanes (R373). -/
def State.repeatRequests (s : State) : State :=
  s.each (allChans.filter fun n => decide ((s.chan n).snap = Snap.requested false)) fun n s => s.requestSnapshot n

/-! ## Sets on the lanes (R390 to R394) -/

/-- Lanes that carry ordered sets: enabled and locked. -/
def State.setLanes (s : State) : Nat := s.fld Reg.LNK_CTRL 7 0 &&& s.fld Reg.LNK_STATUS 15 8

def State.rxLanes (s : State) : Nat := s.fld Reg.LNK_STATUS 7 0

/-- CHECK of an IDLE set (R391). -/
def idleCheck (rx tx ack : Nat) : Nat :=
  crc8Flame ([BitVec.ofNat 8 rx, BitVec.ofNat 8 tx] ++ leBytes 2 ack ++ [0])

def State.sendIdle (s : State) : State :=
  let ack := s.link.rxSeq
  s.send (.idle s.setLanes
    [s.rxLanes, s.stripe, ack % 256, ack / 256 % 256, 0, idleCheck s.rxLanes s.stripe ack])

/-! ## Resending (R398) -/

/-- Resend every unacknowledged frame in LSEQ order with RESENT set. -/
def State.resendAll (s : State) : State :=
  if s.stripe = 0 then s
  else
    let frames := s.link.unacked.map fun u => { u.frame with resent := true }
    let kept := frames.map fun f => (⟨f, s.now⟩ : Unacked)
    let s := { s with link := { s.link with unacked := kept } }
    let s := (s.bump Reg.LNK_RESENT frames.length).bump Reg.LNK_TX_FRAMES frames.length
    s.each frames fun f s => s.send (.lantern s.stripe f)

/-- Send what the stripe set now allows. -/
def State.pump (s : State) : State := State.pumpLantern s.link.queue.length s

/-! ## The link down and up again (R374, R375, R400) -/

/-- Every live-permitted field, as the holder sends them (R375). -/
def State.liveFields (s : State) : List (Nat × Nat) :=
  (s.emg.livePerms.filter fun e => e.1 != Reg.TWN_CMD).map fun e =>
    let p := (e.1 - 0x40000) / 0x2000
    (e.1, (if e.1 = Reg.TMG_GCL_DATA p ∧ p < 8 then s.gclShadow p else s.rdN e.1) &&& e.2)

/-- The link comes up: for the first time with one lane, again with two (R375, R400). The holder then sends its live
register image, which the standby waits for. -/
def State.linkUpNow (s : State) : State :=
  let again := s.link.everUp
  let s := { s with link := { s.link with
    up := true, everUp := true, imageDue := again && s.isStandby } }
  s.when (again && s.holding) fun s => s.lanternSend (.liveImage s.liveFields)

/-- Bring the stripe set in step with this unit's lanes and the partner's (R392): a lost lane ends a frame under way with
ABORT and resends, an IDLE announces the new set (R391), fewer than two lanes abort snapshots, none takes the link down. -/
def State.restripe (s : State) (underWay : Bool) : State :=
  let old := s.stripe
  let new := s.setLanes &&& s.link.partnerRx
  if new = old then s
  else
    let lost := decide (old &&& new ≠ old)
    let s := (s.setFld Reg.LNK_STATUS 31 24 new).bump Reg.LNK_RESTRIPES
    let s := s.raise 966 (256 * new + s.fld Reg.LNK_STATUS 23 16)
    let s := s.when (lost && underWay && decide (new ≠ 0)) fun s => (s.bump Reg.LNK_ABORTS).send (.abort new)
    let s := s.when (decide (new ≠ 0)) fun s => s.sendIdle
    let s := s.when lost fun s => s.resendAll
    let s := s.when (decide (2 ≤ lanesOf old) && decide (lanesOf new < 2)) fun s => s.abortSnaps
    let s := s.when (decide (new = 0)) fun s => { s with link := { s.link with up := false } }
    let s := s.when (!s.link.up && (decide (2 ≤ lanesOf new) || (decide (1 ≤ lanesOf new) && !s.link.everUp))) fun s =>
      s.linkUpNow
    let s := s.when (decide (lanesOf old < 2) && decide (2 ≤ lanesOf new)) fun s => s.repeatRequests
    s.pump

/-- Set RX_LANES; an IDLE goes out whenever it changes (R391). -/
def State.setRxLanes (s : State) (m : Nat) : State :=
  if s.rxLanes = m then s else (s.setFld Reg.LNK_STATUS 7 0 m).sendIdle

/-! ## Lanes (R383, R384, R388, R399) -/

/-- A bit of a mask cleared or set. -/
def putBit (m k : Nat) (b : Bool) : Nat := if b then m ||| 2 ^ k else m - (m &&& 2 ^ k)

/-- LN_STATUS.STATE of a lane changes, with the lane event (R403, R405). -/
def State.setLane (s : State) (d n st : Nat) : State :=
  if s.fld (Reg.LN_STATUS d n) 26 24 = st then s
  else (s.setFld (Reg.LN_STATUS d n) 26 24 st).raise (64 + 64 * d + 14) (256 * n + st)

def State.laneLocked (s : State) (d n : Nat) : Bool := s.bit (Reg.LN_STATUS d n) 31

/-- Sub-port that lane `n` of port `p` belongs to (R385). -/
def State.laneSub (s : State) (p n : Nat) : Option Nat :=
  match s.fld (Reg.NP_CTRL p) 1 0 with
  | 1 => some 0
  | 2 => some (n / 4)
  | 3 => some (n / 2)
  | _ => none

/-- The lane is no longer GOOD: it leaves NP_STATUS.GOOD, or RX_LANES. -/
def State.laneNotGood (s : State) (d n : Nat) : State :=
  if n < 8 then s.setBit (Reg.NP_STATUS d) (16 + n) false
  else if n = 8 then s.setRxLanes (putBit s.rxLanes d false) else s

/-- A lane loses lock (R384, R388, R399). -/
def State.loseLane (s : State) (d n : Nat) (underWay : Bool) : State :=
  if !s.laneLocked d n then s
  else
    let s := ((s.bump (Reg.LN_LOCK_LOSS d n)).setBit (Reg.LN_STATUS d n) 31 false).recvLost (laneId d n)
    let s := s.setLane d n (if s.dieOk d then 1 else 0)
    let s := (s.setFld (Reg.LN_STATUS d n) 7 0 0).setFld (Reg.LN_STATUS d n) 15 8 0
    let s := s.when (decide (n = 8)) fun s =>
      s.setFld Reg.LNK_STATUS 15 8 (putBit (s.fld Reg.LNK_STATUS 15 8) d false)
    let s := s.laneNotGood d n
    if n < 8 then
      let s := s.setBit (Reg.NP_STATUS d) (24 + n) false
      match s.laneSub d n with
      | none => s
      | some q => if s.subUp d q then s.subOutage d q 3 else s
    else if n = 8 then
      let s := { s with link := { s.link with elastic := s.link.elastic.set d 0 } }
      s.restripe underWay
    else s

/-- The failure of die `d` removes its lanes (R382). -/
def State.loseLanes (s : State) (d : Nat) : State := s.each (List.range 10) fun n s => s.loseLane d n false

end Sys2Proof.Machine
end

