-- ==== Sys2Proof/Machine/ThermBase.lean ====
section
/-! DEFINITION. PMBus transfers, and what a thermal shut-down of a die leaves (R464, R467, R473, R479). -/

namespace Sys2Proof.Machine

def State.therm (s : State) (d : Nat) : Therm := s.plant.dies.getD d Therm.reset

def State.modTherm (s : State) (d : Nat) (f : Therm → Therm) : State :=
  { s with plant := { s.plant with dies := s.plant.dies.modify d f } }

def State.avs (s : State) (d : Nat) : Avs := s.plant.avs.getD d Avs.reset

def State.modAvs (s : State) (d : Nat) (f : Avs → Avs) : State :=
  { s with plant := { s.plant with avs := s.plant.avs.modify d f } }

/-- Lowest and highest VCORE setpoint, in mV, that the rail monitor of die `d` now goes by: the one in force, or both of a step
from its write until READ_VOUT confirms it (R421, R474). DEDUCED (log 53): with no setpoint written, the regulator's own output of
620 to 860 mV (R475). -/
def State.railSetpoints (s : State) (d : Nat) : Nat × Nat :=
  let v := s.rdN (Reg.AVS_VOUT d)
  if v = 0 then (620, 860)
  else match (s.avs d).step with
    | none => (v, v)
    | some (old, none) => (old, old)
    | some (old, some _) => (min old v, max old v)

/-- State of a die by its levels (R463): 3 shut-down, 2 throttle, 1 warning, 0 normal. -/
def thermState (t : Therm) : Nat := if t.shut then 3 else if t.throt then 2 else if t.warn then 1 else 0

def State.throttled (s : State) (d : Nat) : Bool := decide (thermState (s.therm d) = 2)

/-- VCORE setpoint of a die in mV; where none has been written, what the regulator last reported. -/
def State.vcore (s : State) (d : Nat) : Nat :=
  if s.rdN (Reg.AVS_VOUT d) ≠ 0 then s.rdN (Reg.AVS_VOUT d) else s.fld (Reg.AVS_READ d) 15 0
def State.avsMax (s : State) : Nat := s.fld Reg.CAP_AVS 31 16
def State.avsMin (s : State) : Nat := s.fld Reg.CAP_AVS 15 0

/-- A step up or down may be made at all. -/
def State.canStep (s : State) (d : Nat) (up : Bool) : Bool :=
  let x := s.avs d
  !x.lost && !x.stopped && s.dieOk d && decide (s.vcore d ≠ 0) &&
  (if up then decide (s.vcore d + 5 ≤ s.avsMax) else decide (s.avsMin + 5 ≤ s.vcore d))

/-- A die still has raises to make before E8 (R475). -/
def State.avsRaises (s : State) : Bool :=
  (List.range 8).any fun d => (s.avs d).raiseTo.isSome && s.canStep d true

/-- A VCORE level in µV more than 6 % below or 8 % above its setpoint (R421). -/
def State.outOfWindow (s : State) (d uv : Nat) : Bool :=
  let x := s.railSetpoints d
  decide (uv < 940 * x.1) || decide (1080 * x.2 < uv)

/-- Command codes of the PMBus commands the device uses (R473); the codes are those of the PMBus specification. -/
def PmbWhy.code : PmbWhy → Nat
  | .mode => 0x20
  | .setpoint => 0x21
  | .back => 0x21
  | .vout => 0x8B
  | .iout => 0x8C
  | .temp => 0x8D
  | .status => 0x79
  | .alert => 0x79
  | .off => 0x01

/-- The transfer at the front goes out. -/
def State.pmbStart (s : State) : State :=
  match s.plant.pmb with
  | [] => s
  | x :: _ => s.send (.pmbus x.die x.why.code x.value)

/-- Ask for a transfer; they go one after another. -/
def State.pmbAsk (s : State) (d : Nat) (why : PmbWhy) (value : Nat) : State :=
  let idle := s.plant.pmb.isEmpty
  let x : PmbXfer := ⟨d, why, value, 0⟩
  let s := { s with plant := { s.plant with pmb := s.plant.pmb ++ [x] } }
  s.when idle State.pmbStart

/-- THROT_N is low while a die is in the throttle state or holds a thermal dim level (R464). -/
def State.throtPin (s : State) : State :=
  s.setBit Reg.THM_STATUS 31 (decide (s.fld Reg.THM_STATUS 23 16 ≠ 0) ||
    (List.range 8).any fun d => decide (s.fld Reg.THM_DIM (4 * d + 2) (4 * d) ≠ 0))

/-- Payload of a thermal shut-down record (R479). -/
def State.shutdownBytes (s : State) (d : Nat) : List Byte :=
  let two := decide (2 ≤ s.fld (Reg.THD_STATUS d) 20 16)
  let n := (s.plant.dies.filter fun x => x.shut).length
  let b := [BitVec.ofNat 8 d, BitVec.ofNat 8 (if two then 255 else (s.therm d).sensor)] ++
    leBytes 2 (s.fld (Reg.THD_STATUS d) 15 0) ++ [BitVec.ofNat 8 n]
  b ++ List.replicate (236 - b.length) 0

/-- A die retired for a thermal shut-down: its regulator is turned off and the record is written; with a second one the unit
snuffs (R467). -/
def State.thermalOff (s : State) (d : Nat) : State :=
  let s := (s.setBit Reg.THM_STATUS d true).setBit (Reg.THD_STATUS d) 31 true
  let s := (s.pmbAsk d .off 0).journal 4 (s.shutdownBytes d)
  s.when (decide (2 ≤ ((List.range 8).filter fun e => s.bit Reg.THM_STATUS e).length)) fun s => s.snuff 7

end Sys2Proof.Machine
end

