-- ==== Sys2Proof/Machine/Replan.lean ====
section
/-! DEFINITION. Capacity lost while running, retirement of a die, and giving up the flame for a fault (R90 to R96, R363,
R366, R412 to R414, R422). -/

namespace Sys2Proof.Machine

/-! ## Planned handover (R366, R367) -/

/-- A snapshot or join is running. -/
def State.joinRunning (s : State) : Bool :=
  allChans.any fun n => decide ((s.chan n).snap ≠ Snap.none) && decide ((s.chan n).snap ≠ Snap.joined)

/-- The conditions of R366. -/
def State.handoverOk (s : State) : Bool :=
  decide (s.twin.role = Role.holder) && s.partnerConfirmed && !s.joinRunning && !s.twin.handover

/-- Start a planned handover: the stream gates close at once (R367). -/
def State.startHandover (s : State) : State :=
  ({ s with twin := { s.twin with handover := true } }).setGates false

/-- A fault of R363 makes a holder give up the flame: to a confirmed partner by planned handover, one under way serving, and by
RELEASE otherwise; a refusal is counted (R366). -/
def State.giveUp (s : State) : State :=
  if !s.paired || decide (s.twin.role ≠ Role.holder) then s
  else if s.handoverOk then s.startHandover
  else
    let s := s.when s.partnerConfirmed fun s => s.bump Reg.TWN_CMD_REFUSED
    if s.twin.handover then s else s.releaseFlame true

/-- Items in flight of channels with a part on die `d` get the record of R233 when a holder gives up the flame, by handover or by
RELEASE, for a FAILED memory channel or a failed form check. -/
def State.passItems (s : State) (d : Nat) : State :=
  if !s.paired || (s.holding && !s.twin.handover) then s
  else s.each allChans fun n s => s.when
    (match s.placed n with | none => false | some p => p.parts.any fun x => x.die == d) fun s =>
      s.each (((s.chan n).items.filter fun it => it.left.isNone && it.inputFixed).map (·.idx)) fun k s =>
        s.fail n 5 14 3 d 255 0 k 0

/-! ## Capacity that a draining channel still takes (R92, R94) -/

/-- Shed channels whose begun items still run on the placement they leave. -/
def State.draining (s : State) (m : Nat) : Bool :=
  (s.chan m).freed && decide ((s.chan m).pool ≠ []) && (s.chan m).place.isSome

/-- The part `x` fits on its die: clusters, memory, moth decoder, pool, descriptors and preparation (R84 to R87, R123, R261). -/
def State.partFits (s : State) (x : PartPlace) : Bool :=
  let on := s.partsOn x.die
  let e := s.effortUnder s.levelOn
  s.dieFits x.die &&
    (x.excl.all fun c => decide ((on.filter fun y => y.2.excl.contains c || y.2.shared == some c).length ≤ 1)) &&
    (x.shared.toList.all fun c => !(on.any fun y => y.2.excl.contains c) && decide (s.sharedUseAt x.die c e ≤ s.lim x.die))

/-- Channels still draining whose capacity channel `n` has been placed into: on a die where its placement does not fit while they
still count there. It starts when that capacity is free (R92, R94). -/
def State.waitsOf (s : State) (n : Nat) : List Nat :=
  let old := allChans.filter fun m => m != n && s.draining m
  let t := s.each old fun m s => s.modChan m fun c => { c with freed := false }
  let short := (((s.placements n).getLast?.map (·.parts)).getD []).filter fun x => !t.partFits x
  old.filter fun m => ((s.chan m).place.map fun p => p.parts.any fun x => short.any fun y => y.die == x.die).getD false

/-- The capacity of channel `m` has become free: a channel that waited for it goes on waiting only where it still does not fit. -/
def State.endWaits (s : State) (m : Nat) : State :=
  s.each allChans fun n s => s.when (decide ((s.chan n).waitFor ≠ [])) fun s =>
    let left := s.waitsOf n
    s.modChan n fun c => { c with waitFor := c.waitFor.filter fun x => x != m && left.contains x }

/-! ## Shedding (R92, R94) -/

/-- Coding of an item has begun: stage 2 of one of its bands is taken or complete. -/
def State.begun (s : State) (n : Nat) (it : Item) : Bool :=
  it.bands.any (fun b => decide (3 ≤ b.done)) ||
  s.sch.descs.any fun d => d.chan == n && d.idx == it.idx && !d.decode && decide (2 ≤ d.stage) &&
    decide (d.st = DescState.taken)

/-- The shedding decision: the channel stops at its next picture boundary, its capacity counts as free (R92, R94). -/
def State.shedChan (s : State) (n cause : Nat) : State :=
  s.modChan n fun c => { c with shedding := some cause, freed := true }

/-- Has the shed or disabled channel ended: no item left to code? -/
def State.ended (s : State) (n : Nat) : Bool :=
  (s.chan n).items.all fun it => it.abandoned || it.bands.all fun b => decide (7 ≤ b.done)

/-- R94: every begun item of the shed channel `n` has passed stage 6: its capacity is free, and channels placed into it
wait no more. Its sealed items go on to their release (R37). -/
def State.freeCapacity (s : State) (n : Nat) : State :=
  let used := s.renditionsOf n ≠ []
  let s := s.modChan n fun c => { c with
    freed := true, pool := [], dec := if used then c.dec else [], dpb := if used then c.dpb else [],
    demux := if used then c.demux else Demux.reset, nextSeq := c.nextSeq.filter fun _ => used, held := if used then c.held else [] }
  let goes := fun (d : Desc) => d.chan == n && !(d.stage == 7 && !d.decode) && !(d.decode && used)
  let s := (s.freeDescs goes).endAllocs fun w => w.chan == n && !(w.decode && used)
  let s := s.endWaits n
  ((s.redim.showAll).vacate n).reportDims

/-- The capacity of a shed channel becomes free once, at the instant of R94. -/
def State.freeIfEnded (s : State) (n : Nat) : State :=
  s.when ((s.chan n).freed && decide ((s.chan n).pool ≠ []) && decide (s.chanState n = 6) && s.ended n) fun s =>
    s.freeCapacity n

/-- The shed channel's picture boundary (R94): it enters SHED; items not begun get records with action 4. An input that
serves renditions stays as it is (R79). -/
def State.shedNow (s : State) (n cause : Nat) : State :=
  let used := s.renditionsOf n ≠ []
  let s := s.modChan n fun c => { c with
    shedding := none, freed := true, splices := if used then c.splices else [] }
  let drop := ((s.chan n).items.filter fun it => !s.begun n it && it.left.isNone)
  let s := s.each drop fun it s =>
    let s := s.when it.inputFixed fun s => s.fail n 4 10 0 0 255 0 it.idx 0
    (s.freeItemDescs n it.idx)
  let gone := drop.map (·.idx)
  let s := s.modChan n fun c => { c with items := c.items.filter fun it => !gone.contains it.idx }
  let s := (s.setChan n 6 cause).countShed
  if s.ended n then s.freeCapacity n else s.showSums

/-! ## Re-placement (R92, R93) -/

/-- Free the channel's descriptors and allocate them again on the dies it stands on now, at the stages its bands have
reached. -/
def State.reseat (s : State) (n : Nat) : State :=
  let s := (s.freeDescs fun d => d.chan == n && !d.decode).endAllocs fun w => w.chan == n && !w.decode
  (s.each (s.chan n).items fun it s =>
    s.each (List.range it.bands.length) fun b s =>
      let st := (it.band b).done
      s.when (decide (1 ≤ st) && decide (st < 8)) fun s => s.enqueue n it.idx b st false).countWaits

/-- The channel stands at a new place: a new pool, a start of stream at the next control step with CAUSE 10 (R82, R93).
With `keep` the items in flight are those that R231 or R422 has already settled; otherwise each becomes a repeat picture
with a record of cause 9, an item whose input step is still open at that step. DESIGN CHOICE (log 49): a re-placement raises the channel's state event with its CAUSE, although
the table of R80 has no row for it. -/
def State.restart (s : State) (n die : Nat) (keep : Bool) (waits : List Nat) : State :=
  let live := ((s.chan n).items.filter fun it => it.left.isNone).map (·.idx)
  let s := (s.makePool n).showRank n
  let s := s.modChan n fun c => { c with
    starts := true, waitFor := waits, cause := 10, hold := none, run := none, lastAccepted := none, owed := none, sweepFrom := none, shedding := none,
    freed := false }
  let s := s.setFld (Reg.CHN_STATE n) 11 8 10
  let s := s.raise (576 + 4 * n) 0
  let s := s.when (!keep) fun s =>
    s.each live fun k s =>
      let fixed := (s.item? n k).any (·.inputFixed)
      (s.when fixed fun s => s.becomeRepeat n k).fail n 1 9 (if die < 8 then 3 else 2) (die % 8) 255 (s.bands n) k 0
  s.reseat n

/-- Can the channel's begun items still be completed on the placement it has lost part of: each of its parts on a working
die, with a cluster that works? -/
def State.canFinish (s : State) (p : Placement) : Bool :=
  p.parts.all fun x => s.dieOk x.die &&
    (if p.oneDie then p.parts.flatMap fun y => y.excl ++ y.shared.toList else x.excl ++ x.shared.toList).any fun c =>
      s.clusterOk x.die c

/-- A displaced channel that is itself shed (R92 to R94): where what remains of its placement can still complete them, its
items in flight leave as repeat pictures; otherwise those not sealed get records with action 4. -/
def State.shedLost (s : State) (n die : Nat) (keep : Bool) (old : Option Placement) : State :=
  let s := (s.modChan n fun c => { c with place := old }).shedChan n 11
  let open_ := (s.chan n).items.filter fun it => it.left.isNone && !it.abandoned && it.inputFixed &&
    it.bands.any fun b => decide (b.done < 7)
  if (old.map s.canFinish).getD false then
    s.when (!keep) fun s => s.each (open_.map (·.idx)) fun k s =>
      (s.becomeRepeat n k).fail n 1 9 (if die < 8 then 3 else 2) (die % 8) 255 (s.bands n) k 0
  else s.each (open_.map (·.idx)) fun k s =>
    ((s.modItem n k fun it => { it with abandoned := true }).freeItemDescs n k).fail n 4 10 0 0 255 0 k 0

/-- Ranks, lowest first: reverse admission order. -/
def State.liveRanked (s : State) : List Nat :=
  (s.inOrder (allChans.filter fun n => (s.placed n).isSome && decide (s.chanState n ≠ 6))).reverse

/-- Place the displaced channel `n` (R92): as dimmed as need be; otherwise shed the lowest-ranked live channel below it and
try again; otherwise it is itself shed. -/
def State.replace : Nat → Nat → List Nat → State → State × List Nat × Bool
  | 0, _, gone, s => (s, gone, false)
  | fuel + 1, n, gone, s =>
    match s.placeDimmed n with
    | some t => (t, gone, true)
    | none =>
      match s.liveRanked.find? (fun m => m != n && s.before n m) with
      | none => (s, gone, false)
      | some m => State.replace fuel n (m :: gone) (s.shedChan m 12)


/-- Is the channel offered at this re-planning (R95): SHED and without a placement to come, or newly enabled? -/
def State.offered (s : State) (n : Nat) : Bool :=
  let c := s.chan n
  s.bit (Reg.CHN_CTRL n) 0 && c.later.isNone &&
  ((decide (s.chanState n = 6) && !c.disabling && (c.place.isNone || c.freed)) ||
   (s.cap.offered.contains n && (decide (s.chanState n = 0) || c.disabling)))

/-- R95: offer every SHED channel, and every channel newly enabled, at full ADMITTED effort. A channel whose begun items
still drain, or that is still on its way to DISABLED, keeps its placement for when they have gone. -/
def State.offer (s : State) : State :=
  let cand := s.inOrder (allChans.filter s.offered)
  let s := s.each cand fun n s =>
    let new := s.cap.offered.contains n
    let old := s.fld (Reg.CHN_EFFORT n) 18 16
    let t := s.setFld (Reg.CHN_EFFORT n) 18 16 (s.fld (Reg.CHN_EFFORT n) 2 0)
    match t.placeFull n with
    | some t =>
      let t := t.modChan n fun c => { c with cause := if new then 14 else 1, waitFor := t.waitsOf n }
      let t := t.showRank n
      if (t.chan n).later.isSome then t
      else if new then (t.makePool n).setChan n 1 14 else t.makePool n
    | none =>
      let s := s.setFld (Reg.CHN_EFFORT n) 18 16 old
      if new && !(s.chan n).disabling then s.setChan n 6 14 else s
  { s with cap := { s.cap with offered := s.cap.offered.filter fun n => (s.chan n).disabling } }

/-- R90 to R95: re-plan with the displaced channels `lost`; `die` names the die lost, 8 for clusters only. -/
def State.replan (s : State) (lost : List Nat) (die : Nat) (keep : Bool) : State :=
  let s := s.dropLims
  let old := lost.map fun n => (n, (s.chan n).place)
  let s := s.each lost fun n s => s.modChan n fun c => { c with place := none }
  let s := s.redim
  let (s, placed) := (s.inOrder lost).foldl (fun (acc : State × List (Nat × Bool)) n =>
    let (t, _, ok) := State.replace 96 n [] acc.1
    (t, acc.2 ++ [(n, ok)])) (s, [])
  let s := s.redim
  let s := s.showAll
  let s := s.each placed fun e s =>
    if e.2 then s.restart e.1 die keep (s.waitsOf e.1)
    else s.shedLost e.1 die keep ((old.find? fun o => o.1 == e.1).bind (·.2))
  (s.offer.redim.showAll).reportDims.each (List.range 8) fun d s => s.noteShared d

/-! ## Clusters and dies lost (R92, R268, R412 to R414, R422) -/

/-- Channels with work on cluster `c` of die `d`. -/
def State.chansOnCluster (s : State) (d c : Nat) : List Nat :=
  allChans.filter fun n => match s.placed n with
    | none => false
    | some p => p.parts.any fun x => x.die == d && (x.excl.contains c || x.shared == some c)

def State.chansOnDie (s : State) (d : Nat) : List Nat :=
  allChans.filter fun n => match s.placed n with
    | none => false
    | some p => p.parts.any fun x => x.die == d

/-- The partner codes channel `n` too, as its digests for an item in flight show (R96, R345). -/
def State.partnerCodes (s : State) (n : Nat) : Bool :=
  (s.chan n).items.any fun it => (it.inPartner ++ it.bands.map (·.partner) ++ [it.muxPartner]).any fun p => p.isSome

/-- Before a holder sheds or displaces a channel that its confirmed partner codes without loss, it gives up the flame
(R96, R363). -/
def State.lossHandover (s : State) (lost : List Nat) : State :=
  s.when (s.partnerConfirmed && lost.any s.partnerCodes) State.giveUp

/-- A placement kept for later that stands on what is lost is given up; the channel is offered again (R95). -/
def State.dropLater (s : State) (d : Nat) (c : Option Nat) : State :=
  let hit := fun (x : PartPlace) => x.die == d && (match c with
    | none => true
    | some c => x.excl.contains c || x.shared == some c)
  s.each allChans fun n s => s.modChan n fun x => { x with later := x.later.filter fun p => !p.parts.any hit }

/-- A cluster has failed (R268): it holds no capacity; its channels are displaced. -/
def State.clusterFailed (s : State) (d c : Nat) : State :=
  let lost := s.chansOnCluster d c
  let s := s.dropLater d (some c)
  let s := (s.lossHandover lost).setBit (Reg.CL_STATUS d c) 31 true
  s.replan lost 8 false

/-- Parts of a channel on die `d`. -/
def State.partsAt (s : State) (n d : Nat) : List Nat := (if s.split n then [0, 1] else [0]).filter fun q => s.dieOf n q == d

/-- Bands of the parts `parts` not yet past stage `st` become ember bands by form (R231, R422), with one record per item: action 1
when every band of the item is so coded. A repeat item needs no samples: its bands have that form already, and are no ember bands
(R163, R225, R232); with the SRAM of its die lost too (`st` = 6) those not sealed are coded again in it. Items that the partner
releases are left out (R233). -/
def State.forceEmbers (s : State) (n : Nat) (parts : List Nat) (st cause die : Nat) : State :=
  let mine := fun (b : Nat) => parts.any fun q => decide ((s.partRange n q).1 ≤ b) && decide (b < (s.partRange n q).2)
  s.each ((s.chan n).items.filter fun it => it.left.isNone && it.inputFixed && !it.causes.contains 14) fun it s =>
    let plain := decide (it.form = .repeated) && !it.refreshed
    let hit := (List.range it.bands.length).filter fun b => mine b && decide ((it.band b).done ≤ st)
    let all := decide (hit.length = it.bands.length)
    match if plain && decide (st < 6) then [] else hit with
    | [] => s
    | first :: _ =>
      let s := s.modItem n it.idx fun it => { it with bands := it.bands.mapIdx fun b x =>
        (if hit.contains b then { x with done := 5, forced := !plain, form := true, size := 0 } else x) }
      s.when (all || !plain) fun s => s.fail n (if all then 1 else 2) cause 3 die first hit.length it.idx 0

/-- The lead die is lost: sessions and transfers under way end, and the shadow service die takes the lead, or the unit snuffs
(R414). -/
def State.leadLost (s : State) : State :=
  let other := 7 - s.lead
  let s := { s with mgt := { s.mgt with i2cBusy := false } }
  let s := match s.emg.session with
    | none => s
    | some f => s.abortSession f
  if s.dieOk other then ((s.setFld Reg.SAF_STATUS 26 24 other).setBit (Reg.DIE_STATUS other) 30 true).raiseT 21 other else s.snuff 5

/-- E5 begins: sub-ports with a mode are DOWN, the lanes in use adapt without lock (R388, R403, R451). -/
def State.startE5 (s : State) : State :=
  let s := (s.enterPhase 5).startLanes
  s.each ((List.range 8).filter s.dieOk) fun d s =>
    let subs := ((List.range 8).filterMap fun n => s.laneSub d n).eraseDups
    let s := s.each subs fun q s => s.setFld (Reg.NP_STATUS d) (2 * q + 1) (2 * q) 1
    let s := s.each ((List.range 8).filter fun n => (s.laneSub d n).isSome) fun n s => s.setLane d n 1
    s.when (s.bit Reg.LNK_CTRL d) fun s => s.setLane d 8 1

/-- E4 ends when every controller of a working die is trained and filled (R47, R441); a die retired in E4 is waited for no
longer. -/
def State.endE4 (s : State) : State :=
  s.when (decide (s.phase = 4) && ((List.range 8).all fun d => !s.dieOk d || s.memReady d)) State.startE5

/-- Die `d` is retired (R412, R422): held in reset, its capacity gone, its channels displaced. The die's links stay up and
carry transfers of other dies: the spec takes down the links of a die that failed E1 and says nothing of one retired while
running or thermally off. DESIGN CHOICE (log 49). -/
def State.retireNow (s : State) (d reason : Nat) : State :=
  if !s.dieOk d then s
  else
    let wasLead := decide (s.lead = d)
    let lost := s.chansOnDie d
    let s := s.setBit Reg.SAF_STATUS (16 + d) false
    let s := s.setFld (Reg.DIE_STATUS d) 31 30 0
    let s := s.each (List.range 8) fun c s => s.setFld (Reg.CL_STATUS d c) 31 0 2147483648
    let s := s.setBit (Reg.MD_STATUS d) 31 true
    let s := (s.each (List.range 8) fun k s => s.setMc d k 0).memStop d .off
    let s := s.raiseT 20 (d + 256 * reason)
    let s := s.each (List.range 4) fun m s => s.masterReset (masterNo d m)
    let s := s.when wasLead fun s => s.leadLost
    let s := (((s.losePorts d).loseCopies d).restartBufs d).loseLanes d
    let s := s.each lost fun n s => s.forceEmbers n (s.partsAt n d) 6 13 d
    let s := (s.dropLater d none).replan lost d true
    (s.when (decide (reason = 8)) fun s => s.thermalOff d).endE4

/-- A die fault (R412, R413): the flame is given up by role; with a planned handover the die is retired once that has
drained. -/
def State.retire (s : State) (d reason : Nat) : State :=
  if !s.dieOk d || s.twin.after.any (fun e => e.1 == d && decide (e.2 < 256)) then s
  else
    -- R252: the moth decoder reads as failed at once, also where a planned handover comes before the retirement.
    let s := s.giveUp.setBit (Reg.MD_STATUS d) 31 true
    if s.twin.handover then { s with twin := { s.twin with after := s.twin.after ++ [(d, reason)] } }
    else s.retireNow d reason

/-! ## A memory channel FAILED (R231, R447) -/

/-- The bands of a die that no longer has its buffers: every part there, not past stage 5 (R231). -/
def State.dieEmbers (s : State) (d : Nat) : State :=
  s.each (s.chansOnDie d) fun n s => s.forceEmbers n (s.partsAt n d) 5 12 d

/-- R447, steps 2 to 5: the die stops accepting requests, its items are handled, its map is rebuilt over the channels that
remain, and their fill begins; with no channel left nothing is placed on it. -/
def State.memLost (s : State) (d : Nat) : State :=
  if !s.dieOk d then s
  else
    let s := (s.memStop d .filling).dieEmbers d
    let s := s.each (List.range 8) fun k s => s.modMchan (8 * d + k) fun x => { x with mem := [], poison := [] }
    let s := (s.countPoison d 0).countPoison d 1
    let s := s.each [0, 1] fun m s => s.modMctl (2 * d + m) fun x =>
      { x with fill := (List.range 4).filter fun c => s.mcWorks d (4 * m + c) }
    let s := s.each (List.range 8) fun k s => (s.setBit (mccStatus d k) 8 false).setBit (mccStatus d k) 9 false
    (s.showPool d).restartBufs d

/-- Channel `k` of die `d` becomes FAILED (R445, R447): a holder gives up the flame first, by a planned handover to a confirmed
partner and by RELEASE otherwise (R233, R363). -/
def State.failMc (s : State) (d k : Nat) : State :=
  if !s.mcWorks d k then s
  else
    let s := s.setMc d k 4
    let s := s.when (s.live && s.holding) fun s => (s.giveUp).passItems d
    if s.twin.handover then { s with twin := { s.twin with after := s.twin.after ++ [(d, 256 + k)] } }
    else s.memLost d

end Sys2Proof.Machine
end

