-- ==== Sys2Proof/Machine/Egress.lean ====
section
/-! DEFINITION. The traffic managers: selection of frames, weighted fair queueing, shapers and time gates (R302 to R319,
R357, R416, R417). -/

namespace Sys2Proof.Machine

/-! ## Hand-over (R282, R416) -/

/-- Buffers left for TC6 and TC5 on a port (R302, R315). -/
def State.streamRoom (s : State) (p : Nat) : Bool :=
  decide (s.classOn p 6 + s.classOn p 5 < 29440) && decide (0 < s.bufFree p)

/-- R282: the copy of a datagram for one path is handed over once it has closed, is built from sealed bands and follows its
predecessor. One that would reach its port before its close instant is a die fault of the mux die and is not sent
(R416). -/
def execDatagramRelease (dt : Nat) (i : Fin 2048) (seq : Nat) (blue : Bool) (s : State) :
    Host.Outcome State Fault Refusal :=
  let s := s.elapse dt
  match s.egr.dgrams.find? (fun d => d.flow == i.val && d.seq == seq) with
  | none => done s
  | some d =>
    if !(if blue then d.wait.2 else d.wait.1) || !s.built d || !s.earlierHanded d blue ||
        !s.streamRoom (s.pathPort i blue).1 then done s
    else if s.now < d.close then done (s.retire (s.muxDie i) 7)
    else done (s.handOver d blue)

/-! ## Time gates (R311 to R314) -/

/-- States and lengths (ns) of one cycle of a list: cut at the cycle's end, the last entry held until it (R311). -/
def cycleSegs : Nat → List (Nat × Nat) → List (Nat × Nat)
  | _, [] => []
  | left, [e] => [(e.1, left)]
  | left, e :: r => if left ≤ e.2 then [(e.1, left)] else e :: cycleSegs (left - e.2) r

def GateList.segs (g : GateList) : List (Nat × Nat) := cycleSegs g.cycle g.entries

/-- What is left of a run of segments after `n` ns. -/
def dropNs : Nat → List (Nat × Nat) → List (Nat × Nat)
  | _, [] => []
  | n, e :: r => if n < e.2 then (e.1, e.2 - n) :: r else dropNs (n - e.2) r

/-- How long gate `c` stays open from the start of the segments; none where it never closes in them (R312). -/
def openFor (c : Nat) : List (Nat × Nat) → Option Nat
  | [] => none
  | e :: r => if e.1 / 2 ^ c % 2 = 1 then (openFor c r).map (e.2 + ·) else some 0

/-- Longest window of class `c` in a run of segments; none where it never closes. -/
def longestOpen (c : Nat) : List (Nat × Nat) → Option Nat
  | [] => some 0
  | e :: r => match openFor c (e :: r) with
    | none => none
    | some x => (longestOpen c r).map (max x)

/-- The first instant base + n × cycle of PTP-visible time at or after `t`, both on the DTC (R311, R314). -/
def State.gridStart (s : State) (p : Nat) (t : Int) : Int :=
  let cyc := max 1 (s.gate p).oper.cycle
  let base : Int := s.rd64 (Reg.TMG_BASE_LO p)
  base + ceilInt (t + s.clk.doff - base) cyc * cyc - s.clk.doff

/-- The next cycle start of the list in force: at the end of the running cycle; after a DOFF step the first instant of the new grid at
or after that end and, where no cycle ran, the step; the first of all at or after LIVE (R311, R314). -/
def State.nextCycle (s : State) (p : Nat) : Int :=
  match (s.gate p).start with
  | none => s.gridStart p (max (s.plant.liveFrom.getD s.now) s.clk.movedAt)
  | some (t, moves) =>
    let fin := t + (s.gate p).oper.cycle
    if moves = s.clk.moves then fin else s.gridStart p (max fin s.clk.movedAt)

/-- The lists of the next two cycles, the first of them starting at `t` (DTC ns): the pending list from the first cycle start
after its commit, else the list in force (R313). -/
def State.comingSegs (s : State) (p : Nat) (t : Int) : List (Nat × Nat) :=
  let g := s.gate p
  match g.pending with
  | none => g.oper.segs ++ g.oper.segs
  | some (x, at_) => (if t ≤ s.now ∧ s.clk.dtc ≤ at_ then g.oper.segs else x.segs) ++ x.segs

/-- Gate states ahead of now: the running cycle, a gap after a DOFF step, and the next list. -/
def State.gateAhead (s : State) (p : Nat) : List (Nat × Nat) :=
  let g := s.gate p
  let next := s.nextCycle p
  match g.start with
  | none => dropNs (s.now - next).toNat ((255, (next - s.now).toNat) :: s.comingSegs p next)
  | some (t, _) =>
    let hold := ((g.oper.segs.getLast?).map (·.1)).getD 255
    dropNs (s.now - t).toNat (g.oper.segs ++ [(hold, (next - t - g.oper.cycle).toNat)] ++ s.comingSegs p next)

/-- Gates are at work on the port. -/
def State.gated (s : State) (p : Nat) : Bool := s.bit (Reg.TMG_CTRL p) 0 && s.live && (s.gate p).oper.entries ≠ []

/-- Line time of a frame of length `len` on port `p`, in 1/50 ns (R305). -/
def State.lineTicks (s : State) (p len : Nat) : Nat := (len + 20) * s.byteTicks p

/-- The frame's gate is open and the frame fits before it closes (R312). -/
def State.fits (s : State) (f : QFrame) : Bool :=
  !s.gated f.port || (match openFor f.cls (s.gateAhead f.port) with
    | none => true
    | some ns => decide (s.now50 - 50 * s.now + s.lineTicks f.port f.len ≤ 50 * ns) && decide (0 < ns))

/-- The frame fits in no window of its class in a whole cycle (R312). -/
def State.neverFits (s : State) (f : QFrame) : Bool :=
  s.gated f.port && (match longestOpen f.cls ((s.gate f.port).oper.segs ++ (s.gate f.port).oper.segs) with
    | none => false
    | some ns => decide (50 * ns < s.lineTicks f.port f.len))

/-- Gate states in force, for TMG_STATUS: every gate open where no cycle runs. -/
def State.gatesNow (s : State) (p : Nat) : Nat :=
  if !s.gated p then 255 else match (s.gate p).start with
    | none => 255
    | some _ => (((s.gate p).oper.entries[(s.gate p).entry]?).map (·.1)).getD 255

/-! ## Selection (R303, R307, R308) -/

/-- Head frames of a class on a sub-port: the head of a FIFO class, or the heads of the flows' queues. -/
def State.heads (s : State) (p q c : Nat) : List QFrame :=
  let l := s.egr.queue.filter fun f => f.port == p && f.sub == q && f.cls == c
  if c = 6 ∨ c = 5 then
    l.foldl (fun acc f => if acc.any (fun g => g.flow == f.flow && g.blue == f.blue) then acc else acc ++ [f]) []
  else l.take 1

/-- Eligible but for its gate: a stream frame whose flow's credit is 0 or above and whose rate is not 0 (R303, R309). -/
def State.credited (s : State) (f : QFrame) : Bool :=
  decide (f.cls ≠ 6 ∧ f.cls ≠ 5) ||
  (decide (0 ≤ s.creditNow f.flow f.blue) && decide (s.fld (Reg.TF_RATE f.flow) 29 0 ≠ 0))

/-- The smallest tag first, a tie to the lower flow index (R307). -/
def State.pickTag (l : List QFrame) : Option QFrame :=
  l.foldl (fun best f => match best with
    | none => some f
    | some g => if tagDiff f.tag g.tag < 0 ∨ (f.tag = g.tag ∧ f.flow < g.flow) then some f else some g) none

/-- A head frame that its gate holds back is counted once; one that fits in no window is dropped (R312). -/
def State.deferFrame (s : State) (f : QFrame) : State :=
  if s.neverFits f then s.discardFrame f
  else if f.deferred then s
  else
    let mark := fun (g : QFrame) => if g = f then { g with deferred := true } else g
    ({ s with egr := { s.egr with queue := s.egr.queue.map mark } }).bump (Reg.TMC_DEFERRED f.port f.sub f.cls)

/-- The frame that class `c` of the sub-port would send now. -/
def State.classPick (s : State) (p q c : Nat) : Option QFrame :=
  State.pickTag ((s.heads p q c).filter fun f => s.credited f && s.fits f)

/-- The frame to send: the first class in order of service that holds an eligible frame (R303). -/
def State.framePick (s : State) (p q : Nat) : Option QFrame :=
  [7, 6, 5, 4, 0].findSome? fun c => s.classPick p q c

/-- Head frames that only their gate holds back, of the classes that come to their turn: those before the class that sends, and that
class itself (R312; DEDUCED, log 38). -/
def State.heldBack (s : State) (p q : Nat) : List QFrame :=
  let order := [7, 6, 5, 4, 0]
  let turns := (order.takeWhile fun c => (s.classPick p q c).isNone).length + 1
  (order.take turns).flatMap fun c => (s.heads p q c).filter fun f => s.credited f && !s.fits f

/-! ## Sending (R287, R305, R306, R308) -/

/-- Charge the credit of the frame's flow and set the virtual time of its class (R307, R308). A frame discarded at the closed stream
gate, which takes no line time, is charged at once as if it had been sent (R306). -/
def State.charge (s : State) (f : QFrame) (onLine : Bool) : State :=
  let b := s.byteTicks f.port
  let c := s.creditNow f.flow f.blue
  let t := s.now50
  let all := min (c + s.creditRise f.flow (8 * b)) (max c s.creditCap) - f.len * 65536 + s.creditRise f.flow (f.len * b)
  let s := s.modFlow f.flow fun g => g.setPath f.blue (
    if onLine then { g.path f.blue with credit := c, upTo := t, bytes := some (t + 8 * b, t + (8 + f.len) * b) }
    else { g.path f.blue with credit := all, upTo := t + (8 + f.len) * b, bytes := none })
  { s.freshId with egr := { s.freshId.egr with
      vtimes := assocSet s.freshId.egr.vtimes (vkey f.port f.sub f.cls) f.tag } }

/-- The instant the last bit leaves, in 1/50 ns of DTC (R284, R305). -/
def State.endTicks (s : State) (f : QFrame) : Int := s.now50 + (f.len + 8) * s.byteTicks f.port

/-- The instant the last bit leaves, in DTC ns rounded up (R284, R305). -/
def State.lastBit (s : State) (f : QFrame) : Int := ceilInt (s.endTicks f) 50

/-- PCRs stamped as the frame leaves, each within 500 ns (R287). -/
def State.stampPcrs (s : State) (f : QFrame) : List Int :=
  f.pcrs.mapIdx fun j x =>
    let t : Int := (s.now50 + (8 + x.1) * s.byteTicks f.port) / 50 + x.2 +
      clipInt (-500) 500 (Config.pcrError s.fresh j)
    (t * 27 / 1000) % 2576980377600

/-- A payload with its PCR fields written (R287). -/
def State.stamped (s : State) (f : QFrame) (ts : List Int) (payload : List Byte) : List Byte :=
  (f.pcrs.zip ts).foldl (fun l x => patch l (x.1.1 - s.headLen f.flow f.blue - 5) (pcrField x.2.toNat)) payload

/-- The RTP header of a datagram (R293). -/
def State.rtpHead (s : State) (i seq stamp : Nat) (marker : Bool) : List Byte :=
  [0x80, byte (128 * b2n marker + s.fld (Reg.OF_CTRL i) 6 0)] ++ bytes2 seq ++ bytes4 stamp ++ bytes4 (s.rdN (Reg.OF_SSRC i))

/-- The UDP checksum of a copy as it leaves (R287, R297); no register gives the sender's address. -/
def State.udpCheck (s : State) (f : QFrame) (seq stamp : Nat) (marker : Bool) (payload : List Byte) : Nat :=
  let i := f.flow
  let v6 := s.bit (Reg.OF_CTRL i) 30
  let dst := (List.range 4).flatMap fun k => bytes4 (s.rdN (if f.blue then Reg.OF_BLUE_DST i k else Reg.OF_RED_DST i k))
  let len := 20 + payload.length
  udpSum (Config.portAddress v6 (4 * f.port + f.sub) ++ (if v6 then dst else dst.take 4) ++ bytes4 len ++ [0, 0, 0, 17] ++
    bytes4 (s.rdN (Reg.OF_UDP i)) ++ bytes2 len ++ [0, 0] ++ s.rtpHead i seq stamp marker ++ payload)

/-- What leaves, filled in at departure. -/
def State.departing (s : State) (f : QFrame) : Sent :=
  match f.what with
  | .media sub flow seq stamp marker len starts _ payload _ _ =>
    let ts := s.stampPcrs f
    let body := s.stamped f ts payload
    .media sub flow seq stamp marker len starts ts body (s.udpCheck f seq stamp marker body) (s.lastBit f)
  | .ptp kind port t => .ptp kind port (if kind = 3 then t + s.portStamp else s.portStamp + s.clk.doff)
  | x => x

/-- Count a frame sent (R318, R319, R402). -/
def State.countSent (s : State) (f : QFrame) : State :=
  let a := Reg.TMC_BYTES f.port f.sub f.cls
  let t := assocGet 0 s.egr.part a + f.len
  let s := { s with egr := { s.egr with part := assocSet s.egr.part a (t % 256) } }
  let s := ((s.bump (Reg.TMC_FRAMES f.port f.sub f.cls)).bump a (t / 256)).bump (Reg.NP_TX_FRAMES f.port f.sub)
  s.when (f.cls == 6 || f.cls == 5) fun s =>
    s.bump (if f.blue then Reg.TF_SENT_BLUE f.flow else Reg.TF_SENT_RED f.flow)

/-- Bytes of the replay store of a port. -/
def State.replayBytes (s : State) (p : Nat) : Nat :=
  sumOver ((s.twin.replay.filter fun f => f.port == p).map (·.len)) id

/-- Drop the oldest copies of a port until its store holds no more than 4 MiB: counted, raised, and the flow's channels
become unconfirmed (R357). -/
def State.trimReplay : Nat → Nat → State → State
  | 0, _, s => s
  | fuel + 1, p, s =>
    if s.replayBytes p ≤ 4194304 then s
    else match s.twin.replay.find? (fun f => f.port == p) with
      | none => s
      | some f =>
        let s := { s with twin := { s.twin with replay := s.twin.replay.erase f } }
        let s := (s.bump Reg.TWN_REPLAY_DROP).raise 965 (f.flow + 4294967296 * s.epoch)
        State.trimReplay fuel p (s.each (s.progsOf f.flow) fun n s => s.when (s.chanState n == 5) fun s => s.unconfirm n)

/-- A kept copy stands after the last cursor received for its flow (R357). -/
def State.uncovered (s : State) (f : QFrame) : Bool :=
  match s.twin.cursors.find? (fun e => e.1 == f.flow) with
  | none => true
  | some e => decide (0 < signed32 ((s.extSeq f.flow f.seq : Int) - e.2))

/-- A standby keeps a copy of every datagram discarded at its closed gate, until a cursor covers it (R357). -/
def State.keepReplay (s : State) (f : QFrame) : State :=
  if !s.isStandby || !s.uncovered f then s
  else
    let s := { s with twin := { s.twin with replay := s.twin.replay ++ [{ f with replay := true, deferred := false }] } }
    State.trimReplay s.twin.replay.length f.port s

/-- The departure of the present delay request is remembered for its response (R327, R328). -/
def State.noteRequest (s : State) (f : QFrame) : State :=
  match f.what with
  | .ptp kind _ t => s.when (decide (kind ≠ 3) && decide (t = s.clk.dreqSeq)) fun s =>
      { s with clk := { s.clk with dreqAt := some s.portStamp } }
  | _ => s

/-- FEC flows that protect flow `i`. -/
def State.fecFlows (s : State) (i : Nat) : List Nat := (List.range 2048).filter (s.fecOf i)

/-- A media datagram that left a path, or was discarded at the closed gate, is kept for the parity of its path until its block of
at most 100 is past (R296). -/
def State.keepCopy (s : State) (f : QFrame) : State :=
  match s.departing f with
  | .media _ i _ stamp _ _ _ _ payload _ _ =>
    if f.replay || f.cls != 6 || s.fecFlows i = [] then s
    else
      let old := fun (x : KeptCopy) => x.flow == i && x.blue == f.blue && decide (x.seq + 200 ≤ f.seq)
      { s with egr := { s.egr with kept := (s.egr.kept.filter fun x => !old x) ++ [⟨i, f.blue, f.seq, stamp, payload⟩] } }
  | _ => s

/-- The line of a sub-port is free (R303). -/
def State.lineFree (s : State) (p q : Nat) : Bool := decide (assocGet 0 s.egr.lines (4 * p + q) ≤ s.now50)

/-- The frame takes the line, for its length, preamble and gap (R305). -/
def State.takeLine (s : State) (f : QFrame) : State :=
  { s with egr := { s.egr with
      lines := assocSet s.egr.lines (4 * f.port + f.sub) (s.now50 + s.lineTicks f.port f.len) } }

/-- Send the selected frame, or discard a stream frame at the closed stream gate (R306). -/
def State.sendFrame (s : State) (f : QFrame) : State :=
  let stream := f.cls == 6 || f.cls == 5
  let closed := stream && (!s.twin.gatesOpen || s.snuffed)
  let s := s.when stream fun s => s.charge f (!closed)
  let s := (s.keepCopy f).dropFrame f
  let t := s.endTicks f
  let s :=
    if closed then (s.bump (Reg.TMS_GATE_DISCARD f.port f.sub)).keepReplay f
    else ((((s.takeLine f).countSent f).send (s.departing f)).noteRequest f).freshId
  s.when (stream && !f.replay) fun s => s.leaves f.flow f.seq f.blue t

/-- Is the payload that a port reads from a frame's buffer other than the one stored, by the datagram check (R417, steps 3 and 4)? The
check is taken of the payload, whose headers the model does not hold as bytes. -/
def readWrong (f : QFrame) (l : List Byte) : Bool :=
  match f.what with
  | .media _ _ _ _ _ _ _ _ payload _ _ => crc32 l != crc32 payload
  | _ => false

/-- R303: the line of a sub-port is free and one frame is selected. Before it starts, its datagram check may fail
in one or more of the `reads` of its buffer (R417): it is re-formed from a good copy, or with none left the unit snuffs. -/
def execFrameSelect (dt : Nat) (p : Fin 8) (q : Fin 4) (reads : List (List Byte)) (noCopy : Bool) (s : State) :
    Host.Outcome State Fault Refusal :=
  let s := (s.elapse dt).settleLeft
  if !s.subUp p q || !s.lineFree p q then done s
  else
    let s := s.each (s.heldBack p q) fun f s => s.deferFrame f
    match s.framePick p q with
    | none => done s
    | some f =>
      let stream := f.cls == 6 || f.cls == 5
      let fails := (reads.filter (readWrong f)).length
      let bad := stream && decide (0 < fails)
      let s := s.when bad fun s => s.crcChain fails noCopy
      if bad && noCopy then done s else done (s.sendFrame f)

/-! ## Live writes (R309, R310, R313, R317) -/

/-- TC6 and TC5 flows that send on a sub-port. -/
def State.flowsOn (s : State) (p q : Nat) : List (Nat × Bool) :=
  (List.range 2048).flatMap fun i =>
    if !s.flowValid i then []
    else ([false, true].filter fun b => s.pathEn i b && s.pathPort i b == (p, q)).map fun b => (i, b)

/-- MAC rate of a sub-port in kb/s (R304). -/
def State.lineRate (s : State) (p : Nat) : Nat := 400000000 / s.byteTicks p

/-- The rates on every sub-port of flow `i` meet R317 with its rate at `v`. -/
def State.ratesFit (s : State) (i v : Nat) : Bool :=
  [false, true].all fun b => !s.pathEn i b ||
    (let (p, q) := s.pathPort i b
     decide (10 * sumOver ((s.flowsOn p q).map fun x => if x.1 = i then v else s.fld (Reg.TF_RATE x.1) 29 0) id ≤
       9 * s.lineRate p))

/-- A write of TF_RATE (R310), with whether it is refused: accepted at or above TF_FLOOR where R317 still holds; the credits
keep their value and go on at the new rate (R309). -/
def State.tfRateWrite (s : State) (i : Nat) (v : Word) : State × Bool :=
  let a := Reg.TF_RATE i
  let r := fldOf v 29 0
  let ok := s.mayWrite a 29 0 && decide (r ≤ 360000000) && decide (s.fld (Reg.TF_FLOOR i) 29 0 ≤ r) && s.ratesFit i r
  let bad := !ok && decide (r ≠ s.fld a 29 0)
  if ok then ((((s.settleCredit i false).settleCredit i true).setFld a 29 0 r).mirrorWrite a r, false)
  else (s.when bad fun s => s.refuse a, bad)

def execTfRateWrite (dt : Nat) (i : Fin 2048) (v : Word) (s : State) : Host.Outcome State Fault Refusal :=
  done ((s.elapse dt).tfRateWrite i v).1

/-- A write of TMG_GCL_DATA, with whether it is refused: its live fields are stored at INDEX (R318), and a field that is not live
keeps its value (R12). While a list is pending the write is discarded and counted in a register of its own (R313). -/
def State.gclDataWrite (s : State) (p : Nat) (v : Word) : State × Bool :=
  let a := Reg.TMG_GCL_DATA p
  let old := s.gclShadow p
  let gates := s.mayWrite a 31 24
  let time := s.mayWrite a 23 0
  let x := (if gates then v.toNat else old) / 16777216 * 16777216 + (if time then v.toNat else old) % 16777216
  let bad := decide (x ≠ v.toNat)
  if !gates && !time then (s.when bad fun s => s.refuse a, bad)
  else if (s.gate p).pending.isSome then (s.bump (Reg.TMG_GCL_REFUSED p), false)
  else (((s.storeEntry p x).mirrorWrite a x).when bad fun s => s.refuse a, bad)

def execTmgGclDataWrite (dt : Nat) (p : Fin 8) (v : Word) (s : State) : Host.Outcome State Fault Refusal :=
  done ((s.elapse dt).gclDataWrite p v).1

/-- Bring a list into force. -/
def State.setGateList (s : State) (p : Nat) (g : GateList) : State :=
  ((s.modGate p fun x => { x with oper := g, entry := 0 }).wrN (Reg.TMG_CYCLE p) g.cycle).wrN
    (Reg.TMG_LEN p) g.entries.length

/-- COMMIT is written as 1 (R313). -/
def State.commitGates (s : State) (p : Nat) : State :=
  let g := s.shadowList p
  if (s.gate p).pending.isSome || !g.valid then s.bump (Reg.TMG_GCL_REFUSED p)
  else if !s.bit (Reg.TMG_CTRL p) 0 then (s.setGateList p g).bump (Reg.TMG_SWITCHES p)
  else (s.modGate p fun x => { x with pending := some (g, s.clk.dtc) }).setBit (Reg.TMG_GCL_CTRL p) 31 true

/-- A write of TMG_GCL_CTRL, with whether it is refused: it sets INDEX and, with COMMIT 1, makes the shadow list pending
(R313, R318). -/
def State.gclCtrlWrite (s : State) (p : Nat) (v : Word) : State × Bool :=
  let a := Reg.TMG_GCL_CTRL p
  let okI := s.mayWrite a 9 0
  let okC := s.mayWrite a 31 31
  let commit := decide (fldOf v 31 31 = 1)
  let bad := (!okI && decide (fldOf v 9 0 ≠ s.fld a 9 0)) || (!okC && decide (fldOf v 31 31 ≠ s.fld a 31 31))
  let s := s.when okI fun s => s.setFld a 9 0 (fldOf v 9 0)
  let s := s.when (okC && commit) fun s => s.commitGates p
  ((s.when (okI || okC) fun s => s.mirrorWrite a v.toNat).when bad fun s => s.refuse a, bad)

def execGclCommit (dt : Nat) (p : Fin 8) (v : Word) (s : State) : Host.Outcome State Fault Refusal :=
  done ((s.elapse dt).gclCtrlWrite p v).1

/-- R311, R313, R314: a gate cycle starts; a list committed before this instant comes into force. -/
def execGateCycleStart (dt : Nat) (p : Fin 8) (s : State) : Host.Outcome State Fault Refusal :=
  let s := s.elapse dt
  let begins := s.nextCycle p
  if !s.gated p ∨ s.now < begins then done s
  else
    let s := match (s.gate p).pending with
      | some (l, at_) => if at_ < s.clk.dtc then
          (((s.setGateList p l).modGate p fun g => { g with pending := none }).setBit (Reg.TMG_GCL_CTRL p) 31 false).bump
            (Reg.TMG_SWITCHES p) else s
      | none => s
    done (s.modGate p fun g => { g with start := some (begins, s.clk.moves), entry := 0 })

/-- The entry in force has run its interval, and another follows before the cycle ends (R311). -/
def Gates.entryOver (g : Gates) (now : Int) : Bool :=
  let n := sumOver ((g.oper.entries.take (g.entry + 1)).map (·.2)) id
  decide (g.entry + 1 < g.oper.entries.length) && decide (n < g.oper.cycle) && g.start.any fun x => decide (x.1 + n ≤ now)

/-- R311: an entry's interval ends and the next entry's states take effect; the last entry's hold until the cycle ends. -/
def execGateEntryExpiry (dt : Nat) (p : Fin 8) (s : State) : Host.Outcome State Fault Refusal :=
  let s := s.elapse dt
  done (s.modGate p fun g => { g with entry := if g.entryOver s.now then g.entry + 1 else g.entry })

end Sys2Proof.Machine
end

