-- ==== Sys2Proof/Machine/ImageRules.lean ====
section
/-! DEFINITION. What the cocoon image may set: the registers each section loads (R56), and the conditions across fields under
which R57 makes an image invalid (R74, R79, R100, R103, R104, R122, R128, R130, R133, R140, R155, R174, R180, R204, R277,
R285, R300, R387, R445, R474). The same conditions judge a live write (R12). -/

namespace Sys2Proof.Machine

/-! ## The Loads column (R56) -/

/-- Registers whose values a section of this type loads (R56, and the chapters it names: R99, R342, R387, R404, R425, R449,
R482, R483, R511, R517). The multiplex settings of a context, offsets 0x100 to 0x1FF, are both part of the channel contexts
(type 4) and the multiplexes of the outputs section (type 5): either may load them. DESIGN CHOICE (log 49). Types 12 and 13
load no register: what they hold has a layout of its own. -/
def sectionMayLoad (type a : Nat) : Bool :=
  let inside := fun (lo hi : Nat) => decide (lo ≤ a) && decide (a < hi)
  let inDie := fun (lo hi : Nat) => inside 0x01000000 0x03000000 &&
    decide (lo ≤ (a - 0x01000000) % 0x400000) && decide ((a - 0x01000000) % 0x400000 < hi)
  let chan := inside 0x100000 0x160000
  let mux := chan && decide (0x100 ≤ a % 0x1000) && decide (a % 0x1000 < 0x200)
  match type with
  | 1 => a == 0x04 || a == 0x20 || a == 0x24
  | 2 => inDie 0x40000 0x50000 || inside 0x80000 0x80200 || inside 0xE000 0xF000
  | 3 => inside 0x200000 0x600000
  | 4 => chan || a == 0xC000
  | 5 => inside 0x20000 0x40000 || inside 0x40000 0x60000 || mux
  | 6 => inside 0x10000 0x15000
  | 7 => inside 0xA000 0xC000
  | 8 => inside 0x9000 0xA000
  | 9 => inside 0x8000 0x9000
  | 10 => inside 0xD000 0xE000 || inside 0xC040 0xC050
  | 11 => inDie 0x20000 0x40000
  | _ => false

/-! ## Conditions on one channel context -/

/-- Input format of a channel: SOURCE's for a rendition (R79). -/
def State.inFmt (s : State) (n hi lo : Nat) : Nat := s.fld (Reg.CHN_IN_FORMAT (s.inputOf n)) hi lo
def State.inW (s : State) (n : Nat) : Nat := s.fld (Reg.CHN_IN_SIZE (s.inputOf n)) 12 0
def State.inH (s : State) (n : Nat) : Nat := s.fld (Reg.CHN_IN_SIZE (s.inputOf n)) 28 16

/-- Coded to input size lies in [1/8, 2] in each dimension, after rotation (R122). -/
def ratioOk (coded input : Nat) : Bool := decide (input ≤ 8 * coded) && decide (coded ≤ 2 * input)

/-- The conditions across the fields of channel context `n`. Each is one rule of the spec. -/
def chanRules : List (State → Nat → Bool) :=
  [ fun s n => (s.profile n).isSome,                                                          -- R74: no HEVC 4:4:4
    fun s n => decide (n ≠ 0) || decide (s.fld (Reg.CHN_PRIO 0) 3 0 = 15),                    -- R74, R97: context 0
    fun s n => decide (s.fld (Reg.CHN_REFRESH n) 23 16 ≤ s.fld (Reg.CHN_REFRESH n) 15 0) ||
      !s.bit (Reg.CHN_REFRESH n) 31,                                                          -- R74: PERIOD, GDR_SPAN
    fun s n => s.levelOk n,                                                                   -- R180
    fun s n => decide (s.chKind n ≠ 2) ||
      (decide (s.chSource n ≠ n) && decide (s.chKind (s.chSource n) ≠ 2) &&
        decide (s.chRate n = s.chRate (s.chSource n))),                                       -- R79, R174
    fun s n => decide (s.chKind n = 2) ||
      (decide (s.inW n % 2 = 0) && decide (s.inH n % 2 = 0) && decide (s.inW n * s.inH n ≤ 33177600)),   -- R128
    fun s n => decide (s.chKind n = 2) || decide (s.inFmt n 17 16 = 0) || decide (s.inFmt n 13 12 = 2),  -- R128: TCS
    fun s n => decide (s.inFmt n 17 16 = 0) || decide (s.fld (Reg.CHN_IN_PREP n) 9 8 = 0),    -- R121: CONV
    fun s n => if s.fld (Reg.CHN_IN_PREP n) 1 0 % 2 = 1
      then ratioOk (s.chW n) (s.inH n) && ratioOk (s.chH n) (s.inW n)
      else ratioOk (s.chW n) (s.inW n) && ratioOk (s.chH n) (s.inH n),                        -- R122
    fun s n => decide (s.emberFloor n * s.rate n ≤ s.fld (Reg.CHN_CAP_RATE n) 19 0 * 1001000),           -- R204
    fun s n => decide (s.emberFloor n ≤ s.cpb n),                                             -- R204
    fun s n => decide (s.rd (Reg.CHN_CAP_PIC n) = 0) ||
      decide (s.emberFloor n ≤ 8 * s.rdN (Reg.CHN_CAP_PIC n)) ]                               -- R204

/-- D meets its lower bound (R277). A live cap rate is clamped to it instead (R97). -/
def State.delayOk (s : State) (n : Nat) : Bool := decide (s.minDelay n ≤ s.fld (Reg.CHN_DELAY n) 22 0)

def State.chanValid (s : State) (n : Nat) : Bool := (chanRules.all fun r => r s n) && s.delayOk n

/-- A write that takes `s` to `t` breaks no condition of channel `n` that held (R12). -/
def State.keepsRules (s t : State) (n : Nat) : Bool := chanRules.all fun r => !r s n || r t n

/-! ## The flow table (R103, R104) -/

def ftEssence (s : State) (i : Nat) : Nat := s.fld (Reg.FT_CTRL i) 26 24
def ftPartner (s : State) (i : Nat) : Nat := s.fld (Reg.FT_CTRL i) 15 0
def ftBlue (s : State) (i : Nat) : Bool := s.bit (Reg.FT_CTRL i) 27

/-- An address of an entry as 16 bytes in network order; IPv4 in the mapped form (R103, R104). -/
def ftAddrBytes (s : State) (v6 : Bool) (a : Nat) : List Byte :=
  if v6 then (List.range 4).flatMap fun j => beBytes 4 (s.rdN (a + 4 * j))
  else List.replicate 10 0 ++ [0xFF, 0xFF] ++ beBytes 4 (s.rdN a)

/-- The 40-byte key of an entry (R104). -/
def State.ftKey (s : State) (i : Nat) : List Byte :=
  let c := Reg.FT_CTRL i
  let srcM := s.bit c 29
  let vlanM := s.bit c 28
  [BitVec.ofNat 8 (b2n (s.bit c 27)), BitVec.ofNat 8 (b2n srcM + 2 * b2n vlanM)] ++
    beBytes 2 (if vlanM then s.fld (Reg.FT_VLAN_PORT i) 27 16 else 0) ++ beBytes 2 (s.fld (Reg.FT_VLAN_PORT i) 15 0) ++
    [0, 0] ++ ftAddrBytes s (s.bit c 30) (Reg.FT_DST i 0) ++
    (if srcM then ftAddrBytes s (s.bit c 30) (Reg.FT_SRC i 0) else List.replicate 16 0)

/-- The two candidate buckets of a key: bits [12:0] and [25:13] of its CRC-32C (R104). -/
def keyBuckets (key : List Byte) : Nat × Nat :=
  let h := crc32c key
  (h % 8192, h / 8192 % 8192)

/-- Entries in each bucket of the index that is not empty. -/
abbrev FlowIndex := List (Nat × Nat)

def fillOf (x : FlowIndex) (b : Nat) : Nat := assocGet 0 x b

/-- One entry takes the first free way of its first bucket, and otherwise of its second; none is free: the image is invalid
(R104). -/
def insertKey (x : Option FlowIndex) (key : List Byte) : Option FlowIndex :=
  x.bind fun x =>
    let (a, b) := keyBuckets key
    if fillOf x a < 8 then some (assocSet x a (fillOf x a + 1))
    else if fillOf x b < 8 then some (assocSet x b (fillOf x b + 1))
    else none

/-- Every valid entry, in ascending index, finds a way, and no two have the same key (R104). -/
def State.indexOk (s : State) : Bool :=
  let keys := s.flows.map s.ftKey
  decide (keys.eraseDups.length = keys.length) && (keys.foldl insertKey (some [])).isSome

/-- Payload octets of one audio channel in a datagram (R100): samples of a packet time, at two octets for L16, three for L24 and four
for an AES3 subframe. -/
def audioOctets (aes l24 fast short : Bool) : Nat :=
  (if fast then 96 else 48) / (if short then 8 else 1) * (if aes then 4 else if l24 then 3 else 2)

/-- Conditions on a valid entry: an audio flow's datagrams keep to 1,440 payload bytes (R100; DEDUCED, log 50: the levels A to CX
are taken as the limits that R100 spells out), partners name each other on opposite paths with the same ESSENCE and binding, BUF + NCH ≤ 1,024,
JOIN_PORTS belong to PATH, an IPv4 address leaves the other words 0, and FT_FORMAT has only the bits of its essence
(R103). -/
def State.entryOk (s : State) (i : Nat) : Bool :=
  let p := ftPartner s i
  let e := ftEssence s i
  let v4ok := fun (a : Nat) => [1, 2, 3].all fun j => decide (s.rd (a + 4 * j) = 0)
  (decide (p = i) || (s.bit (Reg.FT_CTRL p) 31 && decide (ftPartner s p = i) && (ftBlue s p != ftBlue s i) &&
    decide (ftEssence s p = e) && decide (s.rd (Reg.FT_BIND p) = s.rd (Reg.FT_BIND i)))) &&
  (decide (e ≠ 1 ∧ e ≠ 2) || (decide (1 ≤ s.fld (Reg.FT_BIND i) 6 0) &&
    decide (s.fld (Reg.FT_BIND i) 19 10 + s.fld (Reg.FT_BIND i) 6 0 ≤ 1024))) &&
  (let f := Reg.FT_FORMAT i
   decide (e ≠ 1 ∧ e ≠ 2) || decide (s.fld (Reg.FT_BIND i) 6 0 * audioOctets (decide (e = 2)) (s.bit f 8) (s.bit f 4) (s.bit f 0) ≤ 1440)) &&
  ((List.range 8).all fun q => !s.bit (Reg.FT_CTRL i) (16 + q) || (s.bit (Reg.NP_CTRL q) 2 == ftBlue s i)) &&
  (s.bit (Reg.FT_CTRL i) 30 || (v4ok (Reg.FT_DST i 0) && v4ok (Reg.FT_SRC i 0))) &&
  (let f := s.fld (Reg.FT_FORMAT i) 15 0
   if e = 1 then decide (f &&& 0x111 = f) else if e = 2 then decide (f &&& 0x11 = f)
   else decide (5 ≤ e) || decide (f = 0))

/-! ## Audio (R130, R133, R140, R155) -/

/-- Slots beyond the format of a port have no bits; SLOTS is 0 outside TDM; no TDM at 96 kHz with 16 slots. -/
def State.audioPortOk (s : State) (p : Nat) : Bool :=
  decide (s.fld (Reg.AUD_SLOT_MASK p) 15 0 < 2 ^ s.audSlots p) &&
    (decide (s.audMode p = 1) || decide (s.fld (Reg.AUD_CTRL p) 17 16 = 0)) &&
    !(decide (s.audMode p = 1) && s.bit (Reg.AUD_CTRL p) 8 && decide (s.fld (Reg.AUD_CTRL p) 17 16 = 3))

/-- Writers of buffer `b` in the image: a merged flow counts once, and slots of input ports (R133). -/
def State.writersOf (s : State) (b : Nat) : Nat :=
  (s.flows.filter fun i => s.flowTakes i b && decide (i ≤ ftPartner s i)).length +
    ((List.range 256).filter fun k => !s.audOut (k / 16) && s.bit (Reg.AUD_SLOT_MASK (k / 16)) (k % 16) &&
      decide (k % 16 < s.audSlots (k / 16)) && decide (s.audBuf (k / 16) (k % 16) = b)).length

/-- Readers of buffer `b` in the image: slots of output ports, audio PIDs of multiplexers, ST 2110-30 egress flows (R133). -/
def State.readersOf (s : State) (b : Nat) : Nat :=
  ((List.range 256).filter fun k => s.audOut (k / 16) && s.bit (Reg.AUD_SLOT_MASK (k / 16)) (k % 16) &&
      decide (k % 16 < s.audSlots (k / 16)) && decide (s.audBuf (k / 16) (k % 16) = b)).length +
    (allChans.flatMap fun n => (List.range 8).filter fun a =>
      let lo := s.fld (Reg.CHN_OUT_AUD_SRC n a) 31 22
      s.bit (Reg.CHN_OUT_AUD n a) 31 && decide (lo ≤ b) &&
        decide (b < lo + 2 * (s.fld (Reg.CHN_OUT_AUD n a) 1 0 + 1))).length +
    ((List.range 2048).filter fun i =>
      let lo := s.fld (Reg.OF_AUX i) 31 22
      s.flowValid i && decide (s.flowKind i = 2) && decide (lo ≤ b) &&
        decide (b ≤ lo + s.fld (Reg.OF_AUX i) 21 18)).length

/-- No buffer that the enabled slots of port `p` name has two writers or more than four readers (R133). -/
def State.slotBufsOk (s : State) (p : Nat) : Bool :=
  (List.range 16).all fun k => !s.bit (Reg.AUD_SLOT_MASK p) k ||
    (decide (s.writersOf (s.audBuf p k) ≤ 1) && decide (s.readersOf (s.audBuf p k) ≤ 4))

/-! ## Outputs (R285, R300, R387) -/

/-- OF_AUX is in range for the flow's KIND; a FEC flow has L, D and L × D of R296 and protects a flow of KIND 0 (R296, R300). -/
def State.auxOk (s : State) (i : Nat) : Bool :=
  let x := Reg.OF_AUX i
  let within := fun (v lo hi : Nat) => decide (lo ≤ v) && decide (v ≤ hi)
  match s.flowKind i with
  | 0 => within (s.fld x 31 24) 1 50 && within (s.fld x 23 16) 1 40
  | 1 => decide (s.rd x = 0)
  | 2 => within (s.fld x 21 18) 0 7 && within (s.fld x 12 0) 4 8000
  | _ => within (s.fld x 31 27) 1 20 && within (s.fld x 26 22) 4 20 && decide (s.fld x 31 27 * s.fld x 26 22 ≤ 100) &&
      decide (s.fld x 15 0 < 2048) && s.bit (Reg.OF_CTRL (s.fld x 15 0)) 31 && decide (s.flowKind (s.fld x 15 0) = 0)

/-- An egress flow's paths lie in their sets, SOURCE is given by a KIND 1 flow only, and OF_AUX is in range (R300). -/
def State.outOk (s : State) (i : Nat) : Bool :=
  (!s.pathEn i false || !s.bit (Reg.NP_CTRL (s.pathPort i false).1) 2) &&
  (!s.pathEn i true || s.bit (Reg.NP_CTRL (s.pathPort i true).1) 2) &&
  (if s.flowKind i = 1 then decide (s.fld (Reg.OF_CTRL i) 19 8 ≤ 95) else decide (s.fld (Reg.OF_CTRL i) 19 8 = 0)) &&
  s.auxOk i

/-- PIDs of channel `n` in its flow (R285, R301). -/
def State.pidsOf (s : State) (n : Nat) : List Nat :=
  [s.fld (Reg.CHN_OUT_PROG n) 12 0, s.fld (Reg.CHN_OUT_PIDS n) 12 0] ++
    (if s.bit (Reg.CHN_OUT_FLAGS n) 3 then [s.fld (Reg.CHN_OUT_PIDS n) 28 16] else []) ++
    ((List.range 8).filter fun a => s.bit (Reg.CHN_OUT_AUD n a) 31).map fun a => s.fld (Reg.CHN_OUT_AUD n a) 28 16

/-- Every PID of a TS flow is unique and lies in 0x0020 to 0x1FFE, and it carries at most 16 programs (R285). -/
def State.pidsOk (s : State) (i : Nat) : Bool :=
  let l := (s.progsOf i).flatMap s.pidsOf
  decide (s.flowKind i ≠ 0) ||
    (decide (l.eraseDups.length = l.length) && l.all (fun p => decide (0x20 ≤ p) && decide (p ≤ 0x1FFE)) &&
      decide ((s.progsOf i).length ≤ 16))

/-- Egress flows on both paths need an enabled port in each path (R387). -/
def State.bothPathsOk (s : State) : Bool :=
  let used := fun (b : Bool) => (List.range 2048).any fun i => s.flowValid i && s.pathEn i b
  let port := fun (b : Bool) => (List.range 8).any fun p => decide (s.fld (Reg.NP_CTRL p) 1 0 ≠ 0) && (s.bit (Reg.NP_CTRL p) 2 == b)
  !(used false && used true) || (port false && port true)

/-! ## Gate lists (R311) -/

/-- The gate list that an image leaves in the shadow copy of port `p`: every interval it loads is at least 1 ns, and where it
sets GATE_EN, cycle, length and every entry of the list are in their ranges. -/
def State.gatesOk (s : State) (p : Nat) : Bool :=
  ((s.gate p).shadow.all fun e => decide (e.2 % 16777216 ≠ 0)) &&
    (!s.bit (Reg.TMG_CTRL p) 0 || (s.shadowList p).valid)

/-! ## The whole image -/

/-- Contexts and ports of which the image loads some register. -/
def loadedIn (l : List (Nat × Nat)) (base step count : Nat) : List Nat :=
  (List.range count).filter fun i => l.any fun e => decide (base + step * i ≤ e.1) && decide (e.1 < base + step * (i + 1))

/-- The section to which a broken condition belongs, `none` where all hold; `s` holds the registers as the image would leave
them, `l` is what it loads. A context the image does not load is not judged. -/
def State.imageFaults (s : State) (l : List (Nat × Nat)) : List Nat :=
  (if (loadedIn l 0x100000 0x1000 96).all s.chanValid then [] else [4]) ++
  (if s.flows.all s.entryOk && s.indexOk then [] else [3]) ++
  (if ((List.range 2048).filter s.flowValid).all (fun i => s.outOk i && s.pidsOk i) then [] else [5]) ++
  (if s.bothPathsOk then [] else [5]) ++
  (if (List.range 8).all s.gatesOk then [] else [5]) ++
  (if (loadedIn l 0x10000 0x400 16).all s.audioPortOk &&
      (List.range 1024).all (fun b => decide (s.writersOf b ≤ 1) && decide (s.readersOf b ≤ 4)) then [] else [6]) ++
  (if s.fld Reg.CAP_AVS 15 0 ≤ s.fld Reg.CAP_AVS 31 16 then [] else [10]) ++
  (if (List.range 16).all fun k => decide (s.fld (Reg.MC_CTRL (k / 2) (k % 2)) 15 8 ≤ s.fld (Reg.MC_CTRL (k / 2) (k % 2)) 23 16)
    then [] else [11])

end Sys2Proof.Machine
end

