-- ==== Sys2Proof/Machine/Mgmt.lean ====
section
/-! DEFINITION. Beacon messages: which are acted on, under which key, and the responses (R504 to R509). -/

namespace Sys2Proof.Machine

/-- The 20-byte header of a message, in network byte order (R504). -/
def beaconHead (op flags status len session seq : Nat) : List Byte :=
  beBytes 2 0x424E ++ [1, BitVec.ofNat 8 op, BitVec.ofNat 8 flags, BitVec.ofNat 8 status] ++ beBytes 2 len ++
  beBytes 4 session ++ beBytes 8 seq

/-- The message is keyed with the recovery key (FLAGS[2]). -/
def msgRecovery (m : BeaconMsg) : Bool := decide (m.flags / 4 % 2 = 1)

/-- No image is loaded: E0 to E3, and HALTED (R505). -/
def State.noImage (s : State) : Bool := !s.emg.imageLoaded

def State.keyOf (s : State) (recovery : Bool) : List Byte :=
  if recovery then Config.recoveryKey else s.emg.operatingKey

/-- Is the key the message names allowed at this instant (R505)? -/
def State.keyAllowed (s : State) (m : BeaconMsg) : Bool :=
  if msgRecovery m then s.noImage else s.emg.imageLoaded

/-- Does the message reach the Beacon endpoint: the MGMT lane, or a network port where INBAND lets it (R504)? -/
def State.beaconReach (s : State) (m : BeaconMsg) : Bool :=
  match m.port with
  | none => s.emg.mgmtUp
  | some p => s.bit Reg.MGT_CTRL 31 && s.bit Reg.MGT_CTRL p && s.portUp p

/-- MAGIC, VERSION and LENGTH (R504, R506). -/
def msgFormOk (m : BeaconMsg) : Bool :=
  decide (m.magic = 0x424E) && decide (m.version = 1) && decide (m.length = m.payload.length) &&
  decide (m.length ≤ 1400) && decide (m.tag.length = 16)

def State.tagOk (s : State) (m : BeaconMsg) : Bool :=
  s.keyAllowed m && decide (m.tag = beaconTag (s.keyOf (msgRecovery m))
    (beaconHead m.op m.flags m.status m.length m.session m.seq ++ m.payload))

def State.seqHigh (s : State) (recovery : Bool) : Nat := if recovery then s.mgt.seqRec else s.mgt.seqOp

/-- Send a message keyed like the one it answers, on the MGMT lane or in TC0 of a network port (R302, R504). FLAGS[0]
RESPONSE, [1] NOTIFY, [2] RECOVERY. -/
def State.sendBeacon (s : State) (port : Option Nat) (dst op flags status seq : Nat) (payload : List Byte) : State :=
  let ses := s.rdN Reg.MGT_SESSION
  let x : Sent := .beacon dst op flags status ses seq payload
    (beaconTag (s.keyOf (decide (flags / 4 % 2 = 1))) (beaconHead op flags status payload.length ses seq ++ payload))
  match port with
  | none => s.send x
  | some p => s.toPort p 0 (udpLen false (payload.length + 36)) x

/-- The response to a request (R504, R505). -/
def State.respond (s : State) (m : BeaconMsg) (status : Nat) (payload : List Byte) : State :=
  s.sendBeacon m.port m.src m.op (1 + 4 * b2n (msgRecovery m)) status m.seq payload

/-- A request comes in (R506, R507, R509): the discards, the wrong session, the operations the recovery key may carry;
otherwise it is accepted and `f` acts on it. `op` is the operation of the command. -/
def State.request (s : State) (m : BeaconMsg) (op : Nat) (f : State → State) : State :=
  let s := s.when (m.port.isNone && s.emg.mgmtUp) fun s => s.bump Reg.MGL_RX_FRAMES
  if !s.beaconReach m || decide (m.op ≠ op) || !msgFormOk m || decide (m.flags % 4 ≠ 0) then s
  else if 16 ≤ m.waiting then s.bump Reg.MGT_OVERRUN
  else if !s.tagOk m then (s.bump Reg.MGT_AUTH_FAIL).raiseLimited 5 0
  else if m.session ≠ s.rdN Reg.MGT_SESSION then s.respond m 2 (beBytes 4 (s.rdN Reg.MGT_SESSION))
  else if m.seq ≤ s.seqHigh (msgRecovery m) then s.bump Reg.MGT_STALE
  else
    let s := s.bump Reg.MGT_RX_OK
    let s := { s with mgt := { s.mgt with
      seqOp := if msgRecovery m then s.mgt.seqOp else m.seq,
      seqRec := if msgRecovery m then m.seq else s.mgt.seqRec } }
    if msgRecovery m && (op == 2 || op == 4) then s.respond m 3 [] else f s

/-- Words of a payload, in network byte order. -/
def payloadWords (m : BeaconMsg) : List Nat := beWords 4 m.payload (m.payload.length / 4)

/-! ## The I²C window (R512) -/

/-- EVT_SEV_MAX: the highest severity among unread records (R502). -/
def State.evtSevMax (s : State) : Nat :=
  (List.range s.unread).foldl (fun a i =>
    max a (s.rdN (Reg.EVT_RING ((s.rdN Reg.EVT_TAIL + i) % 4096) 0) / 1024 % 4)) 0

/-- The 256 bytes of the window. Before a valid image is loaded the fields of SAF, TWN and the events read 0. -/
def State.i2cWindow (s : State) : List Byte :=
  let on := s.emg.imageLoaded
  let w := fun (n a : Nat) => leBytes n (if on then s.rdN a else 0)
  let newest := (s.rdN Reg.EVT_HEAD + 4095) % 4096
  let b := leBytes 2 (s.fld Reg.IDN_PART 15 0) ++ leBytes 1 (s.fld Reg.IDN_PART 23 16) ++
    leBytes 1 (s.unitNo + 16 * s.fld Reg.IDN_UNIT 11 8) ++
    (List.range 4).flatMap (fun i => leBytes 4 (s.rdN (Reg.IDN_SERIAL i))) ++ leBytes 2 (s.fld Reg.IDN_UNIT 31 16) ++
    leBytes 2 0 ++ leBytes 4 (s.rdN Reg.EMG_STATUS) ++ leBytes 4 (s.rdN Reg.EMG_FAIL) ++ w 4 Reg.SAF_STATUS ++
    leBytes 4 (if on then s.twinStatus.rdN Reg.TWN_STATUS else 0) ++ leBytes 4 (s.rdN Reg.THM_STATUS) ++
    leBytes 2 (s.fld Reg.THM_HOTTEST 15 0) ++ w 2 Reg.EVT_PENDING ++ leBytes 1 (if on then s.evtSevMax else 0) ++ leBytes 3 0 ++ w 4 Reg.EVT_LOST ++
    (List.range 4).flatMap (fun i => leBytes 4 (if on ∧ 0 < s.evt.seq then s.rdN (Reg.EVT_RING newest i) else 0)) ++
    (List.range 8).flatMap (fun d => leBytes 2 (s.fld (Reg.THD_STATUS d) 15 0))
  b ++ List.replicate (256 - b.length) 0

/-- The window copy that read transfers return is refreshed. -/
def State.i2cRefresh (s : State) : State := { s with mgt := { s.mgt with i2cCopy := s.i2cWindow } }

end Sys2Proof.Machine
end

