-- ==== Sys2Proof/Machine/Flash.lean ====
section
/-! DEFINITION. The cocoon image in the flash, its choice and its load, key claim and anti-rollback, FLASH sessions
and the wear log (R52 to R70). -/

namespace Sys2Proof.Machine

/-! ## Headers and sections (R53 to R57) -/

structure CopyHeader where
  port : Nat
  copy : Nat
  sequence : Nat
  bodyLen : Nat
  sections : Nat
  rollback : Nat
  claim : Bool
  commit : Bool
deriving DecidableEq, Repr

structure Section where
  type : Nat
  sver : Nat
  critical : Bool
  value : List Byte
  offset : Nat
deriving DecidableEq, Repr

/-- The header of a copy, where it passes the checks of R53 (layout R54). R53 lists five checks and no other: FLAGS[7:2] and
the reserved word at 0x1C, which R54 gives as 0, are not judged, and no ROLLBACK above 64 makes a copy invalid. DESIGN CHOICE
(log 49). -/
def readHeader (m : List Host.Cell) (port copy : Nat) : Option CopyHeader :=
  let b := copyBase copy
  let le := fun o n => leNat (flashBytes m (b + o) n)
  if le 0 4 = 0x464C434E ∧ crc32 (flashBytes m b 24) = le 0x18 4 ∧ le 4 2 = 1 ∧ le 6 2 = 0x9608 ∧ le 8 8 ≠ 0 then
    some ⟨port, copy, le 8 8, le 0x10 4, le 0x14 2, le 0x16 1, decide (le 0x17 1 % 2 = 1),
      decide (le 0x17 1 / 2 % 2 = 1)⟩
  else none

/-- The body's sections (R55), by `fuel`, and where they fail: the type (0 where a section's own header is cut short, or where
SECTION_COUNT sections do not fill the body) and the byte offset in the copy. -/
def readSections (m : List Host.Cell) (base : Nat) : Nat → Nat → Nat → List Section × Option (Nat × Nat)
  | 0, off, len => ([], if len = 0 then none else some (0, off))
  | fuel + 1, off, len =>
    if len < 8 then ([], some (0, off))
    else
      let le := fun o n => leNat (flashBytes m (base + off + o) n)
      let n := le 4 4
      let pad := (4 - n % 4) % 4
      if len < 8 + n + pad then ([], some (le 0 2, off + 4))
      else
        let c : Section := ⟨le 0 2, le 2 1, decide (le 3 1 % 2 = 1), flashBytes m (base + off + 8) n, off⟩
        match (flashBytes m (base + off + 8 + n) pad).findIdx? (· ≠ 0) with
        | some i => ([c], some (c.type, off + 8 + n + i))
        | none =>
          let r := readSections m base fuel (off + 8 + n + pad) (len - 8 - n - pad)
          (c :: r.1, r.2)

/-- The sections of a copy whose BODY_LEN and SECTION_COUNT are in range (R54). -/
def sectionsOf (m : List Host.Cell) (h : CopyHeader) : List Section × Option (Nat × Nat) :=
  if h.bodyLen % 4 ≠ 0 ∨ 32505536 < h.bodyLen then ([], some (0, 0x10))
  else if h.sections < 5 ∨ 13 < h.sections then ([], some (0, 0x14))
  else readSections m (copyBase h.copy) h.sections 0x40 h.bodyLen

def requiredTypes : List Nat := [1, 2, 7, 9, 12]

/-- A section the device knows (R55, R56). -/
def sectionKnown (c : Section) : Bool := decide (1 ≤ c.type) && decide (c.type ≤ 13) && Config.sverKnown c.type c.sver

/-- A fault of a copy's sections: byte offset in the copy, cause (6 or 7), TYPE. -/
abbrev SectionFault := Nat × Nat × Nat

/-- Sections in descending or repeated TYPE, given the TYPE of the one before, and critical ones that are not known (R55). -/
def orderFaults : Option Nat → List Section → List SectionFault
  | _, [] => []
  | t, c :: l =>
    (if t.any (fun t => decide (c.type ≤ t)) || (c.critical && !sectionKnown c) then [(c.offset, 6, c.type)] else []) ++
      orderFaults (some c.type) l

/-- Structure errors of R55 and R56: cause 6. A required section of an SVER the device does not know, and not critical, is
skipped by R55 and still present for R56; a required section that is absent is reported at the end of the body, under its
own TYPE. DESIGN CHOICE (log 49). -/
def structureFaults (h : CopyHeader) (l : List Section) : List SectionFault :=
  orderFaults none l ++
    ((requiredTypes.find? fun t => !(l.map (·.type)).contains t).map fun t => (0x40 + h.bodyLen, 6, t)).toList

/-! ## Live permissions (R65) and values (R57) -/

/-- One live-permission entry: address, mask, scope, reserved bytes. -/
structure PermEntry where
  addr : Nat
  mask : Nat
  scope : Nat
  rsv : Nat
deriving DecidableEq, Repr

def permEntries (v : List Byte) : Nat → List PermEntry
  | 0 => []
  | n + 1 =>
    ⟨leNat (v.take 4), leNat ((v.drop 4).take 4), leNat ((v.drop 8).take 1), leNat ((v.drop 9).take 3)⟩ ::
      permEntries (v.drop 12) n

def permCount (v : List Byte) : Nat := (v.length - 4) / 12

/-- The mask of a field. -/
def Fld.mask (f : Fld) : Nat := (2 ^ f.width - 1) * 2 ^ f.lo

/-- FIELD_MASK covers only whole fields that may be live (R65, R97). -/
def maskOk (d : RegDef) (mask : Nat) : Bool :=
  let live := d.flds.filter fun f => f.acc == .rwl true && decide (mask &&& f.mask = f.mask)
  decide (live.foldl (fun a f => a + f.mask) 0 = mask)

def permOk (e : PermEntry) : Bool :=
  decide (e.addr % 4 = 0) && decide (e.rsv = 0) &&
  (decide (e.scope = 0) && decide (e.addr ≠ 0x00100008) ||
    decide (e.scope = 1) && decide (0x00100000 ≤ e.addr) && decide (e.addr < 0x00101000) ||
    decide (e.scope = 2) && decide (0x01000000 ≤ e.addr) && decide (e.addr < 0x01400000)) &&
  (match regAt e.addr with | .reg d => maskOk d e.mask | _ => false)

def permSectionOk (v : List Byte) : Bool :=
  decide (4 ≤ v.length) && decide (v.length = 4 + 12 * permCount v) && decide (permCount v ≤ 4096) &&
  decide (leNat (v.take 4) < 4) && (permEntries (v.drop 4) (permCount v)).all permOk

/-- The addresses an entry names after SCOPE is applied. Channel 0 keeps its own PRIO (R97). -/
def PermEntry.expand (e : PermEntry) : List (Nat × Nat) :=
  if e.scope = 1 then
    ((List.range 96).map fun n => (e.addr + 0x1000 * n, e.mask)).filter fun x => x.1 ≠ 0x00100008
  else if e.scope = 2 then (List.range 8).map fun d => (e.addr + 0x400000 * d, e.mask)
  else [(e.addr, e.mask)]

/-- Does the register at `a` take the image's value `v`: every field one the image loads, in its range, reserved bits
0 (R57)? The identity section loads the identity block (R517). -/
def loadOk (av : Nat × Nat) : Bool :=
  match regAt av.1 with
  | .reg d =>
    let ident := decide (av.1 < 0x50)
    let rwl := d.flds.filter fun f => match f.acc with | .rwl _ => true | .ro => ident | _ => false
    decide (av.2 < 4294967296) &&
    decide (rwl.foldl (fun a f => a + (av.2 &&& f.mask)) 0 = av.2) &&
    rwl.all fun f => f.rng.admits f.width (av.2 / 2 ^ f.lo % 2 ^ f.width)
  | _ => false

/-- Where a live-permission section breaks R65: its flags word or size, otherwise its first bad entry. -/
def permFaultOffset (v : List Byte) : Nat :=
  if v.length < 4 ∨ v.length ≠ 4 + 12 * permCount v ∨ 4096 < permCount v ∨ 4 ≤ leNat (v.take 4) then 0
  else 4 + 12 * (((permEntries (v.drop 4) (permCount v)).findIdx? fun e => !permOk e).getD 0)

/-- What a section loads: only registers of its TYPE's Loads column (R56). -/
def sectionLoaded (c : Section) : List (Nat × Nat) :=
  if sectionKnown c then (Config.sectionLoads c.type c.value).filter fun av => sectionMayLoad c.type av.1 else []

/-- A section's own value keeps the layout and range rules of its defining chapter (R57). -/
def sectionValueOk (c : Section) : Bool :=
  if c.type = 12 then permSectionOk c.value
  else Config.sectionLayoutOk c.type c.sver c.value &&
    (Config.sectionLoads c.type c.value).all fun av => sectionMayLoad c.type av.1 && loadOk av

/-- Where in the copy a section's value is at fault (R57). -/
def valueOffset (c : Section) : Nat :=
  c.offset + 8 + (if c.type = 12 then permFaultOffset c.value else Config.sectionFaultOffset c.type c.value)

/-- One register that a section loads (R56); the entries of a port's gate list reach its shadow copy one after another. -/
def State.loadWord (s : State) (a v : Nat) : State :=
  match (List.range 8).find? (fun p => Reg.TMG_GCL_DATA p == a) with
  | some p => s.storeEntry p (v % 4294967296)
  | none => s.wrN a v

/-- The registers and gate lists as a copy would leave them, all others at reset: what the conditions across fields are judged
on. -/
def imageRegs (l : List (Nat × Nat)) : State := State.reset.each l fun av s => s.loadWord av.1 av.2

/-- Value errors of R57, cause 7: a section by itself, or a condition across fields, which is reported at the section that its
broken field belongs to. -/
def valueFaults (l : List Section) : List SectionFault :=
  let loads := l.flatMap sectionLoaded
  let bad := (imageRegs loads).imageFaults loads
  (l.filter fun c => sectionKnown c && (!sectionValueOk c || bad.contains c.type)).map fun c => (valueOffset c, 7, c.type)

/-- The fault at the lowest byte offset: EMG_FAIL shows the first offending section (R57). -/
def firstFault (l : List SectionFault) : Option SectionFault :=
  l.foldl (fun r x => match r with
    | none => some x
    | some y => if x.1 < y.1 then some x else some y) none

/-- sections_valid of R53: the first fault of a copy's sections, as cause, TYPE, offset. -/
def sectionsFault (m : List Host.Cell) (h : CopyHeader) : Option (Nat × Nat × Nat) :=
  let r := sectionsOf m h
  let ends := (r.2.map fun x => (x.2, 6, x.1)).toList
  (firstFault (ends ++ structureFaults h r.1 ++ valueFaults r.1)).map fun x => (x.2.1, x.2.2, x.1)

/-! ## Authentication and fuses (R58 to R62) -/

structure SigBlock where
  pubkey : List Byte
  sigR : List Byte
  sigS : List Byte
  reservedZero : Bool
deriving DecidableEq, Repr

def signatureOf (m : List Host.Cell) (h : CopyHeader) : SigBlock :=
  let b := copyBase h.copy + 0x40 + h.bodyLen
  ⟨flashBytes m b 97, flashBytes m (b + 0x64) 48, flashBytes m (b + 0x94) 48,
    (flashBytes m (b + 0x61) 3).all (· = 0) && (flashBytes m (b + 0xC4) 60).all (· = 0)⟩

def hashBits (pub : List Byte) : BitVec 384 := BitVec.ofNat 384 (beNat (sha384 pub))

/-- SHA-384 of PUBKEY has a 1 at every hash fuse already blown (R59). -/
def covers (f : Fuses) (pub : List Byte) : Bool := decide (f.rootHash &&& hashBits pub = f.rootHash)

/-- The failure cause of a copy's authentication, 0 for none (R58, R59, R63). -/
def authFault (f : Fuses) (m : List Host.Cell) (h : CopyHeader) : Nat :=
  let g := signatureOf m h
  let signed := g.reservedZero && ecdsaVerify g.pubkey g.sigR g.sigS
    (flashBytes m (copyBase h.copy) (0x40 + h.bodyLen))
  if f.claimLock then (if hashBits g.pubkey ≠ f.rootHash then 4 else if signed then 0 else 3)
  else if !h.claim then 8
  else if !signed then 3
  else if covers f g.pubkey then 0 else 9

/-- Number of blown bits (R62). -/
def popcount : Nat → Nat → Nat
  | 0, _ => 0
  | w + 1, x => x % 2 + popcount w (x / 2)

def Fuses.count (f : Fuses) : Nat := popcount 64 f.antiRollback.toNat

/-- The first failure of a copy: cause, section, offset (R53, R57, R63). A failure that lies at no byte of the copy (causes 3, 4,
5, 8 and 9) shows offset 0; R73 gives none for it. DESIGN CHOICE (log 49). -/
def copyFault (f : Fuses) (m : List Host.Cell) (h : CopyHeader) : Option (Nat × Nat × Nat) :=
  let a := authFault f m h
  if a ≠ 0 then some (a, 0, 0)
  else if h.rollback < f.count then some (5, 0, 0)
  else sectionsFault m h

/-- Fuse bits only go from 0 to 1 (R61): the one place they change. -/
def State.blow (s : State) (hash : BitVec 384) (lock : Bool) (rollback : BitVec 64) : State :=
  { s with fuses := ⟨s.fuses.rootHash ||| hash, s.fuses.claimLock || lock, s.fuses.antiRollback ||| rollback⟩ }

/-- Claim the unit with a key whose hash covers the blown bits; CLAIM_LOCK is blown last (R59, R61). -/
def State.claimKey (s : State) (pub : List Byte) : State :=
  ((s.blow (hashBits pub) false 0).blow 0 true 0).setBit Reg.EMG_STATUS 9 true

/-- The lowest anti-rollback bits not yet blown, up to a count of `n` (R62): one bit per unit of fuel. R62 says how many bits are
blown and not which ones. DESIGN CHOICE (log 49). -/
def rollbackBits (x : BitVec 64) (n : Nat) : Nat → BitVec 64
  | 0 => 0
  | i + 1 =>
    let low := rollbackBits x n i
    if x.getLsbD i || decide (n ≤ popcount 64 (x ||| low).toNat) then low else low ||| BitVec.ofNat 64 (2 ^ i)

/-- ROLLBACK_COMMIT at the instant the unit becomes LIVE (R62). -/
def State.commitRollback (s : State) : State :=
  s.when s.emg.rollbackCommit fun s =>
    let s := s.blow 0 false (rollbackBits s.fuses.antiRollback (s.fld Reg.EMG_IMAGE 15 8) 64)
    s.setFld Reg.EMG_IMAGE 23 16 s.fuses.count

/-! ## Choosing and loading (R53, R56, R63) -/

/-- E3 begins: the lead die resets both configuration flashes (R47, R533). -/
def State.startE3 (s : State) : State :=
  let s := s.enterPhase 3
  s.send (.cfgReset s.ns)

/-- Insert by sequence descending; among equals the earlier of port A copy A, A B, B A, B B stays first (R53). -/
def insertHeader (h : CopyHeader) : List CopyHeader → List CopyHeader
  | [] => [h]
  | x :: xs => if x.sequence < h.sequence then h :: x :: xs else x :: insertHeader h xs

def State.candidates (s : State) (answers : Nat → Bool) : List CopyHeader :=
  let all := [(0, 0), (0, 1), (1, 0), (1, 1)].filterMap fun pc =>
    if answers pc.1 then readHeader (s.flash pc.1) pc.1 pc.2 else none
  all.foldl (fun l h => insertHeader h l) []

/-- The failure shown in EMG_FAIL (R63, R73). -/
def State.recordFail (s : State) (cause sect off : Nat) : State :=
  ((s.wrN Reg.EMG_FAIL (sect % 65536 * 65536 + cause)).wrN Reg.EMG_FAIL_OFFSET off)

/-- Walk the candidates: the first without a fault is chosen; each other one records its failure (R53). -/
def State.choose (s : State) : List CopyHeader → State × Option CopyHeader
  | [] => (s, none)
  | h :: l => match copyFault s.fuses (s.flash h.port) h with
    | none => (s, some h)
    | some (c, t, o) => (s.recordFail c t o).choose l

/-- Load one section: registers (R56) and the settings no register shows; a section of unknown type or version that is
not critical is skipped with the image notice (R55). -/
def State.loadSection (s : State) (c : Section) : State :=
  if !sectionKnown c then s.raise 2 c.type
  else
    let s := s.each (sectionLoaded c) fun av s => s.loadWord av.1 av.2
    match c.type with
    | 1 => { s with emg := { s.emg with operatingKey := Config.operatingKey c.value } }
    | 2 => { s with emg := { s.emg with laneUpMs := Config.laneUpMs c.value } }
    | 8 => ({ s with emg := { s.emg with hasTwin := true },
                     twin := { s.twin with pairKey := Config.pairKey c.value } }).setBit Reg.IDN_UNIT 1 true
    | 11 => { s with emg := { s.emg with restoreMs := Config.restoreMs c.value }, cal := { s.cal with seeds := some c.value } }
    | 12 => { s with emg := { s.emg with
        flashLive := decide (leNat (c.value.take 4) % 2 = 1),
        resetLive := decide (leNat (c.value.take 4) / 2 % 2 = 1),
        livePerms := (permEntries (c.value.drop 4) (permCount c.value)).flatMap PermEntry.expand } }
    | 13 => { s with emg := { s.emg with slateSection := c.value } }
    | _ => s

/-! ## The wear log (R69, R70) -/

/-- Flash address of page `i` of the ring: area 0, then area 1 (R52, R69). -/
def pageAddr (i : Nat) : Nat := if i < 4096 then 0x1F00000 + 256 * i else 0x3F00000 + 256 * (i - 4096)

/-- A valid record: its CRC holds (R69, R70). -/
def recordValid (bs : List Byte) : Bool := decide (crc32 (bs.take 252) = leNat (bs.drop 252))

def State.page (s : State) (i : Nat) : List Byte := flashBytes (s.flash s.emg.logPort) (pageAddr i) 256

/-- Valid pages: (SEQ, page, TYPE). -/
def State.logPages (s : State) : List (Nat × Nat × Nat) :=
  (List.range 8192).filterMap fun i =>
    let b := s.page i
    if recordValid b then some (leNat (b.take 4), i, leNat ((b.drop 4).take 1)) else none

/-- The record with the highest SEQ: the head (R69). -/
def newestPage (l : List (Nat × Nat × Nat)) : Option (Nat × Nat × Nat) :=
  l.foldl (fun r x => match r with | none => some x | some y => if y.1 < x.1 then some x else some y) none

def State.pageBlank (s : State) (i : Nat) : Bool := (s.page i).all (· = 0xFF)

/-- The next page after `i` that is not torn: unwritten, or the first of a sector, which is erased before use. -/
def State.nextPage (s : State) (i : Nat) : Nat :=
  (((List.range 257).map fun k => (i + 1 + k) % 8192).find? fun p => s.pageBlank p || decide (p % 256 = 0)).getD 0

/-- The bytes of a record (R69). -/
def logRecord (seq type time : Nat) (payload : List Byte) : List Byte :=
  let b := leBytes 4 seq ++ [BitVec.ofNat 8 type, 0, 0, 0] ++ leBytes 8 time ++
    (payload ++ List.replicate (236 - payload.length) 0).take 236
  b ++ leBytes 4 (crc32 b)

/-- Program a record at the next page and show it as the newest. Its SEQ is one more than the record before it (R69); the first
record of an empty log follows EMG_LOG_HEAD 0 and has SEQ 1, which R69 does not say. DESIGN CHOICE (log 49). -/
def State.programRecord (s : State) (type time : Nat) (payload : List Byte) : State :=
  let seq := s.rdN Reg.EMG_LOG_HEAD + 1
  let s := s.setFlash s.emg.logPort (flashProgram (s.flash s.emg.logPort) (pageAddr s.emg.logNext)
    (logRecord seq type time payload))
  let s := s.wrN Reg.EMG_LOG_HEAD seq
  let s := s.when (decide (type = 1)) fun s => s.bump Reg.EMG_BOOTS
  { s with emg := { s.emg with logNext := s.nextPage s.emg.logNext } }

/-- Records of the sector that begins at page `p` to be copied forward: ageing records younger than 90 days, and the newest boot
record (R70). Age is the present DTC less the record's TIME; the DTC restarts at every E0 (R320) and the log holds no other
time, so a record of an earlier emergence whose TIME lies ahead counts as young. DESIGN CHOICE (log 49). -/
def State.keepers (s : State) (p : Nat) : List (List Byte) :=
  let boots := s.logPages.filter fun x => x.2.2 == 1
  let newestBoot := (newestPage boots).map (·.2.1)
  (s.logPages.filter fun x => decide (p ≤ x.2.1) && decide (x.2.1 < p + 256) &&
      (x.2.2 == 2 && decide ((s.ns : Int) - leNat (((s.page x.2.1).drop 8).take 8) < 7776000000000000) ||
        newestBoot == some x.2.1)).map fun x => s.page x.2.1

/-- A record copied forward to the head, with the time it was written at. -/
def State.copyForward (s : State) (b : List Byte) : State :=
  s.programRecord (leNat ((b.drop 4).take 1)) (leNat ((b.drop 8).take 8)) ((b.drop 16).take 236)

def State.sectorBlank (s : State) (p : Nat) : Bool := (List.range 256).all fun i => s.pageBlank (p + i)

/-- The next page is the first of a sector that is still full: the oldest one. -/
def State.logFull (s : State) : Bool := decide (s.emg.logNext % 256 = 0) && !s.sectorBlank s.emg.logNext

/-- Unwritten pages left in the head's sector, and the first page of the sector after it, the oldest. -/
def State.freePages (s : State) : Nat :=
  if s.logFull then 0
  else ((List.range (256 - s.emg.logNext % 256)).filter fun i => s.pageBlank (s.emg.logNext + i)).length

def State.oldestSector (s : State) : Nat :=
  if s.logFull then s.emg.logNext else (s.emg.logNext / 256 + 1) * 256 % 8192

/-- The sector of 256 pages at `p` is erased; boot records in it are no longer counted. -/
def State.eraseSector (s : State) (p : Nat) : State :=
  let lost := (s.logPages.filter fun x => x.2.2 == 1 && decide (p ≤ x.2.1) && decide (x.2.1 < p + 256)).length
  let s := s.setFlash s.emg.logPort (flashErase (s.flash s.emg.logPort) (pageAddr p) 65536)
  s.wrN Reg.EMG_BOOTS (s.rdN Reg.EMG_BOOTS - lost)

/-- Make room while the head's sector still has pages for what must be kept: the oldest sector's records of R70 are copied
forward to the head, and only then is it erased. Records that no longer fit there follow after the erase. -/
def State.makeRoom (s : State) : State :=
  let q := s.oldestSector
  let keep := s.keepers q
  let free := s.freePages
  if s.sectorBlank q ∨ keep.length < free then s
  else
    let s := s.each (keep.take free) fun b s => s.copyForward b
    (s.eraseSector q).each (keep.drop free) fun b s => s.copyForward b

/-- R69, R70: the waiting record is programmed at the next page. -/
def execWearLogAppend (dt : Nat) (s : State) : Host.Outcome State Fault Refusal :=
  let s := s.elapse dt
  match s.emg.logQueue with
  | [] => done s
  | r :: rest =>
    let written := r.type == 3 && decide (s.emg.summary = some r.payload)
    let s := { s with emg := { s.emg with logQueue := rest, summary := if written then none else s.emg.summary } }
    done (s.makeRoom.programRecord r.type s.ns r.payload)

/-- At each E3 the head of the log is found, the boot records are counted, and the journal count of R70 starts from the journal
records after the newest ageing record (R69, R70, R73). -/
def State.logScanned (s : State) (l : List (Nat × Nat × Nat)) : State :=
  let newestAge := ((newestPage (l.filter fun x => x.2.2 == 2)).map (·.1)).getD 0
  let after := (l.filter fun x => x.2.2 != 2 && decide (newestAge < x.1)).length
  let s := s.wrN Reg.EMG_BOOTS (l.filter fun x => x.2.2 == 1).length
  let times := List.replicate after (s.ns : Int)
  match newestPage l with
  | none => { (s.wrN Reg.EMG_LOG_HEAD 0) with emg := { s.emg with logNext := 0, journalTimes := times } }
  | some h =>
    let s := s.wrN Reg.EMG_LOG_HEAD h.1
    { s with emg := { s.emg with logNext := s.nextPage h.2.1, journalTimes := times } }

/-- The scan at E3: the wear log is on port A where a flash answers there, otherwise on port B, and its valid pages are counted
(R69, R73). -/
def State.scanLog (s : State) (answersA : Bool) : State :=
  let s := { s with emg := { s.emg with logPort := if answersA then 0 else 1 } }
  s.logScanned s.logPages

/-- The record that EMG_LOG_SEL shows, counted back from the head; zeros where it does not exist (R73). -/
def State.logWindow (s : State) : List Byte :=
  let want := s.rdN Reg.EMG_LOG_HEAD - s.fld Reg.EMG_LOG_SEL 12 0
  match s.logPages.find? (fun x => x.1 == want && decide (s.fld Reg.EMG_LOG_SEL 12 0 ≤ s.rdN Reg.EMG_LOG_HEAD)) with
  | some x => s.page x.2.1
  | none => List.replicate 256 0

/-! ## The load of the chosen image -/

/-- HALTED (R63). -/
def State.halt (s : State) : State := s.enterPhase 10

/-- An image is chosen: claim where the unit is unclaimed, then load every section and leave E3 (R53, R59). A unit whose image has
no twin section is not in a pair, and is U0 whatever its identity section says (R4). EMG_FAIL keeps what
a newer copy that was passed over left there. R59 says that the device "then" blows the fuses and goes on with that copy: the
model blows them once the copy has passed every check of R53, so that no rejected copy claims a unit. DESIGN CHOICE
(log 49). -/
def State.loadImage (s : State) (h : CopyHeader) : State :=
  let s := s.when (!s.fuses.claimLock) fun s => s.claimKey (signatureOf (s.flash h.port) h).pubkey
  let s := s.each (sectionsOf (s.flash h.port) h).1 fun c s => s.loadSection c
  let s := s.when (!s.paired) fun s => s.setFld Reg.IDN_UNIT 0 0 0
  let s := s.setBit Reg.TWN_STATUS 29 (decide (s.unitNo = 1))
  let s := s.wrN Reg.EMG_IMAGE (s.fuses.count * 65536 + h.rollback * 256 + 2 * h.copy + h.port)
  let name := flashBytes (s.flash h.port) (copyBase h.copy + 0x20) 32
  let s := s.each (List.range 8) fun i s => s.wrN (Reg.IDN_NAME i) (leNat ((name.drop (4 * i)).take 4))
  let s := s.wr64 Reg.EMG_SEQ_LO h.sequence
  { s with emg := { s.emg with
      imageLoaded := true, running := some (h.port, h.copy), rollbackCommit := h.commit } }

/-! ## FLASH sessions (R66 to R68) -/

/-- FLASH is allowed in HALTED for any copy, and while LIVE with FLASH_LIVE for a copy that is not running (R67). -/
def State.flashAllowed (s : State) (port copy : Nat) : Bool :=
  s.halted || (s.live && s.emg.flashLive && decide (s.emg.running ≠ some (port, copy)))

/-- R66: OPEN names a port and a copy; the copy is erased sector by sector as it is written. -/
def execFlashOpen (dt : Nat) (m : BeaconMsg) (port copy : Fin 2) (s : State) : Host.Outcome State Fault Refusal :=
  done ((s.elapse dt).request m 5 fun s =>
    if !s.flashAllowed port copy then s.respond m 3 []
    else if s.emg.session.isSome then s.respond m 6 []
    else
      let s := { s with emg := { s.emg with session := some ⟨port, copy, 0, []⟩ } }
      s.respond m 0 [0])

/-- One data message: sectors are erased before their first write, the first 4 KiB are held (R66). -/
def State.flashData (s : State) (f : FlashSession) (data : List Byte) : State :=
  let base := copyBase f.copy
  let from_ := if f.next = 0 then 0 else (f.next + 65535) / 65536 * 65536
  let to_ := (f.next + data.length + 65535) / 65536 * 65536
  let mem := flashErase (s.flash f.port) (base + from_) (to_ - from_)
  let inHead := data.take (4096 - f.next)
  let rest := data.drop (4096 - f.next)
  let mem := flashProgram mem (base + max f.next 4096) rest
  let s := s.setFlash f.port mem
  let f' : FlashSession := ⟨f.port, f.copy, f.next + data.length, f.held ++ inHead⟩
  { s with emg := { s.emg with session := some f' } }

/-- R66: DATA is contiguous and ascending, at most 1,024 bytes; a write out of sequence or beyond 31 MiB aborts. -/
def execFlashData (dt : Nat) (m : BeaconMsg) (offset : Nat) (data : List Byte) (s : State) :
    Host.Outcome State Fault Refusal :=
  done ((s.elapse dt).request m 5 fun s =>
    match s.emg.session with
    | none => s.respond m 3 []
    | some f =>
      if !s.flashAllowed f.port f.copy then s.respond m 3 []
      else if data = [] ∨ 1024 < data.length then s.respond m 4 []
      else if offset ≠ f.next ∨ 32505856 < offset + data.length then (s.abortSession f).respond m 5 (beBytes 4 (s.rdN Reg.EMG_FAIL))
      else (s.flashData f data).respond m 0 [0])

/-- What is wrong with a copy just written: cause, section, offset; 2 where it has no valid header (R63, R66). -/
def commitFault (f : Fuses) (m : List Host.Cell) (port copy : Nat) : Option (Nat × Nat × Nat) :=
  match readHeader m port copy with
  | none => some (2, 0, 0)
  | some h => copyFault f m h

/-- R66, R63: COMMIT programs the first 4 KiB, reads the copy back and validates it; a success in HALTED restarts at
E3. -/
def execFlashCommit (dt : Nat) (m : BeaconMsg) (s : State) : Host.Outcome State Fault Refusal :=
  done ((s.elapse dt).request m 5 fun s =>
    match s.emg.session with
    | none => s.respond m 3 []
    | some f =>
     if !s.flashAllowed f.port f.copy then s.respond m 3 [] else
      let mem := flashProgram (s.flash f.port) (copyBase f.copy) f.held
      let s := (s.setFlash f.port mem).endSession
      match commitFault s.fuses mem f.port f.copy with
      | none =>
        let s := s.respond m 0 (beBytes 4 0)
        s.when s.halted fun s => s.startE3
      | some (c, t, o) =>
        let s := s.setFlash f.port (flashErase mem (copyBase f.copy) 65536)
        let s := s.recordFail c t o
        s.respond m 5 (beBytes 4 (s.rdN Reg.EMG_FAIL)))

def execFlashAbort (dt : Nat) (m : BeaconMsg) (s : State) : Host.Outcome State Fault Refusal :=
  done ((s.elapse dt).request m 5 fun s =>
    match s.emg.session with
    | none => s.respond m 3 []
    | some f => (s.abortSession f).respond m 0 [0])

/-- R66: 10 s without a message. -/
def execFlashSessionTimeout (dt : Nat) (s : State) : Host.Outcome State Fault Refusal :=
  let s := s.elapse dt
  match s.emg.session with
  | none => done s
  | some f => done (s.abortSession f)

/-! ## Key claim over Beacon (R60, R61) -/

/-- Draw a new claim nonce (R60). -/
def State.newNonce (s : State) : State := (s.wr64 Reg.EMG_NONCE_LO s.drawn.toNat).afterDraw

/-- R60: allowed on an unclaimed unit with no image; the signature covers the serial number and the nonce. Each attempt that
reaches this point, refused ones too, draws a new nonce. -/
def execKeyClaim (dt : Nat) (m : BeaconMsg) (s : State) : Host.Outcome State Fault Refusal :=
  done ((s.elapse dt).request m 6 fun s =>
    let msg := Config.serial ++ leBytes 8 (s.rd64 Reg.EMG_NONCE_LO)
    let s := s.newNonce
    if m.payload.length ≠ 193 then s.respond m 4 []
    else if s.fuses.claimLock ∨ !s.halted then s.respond m 3 []
    else
      let pub := m.payload.take 97
      let signed := ecdsaVerify pub ((m.payload.drop 97).take 48) (m.payload.drop 145) msg
      if !signed then s.respond m 3 []
      else if !covers s.fuses pub then (s.recordFail 9 0 0).respond m 3 []
      else (((s.claimKey pub).respond m 0 [0]).startE3))

end Sys2Proof.Machine
end

