-- ==== Sys2Proof/Machine/Groups.lean ====
section
/-! DEFINITION. The multicast groups of the flow table: which the unit is in, and the reports that join and leave them (R101,
R103). -/

namespace Sys2Proof.Machine

/-- Group and source of entry `i`, in network order. -/
def State.groupOf (s : State) (i : Nat) : List Nat :=
  let n := if s.bit (Reg.FT_CTRL i) 30 then 4 else 1
  (List.range n).map (fun k => s.rdN (Reg.FT_DST i k)) ++
    (if s.bit (Reg.FT_CTRL i) 29 then (List.range n).map (fun k => s.rdN (Reg.FT_SRC i k)) else [])

/-- The input of context `m` serves a channel that is enabled or not yet DISABLED. -/
def State.inputUsed (s : State) (m : Nat) : Bool :=
  allChans.any fun n => decide (s.inputOf n = m) && (s.bit (Reg.CHN_CTRL n) 0 || decide (s.chanState n ≠ 0))

/-- The flow of entry `i` is enabled (R101). DEDUCED (log 50): a valid entry whose context, or whose media entry's, serves a
channel that is enabled or still runs; an audio flow, which has no context, always. -/
def State.flowUsed (s : State) (i : Nat) : Bool :=
  let e := s.fld (Reg.FT_CTRL i) 26 24
  let j := if e = 5 ∨ e = 6 then s.fld (Reg.FT_FORMAT i) 15 0 else i
  e == 1 || e == 2 || s.inputUsed (s.fld (Reg.FT_BIND j) 30 24)

/-- Groups that enabled flows use on port `p` (R101, R103): those of IPv6 for MLD. -/
def State.groupsOn (s : State) (p : Nat) (mld : Bool) : List (List Nat) :=
  ((s.flows.filter fun i => s.bit (Reg.FT_CTRL i) (16 + p) && (s.bit (Reg.FT_CTRL i) 30 == mld) && s.flowUsed i).map
    s.groupOf).eraseDups

/-- Length L of a report over IPv6 (MLDv2) or IPv4 (IGMPv3). PRESUMED (log 52), from RFC 3376 and RFC 3810: 8 bytes and a record for each
group with its source, behind an IP header with the router alert option. -/
def reportLen (mld : Bool) (g : List (List Nat)) : Nat :=
  if mld then g.foldl (fun a x => a + if x.length = 8 then 36 else 20) 74
  else max 64 (g.foldl (fun a x => a + if x.length = 2 then 12 else 8) 50)

/-- Send a report of kind 3 (joined) or 4 (left) on every sub-port of `p` in service. -/
def State.report (s : State) (p kind : Nat) (mld : Bool) (g : List (List Nat)) : State :=
  s.each ((List.range 4).filter fun q => g ≠ [] && s.subUp p q) fun q s =>
    s.toSub p q 4 (reportLen mld g) (.reply kind p 0 g)

/-- Bring the groups of every port up to the flows now enabled: groups newly used are joined, groups no longer used are
left, IPv4 by IGMPv3 and IPv6 by MLDv2 (R101). -/
def State.syncGroups (s : State) : State :=
  s.each ((List.range 8).flatMap fun p => [(p, false), (p, true)]) fun x s =>
    let now := s.groupsOn x.1 x.2
    let was := (s.ing.joined.find? fun e => e.1 == x).elim [] (·.2)
    let s := (s.report x.1 3 x.2 (now.filter fun g => !was.contains g)).report x.1 4 x.2 (was.filter fun g => !now.contains g)
    let rest := s.ing.joined.filter fun e => e.1 != x
    { s with ing := { s.ing with joined := if now = [] then rest else rest ++ [(x, now)] } }

/-- The policers' buckets stand full at E8 (R107). -/
def State.fillBuckets (s : State) : State := { s with ing := { s.ing with buckets := [] } }

/-- E8 begins: the groups of the enabled flows are joined and every bucket is full (R47, R101, R107). -/
def State.startE8 (s : State) : State := (s.enterPhase 8).syncGroups.fillBuckets

end Sys2Proof.Machine
end

