-- ==== Sys2Proof/Machine/Flame.lean ====
section
/-! DEFINITION. The flame: words received and sent, roles, taking and losing the flame, planned handover, hold-off and
cursors (R48, R49, R298, R299, R333, R342 to R369). -/

namespace Sys2Proof.Machine

/-! ## Hold-off and status (R369, R380) -/

/-- Channel `n` has started a refresh at or after item `k`, and a GDR sweep has reached its recovery point (R369). -/
def State.refreshed (s : State) (n k : Nat) : Bool :=
  let c := s.chan n
  match c.lastRefresh with
  | none => false
  | some (l, _) => decide (k ≤ l) && (match c.sweepFrom with
    | none => true
    | some (a, len) => decide (a + len ≤ c.decided))

/-- The conditions under which U0 works towards taking the flame back (R369). -/
def State.takesBack (s : State) : Bool :=
  s.isStandby && decide (s.unitNo = 0) && s.bit Reg.TWN_CTRL 31 && s.live && !s.snuffed && s.partnerSeen &&
    s.standbyConfirmed

/-- Start, restart or end the hold-off; READY once every channel has refreshed (R369). -/
def State.tendHoldOff (s : State) : State :=
  let t := s.twin
  if !s.takesBack then { s with twin := { t with holdoffFrom := none, refreshFrom := none, ready := false } }
  else match t.refreshFrom with
    | some l =>
      if l.all fun e => s.refreshed e.1 e.2 then { s with twin := { t with refreshFrom := none, ready := true } } else s
    | none =>
      if t.ready || t.holdoffFrom.isSome then s else { s with twin := { t with holdoffFrom := some s.now } }

/-- Status of the pair as the unit now sees it: a holder that no longer hears its partner is alone (R342, R380). -/
def State.tendTwin (s : State) : State :=
  if !s.paired then s
  else
    let s := s.when s.holding fun s => s.setRole (if s.partnerSeen then .holder else .alone)
    s.tendHoldOff.twinStatus

/-! ## Taking the flame (R356, R357, R360, R362) -/

/-- The channels whose stream a flow carries or, as FEC, protects (R296, R297). -/
def State.servedChans (s : State) (i : Nat) : List Nat :=
  s.progsOf (if s.flowKind i = 3 ∨ s.flowKind i = 4 then s.fld (Reg.OF_AUX i) 15 0 else i)

/-- The flow's channels are all confirmed: it resumes from the replay store. -/
def State.flowConfirmed (s : State) (i : Nat) : Bool :=
  (s.servedChans i).all fun n => s.confirmed n && decide ((s.chan n).snap = Snap.none ∨ (s.chan n).snap = Snap.joined)

/-- Put a kept copy at the front of its flow's queue, tagged now; dropped where its sub-port is out of service. -/
def State.replayFrame (s : State) (f : QFrame) : State :=
  if !s.subUp f.port f.sub then s.bump (Reg.TMC_DROPPED f.port f.sub f.cls)
  else
    let w := max 1 (s.fld (Reg.TF_WEIGHT f.flow) 15 0)
    let last := ((s.flow f.flow).path f.blue).tag
    let tag := (tagMax (assocGet 0 s.egr.vtimes (vkey f.port f.sub f.cls)) last + f.len * 65536 / w) % 281474976710656
    let s := (s.settleCredit f.flow f.blue).modFlow f.flow fun g => g.setPath f.blue { g.path f.blue with tag := tag }
    let isOld := fun (g : QFrame) => g.replay
    let front := s.egr.queue.takeWhile isOld
    let back := s.egr.queue.dropWhile isOld
    { s with egr := { s.egr with queue := front ++ [{ f with tag := tag, replay := true }] ++ back } }

/-- Resume a flow whose channels are not all confirmed: its own count since the last cursor, plus 4,096, and a discontinuity
on every PID (R362). -/
def State.jumpFlow (s : State) (i : Nat) : State :=
  let f := s.flow i
  let start := s.fld (Reg.OF_TS i) 15 0
  let jump : Nat := match s.twin.cursors.find? (fun e => e.1 == i) with
    | none => f.jump + 4096
    | some e => ((e.2 + f.since + 4096 : Int) - start - f.formed).toNat % 4294967296
  let pids := 0 :: (s.progsOf i).flatMap fun n =>
    [s.fld (Reg.CHN_OUT_PROG n) 12 0, s.fld (Reg.CHN_OUT_PIDS n) 28 16, s.fld (Reg.CHN_OUT_PIDS n) 12 0] ++
      (s.audioPids n).map (·.1)
  s.setFlow { f with jump := jump, marks := pids }

/-- Each egress flow resumes (R356 step 5). -/
def State.resumeFlows (s : State) : State :=
  let flows := s.egr.flows.map (·.no)
  let good := flows.filter fun i => s.flowConfirmed i
  let copies := s.twin.replay.filter fun f => good.contains f.flow && s.uncovered f
  let count := ((copies.map fun f => (f.flow, f.seq)).eraseDups).length
  let s := s.each copies fun f s => s.replayFrame f
  let s := s.each (flows.filter fun i => !good.contains i) fun i s => s.jumpFlow i
  ({ s with twin := { s.twin with replay := [] } }).bump Reg.TWN_REPLAYED count

/-- A channel of the new holder (R80, R362): LIVE or DEGRADED with cause 9; one that is not confirmed marks its next item. -/
def State.chanTaken (s : State) (n : Nat) : State :=
  let loose := s.running n && !s.confirmed n
  let s := s.when loose fun s => s.modChan n fun c => { c with takeover := true }
  if s.chanState n ≠ 5 then s
  else
    let fixed := (s.chan n).items.filter fun it => it.inputFixed
    let bad := fixed.getLast?.any fun it => decide (s.degrading n it ≠ [])
    (s.setChan n (if bad then 4 else 3) 9).setBit (Reg.CHN_STATE n) 12 false

/-- Instant of the last renewal received on any path. -/
def State.lastRenewal (s : State) : Option Int := (s.twin.renewAt.filterMap id).max?

/-- Ticks of 10 ns from the renewal received at `t` to the gates' opening (R354, R359). -/
def State.takeTime (s : State) (t : Int) : Nat :=
  min (((s.now - t).toNat + Config.gateDelay s.fresh % 501) / 10) 4294967295

/-- Neither designate nor joining any longer. -/
def State.settledRole (s : State) : State := { s with twin := { s.twin with designate := false, joins := false } }

/-- Shared audio ports that run as followers are driven from their next frame sync on (R153). -/
def State.awaitSyncs (s : State) : State :=
  let shared := fun (p : Nat) (x : APort) =>
    (if s.bit (Reg.AUD_CTRL p) 29 ∧ s.paired ∧ x.phase ≠ .stopped then { x with waits := true } else x)
  { s with aud := { s.aud with ports := s.aud.ports.mapIdx shared } }

/-- The unit takes the flame (R348, R356). Cause: 0 emergence, 1 lease lapse, 2 RELEASE, 3 HANDOVER. -/
def State.takeFlame (s : State) (cause : Nat) : State :=
  let s := s.wrN Reg.TWN_EPOCH (s.epoch + 1)
  let s := s.setRole (if s.partnerSeen then .holder else .alone)
  let s := ((s.settledRole.sendEverywhere 3).setGates true).awaitSyncs
  let s := match s.lastRenewal with
    | none => s
    | some t => s.wrN Reg.TWN_LAST_TAKE (s.takeTime t)
  let s := s.freshId
  let s := s.when (decide (cause ≠ 0)) fun s =>
    let s := s.resumeFlows
    let s := s.each allChans fun n s => s.chanTaken n
    let s := s.abortSnaps
    let s := s.each allChans fun n s => s.modChan n fun c => { c with snap := .none, confirmRun := 0 }
    s.each allChans fun n s => s.setConf n false
  let s := s.when (decide (1 ≤ cause)) fun s => s.bump Reg.TWN_TAKEOVERS
  let s := s.when (decide (cause = 3)) fun s => s.bump Reg.TWN_HANDOVERS
  s.flameEvent true cause

/-! ## Becoming LIVE (R49, R62, R64) -/

/-- The gate lists of the image come into force as the unit becomes LIVE (R311, R313). -/
def State.startGates (s : State) : State :=
  s.each (List.range 8) fun p s =>
    let g := s.shadowList p
    s.when (s.bit (Reg.TMG_CTRL p) 0 && g.valid && decide ((s.gate p).oper.entries = [])) fun s => s.setGateList p g

/-- The unit becomes LIVE: registers sealed, SAFE_N high, ROLLBACK_COMMIT, and the flame for a holder-designate. A standby that no longer
hears its partner is alone, and opens its gates as it becomes LIVE (R342). -/
def State.becomeLive (s : State) : State :=
  let s := (s.enterPhase 9).setBit Reg.EMG_STATUS 8 true
  let s := (s.setBit Reg.SAF_STATUS 30 true).commitRollback
  let s := { s with plant := { s.plant with liveFrom := some s.now } }
  let s := s.startGates.loadMasks
  if !s.paired then s.setGates true
  else if s.isStandby then (if s.partnerSeen then s.tendTwin else (s.takeFlame 1).tendTwin)
  else s.takeFlame 0

/-! ## Roles at E7 (R48) -/

/-- The unit's part is decided and E7 ends. -/
def State.decideRole (s : State) (designate joins : Bool) : State :=
  let s := { s with twin := { s.twin with designate := designate, joins := joins } }
  let s := if designate then s else s.setRole .standby
  s.when (decide (s.phase = 7)) fun s => s.startE8

/-- Both units claim the same unit number (rule 3). -/
def State.sameUnit (s : State) : State :=
  (s.raise 964 (1 + 4294967296 * s.epoch)).decideRole (Config.serialLower = 1) false

/-- The partner's word decides the role at E7: it holds (rule 1), or neither does (rule 2). A STANDBY word carries no phase;
a unit sends none before its E7 (`sendsWords`), so hearing one says that the partner has reached E7 without the flame. -/
def State.agreeRole (s : State) (kind : Nat) : State :=
  if kind = 1 ∨ kind = 3 then s.decideRole false true
  else if kind = 5 then s.decideRole (decide (s.unitNo = 0)) false
  else s

/-- R48 rule 4: the three paths stayed silent for the twin-join time. -/
def execTwinJoinTimeout (dt : Nat) (s : State) : Host.Outcome State Fault Refusal :=
  let s := s.elapse dt
  if s.phase ≠ 7 then done s else done (s.decideRole true false)

/-! ## Words received (R349 to R355) -/

/-- The island holder or designate sends its seconds count when its partner is first heard (R333). -/
def State.giveSeconds (s : State) : State :=
  if s.bit Reg.TIME_CTRL 0 && !s.twin.island && (s.holding || s.twin.designate) && s.link.up then
    ({ s with twin := { s.twin with island := true } }).lanternSend (.seconds (s.ptpNow / 1000000000))
  else s

/-- A STANDBY word: status of the partner; its READY makes a holder hand over (R350, R366, R369). -/
def State.standbyWord (s : State) (aux : Nat) : State :=
  let rose := decide (aux / 4 % 2 = 1) && decide (s.twin.partnerStatus / 4 % 2 = 0)
  let s := { s with twin := { s.twin with partnerStatus := aux } }
  if rose && s.holding then (if s.handoverOk then s.startHandover else s.bump Reg.TWN_CMD_REFUSED) else s

/-- A valid word of the partner on `path`: `fresh` where its SEQ has changed, or risen (R353 to R355). -/
def State.validWord (s : State) (path kind aux epoch : Nat) (fresh : Bool) : State :=
  let mine := s.epoch
  let later := decide (0 < signed32 ((epoch : Int) - mine))
  let s := s.wrN Reg.TWN_EPOCH epoch
  let renews := (kind == 1 || kind == 3) && fresh
  let t := s.twin
  let s := { s with twin := { t with
    validAt := t.validAt.set path (some s.now),
    renewAt := if renews then t.renewAt.set path (some s.now) else t.renewAt } }
  let s := s.when (decide (s.phase = 7)) fun s => s.agreeRole kind
  let s := s.when (kind == 5) fun s => s.standbyWord aux
  let s := s.giveSeconds
  let s := s.when (s.holding && renews && later) fun s => s.dropFlame 4
  let s := s.when (s.holding && kind == 3 && !later && decide (s.unitNo = 1)) fun s => s.dropFlame 4
  let s := s.when ((kind == 2 || kind == 4) && !later && s.isStandby && s.live && !s.snuffed) fun s =>
    s.takeFlame (if kind = 2 then 2 else 3)
  s.tendTwin

/-- A flame word that has passed its CHECK or TAG (R342, R349, R353). At E7 one from a unit of the same number decides the
role by the first rule of R48 that applies: it holds (rule 1), or both claim the number (rule 3). -/
def State.flameWord (s : State) (path kind unit aux epoch seq : Nat) : State :=
  if !s.paired || decide (kind = 0 ∨ 5 < kind) || decide (s.phase < 5) || s.halted then s
  else if unit % 2 = s.unitNo then
    s.when (decide (s.phase = 7)) fun s => if kind = 1 ∨ kind = 3 then s.decideRole false true else s.sameUnit
  else if signed32 ((epoch : Int) - s.epoch) < 0 then s
  else
    let last := s.twin.lastSeq.getD path none
    let fresh : Bool := match last with
      | none => true
      | some q => if path = 2 then decide (q < seq) else decide (q ≠ seq)
    let holderWord := decide (kind ≠ 5)
    let s := { s with twin := { s.twin with
      lastSeq := if holderWord || path = 2 then s.twin.lastSeq.set path (some seq) else s.twin.lastSeq } }
    s.validWord path kind aux epoch fresh

/-- R350, R353: a FLAME set on a locked Lantern lane. -/
def execFlameSetRx (dt : Nat) (lane : Fin 8) (w : FlameWord) (s : State) : Host.Outcome State Fault Refusal :=
  let s := s.elapse dt
  if s.laneLocked lane 8 ∧ w.check = flameCheck w.kind w.unit w.aux w.epoch then
    done (s.flameWord 0 w.kind w.unit w.aux w.epoch w.aux)
  else done s

/-- R351, R353: a wick word. -/
def execWickWordRx (dt : Nat) (w : FlameWord) (s : State) : Host.Outcome State Fault Refusal :=
  let s := s.elapse dt
  if w.check = wickCheck w.kind w.unit w.aux w.epoch then
    done (s.flameWord 1 w.kind w.unit w.aux w.epoch w.aux)
  else done s

/-- The partner has been silent on all three paths for 1 s (R352). -/
def State.longSilent (s : State) : Bool :=
  s.twin.validAt.all fun v => match v with
    | none => true
    | some t => decide (t + 1000000000 ≤ s.now)

/-- R342, R352, R353: a presence beacon: MAGIC, TAG, group and pair, and a SEQ above the last one accepted. -/
def execPresenceBeaconRx (dt : Nat) (port : Fin 8) (payload : List Byte) (s : State) :
    Host.Outcome State Fault Refusal :=
  let s := s.elapse dt
  let be := fun o n => beNat ((payload.drop o).take n)
  if payload.length ≠ 40 ∨ !s.paired ∨ !s.portUp port ∨ be 0 4 ≠ 0x4C414D50 ∨
      payload.drop 0x18 ≠ beaconTag s.twin.pairKey (payload.take 0x18) then done s
  else if be 6 2 ≠ s.fld Reg.IDN_UNIT 31 16 ∨ be 8 1 ≠ s.fld Reg.IDN_UNIT 11 8 then
    done (s.raise 964 (2 + 4294967296 * s.epoch))
  else
    let seq := be 0x10 8
    let old : Bool := match s.twin.lastSeq.getD 2 none with
      | none => false
      | some q => decide (seq ≤ q) && !s.longSilent
    if old then done s
    else
      let s := s.when s.longSilent fun s => { s with twin := { s.twin with lastSeq := s.twin.lastSeq.set 2 none } }
      done (s.flameWord 2 (be 4 1) (be 5 1 % 2) (be 5 1 / 16) (be 0xC 4) seq)

/-! ## Words sent (R350 to R352) -/

/-- KIND of the unit's regular words: LEASE while it holds, STANDBY otherwise. -/
def State.wordKind (s : State) : Nat := if s.holding && !s.snuffed then 1 else 5

/-- Words are sent from E7 on by a paired unit: E7 is the phase in which the partner is found on the three paths, and R49's
example has beacons from E7 and PTP alone before it (R47). R47 says of E5 only that presence traffic may begin. DEDUCED
(log 50). -/
def State.sendsWords (s : State) : Bool := s.paired && decide (7 ≤ s.phase) && !s.halted

def execLeaseSend (dt : Nat) (s : State) : Host.Outcome State Fault Refusal :=
  let s := s.elapse dt
  if !s.sendsWords then done s else done (s.tendTwin.sendSet s.tendTwin.wordKind)

def execWickWordSend (dt : Nat) (s : State) : Host.Outcome State Fault Refusal :=
  let s := s.elapse dt
  if !s.sendsWords then done s else done (s.tendTwin.sendWick s.tendTwin.wordKind)

def execPresenceBeaconSend (dt : Nat) (s : State) : Host.Outcome State Fault Refusal :=
  let s := s.elapse dt
  if !s.sendsWords then done s else done (s.tendTwin.sendPresence s.tendTwin.wordKind)

/-! ## Lapse, handover, hold-off -/

/-- R342, R354: no renewal for 18 µs on any path; a LIVE standby that is not snuffed takes the flame, one that has never had a renewal
where it is alone; a holder that hears no valid word is alone. -/
def execLeaseLapse (dt : Nat) (s : State) : Host.Outcome State Fault Refusal :=
  let s := s.elapse dt
  let silent := (List.range 3).all fun p => !s.pathAlive p
  if s.paired && s.isStandby && s.live && !s.snuffed && silent && (s.lastRenewal.isSome || !s.partnerSeen) then
    done (s.takeFlame 1).tendTwin
  else done s.tendTwin

/-- A host's request for a planned handover (R366). -/
def State.requestHandover (s : State) : State :=
  if s.handoverOk then s.startHandover.setBit Reg.TWN_CMD 31 true else s.bump Reg.TWN_CMD_REFUSED

/-- R366, R380: a live write of TWN_CMD.HANDOVER as 1. -/
def execTwnCmdHandover (dt : Nat) (s : State) : Host.Outcome State Fault Refusal :=
  let s := s.elapse dt
  if !s.mayWrite Reg.TWN_CMD 31 31 then done (s.when (!s.bit Reg.TWN_CMD 31) fun s => s.refuse Reg.TWN_CMD)
  else done s.requestHandover

/-- A host's request for a snapshot of every unconfirmed channel (R380). -/
def State.requestResync (s : State) : State :=
  if !s.isStandby || !s.live then s
  else
    let want := s.shadowChans.filter fun n => !s.confirmed n && decide ((s.chan n).snap = Snap.none ∨ (s.chan n).snap = Snap.joined)
    (s.each want fun n s => s.requestSnapshot n).when (want ≠ []) fun s => s.setBit Reg.TWN_CMD 30 true

/-- A write of TWN_CMD (R366, R380): a 1 in a live field is a request; a 0 asks for nothing. -/
def State.twnCmdWrite (s : State) (v : Word) : State :=
  let h := decide (fldOf v 31 31 = 1)
  let r := decide (fldOf v 30 30 = 1)
  let okH := s.mayWrite Reg.TWN_CMD 31 31
  let okR := s.mayWrite Reg.TWN_CMD 30 30
  let bad := (!okH && h != s.bit Reg.TWN_CMD 31) || (!okR && r != s.bit Reg.TWN_CMD 30)
  ((s.when (okH && h) fun s => s.requestHandover).when (okR && r) fun s => s.requestResync).when bad fun s =>
    s.refuse Reg.TWN_CMD

def execTwnCmdResync (dt : Nat) (s : State) : Host.Outcome State Fault Refusal :=
  let s := s.elapse dt
  if !s.mayWrite Reg.TWN_CMD 30 30 then done (s.when (!s.bit Reg.TWN_CMD 30) fun s => s.refuse Reg.TWN_CMD)
  else done s.requestResync

/-- Flows with an emit cursor, and the cursor. -/
def State.cursorsNow (s : State) : List (Nat × Nat) :=
  (s.egr.flows.filter fun f => decide (0 < f.left)).map fun f => (f.no, s.extSeq f.no (f.left - 1))

/-- Sample every cursor: flow, cursor, samples since it advanced (R299, R358). -/
def State.sampleCursors (s : State) : State :=
  let s := s.settleLeft
  let old := s.twin.ownCursors
  let new := s.cursorsNow.map fun e => match old.find? (fun o => o.1 == e.1) with
    | none => (e.1, e.2, 0)
    | some o => if o.2.1 = e.2 then (e.1, e.2, o.2.2 + 1) else (e.1, e.2, 0)
  { s with twin := { s.twin with ownCursors := new } }

/-- Cursor frames of at most 256 entries (R358). -/
def State.sendCursors : Nat → List (Nat × Nat) → State → State
  | 0, _, s => s
  | fuel + 1, l, s =>
    if l = [] then s else State.sendCursors fuel (l.drop 256) (s.lanternSend (.cursors (l.take 256)))

/-- R299, R358: at a whole multiple of 1,000 ns every cursor is sampled; a holder lists those advanced within the last four
samples. -/
def execCursorSample (dt : Nat) (s : State) : Host.Outcome State Fault Refusal :=
  let s := (s.elapse dt).sampleCursors
  if !s.paired || !s.holding then done s
  else
    let l := (s.twin.ownCursors.filter fun o => decide (o.2.2 < 4)).map fun o => (o.1, o.2.1)
    done (State.sendCursors (l.length + 1) l s)

/-- Dies whose retirement, and memory faults whose handling, waited for the handover (R233, R413, R447). -/
def State.retireWaiting (s : State) : State :=
  let l := s.twin.after
  ({ s with twin := { s.twin with after := [] } }).each l fun e s =>
    if e.2 < 256 then s.retireNow e.1 e.2 else s.memLost e.1

/-- R367: every frame under way has finished: final cursors, HANDOVER on every lane and on the wick lines, and the unit is
standby. -/
def execHandoverDrainDone (dt : Nat) (s : State) : Host.Outcome State Fault Refusal :=
  let s := (s.elapse dt).settleLeft
  if !s.twin.handover || !s.holding then done s.retireWaiting
  else if s.egr.leaving ≠ [] then done s
  else
    let before := s.twin.ownCursors
    let s := s.sampleCursors
    let l := (s.twin.ownCursors.filter fun o => !before.any fun b => b.1 == o.1 && b.2.1 == o.2.1).map fun o => (o.1, o.2.1)
    let s := State.sendCursors (l.length + 1) l s
    let s := (((s.sendSet 4).sendWick 4).bump Reg.TWN_HANDOVERS).dropFlame 3
    done s.retireWaiting.tendTwin

/-- The hold-off that began at `t` has run out (R369). -/
def State.heldOffFrom (s : State) (t : Int) : Bool := decide (t + 1000000000 * s.fld Reg.TWN_HOLDOFF 11 0 ≤ s.now)

/-- R369: the hold-off has run out; each channel's refresh is awaited. -/
def execHoldOffExpiry (dt : Nat) (s : State) : Host.Outcome State Fault Refusal :=
  let s := s.elapse dt
  if !(s.twin.holdoffFrom.any fun t => s.heldOffFrom t) ∨ !s.takesBack then done s.tendTwin
  else
    let l := s.shadowChans.map fun n => (n, (s.chan n).decided)
    done ({ s with twin := { s.twin with holdoffFrom := none, refreshFrom := some l } }).tendTwin

end Sys2Proof.Machine
end

