-- ==== Sys2Proof/Machine/Audio.lean ====
section
/-! DEFINITION. The serial audio ports, their AES3 receivers and transmitters, and the word clock (R130 to R156). -/

namespace Sys2Proof.Machine

/-! ## What a port is -/

def State.aesOut (s : State) (p : Nat) : Bool := decide (s.audMode p = 2) && s.audOut p
def State.aesIn (s : State) (p : Nat) : Bool := decide (s.audMode p = 2) && !s.audOut p

/-- A shared port that the partner drives: this unit runs it as a follower, and a unit that has taken the flame until its first
frame sync after that (R153). -/
def State.audFollows (s : State) (p : Nat) : Bool :=
  s.bit (Reg.AUD_CTRL p) 29 && s.paired && (!s.holding || (s.aport p).waits)

/-- The port is to run: ENABLE, and a word clock (R145, R149). -/
def State.audWanted (s : State) (p : Nat) : Bool :=
  s.bit (Reg.AUD_CTRL p) 31 && !(s.bit Reg.AUD_WC_CTRL 0 && s.aud.lost)

/-- AUD_STATUS.RUN (R155). -/
def State.audRun (s : State) (p : Nat) : Nat :=
  match (s.aport p).phase with
  | .stopped => 0
  | .pre => if s.audFollows p then 4 else 1
  | .data => if s.audFollows p then 4 else 2
  | .post => if s.audFollows p then 4 else 3

/-- AUD_WC_STATUS.STATE (R149, R156). -/
def State.wcState (s : State) : Nat :=
  if !s.emg.imageLoaded then 0
  else if !s.bit Reg.AUD_WC_CTRL 0 then 3
  else if s.aud.flywheel then 2
  else if s.aud.fallback then 4
  else if s.aud.lost then 0
  else 1

/-- Frame period in thirds of a nanosecond at 48 and 96 kHz. -/
def framePeriod3 (fast : Bool) : Nat := if fast then 31250 else 62500

/-! ## Slot masks (R140, R141) -/

/-- Take the mask staged by writes that completed before this sync (R16, R141). -/
def State.takeMask (s : State) (p : Nat) : State :=
  let now := s.now
  s.modAport p fun x =>
    let due := x.staged.filter fun e => decide (e.2 < now)
    { x with mask := (due.getLast?.map (·.1)).getD x.mask, staged := x.staged.filter fun e => !decide (e.2 < now) }

/-- The enabled output slots are attached to their buffers, the others detached (R140). -/
def State.syncSlots (s : State) (p : Nat) : State :=
  let n := s.audSlots p
  let m := (s.aport p).mask
  s.each (List.range 16) fun i s =>
    if s.audOut p && decide (i < n) && m.testBit i then s.attach (s.audBuf p i) (16 * p + i)
    else s.detach (s.audBuf p i) (16 * p + i)

/-! ## Frames sent (R131, R137, R144) -/

/-- A frame leaves an output port that this unit drives; while the unit is snuffed its pins hold their value (R154). -/
def State.emitAudio (s : State) (p : Nat) (ws : List Nat) : State :=
  s.when (s.audOut p && !s.audFollows p && !s.snuffed) fun s => s.send (.audio p ws)

/-- The 24 channel-status bytes of a subframe, byte 23 replaced by the CRCC (R143, R144). -/
def State.csBytes (s : State) (p sub : Nat) : List Byte :=
  let a := fun (i : Nat) => if sub = 0 then Reg.AUD_CS_TX_A p i else Reg.AUD_CS_TX_B p i
  let l := ((List.range 6).flatMap fun i => leBytes 4 (s.rdN (a i))).take 23
  l ++ [BitVec.ofNat 8 (crcOf crc8Aes3Params l)]

/-- Even parity over the 24 audio bits, V, U and C of a subframe, as the bit that makes it (R144). -/
def aesParity (w : Nat) : Nat :=
  ((List.range 32).filter fun i => w.testBit i && (decide (8 ≤ i) || decide (1 ≤ i ∧ i ≤ 3))).length % 2

/-- A subframe's word as sent: as R135 lays it out, with the parity bit in [4]. -/
def aesOutWord (w : Nat) : Nat := w + 16 * aesParity w

/-- An AES3 frame: each subframe's word with whether it repeats a sample; in a roll `data` is false (R144, R145). With CS_SRC = 1 the
words count as carrying no Z once 192 frames, a block, have passed since the last Z; R144 does not say when. DESIGN CHOICE
(log 50). -/
def State.aesFrame (s : State) (p : Nat) (ws : List (Word × Bool)) (data : Bool) : State :=
  let w := fun (i : Nat) => (ws.getD i (0, false)).1.toNat
  let own := data && s.bit (Reg.AUD_CTRL p) 28
  let z := own && (w 0).testBit 0
  let x := s.aport p
  let f := if z then 0 else x.frame
  let cs := if f = 0 then s.csBytes p 0 ++ s.csBytes p 1 else x.csTx
  let gap := if z then some 0 else if own then x.zGap.map (· + 1) else none
  let words := match gap with
    | some g => decide (g < 192)
    | none => false
  let out := fun (i : Nat) =>
    let v := (ws.getD i (0, false)).2 || (data && (w i).testBit 3)
    let c := if words then (w i).testBit 1 else (cs.getD (24 * i + f / 8) 0).getLsbD (f % 8)
    let u := if words then (w i).testBit 2 else data && Config.userBit (2 * s.fresh + i)
    aesOutWord (w i / 256 * 256 + 8 * b2n v + 4 * b2n u + 2 * b2n c + b2n (decide (i = 0 ∧ f = 0)))
  let s := s.modAport p fun y => { y with frame := (f + 1) % 192, csTx := cs, zGap := gap }
  (s.freshId).emitAudio p [out 0, out 1]

/-- A frame of a pre-roll or post-roll: zeros (R145). -/
def State.rollFrame (s : State) (p : Nat) : State :=
  if !s.audOut p then s
  else if s.audMode p = 2 then s.aesFrame p [(0, false), (0, false)] false
  else s.emitAudio p (List.replicate (s.audSlots p) 0)

/-- The words of an output frame, with whether each repeats the sample before (R136, R137, R140). -/
def State.readSlots (s : State) (p : Nat) : State × List (Word × Bool) :=
  let m := (s.aport p).mask
  (List.range (s.audSlots p)).foldl (fun (acc : State × List (Word × Bool)) i =>
    if m.testBit i then
      let (t, w, rep) := acc.1.audioRead (s.audBuf p i) (16 * p + i) (s.fld (Reg.AUD_LAT p) 12 0)
      (t, acc.2 ++ [(w, rep)])
    else (acc.1, acc.2 ++ [(0, false)])) (s, [])

/-- A data frame (R131, R135, R145): `ins` holds what an I²S or TDM input captured in its slots. -/
def State.dataFrame (s : State) (p : Nat) (ins : List Word) : State :=
  let s := (s.modAport p fun x => { x with phase := .data }).syncSlots p
  if s.audOut p then
    let (s, ws) := s.readSlots p
    if s.audMode p = 2 then s.aesFrame p ws true
    else s.emitAudio p (ws.map fun x => x.1.toNat / 256 * 256)
  else if s.audMode p = 2 then s
  else
    let now := s.now
    s.each ((List.range (s.audSlots p)).filter fun i => (s.aport p).mask.testBit i) fun i s =>
      s.audioWrite (s.audBuf p i) (BitVec.ofNat 32 ((ins.getD i 0).toNat / 256 * 256)) now

/-! ## Starting and stopping (R145, R146, R151, R153) -/

/-- A port starts at this sync: a follower needs no pre-roll. An AES3 receiver begins its block count anew, and so has no lock until two
Z preambles after the start, also one that locked while its port stood stopped; R142 says nothing of that. DESIGN CHOICE (log 39). -/
def State.startPort (s : State) (p : Nat) (ins : List Word) : State :=
  let pre := s.fld (Reg.AUD_PREROLL p) 12 0
  let s := (s.bump (Reg.AUD_STARTS p)).modAport p fun x =>
    { x with frame := 0, zGap := none, csBits := [[], []], restart := false, stopAt := none }
  let s := s.when (s.aesIn p) fun s => s.setBit (Reg.AUD_STATUS p) 8 false
  if s.audFollows p || decide (pre = 0) then s.dataFrame p ins
  else (s.modAport p fun x => { x with phase := .pre, left := pre - 1 }).rollFrame p

/-- BCLK, FS and DATA go low; the port is detached. -/
def State.stopPort (s : State) (p : Nat) : State :=
  let now := s.now
  let s := (s.detachPort p).setBit (Reg.AUD_STATUS p) 8 false
  (s.modAport p fun x => { x with phase := .stopped, restart := false, stopAt := if x.restart then some now else none
    }).endFlywheel

/-- A frame of the post-roll, or its end; an AES3 output goes on to the end of its block. -/
def State.postFrame (s : State) (p : Nat) : State :=
  let x := s.aport p
  if x.left = 0 ∧ (!s.aesOut p || decide (x.frame = 0)) then s.stopPort p
  else (s.modAport p fun x => { x with left := x.left - 1 }).rollFrame p

/-- The post-roll begins at this sync. -/
def State.startPost (s : State) (p : Nat) : State :=
  let post := s.fld (Reg.AUD_PREROLL p) 28 16
  (s.modAport p fun x => { x with phase := .post, left := post }).postFrame p

/-- A silent restart leaves the pins low for at least one frame period (R146). -/
def State.gapOver (s : State) (p : Nat) : Bool :=
  match (s.aport p).stopAt with
  | none => true
  | some t => decide (t + framePeriod3 (s.bit (Reg.AUD_CTRL p) 8) / 3 ≤ s.now)

/-- The frame of port `p` that opens at this sync. -/
def State.frameSync (s : State) (p : Nat) (ins : List Word) : State :=
  let s := s.when (!s.aesIn p) fun s => s.takeMask p
  let x := s.aport p
  let go := s.audWanted p && !x.restart
  match x.phase with
  | .stopped => if s.audWanted p && s.gapOver p then s.startPort p ins else s
  | .pre =>
    if !go then s.startPost p
    else if x.left = 0 then s.dataFrame p ins
    else (s.modAport p fun y => { y with left := y.left - 1 }).rollFrame p
  | .data => if go then s.dataFrame p ins else s.startPost p
  | .post => s.postFrame p

/-- Every running port makes a silent restart. -/
def State.restartPorts (s : State) : State :=
  let f := fun (x : APort) => if x.phase = .stopped then { x with grid := none } else { x with restart := true, grid := none }
  { s with aud := { s.aud with ports := s.aud.ports.map f } }

/-- R149: good WCLK_IN edges are back within FLYWHEEL, `err` ns from the flywheel's phase. The frame period, of which an eighth is the
limit, is that of WC_RATE: R149 does not say which rate where the ports' differ. DESIGN CHOICE (log 50). -/
def State.edgesBack (s : State) (err : Int) : State :=
  if !s.aud.flywheel || s.aud.fallback || s.aud.lost then s
  else
    let s := { s with aud := { s.aud with flywheel := false } }
    s.when (decide (framePeriod3 (s.bit Reg.AUD_WC_CTRL 1) < 24 * err.natAbs)) State.restartPorts

/-- Number, on the grid of 1 ÷ fs of PTP-visible time, of the latest instant of a synthesised frame sync (R147), with the fraction of
the DTC. -/
def State.syncGrid (s : State) (p : Nat) : Int :=
  ((s.clk.dtc : Int) + s.clk.doff * 4294967296) * (if s.bit (Reg.AUD_CTRL p) 8 then 96000 else 48000) / 4294967296000000000

/-- A 96 kHz port on a 48 kHz input: `grid` holds the instant of the last edge; a sync within three quarters of the input's period of it
is the one inserted midway, and any other is the next edge. -/
def State.midwaySync (s : State) (p : Nat) : State × Bool :=
  let x := s.aport p
  let now := s.now
  let mid := x.grid.any fun t => decide (now < t + 15625)
  if mid then (s.modAport p fun x => { x with skip := true }, !x.skip && x.grid.all fun t => decide (t + 5208 ≤ now))
  else (s.modAport p fun x => { x with grid := some now, skip := false }, true)

/-- A sync of the word clock at port `p` (R147). On the synthesised clock it is the grid's latest instant, once; on WCLK_IN a
48 kHz port takes every second edge of a 96 kHz input, counted from the first after it starts, and a 96 kHz port takes each edge of a
48 kHz input and, midway to the next one, the sync that the device inserts, once: at a quarter of the input's period after the edge or
later. A follower takes every sync that it receives. Answers the state, and whether the port takes the sync. -/
def State.takeSync (s : State) (p : Nat) : State × Bool :=
  let x := s.aport p
  if s.audFollows p && !x.waits then (s, true)
  else if s.wcState = 3 ∨ s.wcState = 4 then
    (s.modAport p fun x => { x with grid := some (s.syncGrid p), skip := false }, decide (x.grid ≠ some (s.syncGrid p)))
  else if s.bit Reg.AUD_WC_CTRL 1 && !s.bit (Reg.AUD_CTRL p) 8 then
    (s.modAport p fun x => { x with skip := !x.skip && decide (x.phase ≠ .stopped ∨ s.audWanted p), grid := none }, !x.skip)
  else if !s.bit Reg.AUD_WC_CTRL 1 && s.bit (Reg.AUD_CTRL p) 8 then s.midwaySync p
  else (s.modAport p fun x => { x with grid := none, skip := false }, true)

/-- R130 to R154: a frame sync of port `p`. `ins` is what its slots bring in the frame that opens; `edge` is given where the
sync is a good WCLK_IN edge after edges were missing or ignored: its phase error in ns. -/
def execAudioFrameSync (dt : Nat) (p : Fin 16) (ins : List Word) (edge : Option Int) (s : State) :
    Host.Outcome State Fault Refusal :=
  let s := s.elapse dt
  let s := match edge with
    | some e => s.edgesBack e
    | none => s
  if !s.live || !s.dieOk (p.val / 2) then done s
  else
    let (s, taken) := s.takeSync p
    let s := s.when taken fun s => s.modAport p fun x => { x with waits := false }
    done (s.when taken fun s => s.frameSync p ins)

/-! ## AES3 input (R142, R143) -/

/-- Bits to bytes, the first bit lowest. -/
def bytesOfBits (l : List Bool) : List Byte :=
  (List.range (l.length / 8)).map fun i =>
    BitVec.ofNat 8 ((List.range 8).foldl (fun a k => a + 2 ^ k * b2n (l.getD (8 * i + k) false)) 0)

/-- The word in 6 registers of channel status. -/
def wordsOfBytes (l : List Byte) : List Nat := (List.range (l.length / 4)).map fun i => leNat ((l.drop (4 * i)).take 4)

/-- The end of a block of subframe `sub` (R143). -/
def State.blockEnd (s : State) (p sub : Nat) : State :=
  let l := bytesOfBits ((s.aport p).csBits.getD sub [])
  let ok := decide (crcOf crc8Aes3Params (l.take 23) = (l.getD 23 0).toNat)
  let s := s.setBit (Reg.AUD_STATUS p) 9 ok
  if ok then
    s.each ((wordsOfBytes l).zipIdx) fun e s =>
      s.wrN (if sub = 0 then Reg.AUD_CS_RX_A p e.2 else Reg.AUD_CS_RX_B p e.2) e.1
  else s.bump (Reg.AUD_CRCC_ERR p)

/-- The block count at a frame of the receiver: lock after two Z preambles 192 frames apart. -/
def State.blockCount (s : State) (p : Nat) (z : Bool) : State :=
  let x := s.aport p
  if z then
    let s := match x.zGap with
      | none => s
      | some g => if g = 191 then s.setBit (Reg.AUD_STATUS p) 8 true else s.bump (Reg.AUD_BLOCK_RESYNC p)
    s.modAport p fun y => { y with zGap := some 0, csBits := [[], []] }
  else s.modAport p fun y => { y with zGap := y.zGap.map (· + 1) }

/-- The word that a received subframe stores: the last good one in place of a bad one. -/
def aesWord (x : Aes3Sub) (last : Word) (z : Bool) : Word :=
  let w := if x.good then 256 * (x.sample % 16777216) + 8 * b2n x.v + 4 * b2n x.u + 2 * b2n x.c else last.toNat / 2 * 2
  BitVec.ofNat 32 (w + b2n z)

/-- One received subframe. -/
def State.aesSub (s : State) (p i : Nat) (x : Aes3Sub) (z : Bool) : State :=
  let w := aesWord x ((s.aport p).lastGood.getD i 0) (z && decide (i = 0))
  let s := s.when x.good fun s => s.modAport p fun y => { y with lastGood := y.lastGood.set i w }
  let s := s.when (x.good && x.v) fun s => s.bump (Reg.AUD_VALIDITY p)
  let c := w.getLsbD 1
  let s := s.modAport p fun y => { y with csBits := y.csBits.modify i fun l => l ++ [c] }
  let locked := s.bit (Reg.AUD_STATUS p) 8
  let y := s.aport p
  let full := decide ((y.csBits.getD i []).length = 192)
  let s := s.when (locked && full) fun s => s.blockEnd p i
  let now := s.now
  s.when (locked && decide (y.phase = .data) && y.mask.testBit i) fun s => s.audioWrite (s.audBuf p i) w now

/-- R142: a frame of an AES3 input. -/
def execAes3FrameRx (dt : Nat) (p : Fin 16) (f : Aes3Frame) (s : State) : Host.Outcome State Fault Refusal :=
  let s := s.elapse dt
  if !s.live || !s.dieOk (p.val / 2) || !s.aesIn p || !s.bit (Reg.AUD_CTRL p) 31 then done s
  else
    let s := ((s.takeMask p).blockCount p f.z).when (f.subs.any fun x => !x.good) fun s => s.bump (Reg.AUD_PARITY_ERR p)
    done (s.each ((f.subs.take 2).zipIdx) fun e s => s.aesSub p e.2 e.1 f.z)

/-! ## The word clock (R147 to R150): WCLK_IN is monitored whatever the source; the ports act on it while SRC = 1 -/

/-- A fault of WCLK_IN: its flag in AUD_WC_STATUS, and it is not qualified. -/
def State.wclkFault (s : State) (bit : Nat) : State :=
  (s.setBit Reg.AUD_WC_STATUS bit true).setBit Reg.AUD_WC_STATUS 8 false

/-- The ports run on WCLK_IN. -/
def State.onWclk (s : State) : Bool := s.bit Reg.AUD_WC_CTRL 0 && !s.aud.fallback && !s.aud.lost

/-- The word clock changes its source: to synthesis (`back`), once the ports' post-rolls on the flywheel are over, or to
WCLK_IN (R149, R150). -/
def State.switchClock (s : State) (back : Bool) : State :=
  let s := { s with aud := { s.aud with flywheel := back, fallback := back } }
  (s.restartPorts.endFlywheel.bump Reg.AUD_WC_SWITCHES).audioEvent 3 0 65535

/-- A rate change, or a stop that outlasts the flywheel (R149). -/
def State.wclkLost (s : State) : State :=
  if !s.onWclk then s
  else if s.bit Reg.AUD_WC_CTRL 23 then s.switchClock true
  else ({ s with aud := { s.aud with flywheel := true, lost := true } }).endFlywheel

/-- The PLL flywheels. -/
def State.startFlywheel (s : State) : State :=
  s.when s.onWclk fun s => { s with aud := { s.aud with flywheel := true } }

/-- R148: no rising edge for two nominal periods. -/
def execWclkStop (dt : Nat) (s : State) : Host.Outcome State Fault Refusal :=
  done (((s.elapse dt).wclkFault 9).startFlywheel)

/-- R148: a period outside the nominal one ±5 %. -/
def execWclkGlitch (dt : Nat) (s : State) : Host.Outcome State Fault Refusal :=
  done ((((s.elapse dt).wclkFault 10).bump Reg.AUD_WC_GLITCHES).startFlywheel)

/-- R148: a 10 ms frequency estimate, in 0.1 ppm; a fault where it is more than 500 ppm from the nominal rate. -/
def execWclkRateChange (dt : Nat) (estimate : Int) (s : State) : Host.Outcome State Fault Refusal :=
  let s := (s.elapse dt).wrI Reg.AUD_WC_FREQ estimate
  if 5000 < estimate.natAbs then done (s.wclkFault 11).wclkLost else done s

/-- R149: FLYWHEEL has passed and WCLK_IN has not returned. -/
def execFlywheelExpiry (dt : Nat) (s : State) : Host.Outcome State Fault Refusal :=
  let s := s.elapse dt
  if s.aud.flywheel then done s.wclkLost else done s

/-- R148, R150: WCLK_IN has run for QUAL without a fault, `estimate` 0.1 ppm from nominal. -/
def execWclkQualified (dt : Nat) (estimate : Int) (s : State) : Host.Outcome State Fault Refusal :=
  let s := ((s.elapse dt).setFld Reg.AUD_WC_STATUS 11 8 1).wrI Reg.AUD_WC_FREQ estimate
  let s := { s with aud := { s.aud with flywheel := false, lost := false } }
  done (s.when (s.aud.fallback && s.bit Reg.AUD_WC_CTRL 24) fun s => s.switchClock false)

end Sys2Proof.Machine
end

