-- ==== Sys2Proof/Machine/Package.lean ====
section
/-! DEFINITION. The package: ball names and regions, ball groups, the rails with their ranges and currents, heat (R519 to R529).
Levels are in µV, currents in 10 mA, powers in mW. -/

namespace Sys2Proof.Machine

/-! ## Balls (R520, R521) -/

/-- The 19 letters of row names. -/
def rowLetters : List String :=
  ["A", "B", "C", "D", "E", "F", "G", "H", "J", "K", "L", "M", "N", "P", "T", "U", "V", "W", "Y"]

/-- Name of row `i`, 1 to 79 (R520). -/
def rowName (i : Nat) : String :=
  if i ≤ 19 then rowLetters.getD (i - 1) "" else rowLetters.getD ((i - 20) / 19) "" ++ rowLetters.getD ((i - 20) % 19) ""

/-- Regions of the grid (R521). -/
inductive BallRegion where
  | top | bottom | left | right | centre
deriving DecidableEq, Repr

/-- Region of the ball in a row and a column: rows A to P are 1 to 14, CJ to DC 66 to 79. -/
def ballRegion (row col : Nat) : BallRegion :=
  if row ≤ 14 then .top else if 66 ≤ row then .bottom else if col ≤ 14 then .left else if 66 ≤ col then .right else .centre

/-- Balls of a region. -/
def regionBalls : BallRegion → Nat
  | .top => 1106 | .bottom => 1106 | .left => 714 | .right => 714 | .centre => 2601

/-- Ball groups: name and number of balls. -/
def ballGroups : List (String × Nat) :=
  [("Network lanes", 256), ("Lantern lanes", 32), ("Management lane", 4), ("Reference clocks", 4), ("Wick lines", 4),
    ("GDDR7", 1136), ("Core sense", 16), ("Serial audio", 48), ("Time and word clock", 4), ("xSPI", 24),
    ("Board control", 7), ("Status and reset", 5), ("JTAG", 5), ("Reserved", 24), ("Power", 1472), ("Ground", 3200)]

/-! ## Rails (R43, R523 to R526) -/

/-- Operating ranges: VIO has one for each board level (R524). -/
def railRanges : Rail → List (Nat × Nat)
  | .vsd => [(825000, 875000)]
  | .vsh => [(1164000, 1236000)]
  | .vgio => [(1067000, 1133000)]
  | .vaux => [(1710000, 1890000)]
  | .vio => [(1710000, 1890000), (3135000, 3465000)]

/-- A level within the rail's operating range; a VIO between its two does not meet R43 (R524). -/
def railInRange (r : Rail) (uv : Nat) : Bool := (railRanges r).any fun x => decide (x.1 ≤ uv) && decide (uv ≤ x.2)

/-- Every rail beside VCOREd is at a level within its range. -/
def railsInRange (l : List (Rail × Nat)) : Bool :=
  [Rail.vsd, .vsh, .vgio, .vaux, .vio].all fun r => l.any fun e => e.1 == r && railInRange r e.2

/-- Operating range of a VCOREd before the device has set it: the regulator's own 0.62 to 0.86 V (R475, R524), 3 % either way.
DEDUCED (log 53). -/
def vcoreInRange (uv : Nat) : Bool := decide (601400 ≤ uv) && decide (uv ≤ 885800)

/-- Largest level of each rail without damage; VCOREd as VSD (R523). -/
def railMax : Rail → Nat
  | .vsd => 1000000 | .vsh => 1450000 | .vgio => 1350000 | .vaux => 2150000 | .vio => 3800000

/-- Maximum, typical and idle current of each rail (R525). -/
def railCurrents : Rail → Nat × Nat × Nat
  | .vsd => (2800, 2000, 300)
  | .vsh => (700, 500, 50)
  | .vgio => (4400, 3000, 200)
  | .vaux => (250, 150, 100)
  | .vio => (100, 50, 5)

/-- The same of one VCOREd. -/
def vcoreCurrents : Nat × Nat × Nat := (8500, 5840, 400)

/-- Typical package power: eight VCOREd at 0.75 V and the rails at their typical levels (R525). -/
def typicalPower : Nat :=
  (8 * 750 * vcoreCurrents.2.1 + 850 * (railCurrents .vsd).2.1 + 1200 * (railCurrents .vsh).2.1 +
    1100 * (railCurrents .vgio).2.1 + 1800 * (railCurrents .vaux).2.1 + 1800 * (railCurrents .vio).2.1) / 100

/-- The package never draws more than 520 W under an admitted mix (R526). -/
def powerLimit : Nat := 520000

/-! ## Heat (R528) -/

/-- Highest temperature of the lid's centre at a package power, in m°C. -/
def lidLimit (mw : Nat) : Nat := 105000 - 50 * mw / 1000

/-! ## xSPI (R533) -/

/-- Highest flash clock in MHz by the level of VIO. -/
def flashClock (vio : Nat) : Nat := if vio ≤ 1890000 then 200 else 100

end Sys2Proof.Machine
end

