-- ==== Sys2Proof/Machine/Time.lean ====
section
/-! DEFINITION. Device time, PTP, PPS, island mode and the reference clocks (R320 to R341). -/

namespace Sys2Proof.Machine

/-! ## Shared operations -/

def State.timeState (s : State) : Nat := s.fld Reg.TIME_STATUS 2 0
def State.island (s : State) : Bool := s.bit Reg.TIME_CTRL 0

/-- A change of the time state raises source 1008 (R339). -/
def State.setTime (s : State) (st : Nat) : State :=
  if s.timeState = st then s else (s.setFld Reg.TIME_STATUS 2 0 st).raiseT 1008 st

/-- E6 ends: E7, which a unit with no twin section skips (R47). Voltage raises still to be made come first, so that they
precede E8 (R475). DEDUCED (log 53): the wait is spent in E6. -/
def State.endE6 (s : State) : State :=
  s.when (decide (s.phase = 6)) fun s =>
    if s.avsRaises then { s with emg := { s.emg with e6Over := true } }
    else if s.emg.hasTwin then s.enterPhase 7 else s.startE8

/-- The last raise has been made or given up: an E6 that waited for it ends. -/
def State.afterRaises (s : State) : State := if s.emg.e6Over && decide (s.phase = 6) then s.endE6 else s

/-- `a / n` rounded to the nearest whole number, halves away from zero (R329). -/
def roundHalfAway (a : Int) (n : Nat) : Int :=
  if 0 ≤ a then (2 * a + n) / (2 * n) else -((2 * (-a) + n) / (2 * n))

/-- Saturation to a signed 32-bit value. -/
def sat32 (x : Int) : Int := clipInt (-2147483647) 2147483647 x

/-- A DOFF step by `d` ns (R323, R329): counted, flagged and raised only once the unit is LIVE. Channels re-anchor at their
next control step, ports that run on the synthesised word clock restart (R151, R330). -/
def State.doffStep (s : State) (d : Int) : State :=
  let chans := s.chans.map fun c => { c with reanchor := true }
  let synth := !s.bit Reg.AUD_WC_CTRL 0 || s.aud.fallback
  let ports := s.aud.ports.map fun (p : APort) =>
    if p.phase = .stopped ∨ synth = false then p else { p with restart := true }
  let s := { s with clk := { s.clk with doff := s.clk.doff + d, moves := s.clk.moves + 1, movedAt := s.now }, chans := chans, aud := { s.aud with ports := ports } }
  s.when s.live fun s =>
    ((s.bump Reg.DOFF_STEPS).setBit Reg.TIME_STATUS 8 true).raiseT 1009 (sat32 d % 4294967296).toNat

/-- In lock: LOCKED or ISLAND_LOCKED. -/
def State.timeLocked (s : State) : Bool := s.timeState == 2 || s.timeState == 4

/-- The values of DTC_INC in lock with the instants from which they held, newest first, as far back as 64 s reach (R328). -/
def State.logInc (s : State) : List (Nat × Nat) :=
  let young := fun (e : Nat × Nat) => decide (s.ns < e.1 + 64000000000)
  (s.ns, s.clk.inc) :: (s.clk.incLog.takeWhile young ++ (s.clk.incLog.dropWhile young).take 1)

/-- DTC_INC from the servo: nominal, integrator, and the slewing part held within PTP_SLEW; clamped at ±1,000 ppm
(R321, R328, R329). An offset that a DOFF step has removed is not slewed as well (DEDUCED, log 53). -/
def State.servo (s : State) (off : Int) (slews : Bool) : State :=
  let bw := s.fld Reg.PTP_CTRL 18 16
  let integ := Config.servoInteg bw off s.clk.integ
  let lim : Int := 27487790694 * s.fld Reg.PTP_SLEW 8 0 / 1000000
  let want : Int := 27487790694 + integ + (if slews then clipInt (-lim) lim (Config.servoProp bw off) else 0)
  let got := clipInt 27460302903 27515278484 want
  let s := { s with clk := { s.clk with integ := integ, inc := got.toNat } }
  let s := s.setBit Reg.PTP_STATUS 8 (decide (want ≠ got))
  { s with clk := { s.clk with
      incLog := if s.timeLocked then s.logInc else s.clk.incLog } }

/-- The mean of DTC_INC over the last 64 s of lock (R328, HOLDOVER): rounded down, or up by a free choice. -/
def State.meanInc (s : State) : Nat :=
  match s.clk.incLog with
  | [] => s.clk.inc
  | l@(last :: _) =>
    let fin := if s.timeLocked then s.ns else last.1
    let t := l.foldl (fun (a : Nat × Nat × Nat) e =>
      (let since := max e.1 (fin - 64000000000)
       (a.1 + (a.2.2 - since) * e.2, a.2.1 + (a.2.2 - since), since))) (0, 0, fin)
    if t.2.1 = 0 then s.clk.inc
    else t.1 / t.2.1 + (if t.1 % t.2.1 = 0 then 0 else Config.roundUp s.fresh % 2)

/-- Hold DTC_INC at its mean, which lies within the range (R321, R328, R333). -/
def State.holdInc (s : State) : State :=
  (({ s with clk := { s.clk with inc := s.meanInc } }).setBit Reg.PTP_STATUS 8 false).freshId

/-- An offset beyond the glide limit: it continues the run or starts a new one; the run may be confirmed (R329). -/
def State.runOffset (s : State) (off : Int) : State :=
  let joins : Bool := match s.clk.run with
    | none => false
    | some r => decide (0 < off ↔ 0 < r.sum) &&
        decide ((off * r.n - r.sum).natAbs ≤ 1000 * r.n)
  let run : OffRun := match s.clk.run with
    | none => ⟨1, off⟩
    | some r => if joins then ⟨r.n + 1, r.sum + off⟩ else ⟨1, off⟩
  let s := s.when (s.clk.run.isSome && !joins) fun s => s.bump Reg.PTP_OUTLIERS
  if s.fld Reg.PTP_STEP_CONFIRM 3 0 ≤ run.n then
    ({ s with clk := { s.clk with run := none } }).doffStep (-(roundHalfAway run.sum run.n))
  else { s with clk := { s.clk with run := some run } }

/-- An offset within the glide limit discards a run and is slewed (R329). -/
def State.slewOffset (s : State) (off : Int) : State :=
  let s := s.when s.clk.run.isSome fun s => s.bump Reg.PTP_OUTLIERS
  ({ s with clk := { s.clk with run := none } }).servo off true

/-- An offset from the master, or from the PPS_IN edge that takes its place (R329). -/
def State.takeOffset (s : State) (off : Int) : State :=
  if !s.live then (s.doffStep (-off)).servo off false
  else if off.natAbs ≤ s.fld Reg.PTP_GLIDE 15 0 * 1000 then s.slewOffset off
  else s.runOffset off

/-- The clock locks: its values of DTC_INC are kept from here on, and E6 ends (R328, R333). -/
def State.lockTime (s : State) (st : Nat) : State :=
  (({ s with clk := { s.clk with everLocked := true, incLog := [(s.ns, s.clk.inc)] } }).setTime st).endE6

/-- Consecutive offsets within ±100 ns and beyond ±1 µs, and the time state they give (R328). -/
def State.lockJudge (s : State) (off : Int) : State :=
  let s := { s with clk := { s.clk with
      inLock := if off.natAbs ≤ 100 then s.clk.inLock + 1 else 0,
      outLock := if 1000 < off.natAbs then s.clk.outLock + 1 else 0 } }
  if s.timeState ≠ 2 ∧ 16 ≤ s.clk.inLock then s.lockTime 2
  else if s.timeState = 2 ∧ 16 ≤ s.clk.outLock then s.setTime 1
  else s

/-- A completed Sync measurement: offset from master with the filtered mean path delay (R328). -/
def State.syncMeasured (s : State) (rx origin corr : Int) : State :=
  let s := { s with clk := { s.clk with syncDiff := rx - origin - corr } }
  let off := rx + s.clk.doff - origin - corr - (s.rd Reg.PTP_MPD).toInt
  let s := (s.wrI Reg.PTP_OFFSET (sat32 off)).bump Reg.PTP_SYNC_RX
  (s.takeOffset off).lockJudge off

/-- Insert into an ascending list. -/
def insertInt (x : Int) : List Int → List Int
  | [] => [x]
  | y :: ys => if x ≤ y then x :: y :: ys else y :: insertInt x ys

/-- The median; between two middle values that differ, the spec gives no rounding. -/
def medianInt (l : List Int) : Int :=
  let a := l.foldl (fun r x => insertInt x r) []
  let n := a.length
  if n % 2 = 1 then a.getD (n / 2) 0
  else
    let x := a.getD (n / 2 - 1) 0
    let y := a.getD (n / 2) 0
    if x = y then x else Config.medianMid x y

/-- A path-delay measurement: the mean path delay is the median of the last 16 (R328). -/
def State.pathDelay (s : State) (d : Int) : State :=
  let l := (d :: s.clk.mpds).take 16
  ({ s with clk := { s.clk with mpds := l } }).wrI Reg.PTP_MPD (medianInt l)

/-- Is the message in the domain and within R325? -/
def State.ptpAccepts (s : State) (domain : Nat) (supported : Bool) : Bool :=
  supported && decide (domain = s.fld Reg.PTP_CTRL 31 24)

/-- UDP over the IP version that the image names (R325). -/
def State.ptpUdp (s : State) (transport : Nat) : Bool := decide (transport = s.fld Reg.PTP_CTRL 3 3)

/-- The Sync lies within R325: its domain, its transport, logSyncInterval −7 to 1. -/
def State.syncOk (s : State) (m : SyncMsg) : Bool :=
  s.ptpAccepts m.domain (s.ptpUdp m.transport && decide (-7 ≤ m.interval ∧ m.interval ≤ 1))

/-- The Announce lies within R325: its domain, its transport, logAnnounceInterval −3 to 3. -/
def State.announceOk (s : State) (m : Announce) : Bool :=
  s.ptpAccepts m.domain (s.ptpUdp m.transport && decide (-3 ≤ m.interval ∧ m.interval ≤ 3))

/-- The primary PTP port, or the secondary one where the image names it (R326). -/
def State.ptpPort (s : State) (port : Nat) : Bool :=
  decide (port = s.fld Reg.PTP_PORTS 4 0) || (s.bit Reg.PTP_PORTS 15 && decide (port = s.fld Reg.PTP_PORTS 12 8))

/-- A PTP message can be received on the port: a PTP port of the image whose sub-port is in service. -/
def State.ptpHears (s : State) (port : Nat) : Bool := s.ptpPort port && s.subUp (port / 4 % 8) (port % 4)

/-- The order of the best master clock algorithm (R326): smaller is better; then the primary port. -/
def announceKey (primary : Nat) (a : Announce) : List Nat :=
  [a.prio1, a.cls, a.accuracy, a.variance, a.prio2, a.gm, a.steps, if a.port = primary then 0 else 1, a.sender]

def lexLe : List Nat → List Nat → Bool
  | [], _ => true
  | _ :: _, [] => false
  | a :: as, b :: bs => if a < b then true else if b < a then false else lexLe as bs

def bestAnnounce (primary : Nat) : List Announce → Option Announce
  | [] => none
  | a :: l => match bestAnnounce primary l with
    | none => some a
    | some b => if lexLe (announceKey primary a) (announceKey primary b) then some a else some b

/-- Follow the best master of the foreign-master table; a change raises source 1013 (R326, R339). -/
def State.followBest (s : State) : State :=
  let primary := s.fld Reg.PTP_PORTS 4 0
  match bestAnnounce primary s.clk.foreign with
  | none => (({ s with clk := { s.clk with master := none } }).setBit Reg.PTP_STATUS 0 false).setBit Reg.PTP_STATUS 4 false
  | some b =>
    let sec := decide (b.port ≠ primary)
    let changed : Bool := match s.clk.master with
      | none => true
      | some m => decide (m.gm ≠ b.gm ∨ m.port ≠ b.port)
    let s := { s with clk := { s.clk with master := some b } }
    let s := (s.setBit Reg.PTP_STATUS 0 true).setBit Reg.PTP_STATUS 4 sec
    let s := (s.wr64 Reg.PTP_GM_LO b.gm).wrN Reg.PTP_GM_CLASS (b.cls % 256 * 256 + b.domain % 256)
    s.when changed fun s => s.raiseT 1013 (256 * b2n sec + b.port % 256)

/-- Go on in HOLDOVER where the clock has ever locked (R328, R334); the run of offsets within 100 ns begins anew. -/
def State.holdTime (s : State) : State :=
  s.when (s.clk.everLocked && s.timeState != 3) fun s =>
    ({ s.holdInc with clk := { s.holdInc.clk with inLock := 0, outLock := 0 } }).setTime 3

/-- The clock loses its master: the masters heard on its port are forgotten, and it follows the best one left on the other port. With none
it goes into HOLDOVER once it has locked (R326, R328). -/
def State.masterLost (s : State) : State :=
  let left := match s.clk.master with
    | none => []
    | some m => s.clk.foreign.filter fun f => f.port != m.port
  let s := ({ s with clk := { s.clk with foreign := left, waitFollow := none } }).followBest
  s.when s.clk.master.isNone State.holdTime

/-! ## PTP commands -/

/-- R328: a Sync from the master followed; a two-step master's Sync waits for its Follow_Up. -/
def execSyncRx (dt : Nat) (m : SyncMsg) (s : State) : Host.Outcome State Fault Refusal :=
  let s := s.elapse dt
  if s.island ∨ !s.ptpHears m.port then done s
  else if !s.syncOk m then done (s.bump Reg.PTP_RX_DISCARD)
  else match s.clk.master with
    | none => done s
    | some b =>
      if b.sender ≠ m.sender ∨ b.port ≠ m.port then done s
      else if m.twoStep then done { s with clk := { s.clk with waitFollow := some (m, s.portStamp) } }.freshId
      else done (s.syncMeasured s.portStamp m.origin m.correction).freshId

/-- R325: the Follow_Up completes the waiting Sync of the same sender and sequence, while that sender is followed. -/
def execFollowUpRx (dt sender seq : Nat) (origin correction : Int) (s : State) :
    Host.Outcome State Fault Refusal :=
  let s := s.elapse dt
  match s.clk.waitFollow with
  | none => done s
  | some (m, rx) =>
    if m.sender ≠ sender ∨ m.seq ≠ seq ∨ !s.clk.master.any (fun b => b.sender == m.sender && b.port == m.port) then done s
    else done (({ s with clk := { s.clk with waitFollow := none } }).syncMeasured rx origin
      (m.correction + correction))

/-- R326: at most 16 foreign masters per port; the best one is followed. -/
def execAnnounceRx (dt : Nat) (m : Announce) (s : State) : Host.Outcome State Fault Refusal :=
  let s := s.elapse dt
  if s.island ∨ !s.ptpHears m.port then done s
  else if !s.announceOk m then done (s.bump Reg.PTP_RX_DISCARD)
  else
    let rest := s.clk.foreign.filter fun f => !(f.sender == m.sender && f.port == m.port)
    let full := decide (16 ≤ (rest.filter fun f => f.port == m.port).length)
    let s := { s with clk := { s.clk with foreign := if full then rest else m :: rest } }
    let s := s.when (decide (m.sm ≠ [])) fun s =>
      s.each (List.range 16) fun i s => s.wr (Reg.PTP_SM i) (m.sm.getD i 0)
    done s.followBest

/-- R327: Delay_Req or Pdelay_Req with its departure time in PTP-visible time; from E5 on (R47). -/
def execDelayReqSend (dt : Nat) (s : State) : Host.Outcome State Fault Refusal :=
  let s := s.elapse dt
  if s.island ∨ s.phase < 5 ∨ s.halted then done s
  else
    let port := if s.bit Reg.PTP_STATUS 4 then s.fld Reg.PTP_PORTS 12 8 else s.fld Reg.PTP_PORTS 4 0
    let seq := (s.clk.dreqSeq + 1) % 65536
    let s := { s with clk := { s.clk with dreqSeq := seq, dreqAt := none } }
    done (s.toSub (port / 4 % 8) (port % 4) 7 Config.ptpLength (.ptp (if s.bit Reg.PTP_CTRL 2 then 2 else 1) port seq))

/-- What a delay response measures: end to end the mean of the Sync's and the request's differences, peer to peer half of
what the turnaround leaves of the round trip (the formulas of IEEE 1588-2019, which R325 names; a half nanosecond is
rounded by a free value). Both stamps of the unit are taken on one time base, so that a DOFF step between them is no delay (DEDUCED,
log 25). -/
def State.delayMeasured (s : State) (sent receipt correction : Int) : Int :=
  let twice := if s.bit Reg.PTP_CTRL 2 then s.portStamp - sent - correction
    else s.clk.syncDiff + (receipt - sent) - correction
  twice / 2 + (if twice % 2 = 0 then 0 else (Config.roundUp (s.fresh + 1) % 2 : Nat))

/-- R328: the response to the present delay request, by its sequence number, adds a measurement. -/
def execDelayRespRx (dt domain seq : Nat) (receipt correction : Int) (transport : Nat) (s : State) :
    Host.Outcome State Fault Refusal :=
  let s := s.elapse dt
  if s.island then done s
  else if !s.ptpAccepts domain (s.ptpUdp transport) then done (s.bump Reg.PTP_RX_DISCARD)
  else match s.clk.dreqAt with
    | none => done s
    | some t =>
      if seq ≠ s.clk.dreqSeq then done s
      else done (({ s with clk := { s.clk with dreqAt := none } }).pathDelay (s.delayMeasured t receipt correction)).freshId.freshId

/-- R327: a one-step Pdelay_Resp, to whose correctionField its departure adds the turnaround; peer-to-peer images only
(R325). -/
def execPdelayReqRx (dt port domain : Nat) (correction : Int) (transport : Nat) (s : State) :
    Host.Outcome State Fault Refusal :=
  let s := s.elapse dt
  if s.island ∨ s.phase < 5 ∨ s.halted ∨ !s.ptpHears port then done s
  else if !s.ptpAccepts domain (s.ptpUdp transport) ∨ ¬ s.bit Reg.PTP_CTRL 2 then done (s.bump Reg.PTP_RX_DISCARD)
  else done (s.toSub (port / 4 % 8) (port % 4) 7 Config.ptpLength (.ptp 3 port (correction - s.portStamp))).freshId

def execAnnounceTimeout (dt : Nat) (s : State) : Host.Outcome State Fault Refusal :=
  let s := s.elapse dt
  if s.island then done s else done (s.bump Reg.PTP_ANN_TIMEOUT).masterLost

/-- R334: E6 reaches its bound without lock; the unit goes on in FREE, or in HOLDOVER where it has locked and lost lock, and raises the
time-state event. -/
def execTimeAcquisitionTimeout (dt : Nat) (s : State) : Host.Outcome State Fault Refusal :=
  let s := s.elapse dt
  if s.phase ≠ 6 then done s
  else if s.clk.everLocked && s.timeState == 1 then done s.holdTime.endE6
  else done (s.raiseT 1008 s.timeState).endE6

/-! ## PPS and island mode -/

/-- Signed distance of an edge stamped `t` on the DTC from the nearest whole second of PTP-visible time (R332). -/
def State.ppsError (s : State) (t : Int) : Int :=
  let x := (t + s.clk.doff) % 1000000000
  if x < 500000000 then x else x - 1000000000

/-- A good edge in island mode, stamped `t` (R333). -/
def State.ppsGoodEdge (s : State) (t : Int) : State :=
  let first := s.clk.ppsGood.isNone && decide (s.phase = 6)
  let was := s.clk.ppsStopped
  let s := { s with clk := { s.clk with ppsGood := some t, ppsRun := s.clk.ppsRun + 1, ppsStopped := false } }
  let s := s.when was fun s => s.raiseT 1012 3
  let s := if first then s.doffStep ((s.rd64 Reg.ISLAND_SEC_LO : Int) * 1000000000 - t - s.clk.doff)
    else s.takeOffset (s.ppsError t)
  s.when (decide (4 ≤ s.clk.ppsRun) && s.timeState != 4) fun s => s.lockTime 4

/-- R332, R333: the edge is timestamped like a PTP event message; in island mode, from E6 on, it serves as the master. A glitch is
ignored, so that the good edges around it are consecutive (DEDUCED, log 25). -/
def execPpsInEdge (dt : Nat) (s : State) : Host.Outcome State Fault Refusal :=
  let s := s.elapse dt
  let t := s.portStamp
  let err := s.ppsError t
  let s := ((s.wrN Reg.PPS_IN_LAST (t % 4294967296).toNat).wrI Reg.PPS_IN_ERR err).freshId
  if !s.island ∨ s.phase < 6 ∨ s.halted then done s
  else
    let good : Bool := match s.clk.ppsGood with
      | none => decide (s.phase = 6) || decide (err.natAbs ≤ 1000000)
      | some g => decide (err.natAbs ≤ 1000000) && decide (g + 999000000 ≤ t)
    if good then done (s.ppsGoodEdge t)
    else done ((s.bump Reg.PPS_IN_GLITCH).raiseT 1012 2)

/-- R333: no edge for 1.1 s after the last good one. -/
def execPpsStop (dt : Nat) (s : State) : Host.Outcome State Fault Refusal :=
  let s := s.elapse dt
  if !s.island ∨ s.clk.ppsStopped ∨ !s.clk.ppsGood.any (fun t => t + 1100000000 ≤ s.now) then done s
  else
    let s := { s with clk := { s.clk with ppsStopped := true, ppsRun := 0 } }
    done ((s.holdInc.setTime 5).raiseT 1012 1)

/-- R332: PPS_OUT rises at a whole second, within 4 ns, and falls WIDTH ms later; no second is marked twice. -/
def execPpsOutSecond (dt : Nat) (s : State) : Host.Outcome State Fault Refusal :=
  let s := s.elapse dt
  let sec := (s.ptpNow + 500000000) / 1000000000
  let locked := s.timeLocked
  let fresh : Bool := match s.clk.ppsMarked with
    | none => true
    | some m => decide (m < sec)
  if s.bit Reg.PPS_CTRL 31 ∧ (s.phase = 7 ∨ s.phase = 8 ∨ s.phase = 9) ∧ (s.ptpNow - sec * 1000000000).natAbs ≤ 4 ∧
      (locked ∨ s.bit Reg.PPS_CTRL 30) ∧ fresh then
    let w := s.fld Reg.PPS_CTRL 9 0
    done (({ s with clk := { s.clk with
        ppsMarked := some sec, ppsUntil := s.ns + w * 1000000 } }).send (.pps sec w))
  else done s

/-! ## Reference clocks (R335 to R338) -/

def State.refQual (s : State) (r : Nat) : Bool := s.bit Reg.REF_STATUS (8 * r)
def State.refSel (s : State) : Nat := s.fld Reg.REF_STATUS 17 16
/-- Are the references judged at all: from E4 on (R335). -/
def State.refsJudged (s : State) : Bool := decide (4 ≤ s.phase) && !s.halted

/-- Select a reference, or 2 the pilot; a switch raises source 1010 (R336, R339). -/
def State.selectRef (s : State) (x : Nat) (count : Bool) : State :=
  let s := (s.setFld Reg.REF_STATUS 17 16 x).raiseT 1010 x
  s.when count fun s => s.bump Reg.REF_SWITCHES

/-- A fault of reference `r`: 1 stop, 2 glitch, 3 rate change (R335, R336, R338, R339). One that glitches or has a frequency is not
stopped. -/
def State.refFault (s : State) (r kind : Nat) : State :=
  if !s.refsJudged then s
  else
    let s := ((s.setBit Reg.REF_STATUS (8 * r) false).setBit Reg.REF_STATUS (8 * r + 1) false).setBit Reg.REF_STATUS (8 * r + kind) true
    let s := s.raiseT 1011 (256 * r + kind)
    if s.refSel ≠ r then s
    else if s.refQual (1 - r) then s.selectRef (1 - r) true
    else s.snuffAndReset 3

def execRefclkStop (dt : Nat) (r : Fin 2) (s : State) : Host.Outcome State Fault Refusal :=
  done ((s.elapse dt).refFault r.val 1)

def execRefclkGlitch (dt : Nat) (r : Fin 2) (s : State) : Host.Outcome State Fault Refusal :=
  done ((s.elapse dt).refFault r.val 2)

/-- R335: a 1 ms frequency estimate, in 0.1 ppm against the pilot; a fault only where it is more than 200 ppm off the
pilot and, while the other reference is qualified, more than 200 ppm off that one as well. -/
def execRefclkRateChange (dt : Nat) (r : Fin 2) (estimate : Int) (s : State) :
    Host.Outcome State Fault Refusal :=
  let s := s.elapse dt
  let other := (s.rd (if r.val = 0 then Reg.REF_FREQ_B else Reg.REF_FREQ_A)).toInt
  let s := s.when s.refsJudged fun s =>
    s.wrI (if r.val = 0 then Reg.REF_FREQ_A else Reg.REF_FREQ_B) estimate
  if 2000 < estimate.natAbs ∧ (s.refQual (1 - r.val) = true → 2000 < (estimate - other).natAbs) then
    done (s.refFault r.val 3)
  else done s

/-- R335, R336: a reference fault-free for QUAL is qualified; it is selected when none is, or reverted to. -/
def execRefclkQualified (dt : Nat) (r : Fin 2) (s : State) : Host.Outcome State Fault Refusal :=
  let s := s.elapse dt
  let r := r.val
  if !s.refsJudged then done s
  else
    let again := decide (s.fld Reg.REF_STATUS (8 * r + 3) (8 * r + 1) ≠ 0)
    let s := s.setFld Reg.REF_STATUS (8 * r + 3) (8 * r) 1
    let s := s.when again fun s => s.raiseT 1011 (256 * r + 4)
    if s.refSel = 2 then done (s.selectRef r false)
    else if s.refSel ≠ r ∧ s.bit Reg.REF_CTRL 1 ∧ s.fld Reg.REF_CTRL 0 0 = r then done (s.selectRef r true)
    else done s

/-- R337: while a reference is selected, the pilot's ratio to it updates the learned offset. -/
def execPilotRatioMeasure (dt : Nat) (ratio : Int) (s : State) : Host.Outcome State Fault Refusal :=
  let s := s.elapse dt
  if s.refSel = 2 then done s
  else done (s.wrI Reg.PILOT_FREQ (Config.pilotLearn (s.rd Reg.PILOT_FREQ).toInt ratio))

end Sys2Proof.Machine
end

