-- ==== Sys2Proof/Machine/Emergence.lean ====
section
/-! DEFINITION. Emergence: resets, the phases E0 to E6, the lead die's election, the image, HALTED, the restore window (R41 to
R63, R71 to R73, R409 to R411, R475, R507, R517, R518). -/

namespace Sys2Proof.Machine

/-! ## Resets (R43 to R46, R73, R410) -/

/-- R45: RESET_N is recognised: snuff with cause 1, then a warm reset in which the unit stays while the pin is low. -/
def execResetNAssert (dt : Nat) (s : State) : Host.Outcome State Fault Refusal :=
  let s := s.elapse dt
  let s := if s.emg.started then s.snuffAndReset 1 else s
  done { s with emg := { s.emg with resetN := false } }

/-- R46, R524: a rail other than VCOREd has stood outside its range for 1 µs, at a level in µV: snuff with cause 6 and a cold
reset. -/
def execRailLoss (dt : Nat) (rail : Rail) (uv : Nat) (s : State) : Host.Outcome State Fault Refusal :=
  let s := s.elapse dt
  if railInRange rail uv then done s else done ((s.snuff 6).coldReset)

/-- R73: the key starts a warm reset in HALTED, while snuffed, or while LIVE with RESET_LIVE; otherwise the write is counted. -/
def State.emgResetWrite (s : State) (key : Word) : State :=
  if key = 0xA55A ∧ (s.halted ∨ s.snuffed ∨ (s.live ∧ s.emg.resetLive)) then s.snuffAndReset 2
  else s.refuse Reg.EMG_RESET

def execEmgReset (dt : Nat) (key : Word) (s : State) : Host.Outcome State Fault Refusal :=
  done ((s.elapse dt).emgResetWrite key)

/-! ## E0 and E1 (R43, R47) -/

def State.dieTest (s : State) (d : Nat) : DieTest := s.emg.tests.getD d .waiting

def State.setTest (s : State) (d : Nat) (t : DieTest) : State :=
  { s with emg := { s.emg with tests := s.emg.tests.set d t } }

def State.setRail (s : State) (d : Nat) (b : Bool) : State :=
  { s with emg := { s.emg with rails := s.emg.rails.set d b } }

/-- R43, R524: emergence begins with the other rails, and VCORE0 and VCORE7, in range at the levels given in µV, and
RESET_N high. The DTC counts from 0 (R320), on the pilot (R26). A rail that has left its range since the reset began makes the reset a cold one (R44). -/
def execE0Start (dt : Nat) (vcores : List Nat) (rails : List (Rail × Nat)) (s : State) : Host.Outcome State Fault Refusal :=
  let s := s.elapse dt
  let up := fun (d : Nat) => vcoreInRange (vcores.getD d 0)
  if s.emg.started || !up 0 || !up 7 || !railsInRange rails then done s
  else
    let rails := (List.range 8).map up
    let s := s.when ((List.range 8).any fun d => s.emg.rails.getD d false && !rails.getD d false) State.coldReset
    let s := { s with clk := Clock.reset, emg := { s.emg with started := true, resetN := true, rails := rails } }
    done (s.setFld Reg.REF_STATUS 17 16 2)

/-- Every die whose rail is in range begins its self-test. -/
def State.startTests (s : State) : State :=
  s.each (List.range 8) fun d s => s.when (s.emg.rails.getD d false) fun s => s.setTest d .testing

/-- R47, R517: the fuses are read, the nonce and the session value drawn, the I²C target is up; E1 begins. -/
def execE0Complete (dt : Nat) (s : State) : Host.Outcome State Fault Refusal :=
  let s := s.elapse dt
  if !s.emg.started || decide (s.phase ≠ 0) || s.emg.i2cUp then done s
  else
    let s := { s with emg := { s.emg with i2cUp := true }, mgt := { s.mgt with seqOp := 0, seqRec := 0 } }
    let s := s.wrN Reg.IDN_PART (Config.revision % 256 * 65536 + 0x9608)
    let s := s.each (List.range 4) fun i s => s.wrN (Reg.IDN_SERIAL i) (leNat ((Config.serial.drop (4 * i)).take 4))
    let s := (s.setBit Reg.EMG_STATUS 9 s.fuses.claimLock).setFld Reg.EMG_IMAGE 23 16 s.fuses.count
    let s := s.newNonce
    let s := (s.wrN Reg.MGT_SESSION s.drawn.toNat).afterDraw
    done (s.enterPhase 1).startTests.i2cRefresh

/-- E1 ends when every die has passed or failed; with neither D0 nor D7 the unit stays in chrysalis state (R47, R50). -/
def State.endE1 (s : State) : State :=
  if s.phase ≠ 1 ∨ s.emg.tests.any (fun t => decide (t = DieTest.waiting ∨ t = DieTest.testing)) then s
  else if s.dieTest 0 ≠ .passed ∧ s.dieTest 7 ≠ .passed then { s with emg := { s.emg with i2cUp := false } }
  else s.enterPhase 2

/-- A die is failed for this emergence while it has not yet passed. -/
def State.failTest (s : State) (d : Nat) : State :=
  if s.dieTest d = .waiting ∨ s.dieTest d = .testing then (s.setTest d .failed).endE1 else s

def execVcoreRailInRange (dt : Nat) (d : Fin 8) (s : State) : Host.Outcome State Fault Refusal :=
  let s := (s.elapse dt).setRail d true
  if s.phase = 1 ∧ s.dieTest d = .waiting then done (s.setTest d .testing) else done s

/-- R43: still out of range 1 s after E0 began. -/
def execVcoreRangeTimeout (dt : Nat) (d : Fin 8) (s : State) : Host.Outcome State Fault Refusal :=
  let s := s.elapse dt
  if s.phase = 1 ∧ s.dieTest d = .waiting then done (s.failTest d) else done s

/-- R47, R468: a die completes its self-test; one at 100 °C or more fails it. -/
def execDieSelfTestDone (dt : Nat) (d : Fin 8) (passed : Bool) (s : State) : Host.Outcome State Fault Refusal :=
  let s := s.elapse dt
  if s.phase ≠ 1 ∨ s.dieTest d ≠ .testing then done s
  else
    let hot := decide (800 ≤ (BitVec.ofNat 16 (s.fld (Reg.THD_STATUS d) 15 0)).toInt)
    let s := s.when hot fun s => s.setBit (Reg.THD_STATUS d) 31 true
    if passed && !hot then done (s.setTest d .passed).endE1 else done (s.failTest d)

def execE1DieTimeout (dt : Nat) (d : Fin 8) (s : State) : Host.Outcome State Fault Refusal :=
  let s := s.elapse dt
  if s.phase = 1 ∧ s.dieTest d = .testing then done (s.failTest d) else done s

/-! ## E2 (R50, R51, R518) -/

/-- The two dies of link `4 k + rank`: dimension `k`, the rank-th die without bit `k` (R20). -/
def linkEnds (l : Nat) : Nat × Nat :=
  let k := l / 4
  let a := ((List.range 8).filter fun d => decide (d / 2 ^ k % 2 = 0)).getD (l % 4) 0
  (a, a + 2 ^ k)

/-- What a die that passed E1 shows from E2 on. -/
def State.bringUpDie (s : State) (d : Nat) : State :=
  let s := (s.setBit Reg.SAF_STATUS (16 + d) true).setBit (Reg.DIE_STATUS d) 31 true
  s.each (List.range 8) fun c s => s.setFld (Reg.CL_STATUS d c) 6 0 127

/-- A die that failed E1 is held in reset: its event, and nothing of it works. -/
def State.holdDie (s : State) (d : Nat) : State :=
  let s := (s.raise (64 + 64 * d) 1).setBit (Reg.MD_STATUS d) 31 true
  s.each (List.range 8) fun c s => s.setBit (Reg.CL_STATUS d c) 31 true

/-- R50, R51: the links are trained, the lead die elected, the MGMT lane started; an isolated die is a failed die (R21), and a die
that has lost its rail since E1 is one too (R46). -/
def execE2Complete (dt : Nat) (linksUp : List Bool) (s : State) : Host.Outcome State Fault Refusal :=
  let s := s.elapse dt
  if s.phase ≠ 2 then done s
  else
    let gone := (List.range 8).filter fun d => decide (s.dieTest d = .lost)
    let ok := fun (d : Nat) => decide (s.dieTest d = .passed) || gone.contains d
    let lead := if ok 0 then 0 else 7
    let mask := ((List.range 8).filter ok).foldl (fun a d => a + 2 ^ d) 0
    let links := (List.range 12).map fun l => linksUp.getD l false && ok (linkEnds l).1 && ok (linkEnds l).2
    let s := { s with emg := { s.emg with links := links, mgmtUp := true } }
    -- The MGMT lane of the lead die starts from its built-in seed, no image being loaded (R42, R451).
    let s := s.setRecv (laneId s.lead 9) (Recv.start (builtinSeed (laneId s.lead 9)))
    let s := (s.setFld Reg.EMG_STATUS 31 24 mask).setFld Reg.EMG_STATUS 22 20 lead
    let s := (s.setFld Reg.SAF_STATUS 26 24 lead).setBit (Reg.DIE_STATUS lead) 30 true
    let s := (s.setBit (Reg.DIE_STATUS 0) 29 true).setBit (Reg.DIE_STATUS 7) 29 true
    let s := s.each (List.range 8) fun d s => if mask / 2 ^ d % 2 = 1 then s.bringUpDie d else s.holdDie d
    let alone := (List.range 8).filter fun d => decide (mask / 2 ^ d % 2 = 1) &&
      !((List.range 12).any fun l => links.getD l false && ((linkEnds l).1 == d || (linkEnds l).2 == d))
    let s := s.startE3.setLane lead 9 1
    done ((s.each gone fun d s => s.retireNow d 1).each alone fun d s => s.retireNow d 5)

/-! ## E3 (R53, R59, R63, R69, R411) -/

/-- The boot record, and after it the summary of a snuff before a warm reset (R69, R411). -/
def State.bootRecord (s : State) : State :=
  if s.emg.booted then s
  else
    let s := { s with emg := { s.emg with booted := true } }
    let s := s.journal 1 (Config.bootPayload s.draws)
    match s.emg.summary with
    | none => s
    | some b => ({ s with emg := { s.emg with summary := none } }).journal 3 b

/-- Payload of the newest ageing record (R69, R479). -/
def State.newestAgeing (s : State) : Option (List Byte) :=
  (newestPage (s.logPages.filter fun x => x.2.2 == 2)).map fun x => ((s.page x.2.1).drop 16).take 236

/-- Setpoint of die `d` at E4: of the newest ageing record, otherwise AVS_INIT; 0 for none (R475). -/
def State.avsStart (s : State) (d : Nat) : Nat :=
  match s.newestAgeing with
  | some b => leNat ((b.drop (8 + 16 * d)).take 2)
  | none => s.fld Reg.CAP_AVS_CFG 31 16

/-- E4 begins: training starts at RATE_MAX, the regulators are asked for their mode, and after a warm reset the restore window
may open (R47, R71, R440, R473, R475). -/
def State.startE4 (s : State) : State :=
  let s := s.enterPhase 4
  let hours := (s.newestAgeing.map fun b => leNat (b.take 4)).getD 0
  let s := { s with plant := { s.plant with baseHours := hours, plannedDays := hours / 24 } }
  let s := s.each ((List.range 8).filter s.dieOk) fun d s =>
    let s := s.each [0, 1] fun m s =>
      (s.setFld (Reg.MC_STATUS d m) 26 24 (s.fld (Reg.MC_CTRL d m) 2 0)).modMctl (2 * d + m) fun x =>
        { x with phase := .training }
    (s.each (List.range 8) fun k s => s.setMc d k 1).pmbAsk d .mode 0
  s.when (s.bit Reg.EMG_STATUS 10 && decide (1 ≤ s.emg.restoreMs) && decide (s.emg.restoreMs ≤ 500)) fun s =>
    s.setBit Reg.EMG_STATUS 11 true

/-- No copy is chosen: HALTED, with the cause of the last copy rejected (R63). -/
def State.noImageHalt (s : State) (cause : Option Nat) : State :=
  (match cause with
   | some c => s.recordFail c 0 0
   | none => s).halt

/-- R53: E3 probes the flashes that answer, chooses a copy and loads it, or halts. -/
def execImageLoadDone (dt : Nat) (answersA answersB : Bool) (s : State) : Host.Outcome State Fault Refusal :=
  let s := s.elapse dt
  if s.phase ≠ 3 then done s
  else if !answersA && !answersB then done (s.noImageHalt (some 1))
  else
    let s := s.scanLog answersA
    let s := s.bootRecord
    match s.candidates (fun p => if p = 0 then answersA else answersB) with
    | [] => done (s.noImageHalt (some 2))
    | l => match s.choose l with
      | (s, none) => done (s.noImageHalt none)
      | (s, some h) => done (s.loadImage h).startE4

/-- R63: every 60 s in HALTED the flashes are scanned again. -/
def execHaltedRescan (dt : Nat) (s : State) : Host.Outcome State Fault Refusal :=
  let s := s.elapse dt
  if s.halted then done s.startE3 else done s

/-! ## E4 to E6 (R47, R71, R72, R388, R475) -/

/-- R71: the host closes the restore window. -/
def execRestoreDone (dt : Nat) (s : State) : Host.Outcome State Fault Refusal := done (s.elapse dt).closeRestore

/-- R71: the window's time runs out. -/
def execRestoreWindowTimeout (dt : Nat) (s : State) : Host.Outcome State Fault Refusal :=
  let s := s.elapse dt
  if s.bit Reg.EMG_STATUS 11 then done s.closeRestore else done s

/-- E6 begins: each die's raises to SI_MIN of 1,000 + AVS_MARGIN follow the first measurement (R475); a unit already locked
goes on at once. -/
def State.startE6 (s : State) : State :=
  let s := s.enterPhase 6
  let goal := 1000 + s.fld Reg.CAP_AVS_CFG 7 0
  let s := s.each ((List.range 8).filter s.dieOk) fun d s => s.modAvs d fun x => { x with raiseTo := some goal }
  s.when (s.timeState == 2 || s.timeState == 4) State.endE6

/-- R47: every lane is up. -/
def execE5Complete (dt : Nat) (s : State) : Host.Outcome State Fault Refusal :=
  let s := s.elapse dt
  if s.phase = 5 then done s.startE6 else done s

/-- R47: the lane-up time expires: network, Lantern and MGMT lanes in use that are not GOOD are alarmed, and emergence goes on. -/
def execLaneUpTimeout (dt : Nat) (s : State) : Host.Outcome State Fault Refusal :=
  let s := s.elapse dt
  if s.phase ≠ 5 then done s
  else
    let s := s.each ((List.range 8).filter s.dieOk) fun d s =>
      s.each ((List.range 10).filter fun n => if n = 9 then d == s.lead
          else if n = 8 then s.bit Reg.LNK_CTRL d else (s.laneSub d n).isSome) fun n s =>
        let st := s.fld (Reg.LN_STATUS d n) 26 24
        s.when (decide (st ≠ 4)) fun s => s.raise (64 + 64 * d + 14) (256 * n + st)
    done s.startE6

end Sys2Proof.Machine
end

