-- ==== Sys2Proof/Machine/Demux.lean ====
section
/-! DEFINITION. Reading a contribution stream: TS packets, sections, PES headers, NAL unit headers and SEI messages (R100, R127, R244,
R247, R248). Layouts and type numbers are those of the standards the spec names, which it does not reprint (ISO/IEC 13818-1, H.222.0,
H.265, H.266, SCTE 35, SMPTE ST 302, ATSC A/53): PRESUMED (log 52). -/

namespace Sys2Proof.Machine

/-- The byte at an offset, 0 past the end; and two of them, the first the higher. -/
def octet (l : List Byte) (i : Nat) : Nat := (l.getD i 0).toNat
def octet2 (l : List Byte) (i : Nat) : Nat := 256 * octet l i + octet l (i + 1)

/-! ## TS packets -/

/-- A TS packet as read: PID, payload_unit_start_indicator, continuity_counter, discontinuity_indicator, PCR (27 MHz), payload. -/
structure TsRead where
  pid : Nat
  unit : Bool
  cc : Nat
  disc : Bool
  pcr : Option Nat
  hasPayload : Bool
  payload : List Byte
deriving DecidableEq, Repr

/-- None: transport_error_indicator is set, or the sync byte is wrong (class 1 of R247). -/
def readPacket (l : List Byte) : Option TsRead :=
  if octet l 0 ≠ 0x47 ∨ 128 ≤ octet l 1 then none
  else
    let control := octet l 3 / 16 % 4
    let room := if control / 2 = 1 then 1 + octet l 4 else 0
    let flags := if control / 2 = 1 ∧ 0 < octet l 4 then octet l 5 else 0
    let base := octet2 l 6 * 131072 + octet2 l 8 * 2 + octet l 10 / 128
    some ⟨octet2 l 1 % 8192, decide (octet l 1 / 64 % 2 = 1), octet l 3 % 16, decide (128 ≤ flags),
      if flags / 16 % 2 = 1 then some (300 * base + octet2 l 10 % 512) else none,
      decide (control % 2 = 1), if control % 2 = 1 then l.drop (4 + room) else []⟩

/-- The TS packets of a datagram: 1 to 7 of 188 bytes (R100). -/
def packetsOf (l : List Byte) : Option (List (List Byte)) :=
  if l.length % 188 = 0 ∧ 0 < l.length ∧ l.length ≤ 1316 then some (chop 7 188 l) else none

/-! ## Sections -/

/-- Length of a section that begins so. -/
def sectionLength (l : List Byte) : Nat := 3 + octet2 l 1 % 4096

/-- Sections complete in the bytes that begin with one, and the bytes of one under way; 0xFF is stuffing. -/
def cutSections : Nat → List Byte → List (List Byte) × List Byte
  | 0, l => ([], l)
  | fuel + 1, l =>
    if l = [] ∨ octet l 0 = 255 then ([], [])
    else if l.length < 3 ∨ l.length < sectionLength l then ([], l)
    else
      let (a, rest) := cutSections fuel (l.drop (sectionLength l))
      (l.take (sectionLength l) :: a, rest)

/-- Sections that a packet completes, with the bytes `held` of one under way, and what is under way after it. -/
def addSection (held : List Byte) (p : TsRead) : List (List Byte) × List Byte :=
  if p.unit then
    let skip := octet p.payload 0
    let ended := if held = [] then [] else (cutSections 184 (held ++ (p.payload.drop 1).take skip)).1
    let (a, rest) := cutSections 184 (p.payload.drop (1 + skip))
    (ended ++ a, rest)
  else if held = [] then ([], []) else cutSections 184 (held ++ p.payload)

/-- A section of PSI in force whose CRC is right. -/
def sectionOk (l : List Byte) : Bool := decide (crcOf crcMpegParams l = 0) && decide (octet l 5 % 2 = 1)

/-- The PMT PID of a program that a PAT section names. -/
def patPid (program : Nat) (l : List Byte) : Option Nat :=
  let body := (l.take (l.length - 4)).drop 8
  ((List.range (body.length / 4)).find? fun i => octet2 body (4 * i) == program).map fun i => octet2 body (4 * i + 2) % 8192

/-- Streams of a PMT: stream_type, PID, descriptors. -/
def pmtStreams : Nat → List Byte → List (Nat × Nat × List Byte)
  | 0, _ => []
  | fuel + 1, l =>
    if l.length < 5 then []
    else
      let n := octet2 l 3 % 4096
      (octet l 0, octet2 l 1 % 8192, (l.drop 5).take n) :: pmtStreams fuel (l.drop (5 + n))

/-- What a PMT section says: PCR PID and streams. -/
def readPmt (l : List Byte) : Nat × List (Nat × Nat × List Byte) :=
  let body := (l.take (l.length - 4)).drop 8
  (octet2 body 0 % 8192, pmtStreams 256 (body.drop (4 + octet2 body 2 % 4096)))

/-- A stream of private data registered for SMPTE ST 302. -/
def is302 (type : Nat) (d : List Byte) : Bool :=
  decide (type = 6) && decide (d.take 6 = ([5, 4, 0x42, 0x53, 0x53, 0x44] : List Byte))

/-! ## PES packets -/

/-- The PES header at the front of a payload: none where it is wrong; its PTS, if it carries one. -/
def readPes (l : List Byte) : Option (Option Nat) :=
  if octet l 0 ≠ 0 ∨ octet l 1 ≠ 0 ∨ octet l 2 ≠ 1 ∨ octet l 6 / 64 ≠ 2 ∨ l.length < 9 + octet l 8 then none
  else if octet l 7 < 128 then some none
  else if octet l 8 < 5 ∨ octet l 9 % 2 = 0 ∨ octet2 l 10 % 2 = 0 ∨ octet2 l 12 % 2 = 0 then none
  else some (some (octet l 9 / 2 % 8 * 1073741824 + octet2 l 10 / 2 * 32768 + octet2 l 12 / 2))

/-- What follows the header. -/
def pesBody (l : List Byte) : List Byte := l.drop (9 + octet l 8)

/-! ## NAL units -/

/-- nal_unit_type and nuh_layer_id. -/
def nalType (hevc : Bool) (l : List Byte) : Nat := if hevc then octet l 0 / 2 % 64 else octet l 1 / 8
def nalLayer (hevc : Bool) (l : List Byte) : Nat := if hevc then octet2 l 0 / 8 % 64 else octet l 0 % 64

/-- forbidden_zero_bit is set, or the type is reserved (class 4 of R247). -/
def nalBad (hevc : Bool) (l : List Byte) : Bool :=
  let t := nalType hevc l
  decide (128 ≤ octet l 0) || decide (l.length < 2) ||
  (if hevc then (decide (10 ≤ t) && decide (t ≤ 15)) || (decide (22 ≤ t) && decide (t ≤ 31)) || (decide (41 ≤ t) && decide (t ≤ 47))
   else (decide (4 ≤ t) && decide (t ≤ 6)) || t == 11 || t == 26 || t == 27)

/-- What a NAL unit is. -/
inductive NalUse where
  | slice | set (k : SetKind) | header | delimiter | sei | other
deriving DecidableEq, Repr

def nalUse (hevc : Bool) (t : Nat) : NalUse :=
  if hevc then
    if t ≤ 21 then .slice
    else match t with
      | 32 => .set .vps
      | 33 => .set .sps
      | 34 => .set .pps
      | 35 => .delimiter
      | 39 => .sei
      | _ => .other
  else
    if t ≤ 10 then .slice
    else match t with
      | 14 => .set .vps
      | 15 => .set .sps
      | 16 => .set .pps
      | 17 => .set .aps
      | 18 => .set .aps
      | 19 => .header
      | 20 => .delimiter
      | 23 => .sei
      | _ => .other

/-- IRAP pictures, and GDR pictures of VVC. -/
def nalIrap (hevc : Bool) (t : Nat) : Bool := if hevc then decide (16 ≤ t) && decide (t ≤ 21) else decide (7 ≤ t) && decide (t ≤ 9)
def nalGdr (hevc : Bool) (t : Nat) : Bool := !hevc && t == 10

/-- Later picture order counts are counted from this picture: TemporalId 0, and neither a leading picture nor one that no other of its
sub-layer refers to. -/
def nalAnchor (hevc : Bool) (l : List Byte) : Bool :=
  let t := nalType hevc l
  decide (octet l 1 % 8 = 1) &&
    (if hevc then !(decide (6 ≤ t) && decide (t ≤ 9)) && !(decide (t ≤ 14) && decide (t % 2 = 0)) else t != 2 && t != 3)

/-- The slice opens a new picture: first_slice_segment_in_pic_flag, or sh_picture_header_in_slice_header_flag; a VVC slice does so too
after a picture header of its own. -/
def opensPic (l : List Byte) : Bool := decide (128 ≤ octet l 2)

/-- Bytes of a NAL unit without emulation prevention, given the zero bytes just before. -/
def unescape : Nat → List Byte → List Byte
  | _, [] => []
  | z, b :: l => if 2 ≤ z ∧ b = 3 then unescape 0 l else b :: unescape (if b = 0 then z + 1 else 0) l

/-! ## SEI messages -/

/-- A number coded as bytes 0xFF and a last byte, and what follows. -/
def seiNumber : List Byte → Nat × List Byte
  | [] => (0, [])
  | b :: l => if b = 0xFF then (let (n, r) := seiNumber l; (255 + n, r)) else (b.toNat, l)

/-- SEI messages of a payload: type and bytes. -/
def seiMessages : Nat → List Byte → List (Nat × List Byte)
  | 0, _ => []
  | fuel + 1, l =>
    if l.length < 3 then []
    else
      let (t, r) := seiNumber l
      let (n, r) := seiNumber r
      (t, r.take n) :: seiMessages fuel (r.drop n)

/-- Messages of an SEI NAL unit. -/
def seiOfNal (l : List Byte) : List (Nat × List Byte) := seiMessages 64 (unescape 0 (l.drop 2))

/-- cc_data of a registered user data message (R127): country 0xB5, provider 0x0031, GA94, type 3. -/
def seiCaptions (m : Nat × List Byte) : List Byte :=
  let d := m.2
  if m.1 = 4 ∧ d.take 8 = ([0xB5, 0, 0x31, 0x47, 0x41, 0x39, 0x34, 3] : List Byte) ∧ octet d 8 / 64 % 2 = 1 then
    (d.drop 10).take (3 * (octet d 8 % 32))
  else []

/-- Bits of some bytes, the highest first. -/
def bitList (l : List Byte) : List Bool := l.flatMap fun b => (List.range 8).map fun i => b.toNat.testBit (7 - i)

/-- An unsigned Exp-Golomb code. -/
def expGolomb (l : List Bool) : Nat :=
  let z := (l.takeWhile (· == false)).length
  ((l.drop z).take (z + 1)).foldl (fun a b => 2 * a + b2n b) 0 - 1

/-- recovery_poc_cnt of an HEVC recovery point message (R251), a signed Exp-Golomb code. -/
def seiRecovery (m : Nat × List Byte) : Option Int :=
  if m.1 ≠ 6 then none
  else
    let u := expGolomb (bitList m.2)
    some (if u % 2 = 1 then ((u / 2 + 1 : Nat) : Int) else -((u / 2 : Nat) : Int))

/-- The supported profiles, up to Level 6.2 (R244): Main 10 and Main 10 4:4:4 of VVC; Main, Main 10 and Main 4:2:2 10 of HEVC. DESIGN CHOICE
(log 52): a set of a higher level is unsupported as one of another profile is. -/
def spsOk (x : SpsInfo) : Bool :=
  (if x.hevc then (x.profile == 1 || x.profile == 2 || (x.profile == 4 && x.main422)) && decide (x.level ≤ 186)
   else (x.profile == 1 || x.profile == 33) && decide (x.level ≤ 102)) && decide (x.bitDepth ≤ 10) && !x.field

/-- Columns and CTUs of the coded picture. -/
def spsCols (x : SpsInfo) : Nat := ceilDiv x.width (max 1 x.ctu)
def spsCtus (x : SpsInfo) : Nat := spsCols x * ceilDiv x.height (max 1 x.ctu)

end Sys2Proof.Machine
end

