-- ==== Sys2Proof/Machine/Ingest.lean ====
section
/-! DEFINITION. Network ingest: the flow table, policers, path merge, slots, acceptance, band deadlines and ancillary data
(R103 to R129, R245, R542). -/

namespace Sys2Proof.Machine

/-! ## The flow table (R103 to R107) -/

/-- An address in the IPv4-mapped IPv6 form (R104). -/
def mapped (v6 : Bool) (a : Nat) : Nat := if v6 then a else 281470681743360 + a % 4294967296

/-- Address of an entry, four words from `f`. -/
def State.ftAddr (s : State) (i : Nat) (f : Nat → Nat → Nat) : Nat :=
  let v6 := s.bit (Reg.FT_CTRL i) 30
  mapped v6 (if v6 then
    ((s.rdN (f i 0) * 4294967296 + s.rdN (f i 1)) * 4294967296 + s.rdN (f i 2)) * 4294967296 + s.rdN (f i 3)
   else s.rdN (f i 0))

/-- Does entry `i` match the frame under one of the four keys (R104, R105)? -/
def State.flowMatches (s : State) (m : MediaFrame) (path : Nat) (useSrc useVlan : Bool) (i : Nat) : Bool :=
  let c := Reg.FT_CTRL i
  (s.bit c 29 == useSrc) && (s.bit c 28 == useVlan) && decide (s.fld c 27 27 = path) &&
  decide (s.fld (Reg.FT_VLAN_PORT i) 15 0 = m.dport) &&
  (!useVlan || m.tags.head? == some (s.fld (Reg.FT_VLAN_PORT i) 27 16)) &&
  decide (s.ftAddr i Reg.FT_DST = mapped m.ipv6 m.dst) && (!useSrc || decide (s.ftAddr i Reg.FT_SRC = mapped m.ipv6 m.src))

/-- The four keys in order (R105). -/
def State.flowOf (s : State) (m : MediaFrame) (path : Nat) : Option Nat :=
  let fs := s.flows
  [(true, true), (true, false), (false, true), (false, false)].findSome? fun k =>
    fs.find? fun i => s.flowMatches m path k.1 k.2 i

/-- Fill of the entry's bucket on the port now, in 1/8000 byte: CIR Mb/s is CIR of them in each ns (R107). -/
def State.bucketFill (s : State) (i port : Nat) : Nat :=
  let full := 8000 * s.fld (Reg.FT_POL_BURST i) 23 0
  match s.ing.buckets.find? (fun b => b.entry == i && b.port == port) with
  | none => full
  | some b => min full (b.fill + s.fld (Reg.FT_POL_RATE i) 19 0 * (s.now - b.at_).toNat)

def State.setBucket (s : State) (i port fill : Nat) : State :=
  let rest := s.ing.buckets.filter fun b => !(b.entry == i && b.port == port)
  { s with ing := { s.ing with buckets := ⟨i, port, fill, s.now⟩ :: rest } }

/-- Refill the buckets of an entry on every port (R106). -/
def State.refill (s : State) (i : Nat) : State :=
  { s with ing := { s.ing with buckets := s.ing.buckets.filter fun b => b.entry != i } }

/-- Take a sequence number of a flow: already taken within the last 20 ms (R110)? -/
def State.seqTaken (s : State) (flow seq : Nat) : Bool :=
  s.ing.seen.any fun e => e.1 == flow && e.2.1 == seq && decide (s.now < e.2.2 + 20000000)

def State.takeSeq (s : State) (flow seq : Nat) : State :=
  let recent := s.ing.seen.filter fun e => decide (s.now < e.2.2 + 20000000)
  { s with ing := { s.ing with seen := (flow, seq, s.now) :: recent } }

/-- One flow has one number with its partner entry (R103, R110). -/
def State.flowKey (s : State) (i : Nat) : Nat := min i (s.fld (Reg.FT_CTRL i) 15 0)

/-! ## Paths and skew (R111) -/

/-- Index of the latest slot whose boundary is at or before now, for the input-loss event (R129). -/
def State.slotNow (s : State) (m : Nat) : Nat :=
  (gridFrom (s.rate m) (s.now + (s.chan m).doff + 1) - 1 - (s.chan m).anchor).toNat

def State.setPath (s : State) (m path : Nat) (up : Bool) : State :=
  let was := ((s.chan m).paths.getD path ⟨false, none⟩).up
  let s := s.modChan m fun c => { c with paths := c.paths.set path ⟨up, if up then some s.now else none⟩ }
  let s := s.setBit (Reg.CHN_IN_STATUS m) path up
  s.when (decide (was ≠ up)) fun s => s.inputEvent m (if up then 2 else 1) path (s.slotNow m)

/-- Show the average skew of the picture with timestamp `ts`, saturating, and set or clear SKEW_OVER (R111, R128). -/
def State.showSkew (s : State) (m ts : Nat) : State :=
  match (s.chan m).skew.find? fun e => e.1 == ts with
  | none => s
  | some (_, sum, n) =>
    if n = 0 then s
    else
      let up := if sum.natAbs % (n * 1000) = 0 then 0 else Config.roundUp s.fresh % 2
      let us : Nat := sum.natAbs / (n * 1000) + up
      let s := s.freshId.wrN (Reg.CHN_IN_SKEW_MEAS m) (b2n (decide (0 < sum)) * 65536 + min us 65535)
      let isOver := decide (s.fld (Reg.CHN_IN_SKEW m) 13 0 < us)
      let was := s.bit (Reg.CHN_IN_STATUS m) 6
      (s.setBit (Reg.CHN_IN_STATUS m) 6 isOver).when (isOver != was) fun s =>
        s.inputEvent m (if isOver then 6 else 7) 0 (s.slotNow m)

/-- A copy of a datagram of the picture `ts` arrives (R111): blue minus red arrival of its two copies counts for that picture, for a
TS flow for the one under way at the first copy. The average of a picture is shown when the next begins, and again for a copy that
comes later. Copies a second or more apart are not paired. DESIGN CHOICE (log 50). -/
def State.noteSkew (s : State) (m path seq ts : Nat) : State :=
  let c := s.chan m
  let fresh := c.arrivals.filter fun a => decide (s.now < a.2.2.2 + 1000000000)
  match fresh.find? fun a => a.1 != path && a.2.1 == seq && (a.2.2.1 == ts || s.chKind m == 1) with
  | none =>
    let new := !c.skew.any fun e => e.1 == ts
    let s := match new, c.skew with
      | true, e :: _ => s.showSkew m e.1
      | _, _ => s
    let waited := fun (k : Nat) => fresh.any fun a => a.2.2.1 == k
    let skew := if new then (ts, (0 : Int), 0) :: (c.skew.take 1 ++ (c.skew.drop 1).filter fun e => waited e.1) else c.skew
    s.modChan m fun c => { c with skew := skew, arrivals := (path, seq, ts, s.now) :: fresh }
  | some a =>
    let d : Int := if path = 1 then s.now - a.2.2.2 else a.2.2.2 - s.now
    let late := decide ((c.skew.head?.map (·.1)) ≠ some a.2.2.1)
    let s := s.modChan m fun c => { c with
      skew := c.skew.map fun e => (if e.1 = a.2.2.1 then (e.1, e.2.1 + d, e.2.2 + 1) else e), arrivals := fresh.filter (· ≠ a) }
    s.when late fun s => s.showSkew m a.2.2.1

/-! ## Lines of a band (R542) -/

/-- A rotation of 180° or mirroring top to bottom, but not both, turns the lines of item `k` over. -/
def State.flipped (s : State) (n k : Nat) : Bool :=
  decide (s.fld (Reg.CHN_IN_PREP n) 1 0 = 2) != ((s.item? n k).map (·.dr.mirrorV)).getD false

/-- First and last input line that band `b` needs. -/
def State.bandLines (s : State) (n k b : Nat) : Nat × Nat :=
  let m := s.inputOf n
  let hin : Int := s.fld (Reg.CHN_IN_SIZE m) 28 16
  let h : Int := s.chH n
  let rot := s.fld (Reg.CHN_IN_PREP n) 1 0
  if rot % 2 = 1 then (0, (hin - 1).toNat)
  else
    let p := fun (y : Int) => ((2 * y + 1) * hin - h) / (2 * h)
    let y0 := max 0 (128 * (b : Int) - 4)
    let y1 := min (h - 1) (128 * ((b : Int) + 1) + 3)
    let lo := clipInt 0 (hin - 1) (p y0 - 3)
    let hi := clipInt 0 (hin - 1) (p y1 + 4)
    if s.flipped n k then ((hin - 1 - hi).toNat, (hin - 1 - lo).toNat) else (lo.toNat, hi.toNat)

/-- One past the last sample reached from sample `a` by runs of a line. -/
def reach (a : Nat) (runs : List (Nat × Nat)) : Nat :=
  runs.foldl (fun r _ => runs.foldl (fun r x => if x.1 ≤ r ∧ r < x.2 then x.2 else r) r) a

/-- Every sample of the line has arrived. -/
def Item.lineHeld (it : Item) (w line : Nat) : Bool :=
  decide (w ≤ reach 0 ((it.got.filter fun g => g.1 == line).map (·.2)))

def State.inWidth (s : State) (n : Nat) : Nat := s.fld (Reg.CHN_IN_SIZE (s.inputOf n)) 12 0

/-- Lines of band `b` that lack a sample, ascending. -/
def State.missingLines (s : State) (n : Nat) (it : Item) (b : Nat) : List Nat :=
  let (lo, hi) := s.bandLines n it.idx b
  ((List.range (hi + 1 - lo)).map (lo + ·)).filter fun l => !it.lineHeld (s.inWidth n) l

/-- Runs of consecutive lines: first and count. -/
def runsOf : List Nat → List (Nat × Nat)
  | [] => []
  | l :: ls => match runsOf ls with
    | (a, c) :: r => if a = l + 1 then (l, c + 1) :: r else (l, 1) :: (a, c) :: r
    | [] => [(l, 1)]

/-- The band entry for a repair map (R173): more than 16 runs are written as 255. -/
def entryFor (n k b : Nat) (missing : List Nat) : BandEntry :=
  let r := runsOf missing
  if 16 < r.length then ⟨n, k, b, 255, []⟩ else ⟨n, k, b, r.length, r⟩

/-- Lines that an entry repairs. -/
def State.entryLines (s : State) (n : Nat) (e : BandEntry) : Nat :=
  if e.runs = 255 then (let (lo, hi) := s.bandLines n e.index e.band; hi + 1 - lo) else sumOver (e.lines.map (·.2)) id

/-- The lines themselves. -/
def State.entryList (s : State) (n : Nat) (e : BandEntry) : List Nat :=
  if e.runs = 255 then (let (lo, hi) := s.bandLines n e.index e.band; (List.range (hi + 1 - lo)).map (lo + ·))
  else e.lines.flatMap fun r => (List.range r.2).map (r.1 + ·)

/-- Repair the lines of the entry and make the band ready (R117 to R119); a repaired line lacks no sample from then on. -/
def State.repairBand (s : State) (n k b : Nat) (e : BandEntry) (own : Bool) : State :=
  let lines := s.entryLines n e
  let m := s.inputOf n
  let w := s.inWidth n
  let whole := (s.entryList n e).map fun l => (l, 0, w)
  let s := (s.modItem n k fun it => { it with got := it.got ++ whole }).repairRuns n k (s.entryList n e)
  let s := s.bump (Reg.CHN_IN_LINES_REP m) lines
  let s := s.when (s.chKind m == 1) fun s => (s.bump (Reg.CHN_IN_LATE_LINES m) lines).when ((s.servedBy m).head? == some n)
    fun s => s.bump (Reg.MD_LATE_LINES (s.decodeDie m)) lines
  s.bandReady n k b e own

/-- A standby's band becomes ready by the holder's entry, once every line outside its map has arrived or its own deadline
has passed (R119, R343). -/
def State.followBand (s : State) (n k b : Nat) : State :=
  match s.item? n k, (s.chan n).entries.find? (fun e => e.index == k && e.band == b) with
  | some it, some e =>
    let mapped := fun (l : Nat) => e.runs == 255 || e.lines.any fun r => decide (r.1 ≤ l) && decide (l < r.1 + r.2)
    s.when (decide ((it.band b).done = 0) && ((it.band b).due || (s.missingLines n it b).all mapped)) fun s =>
      s.repairBand n k b e false
  | _, _ => s

/-- Bands whose own lines and the next band's have all arrived become ready (R117). -/
def State.readyBands (s : State) (n k : Nat) : State :=
  if s.follows n then s.each (List.range (s.bands n)) fun b s => s.followBand n k b
  else s.each (List.range (s.bands n)) fun b s =>
    match s.item? n k with
    | none => s
    | some it => s.when (decide ((it.band b).done = 0) && decide (s.missingLines n it b = []) &&
        (decide (s.bands n ≤ b + 1) || decide (s.missingLines n it (b + 1) = []))) fun s =>
      s.bandReady n k b (entryFor n k b []) false

/-! ## Slots and acceptance (R112 to R116) -/

/-- The item whose window holds the instant `p` on the DTC (R113, R330). -/
def State.slotOf (s : State) (n : Nat) (p : Int) : Option Item :=
  let r : Int := s.rate n
  match (s.chan n).items.find? (fun it => decide (2 * (p - bndDtc it) * r < perNum)) with
  | none => none
  | some it =>
    let oldest := ((s.chan n).items.head?.map (·.idx)) == some it.idx
    if oldest && decide (2 * (p - bndDtc it) * r < -(perNum : Int)) then none else some it

/-- Clear an absence run (R115): RETURN. -/
def State.endAbsence (s : State) (m k : Nat) : State :=
  if (s.chan m).absent.isNone then s
  else
    let s := s.modChan m fun c => { c with absent := none, slating := false }
    ((s.setBit (Reg.CHN_IN_STATUS m) 4 false).setBit (Reg.CHN_IN_STATUS m) 5 false).inputEvent m 5 0 k

/-- TS_UNLOCKED of context `m` (R112). -/
def State.setUnlocked (s : State) (m : Nat) (b : Bool) : State :=
  let was := s.bit (Reg.CHN_IN_STATUS m) 7
  (s.setBit (Reg.CHN_IN_STATUS m) 7 b).when (b != was) fun s => s.inputEvent m (if b then 8 else 9) 0 (s.slotNow m)

/-- Index of the slot of channel `n` whose window holds the instant `p` on the DTC (R113). -/
def State.slotIndex (s : State) (n : Nat) (p : Int) : Int :=
  let c := s.chan n
  (2 * (p + c.doff) * (s.rate n : Int) + (perNum : Int)) / (2 * (perNum : Int)) - c.anchor

/-- An empty slot of a context begins or goes on with an absence run, which has reached its slates where `slate` (R115). -/
def State.noteAbsence (s : State) (m j : Nat) (b : Int) (slate : Bool) : State :=
  let s := s.when (s.chan m).absent.isNone fun s =>
    ((s.modChan m fun c => { c with absent := some b }).setBit (Reg.CHN_IN_STATUS m) 4 true).inputEvent m 3 0 j
  s.when (slate && !(s.chan m).slating) fun s =>
    ((s.modChan m fun c => { c with slating := true }).setBit (Reg.CHN_IN_STATUS m) 5 true).inputEvent m 4 0 j

/-- R115: at A + T/2 the empty slot of item `k` is filled with a slate or a repeat picture, in the context and in its
renditions. -/
def State.emptySlot (s : State) (n k : Nat) : State :=
  match s.item? n k with
  | none => s
  | some it =>
    if it.inputFixed || it.accepted || !it.controlFixed || s.follows n then s
    else
      let m := s.inputOf n
      let b := bndDtc it
      let start := ((s.chan m).absent).getD b
      let slate := it.dr.slateEn && decide (start + 10000000 * it.dr.slateTime ≤ b)
      let s := s.noteAbsence m (s.sourceIndex n k).toNat b slate
      s.each (s.slotItems m b) fun e s => s.fixInput e.1 e.2 (if slate then 2 else 1) 0 0

/-- The picture `ts` is refused (R114): counted, recorded with action 3 for slot `k`, and its later datagrams discarded. -/
def State.refusePic (s : State) (n k ts : Nat) (size : Bool) : State :=
  let s := (s.bump (Reg.CHN_PIC_REFUSED n)).modChan n fun c => { c with refused := recentStamps c.refused ts }
  s.fail n 3 (if size then 7 else 8) 0 0 255 0 k 0

/-- A + T/2 of the item's slot, with A at P = B_k, has come (R115). -/
def State.slotPast (s : State) (n : Nat) (it : Item) : Bool :=
  decide ((perNum : Int) ≤ 2 * (s.now - s.alignAt n it) * (s.rate n : Int))

/-- What a rendition's item takes of its source's item in the same slot (R174): repeat where that had to become one. -/
def State.sourceOutcome (s : State) (m n : Nat) (it : Item) : Nat :=
  if m = n then 0
  else (((s.chan m).items.find? fun x => decide (bndDtc x = bndDtc it) && x.inputFixed).map (·.dr.outcome)).getD 0

/-- A picture arrives for channel `n` of context `m` at its first datagram, or at its first decode piece (R114, R245): accepted
into its free slot, or refused, also where its slot is past (R115); one before the channel's first slot has none, and is discarded. `size` is false where a decoded size differs from CHN_IN_SIZE. A
slot whose control step is still to come takes the picture at a later datagram (DESIGN CHOICE, log 49). -/
def State.arriveAt (s : State) (m n ts : Nat) (p : Int) (size : Bool) : State :=
  let s := match s.slotOf n p with
    | none => s
    | some it => s.when (s.slotPast n it) fun s => s.emptySlot n it.idx
  match s.slotOf n p with
  | none =>
    let k := s.slotIndex n p
    s.when (decide (0 ≤ k) && decide (k < (s.chan n).next)) fun s => s.refusePic n k.toNat ts size
  | some it =>
    let k := it.idx
    let holders := s.follows n && decide (it.dr.outcome = 0) && decide (it.dr.sourceTs = ts)
    if (it.inputFixed && !holders) || it.accepted || !size || (s.slotPast n it && !s.follows n) then s.refusePic n k ts size
    else
      let s := s.modItem n k fun it => { it with
        accepted := true, accAt := s.now, pAt := some p,
        dr := if it.inputFixed then it.dr else { it.dr with sourceTs := ts, refInstant := (p % 4294967296).toNat } }
      let s := s.modChan n fun c => { c with taken := recentStamps c.taken ts }
      let s := s.modPic n k fun x => { x with sampling := s.fld (Reg.CHN_IN_FORMAT m) 5 4 }
      if s.follows n then s
      else (s.endAbsence m (s.sourceIndex n k).toNat).fixInput n k (s.sourceOutcome m n it) ts (p % 4294967296).toNat

/-- A 32-bit timestamp at `hz` extended to the count nearest to PTP-visible time (R112, R172). -/
def State.extend (s : State) (hz ts : Nat) : Int :=
  let count := (s.now + s.clk.doff) * (hz : Int) / 1000000000
  count + signed32 ((ts : Int) - count)

/-- The instant, in PTP-visible ns, that a 32-bit timestamp at `hz` gives (R112). -/
def State.unwrap (s : State) (hz ts : Nat) : Int := s.extend hz ts * 1000000000 / (hz : Int)

/-- A picture of context `m` with reference instant `p0` on the DTC arrives: for its own channel and for its renditions. Where P lies
more than two periods from now, it is the arrival less TRO (R112). -/
def State.arrive (s : State) (m ts : Nat) (p0 : Int) (size : Bool) : State :=
  let far := s.chKind m != 1 && decide (2 * perNum < (p0 - s.now).natAbs * s.rate m)
  let p := if far then s.now - 1000 * s.fld (Reg.CHN_IN_TRO m) 10 0 else p0
  let s := s.setUnlocked m far
  s.each (s.servedBy m) fun n s => s.arriveAt m n ts p size

/-- The item of channel `n` that holds the picture with timestamp `ts`. -/
def State.itemOfTs (s : State) (n ts : Nat) : Option Item :=
  (s.chan n).items.find? fun it => it.accepted && it.dr.sourceTs == ts && decide (it.form = Form.coded)

/-- Band in whose rows an input line of item `k` lies, as the line reaches the scaler; of a picture turned by 90° or 270° every
band has the same deadline (R122). -/
def State.lineBand (s : State) (n k line : Nat) : Nat :=
  let h := s.fld (Reg.CHN_IN_SIZE (s.inputOf n)) 28 16
  let at_ := if s.flipped n k then h - 1 - line else line
  at_ * s.chH n / max 1 h / 128

/-- A of an accepted picture, from its own P (R112). -/
def State.alignOf (s : State) (n : Nat) (it : Item) : Int :=
  match it.pAt with
  | some p => p + s.align n
  | none => s.alignAt n it

/-- The deadline of band `b` (R117, R122) has passed: A + T × min(1, (128 (b + 2) + 8) ÷ H). -/
def State.bandLate (s : State) (n : Nat) (it : Item) (b : Nat) : Bool :=
  let h := s.chH n
  let part := if s.fld (Reg.CHN_IN_PREP n) 1 0 % 2 = 1 then h else min h (128 * (b + 2) + 8)
  decide ((perNum * part : Nat) ≤ (s.now - s.alignOf n it) * (h * s.rate n : Nat))

/-- The item holds every sample of a run already. -/
def Item.runHeld (it : Item) (r : LineRun) : Bool :=
  decide (r.hi ≤ reach r.lo ((it.got.filter fun g => g.1 == r.line).map (·.2)))

/-- Samples of a video datagram (R109): written where the band's deadline has not passed; late and duplicate copies are
counted on the context, late ones also once the picture's item is gone. A run that a band made ready by the holder's entry lacks comes too late for it. The first write of a
sample stands. -/
def State.videoWrite (s : State) (m n ts : Nat) (runs : List LineRun) (count : Bool) : State :=
  match s.itemOfTs n ts with
  | none =>
    let gone := (s.chan n).taken.contains ts && !(s.chan n).items.any fun it => it.accepted && it.dr.sourceTs == ts
    s.when (count && gone) fun s => s.bump (Reg.CHN_IN_LATE m)
  | some it =>
    let inTime := runs.filter fun r => !s.bandLate n it (s.lineBand n it.idx r.line) &&
      (decide ((it.band (s.lineBand n it.idx r.line)).done = 0) || it.runHeld r)
    if inTime = [] then s.when count fun s => s.bump (Reg.CHN_IN_LATE m)
    else
      let fresh := inTime.filter fun r => !it.runHeld r
      let s := s.when (count && fresh.isEmpty) fun s => s.bump (Reg.CHN_IN_DUP m)
      let s := s.modItem n it.idx fun it => { it with got := it.got ++ fresh.map fun r => (r.line, r.lo, r.hi) }
      let s := s.modPic n it.idx fun x => { x with input := x.input ++ fresh }
      s.readyBands n it.idx

/-! ## Ancillary data (R125, R126) -/

/-- Index, in the context `m`, of a slot that a channel it serves gives (R79). -/
def State.slotAt (s : State) (m : Nat) (p : Int) : Option Nat :=
  (s.servedBy m).findSome? fun n => (s.slotOf n p).map fun it => (s.sourceIndex n it.idx).toNat

/-- The first index of context `m` whose record is not yet fixed; a control step that falls on this very instant takes no more
(R171). -/
def State.openIndex (s : State) (m : Nat) : Nat :=
  ((s.servedBy m).head?.map fun n =>
    let k := (s.chan n).next
    (s.sourceIndex n (if s.controlAt n k ≤ s.now then k + 1 else k)).toNat).getD 0

/-- A splice command carried by slot `carry` of context `m`, to fall on item `at_` (R126, R127). Where both sources name an event, the
ANC flow's command wins: it takes the place of the program's, whose section is sent with no slot from `carry` on, and a command or
cancel of the program's that names it has no effect. -/
def State.addSplice (s : State) (m carry at_ : Nat) (a : SpliceCmd) (anc : Bool) : State :=
  let c := s.chan m
  let same := fun (x : SpliceSection) => x.event == a.event
  if !anc && (c.splices.any (fun x => x.anc && x.id == a.event) || c.sections.any fun x => same x && x.anc && x.stop.isNone) then s
  else
    let ends := fun (x : SpliceSection) =>
      same x && x.stop.isNone && (if a.kind = 5 then decide (carry < x.item) else anc && !x.anc)
    let known := c.sections.filter fun x => !(anc && same x && !x.anc && decide (x.carry = carry))
    let stopped := known.map fun x => (if ends x then { x with stop := some carry } else x)
    if a.kind = 5 then
      s.modChan m fun c => { c with
        splices := c.splices.filter fun x => x.id != a.event, sections := stopped ++ [⟨a.event, 5, carry, carry, none, a.body, anc⟩] }
    else
      let keep := if anc then c.splices.filter (fun x => x.anc || x.id != a.event) else c.splices
      if 16 ≤ keep.length then s.bump (Reg.CHN_IN_ANC_DROP m)
      else
        let sp : Splice := ⟨a.event, a.kind, carry, if a.kind = 2 ∨ a.kind = 4 then s.openIndex m
          else max (s.openIndex m) at_, a.body, anc⟩
        s.modChan m fun c => { c with
          splices := keep ++ [sp], sections := stopped ++ [⟨sp.id, sp.kind, carry, sp.item, none, a.body, anc⟩] }

/-- Data of an ancillary packet (R125) and its DID and SDID; none where the checksum is bad. PRESUMED (log 51), from SMPTE ST 291-1:
the checksum is the sum, modulo 512, of the nine low bits of DID, SDID, data count and data. -/
def ancParse (l : List Nat) : Option (Nat × Nat × List Byte) :=
  match l with
  | did :: sdid :: dc :: rest =>
    let body := rest.take (dc % 256)
    let sum := (did :: sdid :: dc :: body).foldl (fun a w => a + w % 512) 0 % 512
    if (rest[dc % 256]?.map (· % 512)) = some sum then some (did % 256, sdid % 256, body.map fun w => BitVec.ofNat 8 w) else none
  | _ => none

/-- opIDs that the device extracts (R125). -/
def opSupported (i : Nat) : Bool := i == 0x0101 || i == 0x0104 || i == 0x010B

/-- The cc_data of a caption distribution packet, three bytes each (R125). PRESUMED (log 51), from SMPTE ST 334-2: the time code
section, if the flags announce one, is 5 bytes long; the caption section begins with 0x72 and the count. -/
def captionsOf (cdp : List Byte) : List Byte :=
  let at_ := fun (i : Nat) => (cdp.getD i 0).toNat
  let from_ := if at_ 4 / 128 % 2 = 1 then 12 else 7
  if at_ 0 ≠ 0x96 ∨ at_ 1 ≠ 0x69 ∨ at_ 4 / 64 % 2 = 0 ∨ at_ from_ ≠ 0x72 then []
  else (cdp.drop (from_ + 2)).take (3 * (at_ (from_ + 1) % 32))

/-- A packet of an ST 2110-40 flow, sampled at `p` on the DTC (R125, R126). The cc_data of every caption packet of a slot goes with its
item, in order; of AFD the latest stands. -/
def State.ancPacket (s : State) (m : Nat) (p : Int) (l : List Nat) : State :=
  let put := fun (f : Item → Item) => s.each (s.servedBy m) fun n s => match s.slotOf n p with
    | none => s
    | some it => s.modItem n it.idx f
  match ancParse l with
  | none => s.bump (Reg.CHN_IN_ANC_DROP m)
  | some (did, sdid, data) =>
    if did = 0x61 ∧ sdid = 0x01 then put fun it => { it with captions := it.captions ++ captionsOf data }
    else if did = 0x41 ∧ sdid = 0x05 then put fun it => { it with afd := data }
    else if did = 0x41 ∧ sdid = 0x07 ∧ (Config.scte104 data).1.all opSupported then
      match s.slotAt m p with
      | none => s
      | some k => s.each (Config.scte104 data).2 fun a s => s.addSplice m k (k + ceilDiv (a.preroll * s.rate m) 1001000) a true
    else s.bump (Reg.CHN_IN_ANC_DROP m)

/-- A PTS of the program as an instant on the DTC, before the offset of R112: as far from the latest PCR's arrival as the two differ.
DESIGN CHOICE (log 49): without a PCR so far, the present instant. -/
def State.ptsInstant (s : State) (m pts : Nat) : Int :=
  match (s.chan m).pcr with
  | none => s.now
  | some (c, t) =>
    let d := ((pts * 300 : Nat) - (c : Int)) % 2576980377600
    t + (if d < 1288490188800 then d else d - 2576980377600) * 1000 / 27

/-- A SCTE-35 command of a contribution stream for the splice time `pts` (R127): mapped to the first boundary at or after it. -/
def State.tsSplice (s : State) (m : Nat) (a : SpliceCmd) (pts : Nat) : State :=
  if a.kind = 0 then s.bump (Reg.CHN_IN_ANC_DROP m)
  else
    let at_ := match (s.chan m).tsOffset with
      | none => 0
      | some off => (gridFrom (s.rate m) (s.ptsInstant m pts + off + s.clk.doff) - (s.chan m).anchor).toNat
    s.addSplice m (s.slotNow m) at_ a false

end Sys2Proof.Machine
end

