-- ==== Sys2Proof/Machine/Contrib.lean ====
section
/-! DEFINITION. Contribution flows up to the decoder: sequence, gaps, the demultiplexer, access units and the pictures they open
(R110, R112, R127, R236, R244 to R248, R251, R253). -/

namespace Sys2Proof.Machine

/-! ## Errors (R247, R254) -/

/-- Errors of the classes of R247, each class raised at its first in any second of the channel (R254). -/
def State.decodeErrors (s : State) (m : Nat) (errs : List Nat) : State :=
  s.each errs fun e s =>
    let seen := (s.chan m).errsAt.any fun x => x.1 == e && decide (s.now < x.2 + 1000000000)
    let s := (s.bump (Reg.CHN_IN_DEC_ERR m)).setFld (Reg.CHN_IN_LAST_ERR m) 7 0 e
    if seen then s
    else
      let rest := (s.chan m).errsAt.filter fun x => x.1 != e
      (s.modChan m fun c => { c with errsAt := (e, s.now) :: rest }).raise (64 + 64 * s.decodeDie m + 9) (e + 16777216 * m)

def State.demux (s : State) (m : Nat) : Demux := (s.chan m).demux

def State.modDemux (s : State) (m : Nat) (f : Demux → Demux) : State := s.modChan m fun c => { c with demux := f c.demux }

/-- An error inside a NAL unit: decoding resumes at the next start code (R248). -/
def State.nalError (s : State) (m e : Nat) : State := (s.decodeErrors m [e]).modDemux m fun d => { d with resync := true }

/-! ## Pictures (R236, R247, R248) -/

/-- A 33-bit PTS as the 64-bit count nearest to the last one (R172). -/
def extendPts (last : Option Nat) (t : Nat) : Nat :=
  match last with
  | none => t
  | some l =>
    let d := (t + 8589934592 - l % 8589934592) % 8589934592
    if d < 4294967296 then l + d else l + d - 8589934592

/-- A missing PTS: the one before plus a picture period (R247). -/
def State.nextPts (s : State) (m : Nat) : Nat := (((s.chan m).lastPts).map (· + 90090000 / s.rate m)).getD 0

/-- The access unit of a picture has ended (R248): its pieces, of 128 luma rows each (R236), are posted. DESIGN CHOICE (log 52): the spec
does not say when a piece is posted; here that is when its access unit has been received. -/
def State.postPic (s : State) (m : Nat) (x : OpenPic) : State :=
  let num := (s.chan m).decNext
  let pieces := ceilDiv x.sps.height 128
  let first := x.slices.head?.map (·.head)
  let d : DecPic :=
    { m := num, pts := x.pts, p := s.ptsInstant m (x.pts % 8589934592), sps := x.sps, sets := (s.demux m).sets, slices := x.slices,
      irap := x.irap, recovery := x.recovery, poc := first.map (·.poc), names := (x.slices.flatMap (·.head.names)).eraseDups,
      pieces := pieces, doneP := 0, begun := false, item := none, captions := x.captions, refs := [], pre := [], filters := [],
      motion := [], ctus := [], lost := [], known := [], state := [], sent := 0, subst := false, refBad := false }
  let s := s.modChan m fun c => { c with decNext := num + 1, dec := c.dec ++ [d] }
  s.each (List.range pieces) fun b s => s.enqueue m num b 0 true

/-- The picture under way ends (R248). -/
def State.endPic (s : State) (m : Nat) : State :=
  match (s.demux m).pic with
  | none => s
  | some x => (s.modDemux m fun d => { d with pic := none }).postPic m x

/-- A picture opens with the slice header `h` (R247, R251): its PTS is that of its PES packet, where no picture has taken it. -/
def State.openPic (s : State) (m : Nat) (sps : SpsInfo) (irap gdr anchor : Bool) (h : SliceHead) : State :=
  let d := s.demux m
  let (s, pts) := match d.pts with
    | some (t, false) => (s, extendPts (s.chan m).lastPts t)
    | _ => (s.decodeErrors m [3], s.nextPts m)
  let at_ : Option Int := match d.recCount, if gdr then h.recovery else none with
    | some c, _ => some (h.poc + c)
    | none, some c => some (h.poc + c)
    | none, none => d.recoverAt
  let recovery := irap || at_ == some h.poc
  let s := s.modChan m fun c => { c with lastPts := some pts }
  s.modDemux m fun d => { d with
    pts := d.pts.map fun t => (t.1, true), sps := some sps, recCount := none, recoverAt := if recovery then none else at_,
    prevPoc := if anchor then h.poc else d.prevPoc, phNew := false, captions := [],
    pic := some ⟨pts, sps, irap, recovery, [], d.captions⟩ }

/-- A picture of which no slice header was decoded, of a PES packet that carried a PTS (R248): every CTU of it is lost. DESIGN CHOICE
(log 52): its size is that of the picture before; before any other, there is none. -/
def State.lostPic (s : State) (m : Nat) : State :=
  let d := s.demux m
  match d.pts, d.sps with
  | some (t, false), some sps =>
    let pts := extendPts (s.chan m).lastPts t
    let s := s.modChan m fun c => { c with lastPts := some pts }
    (s.modDemux m fun d => { d with captions := [] }).postPic m ⟨pts, sps, false, false, [], d.captions⟩
  | _, _ => s

/-! ## NAL units (R244, R247, R248) -/

/-- A parameter set: kept where it is valid and supported; otherwise the last valid one with its ID stays (R244, R247). -/
def State.takeSet (s : State) (m : Nat) (hevc : Bool) (k : SetKind) (l : List Byte) (cut : Bool) : State :=
  match if cut then none else Config.parseSet hevc k (s.demux m).sets l with
  | none => s.nalError m 5
  | some p =>
    if !p.sps.all spsOk then s.nalError m 5
    else s.modDemux m fun d => { d with sets := d.sets.filter (fun x => !(decide (x.kind = p.kind) && x.id == p.id)) ++ [p] }

/-- The sequence parameter set that a slice refers to, through its picture parameter set. -/
def sliceSps (d : Demux) (hevc : Bool) (l : List Byte) : Option SpsInfo :=
  (Config.slicePps hevc d.ph l).bind fun i =>
    (d.sets.find? fun x => decide (x.kind = .pps) && x.id == i).bind fun p =>
      (d.sets.find? fun x => decide (x.kind = .sps) && x.id == p.needs).bind (·.sps)

/-- A slice (R247, R248). It opens a new picture by its flag, after a picture header of its own, or by another picture order count. A
slice address outside the picture, or one that the picture has already, is wrong. -/
def State.takeSlice (s : State) (m : Nat) (hevc : Bool) (l : List Byte) (cut : Bool) : State :=
  let d := s.demux m
  let opens := opensPic l || d.phNew
  let s := s.when opens fun s => s.endPic m
  match sliceSps d hevc l, Config.sliceHead hevc d.sets d.ph d.prevPoc l with
  | some sps, some h =>
    let other := (d.pic.bind fun x => x.slices.head?).any fun x => x.head.poc != h.poc
    let s := s.when other fun s => s.endPic m
    let t := nalType hevc l
    let s := s.when (s.demux m).pic.isNone fun s => s.openPic m sps (nalIrap hevc t) (nalGdr hevc t) (nalAnchor hevc l) h
    match (s.demux m).pic with
    | none => s
    | some x =>
      if spsCtus x.sps ≤ h.addr ∨ x.slices.any (fun y => y.head.addr == h.addr) then s.nalError m 6
      else s.modDemux m fun d => { d with pic := some { x with slices := x.slices ++ [⟨h, l, cut⟩] } }
  | _, _ => s.nalError m 6

/-- A NAL unit, or what stands of one before the first missing byte. -/
def State.takeNal (s : State) (m : Nat) (hevc : Bool) (l : List Byte) (cut : Bool) : State :=
  if l = [] then s
  else if nalBad hevc l then s.nalError m 4
  else if nalLayer hevc l ≠ 0 then s
  else match nalUse hevc (nalType hevc l) with
    | .slice => s.takeSlice m hevc l cut
    | .set k => s.takeSet m hevc k l cut
    | .header => s.modDemux m fun d => { d with ph := l, phNew := true }
    | .delimiter => s.endPic m
    | .sei =>
      let ms := if cut then [] else seiOfNal l
      s.modDemux m fun d => { d with
        captions := d.captions ++ ms.flatMap seiCaptions,
        recCount := if hevc then (ms.findSome? seiRecovery).or d.recCount else none }
    | .other => s

/-! ## The byte stream -/

/-- A unit without the zero bytes that follow it. -/
def trimZeros (l : List Byte) : List Byte := (l.reverse.dropWhile (· == 0)).reverse

/-- The unit under way ends. -/
def State.endUnit (s : State) (m : Nat) (hevc : Bool) : State :=
  let d := s.demux m
  let s := s.modDemux m fun d => { d with nal := none, kept := none, zeros := 0 }
  match d.kept, d.nal with
  | some l, _ => s.takeNal m hevc (trimZeros l) true
  | none, some l => s.takeNal m hevc (trimZeros l) false
  | none, none => s

/-- One byte of the elementary stream: after a start code prefix a unit begins, and where an error came before it, decoding resumes
(R248). -/
def State.takeByte (s : State) (m : Nat) (hevc : Bool) (b : Byte) : State :=
  if 2 ≤ (s.demux m).zeros ∧ b = 1 then
    let s := s.endUnit m hevc
    let s := s.when (s.demux m).resync fun s => s.bump (Reg.CHN_IN_RESYNC m)
    s.modDemux m fun d => { d with nal := some [], resync := false }
  else s.modDemux m fun d => { d with nal := d.nal.map (· ++ [b]), zeros := if b = 0 then d.zeros + 1 else 0 }

/-- Bytes are missing (R247): the unit under way is damaged from there on, and bytes are discarded to the next start code. -/
def State.loseBytes (s : State) (m : Nat) : State :=
  (s.decodeErrors m [2]).modDemux m fun d => { d with
    kept := d.kept.or d.nal, nal := none, zeros := 0, cc := none, resync := true }

/-- A video PES packet begins (R247, R248). One with another PTS ends the picture, and with it the unit under way (DESIGN CHOICE, log
52). -/
def State.beginPes (s : State) (m : Nat) (hevc : Bool) (l : List Byte) : State :=
  match readPes l with
  | none => (s.decodeErrors m [3]).modDemux m fun d => { d with pts := none }
  | some none => s.modDemux m fun d => { d with pts := none }
  | some (some t) =>
    if (s.demux m).pts.map (·.1) = some t then s
    else
      let s := (s.endUnit m hevc).endPic m
      (s.lostPic m).modDemux m fun d => { d with pts := some (t, false) }

/-- A packet of the video PID. One that repeats the continuity counter is the same packet again. -/
def State.videoPacket (s : State) (m : Nat) (hevc : Bool) (p : TsRead) : State :=
  let last := (s.demux m).cc
  if !p.hasPayload || (last == some p.cc && !p.disc) then s
  else
    let s := s.when (!p.disc && last.any fun c => p.cc != (c + 1) % 16) fun s => s.loseBytes m
    let s := s.modDemux m fun d => { d with cc := some p.cc }
    let s := s.when p.unit fun s => s.beginPes m hevc p.payload
    s.each (if p.unit then pesBody p.payload else p.payload) fun b s => s.takeByte m hevc b

/-! ## Tables, audio and splices (R112, R127) -/

/-- A PMT of the program: its PIDs, and the codec seen (R100, R253). -/
def State.takePmt (s : State) (m : Nat) (l : List Byte) : State :=
  let (pcr, streams) := readPmt l
  let video := (streams.find? fun x => x.1 == 0x33 || x.1 == 0x24).map fun x => (x.2.1, x.1 == 0x24)
  let s := s.setFld (Reg.CHN_IN_DEC_STATUS m) 1 0 (match video with
    | some (_, true) => 2
    | some (_, false) => 1
    | none => 0)
  s.modDemux m fun d => { d with
    video := video, pcr := some pcr, audio := (streams.filter fun x => is302 x.1 x.2.2).map (·.2.1),
    splice := (streams.filter fun x => x.1 == 0x86).map (·.2.1), cc := if d.video = video then d.cc else none }

/-- A section of a PID. -/
def State.takeSection (s : State) (m pid : Nat) (l : List Byte) : State :=
  let program := s.fld (Reg.CHN_IN_TS m) 15 0
  if crcOf crcMpegParams l ≠ 0 then s
  else if pid = 0 then
    s.when (sectionOk l && decide (octet l 0 = 0)) fun s => s.modDemux m fun d => { d with pmt := (patPid program l).or d.pmt }
  else if (s.demux m).pmt = some pid then
    s.when (sectionOk l && decide (octet l 0 = 2) && decide (octet2 l 3 = program)) fun s => s.takePmt m l
  else match if (s.demux m).splice.contains pid && decide (octet l 0 = 0xFC) then Config.readSplice l else none with
    | none => s
    | some (a, pts) => s.tsSplice m a pts

/-- An ST 302M PES packet that is complete: its words go to the audio buffers (R127, R135). -/
def State.take302 (s : State) (m pid : Nat) (l : List Byte) : State :=
  let now := s.now
  s.each (Config.read302 (pesBody l)).zipIdx fun e s =>
    let b := Config.buffer302 m pid e.2 % 1024
    let s := s.each e.1 fun w s => s.audioWrite b (BitVec.ofNat 32 (w.toNat / 256 * 256)) now
    s.setAbuf b { s.abuf b with from302 := some m }

def State.audioPacket (s : State) (m : Nat) (p : TsRead) : State :=
  let held := if p.unit then some p.payload else (((s.demux m).pes.find? fun e => e.1 == p.pid).map (·.2 ++ p.payload))
  let rest := (s.demux m).pes.filter fun e => e.1 != p.pid
  match held with
  | none => s
  | some l =>
    if 6 ≤ l.length ∧ 6 + octet2 l 4 ≤ l.length then
      (s.modDemux m fun d => { d with pes := rest }).take302 m p.pid (l.take (6 + octet2 l 4))
    else s.modDemux m fun d => { d with pes := (p.pid, l) :: rest }

/-- A packet of PAT, PMT or SCTE-35 sections. -/
def State.tablePacket (s : State) (m : Nat) (p : TsRead) : State :=
  let d := s.demux m
  if p.pid = 0 ∨ d.pmt = some p.pid ∨ d.splice.contains p.pid then
    let held := ((d.sections.find? fun e => e.1 == p.pid).map (·.2)).getD []
    let (ended, rest) := addSection held p
    let s := s.modDemux m fun d => { d with
      sections := (if rest = [] then [] else [(p.pid, rest)]) ++ d.sections.filter fun e => e.1 != p.pid }
    s.each ended fun x s => s.takeSection m p.pid x
  else s

/-- A TS packet of the flow, once it stands next in sequence. PIDs that the program does not need are discarded (R127). -/
def State.takePacket (s : State) (m : Nat) (l : List Byte) : State :=
  match readPacket l with
  | none => s.decodeErrors m [1]
  | some p =>
    let now := s.now
    let d := s.demux m
    let s := s.when (d.pcr == some p.pid && p.pcr.isSome) fun s => s.modChan m fun c => { c with pcr := p.pcr.map fun t => (t, now) }
    match d.video with
    | some (pid, hevc) => if pid = p.pid then s.videoPacket m hevc p else if d.audio.contains p.pid then s.audioPacket m p else s.tablePacket m p
    | none => s.tablePacket m p

/-! ## Sequence and gaps (R110, R246) -/

/-- Pass on what stands next in sequence. -/
def State.passOn : Nat → Nat → State → State
  | 0, _, s => s
  | fuel + 1, m, s =>
    match (s.chan m).nextSeq with
    | none => s
    | some q => match (s.chan m).held.find? (fun h => h.1 == q) with
      | none => s
      | some h =>
        let s := s.modChan m fun c => { c with nextSeq := some (q + 1), held := c.held.filter fun x => x.1 != q }
        State.passOn fuel m (s.each h.2 fun p s => s.takePacket m p)

/-- The gap entries for `count` numbers from `first` on: 1 to 65,535 each (R246). -/
def gapEntries (m first count : Nat) : List GapEntry :=
  (List.range (ceilDiv count 65535)).map fun i => ⟨m, min 65535 (count - 65535 * i), first + 65535 * i⟩

/-- A gap from `first` of `count` numbers is passed over, and fixed as gap entries (R110, R246): the bytes are missing (R247). -/
def State.passGap (s : State) (m first count : Nat) : State :=
  let s := s.bump (Reg.CHN_IN_GAPS m) (ceilDiv count 65535)
  let s := s.when (s.paired && s.holding) fun s => s.each (gapEntries m first count) fun g s => s.lanternSend (.gap (gapBytes g))
  let s := s.modChan m fun c => { c with
    nextSeq := some (first + count), held := c.held.filter fun h => decide (first + count ≤ h.1),
    gaps := c.gaps.filter fun g => decide (first + count < g.first + g.count) }
  State.passOn ((s.chan m).held.length + 1) m (s.loseBytes m)

/-- A number lies in a gap that the holder's entries name. -/
def inGap (l : List GapEntry) (q : Nat) : Option GapEntry := l.find? fun g => decide (g.first ≤ q) && decide (q < g.first + g.count)

/-- A standby passes over the gaps that the holder's entries name as it reaches them (R246). -/
def State.followGaps : Nat → Nat → State → State
  | 0, _, s => s
  | fuel + 1, m, s =>
    match (s.chan m).nextSeq with
    | none => s
    | some q => match inGap (s.chan m).gaps q with
      | none => s
      | some g => State.followGaps fuel m (s.passGap m q (g.first + g.count - q))

/-- A standby discards the datagrams that it holds of the gaps that the holder's entries name (R246). -/
def State.dropGapped (s : State) (m : Nat) : State :=
  s.when (s.follows m) fun s => s.modChan m fun c => { c with held := c.held.filter fun h => (inGap c.gaps h.1).isNone }

/-- A datagram of a transcode context's contribution flow, taken once; a context that serves no channel decodes nothing. DESIGN CHOICE (log 49):
the first datagram taken sets the number from which the sequence counts; a lower one after it comes too late. -/
def State.tsDatagram (s : State) (m seq : Nat) (x : List (List Byte)) : State :=
  let c := s.chan m
  if s.servedBy m = [] ∨ s.chKind m ≠ 1 then s
  else match c.nextSeq with
  | some q =>
    if seq < q then s.bump (Reg.CHN_IN_LATE m)
    else
      let s := (s.modChan m fun c => { c with held := (seq, x) :: c.held }).dropGapped m
      let s := State.passOn ((s.chan m).held.length + 1) m s
      State.followGaps (s.chan m).gaps.length m s
  | none =>
    let s := s.modChan m fun c => { c with nextSeq := some seq, held := [(seq, x)] }
    State.passOn 2 m s

end Sys2Proof.Machine
end

