-- ==== Sys2Proof/Machine/Taking.lean ====
section
/-! DEFINITION. How engines take pieces, and what a take brings about (R22, R114, R223, R230, R244, R245, R250, R260, R263). -/

namespace Sys2Proof.Machine

/-- The decoder drops the picture of item `k` from its DPB: its buffer is free once it is prepared (R223). -/
def State.dropPicture (s : State) (m k : Nat) : State :=
  if (s.item? m k).any fun it => it.prep = 1 then s.modChan m fun c => { c with dropped := k :: c.dropped }
  else s.freeBuf m k .input

/-- Pictures dropped from the DPB. -/
def State.dropPics (s : State) (m : Nat) (gone : DpbPic → Bool) : State :=
  let items := ((s.chan m).dpb.filter gone).filterMap (·.item)
  (s.each items fun k s => s.dropPicture m k).modChan m fun c => { c with dpb := c.dpb.filter fun x => !gone x }

/-- The latest of some pictures of the DPB in output order. -/
def latest (l : List DpbPic) : Option DpbPic :=
  l.foldl (fun best x => match best with
    | none => some x
    | some y => if y.pts < x.pts then some x else some y) none

/-- A picture of code 512 at the stream's size. -/
def code512 (x : SpsInfo) : Pic :=
  (List.range 3).map fun c => List.replicate (x.height / subY x.chroma c) (List.replicate (x.width / subX x.chroma c) 512)

/-- Fix a substitute for a picture that is named and not in the DPB, at the first such reference (R250): the latest in output order
of those decoded whole and not marked concealed, or code 512. -/
def State.fixSubst (s : State) (m : Nat) (sps : SpsInfo) (ref : Int) : State :=
  let c := s.chan m
  if c.dpb.any (fun x => x.poc == some ref) || c.subs.any (fun x => x.1 == ref) then s
  else
    let best := ((latest (c.dpb.filter fun x => x.whole && !x.concealed)).map (·.samples)).getD (code512 sps)
    ((s.modChan m fun c => { c with subs := c.subs ++ [(ref, best)] }).bump (Reg.CHN_IN_SUBST m)).decodeErrors m [9]

/-- The reference of a picture order count: a picture of the DPB, or the substitute, which carries no motion (R250). -/
def refPicOf (c : Chan) (q : Int) : List RefPic :=
  match c.dpb.find? fun x => x.poc == some q with
  | some x => [⟨q, x.samples, x.motion⟩]
  | none => ((c.subs.find? fun x => x.1 == q).map fun x => (⟨q, x.2, []⟩ : RefPic)).toList

/-- The references of a contribution picture that begins: what it does not name leaves the DPB, and what is missing gets a substitute.
A picture of which no slice header was decoded names nothing and drops nothing. -/
def State.beginRefs (s : State) (m : Nat) (x : DecPic) : State :=
  if x.slices = [] then s
  else
    let s := s.dropPics m fun y => y.poc.all fun q => !x.names.contains q
    let s := s.modChan m fun c => { c with subs := c.subs.filter fun e => x.names.contains e.1 }
    let s := s.each x.names fun q s => s.fixSubst m x.sps q
    let c := s.chan m
    s.modChan m fun c' => { c' with dec := c'.dec.map fun y => (if y.m = x.m then { y with
      refs := x.names.flatMap (refPicOf c), subst := c.subs.any fun e => x.names.contains e.1,
      refBad := c.dpb.any fun e => e.concealed && e.poc.any x.names.contains } else y) }

/-- The first piece of a contribution picture begins: the picture arrives, with its cropped size (R114, R244, R245). -/
def State.beginDecode (s : State) (m num : Nat) : State :=
  match (s.chan m).dec.find? (fun x => x.m == num) with
  | none => s
  | some x =>
    if x.begun then s
    else
      let off : Int := match (s.chan m).tsOffset with
        | some o => o
        | none => gridAt (s.rate m) (gridFrom (s.rate m) (s.now + s.clk.doff)) - s.clk.doff - x.p
      let p := x.p + off
      let ts := x.pts
      let s := s.modChan m fun c => { c with dec := c.dec.map fun y => (if y.m = num then { y with begun := true } else y) }
      let size := Reg.CHN_IN_SIZE m
      let s := (s.beginRefs m x).arrive m ts p (decide (x.sps.outW = s.fld size 12 0) && decide (x.sps.outH = s.fld size 28 16))
      let it := s.itemOfTs m ts
      s.modChan m fun c => { c with
        tsOffset := if it.isSome then some off else c.tsOffset,
        dec := c.dec.map fun y => (if y.m = num then { y with item := it.map (·.idx) } else y) }

/-- Stage 3 of an item begins: its reconstruction buffer is taken in every part at once, or the item is a repeat picture (R223,
R230). -/
def State.needRecon (s : State) (n k : Nat) : State :=
  if s.bufNo n 0 k .recon ≠ 65535 then s
  else match (if s.split n then [0, 1] else [0]).find? fun q => !s.hasFree n q .recon with
    | some q => s.poolExhausted n k q
    | none => s.takeRecon n k (((s.chan n).items.filter fun it => decide (it.form = .repeated) && !it.refreshed &&
        (s.picOf n it.idx).same == some k).map (·.idx)).reverse

/-- What the take of a piece brings about: marks of R223, the arrival of a decoded picture, the pool shortage of R230. -/
def State.onTake (s : State) (d : Desc) : State :=
  if d.decode then s.beginDecode d.chan d.idx
  else if d.stage = 2 ∧ d.band = 0 then s.reMark d.chan d.idx .source [.lookahead] .coding
  else if d.stage = 3 then s.needRecon d.chan d.idx else s

/-- An engine takes the first descriptor it may serve, or waits (R263). -/
def State.tryTake (s : State) (e : Nat) : State :=
  if !s.engOk e then s
  else match s.eng? e with
    | some (.holds ..) => s
    | some .resets => s
    | some .failed => s
    | _ => match s.bestFor e with
      | none => if (s.eng? e).isSome then s else s.setEng e (some (.waits s.ns))
      | some d => (s.take e d).onTake d

/-- The engine waits for work. -/
def EngSt.isWaiting : EngSt → Bool
  | .waits _ => true
  | .holds .. => false
  | .resets => false
  | .failed => false

/-- An engine's place among those that wait: the longest-waiting first, and of two that began together the lower code. -/
def putWaiter (x : Nat × Nat) : List (Nat × Nat) → List (Nat × Nat)
  | [] => [x]
  | y :: l => if x.1 < y.1 ∨ (x.1 = y.1 ∧ x.2 < y.2) then x :: y :: l else y :: putWaiter x l

/-- Engines that wait, each with since when, in the order in which they take (R263). -/
def State.waiters (s : State) : List (Nat × Nat) :=
  (s.sch.engines.filterMap fun x => match x.2 with
    | .waits t => some (t, x.1)
    | _ => none).foldr putWaiter []

/-- Descriptors that have become READY go to the engines that wait (R263). -/
def State.pumpTakes (s : State) : State := s.each s.waiters fun x s => s.tryTake x.2

/-- R22: the acknowledgement of the next die. A completion that has reached its destination counts there from now on (R260). -/
def execDieLinkAck (dt seq : Nat) (s : State) : Host.Outcome State Fault Refusal :=
  let s := s.elapse dt
  match s.links.flight.find? (fun x => x.seq == seq) with
  | none => done s
  | some t => done ((s.acked t).when (t.note.isSome && decide (farDie t.link = t.dst)) fun s => s.countWaits.pumpTakes)

end Sys2Proof.Machine
end

