-- ==== Sys2Proof/Machine/Frames.lean ====
section
/-! DEFINITION. Received media frames, path loss, gaps, empty slots, band deadlines and the end of preparation (R100 to R120, R125,
R245, R246). -/

namespace Sys2Proof.Machine

/-! ## The frame (R102) -/

/-- The flow's channel context is bound to the entry or its partner. -/
def State.mediaCtx (s : State) (i : Nat) : Nat := s.fld (Reg.FT_BIND i) 30 24

/-- A datagram of the context's media flow, of the picture `ts`, keeps its path up (R111). -/
def State.pathSeen (s : State) (m path seq ts : Nat) : State :=
  if s.servedBy m = [] then s else ((s.setPath m path true).noteSkew m path seq ts)

/-- The input binding of a context names entry `i` or its partner (R128). -/
def State.boundTo (s : State) (a i : Nat) : Bool :=
  s.bit a 31 && (decide (s.fld a 15 0 = i) || decide (s.fld a 15 0 = s.fld (Reg.FT_CTRL i) 15 0))

/-- Dies that need a payload of a context's media flow (R108): the ingest die, and those that code the context or a rendition of
it. A datagram whose rows lie in one part of a split channel goes to that part's die and the ingest die; of a picture turned by 90° or
270° both parts need every row (R122). -/
def State.mediaDies (s : State) (m : Nat) (lines : Option (List Nat)) : List Nat :=
  let partDies := fun (n : Nat) =>
    if !s.split n then [s.dieOf n 0]
    else match lines with
      | none => [s.dieOf n 0, s.dieOf n 1]
      | some l =>
        let parts := (l.map fun x => s.partOf n (s.lineBand n (s.chan n).next x)).eraseDups
        (if s.fld (Reg.CHN_IN_PREP n) 1 0 % 2 = 1 then [0, 1] else parts).map (s.dieOf n)
  (s.decodeDie m :: (s.servedBy m).flatMap partDies).eraseDups

/-- Post the payload over the die links from the port's die (R29, R108). -/
def State.sendOn (s : State) (port : Nat) (dies : List Nat) : State := s.each dies fun d s => s.postAs true none port d

/-- A sample row segment lies inside the picture (R100). -/
def State.insidePic (s : State) (m : Nat) (r : VideoRun) : Bool :=
  let size := Reg.CHN_IN_SIZE m
  decide (r.line < s.fld size 28 16) && decide (r.lo < r.hi) && decide (r.hi ≤ s.fld size 12 0)

/-- Payload octets of an audio datagram (R100): L16, L24, or 4 octets a subframe. -/
def audioLen (bytes : Nat) (samples : List (List AudioSample)) : Nat := bytes * samples.foldl (fun a l => a + l.length) 0

/-- A frame matched by entry `i` that conforms (R108 to R110, R125). -/
def State.forward (s : State) (i path : Nat) (m : MediaFrame) : State :=
  let port := m.port
  let malformed := fun (s : State) => s.bump (Reg.NP_RX_MALFORMED port m.sub)
  let key := s.flowKey i
  let ess := s.fld (Reg.FT_CTRL i) 26 24
  let c := s.mediaCtx i
  let p := s.unwrap 90000 m.ts - s.clk.doff
  match m.body with
  | .video runs =>
    if ess ≠ 0 ∨ 3 < runs.length ∨ !runs.all (s.insidePic c) then malformed s
    else if !s.boundTo (Reg.CHN_IN_MEDIA c) i then s
    else
      let s := s.sendOn port (s.mediaDies c (some (runs.map (·.line))))
      let ts := (s.extend 90000 m.ts).toNat
      let s := s.pathSeen c path m.seq ts
      let known := (s.servedBy c).any fun n => (s.chan n).refused.contains ts || (s.chan n).taken.contains ts
      let s := if known then s else s.arrive c ts p true
      let first := (s.servedBy c).head?
      let fmt := Reg.CHN_IN_FORMAT c
      let lines := runs.map (unpackRun (s.fld fmt 5 4) (if s.fld fmt 1 0 = 1 then 12 else 10))
      s.each (s.servedBy c) fun n s => s.videoWrite c n ts lines (some n == first)
  | .audio samples =>
    let l24 := s.bit (Reg.FT_FORMAT i) 8
    if (ess ≠ 1 ∧ ess ≠ 2) ∨ 64 < samples.length ∨ 1440 < audioLen (if ess = 2 then 4 else if l24 then 3 else 2) samples then
      malformed s
    else if s.seqTaken key m.seq then s
    else
      let s := s.takeSeq key m.seq
      let buf := s.fld (Reg.FT_BIND i) 19 10
      let nch := s.fld (Reg.FT_BIND i) 6 0
      let fs := if s.bit (Reg.FT_FORMAT i) 4 then 96000 else 48000
      let s := s.sendOn port ((List.range (min nch samples.length)).map fun ch => s.bufDie (buf + ch)).eraseDups
      let first := s.unwrap fs m.ts - s.clk.doff
      s.each (List.range (min nch samples.length)) fun ch s =>
        s.each (samples.getD ch []).zipIdx fun w s => s.audioWrite (buf + ch) (audioWord (decide (ess = 2)) l24 w.1)
          (first + ceilDiv (w.2 * 1000000000) fs)
  | .anc packets =>
    if ess ≠ 3 then malformed s
    else if !s.boundTo (Reg.CHN_IN_ANC c) i then s
    else if s.seqTaken key m.seq then s.bump (Reg.CHN_IN_DUP c)
    else ((s.sendOn port [s.decodeDie c]).takeSeq key m.seq).each packets fun a s => s.ancPacket c p a
  | .ts rtp payload => match if ess = 4 ∧ rtp then packetsOf payload else none with
    | none => malformed s
    | some x =>
    if !s.boundTo (Reg.CHN_IN_MEDIA c) i then s
    else
      let s := s.sendOn port (s.mediaDies c none)
      let s := s.pathSeen c path m.seq (s.chan c).decNext
      if s.seqTaken key m.seq then s.bump (Reg.CHN_IN_DUP c) else (s.takeSeq key m.seq).tsDatagram c m.seq x
  | .fec l d rec =>
    if (ess ≠ 5 ∧ ess ≠ 6) ∨ l < 1 ∨ 20 < l ∨ d < 4 ∨ 20 < d ∨ 100 < l * d then malformed s
    else
      let media := s.fld (Reg.FT_FORMAT i) 15 0
      let mc := s.mediaCtx media
      let s := s.sendOn port [s.decodeDie mc]
      s.each rec fun q s => s.when (!s.seqTaken (s.flowKey media) q.1) fun s =>
        ((s.bump (Reg.CHN_IN_FEC_REC mc)).takeSeq (s.flowKey media) q.1).tsDatagram mc q.1 ((packetsOf q.2).getD [])

/-- The headers of a frame are outside R101: its length, two tags or more, IP options or extension headers, a fragment, or a bad
checksum; a UDP checksum of 0 passes over IPv4 only. -/
def badHeader (m : MediaFrame) : Bool :=
  decide (9216 < m.len) || decide (2 ≤ m.tags.length) || m.options || m.fragment || (!m.ipv6 && !m.headerSum) ||
  (match m.udpSum with
   | none => m.ipv6
   | some ok => !ok)

/-- R102: the control handlers, unmatched, policed, forwarded; every discard is counted for its reason. -/
def execMediaFrameRx (dt : Nat) (m : MediaFrame) (s : State) : Host.Outcome State Fault Refusal :=
  let s := s.elapse dt
  let p := m.port % 8
  let q := m.sub % 4
  if !s.portUp p then done s
  else
    let s := s.bump (Reg.NP_RX_FRAMES p q)
    match m.fault with
    | 1 => done (s.bump (Reg.NP_RX_FCS p q))
    | 2 => done (s.bump (Reg.NP_RX_MACCTL p q))
    | 3 => done (s.bump (Reg.NP_RX_OVERRUN p q))
    | _ =>
      if badHeader m then done (s.bump (Reg.NP_RX_HEADER p q))
      else if m.control then done s
      else
        let path := s.fld (Reg.NP_CTRL p) 2 2
        match s.flowOf m path with
        | none => done (s.bump (Reg.NP_RX_UNMATCHED p q))
        | some i =>
          let s := s.countFlow (Reg.FT_MATCHED i) p
          let fill := s.bucketFill i p
          if fill < 8000 * m.len then
            done (((s.setBucket i p fill).countFlow (Reg.FT_POLICED i) p).bump (Reg.NP_RX_POLICED p q))
          else done ((s.setBucket i p (fill - 8000 * m.len)).forward i path { m with port := p, sub := q }).pumpTakes

/-- R111: no datagram on the path for three picture periods, or 3 ms for a TS flow. -/
def execPathDown (dt : Nat) (n : Fin 96) (path : Fin 2) (s : State) : Host.Outcome State Fault Refusal :=
  let s := s.elapse dt
  done (s.when ((s.chan n).paths.getD path ⟨false, none⟩).up fun s => s.setPath n path false)

/-- R110, R246: a gap held for W is passed over; a standby waits for the holder's entry. -/
def execTsGapPass (dt : Nat) (n : Fin 96) (s : State) : Host.Outcome State Fault Refusal :=
  let s := s.elapse dt
  match (s.chan n).nextSeq, ((s.chan n).held.map (·.1)).min? with
  | some q, some h =>
    if s.follows n then done (State.followGaps (s.chan n).gaps.length n s).pumpTakes
    else done (s.when (decide (q < h)) fun s => s.passGap n q (h - q)).pumpTakes
  | _, _ => done s

def execSlotEmpty (dt : Nat) (n : Fin 96) (k : Nat) (s : State) : Host.Outcome State Fault Refusal :=
  done ((s.elapse dt).emptySlot n k).pumpTakes

/-- R118, R119: at its deadline a band's missing lines are repaired; a standby applies the holder's entry, for which it
may still wait. -/
def execBandDeadline (dt : Nat) (n : Fin 96) (k b : Nat) (s : State) : Host.Outcome State Fault Refusal :=
  let s := s.elapse dt
  match s.item? n k with
  | none => done s
  | some it =>
    if decide ((it.band b).done ≠ 0) || decide (s.bands n ≤ b) then done s
    else if s.follows n then done ((s.modBand n k b fun x => { x with due := true }).followBand n k b).pumpTakes
    else done ((s.repairBand n k b (entryFor n k b (s.missingLines n it b)) false).readyBands n k).pumpTakes

/-- R120: preparation of a picture is complete, all its bands being ready: its input digest goes to the partner, its input buffer
is free once a later accepted picture is the repair source, or for a transcode channel once the decoder has dropped it (R118, R223,
R345). -/
def State.prepared (s : State) (n k : Nat) : State :=
  match s.item? n k with
  | none => s
  | some it =>
    if it.prep ≠ 1 ∨ it.bands.any (fun b => decide (b.done = 0)) then s
    else
      let s := s.modItem n k fun it => { it with
        prep := 2, inDigest := it.inDigest.mapIdx fun i _ => some (s.inputDigestOf n k i) }
      let s := s.each (List.range it.inDigest.length) fun i s =>
        ((s.bump64 (Reg.IP_PICS_LO (s.dieOf n i))).busy (464 + s.dieOf n i) (s.now - it.accAt).toNat).lanternSend
          (.inputDigest n k i (s.inputDigestOf n k i))
      (s.repairSource n k).compareItem n k

def execPreparationDone (dt : Nat) (n : Fin 96) (k : Nat) (s : State) : Host.Outcome State Fault Refusal :=
  done ((s.elapse dt).prepared n k).pumpTakes

end Sys2Proof.Machine
end

