-- ==== Sys2Proof/Machine/Work.lean ====
section
/-! DEFINITION. Dispatch: engines take pieces and complete them, faults are re-dispatched, checks are answered (R160 to
R169, R178, R191, R208 to R215, R223, R235 to R254, R260 to R275, R415, R418). -/

namespace Sys2Proof.Machine

/-! ## Completion (R260) -/

/-- Advance a descriptor to the stage its band stands at, ATTEMPT at 0 (R260); at the end it is freed. -/
def State.advance (s : State) (d : Desc) : State :=
  let st := ((s.item? d.chan d.idx).map fun it => (it.band d.band).done).getD 8
  if 8 ≤ st then s.freeDesc d
  else
    let s := s.modDesc d.die d.no fun x => { x with
      stage := st, st := .waiting, wait := 0, attempt := 0, ember := false, redisp := false, tTake := 0 }
    match s.descAt d.die d.no with
    | none => s
    | some d => s.setWait d

/-- After a completion: carried states close, buffers free, refreshes are decided, waits fall, engines take, and an item of
a channel without output sealed past E_k counts as released. -/
def State.afterWork (s : State) (n : Nat) : State :=
  ((((s.closeItems n).releaseBuffers n).settleChan n).pumpTakes).silentReleases n

def State.setDone (s : State) (n k b st : Nat) : State :=
  s.modBand n k b fun x => { x with done := max x.done (st + 1) }

/-- The analysis record of a band that the holder's join state gave (R370). -/
def State.givenAnalysis (s : State) (n k b : Nat) : Option BandAnalysis :=
  ((s.chan n).given.find? fun x => x.item == k).bind fun x => x.bands[b]?

/-- Stage 1: the analysis record, and the inter shares of R186. -/
def State.doneAnalysis (s : State) (d : Desc) : State :=
  let r := s.analyseBand d.chan d.idx d.band
  let given := s.givenAnalysis d.chan d.idx d.band
  let x := given.getD ⟨r.cost, r.act, r.acts, r.coarse, r.hist⟩
  let s := s.modBand d.chan d.idx d.band fun b => { b with done := 2, cost := x.cost, act := x.act }
  let s := s.modPic d.chan d.idx fun p => { p with
    means := assocSet p.means d.band x.act, acts := assocSet p.acts d.band x.acts, coarse := assocSet p.coarse d.band x.coarse,
    hists := assocSet p.hists d.band x.hist }
  s.when given.isNone fun s => s.modItem d.chan d.idx fun it =>
    let a := it.share.getD (0, 0)
    let a2 := it.share2.getD (0, 0)
    { it with share := some (a.1 + r.small, a.2 + r.blocks), share2 := some (a2.1 + r.small2, a2.2 + r.blocks) }

/-- Stage 2: the search results; a repeat item coded as a refresh takes the repeated picture as its source (R185). -/
def State.doneSearch (s : State) (d : Desc) : State :=
  match s.item? d.chan d.idx with
  | none => s
  | some it =>
    let s := s.when it.refreshed fun s =>
      let src := s.finalBand d.chan (d.idx - 1) d.band
      s.modPic d.chan d.idx fun p => { p with again := assocSet p.again d.band src }
    let r := s.searchBand d.chan it d.band
    (s.modPic d.chan d.idx fun p => { p with search := assocSet p.search d.band r }).setDone d.chan d.idx d.band 2

/-- Stage 3: CTUs decided and reconstructed at the band's QP; the item opens with the first of them (R191, R196, R197). -/
def State.doneRecon (s : State) (e : Nat) (d : Desc) : State :=
  let s := s.openItem d.chan d.idx
  match s.item? d.chan d.idx with
  | none => s
  | some it =>
    let qp := s.bandQp d.chan it d.band
    let s := (s.modBand d.chan d.idx d.band fun x => { x with done := 4, qp := qp }).codeStage d.chan d.idx d.band qp
    (s.bump64 (Reg.CL_CTU_LO (engDie e) (engCluster e)) (s.ctusOf d.chan d.band)).bump
      (Reg.CL_BANDS_EFF (engDie e) (engCluster e) (it.dr.effort % 8))

/-- Send the halo of a part's last band, or of an ember band in it, to the die of the other part (R189, R210). -/
def State.sendHalo (s : State) (d : Desc) (ember : Bool) : State :=
  let n := d.chan
  let (lo, hi) := s.partRange n (s.partOf n d.band)
  let near := decide (s.lowerFrom n ≤ d.band + 2) && decide (d.band < s.lowerFrom n + 2)
  s.when (s.split n && (if ember then near else decide (s.lacking n d.idx lo hi 4 = 0))) fun s =>
    (s.keepHalo n d.idx (s.partOf n d.band)).tell d 4

/-- Stage 4: the loop filters and the SQI of each CTU (R160, R192). -/
def State.doneFilter (s : State) (d : Desc) : State :=
  let s := s.filterStage d.chan d.idx d.band
  let q := s.sqiOf d.chan d.idx d.band
  (s.modBand d.chan d.idx d.band fun x => { x with done := 5, sqi := q }).sendHalo d false

/-- The SQI of the part up to band `b`, as stage 5 of the band leaves it (R195). -/
def State.closeSqi (s : State) (n k b : Nat) : State :=
  let (lo, _) := s.partRange n (s.partOf n b)
  s.modItem n k fun it => { it with bands := it.bands.modify b fun x =>
    { x with sqiSum := sumOver (List.range (b + 1 - lo)) fun i => (it.band (lo + i)).sqi } }

/-- The ember completion of a band by the loop-filter engine: its final samples and those of the lowest rows of the band above,
and the SQI of the CTUs they lie in (R210). -/
def State.completeEmber (s : State) (d : Desc) : State :=
  let n := d.chan
  let k := d.idx
  let b := d.band
  let (lo, _) := s.partRange n (s.partOf n b)
  let s := s.emberStage n k b
  let q := s.sqiOf n k b
  let s := s.modBand n k b fun x => { x with done := 6, sqi := q }
  let s := s.when (decide (lo < b)) fun s =>
    let up := s.sqiOf n k (b - 1)
    s.modBand n k (b - 1) fun x => { x with sqi := up }
  ((s.closeSqi n k b).sendHalo d true).tell d 5

/-- Stage 5 by the entropy engine (R208, R209, R214, R260): an ember band goes on to the loop-filter engine, unless its
buffers are lost. -/
def State.doneEntropy (s : State) (e : Nat) (d : Desc) : State :=
  let s := s.openItem d.chan d.idx
  match s.item? d.chan d.idx with
  | none => s
  | some it =>
    let n := d.chan
    let b := d.band
    let part := s.partOf n b
    let (ember, spent, code) := s.entropy n it b
    let size := 8 * code.length
    let s := s.modPic n d.idx fun p => { p with bytes := assocSet p.bytes b code, checked := p.checked.filter fun e => e.1 != b }
    let s := s.modBand n d.idx b fun x => { x with ember := ember, size := size }
    let s := s.when (spent && !(it.out.getD part false)) fun s =>
      (s.modItem n d.idx fun it => { it with out := it.out.set part true, budgetBand := some (it.budgetBand.getD b) }).raise
        (576 + 4 * n + 2) (2 + 65536 * (b % 256) + 4294967296 * (d.idx % 4294967296))
    let s := s.bump64 (Reg.CL_BITS_LO (engDie e) (engCluster e)) size
    let s := s.when (ember && !(it.band b).counted) fun s =>
      ((s.bump (Reg.CL_EMBER (engDie e) (engCluster e))).bump (Reg.CHN_EMBER_BANDS n)).modBand n d.idx b fun x => { x with counted := true }
    if ember && !(it.band b).form then
      let s := s.modDesc d.die d.no fun x => { x with ember := true }
      match s.descAt d.die d.no with
      | none => s
      | some d => s.makeReady d
    else (((s.setDone n d.idx b 5).closeSqi n d.idx b).tell d 5).advance d

/-- Stage 6 passed: the band is sealed and its output digest goes to the partner (R239, R298, R345). -/
def State.seal (s : State) (d : Desc) : State :=
  let digest := crc64 (s.sealedBytes d.chan d.idx d.band)
  let s := s.bump64 (Reg.MD_BANDS_LO d.die)
  let s := s.modBand d.chan d.idx d.band fun x => { x with done := 7, digest := some digest }
  let s := s.lanternSend (.outputDigest d.chan d.idx d.band digest)
  -- R370: the catch-up stream of a snapshot carries every band from item S on, and before item J, as it is sealed.
  let due := match (s.chan d.chan).snap with
    | .sending from_ => decide (from_ ≤ d.idx)
    | .sent j => decide (d.idx < j)
    | _ => false
  let s := s.when due fun s => match s.item? d.chan d.idx with
    | none => s
    | some it => s.lanternSend (.snapshot d.chan (.catchUp it.dr it.rh it.starts it.refs d.band (s.sealedBytes d.chan d.idx d.band)
      (s.bandCrcs d.chan d.idx d.band)))
  (s.advance d).compareItem d.chan d.idx

/-- The check-failure event of die `d` (R254). -/
def State.checkEvent (s : State) (d : Desc) (code : Nat) : State :=
  s.raise (64 + 64 * d.die + 8) (code + 65536 * (d.band % 64) + 16777216 * d.chan + 4294967296 * (d.idx % 4294967296))

/-- R241: band `b` and every later band of its part not yet sealed are coded again as ember bands. -/
def State.substitute (s : State) (d : Desc) : State :=
  let n := d.chan
  let (_, hi) := s.partRange n (s.partOf n d.band)
  let s := s.bump (Reg.MD_SUBST_BANDS d.die) (hi - d.band)
  let hit := fun (b : Nat) (x : Band) => decide (d.band ≤ b) && decide (b < hi) && decide (x.done < 7)
  let s := s.modItem n d.idx fun it => { it with bands := it.bands.mapIdx fun b x =>
    (if hit b x then { x with done := 5, subst := true, ember := false } else x) }
  let mine := s.sch.descs.filter fun x => x.chan == n && x.idx == d.idx && !x.decode && decide (d.band ≤ x.band) &&
    decide (x.band < hi)
  let bare := (List.range (hi - d.band)).filter fun i => !mine.any fun x => x.band == d.band + i
  let s := s.endAllocs fun w => !w.decode && w.chan == n && w.idx == d.idx && bare.any fun i => w.band == d.band + i
  let s := s.each (mine.filter fun x => decide (x.stage < 7)) fun x s => s.advance x
  s.each bare fun i s => s.when (((s.item? n d.idx).map fun it => decide ((it.band (d.band + i)).done = 5)).getD false) fun s =>
    s.enqueue n d.idx (d.band + i) 5 false

/-- The channel's buffers on a die are lost (R231, R242): its bands there are coded by form, and it is re-placed.
DESIGN CHOICE (log 49): R90 does not list this among the causes of a re-planning; displacing the one channel is modelled as
one, SHED channels offered in it as in any other. -/
def State.buffersLost (s : State) (n part : Nat) : State :=
  let die := s.dieOf n part
  (s.forceEmbers n (s.partsAt n die) 5 12 die).replan [n] die true

/-- The code of the first comparison of R238 that fails, 0 with none. A band whose buffers are lost, checked by form, has no samples
to compare (R240); with a substitute band the CTUs of the band above it are compared again (R241). -/
def State.checkCode (s : State) (n : Nat) (it : Item) (b : Nat) (r : CheckRead) : Nat :=
  let x := it.band b
  let part := s.partOf n b
  let (lo, _) := s.partRange n part
  if r.chan ≠ n ∨ r.index ≠ it.idx then 1
  else if crc32c (r.head ++ r.band) ≠ crc32c (s.sealedBytes n it.idx b) then 2
  else if !s.bandSyntaxOk n it b x.form || r.head != s.unitsOf n it.idx b then 3
  else if 8 * r.band.length ≠ x.size ∨ (it.lim.isSome ∧ s.partLimit n it part < s.spentTo n it (b + 1)) then 4
  else if !x.form && (r.ctus != s.crcsOf n b (s.checkedFinal n it b) ||
      (x.subst && decide (lo < b) && r.above != s.crcsOf n (b - 1) (s.checkedFinal n it (b - 1)))) then 5
  else 0

/-- A substitute band or a band above it has failed (R242): the substitute bands of the part that are coded are checked by form, band
`d.band` as it was read and the others as they stand in their output buffers. -/
def State.formCheck (s : State) (d : Desc) (it : Item) : State × Bool :=
  let (_, hi) := s.partRange d.chan (s.partOf d.chan d.band)
  let mine := ((List.range (hi - d.band)).map (d.band + ·)).filter fun b =>
    b == d.band || ((it.band b).subst && decide ((it.band b).done = 6))
  let s := s.each mine fun b s => let l := assocGet [] (s.picOf d.chan d.idx).bytes b; s.parseBands d.chan it b l l
  (s, mine.all fun b => s.bandSyntaxOk d.chan it b true)

/-- Every substitute band of the part that is coded is sealed (R242). -/
def State.sealSubst (s : State) (d : Desc) : State :=
  let more := s.sch.descs.filter fun x => x.chan == d.chan && x.idx == d.idx && !x.decode && x.part == d.part && x.stage == 6 &&
    decide (d.band < x.band) && ((s.item? d.chan d.idx).any fun it => (it.band x.band).subst && decide ((it.band x.band).done = 6))
  (s.seal d).each more fun x s => s.seal x

/-- Stage 6 (R237 to R242). -/
def State.doneCheck (s : State) (d : Desc) (r : CheckRead) : State :=
  match s.item? d.chan d.idx with
  | none => s
  | some it =>
    let x := it.band d.band
    let s := s.parseBands d.chan it d.band r.band r.next
    let code := s.checkCode d.chan it d.band r
    if code = 0 then s.seal d
    else
      let s := (s.bump (Reg.MD_FAIL d.die (code - 1))).checkEvent d code
      if !x.subst && !x.form then s.substitute d
      else
        let s := s.bump (Reg.MD_ESCALATE d.die)
        let (s, ok) := s.formCheck d it
        if ok then ((s.sealSubst d).lossHandover [d.chan]).buffersLost d.chan d.part
        else
          let held := s.holding
          let s := (s.checkEvent d 6).giveUp
          (s.when held fun s => s.passItems d.die).retire d.die 4

/-- The inter rule of R249 applies: a decoded slice is no I slice, or none was decoded and the picture is not IRAP. -/
def picInter (x : DecPic) : Bool := if x.slices = [] then !x.irap else x.slices.any fun y => !y.head.intra

/-- The picture that precedes another in output order in the DPB. -/
def State.picBefore (s : State) (m : Nat) (x : DecPic) : Option DpbPic := latest ((s.chan m).dpb.filter fun y => decide (y.pts < x.pts))

/-- What a picture's lost CTUs are concealed from (R249): collocated copy, or edge extension for an intra picture and where no picture
precedes. -/
def State.concealFrom (s : State) (m : Nat) (x : DecPic) : Option Pic :=
  if picInter x then (s.picBefore m x).map (·.samples) else none

/-- Samples of 8 bits as they are stored (R244). -/
def stored10 (x : SpsInfo) (p : Pic) : Pic :=
  if x.bitDepth = 8 then p.map fun q => q.map fun r => r.map (4 * ·) else p

/-- A decoded picture so far: the filters of the stream, which leave concealed CTUs and their edges alone, storage, and concealment
(R244, R249). -/
def State.decoded (s : State) (m : Nat) (x : DecPic) : Pic :=
  conceal x.sps.chroma x.sps.ctu (spsCols x.sps) x.lost (s.concealFrom m x)
    (stored10 x.sps (Config.decodeFilter x.sps x.filters x.lost x.pre))

/-- The lines `[lo, hi)` of a decoded picture's conformance window, in the stream's chroma format (R244, R245). -/
def decodedLines (x : SpsInfo) (p : Pic) (lo hi : Nat) : List LineRun :=
  (List.range (hi - lo)).map fun i =>
    let l := lo + i
    let row := fun (c : Nat) =>
      let r := ((plane p c).getD ((x.cropY + l) / subY x.chroma c) []).drop (x.cropX / subX x.chroma c)
      if l % subY x.chroma c = 0 then r.take (ceilDiv x.outW (subX x.chroma c)) else []
    ⟨l, 0, x.outW, (List.range 3).map row⟩

/-- Lines of a picture that the decoder has written reach the items that take it: those above its latest piece, whose filters read that
piece, and with the last piece all. A picture that waits for samples below a lost CTU passes nothing on until it is complete. -/
def State.deliver (s : State) (m : Nat) (x : DecPic) (last : Bool) : State :=
  let rows := if last then x.sps.height else 128 * (x.doneP - 1)
  let upTo := min (rows - x.sps.cropY) x.sps.outH
  if !last && decide (x.lost ≠ []) && (s.concealFrom m x).isNone then s
  else
    let lines := decodedLines x.sps (s.decoded m x) x.sent upTo
    let s := s.modChan m fun c => { c with dec := c.dec.map fun y => (if y.m = x.m then { y with sent := max y.sent upTo } else y) }
    s.each (s.servedBy m) fun n s => match s.itemOfTs n x.pts with
      | none => s
      | some it =>
        let s := s.modItem n it.idx fun it => { it with got := it.got ++ lines.map fun l => (l.line, l.lo, l.hi) }
        let s := s.modPic n it.idx fun y => { y with
          sampling := if x.sps.chroma = 0 then 3 else if x.sps.chroma = 1 then 0 else 1, input := y.input ++ lines }
        s.readyBands n it.idx

/-- Motion of a concealed CTU, for later temporal prediction (R249). -/
def stillMotion (x : SpsInfo) (c : Nat) : Motion := ⟨c % max 1 (spsCols x) * x.ctu, c / max 1 (spsCols x) * x.ctu, x.ctu, x.ctu, [(0, 0, 0)]⟩

/-- The oldest reference in decoding order leaves a DPB that is larger than its level allows (R247, class 10). -/
def State.trimDpb (s : State) (m : Nat) (x : SpsInfo) : State :=
  let levels := if x.hevc then hevcLevels else vvcLevels
  let top := ((levels.find? fun l => decide (x.level ≤ l.idc)).map (·.maxPs)).getD 35651584
  match (s.chan m).dpb with
  | [] => s
  | old :: more =>
    s.when (decide (dpbSize x.hevc top (x.width * x.height) < more.length + 1)) fun s =>
      let s := s.each old.item.toList fun k s => s.dropPicture m k
      (s.modChan m fun c => { c with dpb := more }).decodeErrors m [10]

/-- The last piece of a picture completes (R247, R248, R251): CTUs never decoded are an error of class 8; the picture stands in the DPB,
marked concealed where R251 says so. -/
def State.endDecode (s : State) (die m : Nat) (x : DecPic) : State :=
  let s := s.decodeErrors m (if x.lost.all x.known.contains then [] else [8])
  let was := s.bit (Reg.CHN_IN_DEC_STATUS m) 31
  let direct := decide (x.lost ≠ []) || x.subst
  let concealed := direct || x.refBad || (was && !x.recovery)
  let s := s.setBit (Reg.CHN_IN_DEC_STATUS m) 31 (direct || (was && !x.recovery))
  let s := s.when x.recovery fun s => s.setBit (Reg.CHN_IN_DEC_STATUS m) 30 true
  let s := s.bump64 (Reg.MD_DEC_PICS_LO die)
  let s := s.when concealed fun s => s.bump (Reg.CHN_CONCEALED m)
  let y : DpbPic := ⟨x.poc, x.pts, s.decoded m x, x.motion ++ x.lost.map (stillMotion x.sps), decide (x.lost = []), concealed, x.item⟩
  let s := (s.modChan m fun c => { c with dec := c.dec.filter fun z => z.m != x.m, dpb := c.dpb ++ [y] }).trimDpb m x.sps
  s.each (s.servedBy m) fun n s => match s.itemOfTs n x.pts with
    | none => s
    | some it =>
      let s := s.modItem n it.idx fun it => { it with concealed := concealed, captions := it.captions ++ x.captions }
      match s.item? n it.idx with
      | none => s
      | some it => s.judge n it true

/-- One past the last CTU of a slice. -/
def sliceEnd (x : DecPic) (a : Nat) : Nat :=
  (x.slices.map (·.head.addr)).foldl (fun e b => if a < b ∧ b < e then b else e) (spsCtus x.sps)

/-- Piece `b` of a picture is decoded, with what `out` says (R236, R247 to R249): an error in a slice loses its CTUs from there on, and
decoding resumes at the next unit; a CTU of the piece's rows that is not decoded is lost. -/
def State.pieceDone (s : State) (die m : Nat) (x : DecPic) (b : Nat) (out : PieceOut) : State :=
  let cols := spsCols x.sps
  let per := 128 / max 1 x.sps.ctu
  let mine := (List.range (spsCtus x.sps)).filter fun c => decide (per * b ≤ c / max 1 cols) && decide (c / max 1 cols < per * (b + 1))
  let hit := out.errs.flatMap fun e => match x.slices[e.1]? with
    | none => []
    | some y => ((List.range (spsCtus x.sps)).filter fun c => decide (e.2 ≤ c) && decide (c < sliceEnd x y.head.addr))
  let known := x.known ++ hit
  let lost := mine.filter fun c => known.contains c || !out.ctus.contains c
  let again := (out.errs.filter fun e => (x.slices[e.1]?).any fun y => !y.cut).length
  let s := s.decodeErrors m (out.errs.map fun _ => 7)
  let s := (s.bump (Reg.CHN_IN_RESYNC m) again).bump (Reg.CHN_IN_CONC_CTU m) lost.length
  let x := { x with
    doneP := b + 1, pre := stack [x.pre, out.rows], filters := x.filters ++ out.filters, motion := x.motion ++ out.motion,
    ctus := x.ctus ++ out.ctus, lost := x.lost ++ lost, known := known, state := out.state }
  let s := s.modChan m fun c => { c with dec := c.dec.map fun y => (if y.m = x.m then x else y) }
  let last := decide (x.pieces ≤ x.doneP)
  let s := s.deliver m x last
  if last then s.endDecode die m x else s

/-- Rows of code 0 where nothing of a piece was decoded. -/
def emptyPiece (x : DecPic) (b : Nat) : PieceOut :=
  let rows := min 128 (x.sps.height - 128 * b)
  ⟨(List.range 3).map fun c => List.replicate (rows / subY x.sps.chroma c) (List.replicate (x.sps.width / subX x.sps.chroma c) 0),
    [], [], [], [], x.state⟩

/-- A decode piece completes (R236, R245 to R251). -/
def State.doneDecode (s : State) (d : Desc) : State :=
  let s := s.freeDesc d
  match (s.chan d.chan).dec.find? (fun x => x.m == d.idx) with
  | none => s
  | some x =>
    let i : PieceIn := ⟨x.sps, x.sets, x.slices, x.refs, 128 * d.band, min (128 * (d.band + 1)) x.sps.height, x.pre, x.state⟩
    s.pieceDone d.die d.chan x d.band (if x.slices = [] then emptyPiece x d.band else Config.decodePiece i)

/-- An item whose last band has completed stage 7 after a re-dispatch has its record (R267). -/
def State.noteRerun (s : State) (d : Desc) : State :=
  s.when ((s.item? d.chan d.idx).any fun it => it.redispatched && it.bands.all fun b => decide (8 ≤ b.done)) fun s =>
    s.fail d.chan 0 4 0 0 255 0 d.idx 0

/-- What a completed piece brings about, by its stage. -/
def State.complete (s : State) (e : Nat) (d : Desc) (r : CheckRead) : State :=
  if d.decode then s.doneDecode d
  else
    match d.stage with
    | 1 => ((s.doneAnalysis d).tell d 1).advance d
    | 2 => (s.doneSearch d).advance d
    | 3 => (s.doneRecon e d).advance d
    | 4 => (s.doneFilter d).advance d
    | 5 => if d.ember then (s.completeEmber d).advance d else s.doneEntropy e d
    | 6 => s.doneCheck d r
    | 7 => ((s.setDone d.chan d.idx d.band 7).freeDesc d).noteRerun d
    | _ => s.freeDesc d

/-- R260: an engine completes its piece with OK. -/
def execWorkComplete (dt : Nat) (e : Fin 464) (r : CheckRead) (s : State) : Host.Outcome State Fault Refusal :=
  let s := s.elapse dt
  match s.eng? e with
  | some (.holds die no since) =>
    let s := (s.setEng e none).busy e (s.ns - since)
    let s := s.when (decide (e.val < 448)) fun s => s.bump (Reg.CL_ITEMS_E (engDie e) (engCluster e) (e.val % 7))
    match s.descAt die no with
    | none => done s.pumpTakes
    | some d =>
      if d.engine ≠ e.val ∨ d.st ≠ .taken then done s.pumpTakes
      else
        let s := s.complete e d r
        let ember := (((s.item? d.chan d.idx).map fun it => (it.band d.band).ember).getD false)
        let s := s.trace die 3 d.chan d.idx d.band d.stage d.attempt e (32768 * die + no) (b2n (d.stage == 5 && ember))
        -- R94: the last begun item of a shed channel has passed stage 6.
        done ((s.freeIfEnded d.chan).afterWork d.chan)
  | _ => done s

/-- R263: an engine asks for work. -/
def execTakeRequest (dt : Nat) (e : Fin 464) (s : State) : Host.Outcome State Fault Refusal :=
  done ((s.elapse dt).tryTake e)

/-! ## Faults of engines (R266 to R268) -/

/-- The engine is failed (R268): its cluster, or its die. -/
def State.engineFailed (s : State) (e : Nat) : State :=
  let die := engDie e
  let s := (s.bump (Reg.SCH_ENG_FAIL die)).trace die 8 127 0 0 0 0 e 262143 0
  let s := s.setEng e (some .failed)
  if e < 448 then
    (s.setBit (Reg.CL_STATUS die (engCluster e)) (e % 7) false).clusterFailed die (engCluster e)
  else if e < 456 then s.retire die 2 else s.retire die 3

/-- Faults of an engine in the last 10 s (R268). -/
def State.faultsOf (s : State) (e : Nat) : Nat :=
  (s.sch.faults.filter fun f => f.1 == e && decide (s.now < f.2 + 10000000000)).length

/-- R268: a decode piece is not taken a fourth time: what it would have decoded is lost, and the items of its picture leave as repeat
pictures. -/
def State.pieceLost (s : State) (d : Desc) (e : Nat) : State :=
  let m := d.chan
  let s := s.freeDesc d
  match (s.chan m).dec.find? fun x => x.m == d.idx with
  | none => s
  | some x =>
    let s := s.each (s.servedBy m) fun n s => match s.itemOfTs n x.pts with
      | none => s
      | some it => s.when it.inputFixed fun s =>
          (s.becomeRepeat n it.idx).fail n 1 5 1 e 255 (s.bands n) it.idx (qid m d.idx d.band 0)
    (s.pieceDone d.die m x d.band (emptyPiece x d.band)).countWaits

/-- R268: a piece whose ATTEMPT is 3 faults again: its item leaves as a repeat picture. -/
def State.exhausted (s : State) (d : Desc) (e : Nat) : State :=
  if d.decode then s.pieceLost d e
  else
    -- A band that could not be handed over is coded again in the item's repeat form.
    let s := s.when (decide (d.stage = 7)) fun s =>
      (s.modBand d.chan d.idx d.band fun x => { x with done := 6, outGen := x.outGen + 1 }).modDesc d.die d.no fun x => { x with stage := 6 }
    -- The item does not complete after its re-dispatches: it is another record's (R267).
    let s := s.modItem d.chan d.idx fun it => { it with redispatched := false }
    (s.becomeRepeat d.chan d.idx).fail d.chan 1 5 1 e 255 (s.bands d.chan) d.idx
    (qid d.chan d.idx d.band d.stage)

/-- R266: the piece goes back to READY, its engine is reset; `kind` is the fault kind of R272. -/
def State.redispatch (s : State) (e : Nat) (d : Desc) (kind : Nat) : State :=
  let die := d.die
  let s := s.bump (Reg.SCH_REDISPATCH die)
  let s := s.bump (Reg.CHN_REDISPATCH d.chan)
  let s := s.when (decide (e < 448)) fun s => s.bump (Reg.CL_REDISPATCH (engDie e) (engCluster e))
  let s := s.raise (64 + 64 * die + 10) (e + 4096 * kind + 4294967296 * qid d.chan d.idx d.band d.stage)
  let s := s.trace die 4 d.chan d.idx d.band d.stage d.attempt e (32768 * die + d.no) kind
  let s := s.setEng e (some .resets)
  let faults := (e, s.now) :: s.sch.faults
  let s := { s with sch := { s.sch with faults := faults } }
  let s := s.modItem d.chan d.idx fun it => { it with redispatched := it.redispatched || !d.decode }
  let s := s.modDesc d.die d.no fun x => { x with st := .ready, redisp := true, tReady := s.phaseTime }
  let s := s.trace die 1 d.chan d.idx d.band d.stage d.attempt 1023 (32768 * die + d.no) 0
  let s := s.when (decide (3 ≤ d.attempt)) fun s => s.exhausted d e
  (s.when (decide (3 ≤ s.faultsOf e)) fun s => s.engineFailed e).pumpTakes

/-- Re-dispatch what the engine holds; a piece that is no longer its own is left alone, and only the engine is reset. -/
def State.faultOf (s : State) (e kind : Nat) : State :=
  match s.eng? e with
  | some (.holds die no _) => match (s.descAt die no).filter fun d => decide (d.st = .taken) && d.engine == e with
    | some d => s.redispatch e d kind
    | none => (s.setEng e (some .resets)).pumpTakes
  | _ => s

/-- R266: the engine completes its piece with FAULT. -/
def execWorkFault (dt : Nat) (e : Fin 464) (s : State) : Host.Outcome State Fault Refusal :=
  let s := s.elapse dt
  let s := match s.eng? e with
    | some (.holds _ _ since) => s.busy e (s.ns - since)
    | _ => s
  done (s.faultOf e 1)

/-- R219, R418: an access whose channel and picture index disagree with the header is aborted; the piece is re-dispatched. -/
def execChannelTagFault (dt : Nat) (e : EngineAccess) (s : State) : Host.Outcome State Fault Refusal :=
  let s := s.elapse dt
  match s.eng? e.engine with
  | some (.holds ..) => if s.ownsBuf e.tag then done s else done ((s.bump Reg.SAF_TAG_FAULTS).faultOf e.engine 2)
  | _ => done s

/-- `t` ns are `m` band periods of channel `n`, or more (R16, R157). -/
def State.bandPeriods (s : State) (n m : Nat) (t : Int) : Bool :=
  decide ((m * perNum : Nat) ≤ t * (s.rate n * max 1 (s.bands n) : Nat))

/-- The descriptor has been TAKEN for WD_FACTOR band periods of its channel, judged on T_TAKE (R415). -/
def State.stalled (s : State) (d : Desc) : Bool :=
  s.bandPeriods d.chan (s.fld Reg.SAF_CTRL 12 8) ((s.phaseTime + 4294967296 - d.tTake) % 4294967296 : Nat)

/-- The band is at its bound of R162 or beyond it: L pictures, two band periods and 0.6 ms after it became ready. -/
def State.boundPast (s : State) (n : Nat) (it : Item) (b : Nat) : Bool :=
  s.bandPeriods n (it.dr.lookahead * s.bands n + 2) (s.now - (it.band b).readyAt - 600000)

/-- R415: a descriptor TAKEN for WD_FACTOR band periods or longer is re-dispatched with fault kind 3. -/
def execStallWatchdog (dt : Nat) (die : Fin 8) (no : Fin 32768) (s : State) : Host.Outcome State Fault Refusal :=
  let s := s.elapse dt
  match s.descAt die no with
  | none => done s
  | some d =>
    if d.st ≠ .taken ∨ !s.stalled d then done s
    else done ((s.bump Reg.SAF_WD_FIRES).faultOf d.engine 3)

/-- R415: a band not past stage 6 at its bound of R162. -/
def execBandTimingDeparture (dt : Nat) (n : Fin 96) (k b : Nat) (s : State) : Host.Outcome State Fault Refusal :=
  let s := s.elapse dt
  match s.item? n k with
  | none => done s
  | some it =>
    if 7 ≤ (it.band b).done ∨ (it.band b).late ∨ it.bands.length ≤ b ∨ !s.boundPast n it b then done s
    else done (((s.modBand n k b fun x => { x with late := true }).bump Reg.SAF_BAND_LATE).raise
      (64 + 64 * s.dieOf n (s.partOf n b) + 15) (65536 * (b % 64) + 16777216 * n))

/-- R266: the reset engine is ready again. -/
def execEngineResetDone (dt : Nat) (e : Fin 464) (s : State) : Host.Outcome State Fault Refusal :=
  let s := s.elapse dt
  done (if s.eng? e = some .resets then s.setEng e none else s)

/-- R268: an engine not ready within 20 µs of its reset is failed. -/
def execEngineResetTimeout (dt : Nat) (e : Fin 464) (s : State) : Host.Outcome State Fault Refusal :=
  let s := s.elapse dt
  done (if s.eng? e = some .resets then (s.engineFailed e).pumpTakes else s)

/-- R269: a waiting stage-0 allocation is made. -/
def execAllocationWaitEnd (dt i : Nat) (s : State) : Host.Outcome State Fault Refusal :=
  let s := s.elapse dt
  match s.sch.waits[i]? with
  | none => done s
  | some w =>
    let stage : Option Nat := if w.decode then some 0
      else (s.item? w.chan w.idx).map fun it => max 1 (it.band w.band).done
    match stage with
    | none => done (s.endAllocs fun x => x == w)
    | some st =>
      let part := if w.decode then 0 else s.partOf w.chan w.band
      let die := if w.decode then s.decodeDie w.chan else s.dieOf w.chan part
      if s.slotFree w.chan w.idx w.decode && s.descFree w.chan part die then
        done ((s.endAllocs fun x => x == w).allocDesc w.chan w.idx w.band st w.decode).pumpTakes
      else done s

end Sys2Proof.Machine
end

