-- ==== Sys2Proof/Machine/Memory.lean ====
section
/-! DEFINITION. The commands of the picture-memory controllers: training and fill, requests and accesses, refresh,
self-refresh, retraining, errors (R231, R420, R427 to R450). -/

namespace Sys2Proof.Machine

/-! ## Data lost (R231, R417, R420, R432) -/

/-- The bands of item `k` not yet past stage 5 become ember bands, with one record (R231): only samples of its source are lost, so its
reconstruction is that of an ember band. -/
def State.emberItem (s : State) (n k cause die : Nat) : State :=
  match s.item? n k with
  | none => s
  | some it =>
    let hit := (List.range it.bands.length).filter fun b => decide ((it.band b).done ≤ 5)
    match if it.form = .repeated then [] else hit with
    | [] => s
    | b :: _ =>
      let s := s.needRecon n k
      let s := s.modItem n k fun it => { it with bands := it.bands.map fun x =>
        (if x.done ≤ 5 then { x with done := 5, forced := true, size := 0 } else x) }
      ((s.recode n k 5 fun b => hit.contains b).settleChan n).fail n 2 cause 3 die b hit.length k 0

/-- A buffer is poisoned, or, where it holds a reconstruction, every buffer of the channel on that die is lost (R231). -/
def State.poisonBuffer (s : State) (n part no : Nat) : State :=
  match (s.chan n).pool.find? (fun b => b.part == part && b.no == no && decide (b.mark ≠ Mark.free)) with
  | none => s
  | some b =>
    if b.kind = .recon then (s.lossHandover [n]).buffersLost n part
    else if b.poisoned then s
    else
      let d := s.dieOf n part
      let s := s.modChan n fun c => { c with pool := c.pool.map fun x =>
        (if x.part = part ∧ x.no = no then { x with poisoned := true } else x) }
      -- The slate's buffer is the source of every slate item.
      let users := if b.items = [] then ((s.chan n).items.filter fun it => decide (it.form = .slate) && it.left.isNone).map (·.idx)
        else b.items
      (s.bump (Reg.DIE_BUF_POISON d)).each users fun k s => s.emberItem n k 11 d

/-- The owner of lost data acts (R231, R417, R420). -/
def State.ownerLost (s : State) (o : DataOwner) : State :=
  match o with
  | .nobody => s
  | .engine e => s.faultOf e 1
  | .item n k => s.when (s.item? n k).isSome fun s => (s.becomeRepeat n k).fail n 1 16 0 0 255 (s.bands n) k 0
  | .sealed n k b copy =>
    s.readsCaught [(n, k, b)] (!copy)
  | .frame _ copy => s.when (!copy) fun s => s.crcChain 1 true
  | .buffer n part no => s.poisonBuffer n part no

/-! ## Training and fill at E4 (R72, R427, R440, R441) -/

/-- Is a reference clock selected and the restore window closed: training may end? -/
def State.trains (s : State) (d m : Nat) : Bool :=
  decide (s.phase = 4) && decide (s.refSel ≠ 2) && !s.bit Reg.EMG_STATUS 11 &&
  decide ((s.mctl (2 * d + m)).phase = MPhase.training)

/-- A working setting (R440): every DQ has windows of at least 12 steps, and the compare pass ends with no error. -/
def trainWorks (f : TrainFound) : Bool :=
  f.windows.all (fun w => decide (12 ≤ w.1) && decide (12 ≤ w.2)) && f.errors.all fun e => e == 0

/-- Narrowest window of a setting, as WINDOW shows it. -/
def trainWindow (f : TrainFound) : Nat := f.windows.foldl (fun a w => min a (min w.1 w.2)) 255

/-- The settings of a controller's channels after training, with what rate step they were found at: from the accepted copies
that passed their compare pass at the first rate, and otherwise from the trial of that rate. -/
def trainOutcome (rates : Nat) (keep : List Bool) (tries : List (List (Option TrainFound))) : Nat :=
  let all := fun (j : Nat) => (List.range 4).all fun c =>
    (decide (j = 0) && keep.getD c false) || ((tries.getD j []).getD c none).isSome
  ((List.range (rates + 1)).find? all).getD rates

/-- One channel takes its training's result at rate step `j`. -/
def State.trainChannel (s : State) (d k j : Nat) (keep : Bool) (found : Option TrainFound) : State :=
  let r := memId d k
  let had := (s.recv r).accepted
  let temp := (BitVec.ofNat 8 (s.fld (Reg.MCC_TEMP d (k / 4) (k % 4)) 7 0)).toInt
  let now := s.now
  let s := s.modMchan (8 * d + k) fun x => { x with trainTemp := temp, trainAt := now }
  match had, keep && decide (j = 0) with
  | some v, true => ((s.setRecv r (Recv.start v)).restorePassed r true).setMc d k 2
  | _, _ =>
    let s := s.when had.isSome fun s => s.restorePassed r false
    match found with
    | none => s.setMc d k 4
    | some f =>
      let s := (s.setRecv r (Recv.start f.setting)).setFld (mccStatus d k) 23 16 (trainWindow f)
      (s.wrN (Reg.MCC_LAST_TRAIN d (k / 4) (k % 4)) (s.usE0 / 1000000)).setMc d k 2

/-- R440: a controller has trained its channels, each rate tried with what each channel found, and the errors of the compare
pass of each restored setting (R72). A device outside R427 finds no working setting. -/
def execMemoryTrainingDone (dt : Nat) (d : Fin 8) (m : Fin 2) (density : Fin 4) (compared : List Nat)
    (tries : List (List (Option TrainFound))) (s : State) : Host.Outcome State Fault Refusal :=
  let s := s.elapse dt
  if !s.trains d m then done s
  else
    let top := min 4 (s.fld (Reg.MC_CTRL d m) 2 0)
    let known := density.val = 1 ∨ density.val = 2
    let tries := if known then tries.map fun l => l.map fun f => f.filter trainWorks else []
    let keep := (List.range 4).map fun c => decide known && compared.getD c 1 == 0 && (s.recv (memId d (4 * m + c))).accepted.isSome
    let j := trainOutcome top keep tries
    let s := (s.setFld (Reg.MC_STATUS d m) 17 16 density).setFld (Reg.MC_STATUS d m) 26 24 (top - j)
    let s := s.each (List.range 4) fun c s =>
      s.trainChannel d (4 * m + c) j (keep.getD c false) ((tries.getD j []).getD c none)
    let warm := s.bit Reg.EMG_STATUS 10
    let fill := (List.range 4).filter fun c => s.mcWorks d (4 * m + c) &&
      !(warm && decide (j = 0) && keep.getD c false)
    let s := s.modMctl (2 * d + m) fun x => { x with fill := fill, phase := if fill = [] then .ready else .filling }
    done ((s.countPoison d m).showPool d).endE4

/-- The first granule at or after `g` that a controller's scrub reads (R448). -/
def State.scrubFrom (s : State) (d m g : Nat) : Option Nat :=
  ((List.range 9).map (g + ·)).find? fun h => decide (h * 128 < s.dieBytes d) && (s.mcPlaceOf d (h * 128)).1 / 4 == m

/-- R441, R447: a controller has written zero data to its channels; after the fill of a running die the displaced channels are
re-placed. -/
def execMemoryFillDone (dt : Nat) (d : Fin 8) (m : Fin 2) (s : State) : Host.Outcome State Fault Refusal :=
  let s := s.elapse dt
  let x := s.mctl (2 * d + m)
  if x.phase ≠ .filling then done s
  else
    let s := s.each x.fill fun c s => s.modMchan (8 * d + 4 * m + c) fun y => { y with mem := [], poison := [] }
    let s := (s.modMctl (2 * d + m) fun y => { y with fill := [], phase := .ready }).countPoison d m
    let s := s.wrN (Reg.MC_SCRUB_POS d m) ((s.scrubFrom d m 0).getD 0)
    if s.phase = 4 then done s.endE4
    else if !s.memReady d then done s
    else
      let lost := s.chansOnDie d
      done (((s.dieEmbers d).replan lost d true).startAll d m).pumpTakes

/-! ## Requests and accesses (R430 to R436, R448) -/

/-- A request of a port but M7 keeps the die busy (R438). -/
def State.noteBusy (s : State) (d : Nat) (r : MReq) : State :=
  let now := s.now
  s.when (r.port != 7) fun s => s.modMdie d fun x => { x with busyAt := now }

/-- R433: a port asks for an access of up to one granule; a scrub request reads the granule that MC_SCRUB_POS shows. An access to a
buffer whose tag disagrees with the header is aborted (R219). -/
def execMemoryRequest (dt : Nat) (d : Fin 8) (m : Fin 2) (port : Fin 8) (write scrub : Bool) (addr len : Nat)
    (data : TaggedData) (s : State) : Host.Outcome State Fault Refusal :=
  let s := s.elapse dt
  let a := if scrub then 128 * s.rdN (Reg.MC_SCRUB_POS d m) else addr
  let n := if scrub then 128 else len
  let w := write && !scrub
  if (s.mctl (2 * d + m)).phase ≠ .ready ∨ (scrub && s.bit (Reg.MC_STATUS d m) 31) = true ∨ n = 0 ∨
      128 < a % 128 + n ∨ s.dieBytes d < a + n ∨ (w = true ∧ data.bytes.length ≠ n) ∨
      (s.mcPlaceOf d a).1 / 4 ≠ m ∨ (!scrub && data.tag.any fun t => !s.ownsBuf t) = true then done s
  else
    let r : MReq := ⟨if scrub then 7 else port, w, scrub, a, n, if w then data.bytes else [], s.ns, []⟩
    let s := (s.wake d).modMctl (2 * d + m) fun x => { x with waits := x.waits ++ [r] }
    let s := s.noteBusy d r
    done ((State.acceptWaits d m (s.mctl (2 * d + m)).waits.length s).startAll d m)

/-- An uncorrectable error of channel `k`: counted, its event; a second one within 1 s fails a MARGINAL channel (R432, R445,
R450). -/
def State.memUe (s : State) (d k what : Nat) : State :=
  let t : Int := s.ns
  let before := (s.mchan (8 * d + k)).ues.filter fun u => decide (t < u + 1000000000)
  let s := s.modMchan (8 * d + k) fun x => { x with ues := t :: before }
  let s := s.raise (64 + 64 * d + 17) (mcPlace k + what)
  s.when (s.mcState d k == 3 && decide (before ≠ [])) fun s => s.failMc d k

/-- Blocks of a request in its channel: number, and whether the request covers it whole. -/
def State.blocksOf (s : State) (d : Nat) (r : MReq) : List (Nat × Bool) :=
  let a := (s.mcPlaceOf d r.addr).2
  (List.range ((a + r.len - 1) / 64 + 1 - a / 64)).map fun i =>
    let b := a / 64 + i
    (b, decide (a ≤ 64 * b) && decide (64 * b + 64 ≤ a + r.len))

/-- CRC-16 of a row's address within its channel, as its tag holds it in [47:32] (R431); the address counts bytes, 2 KiB a row.
DEDUCED (log 53). -/
def rowCheck (row : Nat) : Nat := crcOf crc16RowParams (leBytes 4 (2048 * row))

/-- A row tag as the controller keeps it (R431): the poison of the row's 30 blocks, and the CRC of its address. -/
def State.rowTag (s : State) (d k row : Nat) : Nat :=
  (List.range 30).foldl (fun a i => a + 2 ^ i * b2n ((s.mchan (8 * d + k)).poison.contains (30 * row + i))) 0 +
    4294967296 * rowCheck row

/-- A row whose tag disagrees is read as uncorrectable in every block (R431). -/
def badTag (row : Nat) (tag : Option Nat) : Bool := tag.any fun x => decide (x / 4294967296 % 65536 ≠ rowCheck row)

/-- What the code found in the blocks of an access: corrections and errors that it cannot correct (R432, R448). -/
def State.judgeBlocks (s : State) (d k : Nat) (scrub merge : Bool) (l : List ((Nat × Bool) × Nat)) : State :=
  let m := k / 4
  s.each l fun e s =>
    if merge && e.1.2 then s
    else if e.2 = 1 then
      (if scrub then s.bump (Reg.MC_SCRUB_CE d m) else s.bump (Reg.MCC_CE d m (k % 4))).addErrs d k 1
    else if 2 ≤ e.2 then
      let s := (if scrub then s.bump (Reg.MC_SCRUB_UE d m) else s.bump (Reg.MCC_UE d m (k % 4))).poisonBlock d k e.1.1 true
      s.memUe d k (if scrub then 2 else 1)
    else s

/-- A read completes: the bytes, over them what the write queue held; poison goes with them (R432, R436). -/
def State.readDone (s : State) (d k : Nat) (r : MReq) (res : MemResult) : State :=
  let blocks := s.blocksOf d r
  let was := blocks.any fun b => (s.mchan (8 * d + k)).poison.contains b.1
  let a := (s.mcPlaceOf d r.addr).2
  let lost := res.failed || badTag (rowOf a) res.tag
  let marks := blocks.mapIdx fun i b => (b, if lost then 2 else res.ecc.getD i 0)
  let mem := (s.mchan (8 * d + k)).mem
  let bytes := (List.range r.len).map fun i =>
    assocGet (sparseGet zeroed mem (a + i)) r.fwd (r.addr + i)
  let bad := was || marks.any fun e => decide (2 ≤ e.2)
  let s := s.modMctl (2 * d + k / 4) fun x => { x with last := assocSet x.last r.port (bytes, bad) }
  let s := (s.completed d (k / 4) r).judgeBlocks d k r.scrub false marks
  s.when bad fun s => s.ownerLost res.owner

/-- Bytes written from address `a` of a channel upward. -/
def cellsPut (m : List (Nat × Byte)) (a : Nat) : List Byte → List (Nat × Byte)
  | [] => m
  | x :: r => cellsPut (sparseSet zeroed m a x) (a + 1) r

/-- A write reaches the device: whole blocks lose their poison, a part of a block is merged (R431, R432). -/
def State.writeDone (s : State) (d k : Nat) (r : MReq) (res : MemResult) : State :=
  let blocks := s.blocksOf d r
  if res.failed then (s.each blocks fun b s => s.poisonBlock d k b.1 true).memUe d k 3
  else
    let a := (s.mcPlaceOf d r.addr).2
    let s := s.modMchan (8 * d + k) fun x => { x with mem := cellsPut x.mem a r.data }
    let s := s.each (blocks.filter (·.2)) fun b s =>
      s.when ((s.mchan (8 * d + k)).poison.contains b.1) fun s => s.poisonBlock d k b.1 false
    s.judgeBlocks d k false true (blocks.mapIdx fun i b =>
      (b, if badTag (rowOf a) res.tag then 2 else res.ecc.getD i 0))

/-- The patrol scrub moves on; after the last granule of the controller a pass is complete (R448). -/
def State.scrubStep (s : State) (d m : Nat) : State :=
  match s.scrubFrom d m (s.rdN (Reg.MC_SCRUB_POS d m) + 1) with
  | some g => s.wrN (Reg.MC_SCRUB_POS d m) g
  | none => (((s.modMctl (2 * d + m) fun x => { x with pass := false }).modMdie d fun x => { x with srTime := 0 }).wrN (Reg.MC_SCRUB_POS d m)
      ((s.scrubFrom d m 0).getD 0)).bump (Reg.MC_SCRUB_PASSES d m)

/-- R435: the access under way in channel `k` of the die completes, and the channel chooses its next one. -/
def execMemoryAccessDone (dt : Nat) (d : Fin 8) (k : Fin 8) (res : MemResult) (s : State) :
    Host.Outcome State Fault Refusal :=
  let s := s.elapse dt
  match (s.mchan (8 * d + k)).cur with
  | none => done s
  | some r =>
    let n := min 3 res.retries
    let s := (s.modMchan (8 * d + k) fun x => { x with cur := none }).noteBusy d r
    let s := (s.bump (Reg.MCC_CRC_RETRY d (k.val / 4) (k.val % 4)) n).addErrs d k n
    let s := if r.write then s.writeDone d k r res else s.readDone d k r res
    let s := s.when r.scrub fun s => s.scrubStep d (k.val / 4)
    let s := State.acceptWaits d (k.val / 4) (s.mctl (2 * d + k.val / 4)).waits.length s
    done ((s.startAccess d k res.rows).startAll d (k.val / 4))

/-! ## Refresh, temperature, self-refresh (R437, R438) -/

/-- R437, R444, R454: a refresh of channel `k`; its idle interval is the commit point. -/
def execRefreshDue (dt : Nat) (d : Fin 8) (k : Fin 8) (s : State) : Host.Outcome State Fault Refusal :=
  let s := s.elapse dt
  if !s.mcWorks d k || s.bit (Reg.MC_STATUS d (k.val / 4)) 31 then done s
  else
    let s := s.commitRecv (memId d k)
    if !(s.mchan (8 * d + k)).found then done s
    else
      let s := s.modMchan (8 * d + k) fun x => { x with found := false }
      let s := (s.bump (Reg.MCC_RETRAINS d (k.val / 4) (k.val % 4))).raise (64 + 64 * d + 18) (mcPlace k + 1)
      done (s.setMc d k 2)

/-- R437, R442: every 32 ms the device temperature is read; 8 °C from the last training makes a retraining pending. -/
def execMemoryTempRead (dt : Nat) (d : Fin 8) (m : Fin 2) (temp : Int) (s : State) : Host.Outcome State Fault Refusal :=
  let s := s.elapse dt
  if (s.mctl (2 * d + m)).phase = .off then done s
  else done (s.each (List.range 4) fun c s =>
    let k := 4 * m.val + c
    let s := s.setFld (Reg.MCC_TEMP d m c) 7 0 (bitsOf 8 temp)
    s.when (decide (8 ≤ (temp - (s.mchan (8 * d + k)).trainTemp).natAbs)) fun s => s.wantTraining d k)

/-- The die has been idle for 10 ms (R438). -/
def State.memIdle (s : State) (d : Nat) : Bool := decide ((s.mdie d).busyAt + 10000000 ≤ s.now)

/-- R438: a die idle for 10 ms enters self-refresh, unless a retraining is pending or running, or the scrub pass runs for which it left
self-refresh. -/
def execSelfRefreshEntry (dt : Nat) (d : Fin 8) (s : State) : Host.Outcome State Fault Refusal :=
  let s := s.elapse dt
  let busy := [0, 1].any fun m => (s.mctl (2 * d.val + m)).waits.any (fun r => r.port != 7) ||
    (s.mctl (2 * d.val + m)).pass || (s.mctl (2 * d.val + m)).reads.any (fun r => r.port != 7) || (s.mctl (2 * d.val + m)).writes.any (fun r => r.port != 7)
  let training := (List.range 8).any fun k => s.bit (mccStatus d k) 9 || s.bit (mccStatus d k) 8 ||
    (s.mchan (8 * d + k)).cur.isSome
  let en := s.bit (Reg.MC_CTRL d 0) 7 && s.bit (Reg.MC_CTRL d 1) 7
  if busy || training || !en || !s.memReady d || s.bit (Reg.MC_STATUS d 0) 31 || !s.memIdle d then done s
  else
    let now := s.now
    done ((s.modMdie d fun x => { x with srAt := some now }).each [0, 1] fun m s => (s.setBit (Reg.MC_STATUS d m) 31 true).bump (Reg.MC_SR_ENTRIES d m))

/-- R438: after 24 h in self-refresh the die leaves it and begins a scrub pass. -/
def execSelfRefreshScrub (dt : Nat) (d : Fin 8) (s : State) : Host.Outcome State Fault Refusal :=
  let s := s.elapse dt
  if !s.bit (Reg.MC_STATUS d 0) 31 || decide (s.srSpent d < 86400000000000) then done s
  else
    let s := s.wake d
    done (s.each [0, 1] fun m s => (((s.modMctl (2 * d + m) fun x => { x with pass := (s.scrubFrom d m 0).isSome }).wrN
      (Reg.MC_SCRUB_POS d m) ((s.scrubFrom d m 0).getD 0))).startAll d m)

/-! ## Periodic retraining (R442 to R445) -/

/-- The interval since the channel's last training, whether it found a setting or not, has run out: 15 min, or 60 s for a MARGINAL
channel (R442). DEDUCED (log 53). -/
def State.trainDue (s : State) (d k : Nat) : Bool :=
  decide ((s.mchan (8 * d + k)).trainAt + 1000000000 * (if s.mcState d k = 3 then 60 else 900) ≤ s.now)

/-- R442: 15 min after the last training, or 60 s for a MARGINAL channel. -/
def execRetrainIntervalExpiry (dt : Nat) (d : Fin 8) (k : Fin 8) (s : State) : Host.Outcome State Fault Refusal :=
  let s := s.elapse dt
  if s.trainDue d k then done (s.wantTraining d k) else done s

/-- R442, R445: the errors of the last 1 s of a channel are judged. -/
def execMemoryErrorInterval (dt : Nat) (d : Fin 8) (k : Fin 8) (s : State) : Host.Outcome State Fault Refusal :=
  let s := s.elapse dt
  let n := s.liveErrs d k
  let a := Reg.MC_CTRL d (k.val / 4)
  if s.mcState d k = 3 ∧ s.fld a 23 16 < n then done (s.failMc d k)
  else if s.fld a 15 8 ≤ n then done (s.wantTraining d k)
  else done s

/-- Channels of a controller whose retraining is pending or running. -/
def State.trainees (s : State) (d m : Nat) : List Nat :=
  (List.range 4).filter fun c => s.mcWorks d (4 * m + c) &&
    (s.bit (mccStatus d (4 * m + c)) 9 || s.bit (mccStatus d (4 * m + c)) 8)

/-- R443: the next slice of a controller starts, no sooner than 40 µs after the start of its last one: pending channels take turns in
channel order. -/
def execRetrainingSliceStart (dt : Nat) (d : Fin 8) (m : Fin 2) (s : State) : Host.Outcome State Fault Refusal :=
  let s := s.elapse dt
  let i := 2 * d.val + m.val
  let x := s.mctl i
  let now := s.now
  match ((List.range 4).map fun j => (x.turn + 1 + j) % 4).find? (fun c => (s.trainees d m).contains c),
    x.slicing.isSome || x.sliceAt.any fun t => decide (now < t + 40000) with
  | some c, false =>
    let k := 4 * m.val + c
    let s := s.modMctl i fun x => { x with slicing := some c, turn := c, sliceAt := some now }
    let s := s.when (!s.bit (mccStatus d k) 8) fun s =>
      ((s.setBit (mccStatus d k) 9 false).setBit (mccStatus d k) 8 true).modMchan (8 * d + k) fun y => { y with passes := [] }
    done (s.bump (Reg.MCC_SLICES d m c))
  | _, _ => done s

/-- The longest run of offsets that pass, first and last place; the first among equals. -/
def longestRun (l : List Bool) : Option (Nat × Nat) :=
  let step := fun (acc : Option (Nat × Nat) × Option Nat × Nat) (b : Bool) =>
    let i := acc.2.2
    if !b then (acc.1, none, i + 1)
    else
      let from_ := acc.2.1.getD i
      let best := match acc.1 with
        | none => some (from_, i)
        | some (x, y) => if y - x < i - from_ then some (from_, i) else some (x, y)
      (best, some from_, i + 1)
  (l.foldl step (none, none, 0)).1

/-- The centre of a run of offsets −32 to +31, as an offset. -/
def runCentre (r : Nat × Nat) : Int :=
  let a : Int := r.1 - 32
  let b : Int := r.2 - 32
  (a + b) / 2 + (if (a + b) % 2 = 0 then 0 else ((Config.centreUp a b % 2 : Nat) : Int))

/-- The windows that 128 slices found: write delay of each DQ, and WCK where every DQ passes (R443). -/
def sliceRuns (passes : List Nat) : List (Option (Nat × Nat)) :=
  (List.range 8).map (fun q => longestRun ((passes.take 64).map fun w => w / 2 ^ q % 2 == 1)) ++
    [longestRun ((passes.drop 64).map fun w => w % 256 == 255)]

/-- R444, R445: the retraining of channel `k` has made its last slice. -/
def State.endRetraining (s : State) (d k : Nat) : State :=
  let runs := sliceRuns (s.mchan (8 * d + k)).passes
  let wide := fun (q : Nat) => match runs.getD q none with
    | none => false
    | some r => decide (11 ≤ r.2 - r.1)
  let temp := (BitVec.ofNat 8 (s.fld (Reg.MCC_TEMP d (k / 4) (k % 4)) 7 0)).toInt
  let now := s.now
  let s := (s.setBit (mccStatus d k) 8 false).modMchan (8 * d + k) fun y => { y with trainTemp := temp, trainAt := now }
  if (List.range 8).all wide && (runs.getD 8 none).isSome then
    let r := memId d k
    let base := ((s.recv r).shadow).getD (s.recv r).force
    let shift := fun (i : Nat) (v : Int) =>
      if i = 32 then (match runs.getD 8 none with | some x => clipInt 0 127 (v + runCentre x) | none => v)
      else if i % 4 = 1 then (match runs.getD (i / 4) none with | some x => clipInt 0 255 (v + runCentre x) | none => v)
      else v
    let width := ((List.range 8).filterMap fun q => (runs.getD q none).map fun x => x.2 - x.1 + 1).foldl min 255
    let s := (s.stage r (base.mapIdx shift)).setFld (mccStatus d k) 23 16 width
    let s := s.wrN (Reg.MCC_LAST_TRAIN d (k / 4) (k % 4)) (s.usE0 / 1000000)
    s.modMchan (8 * d + k) fun y => { y with found := true, passes := [] }
  else
    let s := s.modMchan (8 * d + k) fun y => { y with passes := [] }
    let s := (s.bump (Reg.MCC_NOSET d (k / 4) (k % 4))).raise (64 + 64 * d + 18) (mcPlace k + 2)
    s.when (decide (s.fld (Reg.MC_CTRL d (k / 4)) 15 8 ≤ s.liveErrs d k)) fun s => (s.setMc d k 3).judgeMarginal d

/-- R443: the slice under way ends with the DQs that passed at its trial setting; after the 128th the result is staged or
refused. -/
def execRetrainingSliceEnd (dt : Nat) (d : Fin 8) (m : Fin 2) (passed : Fin 256) (s : State) :
    Host.Outcome State Fault Refusal :=
  let s := s.elapse dt
  match (s.mctl (2 * d + m)).slicing with
  | none => done s
  | some c =>
    let k := 4 * m.val + c
    let s := s.modMctl (2 * d + m) fun x => { x with slicing := none }
    let s := s.modMchan (8 * d + k) fun y => { y with passes := y.passes ++ [passed.val] }
    let s := s.when (decide (128 ≤ (s.mchan (8 * d + k)).passes.length)) fun s => s.endRetraining d k
    done (s.startAll d m)

end Sys2Proof.Machine
end

