-- ==== Sys2Proof/Machine/Guard.lean ====
section
/-! DEFINITION. The commands of functional safety and of the fabric's faults: departures, lockstep, SRAM, rails, automatic
reset, die links, masters reset mid-burst (R20 to R22, R406 to R426, R491 to R495). -/

namespace Sys2Proof.Machine

/-! ## The egress schedule monitor (R413, R416) -/

/-- Is item `k` a departure at this instant: its last datagram has not left by E_k + 1 ms? -/
def State.departs (s : State) (n : Nat) (it : Item) : Bool :=
  match it.left with
  | none => true
  | some t => decide (s.releaseAt n it + 1000000 < t)

/-- R413: a holder with a confirmed partner hands over, at most once in 60 s; a refusal is counted (R366). -/
def State.departureHandover (s : State) : State :=
  let free := match s.twin.departHandAt with
    | none => true
    | some t => decide (t + 60000000000 ≤ s.now)
  if s.handoverOk && free then
    let now := s.now
    ({ s with twin := { s.twin with departHandAt := some now } }).startHandover
  else s.when (decide (s.twin.role = Role.holder) && s.partnerConfirmed && free) fun s => s.bump Reg.TWN_CMD_REFUSED

/-- A departure is signalled (R413, R416, R426). -/
def State.departure (s : State) (n : Nat) (it : Item) : State :=
  let us := min (s.roundQ (s.now - s.releaseAt n it).toNat 1000) 16777215
  let s := s.departureHandover.bump Reg.SAF_DEPARTURES
  ((s.setBit (Reg.SAF_LATE (n / 32)) (n % 32) true).raiseT 17 (us + 16777216 * n)).freshId

/-- `ms` milliseconds have passed since E_k (R416). -/
def State.sinceRelease (s : State) (n : Nat) (it : Item) (ms : Nat) : Bool := decide (s.releaseAt n it + 1000000 * ms ≤ s.now)

/-- R416: item `k` is judged at E_k + 1 ms; a snuffed unit makes no judgement. -/
def execDepartureJudgement (dt : Nat) (n : Fin 96) (k : Nat) (s : State) : Host.Outcome State Fault Refusal :=
  let s := (s.elapse dt).settleLeft
  match s.item? n k with
  | none => done s
  | some it =>
    if s.snuffed || it.judged || it.abandoned || !s.sinceRelease n it 1 then done s
    else
      let s := s.modItem n k fun it => { it with judged := true }
      let s := if s.departs n it then s.departure n it else s.setBit (Reg.SAF_LATE (n / 32)) (n.val % 32) false
      done (s.sweepItems n)

/-- The die named for an item that has not left: of its oldest band not yet sealed, or the mux die (R416). -/
def State.namedDie (s : State) (n : Nat) (it : Item) : Nat :=
  match (List.range it.bands.length).find? fun b => decide ((it.band b).done < 7) with
  | some b => s.dieOf n (s.partOf n b)
  | none => s.muxDie (s.outFlow n)

/-- R416: item `k` still has not left at E_k + DIE_LIMIT. -/
def execDieLimitExpiry (dt : Nat) (n : Fin 96) (k : Nat) (s : State) : Host.Outcome State Fault Refusal :=
  let s := (s.elapse dt).settleLeft
  match s.item? n k with
  | none => done s
  | some it =>
    if s.snuffed || it.abandoned || it.left.isSome || !s.sinceRelease n it (s.fld Reg.SAF_CTRL 7 0) then done s
    else done (s.retire (s.namedDie n it) 7).pumpTakes

/-! ## Lockstep, SRAM, rails (R419 to R421) -/

/-- R419: the comparator of a control-core pair finds a mismatch: the pair is held; a second one within 1 s is a die fault. -/
def execLockstepMismatch (dt : Nat) (d : Fin 8) (pair : Fin 2) (s : State) : Host.Outcome State Fault Refusal :=
  let s := s.elapse dt
  let id := 2 * d.val + pair.val
  if !s.dieOk d || s.saf.held.contains id then done s
  else
    let again := s.saf.lockstepAt.any fun e => e.1 == id && decide (s.now < e.2 + 1000000000)
    let now := s.now
    let s := { s with saf := { s.saf with
      lockstepAt := (id, now) :: s.saf.lockstepAt.filter fun e => e.1 != id, held := id :: s.saf.held } }
    let s := ((s.bump Reg.SAF_LOCKSTEP).raiseT 18 (d + 16 * pair)).masterReset (masterNo d pair)
    done ((s.when again fun s => s.retire d 6).pumpTakes)

/-- R419: the pair has restarted from its checkpoint. -/
def execLockstepRestartDone (dt : Nat) (d : Fin 8) (pair : Fin 2) (s : State) : Host.Outcome State Fault Refusal :=
  let s := s.elapse dt
  done { s with saf := { s.saf with held := s.saf.held.filter fun x => x != 2 * d.val + pair.val } }

/-- R420: SECDED corrects a word, which the scrubber writes back. -/
def execSramCorrectedError (dt : Nat) (d : Fin 8) (s : State) : Host.Outcome State Fault Refusal :=
  let s := s.elapse dt
  done (s.when (s.dieOk d) fun s => s.bump Reg.SAF_SRAM_CE)

/-- R420: an uncorrectable error; the owner of the data handles it. -/
def execSramUncorrectableError (dt : Nat) (d : Fin 8) (owner : DataOwner) (s : State) :
    Host.Outcome State Fault Refusal :=
  let s := s.elapse dt
  if !s.dieOk d then done s
  else done ((((s.bump Reg.SAF_SRAM_UE).raiseT 19 d).ownerLost owner).pumpTakes)

/-- VCOREd leaves its range while its die does not run: during a reset that makes the reset a cold one (R44); in E0 and E1
the die has not passed its self-test and is failed for this emergence (R43, R47); in E2 a die that has passed it is lost, which
is a die fault as soon as E2 has brought the other dies up (R46). -/
def State.railLeft (s : State) (d : Nat) : State :=
  if !s.emg.started then s.coldReset.setRail d false
  else
    let s := s.setRail d false
    if s.phase ≤ 1 ∧ s.dieTest d ≠ .waiting then (s.setTest d .failed).endE1
    else if s.phase = 2 ∧ s.dieTest d = .passed then s.setTest d .lost else s

/-- R421: VCOREd has stood for 1 µs at a level, in µV, outside the monitor's window. A rail that the device itself turned off is
no further fault (R467). -/
def execVcoreOutOfWindow (dt : Nat) (d : Fin 8) (uv : Nat) (s : State) : Host.Outcome State Fault Refusal :=
  let s := s.elapse dt
  if s.bit Reg.THM_STATUS d then done s
  else if !s.outOfWindow d uv then done s
  else if !s.dieOk d then done (s.railLeft d)
  else done (s.retire d 1).pumpTakes

/-- AUTO_DELAY has passed since the snuff (R410). -/
def State.autoDue (s : State) : Bool :=
  s.saf.snuffAt.all fun t => decide (t + 1000000000 * s.fld Reg.SAF_CTRL 23 16 ≤ s.now)

/-- R410, R468: AUTO_DELAY has passed since the snuff; after a thermal one every die must first be below 100 °C. -/
def execAutoResetExpiry (dt : Nat) (s : State) : Host.Outcome State Fault Refusal :=
  let s := s.elapse dt
  let hot := decide (s.fld Reg.SAF_STATUS 7 0 = 7) && (List.range 8).any fun d =>
    decide (800 ≤ signedOf 16 (s.fld (Reg.THD_STATUS d) 15 0))
  if s.snuffed && s.bit Reg.SAF_CTRL 31 && s.autoDue && !hot then done s.warmReset else done s

/-! ## Die links and cut bursts (R20 to R22, R491 to R495) -/

/-- The abort-log entry of a cut burst, which names the item it served (R494, R495). -/
def State.logBurst (s : State) (kind : Nat) (b : Burst) : State :=
  match b.item with
  | none => s.abortLog (s.logDie b.addr b.mdie) kind b.addr b.mdie b.mid 0x7F (min b.beats 16) (min b.total 16) 0
  | some (n, k) => s.abortLog (s.logDie b.addr b.mdie) kind b.addr b.mdie b.mid n (min b.beats 16) (min b.total 16) k

/-- R21, R22: a link fails: unacknowledged transactions take their new route, bursts cut short are reissued whole, and a die
left without a link is a failed die. -/
def execDieLinkFailure (dt : Nat) (l : Fin 12) (cut : List Burst) (taken : List Nat) (s : State) : Host.Outcome State Fault Refusal :=
  let s := s.elapse dt
  if !s.emg.links.getD l false then done s
  else
    let s := { s with emg := { s.emg with links := s.emg.links.set l false } }
    let s := (s.reroute taken).each cut fun b s => s.logBurst 5 b
    let s := s.each [(linkEnds l).1, (linkEnds l).2] fun d s => s.when (s.isolated d) fun s => s.retire d 5
    done s.pumpTakes

/-- What a write burst cut short leaves behind (R432, R492, R494). -/
def State.partWritten (s : State) (x : PartWritten) : State :=
  match x with
  | .nothing => s
  | .record n k => s.ownerLost (.item n k)
  | .block d a =>
    let place := s.mcPlaceOf d a
    s.poisonBlock d place.1 (place.2 / 64) true

/-- R492: the target completes a burst whose master was reset, with every strobe off: no register changes, beats written to
memory stand; the reset clears the master's latches and held halves (R491). `sram` is a target in SRAM or picture memory. -/
def execMasterResetMidBurst (dt : Nat) (b : Burst) (sram : Bool) (left : PartWritten) (s : State) :
    Host.Outcome State Fault Refusal :=
  let s := (s.elapse dt).masterReset (masterNo b.mdie b.mid)
  let s := s.logBurst (if sram then 4 else 3) (if sram then b else { b with beats := 0 })
  done (if sram then s.partWritten left else s)

end Sys2Proof.Machine
end

