-- ==== Sys2Proof/Machine/Steps.lean ====
section
/-! DEFINITION. The life of a channel: admission, picture boundaries, control steps, disabling, and a standby's waits (R49,
R76, R80, R82, R86 to R89, R93 to R98, R113, R170, R269, R330, R331, R343, R344, R370). -/

namespace Sys2Proof.Machine

/-! ## Control steps (R170, R330, R331, R344) -/

/-- The item of the next index begins, its record still open. -/
def State.beginItem (s : State) (n : Nat) : State :=
  let k := (s.chan n).next
  let dr : DecisionRecord := ⟨n, false, false, false, false, false, 0, 0, 0, 0, k, 0, 0, 0, 0, 0, 0, 0, 0, 0, 0, [], 0, 0,
    s.bands n⟩
  let it := s.blankItem n k dr
  s.modChan n fun c => { c with items := c.items ++ [it], next := k + 1 }

/-- The item takes the boundary and time base of the grid now in force. -/
def State.placeItem (s : State) (n k : Nat) : State :=
  let b := s.boundary n k
  let d := (s.chan n).doff
  s.modItem n k fun it => { it with bnd := b, doff := d }

/-- This unit fixes the control step of item `k` itself; on a standby the channel becomes unconfirmed (R344). -/
def State.ownControl (s : State) (n k : Nat) : State :=
  let start := (s.chan n).starts
  let moved := (s.chan n).reanchor
  let s := s.when moved fun s => (s.reanchorChan n).placeItem n k
  let s := s.stepLookahead n k start
  let dr := (s.asOf (s.controlAt n k)).controlRecord n k start (start || moved)
  let s := s.modChan n fun c => { c with starts := false }
  let s := s.fixControl n k dr (s.paired && s.isStandby)
  s.when (s.paired && s.isStandby) fun s => s.unconfirm n

/-- Mean offset of the present run, or the last offset (R331). -/
def State.meanOffset (s : State) : Int :=
  match s.clk.run with
  | some r => roundHalfAway r.sum r.n
  | none => (s.rd Reg.PTP_OFFSET).toInt

/-- The holder's control part for item `k` is used (R331, R343). -/
def State.adoptControl (s : State) (n k : Nat) (dr : DecisionRecord) : State :=
  let moves := dr.discontinuity && decide (dr.refreshCause ≠ 1)
  let s := s.when (moves && !(s.chan n).reanchor) fun s =>
    { s.doffStep (-s.meanOffset) with clk := { (s.doffStep (-s.meanOffset)).clk with run := none } }
  let s := s.when moves fun s => (s.reanchorChan n).placeItem n k
  let s := (s.modChan n fun c => { c with la := dr.lookahead, starts := false }).judgedTo n (s.controlAt n k)
  s.fixControl n k { dr with outcome := 0, sourceTs := 0, refInstant := 0 } false

/-- The holder's input part for item `k` is used. Its repeat or slate is an empty slot of this unit's context too, unless this unit has
a picture there: the holder then had no buffer for it (R115, R230; DEDUCED, log 50). -/
def State.adoptInput (s : State) (n k : Nat) (dr : DecisionRecord) : State :=
  let m := s.inputOf n
  let s := s.when (decide (dr.outcome = 0)) fun s => s.endAbsence m (s.sourceIndex n k).toNat
  let s := match s.item? n k with
    | none => s
    | some it => s.when (decide (dr.outcome ≠ 0) && !it.accepted) fun s =>
        s.noteAbsence m (s.sourceIndex n k).toNat (bndDtc it) (decide (dr.outcome = 2))
  s.fixInput n k dr.outcome dr.sourceTs dr.refInstant

/-- A part that arrived before its step. -/
def State.partFor (s : State) (n k : Nat) (input : Bool) : Option DecisionRecord :=
  ((s.chan n).parts.find? fun p => p.1 == k && p.2.1 == input).map (·.2.2)

def State.dropParts (s : State) (n k : Nat) : State :=
  s.modChan n fun c => { c with parts := c.parts.filter fun p => decide (k ≤ p.1),
                                entries := c.entries.filter fun e => decide (k ≤ e.index + 32),
                                bodies := c.bodies.filter fun b => decide (k ≤ b.2.1 + 32) }

/-- Use what has arrived from the holder for item `k`. -/
def State.adoptParts (s : State) (n k : Nat) : State :=
  match s.item? n k with
  | none => s
  | some it =>
    let s := match it.controlFixed, s.partFor n k false with
      | false, some dr => s.adoptControl n k dr
      | _, _ => s
    let ready := ((s.item? n k).map fun it => it.controlFixed && !it.inputFixed).getD false
    let s := match ready, s.partFor n k true with
      | true, some dr => s.adoptInput n k dr
      | _, _ => s
    s.readyBands n k

/-- A joining channel codes no item before its join item (R371). -/
def State.skips (s : State) (n : Nat) : Bool :=
  match (s.chan n).snap with
  | .catching => true
  | .joining j => decide ((s.chan n).next < j)
  | .requested _ => decide (s.chanState n = 2)
  | _ => false

/-- R170: the control part of the next item is fixed, by this unit or from the holder's record. -/
def State.controlStep (s : State) (n : Nat) : State :=
  if !s.running n || (s.chan n).disabling then s
  else if s.skips n then s.modChan n fun c => { c with next := c.next + 1 }
  else
    let k := (s.chan n).next
    let s := s.beginItem n
    if s.follows n then (s.dropParts n k).adoptParts n k else s.ownControl n k

def execControlStep (dt : Nat) (n : Fin 96) (s : State) : Host.Outcome State Fault Refusal :=
  done ((s.elapse dt).controlStep n).pumpTakes

/-! ## A standby's waits (R119, R246, R344, R346) -/

/-- R344: 20 µs past a step's instant, the part has not come and this unit fixes it: 0 control, 1 input, 2 band `b`,
3 a gap of a contribution flow. A wait that ends because the flame was taken ends the same way. -/
def State.waitEnds (s : State) (n k step b : Nat) : State :=
  if step = 3 then
    match (s.chan n).nextSeq, ((s.chan n).held.map (·.1)).min? with
    | some q, some h => s.when (decide (q < h)) fun s => s.passGap n q (h - q)
    | _, _ => s
  else match s.item? n k with
    | none => s
    | some it =>
      let mark := fun (s : State) => s.when s.isStandby fun s =>
        (s.modItem n k fun it => { it with own := true }).unconfirm n
      match step with
      | 0 => if it.controlFixed then s else (s.ownControl n k).adoptParts n k
      | 1 =>
        if it.inputFixed || !it.controlFixed then s
        else if it.accepted then
          let o := s.sourceOutcome (s.inputOf n) n it
          mark (((s.endAbsence (s.inputOf n) (s.sourceIndex n k).toNat).fixInput n k o it.dr.sourceTs it.dr.refInstant).readyBands n k)
        else
          let source := s.sourceOutcome (s.inputOf n) n it
          let o := if source ≠ 0 then source else if it.dr.slateEn && (s.chan (s.inputOf n)).slating then 2 else 1
          mark (s.fixInput n k o 0 0)
      | _ =>
        if decide ((it.band b).done ≠ 0) || !it.inputFixed || decide (s.bands n ≤ b) then s
        else mark ((s.repairBand n k b (entryFor n k b (s.missingLines n it b)) true).readyBands n k)

def execRecordWaitTimeout (dt : Nat) (n : Fin 96) (k step b : Nat) (s : State) : Host.Outcome State Fault Refusal :=
  let s := s.elapse dt
  if !s.paired || (s.isStandby && decide (step = 0) && decide (s.now < s.controlAt n k + 20000)) then done s
  else done (s.waitEnds n k step b).pumpTakes

/-- A digest of the holder is missing for item `it` (R346). -/
def Item.lacksPartner (it : Item) : Bool :=
  (it.inPartner ++ it.bands.map (·.partner) ++ [it.muxPartner]).any fun p => p.isNone

/-- R346: a digest of the holder still missing at the standby's E_k + 1 ms. -/
def execHolderDigestMissing (dt : Nat) (n : Fin 96) (k : Nat) (s : State) : Host.Outcome State Fault Refusal :=
  let s := s.elapse dt
  match s.item? n k with
  | none => done s
  | some it =>
    if it.compared || !s.isStandby || decide (s.chanState n ≠ 5) || decide (s.now < s.releaseAt n it + 1000000) ||
        !(s.asCompared n it).lacksPartner then done s
    else done (((s.modItem n k fun it => { it with compared := true }).unconfirm n).sweepItems n)

/-! ## Admission (R86 to R89) -/

/-- R86: admission order; R89: when channel 0 cannot be placed, no other channel is admitted. -/
def State.admitAll (s : State) : State :=
  let s := s.setLims
  let enabled := s.inOrder (allChans.filter fun n => s.bit (Reg.CHN_CTRL n) 0)
  let (s, alert) := enabled.foldl (fun (acc : State × Bool) n =>
    let s := acc.1
    let s := s.setFld (Reg.CHN_EFFORT n) 18 16 (s.fld (Reg.CHN_EFFORT n) 2 0)
    if acc.2 then (s.setChan n 6 2, true)
    else match s.placeFull n with
      | some t => ((((t.makePool n).showRank n).modChan n fun c => { c with cause := 1 }).setChan n 1 1, false)
      | none => (s.setChan n 6 2, decide (n = 0))) (s, false)
  let s := s.when alert fun s => s.raise 3 0
  let s := { s with cap := { s.cap with admitted := true } }
  s.redim.showAll.reportDims.each (List.range 8) fun d s => s.noteShared d

def execAdmission (dt : Nat) (s : State) : Host.Outcome State Fault Refusal :=
  let s := s.elapse dt
  if s.phase ≠ 8 ∨ s.cap.admitted then done s else done s.admitAll

/-- Become LIVE, and a unit that joins a holding partner asks for a snapshot of every channel (R49, R369). -/
def State.goLive (s : State) : State :=
  let joins := s.twin.joins
  let s := s.becomeLive
  s.when (joins && s.isStandby) fun s =>
    s.each (allChans.filter fun n => decide (s.chanState n = 2)) fun n s => s.requestSnapshot n

/-- R49: with no channel admitted, the unit becomes LIVE 5 ms after E8 began. -/
def execE8Timeout (dt : Nat) (s : State) : Host.Outcome State Fault Refusal :=
  let s := s.elapse dt
  if s.phase = 8 ∧ s.cap.admitted ∧ (allChans.all fun n => decide (s.chanState n = 0) || decide (s.chanState n = 6)) then
    done s.goLive
  else done s

/-! ## Picture boundaries (R80, R82, R94, R229, R370) -/

/-- The state of the input that channel `n` names, which serves its renditions whatever the channel does (R79). -/
def Chan.withInputOf (d c : Chan) : Chan :=
  { d with paths := c.paths, skew := c.skew, arrivals := c.arrivals, nextSeq := c.nextSeq, held := c.held, demux := c.demux,
           absent := c.absent, slating := c.slating, splices := c.splices, sections := c.sections, gaps := c.gaps, dec := c.dec,
           decNext := c.decNext, dpb := c.dpb, subs := c.subs, pcr := c.pcr, lastPts := c.lastPts, tsOffset := c.tsOffset, errsAt := c.errsAt, anchor := c.anchor, doff := c.doff }

/-- PRIMING: a new stream begins with this boundary (R80, R82, R172). -/
def State.prime (s : State) (n : Nat) : State :=
  let c := s.chan n
  let g := (s.now + s.clk.doff) * (s.rate n : Int) / (perNum : Int) + 1
  let fresh : Chan := { Chan.reset with
    place := c.place, records := c.records, pool := c.pool, cause := c.cause, waitFor := c.waitFor,
    anchor := g, doff := s.clk.doff, starts := true }
  let shared := s.renditionsOf n ≠ []
  let move := fun (x : Splice) => { x with item := ((x.item : Int) + c.anchor - g).toNat }
  let shift := fun (k : Nat) => ((k : Int) + c.anchor - g).toNat
  let kept := { fresh.withInputOf c with
    anchor := g, doff := s.clk.doff, splices := c.splices.map move,
    sections := c.sections.map fun x => { x with carry := shift x.carry, item := shift x.item, stop := x.stop.map shift } }
  let s := s.modChan n fun _ => if shared then kept else fresh
  let s := s.when (s.chKind n != 2 && !shared) fun s => s.setFld (Reg.CHN_IN_STATUS n) 7 0 0
  let s := ((s.setConf n false).setChan n 2 c.cause).countShed
  s.when (s.live && s.isStandby) fun s => s.requestSnapshot n

/-- The holder pins the references of a channel whose snapshot was asked for (R229, R370). -/
def State.startSnap (s : State) (n : Nat) : State :=
  let c := s.chan n
  let from_ := ((c.items.filter fun it => decide (bndDtc it ≤ s.now)).getLast?.map (·.idx)).getD c.next
  let pin := fun (b : Buf) => if b.mark = .refShort || b.mark = .refLong then { b with mark := Mark.snapshot } else b
  let s := s.modChan n fun c => { c with snap := .sending from_, pool := c.pool.map pin }
  let pinned := (((s.chan n).pool.filter fun b => decide (b.mark = Mark.snapshot)).map (·.items)).eraseDups
  let copy := fun (items : List Nat) =>
    let k := items.getLastD 0
    (⟨items, (if s.split n then [0, 1] else [0]).map (s.storedRecon n k), (List.range (s.bands n)).map fun b => (b, s.firstBand n k b),
      (List.range (s.bands n)).map fun b => (b, s.finalBand n k b), s.headerCrcs n k⟩ : RefCopy)
  (s.snapEvent n 1).lanternSend (.snapshot n (.references from_ (c.hold.map (·.1)) (pinned.map copy)))

/-- A channel being disabled accepts no more: items after its last accepted picture fall away (R80). -/
def State.stopAccepting (s : State) (n : Nat) : State :=
  let c := s.chan n
  let last := ((c.items.filter fun it => it.accepted || (it.inputFixed && decide (it.dr.outcome = 0))).getLast?).map (·.idx)
  let drop := c.items.filter fun it => it.left.isNone && (match last with | none => true | some l => decide (l < it.idx))
  let s := s.each drop fun it s => s.freeItemDescs n it.idx
  let gone := drop.map (·.idx)
  s.modChan n fun c => { c with shedding := none, freed := false, items := c.items.filter fun it => !gone.contains it.idx }

def State.pictureBoundary (s : State) (n : Nat) : State :=
  let st := s.chanState n
  let c := s.chan n
  let s :=
    if c.disabling then s.stopAccepting n
    else match c.shedding with
      | some cause => s.shedNow n cause
      | none =>
        if c.place.isSome ∧ !c.freed ∧ c.waitFor = [] ∧ (st = 1 ∨ st = 6) then s.prime n
        else match c.snap with
          | .asked => s.startSnap n
          | _ => s
  let waits := allChans.any fun m => decide (s.chanState m = 1)
  s.when (decide (s.phase = 8) && s.cap.admitted && !waits && allChans.any (fun m => decide (s.chanState m = 2))) fun s =>
    s.goLive

def execPictureBoundary (dt : Nat) (n : Fin 96) (s : State) : Host.Outcome State Fault Refusal :=
  let s := s.elapse dt
  if s.phase ≠ 8 ∧ s.phase ≠ 9 then done s else done (s.pictureBoundary n).pumpTakes

/-! ## Enabling and disabling (R80, R97) -/

/-- The channel reaches DISABLED: its place and pool are free (R80, R91); an input that serves renditions goes on (R79). -/
def State.nowDisabled (s : State) (n : Nat) : State :=
  let shared := s.renditionsOf n ≠ []
  let was := s.chan n
  let back := s.cap.offered.contains n
  let s := (s.freeDescs fun d => d.chan == n && !(shared && d.decode)).endAllocs fun w => w.chan == n && !(shared && w.decode)
  let s := s.modChan n fun c =>
    let d : Chan := { Chan.reset with records := c.records, place := c.later, cause := c.cause, waitFor := c.waitFor }
    if shared then d.withInputOf c else d
  let s := s.each allChans fun m s => s.modChan m fun c => { c with waitFor := c.waitFor.filter (· ≠ n) }
  let s := (s.setConf n false).setChan n 0 13
  -- R95: enabled again meanwhile, the channel was offered: it is admitted on the placement kept for it, or SHED.
  let s := { s with cap := { s.cap with offered := s.cap.offered.filter (· ≠ n) } }
  let s := s.when back fun s =>
    if was.later.isSome then (s.makePool n).setChan n 1 14 else s.setChan n 6 14
  s.redim.showAll.reportDims.syncGroups

def State.tryDisable (s : State) (n : Nat) : State :=
  s.when ((s.chan n).disabling && (s.chan n).items.all fun it => it.left.isSome || it.abandoned) fun s => s.nowDisabled n

def execChannelDisabled (dt : Nat) (n : Fin 96) (s : State) : Host.Outcome State Fault Refusal :=
  done ((s.elapse dt).settleLeft.tryDisable n)

/-- A live write of CHN_CTRL.ENABLE takes effect (R80, R90, R95, R97): enabling re-plans once the unit is LIVE. -/
def State.enableChan (s : State) (n : Nat) (enable : Bool) : State :=
  let was := s.bit (Reg.CHN_CTRL n) 0
  let s := s.setBit (Reg.CHN_CTRL n) 0 enable
  if was = enable then s
  else if enable then
    let s := { s with cap := { s.cap with offered := s.cap.offered.filter (· ≠ n) ++ [n] } }
    (s.when s.live fun s => s.replan [] 8 false).syncGroups
  else
    let s := { s with cap := { s.cap with offered := s.cap.offered.filter (· ≠ n) } }
    if s.chanState n = 0 then s
    else
      let s := s.modChan n fun c => { c with disabling := true }
      s.when (!s.running n) fun s => s.tryDisable n

/-- R97: the write needs its live permission; a holder's write is mirrored with the picture index it reaches (R98, R345). -/
def execChnEnableWrite (dt : Nat) (n : Fin 96) (enable : Bool) (s : State) : Host.Outcome State Fault Refusal :=
  let s := s.elapse dt
  let a := Reg.CHN_CTRL n
  if !s.mayWrite a 0 0 then done (s.when (s.bit a 0 != enable) fun s => s.refuse a)
  else
    let s := s.enableChan n enable
    done (s.mirrorWrite a (s.rdN a))

end Sys2Proof.Machine
end

