-- ==== Sys2Proof/Machine/Mirror.lean ====
section
/-! DEFINITION. Messages that arrive over the Lantern link, and snapshots on both units (R343 to R346, R357, R358, R370 to
R373, R376, R397, R398, R418). -/

namespace Sys2Proof.Machine

/-- R398: which frames are accepted. `f` acts on an accepted one. -/
def State.lanternRx (s : State) (h : LHeader) (type : Nat) (f : State → State) : State :=
  if !s.paired || decide (s.fld Reg.LNK_STATUS 15 8 = 0) then s
  else if !h.crcOk then s.bump Reg.LNK_CRC_ERR
  else if h.type ≠ type then s.bump Reg.LNK_DISCARD
  else if type = 9 then f (s.bump Reg.LNK_RX_FRAMES)
  else if h.lseq = (s.link.rxSeq + 1) % 65536 then
    f (({ s with link := { s.link with rxSeq := h.lseq } }).bump Reg.LNK_RX_FRAMES)
  else s.bump Reg.LNK_DISCARD

/-- R418: a record or entry that fails its own CRC makes its item a repeat picture, with cause 16. -/
def State.badRecord (s : State) (n k : Nat) : State :=
  match s.item? n k with
  | none => s
  | some it =>
    if it.left.isSome then s
    else
      let s := s.when (!it.controlFixed) fun s => s.ownControl n k
      let s := s.when (!it.inputFixed) fun s => s.fixInput n k 1 0 0
      ((s.becomeRepeat n k).fail n 1 16 0 0 255 (s.bands n) k 0).unconfirm n

/-- R343: a record part of the holder is used at its step, or kept until then. -/
def State.recordRx (s : State) (input : Bool) (r : DecisionRecord) (ok : Bool) : State :=
  let n := r.chan
  if !s.isStandby || decide (96 ≤ n) then s
  else if !ok then s.badRecord n r.index
  else if r.index < (s.chan n).next ∧ (s.item? n r.index).isNone then s
  else
    let s := s.modChan n fun c => { c with parts := (r.index, input, r) :: c.parts.filter fun p =>
      !(p.1 == r.index && p.2.1 == input) }
    s.when (s.follows n) fun s => s.adoptParts n r.index

def execDecisionRecordRx (dt : Nat) (h : LHeader) (input : Bool) (bytes : List Byte) (s : State) :
    Host.Outcome State Fault Refusal :=
  done ((s.elapse dt).lanternRx h 1 fun s => (s.recordRx input (readRecord bytes) (recordOk bytes)).pumpTakes)

/-- R119: the holder's band entry. -/
def State.bandEntryRx (s : State) (e : BandEntry) (ok : Bool) : State :=
  let n := e.chan
  if !s.isStandby || decide (96 ≤ n) then s
  else if !ok then s.badRecord n e.index
  else
    let s := s.modChan n fun c => { c with entries := e :: c.entries.filter fun x =>
      !(x.index == e.index && x.band == e.band) }
    s.when (s.follows n) fun s => s.followBand n e.index e.band

def execBandEntryRx (dt : Nat) (h : LHeader) (n : Fin 96) (k : Nat) (bytes : List Byte) (s : State) :
    Host.Outcome State Fault Refusal :=
  done ((s.elapse dt).lanternRx h 2 fun s => (s.bandEntryRx (readEntry n k bytes) (entryIntact bytes)).pumpTakes)

/-- R246: the holder's gap entry; datagrams held in its range are discarded. A corrupt one makes the item then arriving a
repeat picture (R418). -/
def State.gapEntryRx (s : State) (e : GapEntry) (ok : Bool) : State :=
  let m := e.chan
  if !s.isStandby || decide (96 ≤ m) then s
  else if !ok then
    match (s.chan m).items.find? (fun it => !it.inputFixed) with
    | none => s
    | some it => s.badRecord m it.idx
  else
    let s := s.modChan m fun c => { c with
      gaps := c.gaps ++ [e],
      held := c.held.filter fun x => (inGap [e] x.1).isNone }
    State.followGaps (s.chan m).gaps.length m s

def execGapEntryRx (dt : Nat) (h : LHeader) (bytes : List Byte) (s : State) : Host.Outcome State Fault Refusal :=
  done ((s.elapse dt).lanternRx h 3 fun s => (s.gapEntryRx (readGap bytes) (gapOk bytes)).pumpTakes)

/-- R345: the body of a splice command, for the sections of R291. -/
def execSpliceCommandRx (dt : Nat) (h : LHeader) (n : Fin 96) (id index : Nat) (body : List Byte) (s : State) :
    Host.Outcome State Fault Refusal :=
  done ((s.elapse dt).lanternRx h 5 fun s => s.when s.isStandby fun s =>
    s.modChan n fun c => { c with bodies := (id, index, body) :: c.bodies.filter fun x => !(x.1 == id && x.2.1 == index) })

/-- R376: the partner's dim level of a channel, with the instant of its receipt. -/
def execDimReportRx (dt : Nat) (h : LHeader) (n : Fin 96) (level : Fin 5) (s : State) :
    Host.Outcome State Fault Refusal :=
  done ((s.elapse dt).lanternRx h 6 fun s =>
    let old := ((s.twin.partnerDims.find? fun e => e.1 == n.val).map fun e => e.2.1).getD 0
    let rest := s.twin.partnerDims.filter fun e => e.1 != n.val
    { s with twin := { s.twin with partnerDims := (n.val, level.val, old, s.now) :: rest } })

/-- R346: an input digest of the partner. -/
def execInputDigestRx (dt : Nat) (h : LHeader) (n : Fin 96) (k part digest : Nat) (s : State) :
    Host.Outcome State Fault Refusal :=
  done ((s.elapse dt).lanternRx h 7 fun s =>
    ((s.modItem n k fun it => { it with inPartner := it.inPartner.set part (some digest) }).compareItem n k).sweepItems n)

/-- R346: an output digest of a band, or the mux digest of an item. -/
def execOutputDigestRx (dt : Nat) (h : LHeader) (n : Fin 96) (k : Nat) (band : Option Nat) (digest : Nat) (s : State) :
    Host.Outcome State Fault Refusal :=
  done ((s.elapse dt).lanternRx h 8 fun s =>
    let s := match band with
      | some b => s.modBand n k b fun x => { x with partner := some digest }
      | none => s.modItem n k fun it => { it with muxPartner := some digest }
    (s.compareItem n k).sweepItems n)

/-- R357, R358: a cursor later than the one held moves the flow's resume point; the copies it covers are dropped. -/
def State.cursorRx (s : State) (flow cursor : Nat) : State :=
  let old := s.twin.cursors.find? fun e => e.1 == flow
  let later : Bool := match old with
    | none => true
    | some e => decide (0 < signed32 ((cursor : Int) - e.2))
  if !later || decide (2048 ≤ flow) then s
  else
    let rest := s.twin.cursors.filter fun e => e.1 != flow
    let s := { s with twin := { s.twin with cursors := (flow, cursor % 4294967296) :: rest } }
    let s := s.modFlow flow fun f => { f with since := 0 }
    let kept := s.twin.replay.filter fun f => f.flow != flow || s.uncovered f
    { s with twin := { s.twin with replay := kept } }

def execCursorFrameRx (dt : Nat) (h : LHeader) (entries : List (Nat × Nat)) (s : State) :
    Host.Outcome State Fault Refusal :=
  done ((s.elapse dt).lanternRx h 9 fun s => s.when s.isStandby fun s => s.each entries fun e s => s.cursorRx e.1 e.2)

/-- R345: the partner's failure record is counted; no event. -/
def execFailureRecordRx (dt : Nat) (h : LHeader) (bytes : List Byte) (s : State) : Host.Outcome State Fault Refusal :=
  done ((s.elapse dt).lanternRx h 10 fun s => s.when (decide (bytes.length = 32)) fun s => s.bump Reg.SAF_FR_PARTNER)

/-! ## Snapshots (R370 to R373) -/

/-- Bring the joining channel's numbering in step with the holder's: the newest control part received names the item of
its boundary. -/
def State.alignIndex (s : State) (n : Nat) : State :=
  match ((s.chan n).parts.filter fun p => !p.2.1).head? with
  | none => s
  | some (kp, _, dr) =>
    let c := s.chan n
    let at_ := fun (j : Int) => (gridAt (s.rate n) (c.anchor + j) - c.doff) % 4294967296
    let near := [(c.next : Int) - 1, c.next, c.next - 2, c.next + 1]
    match near.find? (fun j => decide (at_ j = dr.boundary)) with
    | none => s
    | some j =>
      let shift := (kp : Int) - j
      s.modChan n fun c => { c with anchor := c.anchor - shift, next := (c.next + shift).toNat }

/-- R371: the join item is the first whose control step falls after the decoder has completed the item two before it. -/
def State.nameJoin (s : State) (n decoded : Nat) : State :=
  let s := s.alignIndex n
  let j := (s.chan n).next
  if j ≤ decoded + 2 then
    (s.modChan n fun c => { c with snap := .joining j, catchTo := some (decoded, j), await := some j, starts := false }).lanternSend (.joinItem n j)
  else s

/-- Every CTU of the final samples of the references received agrees with the CRCs of their headers (R229). -/
def State.refsOk (s : State) (n : Nat) : Bool :=
  (s.chan n).copied.all fun x => ((List.range (s.bands n)).flatMap fun b => s.crcsOf n b (assocGet [] x.final b)) == x.crcs

/-- The references received stand in this unit's own pool (R229). -/
def State.placeRefs (s : State) (n : Nat) : State :=
  let c := s.chan n
  let s := s.each c.copied fun x s =>
    let k := x.items.getLastD 0
    let s := s.modPic n k fun p => { p with first := x.first, final := x.final }
    let s := s.each x.items.dropLast fun j s => s.modPic n j fun p => { p with same := some k }
    let s := s.when (s.split n) fun s => (s.keepHalo n k 0).keepHalo n k 1
    (s.takeRecon n k x.items.dropLast).reMark n k .recon [.coding]
      (if c.hold.any fun h => x.items.contains h.1 then .refLong else .refShort)
  s.modChan n fun c => { c with copied := [] }

/-- The references of channel `n` have arrived; a CRC mismatch aborts and the request is repeated (R371). -/
def execSnapshotReferencesArrived (dt : Nat) (n : Fin 96) (s : State) : Host.Outcome State Fault Refusal :=
  let s := s.elapse dt
  match (s.chan n).snap with
  | .requested true =>
    if s.refsOk n then
      done ((((s.dropWork n).placeRefs n).modChan n fun c => { c with snap := .catching }).snapEvent n 2)
    else done ((s.snapEvent n 4).requestSnapshot n)
  | _ => done s

/-- A resynchronisation that TWN_CMD.RESYNC asked for has ended (R380). -/
def State.endResync (s : State) : State :=
  s.when (!s.joinRunning) fun s => s.setBit Reg.TWN_CMD 30 false

/-- R372: the mux state of a flow: its channels have joined from this datagram on. -/
def State.muxState (s : State) (i formed jump : Nat) (psi : Option (Int × Nat)) (base : Int) (cc : List (Nat × Nat))
    (progs : List (Nat × MuxState)) : State :=
  let s := s.modFlow i fun f =>
    { f with formed := formed, left := max f.left formed, jump := jump, psi := psi, base := base, cc := cc }
  let s := s.each progs fun e s => s.modMux e.1 fun _ => e.2
  let fecAt := fun (j : Nat) =>
    let l := max 1 (s.fld (Reg.OF_AUX j) 31 27)
    let d := max 1 (s.fld (Reg.OF_AUX j) 26 22)
    if s.flowKind j = 4 then ceilDiv formed l else ceilDiv formed (l * d) * l
  let s := s.each (s.fecFlows i) fun j s => s.modFlow j fun f => { f with formed := fecAt j, left := max f.left (fecAt j) }
  let joined := (s.progsOf i).filter fun n => match (s.chan n).snap with | .joining _ => true | _ => false
  (s.each joined fun n s =>
    (s.modChan n fun c => { c with snap := .joined, confirmRun := 0 }).snapEvent n 3).endResync

/-- R370: the join state arrives: carried state, refresh state, hold state and analysis records; the two reconstructions before
the join item are its references (R226). -/
def State.takeJoin (s : State) (n j : Nat) (x : JoinState) : State :=
  let taken := ((s.chan n).items.filter fun it => it.inputFixed && decide (it.dr.outcome = 0)).map (·.idx)
  -- Items whose input step came before the join state keep the hold that stands at it (R228).
  let used := fun (it : Item) => (x.hold.map (·.2)).getD 0 + taken.idxOf it.idx
  let held := fun (it : Item) => if it.kept.isSome ∨ (taken.contains it.idx ∧ 2 < used it + 1) then it.kept else x.hold.map (·.1)
  let s := s.each x.analysis fun a s =>
    let s := s.modPic n a.item fun p => { p with
      means := a.bands.mapIdx fun b e => (b, e.act), acts := a.bands.mapIdx fun b e => (b, e.acts),
      coarse := a.bands.mapIdx fun b e => (b, e.coarse), hists := a.bands.mapIdx fun b e => (b, e.hist) }
    s.modItem n a.item fun it => { it with share := a.share, share2 := a.share2, bands := it.bands.mapIdx fun b y =>
      (match a.bands[b]? with
       | some e => { y with cost := e.cost, act := e.act }
       | none => y) }
  (s.modChan n fun c => { c with
    await := none, decided := j, rc := x.rc, lastRefresh := x.lastRefresh, lastIrap := x.lastIrap, sweepFrom := x.sweepFrom,
    hold := c.hold <|> (x.hold.map fun h => (h.1, h.2 + taken.length)), lastAccepted := c.lastAccepted <|> x.last, run := c.run <|> x.run,
    given := x.analysis, items := c.items.map fun it => { it with kept := held it } }).settleChan n

/-- A band of the catch-up stream stands with its item, which stream assembly takes from there (R371, R372). -/
def State.catchBand (s : State) (n : Nat) (dr : DecisionRecord) (rh : Nat) (starts : Bool) (refs : List Nat) (b : Nat)
    (bytes : List Byte) (crcs : List Nat) : State :=
  let k := dr.index
  let fresh : Item := { s.blankItem n k dr with
    controlFixed := true, inputFixed := true, rh := rh, refresh := some (if starts then .gdr else .none), refs := refs }
  let s := if (s.chan n).caught.any fun it => it.idx == k then s else s.modChan n fun c => { c with caught := c.caught ++ [fresh] }
  let put := fun (it : Item) => { it with bands := it.bands.modify b fun x => { x with done := 8 } }
  (s.modChan n fun c => { c with caught := c.caught.map fun it => (if it.idx = k then put it else it) }).modPic n k fun p =>
    { p with bytes := assocSet p.bytes b bytes, crcs := assocSet p.crcs b crcs }

/-- The decoded item is a reference in the channel's pool, and the items it pushes out are none any more (R223, R226, R371). -/
def State.placeDecoded (s : State) (n k : Nat) : State :=
  let gone := fun (b : Buf) => decide (b.mark = .refShort) && b.items.all fun j => decide (j + 1 < k)
  let s := s.modChan n fun c => { c with pool := c.pool.map fun b => (if gone b then { b with mark := .outputHold } else b) }
  ((s.releaseBuffers n).takeRecon n k []).reMark n k .recon [.coding] .refShort

/-- Item `k` of the catch-up stream, decoded once every band of it has arrived, band by band; none where a CTU differs from the
holder's (R371). DESIGN CHOICE (log 53): the decoder is through with an item at the arrival of its last band. -/
def State.decodeCaught (s : State) (n k : Nat) : Option (List (Nat × Pic)) :=
  let p := s.picOf n k
  let refs := (((s.chan n).caught.find? fun it => it.idx == k).map (·.refs)).getD []
  let out := Config.decodePicture ⟨s.hevc n, s.chroma n, s.chW n, s.chH n,
    (List.range (s.bands n)).map (assocGet [] p.bytes), refs.map (s.finalPic n)⟩
  let same := (List.range (s.bands n)).all fun b => s.crcsOf n b (out.getD b []) == assocGet [] p.crcs b
  if same then some ((List.range (s.bands n)).map fun b => (b, out.getD b [])) else none

/-- The decoder of the joining unit has completed item `k`: the join item may be named, or its stage 2 go on (R371). -/
def State.caughtUp (s : State) (n k : Nat) : State :=
  match (s.chan n).snap with
  | .catching => s.nameJoin n k
  | .joining _ | .joined => match (s.chan n).catchTo with
    | none => s
    | some (_, j) => (s.modChan n fun c => { c with catchTo := some (k, j) }).settleChan n
  | _ => s

/-- R371: contents of a snapshot on the joining unit. -/
def State.snapRx (s : State) (n : Nat) (x : SnapBody) : State :=
  match x with
  | .references _ hold refs =>
    s.when (decide ((s.chan n).snap = Snap.requested true)) fun s =>
      s.modChan n fun c => { c with copied := refs, hold := hold.map fun h => (h, 0) }
  | .catchUp dr rh starts refs b bytes crcs =>
    let k := dr.index
    if !(s.chan n).joinOpen || (s.item? n k).isSome then s
    else
      let s := s.catchBand n dr rh starts refs b bytes crcs
      if decide (((s.picOf n k).bytes).length < s.bands n) then s
      else match s.decodeCaught n k with
        | none => (s.snapEvent n 4).requestSnapshot n
        | some l =>
          let s := s.modPic n k fun p => { p with first := l, final := l }
          let s := s.when (s.split n) fun s => (s.keepHalo n k 0).keepHalo n k 1
          let qp := s.readMeanQp n k
          ((s.modItem n (k + 1) fun it => { it with prevQp := qp }).placeDecoded n k).caughtUp n k
  | .joinState j x => s.when (decide ((s.chan n).await = some j)) fun s => s.takeJoin n j x
  | .mux flow formed jump psi base cc progs => s.muxState flow formed jump psi base cc progs

def execSnapshotFrameRx (dt : Nat) (h : LHeader) (n : Fin 96) (x : SnapBody) (s : State) :
    Host.Outcome State Fault Refusal :=
  done ((s.elapse dt).lanternRx h 11 fun s => s.when s.isStandby fun s => (s.snapRx n x).pumpTakes)

/-- R372: once every channel of a flow has named its join item, the holder names the next datagram and sends the mux state
before it. -/
def State.flowJoin (s : State) (i : Nat) : State :=
  let progs := s.progsOf i
  let named := progs.filter fun n => match (s.chan n).snap with | .sent _ => true | _ => false
  let open_ := progs.any fun n => match (s.chan n).snap with | .asked | .sending _ => true | _ => false
  if named = [] ∨ open_ then s
  else
    let f := s.flow i
    s.lanternSend (.snapshot (named.headD 0) (.mux i f.formed f.jump f.psi f.base f.cc (progs.map fun n => (n, (s.chan n).mux))))

/-- R370, R371: a snapshot request reaches the holder; a join item is named: the copy is complete and its pins are
released. -/
def State.joinRx (s : State) (x : JoinBody) : State :=
  match x with
  | .request n =>
    s.when (s.holding && s.running n && decide (2 ≤ lanesOf s.stripe)) fun s =>
      ((s.modChan n Chan.unpinned).modChan n fun c => { c with snap := .asked })
  | .item n j =>
    match (s.chan n).snap with
    | .sending _ =>
      let s := ((s.modChan n fun c => { c with snap := .sent j }).unpin n).flowJoin (s.outFlow n)
      s.when (s.closedFor n j) fun s => s.sendJoin n j
    | _ => s
  | .seconds count =>
    if s.island && !s.twin.island && !s.holding && !s.live then
      let d := (count - s.ptpNow / 1000000000) * 1000000000
      { s.doffStep d with twin := { s.twin with island := true } }
    else s

def execJoinControlRx (dt : Nat) (h : LHeader) (x : JoinBody) (s : State) : Host.Outcome State Fault Refusal :=
  done ((s.elapse dt).lanternRx h 12 fun s => s.joinRx x)

end Sys2Proof.Machine
end

