-- ==== Sys2Proof/Machine/Thermal.lean ====
section
/-! DEFINITION. Thermal control, the wax gauges, core voltage over PMBus and daily planning (R460 to R484, R535). -/

namespace Sys2Proof.Machine

/-! ## Sensors and thermal states (R461 to R464, R466, R467) -/

def throtSet (s : State) : Nat := s.fld Reg.THM_CTRL 23 16
def warnSet (s : State) : Nat := s.fld Reg.THM_CTRL 31 24

/-- A signed 16-bit field in 1/8 °C. -/
def reading (x : Nat) : Int := signedOf 16 (x % 65536)

def State.hottest (s : State) (d : Nat) : Int := reading (s.fld (Reg.THD_STATUS d) 15 0)

/-- One sensor's sample: the mean of its two elements, which lies between two steps where their sum is odd (R461). -/
def State.takeSensor (s : State) (d i : Nat) (e : Int × Int) : State :=
  let a := Reg.THS_READ d i
  let odd := decide ((e.1 + e.2) % 2 ≠ 0)
  let v := (e.1 + e.2) / 2 + (if odd then ((Config.roundUp s.fresh % 2 : Nat) : Int) else 0)
  let s := s.when odd State.freshId
  let bad := decide (24 < (e.1 - e.2).natAbs) || decide (v < -360) || decide (1200 < v)
  let broken := s.bit a 31 || bad
  let s := s.when (bad && !s.bit a 31) fun s => s.raiseT (64 + 64 * d + 20) i
  let shown : Int := if broken then ((throtSet s + 1) * 8 : Nat) else v
  s.wrN a (2147483648 * b2n broken + bitsOf 16 shown)

/-- The hottest of a die's readings and the first sensor that shows it. -/
def State.hotSensor (s : State) (d : Nat) : Int × Nat :=
  (List.range 16).foldl (fun (b : Int × Nat) i =>
    let v := reading (s.fld (Reg.THS_READ d i) 15 0)
    if i = 0 ∨ b.1 < v then (v, i) else b) (0, 0)

/-- The hottest reading of the unit, and its die. -/
def State.unitHot (s : State) : State :=
  let best := ((List.range 8).filter fun d => (s.therm d).seen).foldl (fun (b : Option (Int × Nat)) d =>
    match b with
    | none => some (s.hottest d, d)
    | some x => if x.1 < s.hottest d then some (s.hottest d, d) else some x) none
  match best with
  | none => s
  | some (v, d) => (s.wrN Reg.THM_HOTTEST (bitsOf 16 v)).setFld Reg.THM_STATUS 26 24 d

/-- A level with its set and clear values in 1/8 °C. -/
def levelHeld (v : Int) (set_ clear : Nat) (was : Bool) : Bool :=
  if (8 * set_ : Nat) ≤ v then true else if v < (8 * clear : Nat) then false else was

/-- Nanoseconds in a count of milliseconds. -/
def msNs (n : Nat) : Int := n * 1000000

/-- A die enters the throttle state: its grace time runs from D0, its next step follows after 100 ms otherwise; its voltage
raises wait (R464, R465, R476). -/
def State.enterThrottle (s : State) (d : Nat) : State :=
  let wait := if s.fld Reg.THM_DIM (4 * d + 2) (4 * d) = 0 then s.fld Reg.THM_CTRL 12 0 else 100
  let due := s.now + msNs wait
  let s := (s.raiseT 22 d).bump Reg.THM_THROTTLES
  let s := (s.bump (Reg.THD_THROTTLES d)).modTherm d fun x => { x with riseAt := some due }
  s.modAvs d fun x => { x with
    deferred := x.deferred || x.raiseTo.isSome, raiseTo := none, heldOnce := x.heldOnce || x.once, once := false }

/-- The die's thermal state after a sample (R463). -/
def State.judgeDie (s : State) (d : Nat) : State :=
  let t := s.therm d
  let v := s.hottest d
  let old := thermState t
  let broken := s.fld (Reg.THD_STATUS d) 20 16
  let shut := decide (2 ≤ broken) || levelHeld v 118 100 t.shut
  let t' : Therm := { t with
    warn := levelHeld v (warnSet s) (warnSet s - 5) t.warn, throt := levelHeld v (throtSet s) (throtSet s - 5) t.throt,
    shut := shut, sensor := (s.hotSensor d).2 }
  let new := thermState t'
  let now := s.now
  let below := if (8 * (throtSet s - 5) : Nat) ≤ v then none else some (t.below.getD now)
  let s := s.modTherm d fun _ => { t' with riseAt := (if new = 2 then t.riseAt else none), below := below }
  if new = old then s
  else
    let s := (s.setFld (Reg.THD_STATUS d) 23 22 new).raiseT (64 + 64 * d + 19) (new + 256 * t'.sensor)
    let s := (s.setBit Reg.THM_STATUS (16 + d) (decide (new = 2))).setBit Reg.THM_STATUS (8 + d) (decide (1 ≤ new))
    let s := (s.when (decide (new = 2)) fun s => s.enterThrottle d).throtPin
    s.when (decide (new = 3)) fun s => s.retire d 8

/-- The reading that compensates the elements sensor `i` serves, in 1/16 °C: its own, or the median of the die's working
sensors where it is broken (R469); none where no sensor works. -/
def State.servingReading (s : State) (d i : Nat) : Option Int :=
  let works := fun (j : Nat) => !s.bit (Reg.THS_READ d j) 31
  let val := fun (j : Nat) => reading (s.fld (Reg.THS_READ d j) 15 0)
  if works i then some (2 * val i)
  else
    let insert := fun (x : Int) (l : List Int) => l.takeWhile (fun y => decide (y < x)) ++ x :: l.dropWhile fun y => decide (y < x)
    let l := (((List.range 16).filter works).map val).foldr insert []
    if l.isEmpty then none else some (l.getD ((l.length - 1) / 2) 0 + l.getD (l.length / 2) 0)

/-- The receivers whose references sensor `i` of die `d` serves (R460, R469). DEDUCED (log 53): the MGMT lane lies with the
Lantern lane and the control cores. -/
def servedRecvs (d i : Nat) : List Nat :=
  if i = 12 then (List.range 8).map (laneId d)
  else if i = 13 then [laneId d 8, laneId d 9].filter recvExists
  else if i = 10 then (List.range 4).map (memId d)
  else if i = 11 then (List.range 4).map fun k => memId d (4 + k)
  else []

/-- R469: temperature compensation of what a die's sensors serve. -/
def State.compensate (s : State) (d : Nat) : State :=
  let corr := fun (s : State) (i : Nat) => (s.servingReading d i).map (Config.compensate d i)
  let keep := s.therm d
  let s := s.modTherm d fun x => { x with
    pilot := (corr s 14).getD keep.pilot, bandgap := (corr s 15).getD keep.bandgap }
  s.each [10, 11, 12, 13] fun i s => match corr s i with
    | none => s
    | some v => s.each (servedRecvs d i) fun r s => s.stageRef r v

/-- R462: a die samples its 16 sensors, two elements each, in 1/8 °C. -/
def execSensorSample (dt : Nat) (d : Fin 8) (elems : List (Int × Int)) (s : State) : Host.Outcome State Fault Refusal :=
  let s := s.elapse dt
  if elems.length ≠ 16 then done s
  else
    let s := (s.each (List.range 16) fun i s => s.takeSensor d i (elems.getD i (0, 0))).compensate d
    let v := (s.hotSensor d).1
    let broken := ((List.range 16).filter fun i => s.bit (Reg.THS_READ d i) 31).length
    let fast := (List.range 16).any fun i => decide (((throtSet s - 4) * 8 : Nat) ≤ reading (s.fld (Reg.THS_READ d i) 15 0))
    let s := (s.setFld (Reg.THD_STATUS d) 15 0 (bitsOf 16 v)).setFld (Reg.THD_STATUS d) 20 16 broken
    let s := s.setBit (Reg.THD_STATUS d) 30 fast
    let t := s.therm d
    let top := fun (a : Nat) (had : Bool) (s : State) =>
      s.setFld a 15 0 (bitsOf 16 (if had then max v (reading (s.fld a 15 0)) else v))
    let s := top (Reg.THD_MAX_DAY d) t.today (top (Reg.THD_MAX d) t.seen s)
    let s := s.modTherm d fun x => { x with seen := true, today := true }
    done (s.unitHot.judgeDie d).pumpTakes.afterRaises

/-! ## Thermal dim levels (R465) -/

/-- The thermal dim level of a die changes. -/
def State.setDim (s : State) (d v : Nat) : State :=
  let was := s.thermDim d
  let now := s.now
  let s := s.noteUndo (.reg Reg.THM_DIM (s.rd Reg.THM_DIM))
  let s := (s.setFld Reg.THM_DIM (4 * d + 2) (4 * d) v).setFld (Reg.THD_STATUS d) 26 24 v
  let s := s.modTherm d fun x =>
    (if was = 0 ∧ v ≠ 0 then { x with dimFrom := some now }
     else if v = 0 then { x with dimFrom := none, dimNs := x.dimNs + ((x.dimFrom.map fun f => (now - f).toNat).getD 0) }
     else x)
  (((s.bump Reg.THM_DIM_STEPS).throtPin).showEff).reportDims

/-- An instant has come. -/
def State.reached (s : State) (t : Option Int) : Bool := match t with
  | none => false
  | some x => decide (x ≤ s.now)

/-- A rise of the thermal dim level is due: in the throttle state, its grace time or its 100 ms over (R465). -/
def State.riseDue (s : State) (d : Nat) : Bool := s.throttled d && s.reached (s.therm d).riseAt

/-- One step up; the next follows 100 ms after this one was due. -/
def State.riseDim (s : State) (d : Nat) : State :=
  (s.modTherm d fun x => { x with riseAt := x.riseAt.map (· + msNs 100) }).setDim d (s.thermDim d + 1)

/-- A fall of the thermal dim level is due: below the clear level for 2 s more (R465). -/
def State.fallDue (s : State) (d : Nat) : Bool := s.reached ((s.therm d).below.map (· + msNs 2000))

/-- R465: the grace time ends in the throttle state. -/
def execThermalGraceExpiry (dt : Nat) (d : Fin 8) (s : State) : Host.Outcome State Fault Refusal :=
  let s := s.elapse dt
  if s.riseDue d && decide (s.thermDim d = 0) then done (s.riseDim d) else done s

/-- R465: 100 ms more in the throttle state. -/
def execDimStepTimer (dt : Nat) (d : Fin 8) (s : State) : Host.Outcome State Fault Refusal :=
  let s := s.elapse dt
  let v := s.thermDim d
  if s.riseDue d && decide (1 ≤ v) && decide (v < 4) then done (s.riseDim d) else done s

/-- R465: 2 s more below the throttle clear level. -/
def execDimRecoveryTimer (dt : Nat) (d : Fin 8) (s : State) : Host.Outcome State Fault Refusal :=
  let s := s.elapse dt
  let v := s.thermDim d
  if s.fallDue d && decide (1 ≤ v) then
    done ((s.modTherm d fun x => { x with below := x.below.map (· + msNs 2000) }).setDim d (v - 1))
  else done s

/-! ## PMBus (R473, R474, R535) -/

/-- The AVS event (R484). -/
def State.avsEvent (s : State) (d code word : Nat) : State := s.raiseT (64 + 64 * d + 21) (code + 65536 * (word % 65536))

/-- NO_AVS in step (R473, R474). -/
def State.showAvs (s : State) (d : Nat) : State :=
  s.setBit (Reg.THD_STATUS d) 29 ((s.avs d).lost || (s.avs d).stopped)

/-- The die has no AVS until the next emergence. -/
def State.avsLost (s : State) (d : Nat) : State := ((s.modAvs d fun x => { x with lost := true }).showAvs d).avsEvent d 3 0

/-- A transfer has succeeded with the value read. READ_VOUT is read again until it confirms a step under way (R474). -/
def State.pmbGood (s : State) (x : PmbXfer) (value : Nat) : State :=
  let d := x.die
  match x.why with
  | .mode =>
    if value / 32 % 8 ≠ 0 then s.avsLost d
    else
      let v := s.avsStart d
      s.when (decide (v ≠ 0)) fun s => (s.wrN (Reg.AVS_VOUT d) (v % 65536)).pmbAsk d .setpoint v
  | .setpoint =>
    let now := s.now
    (s.modAvs d fun y => { y with step := y.step.map fun e => (e.1, some now) }).pmbAsk d .vout 0
  | .back => s
  | .off => s
  | .vout =>
    let s := s.setFld (Reg.AVS_READ d) 15 0 value
    let near := decide (((value : Int) - s.rdN (Reg.AVS_VOUT d)).natAbs ≤ 5)
    let now := s.now
    match (s.avs d).step with
    | some (_, some _) =>
      if near then s.modAvs d fun y => { y with step := none, confirmed := some now }
      else if s.plant.pmb.any fun y => decide (y.die = d ∧ y.why = .vout) then s
      else s.pmbAsk d .vout 0
    | _ => s
  | .iout => s.setFld (Reg.AVS_READ d) 31 16 value
  | .temp => s.setFld (Reg.AVS_TEMP d) 15 0 value
  | .status => s.setFld (Reg.AVS_STATUS d) 15 0 value
  | .alert => (s.setFld (Reg.AVS_STATUS d) 15 0 value).avsEvent d 2 value

/-- A transfer has failed: three retries, then it is given up. A regulator that does not answer at E4 leaves its die without AVS
and its own output in force; a step whose write failed is left to its 1 ms (R473, R474). -/
def State.pmbBad (s : State) (x : PmbXfer) (rest : List PmbXfer) : State :=
  if x.tries < 3 then { s with plant := { s.plant with pmb := { x with tries := x.tries + 1 } :: rest } }
  else
    let s := { s with plant := { s.plant with pmb := rest } }
    let s := s.bump (Reg.AVS_PMB_ERR x.die)
    let now := s.now
    match x.why with
    | .mode => s.avsLost x.die
    | .setpoint =>
      if s.phase = 4 then (s.wrN (Reg.AVS_VOUT x.die) 0).avsLost x.die
      else s.modAvs x.die fun y => { y with step := y.step.map fun e => (e.1, some now) }
    | _ => s

/-- R473: PMB_ALERT_N falls: STATUS_WORD of every regulator is read. -/
def execPmbAlert (dt : Nat) (s : State) : Host.Outcome State Fault Refusal :=
  let s := s.elapse dt
  if s.chrysalis then done s
  else done (s.each (List.range 8) fun d s => s.pmbAsk d .alert 0)

/-- R473: every 100 ms the READ commands of each regulator. -/
def execPmbusPoll (dt : Nat) (s : State) : Host.Outcome State Fault Refusal :=
  let s := s.elapse dt
  if s.chrysalis then done s
  else done (s.each (List.range 8) fun d s =>
    ((s.pmbAsk d .vout 0).pmbAsk d .iout 0).pmbAsk d .temp 0)

/-- R473: the transfer under way ends, acknowledged with its PEC good or not, with the value read in the unit of its register;
the next one starts. -/
def execPmbusTransferDone (dt : Nat) (ok : Bool) (value : Nat) (s : State) : Host.Outcome State Fault Refusal :=
  let s := s.elapse dt
  match s.plant.pmb with
  | [] => done s
  | x :: rest =>
    if ok then
      let s := { s with plant := { s.plant with pmb := rest } }
      let asked := rest.isEmpty
      let s := s.pmbGood x value
      done (if asked then s.afterRaises else s.pmbStart.afterRaises)
    else done (s.pmbBad x rest).pmbStart.afterRaises

/-- R535: a line held low for 25 ms: nine clocks and a STOP, and the transfer has failed. -/
def execPmbusStuck (dt : Nat) (s : State) : Host.Outcome State Fault Refusal :=
  let s := s.elapse dt
  match s.plant.pmb with
  | [] => done s
  | x :: rest => done (s.pmbBad x rest).pmbStart.afterRaises

/-! ## Operating time and ageing records (R476 to R479) -/

/-- Nanoseconds of LIVE time since this emergence (R476). -/
def State.liveNs (s : State) : Nat := match s.plant.liveFrom with
  | none => 0
  | some t => (s.now - t).toNat

/-- CAP_HOURS, and CAP_NEXT_PLAN in minutes. -/
def State.opHours (s : State) : Nat := s.plant.baseHours + s.liveNs / 3600000000000
def State.nextPlan (s : State) : Nat :=
  let m := s.plant.baseHours * 60 + s.liveNs / 60000000000
  1440 - m % 1440

/-- Planning temperature in °C (R470). -/
def State.tPlan (s : State) : Nat := min (throtSet s) 105

def State.avsMargin (s : State) : Nat := s.fld Reg.CAP_AVS_CFG 7 0
def State.siMin (s : State) (d : Nat) : Nat := s.fld (Reg.CAP_DIE d) 15 0

/-- SI_NEED of a die (R476). -/
def State.siNeed (s : State) (d : Nat) : Nat :=
  if !s.bit Reg.CAP_CTRL 0 then 1000
  else
    let u := (List.range 8).foldl (fun a c => max a (s.rdN (Reg.CL_USE d c))) 0
    ceilDiv (1000 * 1000 * u) (64000 * (1000 - s.margin))

/-- The points of the fit: hours and SI_TOP of the ageing records of the last 90 days of operating time. -/
def State.fitPoints (s : State) (d : Nat) : List (Int × Int) :=
  (s.logPages.filter fun x => x.2.2 == 2).filterMap fun x =>
    let b := (s.page x.2.1).drop 16
    let h := leNat (b.take 4)
    if s.opHours < h + 2160 then some ((h : Int), ((leNat ((b.drop (8 + 16 * d + 4)).take 2) : Nat) : Int)) else none

def sumInt {α : Type} (l : List α) (f : α → Int) : Int := l.foldl (fun a x => a + f x) 0

/-- Days to shortfall by the least-squares line (R478): with `n` points, `dx` the denominator and `sl` the numerator of the
slope per hour, the fit now is (Σy dx + sl (n t − Σx)) ÷ (n dx). -/
def fitDays (l : List (Int × Int)) (t need : Int) : Nat :=
  let n : Int := l.length
  let sx := sumInt l (·.1)
  let sy := sumInt l (·.2)
  let dx := n * sumInt l (fun p => p.1 * p.1) - sx * sx
  let sl := n * sumInt l (fun p => p.1 * p.2) - sx * sy
  if l.length < 14 then 65535
  else if dx ≤ 0 then Config.daysOpen
  else if 0 ≤ sl then 65535
  else
    let gap := sy * dx + sl * (n * t - sx) - need * (n * dx)
    if gap < 0 then 0 else (gap / (n * (-sl) * 24)).toNat

/-- The ageing record (R479). -/
def State.ageingBytes (s : State) : List Byte :=
  let head := leBytes 4 s.opHours ++ [BitVec.ofNat 8 (s.fld Reg.CAP_CTRL 0 0), BitVec.ofNat 8 s.tPlan, 0, 0]
  let entry := fun (d : Nat) =>
    let v := s.vcore d
    let flags := b2n (!s.dieOk d) + 2 * b2n (decide (s.avsMax ≤ v)) + 4 * b2n (s.bit Reg.CAP_ADVISORY d) +
      8 * b2n (s.bit (Reg.THD_STATUS d) 29)
    let x := s.therm d
    let ns := x.dimNs + ((x.dimFrom.map fun f => (s.now - f).toNat).getD 0)
    leBytes 2 v ++ leBytes 2 (s.siMin d) ++ leBytes 2 (Config.siAt d (s.siMin d) v s.avsMax) ++
    [BitVec.ofInt 8 (Config.degrees (reading (s.fld (Reg.THD_MAX_DAY d) 15 0))), BitVec.ofNat 8 flags] ++
    leBytes 2 (s.avs d).need ++ leBytes 2 (min 65535 (s.avs d).days) ++ leBytes 2 (min 65535 (ns / 10000000000)) ++ [0, 0]
  head ++ (List.range 8).flatMap entry

/-! ## Voltage steps and daily planning (R474 to R477) -/

/-- What planning does at a die now: the stage it waits in, or none when the die is done with (R476). -/
def State.planAt (s : State) (d : Nat) (st : PlanStage) : State × Option PlanStage :=
  let goal := (s.avs d).need + s.avsMargin
  match st with
  | .raising made =>
    if s.siMin d < goal ∧ s.canStep d true then
      (if s.throttled d then (s.modAvs d fun x => { x with deferred := true }, none) else (s, some (.raising made)))
    else if !made && decide (goal + 20 ≤ s.siMin d) && s.canStep d false then (s, some .lowering)
    else (s, none)
  | .lowering => (s, some .lowering)
  | .lowered => if s.siMin d < goal ∧ s.canStep d true then (s, some .restoring) else (s, none)
  | .restoring => (s, some .restoring)

/-- Days to shortfall and the advisory of one die (R477, R478). -/
def State.planDie (s : State) (d : Nat) : State :=
  let days := min 65535 (fitDays (s.fitPoints d) s.opHours (s.avs d).need)
  let short := decide (s.avsMax ≤ s.vcore d) && decide (s.siMin d < (s.avs d).need + s.avsMargin)
  let s := (s.modAvs d fun x => { x with days := days }).setFld (Reg.CAP_DIE d) 31 16 days
  (s.setBit Reg.CAP_ADVISORY d short).when short fun s => s.raiseT 23 (d + 65536 * days)

/-- The day's highest reading and dim time of one die start again (R479). -/
def State.dayDone (s : State) (d : Nat) : State :=
  let now := s.now
  s.modTherm d fun x => { x with today := false, dimNs := 0, dimFrom := x.dimFrom.map fun _ => now }

/-- The limits a daily planning leaves in force, and a new plan where they differ (R477). -/
def State.dayLimits (s : State) : State :=
  let before := (List.range 8).map s.lim
  let after := (List.range 8).map s.setLims.lim
  s.when (s.bit Reg.CAP_CTRL 0 && before != after) fun s => s.setLims.replan [] 8 false

/-- The end of a daily planning: days to shortfall, advisories, the ageing record, limits (R476 to R479). -/
def State.endPlanning (s : State) : State :=
  let s := { s with plant := { s.plant with daily := none } }
  let s := s.each ((List.range 8).filter s.dieOk) fun d s => s.planDie d
  let s := s.ageingRecord s.ageingBytes
  (s.each (List.range 8) fun d s => s.dayDone d).dayLimits

/-- Go on with the planning from die `d`, in die order. -/
def State.planFrom : Nat → Nat → PlanStage → State → State
  | 0, _, _, s => s.endPlanning
  | fuel + 1, d, st, s =>
    if 8 ≤ d then s.endPlanning
    else
      let (s, wait) := if s.dieOk d then s.planAt d st else (s, none)
      match wait with
      | some st => { s with plant := { s.plant with daily := some (d, st) } }
      | none => State.planFrom fuel (d + 1) (.raising false) s

/-- R476: each whole 24 h of operating time. Dies that stopped stepping may step again. -/
def execDailyPlanning (dt : Nat) (s : State) : Host.Outcome State Fault Refusal :=
  let s := s.elapse dt
  let day := s.opHours / 24
  if !s.live || s.plant.daily.isSome || decide (day ≤ s.plant.plannedDays) then done s
  else
    let s := { s with plant := { s.plant with plannedDays := day } }
    let s := s.each (List.range 8) fun d s =>
      let need := s.siNeed d
      (s.modAvs d fun x => { x with stopped := false, need := need }).showAvs d
    done (State.planFrom 9 0 (.raising false) s)

/-- The direction of the step that die `d` is due, and the planning stage after it. -/
def State.stepDue (s : State) (d : Nat) : Option (Bool × Option PlanStage) :=
  let x := s.avs d
  match s.plant.daily with
  | some (e, st) =>
    if e = d then
      (match st with
       | .raising made => if made && !x.measured then none else some (true, some (.raising true))
       | .lowering => some (false, some .lowered)
       | .lowered => none
       | .restoring => some (true, none))
    else if x.once && !s.throttled d then some (true, none) else none
  | none =>
    if s.throttled d then none
    else if x.once then some (true, none)
    else match x.raiseTo with
      | some g => if x.measured && decide (s.siMin d < g) then some (true, none) else none
      | none => none

/-- 1 ms has passed since the confirmation of the step before (R474). -/
def State.stepSpaced (s : State) (d : Nat) : Bool := match (s.avs d).confirmed with
  | none => true
  | some t => decide (t + 1000000 ≤ s.now)

/-- R474: one step of 5 mV. -/
def execVoutStep (dt : Nat) (d : Fin 8) (s : State) : Host.Outcome State Fault Refusal :=
  let s := s.elapse dt
  match s.stepDue d with
  | none => done s
  | some (up, next) =>
    if (s.avs d).step.isSome || !s.canStep d up || !s.stepSpaced d then done s
    else if up && s.throttled d then
      let s := s.modAvs d fun x => { x with deferred := true }
      match s.plant.daily with
      | some (e, _) => if e = d.val then done (State.planFrom 9 (d.val + 1) (.raising false) s) else done s
      | none => done s
    else
      let old := s.vcore d
      let new := if up then old + 5 else old - 5
      let s := s.modAvs d fun x => { x with step := some (old, none), once := false, measured := false }
      let s := ((s.wrN (Reg.AVS_VOUT d) new).bump (Reg.AVS_STEPS d)).pmbAsk d .setpoint new
      match s.plant.daily, next with
      | some (e, st), some n => done { s with plant := { s.plant with daily := some (e, if e = d.val then n else st) } }
      | some (e, _), none => if e = d.val then done (State.planFrom 9 (d.val + 1) (.raising false) s) else done s
      | none, _ => done s

/-- R474: READ_VOUT has not confirmed the step 1 ms after its write: the old value is written back, and steps stop. -/
def execVoutConfirmTimeout (dt : Nat) (d : Fin 8) (s : State) : Host.Outcome State Fault Refusal :=
  let s := s.elapse dt
  match (s.avs d).step with
  | none => done s
  | some (_, none) => done s
  | some (old, some t) =>
    if s.now < t + 1000000 then done s else
    let s := s.modAvs d fun x => { x with step := none, stopped := true, raiseTo := none, once := false }
    let s := (((s.wrN (Reg.AVS_VOUT d) old).pmbAsk d .back old).showAvs d).avsEvent d 1 0
    match s.plant.daily with
    | some (e, _) => if e = d.val then done (State.planFrom 9 (d.val + 1) (.raising false) s) else done s
    | none => done s.afterRaises

/-! ## Wax gauges (R470 to R472) -/

/-- The middle one of three values. -/
def median3 (a b c : Nat) : Nat := max (min a b) (min (max a b) c)

/-- SI_NOW of a gauge from its cycles in 1 ms (R470); a fused frequency is not 0. -/
def siNow (d g n : Nat) : Nat := 1000 * (1000 * n) / max 1 (Config.gaugeRef d g)

/-- SI_PLAN: the temperature term in 1/8 °C; the spec gives no rounding of it. -/
def State.siPlan (s : State) (d g now : Nat) : Nat :=
  let tc := reading (s.fld (Reg.THS_READ d (g / 4)) 15 0)
  let x := 8 * (now : Int) + Config.gaugeTc d g * (8 * (s.tPlan : Int) - tc)
  (x / 8 + (if x % 8 = 0 then 0 else ((Config.roundUp s.fresh % 2 : Nat) : Int))).toNat

/-- The measurement of one cluster (R471). -/
def State.measureCluster (s : State) (d c : Nat) (counts : List Nat) : State :=
  let now := (List.range 4).map fun i => siNow d (4 * c + i) (counts.getD (4 * c + i) 0)
  let at_ := fun (i : Nat) => now.getD (i % 4) 0
  let s := s.each (List.range 4) fun i s =>
    let g := 4 * c + i
    let m := median3 (at_ (i + 1)) (at_ (i + 2)) (at_ (i + 3))
    let bad := decide (counts.getD g 0 = 0) || decide (100 < ((at_ i : Int) - m).natAbs)
    let was := s.bit (Reg.WAX_G d g) 31
    let s := s.when (bad && !was) fun s => s.raiseT (64 + 64 * d + 20) (256 + g)
    s.wrN (Reg.WAX_G d g) (2147483648 * b2n (bad || was) + s.siPlan d g (at_ i) % 65536)
  let ok := (List.range 4).filter fun i => !s.bit (Reg.WAX_G d (4 * c + i)) 31
  let least := fun (l : List Nat) => l.min?.getD 0
  let si := if ok.length ≤ 2 then 1000 else least (ok.map fun i => s.fld (Reg.WAX_G d (4 * c + i)) 15 0)
  s.wrN (Reg.WAX_C d c) (65536 * (si % 65536) + least (ok.map at_) % 65536)

/-- What a measurement of a die does to its voltage (R475, R476). -/
def State.measuredAvs (s : State) (d : Nat) : State :=
  let goal := (s.avs d).need + s.avsMargin
  let still := (s.avs d).step.isNone
  let s := s.modAvs d fun x => { x with measured := x.measured || still }
  let s := s.when ((s.avs d).deferred && !s.throttled d) fun s =>
    s.modAvs d fun x => { x with deferred := false, raiseTo := some goal }
  let s := s.when ((s.avs d).heldOnce && !s.throttled d) fun s =>
    s.modAvs d fun x => { x with heldOnce := false, once := true }
  let met := match (s.avs d).raiseTo with
    | none => false
    | some g => decide (g ≤ s.siMin d) || !s.canStep d true
  let s := s.when met fun s => s.modAvs d fun x => { x with raiseTo := none }
  match s.plant.daily with
  | some (e, st) =>
    if e = d ∧ still ∧ st ≠ .lowering ∧ st ≠ .restoring then State.planFrom 9 d st s else s
  | none =>
    if s.live && decide (s.siMin d < (s.avs d).need) && s.canStep d true then
      (if s.throttled d then s.modAvs d fun x => { x with heldOnce := true } else s.modAvs d fun x => { x with once := true })
    else s

/-- R470: a die measures its 32 gauges over 1 ms; a lower capacity lowers its lim at once in measured mode (R472). -/
def execWaxMeasurement (dt : Nat) (d : Fin 8) (counts : List Nat) (s : State) : Host.Outcome State Fault Refusal :=
  let s := s.elapse dt
  if s.phase < 5 ∨ s.halted ∨ counts.length ≠ 32 then done s
  else
    let s := (s.each (List.range 8) fun c s => s.measureCluster d c counts).freshId
    let good := (List.range 8).filter (s.clusterOk d)
    let least := ((if good = [] then List.range 8 else good).map fun c => s.fld (Reg.WAX_C d c) 31 16).min?.getD 0
    let s := s.setFld (Reg.CAP_DIE d) 15 0 least
    let lower := s.cap.admitted && s.bit Reg.CAP_CTRL 0 && decide (s.limFor d < s.lim d)
    let s := s.when lower fun s => ((s.wrN (Reg.CAP_LIM_D d) (s.limFor d)).redim.showAll).reportDims
    done (s.measuredAvs d).afterRaises

end Sys2Proof.Machine
end

