-- ==== Sys2Proof/Machine/Bus.lean ====
section
/-! DEFINITION. Reads and writes on the control fabric: what each register shows, the pairs of R10, and what a write does
beyond setting its fields (R9 to R13, R64, R65, R97, R98, R204, R513 to R515). -/

namespace Sys2Proof.Machine

/-! ## Registers computed when they are read -/

/-- Buffers of a channel by mark (R234). -/
def State.marked (s : State) (n : Nat) (m : Mark) : Nat := ((s.chan n).pool.filter fun b => b.mark == m).length

def bytesWord (a b c d : Nat) : Nat := a % 256 * 16777216 + b % 256 * 65536 + c % 256 * 256 + d % 256

/-- A word of a byte list, little-endian. -/
def wordAt (l : List Byte) (i : Nat) : Nat := leNat ((l.drop (4 * i)).take 4)

/-- Registers of channel context `n` at offset `o` (R78, R234, R275, R301). -/
def State.shownChan (s : State) (n o a : Nat) : Nat :=
  if 0x0DC ≤ o ∧ o < 0x0FC ∧ s.chKind n ≠ 1 then 0
  else if o = 0x180 then s.burstRate n
  else if o = 0x184 then s.minDelay n
  else if o = 0x220 then bytesWord (s.marked n .free) (s.marked n .input) (s.marked n .lookahead) (s.marked n .coding)
  else if o = 0x224 then
    bytesWord (s.marked n .refShort) (s.marked n .refLong) (s.marked n .outputHold) (s.marked n .snapshot)
  else if o = 0x22C then (s.sch.descs.filter fun d => d.chan == n).length
  else if 0x420 ≤ o ∧ o < 0x440 then wordAt ((s.chan n).records.getD (s.fld (Reg.CHN_FR_SEL n) 5 0) []) ((o - 0x420) / 4)
  else s.rdN a

/-- Traffic manager of port `p` (R318). Out of service: MODE 0, or a sub-port of the mode not UP. -/
def State.portOut (s : State) (p : Nat) : Bool :=
  let m := s.fld (Reg.NP_CTRL p) 1 0
  decide (m = 0) || (List.range (if m = 1 then 1 else if m = 2 then 2 else 4)).any fun q => !s.subUp p q

def State.shownTmg (s : State) (p o a : Nat) : Nat :=
  if o = 4 then
    2147483648 * b2n (s.twin.gatesOpen && !s.snuffed) + 1073741824 * b2n (s.portOut p) + 65536 * (if s.chrysalis then 0 else s.gatesNow p) +
      (if s.gated p then (s.gate p).entry else 0)
  else if o = 0x24 then s.gclShadow p
  else if o = 0x28 then (((s.gate p).oper.entries[s.gclIndex p]?).map fun e => e.1 * 16777216 + e.2).getD 0
  else if o = 0x34 then s.bufFree p
  else if o = 0x38 then s.egr.low.getD p 32768
  else s.rdN a

/-- Registers that show the buffer AUD_BUF_SEL names (R156). -/
def State.shownBuf (s : State) (a : Nat) : Nat :=
  let b := s.fld Reg.AUD_BUF_SEL 9 0
  let x := s.abuf b
  if a = Reg.AUD_BUF_WRITER then s.bufWriter b
  else if a = Reg.AUD_BUF_FILL then (x.rds.foldl (fun m r => max m (x.wr - r.idx)) 0) % 16384
  else if a = Reg.AUD_BUF_UNDER then x.under % 4294967296
  else if a = Reg.AUD_BUF_OVER then x.overs % 4294967296
  else (x.stamp % 4294967296).toNat

/-- Device time registers (R320, R322, R340). -/
def State.shownTime (s : State) (o a : Nat) : Nat :=
  if o = 0x00 then s.ns % 4294967296
  else if o = 0x04 then s.ns / 4294967296 % 4294967296
  else if o = 0x08 then s.clk.dtc % 4294967296
  else if o = 0x10 then s.clk.inc % 4294967296
  else if o = 0x14 then s.clk.inc / 4294967296 % 256
  else if o = 0x18 then bitsOf 32 s.clk.doff
  else if o = 0x1C then bitsOf 32 (s.clk.doff / 4294967296)
  else s.rdN a

/-- Seconds of hold-off left (R369, R380). -/
def State.holdoffLeft (s : State) : Nat :=
  match s.twin.holdoffFrom with
  | none => 0
  | some t => s.fld Reg.TWN_HOLDOFF 11 0 - ((s.now - t) / 1000000000).toNat

/-- Word `i` of the calibration window at an address: the receiver and `i` (R456, R457). -/
def calWordAt (a : Nat) : Option (Nat × Nat) :=
  if a < 0x01000000 ∨ 0x03000000 ≤ a then none
  else
    let d := (a - 0x01000000) / 0x400000
    let o := (a - 0x01000000) % 0x400000
    if 0x50000 ≤ o ∧ o < 0x50A00 ∧ 0x40 ≤ o % 0x100 ∧ o % 0x100 ≤ 0x54 then
      some (laneId d ((o - 0x50000) / 0x100), (o % 0x100 - 0x40) / 4)
    else if 0x20000 ≤ o ∧ o < 0x40000 ∧ 0x300 ≤ o % 0x10000 ∧ o % 0x10000 < 0x400 ∧ o % 0x40 ≤ 0x28 then
      some (memId d (4 * ((o - 0x20000) / 0x10000) + (o % 0x10000 - 0x300) / 0x40), o % 0x40 / 4)
    else none

/-- Registers of a die that are computed: calibration windows, training words, CRC results. -/
def State.shownDie (s : State) (a : Nat) : Nat :=
  let d := (a - 0x01000000) / 0x400000
  let o := (a - 0x01000000) % 0x400000
  match calWordAt a with
  | some (r, i) => (s.windowNow r).getD i 0
  | none =>
    if 0x20000 ≤ o ∧ o < 0x40000 ∧ ((0x400 ≤ o % 0x10000 ∧ o % 0x10000 < 0x500) ∨
        (0x800 ≤ o % 0x10000 ∧ o % 0x10000 < 0x1000)) then
      if (s.mctl (2 * d + (o - 0x20000) / 0x10000)).phase = .off then 0 else Config.trainingWord s.fresh a % 4294967296
    else if o = 0x70008 then s.links.waits.getD d 0 % 4294967296
    else if 0x60000 ≤ o ∧ o < 0x60800 ∧ o % 0x100 = 0x28 then s.crcResultOf d (o % 0x10000 / 0x100) % 4294967296
    else if 0x60000 ≤ o ∧ o < 0x60800 ∧ o % 0x100 = 0x2C then
      s.crcResultOf d (o % 0x10000 / 0x100) / 4294967296 % 4294967296
    else s.rdN a

/-- What the register at `a` shows now (R503): its stored word, or what the state behind it makes it. -/
def State.shown (s : State) (a : Nat) : Nat :=
  if a < 0x100000 then
    if 0x1100 ≤ a ∧ a < 0x1200 then wordAt s.logWindow ((a - 0x1100) / 4)
    else if a = 0x2014 then s.evtSevMax
    else if a = 0x9040 ∨ a = 0x9060 then s.twinStatus.rdN a
    else if a = 0x9064 then s.holdoffLeft
    else if 0xA000 ≤ a ∧ a < 0xA020 then s.shownTime (a - 0xA000) a
    else if a = 0xC050 then s.tPlan % 256
    else if a = 0xC054 then s.opHours % 4294967296
    else if a = 0xC058 then s.nextPlan
    else if 0x10000 ≤ a ∧ a < 0x14000 ∧ a % 0x400 = 0x80 then
      (let p := (a - 0x10000) / 0x400
       s.fld a 9 8 * 256 + s.audRun p)
    else if a = 0x14004 then s.fld a 11 8 * 256 + s.wcState
    else if 0x14104 ≤ a ∧ a < 0x14118 then s.shownBuf a
    else if 0x40000 ≤ a ∧ a < 0x50000 then s.shownTmg ((a - 0x40000) / 0x2000) (a % 0x2000) a
    else if 0x50000 ≤ a ∧ a < 0x60000 ∧ (a % 0x20 = 0x10 ∨ a % 0x20 = 0x14) then
      bitsOf 32 (s.creditNow ((a - 0x50000) / 0x20) (decide (a % 0x20 = 0x14)) / 256)
    else if 0x60100 ≤ a ∧ a < 0x60300 then
      (let d := (a - 0x60100) / 0x40
       let o := a % 0x40
       if o = 0 then 32768 - s.used d
       else if o = 4 then s.sharedFree d
       else if o = 8 then s.reservedOn d
       else if o = 0xC then s.sch.lowFree.getD d 32768
       else s.rdN a)
    else s.rdN a
  else if a < 0x160000 then s.shownChan ((a - 0x100000) / 0x1000) (a % 0x1000) a
  else if 0x01000000 ≤ a ∧ a < 0x03000000 then s.shownDie a
  else s.rdN a

/-! ## Reads (R9, R10, R458, R489, R514) -/

/-- The die that serves `a` gets the transaction over the die links (R515, R22). -/
def State.posted (s : State) (mdie mid a : Nat) : State := s.issue mdie mid (s.logDie a mdie)

/-- A read of the _LO half at `a` latches _HI for the master, and DTC_NS_LO latches DTC_FRAC too, so that the three form one
sample (R10, R324). -/
def State.latchPair (s : State) (m a : Nat) : State :=
  (s.latchSet m (a + 4) (BitVec.ofNat 32 (s.shown (a + 4)))).when (decide (a = Reg.DTC_NS_LO)) fun t =>
    t.latchSet m Reg.DTC_FRAC (BitVec.ofNat 32 (s.shown Reg.DTC_FRAC))

/-- The whole window of receiver `r` is latched for the master that read its CAL_CTX (R458, R491). -/
def State.latchWindow (s : State) (m r : Nat) : State :=
  s.each (s.windowNow r).zipIdx fun e s => s.latchSet m (calAddr r e.2) (BitVec.ofNat 32 e.1)

/-- A read of CAL_SIG ends its master's latch (R458). -/
def State.endLatch (s : State) (m r : Nat) : State :=
  s.each (List.range (sigIndex r + 1)) fun i s => s.latchDrop m (calAddr r i)

/-- A read of the word at `a` by master `mid` of die `mdie`, in a burst that has begun unless `first`: the value it returns, and
the latches it sets and ends. -/
def State.readWord (s : State) (first : Bool) (mdie mid a : Nat) : State × Nat :=
  if a % 4 ≠ 0 then (s.abortLog (s.logDie a mdie) 1 a mdie mid 0x7F 0 1 0, 0)
  else if !s.decodes a then (s.abortLog (s.logDie a mdie) 2 a mdie mid 0x7F 0 1 0, 0)
  else
    let s := s.when first fun s => s.posted mdie mid a
    let m := masterNo mdie mid
    match regAt a with
    | .reg d =>
      if d.half = 1 then (s.latchPair m a, s.shown a)
      else if d.half = 2 ∨ a = Reg.DTC_FRAC then (s.latchDrop m a, ((s.latchOf m a).map (·.toNat)).getD (s.shown a))
      else match calWordAt a with
        | some (r, i) =>
          let s := s.when (decide (i = 0)) fun s => s.latchWindow m r
          let v := ((s.latchOf m a).map (·.toNat)).getD (s.shown a)
          (s.when (decide (i = sigIndex r)) fun s => s.endLatch m r, v)
        | none => (s, s.shown a)
    | _ => (s, 0)

/-- A read of one word. -/
def State.readBus (s : State) (mdie mid a : Nat) : State × Nat := s.readWord true mdie mid a

/-! ## Writes (R9 to R13, R64, R65, R97) -/

/-- The word that a write leaves, and whether some field was refused, where `ok` must hold of the state after it: the whole
word where that keeps `ok`, otherwise field by field in the table's order, each judged with the fields taken before it. Which
field of a word is discarded when only their combination breaks a condition, R12 does not say. DESIGN CHOICE (log 49). -/
def State.judgeGuarded (s : State) (ok : State → Bool) (a : Nat) (l : List Fld) (v : Word) : Word × Bool :=
  let seen := BitVec.ofNat 32 (s.shown a)
  let whole := s.judgeWrite a l (s.rd a) seen v
  if ok (s.wr a whole.1) then whole
  else l.foldl (fun (acc : Word × Bool) f =>
    let one := s.judgeWrite a [f] acc.1 seen v
    if ok (s.wr a one.1) then (one.1, acc.2 || one.2)
    else (acc.1, acc.2 || decide (fldOf v f.hi f.lo ≠ fldOf seen f.hi f.lo))) (s.rd a, false)

/-- A write judged field by field, with no effect of its own; a holder's write of a live field is mirrored (R345). -/
def State.guardedWrite (s : State) (ok : State → Bool) (a : Nat) (v : Word) : State :=
  match regAt a with
  | .reg d =>
    let (w, bad) := s.judgeGuarded ok a d.flds v
    let live := d.flds.any fun f => (match f.acc with | .rwl _ => s.fieldTakes a f (fldOf v f.hi f.lo) | _ => false)
    ((s.when (decide (w ≠ s.rd a)) fun s => s.wr a w).when live fun s => s.mirrorWrite a w.toNat).when bad fun s => s.refuse a
  | _ => s

def State.plainWrite (s : State) (a : Nat) (v : Word) : State := s.guardedWrite (fun _ => true) a v

/-- The tail moves within the unread records (R500, R501). -/
def State.tailWrite (s : State) (v : Word) : State :=
  let t := s.fld Reg.EVT_TAIL 11 0
  let x := fldOf v 11 0
  let moved := (x + 4096 - t) % 4096
  if s.unread < moved then s.refuse Reg.EVT_TAIL
  else
    let left := s.evt.pinned.filter fun i => decide (moved ≤ (i + 4096 - t) % 4096)
    (s.wrN Reg.EVT_TAIL x).setPinned left

/-- A slot mask is staged for the next frame sync; a mask with a bit for a slot the format does not have, or that gives a buffer a
second writer or a fifth reader, is refused (R12, R133, R140, R141). -/
def State.maskWrite (s : State) (p : Nat) (v : Word) : State :=
  let a := Reg.AUD_SLOT_MASK p
  let m := fldOf v 15 0
  if s.mayWrite a 15 0 && decide (m < 2 ^ s.audSlots p) && (s.setFld a 15 0 m).slotBufsOk p then
    let now := s.now
    ((s.setFld a 15 0 m).modAport p fun x => { x with staged := x.staged ++ [(m, now)] }).mirrorWrite a m
  else s.when (decide (m ≠ s.fld a 15 0)) fun s => s.refuse a

/-- While a gate list is pending its shadow copy takes no write (R313). -/
def State.adminWrite (s : State) (p a : Nat) (v : Word) : State :=
  let hi := if a = Reg.TMG_ADMIN_LEN p then 10 else 31
  if (s.gate p).pending.isSome && s.mayWrite a hi 0 then s.bump (Reg.TMG_GCL_REFUSED p) else s.plainWrite a v

/-- CHN_CTRL: ENABLE may be live, the rest never is (R97). -/
def State.chanCtrlWrite (s : State) (n : Nat) (v : Word) : State :=
  let a := Reg.CHN_CTRL n
  let e := decide (fldOf v 0 0 = 1)
  let ok := s.mayWrite a 0 0
  let bad := decide (fldOf v 14 8 ≠ s.fld a 14 8) || decide (fldOf v 5 4 ≠ s.fld a 5 4) || (!ok && e != s.bit a 0)
  let s := s.when ok fun s => (let s := s.enableChan n e
                               s.mirrorWrite a (s.rdN a))
  s.when bad fun s => s.refuse a

/-- CHN_STATE.CLAMP (R74, R97). -/
def State.setClamp (s : State) (n : Nat) (b : Bool) : State := s.setBit (Reg.CHN_STATE n) 13 b

/-- CHN_EFFORT: an EFFORT above ADMITTED is held at ADMITTED (R97). -/
def State.effortWrite (s : State) (n : Nat) (v : Word) : State :=
  let a := Reg.CHN_EFFORT n
  let top := s.fld a 18 16
  let e := fldOf v 2 0
  let ok := s.mayWrite a 2 0
  let bad := decide (fldOf v 18 16 ≠ top) || decide (fldOf v 10 8 ≠ s.fld a 10 8) || (!ok && decide (e ≠ s.fld a 2 0))
  let s := s.when ok fun s => ((s.setFld a 2 0 (min e top)).setClamp n (decide (top < e))).mirrorWrite a (min e top)
  s.when bad fun s => s.refuse a

/-- CHN_CAP_RATE: within its range, above the floor of R204 and within the level of R180; CLAMP where the second term of R97 is used. -/
def State.capRateWrite (s : State) (n : Nat) (v : Word) : State :=
  let a := Reg.CHN_CAP_RATE n
  let r := fldOf v 19 0
  if s.mayWrite a 19 0 && decide (100 ≤ r) && decide (r ≤ 800000) && s.keepsRules (s.setFld a 19 0 r) n then
    let s := s.setFld a 19 0 r
    (s.setClamp n (decide (r < s.capRate n))).mirrorWrite a r
  else s.when (decide (r ≠ s.fld a 19 0)) fun s => s.refuse a

/-- CHN_CAP_PIC: no cap, or room for one ember picture (R204). -/
def State.capPicWrite (s : State) (n : Nat) (v : Word) : State :=
  let a := Reg.CHN_CAP_PIC n
  if s.mayWrite a 31 0 && s.keepsRules (s.wr a v) n then (s.wr a v).mirrorWrite a v.toNat
  else s.when (decide (v ≠ s.rd a)) fun s => s.refuse a

/-- A policer field of a flow-table entry: a write that takes refills the entry's buckets (R106). -/
def State.policerWrite (s : State) (i a : Nat) (v : Word) : State :=
  let hi := if a = Reg.FT_POL_RATE i then 19 else 23
  let took := s.mayWrite a hi 0 && (match regAt a with
    | .reg d => d.flds.all fun f => s.fieldTakes a f (fldOf v f.hi f.lo)
    | _ => false)
  (s.plainWrite a v).when took fun s => s.refill i

/-- TRC_CTRL: KINDS and MODE as any RW field, and RESTART (R274). -/
def State.traceCtrlWrite (s : State) (d : Nat) (v : Word) : State :=
  (s.plainWrite (Reg.TRC_CTRL d) v).when (decide (fldOf v 0 0 = 1)) fun s => s.wr (Reg.TRC_HEAD d) 0

/-- Registers of a CRC unit that are no half of a pair (R485). -/
def State.crcRegWrite (s : State) (host : Bool) (d u a : Nat) (v : Word) : State :=
  let o := a % 0x100
  if o = 0x00 then s.crcGuard host u a (decide (fldPut v 29 7 0 ≠ s.rd a)) fun s => s.crcCfgWrite d u v
  else if o = 0x30 then s.crcGuard host u a true fun s => s.when (decide (fldOf v 0 0 = 1)) fun s => s.crcStart d u
  else if o = 0x40 then s.crcGuard host u a true fun s => s.crcFeedBytes d u 1 v.toNat
  else if o = 0x44 then s.crcGuard host u a true fun s => s.crcFeedBytes d u 2 v.toNat
  else if o = 0x48 then s.crcGuard host u a true fun s => s.crcFeedBytes d u 4 v.toNat
  else s.plainWrite a v

/-- The CRC unit of an address. -/
def crcUnitAt (a : Nat) : Option (Nat × Nat) :=
  if a < 0x01000000 ∨ 0x03000000 ≤ a then none
  else
    let o := (a - 0x01000000) % 0x400000
    if 0x60000 ≤ o ∧ o < 0x60800 then some ((a - 0x01000000) / 0x400000, (o - 0x60000) / 0x100) else none

/-- A write to a channel context: one that would break a condition of R57 on the context is discarded (R12). -/
def State.chanWrite (s : State) (n a : Nat) (v : Word) : State :=
  let o := a % 0x1000
  let t := if o = 0x000 then s.chanCtrlWrite n v
    else if o = 0x024 then s.effortWrite n v
    else if o = 0x044 then s.capPicWrite n v
    else if o = 0x048 then s.capRateWrite n v
    else s.guardedWrite (fun t => s.keepsRules t n) a v
  t.when (t.rd a != s.rd a) fun t => t.noteUndo (.reg a (s.rd a))

/-- A write to a register of a traffic manager. -/
def State.tmgWrite (s : State) (p a : Nat) (v : Word) : State :=
  let o := a % 0x2000
  if o = 0x18 ∨ o = 0x1C then s.adminWrite p a v
  else if o = 0x20 then (s.gclCtrlWrite p v).1
  else if o = 0x24 then (s.gclDataWrite p v).1
  else s.plainWrite a v

/-- A write of one decoded register that is no half of a pair; `host` tells a host's from the firmware's (R485). -/
def State.writeReg (s : State) (host : Bool) (a : Nat) (v : Word) : State :=
  if a = Reg.EMG_RESET then s.emgResetWrite v
  else if a = Reg.EMG_CTRL then s.when (decide (fldOf v 0 0 = 1)) fun s => s.closeRestore
  else if a = Reg.EVT_TAIL then s.tailWrite v
  else if a = Reg.TWN_CMD then s.twnCmdWrite v
  else if 0x10000 ≤ a ∧ a < 0x14000 ∧ a % 0x400 = 4 then s.maskWrite ((a - 0x10000) / 0x400) v
  else if 0x40000 ≤ a ∧ a < 0x50000 then s.tmgWrite ((a - 0x40000) / 0x2000) a v
  else if 0x50000 ≤ a ∧ a < 0x60000 ∧ a % 0x20 = 0 then (s.tfRateWrite ((a - 0x50000) / 0x20) v).1
  else if 0x60100 ≤ a ∧ a < 0x60300 ∧ a % 0x40 = 0x20 then s.traceCtrlWrite ((a - 0x60100) / 0x40) v
  else if 0x100000 ≤ a ∧ a < 0x160000 then s.chanWrite ((a - 0x100000) / 0x1000) a v
  else if 0x200000 ≤ a ∧ a < 0x600000 ∧ (a % 0x40 = 0x30 ∨ a % 0x40 = 0x34) then s.policerWrite ((a - 0x200000) / 0x40) a v
  else match calWordAt a, crcUnitAt a with
    | some (r, i), _ => s.calWrite r i v.toNat
    | none, some (d, u) => s.crcRegWrite host d u a v
    | none, none => s.plainWrite a v

/-- A field of the register takes writes of this kind at all. -/
def writable (d : RegDef) : Bool := d.flds.any fun f => (match f.acc with | .rw | .rwl _ => true | _ => false)

/-- The write of the _HI half at `a + 4` of the pair at `a` brings both halves into force (R10). -/
def State.pairWrite (s : State) (host : Bool) (a x : Nat) (d : RegDef) : State :=
  match crcUnitAt a with
  | some (k, u) =>
    let w := s.fld (Reg.CRC_CFG k u) 6 0
    let y := x % 2 ^ w
    s.crcGuard host u (a + 4) (decide (y ≠ s.rd64 a)) fun s =>
      if a = Reg.CRC_VALUE_LO k u then s.crcValueWrite k u x else s.wr64 a y
  | none =>
    if d.flds.all (fun f => s.fieldTakes a f 0 && s.fieldTakes (a + 4) f 0) then s.wr64 a x
    else s.when (decide (x ≠ s.rd64 a)) fun s => s.refuse (a + 4)

/-- A write of the word at `a` by master `mid` of die `mdie`. Masters 0 and 1 are the firmware's (R489). -/
def State.writeBus (s : State) (mdie mid a : Nat) (v : Word) : State :=
  if a % 4 ≠ 0 then s.abortLog (s.logDie a mdie) 1 a mdie mid 0x7F 0 1 0
  else if !s.decodes a then s.abortLog (s.logDie a mdie) 2 a mdie mid 0x7F 0 1 0
  else
    let s := s.posted mdie mid a
    let m := masterNo mdie mid
    let host := decide (2 ≤ mid)
    match regAt a with
    | .reg d =>
      if d.half = 1 ∧ writable d then s.holdLo m a v
      else if d.half = 2 ∧ writable d then s.pairWrite host (a - 4) ((s.heldLo m (a - 4)).toNat + 4294967296 * v.toNat) d
      else s.writeReg host a v
    | _ => s

/-- The write at `a` took `s` to `t` and was refused, or was discarded by R9 (R508). -/
def State.wasRefused (s t : State) (a : Nat) : Bool :=
  decide (a % 4 ≠ 0) || !s.decodes a || decide (s.rdN Reg.MGT_REFUSED ≠ t.rdN Reg.MGT_REFUSED)

/-! ## A standby takes the holder's writes (R345, R375) -/

/-- The standby's own word at `a` with the holder's values in the live fields. -/
def State.mergeLive (s : State) (a : Nat) (v : Word) : Word :=
  match regAt a with
  | .reg d => d.flds.foldl (fun w f =>
      if (match f.acc with | .rwl _ => true | _ => false) && s.mayWrite a f.hi f.lo then fldPut w f.hi f.lo (fldOf v f.hi f.lo)
      else w) (s.rd a)
  | _ => v

/-- A mirrored live write (R345). -/
def State.takeLive (s : State) (a : Nat) (v : Word) : State :=
  if a % 4 ≠ 0 ∨ a = Reg.TWN_CMD then s
  else match regAt a with
    | .reg _ =>
      if 0x40000 ≤ a ∧ a < 0x50000 ∧ a % 0x2000 = 0x24 then s.writeReg false a v else s.writeReg false a (s.mergeLive a v)
    | _ => s

/-- One field of the live register image (R375): values only, no command of a register is given again. -/
def State.takeImage (s : State) (e : Nat × Nat) : State :=
  let a := e.1
  let v := BitVec.ofNat 32 e.2
  let p := (a - 0x40000) / 0x2000
  if 0x40000 ≤ a ∧ a < 0x50000 ∧ a % 0x2000 = 0x20 then
    s.when (s.mayWrite a 9 0) fun s => s.setFld a 9 0 (fldOf v 9 0)
  else if 0x40000 ≤ a ∧ a < 0x50000 ∧ a % 0x2000 = 0x24 then
    s.when (s.mayWrite a 23 0) fun s =>
      (let i := s.gclIndex p
       s.modGate p fun g => { g with shadow := assocSet g.shadow i e.2 })
  else s.takeLive a v

end Sys2Proof.Machine
end

