-- ==== Sys2Proof/Machine/Beacon.lean ====
section
/-! DEFINITION. The Beacon operations READ, WRITE, BLOCK_READ and SUBSCRIBE, and the notifications (R503, R508 to R510). -/

namespace Sys2Proof.Machine

/-- A word in network byte order (R504). -/
def netWord (v : Nat) : List Byte := beBytes 4 (v % 4294967296)

/-! ## READ, WRITE, BLOCK_READ (R508) -/

/-- Reads by master 2 of the lead die, in order: the words. -/
def State.beaconReads (s : State) (l : List Nat) : State × List Nat :=
  l.foldl (fun acc a => let r := acc.1.readBus acc.1.lead 2 a
                        (r.1, acc.2 ++ [r.2])) (s, [])

/-- A block read by master 2 of the lead die, in bursts of up to 16 words: one begins at every multiple of 64 B, and so crosses
no 4 KiB boundary (R489, R508). DESIGN CHOICE (log 53). -/
def State.beaconBlock (s : State) (start count : Nat) : State × List Nat :=
  (List.range count).foldl (fun acc i =>
    let a := start + 4 * i
    let r := acc.1.readWord (decide (i = 0) || decide (a % 64 = 0)) acc.1.lead 2 a
    (r.1, acc.2 ++ [r.2])) (s, [])

def execBeaconRead (dt : Nat) (m : BeaconMsg) (s : State) : Host.Outcome State Fault Refusal :=
  done ((s.elapse dt).request m 1 fun s =>
    let ws := payloadWords m
    if m.payload.length % 4 ≠ 0 ∨ ws.length = 0 ∨ 64 < ws.length then s.respond m 4 []
    else
      let r := s.beaconReads ws
      r.1.respond m 0 (r.2.flatMap netWord))

/-- Pairs of address and value of a WRITE. -/
def wordPairs : List Nat → List (Nat × Nat)
  | a :: v :: r => (a, v) :: wordPairs r
  | _ => []

/-- Writes by master 2 of the lead die, in order; bit i of the map set where write i was refused. A write that resets the
unit ends the request. -/
def State.beaconWrites (s : State) (l : List (Nat × Nat)) : State × Nat :=
  (l.foldl (fun (acc : (State × Nat) × Nat) e =>
    let s := acc.1.1
    let i := acc.2
    if !s.emg.started then acc
    else
      let t := s.writeBus s.lead 2 e.1 (BitVec.ofNat 32 e.2)
      ((t, acc.1.2 + (if s.wasRefused t e.1 then 2 ^ i else 0)), i + 1)) ((s, 0), 0)).1

def execBeaconWrite (dt : Nat) (m : BeaconMsg) (s : State) : Host.Outcome State Fault Refusal :=
  done ((s.elapse dt).request m 2 fun s =>
    let ps := wordPairs (payloadWords m)
    if m.payload.length % 8 ≠ 0 ∨ ps.length = 0 ∨ 64 < ps.length then s.respond m 4 []
    else
      let r := s.beaconWrites ps
      if !r.1.emg.started then r.1 else r.1.respond m (if r.2 = 0 then 0 else 1) (beBytes 8 r.2))

def execBeaconBlockRead (dt : Nat) (m : BeaconMsg) (start count : Nat) (s : State) :
    Host.Outcome State Fault Refusal :=
  done ((s.elapse dt).request m 3 fun s =>
    if count = 0 ∨ 256 < count then s.respond m 4 []
    else
      let r := s.beaconBlock start count
      r.1.respond m 0 (r.2.flatMap netWord))

/-! ## Subscriptions (R510) -/

def State.sub? (s : State) (i : Nat) : Option Sub := s.mgt.subs.find? fun x => x.num == i

/-- The subscriptions, with MGT_SUBS. -/
def State.setSubs (s : State) (l : List Sub) : State :=
  ({ s with mgt := { s.mgt with subs := l } }).wrN Reg.MGT_SUBS (l.foldl (fun a (x : Sub) => a ||| 2 ^ x.num) 0)

def State.putSub (s : State) (x : Sub) : State := s.setSubs (s.mgt.subs.map fun y => if y.num = x.num then x else y)

/-- Ranges of a telemetry subscription, as address and words. -/
def rangesOk (l : List (Nat × Nat)) : Bool :=
  decide (1 ≤ l.length) && decide (l.length ≤ 16) && l.all fun e => decide (1 ≤ e.2) && decide (e.2 ≤ 64)

/-- Parameters of each kind: a lowest severity; a period in ms and ranges; a die. -/
def subParamsOk (kind : Nat) (ps : List Nat) : Bool :=
  match kind with
  | 1 => decide (ps.length = 1) && decide (ps.getD 0 4 ≤ 3)
  | 2 => decide (10 ≤ ps.getD 0 0) && decide (ps.getD 0 0 ≤ 60000) && decide (ps.length % 2 = 1) &&
      rangesOk (wordPairs (ps.drop 1))
  | 3 => decide (ps.length = 1) && decide (ps.getD 0 8 ≤ 7)
  | _ => false

/-- Where a new subscription starts: at the ring's present head. -/
def State.subStart (s : State) (kind : Nat) (ps : List Nat) : Nat :=
  if kind = 1 then s.evt.seq else if kind = 3 then s.sch.traceSeq.getD (ps.getD 0 0) 0 else 0

/-- Create, renew or end a subscription: action 0 ends it, any other renews it or makes it. -/
def State.subscribe (s : State) (m : BeaconMsg) (kind action : Nat) (ps : List Nat) : State :=
  let same := fun (x : Sub) => x.kind == kind && x.params == ps && x.dst == m.src && x.port == m.port &&
    x.recovery == msgRecovery m
  if !subParamsOk kind ps then s.respond m 4 []
  else match s.mgt.subs.find? same with
    | some x =>
      let now := s.now
      let s := if action = 0 then s.setSubs (s.mgt.subs.filter fun y => y.num != x.num)
        else s.putSub { x with renewed := now }
      s.respond m 0 [BitVec.ofNat 8 x.num]
    | none =>
      if action = 0 then s.respond m 4 []
      else match (List.range 8).find? (fun i => (s.sub? i).isNone) with
        | none => s.respond m 7 []
        | some i =>
          let x : Sub := ⟨i, kind, ps, m.src, m.port, msgRecovery m, s.now, 1, s.subStart kind ps, 0⟩
          (s.setSubs (s.mgt.subs ++ [x])).respond m 0 [BitVec.ofNat 8 i]

def execBeaconSubscribe (dt : Nat) (m : BeaconMsg) (kind action : Nat) (params : List Nat) (s : State) :
    Host.Outcome State Fault Refusal :=
  done ((s.elapse dt).request m 4 fun s => s.subscribe m kind action params)

/-- R510: 60 s without a renewing SUBSCRIBE. -/
def execSubscriptionExpiry (dt : Nat) (i : Fin 8) (s : State) : Host.Outcome State Fault Refusal :=
  let s := s.elapse dt
  match s.sub? i with
  | none => done s
  | some x =>
    if s.now < x.renewed + 60000000000 then done s
    else done (s.setSubs (s.mgt.subs.filter fun y => y.num != x.num))

/-- A notification can be queued: its lane or port is in service and has room (R510). -/
def State.canNotify (s : State) (x : Sub) : Bool :=
  match x.port with
  | none => s.emg.mgmtUp
  | some p => s.portUp p && decide (s.classOn p 0 < 2048) && decide (0 < s.bufFree p)

/-- Send one notification with the subscription's own number, or drop it, `lost` counted in MGT_NOTIFY_DROP. -/
def State.notify (s : State) (x : Sub) (payload : List Byte) (lost : Nat) : State :=
  if !s.canNotify x then s.bump Reg.MGT_NOTIFY_DROP lost
  else
    let s := s.putSub { (s.sub? x.num).getD x with seq := x.seq + 1 }
    s.sendBeacon x.port x.dst 4 (2 + 4 * b2n x.recovery) 0 x.seq payload

/-- Pieces of at most 1,400 bytes (R504). -/
def pieces : Nat → List Byte → List (List Byte)
  | 0, _ => []
  | fuel + 1, l => if l.length ≤ 1400 then [l] else l.take 1400 :: pieces fuel (l.drop 1400)

/-- R503, R510: at a whole multiple of the period the device reads every range and sends the words after the DTC sample of
the first read. -/
def execTelemetryNotify (dt : Nat) (i : Fin 8) (s : State) : Host.Outcome State Fault Refusal :=
  let s := s.elapse dt
  match s.sub? i with
  | none => done s
  | some x =>
    if x.kind ≠ 2 ∨ s.ns % (1000000 * x.params.getD 0 0) ≠ 0 then done s
    else
      let r := s.beaconReads ((wordPairs (x.params.drop 1)).flatMap fun e => (List.range e.2).map fun k => e.1 + 4 * k)
      let bytes := beBytes 8 (s.ns % 2 ^ 64) ++ r.2.flatMap netWord
      done (r.1.each (pieces 4 bytes) fun p s => s.notify ((s.sub? i).getD x) p 1)

/-- Records still in the ring from absolute number `c` on, by number and ring index. -/
def State.recordsFrom (s : State) (c : Nat) : List (Nat × Nat) :=
  let first := max c (s.evt.seq - 4096)
  (List.range (s.evt.seq - first)).map fun k =>
    (first + k, (s.rdN Reg.EVT_HEAD + 4096 - (s.evt.seq - first) % 4096 + k) % 4096)

/-- R510: a batch of up to 64 records of the lowest severity or above, after the count of those overwritten unsent. -/
def execEventBatchNotify (dt : Nat) (i : Fin 8) (s : State) : Host.Outcome State Fault Refusal :=
  let s := s.elapse dt
  match s.sub? i with
  | none => done s
  | some x =>
    let all := (s.recordsFrom x.cursor).filter fun e => x.wants (s.rdN (Reg.EVT_RING e.2 0))
    let batch := all.take 64
    if x.kind ≠ 1 ∨ batch = [] then done s
    else
      let y := { x with cursor := ((batch.getLast?.map (·.1)).getD 0) + 1, lost := if s.canNotify x then 0 else x.lost }
      let bytes := batch.flatMap fun e => (List.range 4).flatMap fun w => netWord (s.rdN (Reg.EVT_RING e.2 w))
      done ((s.putSub y).notify y (beBytes 2 (min x.lost 65535) ++ bytes) 1)

/-- Index of trace entry `c` of die `d`, if it still stands in the ring. -/
def State.traceIndex (s : State) (d c : Nat) : Option Nat :=
  let n := s.sch.traceSeq.getD d 0
  let i := (s.fld (Reg.TRC_HEAD d) 15 0 + 65536 - (n - c) % 65536) % 65536
  if c < n ∧ n ≤ c + 65536 ∧ s.fld (Reg.TRACE d i 3) 31 16 = c % 65536 then some i else none

/-- R510, R272: a batch of 64 trace entries in SEQ order; those that cannot be sent are counted. -/
def execTraceNotify (dt : Nat) (i : Fin 8) (s : State) : Host.Outcome State Fault Refusal :=
  let s := s.elapse dt
  match s.sub? i with
  | none => done s
  | some x =>
    let d := x.params.getD 0 0
    if x.kind ≠ 3 ∨ s.sch.traceSeq.getD d 0 < x.cursor + 64 then done s
    else
      let idx := (List.range 64).filterMap fun k => s.traceIndex d (x.cursor + k)
      let y := { x with cursor := x.cursor + 64 }
      let bytes := idx.flatMap fun j => (List.range 4).flatMap fun w => netWord (s.rdN (Reg.TRACE d j w))
      let s := (s.putSub y).bump Reg.MGT_NOTIFY_DROP (64 - idx.length)
      done (if idx = [] then s else s.notify y bytes idx.length)

end Sys2Proof.Machine
end

