-- ==== Sys2Proof/Machine/Lanes.lean ====
section
/-! DEFINITION. The commands of the serial lanes: network lanes, Lantern lanes, the MGMT lane (R382 to R405). -/

namespace Sys2Proof.Machine

/-! ## Is the lane there? -/

/-- A lane works where its die does and its phase has begun: network and Lantern lanes from E5 on, where they are enabled;
the MGMT lane of the lead die from E3 on (R42, R47, R385, R392, R403). -/
def State.lanePresent (s : State) (d n : Nat) : Bool :=
  s.dieOk d && !s.halted && (if n < 8 then decide (5 ≤ s.phase) && (s.laneSub d n).isSome
    else if n = 8 then decide (5 ≤ s.phase) && s.bit Reg.LNK_CTRL d
    else s.emg.mgmtUp && decide (s.lead = d))

/-! ## Ordered sets -/

/-- R391, R392, R398, R454: an IDLE set whose CHECK passes gives the partner's lanes and acknowledges frames. -/
def State.idleRx (s : State) (rx tx ack : Nat) (underWay : Bool) : State :=
  let was := s.fld Reg.LNK_STATUS 23 16
  let s := s.setFld Reg.LNK_STATUS 23 16 tx
  let s := s.when (decide (was ≠ tx)) fun s => s.raise 966 (256 * s.stripe + tx)
  -- Frames from the oldest up to the one acknowledged are done with.
  let covered := fun (u : Unacked) => decide ((ack + 65536 - u.frame.lseq) % 65536 < 32768)
  let s := { s with link := { s.link with
    partnerRx := rx, unacked := s.link.unacked.filter fun u => !covered u } }
  (s.restripe underWay).pump

def execIdleSetRx (dt : Nat) (lane : Fin 8) (rx tx ack check : Nat) (underWay : Bool) (s : State) :
    Host.Outcome State Fault Refusal :=
  let s := s.elapse dt
  if s.laneLocked lane 8 ∧ rx < 256 ∧ tx < 256 ∧ ack < 65536 ∧ check = idleCheck rx tx ack then
    done ((s.commitRecv (laneId lane 8)).idleRx rx tx ack underWay)
  else done s

/-- R391: an IDLE set at least every 0.5 µs, on every locked lane. -/
def execIdleSend (dt : Nat) (s : State) : Host.Outcome State Fault Refusal :=
  let s := s.elapse dt
  if s.setLanes = 0 then done s else done s.sendIdle

/-- 1,024 code groups of 0.625 ns have passed since the start of the last SKIP set (R394). -/
def State.skipDue (s : State) : Bool := s.link.skipAt.all fun t => decide (t + 640 ≤ s.now)

/-- R394: a SKIP set in every column that begins 1,024 or more code groups after the last one. -/
def execSkipSend (dt : Nat) (s : State) : Host.Outcome State Fault Refusal :=
  let s := s.elapse dt
  if s.setLanes = 0 || !s.skipDue then done s
  else done (({ s with link := { s.link with skipAt := some s.now } }).send (.skip s.setLanes))

/-- Fill of a lane's elastic buffer. -/
def State.elastic (s : State) (lane : Nat) : Int := s.link.elastic.getD lane 0

def State.setElastic (s : State) (lane : Nat) (x : Int) : State :=
  { s with link := { s.link with elastic := s.link.elastic.set lane x } }

/-- R395, R454: a SKIP arrives, the lane's commit point. The buffer has drifted by `drift` code groups since the last one; above its centre a K28.0 is
deleted, below it one is added; beyond ±8 the lane loses lock (R384). -/
def execSkipSetRx (dt : Nat) (lane : Fin 8) (drift : Int) (s : State) : Host.Outcome State Fault Refusal :=
  let s := s.elapse dt
  if !s.laneLocked lane 8 then done s
  else
    let s := s.commitRecv (laneId lane 8)
    let x := s.elastic lane + drift
    if 8 < x.natAbs then done (s.loseLane lane 8 false)
    else if 0 < x then done ((s.setElastic lane (x - 1)).bump Reg.LNK_SKP_DEL)
    else if x < 0 then done ((s.setElastic lane (x + 1)).bump Reg.LNK_SKP_ADD)
    else done (s.setElastic lane x)

/-- R389: the frame being received is void. The model holds no frame before its EOF, so nothing else changes. -/
def execAbortSetRx (dt : Nat) (s : State) : Host.Outcome State Fault Refusal := done (s.elapse dt)

/-- 4 µs have passed after the EOF of the oldest unacknowledged frame (R398). -/
def State.resendDue (s : State) : Bool := s.link.unacked.head?.any fun u => decide (u.sentAt + 4000 ≤ s.now)

/-- R398: 4 µs after the EOF of the oldest unacknowledged frame without an ACK covering it. -/
def execLanternResendTimeout (dt : Nat) (s : State) : Host.Outcome State Fault Refusal :=
  let s := s.elapse dt
  if s.resendDue then done s.resendAll else done s

/-! ## Lock and figure of merit -/

def execLaneLockLoss (dt : Nat) (d : Fin 8) (n : Fin 10) (underWay : Bool) (s : State) :
    Host.Outcome State Fault Refusal :=
  done ((s.elapse dt).loseLane d n underWay)

/-- R384: a lane is locked. Its state follows its next figure of merit; until then it is in ALARM, its FOM being 0. -/
def execLaneLockAcquire (dt : Nat) (d : Fin 8) (n : Fin 10) (underWay : Bool) (s : State) :
    Host.Outcome State Fault Refusal :=
  let s := s.elapse dt
  if !s.lanePresent d n || s.laneLocked d n then done s
  else
    let s := (s.setBit (Reg.LN_STATUS d n) 31 true).setLane d n 2
    let s := { s with link := { s.link with lockAt := assocSet s.link.lockAt (laneId d n) s.now } }
    if n.val < 8 then done (s.setBit (Reg.NP_STATUS d) (24 + n) true)
    else if n.val = 8 then
      done ((s.setFld Reg.LNK_STATUS 15 8 (putBit (s.fld Reg.LNK_STATUS 15 8) d true)).restripe underWay)
    else done s

/-- The Lantern lane has been GOOD for 1 ms (R391, R399). -/
def State.laneSteady (s : State) (lane : Nat) : Bool :=
  decide (assocGet 0 s.link.goodAt (laneId lane 8) + 1000000 ≤ s.now)

/-- R399, R393: a lane locked and GOOD for 1 ms joins RX_LANES, unless it is skewed by more than 32 code groups: then it is
left out. -/
def execLaneJoin (dt : Nat) (lane : Fin 8) (skewed : Bool) (s : State) : Host.Outcome State Fault Refusal :=
  let s := s.elapse dt
  if !s.laneLocked lane 8 || decide (s.fld (Reg.LN_STATUS lane 8) 26 24 ≠ 4) then done s
  else if skewed then done ((s.bump Reg.LNK_DESKEW_FAIL).setRxLanes (putBit s.rxLanes lane false))
  else if !s.laneSteady lane then done s
  else done (s.setRxLanes (putBit s.rxLanes lane true))

/-- The smallest number of a list. -/
def lowest (l : List Nat) : Nat := l.foldl min (l.headD 0)

/-- The figure of merit of a lane with lock: `floor(255 × h × w)`, at most 255 (R383). -/
def eyeFom (e : EyeScan) : Nat :=
  min 255 (255 * lowest e.heights * lowest e.widths / (e.separations.foldl max 0 * e.ui))

/-- State of a locked lane by its figure of merit (R383). -/
def fomState (fom : Nat) : Nat := if 96 ≤ fom then 4 else if 64 ≤ fom then 3 else 2

/-- Codewords of the sub-port of lane `n`, counted once each interval with its lowest lane; an uncorrectable codeword in
each of three consecutive intervals alarms an UP sub-port (R388). -/
def State.fecInterval (s : State) (p n corr uncorr : Nat) : State :=
  match s.laneSub p n with
  | none => s
  | some q =>
    if n ≠ 0 ∧ s.laneSub p (n - 1) = some q then s
    else
      let i := 4 * p + q
      let run := if uncorr = 0 then 0 else s.link.fecRun.getD i 0 + 1
      let bad := if uncorr = 0 then s.link.fecBadAt else assocSet s.link.fecBadAt i s.now
      let s := { s with link := { s.link with fecRun := s.link.fecRun.set i run, fecBadAt := bad } }
      let s := (s.bump64 (Reg.NP_FEC_CORR_LO p q) corr).bump (Reg.NP_FEC_UNCORR p q) uncorr
      s.when (decide (3 ≤ run) && s.subUp p q) fun s => s.subOutage p q 3

/-- R383: the figure of merit of the last 1 ms, with the code violations of the lane and the codewords of its sub-port. -/
def execFomUpdate (dt : Nat) (d : Fin 8) (n : Fin 10) (eye : EyeScan) (viol corr uncorr : Nat) (s : State) :
    Host.Outcome State Fault Refusal :=
  let s := s.elapse dt
  if !s.lanePresent d n then done s
  else
    let a := Reg.LN_STATUS d n
    let fom := eyeFom eye
    let s := (s.bump (Reg.LN_VIOL d n) viol).verifyLane (laneId d n) (if s.laneLocked d n then fom else 0)
    let s := s.when (decide (n.val < 8)) fun s => s.fecInterval d n corr uncorr
    if !s.laneLocked d n then done ((s.setFld a 7 0 0).setLane d n 1)
    else
      let st := fomState fom
      let wasGood := decide (s.fld a 26 24 = 4)
      let low := if st = 4 ∧ !wasGood then fom else min (s.fld a 15 8) fom
      let s := (((s.setFld a 7 0 fom).setFld a 15 8 low).setLane d n st)
      let s := s.when (decide (st = 4)) fun s => s.recvGood (laneId d n)
      let s := s.when (decide (st = 4) && !wasGood) fun s =>
        { s with link := { s.link with goodAt := assocSet s.link.goodAt (laneId d n) s.now } }
      if st = 4 then done (s.when (decide (n.val < 8)) fun s => s.setBit (Reg.NP_STATUS d) (16 + n) true)
      else done (s.laneNotGood d n)

/-! ## Sub-ports and the MGMT lane -/

/-- Lanes of sub-port `q` of port `p` (R385). -/
def State.lanesOfSub (s : State) (p q : Nat) : List Nat := (List.range 8).filter fun n => s.laneSub p n == some q

/-- The PCS of sub-port `q` has been aligned, that is every lane locked, with no uncorrectable codeword for NP_RETURN (R384,
R388). -/
def State.cleanFor (s : State) (p q : Nat) : Bool :=
  (assocGet 0 s.link.fecBadAt (4 * p + q) :: (s.lanesOfSub p q).map fun n => assocGet 0 s.link.lockAt (laneId p n)).all fun t =>
    decide (t + 1000000 * s.fld (Reg.NP_RETURN p) 13 0 ≤ s.now)

/-- R388: every lane GOOD and locked, and the PCS aligned with no uncorrectable codeword for NP_RETURN. The shapers go on
from their held values (R316). -/
def execSubportUp (dt : Nat) (p : Fin 8) (q : Fin 4) (s : State) : Host.Outcome State Fault Refusal :=
  let s := s.elapse dt
  let lanes := s.lanesOfSub p q
  let st := s.subState p q
  if (st = 1 ∨ st = 3) ∧ lanes ≠ [] ∧ s.cleanFor p q ∧
      (lanes.all fun n => s.laneLocked p n && decide (s.fld (Reg.LN_STATUS p n) 26 24 = 4)) then
    let resume := fun (i : Nat) (b : Bool) (f : Flow) =>
      if s.pathEn i b && s.pathPort i b == (p.val, q.val) then
        f.setPath b { f.path b with upTo := max (f.path b).upTo s.now50 } else f
    let flows := s.egr.flows.map fun f => resume f.no true (resume f.no false f)
    let s := { s with egr := { s.egr with flows := flows } }
    done ((s.setFld (Reg.NP_STATUS p) (2 * q + 1) (2 * q) 2).raise (64 + 64 * p + 13) (256 * q + 2))
  else done s

/-- R401, R405: the MGMT lane's link comes up or goes down; an SGMII partner that reports 10 or 100 Mb/s leaves it down. -/
def execMgmtLinkChange (dt : Nat) (up refused : Bool) (errs : Nat) (s : State) : Host.Outcome State Fault Refusal :=
  let s := s.elapse dt
  if !s.emg.mgmtUp then done s
  else
    let s := s.bump Reg.MGL_RX_ERR (errs + b2n refused)
    let now := up && !refused
    let was := s.bit Reg.MGL_STATUS 31
    let s := (s.setBit Reg.MGL_STATUS 31 now).setBit Reg.MGL_STATUS 0 now
    done (s.when (now != was) fun s => s.raise 967 (b2n now))

end Sys2Proof.Machine
end

