-- ==== Sys2Proof/Machine/Register.lean ====
section
/-! DEFINITION. Reads and writes of registers as commands (R9 to R13, R64, R106, R140, R144, R145, R345, R375, R500, R541). -/

namespace Sys2Proof.Machine

/-- R10, R491: a read of a _LO register latches its _HI for the reading master. -/
def execReg64LoRead (dt : Nat) (mdie : Fin 8) (mid : Fin 4) (addr : Nat) (s : State) :
    Host.Outcome State Fault Refusal :=
  let r := (s.elapse dt).readBus mdie mid addr
  done (r.1.send (.busRead mdie mid addr r.2))

/-- R458: a read of CAL_CTX latches the window for the reading master and returns its first word. -/
def execCalCtxRead (dt : Nat) (mdie : Fin 8) (mid : Fin 4) (r : Fin 144) (s : State) : Host.Outcome State Fault Refusal :=
  let s := s.elapse dt
  if !recvExists r then done s
  else
    let q := s.readBus mdie mid (calAddr r 0)
    done (q.1.send (.busRead mdie mid (calAddr r 0) q.2))

/-- R458: a read of CAL_SIG returns the signature of the latched window and ends the latch. -/
def execCalSigRead (dt : Nat) (mdie : Fin 8) (mid : Fin 4) (r : Fin 144) (s : State) : Host.Outcome State Fault Refusal :=
  let s := s.elapse dt
  if !recvExists r then done s
  else
    let a := calAddr r (sigIndex r)
    let q := s.readBus mdie mid a
    done (q.1.send (.busRead mdie mid a q.2))

/-- R10: a write of a _LO register is held for the writing master. -/
def execReg64LoWrite (dt : Nat) (mdie : Fin 8) (mid : Fin 4) (addr : Nat) (v : Word) (s : State) :
    Host.Outcome State Fault Refusal :=
  done ((s.elapse dt).writeBus mdie mid addr v)

/-- R10: a write of a _HI register brings both halves into force, with the half this master's write of _LO left. -/
def execReg64HiWrite (dt : Nat) (mdie : Fin 8) (mid : Fin 4) (addr : Nat) (v : Word) (s : State) :
    Host.Outcome State Fault Refusal :=
  let s := s.elapse dt
  done (s.writeBus mdie mid addr v)

/-- R11, R12: a write of any register, judged field by field at this instant (R491). -/
def execRegisterWrite (dt : Nat) (mdie : Fin 8) (mid : Fin 4) (addr : Nat) (v : Word) (s : State) :
    Host.Outcome State Fault Refusal :=
  let t := (s.elapse dt).writeBus mdie mid addr v
  done t

/-- R500: the host acknowledges records, or its write is refused. -/
def execEvtTailWrite (dt : Nat) (v : Word) (s : State) : Host.Outcome State Fault Refusal :=
  done ((s.elapse dt).tailWrite v)

/-- R541: a window of a rate-limited source closes; sources 1 and 5 write their record. -/
def execRateLimitWindowClose (dt src : Nat) (s : State) : Host.Outcome State Fault Refusal :=
  done ((s.elapse dt).closeWindow src)

/-- R106: a write of a policer field. -/
def execFtPolWrite (dt : Nat) (entry : Fin 65536) (burst : Bool) (v : Word) (s : State) :
    Host.Outcome State Fault Refusal :=
  done ((s.elapse dt).policerWrite entry (if burst then Reg.FT_POL_BURST entry else Reg.FT_POL_RATE entry) v)

/-- R140, R141: a slot mask is staged. -/
def execAudSlotMaskWrite (dt : Nat) (p : Fin 16) (v : Word) (s : State) : Host.Outcome State Fault Refusal :=
  done ((s.elapse dt).maskWrite p v)

/-- R144: word `i` of the channel status sent in subframe 1, or with `b` in subframe 2; taken at the next block start. -/
def execAudCsTxWrite (dt : Nat) (p : Fin 16) (b : Bool) (i : Fin 6) (v : Word) (s : State) :
    Host.Outcome State Fault Refusal :=
  done ((s.elapse dt).plainWrite (if b then Reg.AUD_CS_TX_B p i else Reg.AUD_CS_TX_A p i) v)

/-- R145: ENABLE starts the port at a frame sync, or stops it from the next one; the other fields keep their values. -/
def execAudEnableWrite (dt : Nat) (p : Fin 16) (enable : Bool) (s : State) : Host.Outcome State Fault Refusal :=
  let s := s.elapse dt
  let a := Reg.AUD_CTRL p
  done (s.plainWrite a (fldPut (s.rd a) 31 31 (b2n enable)))

/-- R274: a write of TRC_CTRL: KINDS, MODE, and RESTART, which sets the head to entry 0 and clears FULL. -/
def execTrcRestart (dt : Nat) (d : Fin 8) (v : Word) (s : State) : Host.Outcome State Fault Refusal :=
  done ((s.elapse dt).traceCtrlWrite d v)

/-- R345: the standby writes the holder's live write into its own register. -/
def execLiveWriteRx (dt : Nat) (h : LHeader) (addr : Nat) (v : Word) (s : State) : Host.Outcome State Fault Refusal :=
  done ((s.elapse dt).lanternRx h 4 fun s => s.when s.isStandby fun s => s.takeLive addr v)

/-- R375: the standby writes the holder's live register image and returns to its records. -/
def execLiveRegisterImageRx (dt : Nat) (h : LHeader) (fields : List (Nat × Nat)) (s : State) :
    Host.Outcome State Fault Refusal :=
  done ((s.elapse dt).lanternRx h 13 fun s => s.when s.isStandby fun s =>
    let s := s.each fields fun e s => s.takeImage e
    { s with link := { s.link with imageDue := false } })

end Sys2Proof.Machine
end

