-- ==== Sys2Proof/Machine/Service.lean ====
section
/-! DEFINITION. Control frames a port answers (R101, R401), the I²C target (R512, R534) and JTAG (R61, R536). -/

namespace Sys2Proof.Machine

/-! ## ARP, ICMP echo, IGMP and MLD (R101, R302, R401) -/

/-- Answer on the MGMT lane, which no traffic manager serves, or in TC4 of a sub-port. -/
def State.answer (s : State) (port : Option Nat) (sub len kind dst : Nat) (groups : List (List Nat)) : State :=
  match port with
  | none => s.send (.reply kind 8 dst groups)
  | some p => s.toSub p sub 4 len (.reply kind p dst groups)

/-- The frame reaches a control handler: the MGMT lane, or a sub-port in service. -/
def State.controlReach (s : State) (port : Option Nat) (sub : Nat) : Bool :=
  match port with
  | none => s.emg.mgmtUp
  | some p => s.subUp p sub

/-- A frame on the MGMT lane is counted (R404). -/
def State.countMgmt (s : State) (port : Option Nat) : State := s.when port.isNone fun s => s.bump Reg.MGL_RX_FRAMES

/-- R101: an ARP request or an ND solicitation. An ARP answer is padded to
64 B; an ND advertisement with the sender's link address is 90 B long (R305). PRESUMED (log 52), from RFC 826 and RFC 4861. -/
def execArpRx (dt : Nat) (port : Option (Fin 8)) (sub : Fin 4) (src : Nat) (own : AddrRequest) (s : State) :
    Host.Outcome State Fault Refusal :=
  let s := s.elapse dt
  let p := port.map (·.val)
  if !s.controlReach p sub then done s
  else done ((s.countMgmt p).when own.own fun s => s.answer p sub (if own.nd then 90 else 64) 1 src [])

/-- Echo requests of a port in the second that began with the first of them (R101). -/
def State.echoOk (s : State) (p : Nat) : State × Bool :=
  let now := s.now
  let e := s.ing.echoes.getD p (0, 0)
  if e.2 = 0 ∨ e.1 + 1000000000 ≤ now then
    ({ s with ing := { s.ing with echoes := s.ing.echoes.set p (now, 1) } }, true)
  else if e.2 < 100 then ({ s with ing := { s.ing with echoes := s.ing.echoes.set p (e.1, e.2 + 1) } }, true)
  else (s, false)

/-- R101: an echo request, answered within the port's rate, otherwise discarded and counted. -/
def execIcmpEchoRx (dt : Nat) (port : Option (Fin 8)) (sub : Fin 4) (src len : Nat) (s : State) :
    Host.Outcome State Fault Refusal :=
  let s := s.elapse dt
  match port with
  | none => done (if s.emg.mgmtUp then (s.countMgmt none).answer none 0 len 2 src [] else s)
  | some p =>
    if !s.subUp p sub then done s
    else
      let r := s.echoOk p
      if r.2 then done (r.1.answer (some p.val) sub len 2 src []) else done (r.1.bump (Reg.NP_RX_ICMP_LIMIT p sub))

/-- R101: a query is answered with reports for the flows. -/
def execIgmpQueryRx (dt : Nat) (port : Fin 8) (sub : Fin 4) (mld : Bool) (s : State) :
    Host.Outcome State Fault Refusal :=
  let s := s.elapse dt
  let g := s.groupsOn port mld
  if !s.subUp port sub ∨ g = [] then done s
  else done (s.answer (some port.val) sub (reportLen mld g) 3 0 g)

/-! ## The I²C target (R42, R512, R534) -/

def State.setI2c (s : State) (ptr : Nat) (busy : Bool) : State :=
  { s with mgt := { s.mgt with i2cPtr := ptr % 256, i2cBusy := busy } }

/-- R512: a write transfer of one byte sets the window pointer. -/
def execI2cPointerWrite (dt : Nat) (v : Byte) (s : State) : Host.Outcome State Fault Refusal :=
  let s := s.elapse dt
  if s.emg.i2cUp then done (s.setI2c v.toNat false) else done s

/-- R512: a read transfer returns `len` bytes from the pointer upward, of the copy that stands at its START; without `stop`
it is still under way. -/
def execI2cRead (dt len : Nat) (stop : Bool) (s : State) : Host.Outcome State Fault Refusal :=
  let s := s.elapse dt
  if !s.emg.i2cUp then done s
  else
    let p := s.mgt.i2cPtr
    let bytes := (List.range len).map fun i => s.mgt.i2cCopy.getD ((p + i) % 256) 0
    done ((s.send (.i2c bytes)).setI2c (if stop then p + len else p) (!stop))

/-- R512: every 1 ms. -/
def execI2cWindowRefresh (dt : Nat) (s : State) : Host.Outcome State Fault Refusal :=
  let s := s.elapse dt
  if s.emg.i2cUp then done s.i2cRefresh else done s

/-- R534: SCL low for 35 ms abandons the transfer; the pointer keeps its value. -/
def execI2cTimeout (dt : Nat) (s : State) : Host.Outcome State Fault Refusal :=
  let s := s.elapse dt
  done (s.setI2c s.mgt.i2cPtr false)

/-! ## JTAG (R61, R536) -/

/-- IDCODE (R536). -/
def idcode : Nat :=
  Config.revision % 16 * 268435456 + 0x9608 * 4096 + 0x6E5 * 2 + 1

/-- R61, R536: IDCODE (0) drives the code, boundary scan (1) drives what it captured; another instruction drives nothing. -/
def execJtagInstruction (dt : Nat) (kind : Fin 3) (capture : Nat) (s : State) : Host.Outcome State Fault Refusal :=
  let s := s.elapse dt
  let s := { s with mgt := { s.mgt with jtag := kind.val + 1 } }
  done (if kind.val = 0 then s.send (.tdo idcode) else if kind.val = 1 then s.send (.tdo capture) else s)

end Sys2Proof.Machine
end

