-- ==== Sys2Proof/Machine/Dispatch.lean ====
section
/-! DEFINITION. Which meaning each command has: one arm per constructor. -/

namespace Sys2Proof.Machine

def exec (i : Instr) (s : State) : Host.Outcome State Fault Refusal :=
  match i with
  | .resetNAssert dt => Sys2Proof.Machine.execResetNAssert dt s
  | .e0Start dt vcores rails => Sys2Proof.Machine.execE0Start dt vcores rails s
  | .railLoss dt rail uv => Sys2Proof.Machine.execRailLoss dt rail uv s
  | .vcoreRailInRange dt d => Sys2Proof.Machine.execVcoreRailInRange dt d s
  | .vcoreRangeTimeout dt d => Sys2Proof.Machine.execVcoreRangeTimeout dt d s
  | .e0Complete dt => Sys2Proof.Machine.execE0Complete dt s
  | .dieSelfTestDone dt d passed => Sys2Proof.Machine.execDieSelfTestDone dt d passed s
  | .e1DieTimeout dt d => Sys2Proof.Machine.execE1DieTimeout dt d s
  | .e2Complete dt linksUp => Sys2Proof.Machine.execE2Complete dt linksUp s
  | .imageLoadDone dt answersA answersB => Sys2Proof.Machine.execImageLoadDone dt answersA answersB s
  | .haltedRescan dt => Sys2Proof.Machine.execHaltedRescan dt s
  | .restoreDone dt => Sys2Proof.Machine.execRestoreDone dt s
  | .restoreWindowTimeout dt => Sys2Proof.Machine.execRestoreWindowTimeout dt s
  | .memoryTrainingDone dt d m density compared tries => Sys2Proof.Machine.execMemoryTrainingDone dt d m density compared tries s
  | .memoryFillDone dt d m => Sys2Proof.Machine.execMemoryFillDone dt d m s
  | .laneUpTimeout dt => Sys2Proof.Machine.execLaneUpTimeout dt s
  | .e5Complete dt => Sys2Proof.Machine.execE5Complete dt s
  | .timeAcquisitionTimeout dt => Sys2Proof.Machine.execTimeAcquisitionTimeout dt s
  | .twinJoinTimeout dt => Sys2Proof.Machine.execTwinJoinTimeout dt s
  | .admission dt => Sys2Proof.Machine.execAdmission dt s
  | .e8Timeout dt => Sys2Proof.Machine.execE8Timeout dt s
  | .emgReset dt key => Sys2Proof.Machine.execEmgReset dt key s
  | .flashOpen dt m port copy => Sys2Proof.Machine.execFlashOpen dt m port copy s
  | .flashData dt m offset data => Sys2Proof.Machine.execFlashData dt m offset data s
  | .flashCommit dt m => Sys2Proof.Machine.execFlashCommit dt m s
  | .flashAbort dt m => Sys2Proof.Machine.execFlashAbort dt m s
  | .flashSessionTimeout dt => Sys2Proof.Machine.execFlashSessionTimeout dt s
  | .keyClaim dt m => Sys2Proof.Machine.execKeyClaim dt m s
  | .wearLogAppend dt => Sys2Proof.Machine.execWearLogAppend dt s
  | .chnEnableWrite dt n enable => Sys2Proof.Machine.execChnEnableWrite dt n enable s
  | .channelDisabled dt n => Sys2Proof.Machine.execChannelDisabled dt n s
  | .pictureBoundary dt n => Sys2Proof.Machine.execPictureBoundary dt n s
  | .controlStep dt n => Sys2Proof.Machine.execControlStep dt n s
  | .mediaFrameRx dt m => Sys2Proof.Machine.execMediaFrameRx dt m s
  | .pathDown dt n path => Sys2Proof.Machine.execPathDown dt n path s
  | .tsGapPass dt n => Sys2Proof.Machine.execTsGapPass dt n s
  | .slotEmpty dt n k => Sys2Proof.Machine.execSlotEmpty dt n k s
  | .bandDeadline dt n k b => Sys2Proof.Machine.execBandDeadline dt n k b s
  | .ftPolWrite dt entry burst v => Sys2Proof.Machine.execFtPolWrite dt entry burst v s
  | .recordWaitTimeout dt n k step b => Sys2Proof.Machine.execRecordWaitTimeout dt n k step b s
  | .preparationDone dt n k => Sys2Proof.Machine.execPreparationDone dt n k s
  | .allocationWaitEnd dt iv => Sys2Proof.Machine.execAllocationWaitEnd dt iv s
  | .takeRequest dt e => Sys2Proof.Machine.execTakeRequest dt e s
  | .workComplete dt e r => Sys2Proof.Machine.execWorkComplete dt e r s
  | .workFault dt e => Sys2Proof.Machine.execWorkFault dt e s
  | .channelTagFault dt e => Sys2Proof.Machine.execChannelTagFault dt e s
  | .stallWatchdog dt die no => Sys2Proof.Machine.execStallWatchdog dt die no s
  | .bandTimingDeparture dt n k b => Sys2Proof.Machine.execBandTimingDeparture dt n k b s
  | .engineResetDone dt e => Sys2Proof.Machine.execEngineResetDone dt e s
  | .engineResetTimeout dt e => Sys2Proof.Machine.execEngineResetTimeout dt e s
  | .trcRestart dt d v => Sys2Proof.Machine.execTrcRestart dt d v s
  | .datagramClose dt iv reads noCopy => Sys2Proof.Machine.execDatagramClose dt iv reads noCopy s
  | .datagramRelease dt iv seq blue => Sys2Proof.Machine.execDatagramRelease dt iv seq blue s
  | .frameSelect dt p q reads noCopy => Sys2Proof.Machine.execFrameSelect dt p q reads noCopy s
  | .cursorSample dt => Sys2Proof.Machine.execCursorSample dt s
  | .departureJudgement dt n k => Sys2Proof.Machine.execDepartureJudgement dt n k s
  | .dieLimitExpiry dt n k => Sys2Proof.Machine.execDieLimitExpiry dt n k s
  | .tfRateWrite dt iv v => Sys2Proof.Machine.execTfRateWrite dt iv v s
  | .tmgGclDataWrite dt p v => Sys2Proof.Machine.execTmgGclDataWrite dt p v s
  | .gclCommit dt p v => Sys2Proof.Machine.execGclCommit dt p v s
  | .gateCycleStart dt p => Sys2Proof.Machine.execGateCycleStart dt p s
  | .gateEntryExpiry dt p => Sys2Proof.Machine.execGateEntryExpiry dt p s
  | .audioFrameSync dt p ins edge => Sys2Proof.Machine.execAudioFrameSync dt p ins edge s
  | .audSlotMaskWrite dt p v => Sys2Proof.Machine.execAudSlotMaskWrite dt p v s
  | .audCsTxWrite dt p b iv v => Sys2Proof.Machine.execAudCsTxWrite dt p b iv v s
  | .audEnableWrite dt p enable => Sys2Proof.Machine.execAudEnableWrite dt p enable s
  | .aes3FrameRx dt p f => Sys2Proof.Machine.execAes3FrameRx dt p f s
  | .wclkStop dt => Sys2Proof.Machine.execWclkStop dt s
  | .wclkGlitch dt => Sys2Proof.Machine.execWclkGlitch dt s
  | .wclkRateChange dt estimate => Sys2Proof.Machine.execWclkRateChange dt estimate s
  | .flywheelExpiry dt => Sys2Proof.Machine.execFlywheelExpiry dt s
  | .wclkQualified dt estimate => Sys2Proof.Machine.execWclkQualified dt estimate s
  | .syncRx dt m => Sys2Proof.Machine.execSyncRx dt m s
  | .followUpRx dt sender seq origin correction => Sys2Proof.Machine.execFollowUpRx dt sender seq origin correction s
  | .announceRx dt m => Sys2Proof.Machine.execAnnounceRx dt m s
  | .delayReqSend dt => Sys2Proof.Machine.execDelayReqSend dt s
  | .delayRespRx dt domain seq receipt correction transport => Sys2Proof.Machine.execDelayRespRx dt domain seq receipt correction transport s
  | .pdelayReqRx dt port domain correction transport => Sys2Proof.Machine.execPdelayReqRx dt port domain correction transport s
  | .announceTimeout dt => Sys2Proof.Machine.execAnnounceTimeout dt s
  | .ppsInEdge dt => Sys2Proof.Machine.execPpsInEdge dt s
  | .ppsStop dt => Sys2Proof.Machine.execPpsStop dt s
  | .ppsOutSecond dt => Sys2Proof.Machine.execPpsOutSecond dt s
  | .refclkStop dt r => Sys2Proof.Machine.execRefclkStop dt r s
  | .refclkGlitch dt r => Sys2Proof.Machine.execRefclkGlitch dt r s
  | .refclkRateChange dt r estimate => Sys2Proof.Machine.execRefclkRateChange dt r estimate s
  | .refclkQualified dt r => Sys2Proof.Machine.execRefclkQualified dt r s
  | .pilotRatioMeasure dt ratio => Sys2Proof.Machine.execPilotRatioMeasure dt ratio s
  | .flameSetRx dt lane w => Sys2Proof.Machine.execFlameSetRx dt lane w s
  | .wickWordRx dt w => Sys2Proof.Machine.execWickWordRx dt w s
  | .presenceBeaconRx dt port payload => Sys2Proof.Machine.execPresenceBeaconRx dt port payload s
  | .leaseSend dt => Sys2Proof.Machine.execLeaseSend dt s
  | .wickWordSend dt => Sys2Proof.Machine.execWickWordSend dt s
  | .presenceBeaconSend dt => Sys2Proof.Machine.execPresenceBeaconSend dt s
  | .leaseLapse dt => Sys2Proof.Machine.execLeaseLapse dt s
  | .twnCmdHandover dt => Sys2Proof.Machine.execTwnCmdHandover dt s
  | .handoverDrainDone dt => Sys2Proof.Machine.execHandoverDrainDone dt s
  | .twnCmdResync dt => Sys2Proof.Machine.execTwnCmdResync dt s
  | .snapshotReferencesArrived dt n => Sys2Proof.Machine.execSnapshotReferencesArrived dt n s
  | .holdOffExpiry dt => Sys2Proof.Machine.execHoldOffExpiry dt s
  | .holderDigestMissing dt n k => Sys2Proof.Machine.execHolderDigestMissing dt n k s
  | .decisionRecordRx dt h input bytes => Sys2Proof.Machine.execDecisionRecordRx dt h input bytes s
  | .bandEntryRx dt h n k bytes => Sys2Proof.Machine.execBandEntryRx dt h n k bytes s
  | .gapEntryRx dt h bytes => Sys2Proof.Machine.execGapEntryRx dt h bytes s
  | .liveWriteRx dt h addr v => Sys2Proof.Machine.execLiveWriteRx dt h addr v s
  | .spliceCommandRx dt h n id index body => Sys2Proof.Machine.execSpliceCommandRx dt h n id index body s
  | .dimReportRx dt h n level => Sys2Proof.Machine.execDimReportRx dt h n level s
  | .inputDigestRx dt h n k part digest => Sys2Proof.Machine.execInputDigestRx dt h n k part digest s
  | .outputDigestRx dt h n k band digest => Sys2Proof.Machine.execOutputDigestRx dt h n k band digest s
  | .cursorFrameRx dt h entries => Sys2Proof.Machine.execCursorFrameRx dt h entries s
  | .failureRecordRx dt h bytes => Sys2Proof.Machine.execFailureRecordRx dt h bytes s
  | .liveRegisterImageRx dt h fields => Sys2Proof.Machine.execLiveRegisterImageRx dt h fields s
  | .snapshotFrameRx dt h n x => Sys2Proof.Machine.execSnapshotFrameRx dt h n x s
  | .joinControlRx dt h x => Sys2Proof.Machine.execJoinControlRx dt h x s
  | .idleSetRx dt lane rx tx ack check underWay => Sys2Proof.Machine.execIdleSetRx dt lane rx tx ack check underWay s
  | .idleSend dt => Sys2Proof.Machine.execIdleSend dt s
  | .skipSend dt => Sys2Proof.Machine.execSkipSend dt s
  | .skipSetRx dt lane drift => Sys2Proof.Machine.execSkipSetRx dt lane drift s
  | .abortSetRx dt => Sys2Proof.Machine.execAbortSetRx dt s
  | .lanternResendTimeout dt => Sys2Proof.Machine.execLanternResendTimeout dt s
  | .laneLockLoss dt d n underWay => Sys2Proof.Machine.execLaneLockLoss dt d n underWay s
  | .laneLockAcquire dt d n underWay => Sys2Proof.Machine.execLaneLockAcquire dt d n underWay s
  | .laneJoin dt lane skewed => Sys2Proof.Machine.execLaneJoin dt lane skewed s
  | .fomUpdate dt d n eye viol corr uncorr => Sys2Proof.Machine.execFomUpdate dt d n eye viol corr uncorr s
  | .subportUp dt p q => Sys2Proof.Machine.execSubportUp dt p q s
  | .mgmtLinkChange dt up refused errs => Sys2Proof.Machine.execMgmtLinkChange dt up refused errs s
  | .adaptationCycle dt r st => Sys2Proof.Machine.execAdaptationCycle dt r st s
  | .calibrationCommit dt d n => Sys2Proof.Machine.execCalibrationCommit dt d n s
  | .calCtxRead dt mdie mid r => Sys2Proof.Machine.execCalCtxRead dt mdie mid r s
  | .calSigRead dt mdie mid r => Sys2Proof.Machine.execCalSigRead dt mdie mid r s
  | .calWindowWrite dt r iv v => Sys2Proof.Machine.execCalWindowWrite dt r iv v s
  | .vcoreOutOfWindow dt d uv => Sys2Proof.Machine.execVcoreOutOfWindow dt d uv s
  | .autoResetExpiry dt => Sys2Proof.Machine.execAutoResetExpiry dt s
  | .lockstepMismatch dt d pair => Sys2Proof.Machine.execLockstepMismatch dt d pair s
  | .lockstepRestartDone dt d pair => Sys2Proof.Machine.execLockstepRestartDone dt d pair s
  | .sramUncorrectableError dt d owner => Sys2Proof.Machine.execSramUncorrectableError dt d owner s
  | .dieLinkFailure dt l cut taken => Sys2Proof.Machine.execDieLinkFailure dt l cut taken s
  | .dieLinkAck dt seq => Sys2Proof.Machine.execDieLinkAck dt seq s
  | .memoryRequest dt d m port write scrub addr len data => Sys2Proof.Machine.execMemoryRequest dt d m port write scrub addr len data s
  | .memoryAccessDone dt d k res => Sys2Proof.Machine.execMemoryAccessDone dt d k res s
  | .refreshDue dt d k => Sys2Proof.Machine.execRefreshDue dt d k s
  | .memoryTempRead dt d m temp => Sys2Proof.Machine.execMemoryTempRead dt d m temp s
  | .selfRefreshEntry dt d => Sys2Proof.Machine.execSelfRefreshEntry dt d s
  | .selfRefreshScrub dt d => Sys2Proof.Machine.execSelfRefreshScrub dt d s
  | .retrainIntervalExpiry dt d k => Sys2Proof.Machine.execRetrainIntervalExpiry dt d k s
  | .memoryErrorInterval dt d k => Sys2Proof.Machine.execMemoryErrorInterval dt d k s
  | .retrainingSliceStart dt d m => Sys2Proof.Machine.execRetrainingSliceStart dt d m s
  | .retrainingSliceEnd dt d m passed => Sys2Proof.Machine.execRetrainingSliceEnd dt d m passed s
  | .sensorSample dt d elems => Sys2Proof.Machine.execSensorSample dt d elems s
  | .thermalGraceExpiry dt d => Sys2Proof.Machine.execThermalGraceExpiry dt d s
  | .dimStepTimer dt d => Sys2Proof.Machine.execDimStepTimer dt d s
  | .dimRecoveryTimer dt d => Sys2Proof.Machine.execDimRecoveryTimer dt d s
  | .waxMeasurement dt d counts => Sys2Proof.Machine.execWaxMeasurement dt d counts s
  | .pmbAlert dt => Sys2Proof.Machine.execPmbAlert dt s
  | .pmbusPoll dt => Sys2Proof.Machine.execPmbusPoll dt s
  | .pmbusTransferDone dt ok value => Sys2Proof.Machine.execPmbusTransferDone dt ok value s
  | .pmbusStuck dt => Sys2Proof.Machine.execPmbusStuck dt s
  | .voutStep dt d => Sys2Proof.Machine.execVoutStep dt d s
  | .voutConfirmTimeout dt d => Sys2Proof.Machine.execVoutConfirmTimeout dt d s
  | .dailyPlanning dt => Sys2Proof.Machine.execDailyPlanning dt s
  | .crcStart dt host d u v => Sys2Proof.Machine.execCrcStart dt host d u v s
  | .crcFeedB dt host d u v => Sys2Proof.Machine.execCrcFeedB dt host d u v s
  | .crcFeedH dt host d u v => Sys2Proof.Machine.execCrcFeedH dt host d u v s
  | .crcFeedW dt host d u v => Sys2Proof.Machine.execCrcFeedW dt host d u v s
  | .crcCfgWrite dt host d u v => Sys2Proof.Machine.execCrcCfgWrite dt host d u v s
  | .crcValueWrite dt host d u v => Sys2Proof.Machine.execCrcValueWrite dt host d u v s
  | .reg64LoRead dt mdie mid addr => Sys2Proof.Machine.execReg64LoRead dt mdie mid addr s
  | .reg64LoWrite dt mdie mid addr v => Sys2Proof.Machine.execReg64LoWrite dt mdie mid addr v s
  | .reg64HiWrite dt mdie mid addr v => Sys2Proof.Machine.execReg64HiWrite dt mdie mid addr v s
  | .registerWrite dt mdie mid addr v => Sys2Proof.Machine.execRegisterWrite dt mdie mid addr v s
  | .wrongWidthAccess dt mdie mid addr width => Sys2Proof.Machine.execWrongWidthAccess dt mdie mid addr width s
  | .undecodedAccess dt mdie mid addr => Sys2Proof.Machine.execUndecodedAccess dt mdie mid addr s
  | .masterResetMidBurst dt b sram left => Sys2Proof.Machine.execMasterResetMidBurst dt b sram left s
  | .evtTailWrite dt v => Sys2Proof.Machine.execEvtTailWrite dt v s
  | .rateLimitWindowClose dt src => Sys2Proof.Machine.execRateLimitWindowClose dt src s
  | .beaconRead dt m => Sys2Proof.Machine.execBeaconRead dt m s
  | .beaconWrite dt m => Sys2Proof.Machine.execBeaconWrite dt m s
  | .beaconBlockRead dt m start count => Sys2Proof.Machine.execBeaconBlockRead dt m start count s
  | .beaconSubscribe dt m kind action params => Sys2Proof.Machine.execBeaconSubscribe dt m kind action params s
  | .subscriptionExpiry dt iv => Sys2Proof.Machine.execSubscriptionExpiry dt iv s
  | .telemetryNotify dt iv => Sys2Proof.Machine.execTelemetryNotify dt iv s
  | .eventBatchNotify dt iv => Sys2Proof.Machine.execEventBatchNotify dt iv s
  | .traceNotify dt iv => Sys2Proof.Machine.execTraceNotify dt iv s
  | .arpRx dt port sub src own => Sys2Proof.Machine.execArpRx dt port sub src own s
  | .icmpEchoRx dt port sub src len => Sys2Proof.Machine.execIcmpEchoRx dt port sub src len s
  | .igmpQueryRx dt port sub mld => Sys2Proof.Machine.execIgmpQueryRx dt port sub mld s
  | .i2cPointerWrite dt v => Sys2Proof.Machine.execI2cPointerWrite dt v s
  | .i2cRead dt len stop => Sys2Proof.Machine.execI2cRead dt len stop s
  | .i2cWindowRefresh dt => Sys2Proof.Machine.execI2cWindowRefresh dt s
  | .i2cTimeout dt => Sys2Proof.Machine.execI2cTimeout dt s
  | .releaseInstant dt n k => Sys2Proof.Machine.execReleaseInstant dt n k s
  | .audioDueInstant dt n k => Sys2Proof.Machine.execAudioDueInstant dt n k s
  | .audioFlowPacketTime dt iv short => Sys2Proof.Machine.execAudioFlowPacketTime dt iv short s
  | .sramCorrectedError dt d => Sys2Proof.Machine.execSramCorrectedError dt d s
  | .jtagInstruction dt kind capture => Sys2Proof.Machine.execJtagInstruction dt kind capture s

end Sys2Proof.Machine
end

