-- ==== Sys2Proof/Machine/Pins.lean ====
section
/-! DEFINITION. What the device's pins hold, read off the state (R41, R49, R154, R464, R501, R538). A pin has no state of its
own: each level follows from the registers and the blocks behind it. What leaves a pin as data is recorded in `sent`. -/

namespace Sys2Proof.Machine

/-- What a pin or a group of pins holds (R538). -/
inductive PinState where
  | low | high | released | highZ | idle | running | held | target | master | selfRefresh | access
deriving DecidableEq, Repr

/-- SAFE_N: high while LIVE and not snuffed (R49, R409). -/
def State.safePin (s : State) : PinState := if s.live && !s.snuffed then .high else .low

/-- FLAME: high while LIVE, not snuffed, and holder or unpaired (R49, R538). -/
def State.flamePin (s : State) : PinState :=
  if s.live && !s.snuffed && (!s.paired || s.holding) then .high else .low

def State.evtPin (s : State) : PinState := if s.evtLow then .low else .released

def State.throttlePin (s : State) : PinState :=
  if !s.chrysalis && s.bit Reg.THM_STATUS 31 then .low else .released

/-- NETp_TXn and LNTd_TX of die `d`: idle until E5, and on a die that does not work (R538). -/
def State.laneTxPin (s : State) (d : Nat) : PinState :=
  if !s.chrysalis && decide (5 ≤ s.phase) && s.dieOk d then .running else .idle

/-- MGMT_TX: running from the end of E2 (R42). -/
def State.mgmtTxPin (s : State) : PinState := if s.emg.mgmtUp then .running else .idle

/-- WICK_OUT_P/N: both low, or carrying words (R351). -/
def State.wickPin (s : State) : PinState :=
  if !s.chrysalis && s.sendsWords then .running else .low

/-- What the unit holds on the three pins of an audio port. -/
structure AudioPins where
  bclk : PinState
  fs : PinState
  data : PinState
deriving DecidableEq, Repr

/-- AUDn_BCLK, AUDn_FS and AUDn_DATA of port `p` (R130, R132, R145, R153, R154): DATA is driven on an output only; an AES3 port uses
DATA alone and holds BCLK low. A port of a die that does not work holds its pins as a snuffed unit does. R130 gives FS of an AES3 port
no level: it is held low as BCLK is. DESIGN CHOICE (log 50). -/
def State.audioPins (s : State) (p : Nat) : AudioPins :=
  let drives := fun (x : PinState) =>
    (⟨if s.audMode p = 2 then .low else x, if s.audMode p = 2 then .low else x, if s.audOut p then x else .highZ⟩ : AudioPins)
  let keeps : AudioPins := ⟨.held, .held, if s.audOut p then .held else .highZ⟩
  if s.chrysalis then ⟨.highZ, .highZ, .highZ⟩
  else if s.snuffed || !s.dieOk (p / 2) || (s.aport p).waits then keeps
  else if s.audFollows p then ⟨.highZ, .highZ, .highZ⟩
  else drives (if s.audRun p = 0 then .low else .running)

/-- MCLK_OUT, driven when MCLK_EN is 1 (R132, R156); and PPS_OUT. -/
def State.mclkPin (s : State) : PinState :=
  if s.chrysalis || !s.bit Reg.AUD_WC_CTRL 4 then .highZ else if s.snuffed then .held else .running
def State.ppsPin (s : State) : PinState := if s.chrysalis then .highZ else .running

/-- GDdm_* of controller `m` of die `d`: held in self-refresh after a warm reset until E4 (R441), otherwise RESET_N low until
then. -/
def State.memoryPin (s : State) (d m : Nat) : PinState :=
  if s.bit (Reg.MC_STATUS d m) 31 then .selfRefresh
  else if (s.mctl (2 * d + m)).phase ≠ .off then .running
  else if s.bit Reg.EMG_STATUS 10 then .selfRefresh else .low

/-- CFGA_* and CFGB_*: high-impedance, except while the lead die reads or writes a flash (R41, R538): in E3, in a FLASH
session, and while a wear-log record is being appended. Their RST_N is driven low at the start of E3 (`Sent.cfgReset`,
R533). -/
def State.cfgPin (s : State) : PinState :=
  if s.emg.mgmtUp && (decide (s.phase = 3) || s.emg.session.isSome || decide (s.emg.logQueue ≠ [])) then .access else .highZ

/-- PMB_CLK and PMB_DAT: released until E4 (R473). -/
def State.pmbusPin (s : State) : PinState := if s.chrysalis then .released else .master

/-- I2C_SCL and I2C_SDA: the target answers from the end of E0 (R42). -/
def State.i2cPin (s : State) : PinState := if s.emg.i2cUp then .target else .released

/-- TDO: high-impedance unless the instruction in force is IDCODE or boundary scan (R41, R61, R536). -/
def State.tdoPin (s : State) : PinState := if s.mgt.jtag = 1 ∨ s.mgt.jtag = 2 then .running else .highZ

end Sys2Proof.Machine
end

