-- ==== Sys2Proof/Safety.lean ====
section
/-! DEFINITION. What a safe run is, in the terms claims use: the canonical forms of the state's tables, and the relations that
every step keeps. -/

namespace Sys2Proof.Machine

/-- The register file is in its canonical form: addresses strictly rising, nothing listed that equals the reset value. -/
def State.regsWf (s : State) : Bool := sparseWf resetOf s.regs

/-- Both flashes are in their canonical form. -/
def State.flashWf (s : State) : Bool := Memory.wf s.flashA && Memory.wf s.flashB

/-- A strictly rising list. -/
def rising : List Nat → Bool
  | [] => true
  | a :: r => r.all (fun b => decide (a < b)) && rising r

/-- A memory channel is in its canonical form: bytes in rising addresses, none listed that is 0; poisoned blocks rising. -/
def MChan.wf (x : MChan) : Bool := sparseWf zeroed x.mem && rising x.poison

/-- Every memory channel is in its canonical form. -/
def State.picWf (s : State) : Bool := s.pic.chans.all MChan.wf

/-- The tables of the state are in their canonical forms. -/
def State.wf (s : State) : Bool := s.regsWf && s.flashWf && s.picWf

/-- Every fuse bit of `f` is blown in `g` (R61: fuse bits only go from 0 to 1). -/
def Fuses.le (f g : Fuses) : Prop :=
  f.rootHash &&& g.rootHash = f.rootHash ∧ (f.claimLock = true → g.claimLock = true) ∧
  f.antiRollback &&& g.antiRollback = f.antiRollback

/-- Registers that the end of a command may change because events were raised (R498 to R502): EVT_HEAD, EVT_TAIL, EVT_PENDING,
EVT_LOST, the severity counts, the source table and the event ring. -/
abbrev eventReg (a : Nat) : Prop :=
  (0x2004 ≤ a ∧ a < 0x2014) ∨ (0x2020 ≤ a ∧ a < 0x2030) ∨ (0x4000 ≤ a ∧ a < 0x5000) ∨ (0xA0000 ≤ a ∧ a < 0xB0000)

/-- Command `i` completes in `s`: exec answers a next state, and `P` holds of it. -/
def Completes (i : Instr) (s : State) (P : State → Prop) : Prop := ∃ t, exec i s = .next t ∧ P t

/-- Every field but the register file, the event unit, the subscriptions' counts and the device time is that of `s`, for the
commands that only write registers. -/
def State.sameBut (s t : State) : Prop :=
  t.pending = s.pending ∧ t.sent = s.sent ∧ t.fuses = s.fuses ∧ t.flashA = s.flashA ∧ t.flashB = s.flashB ∧
  t.emg = s.emg ∧ t.bus = s.bus ∧ t.twin = s.twin ∧ t.link = s.link ∧ t.saf = s.saf ∧ t.links = s.links ∧
  t.cap = s.cap ∧ t.chans = s.chans ∧ t.sch = s.sch ∧ t.ing = s.ing ∧ t.aud = s.aud ∧ t.egr = s.egr ∧ t.cal = s.cal ∧
  t.pic = s.pic ∧ t.plant = s.plant

/-- Every register outside `l` and outside what event records write reads in `t` as in `s`. -/
def State.regsBut (s t : State) (l : List Nat) : Prop := ∀ a, a ∉ l → ¬ eventReg a → t.rd a = s.rd a

/-- `t` is `s` after `dt` ticks with one entry of `kind` for address `a` in the abort log of die `d` (R494, R495). -/
def State.loggedAbort (s : State) (dt : Nat) (t : State) (d kind a : Nat) : Prop :=
  let i := s.fld (Reg.FAB_HEAD d) 5 0
  let e := Reg.FAB_ABORT_LOG d (4 * i)
  t.rdN e = (s.elapse dt).phaseTime ∧ t.rdN (e + 4) = a % 4294967296 ∧ t.fld (e + 8) 31 28 = kind ∧
  t.fld (Reg.FAB_HEAD d) 5 0 = (i + 1) % 64 ∧ t.rdN (Reg.FAB_ABORTS d) = (s.rdN (Reg.FAB_ABORTS d) + 1) % 4294967296 ∧
  s.regsBut t [e, e + 4, e + 8, e + 12, Reg.FAB_HEAD d, Reg.FAB_ABORTS d]

/-- The block acts on the message as an operation `op` (R504, R506, R507, R509). -/
def State.accepts (s : State) (m : BeaconMsg) (op : Nat) : Prop :=
  s.beaconReach m = true ∧ m.op = op ∧ msgFormOk m = true ∧ m.flags % 4 = 0 ∧ m.waiting < 16 ∧ s.tagOk m = true ∧
  m.session = s.rdN Reg.MGT_SESSION ∧ s.seqHigh (msgRecovery m) < m.seq

/-- The Lantern frame of header `h` is accepted as one of `type`: the unit is paired and has locked lanes, the CRC is good, and
but for cursors it bears the next LSEQ (R398). -/
def State.takesFrame (s : State) (h : LHeader) (type : Nat) : Prop :=
  s.paired = true ∧ s.fld Reg.LNK_STATUS 15 8 ≠ 0 ∧ h.crcOk = true ∧ h.type = type ∧
  (type = 9 ∨ h.lseq = (s.link.rxSeq + 1) % 65536)

/-- No engine waits for work, so that a command has nothing to dispatch. -/
def State.noneWaits (s : State) : Prop := ∀ x ∈ s.sch.engines, x.2.isWaiting = false

end Sys2Proof.Machine
end

