-- ==== Sys2Proof/Certificates/Slice0/Obligations.lean ====
section
/-! DEFINITION. The statements for the provers. -/

open Sys2Proof Sys2Proof.Machine

/-- A step runs the command at the front of the queue. With c at the front of the queue, step answers what exec
answers for c on the state with the queue's rest. With nothing waiting, one tick of the device-time counter passes
(the model's choice, log entry 1). (spec/opcode_table.json, 01_architecture.md.) -/
def Obligations.FrontCommandRuns : Prop :=
  (∀ (s : State) (c : Instr) (r : List Instr), s.pending = c :: r → step s = exec c { s with pending := r }) ∧
  (∀ s : State, s.pending = [] → step s = .next (s.elapse 1))

/-- After reset every register reads 0 but those whose description states another value. At State.reset the registers
with a stated reset value read it (EVT_CTRL, CAP_AVS, CAP_AVS_CFG, THM_CTRL, TMG_STATUS, MC_CTRL, DIE_STATUS, the
source table), every other package, context and port register reads 0, and memories, fuses, queue and channels hold
nothing. IDN_PART and IDN_SERIAL, loaded from the fuses at E0, are left out. That memories and tables hold nothing is
the model's choice, log entry 8. (R11, 22_register_map.md, 21_events_telemetry.md, 19_thermal_ageing.md.) -/
def Obligations.ResetRegisters : Prop :=
  State.reset.rd Reg.EVT_CTRL = 1 ∧ State.reset.rd Reg.CAP_AVS = 0x035C026C#32 ∧ State.reset.rd Reg.CAP_AVS_CFG = 30 ∧
  State.reset.rd Reg.THM_CTRL = 0x626A01F4#32 ∧ (∀ p < 8, State.reset.rd (Reg.TMG_STATUS p) = 0x40000000#32) ∧
  (∀ d < 8, State.reset.rdN (Reg.DIE_STATUS d) = d ∧ ∀ m < 2, State.reset.rd (Reg.MC_CTRL d m) = 0x00400884#32) ∧
  (∀ n < 1024, State.reset.rd (Reg.EVT_SRC n) = if sourceAssigned n = true then
      BitVec.ofNat 32 (2 ^ 31 + (if 2 ≤ severityOf n then 2 ^ 30 else 0) + severityOf n * 2 ^ 28) else 0) ∧
  (∀ a, a < 0x01000000 → a ∉ [Reg.EVT_CTRL, Reg.CAP_AVS, Reg.CAP_AVS_CFG, Reg.THM_CTRL, Reg.IDN_PART] →
    (∀ i < 4, a ≠ Reg.IDN_SERIAL i) →
    ¬ (0x4000 ≤ a ∧ a < 0x5000) → (∀ p < 8, a ≠ Reg.TMG_STATUS p) → State.reset.rd a = 0) ∧
  State.reset.flashA = [] ∧ State.reset.flashB = [] ∧ State.reset.fuses = ⟨0, false, 0⟩ ∧ State.reset.pending = [] ∧
  State.reset.chans = List.replicate 96 Chan.reset ∧ State.reset.clk.dtc = 0 ∧ State.reset.emg.started = false

/-- The tables of the state after reset are in canonical form. Register file, both flashes and every memory channel
are in canonical form at reset. (02_emergence_cocoon.md, 17_picture_memory.md, 22_register_map.md.) -/
def Obligations.ResetIsWellFormed : Prop := State.reset.wf = true

/-- Every step keeps the register file, the flashes and picture memory in canonical form. From every state in which
the register file, both flashes and every memory channel list strictly rising addresses and no entry equal to what an
unlisted address reads as, and each channel's poisoned blocks rise, whatever command runs, the next state has that
form again. (02_emergence_cocoon.md, 17_picture_memory.md, 22_register_map.md.) -/
def Obligations.EveryStepKeepsCanonicalTables : Prop :=
  ∀ s t : State, s.wf = true → step s = .next t → t.wf = true

/-- No step ever clears a fuse bit. Whatever command runs in whatever state, every root hash fuse, CLAIM_LOCK and
every anti-rollback fuse that is blown before the step is blown after it (the first sentence of R61). (R61,
02_emergence_cocoon.md.) -/
def Obligations.FuseBitsOnlyRise : Prop := ∀ s t : State, step s = .next t → Fuses.le s.fuses t.fuses

/-- A step takes the front command and nothing else, unsends nothing and draws no value twice. After a step the queue
is the rest of the queue before. What has left the block stays as it was, with new emissions before it, and the counts
of drawn values and of free values never fall, so that no nonce or session value is drawn twice.
(spec/opcode_table.json, R60, R507.) -/
def Obligations.QueueIsFirstInFirstOut : Prop :=
  ∀ s t : State, step s = .next t →
    t.pending = s.pending.tail ∧ s.sent <:+ t.sent ∧ s.draws ≤ t.draws ∧ s.fresh ≤ t.fresh

/-- No command stops the block. Every command of the opcode table answers a next state in every state and with every
operand (that one which the state does not admit answers one too is the model's choice, log entry 4).
(spec/opcode_table.json.) -/
def Obligations.EveryCommandAnswersANextState : Prop := ∀ (i : Instr) (s : State), ∃ t, exec i s = .next t

/-- Every command writes the event records of what it raised before it ends. After any command nothing that was raised
waits for its record, and a tick of an idle block keeps that. (R500.) -/
def Obligations.NoRaiseWaitsBetweenCommands : Prop :=
  (∀ (i : Instr) (s t : State), exec i s = .next t → t.evt.raises = []) ∧
  (∀ s t : State, s.pending = [] → s.evt.raises = [] → step s = .next t → t.evt.raises = [])

/-- RESET_N, EMG_RESET, the automatic reset and rail loss leave every register at its reset value, and an EMG_RESET
not honoured is counted. RESET_N in a unit that has begun, EMG_RESET with its key where it is honoured, and the
automatic reset of a snuffed unit, AUTO_DELAY after the snuff, end in a warm reset: every register reads its reset
value (those that E0 loads from the fuses 0 until then, log entry 48) but EMG_STATUS, which shows WARM, and the two
records of the last snuff; E0 has not begun; fuses and flash are kept. The cause recorded is the first snuff's: 1 for
RESET_N, 2 for EMG_RESET where the unit was not snuffed. After RESET_N, SAFE_N and FLAME are low. A rail that has
stood outside its range is a cold reset: every register reads its reset value. A wrong key, or the key in a unit that
is neither halted nor snuffed nor LIVE with RESET_LIVE, adds 1 to MGT_REFUSED and changes no other register and no
other state than the event unit's. (R12, R44, R45, R46, R73, R410.) -/
def Obligations.ResetsClearEveryRegister : Prop :=
  (∀ dt (s : State), s.emg.started = true → Completes (.resetNAssert dt) s fun t =>
    t.emg.started = false ∧ t.emg.resetN = false ∧ t.safePin = .low ∧ t.flamePin = .low ∧ t.fuses = s.fuses ∧ t.flashA = s.flashA ∧ t.flashB = s.flashB ∧
    t.bit Reg.EMG_STATUS 10 = true ∧ (s.snuffed = false → t.rd Reg.SAF_LAST_SNUFF = 0x80000001#32) ∧
    ∀ a, a ∉ [Reg.EMG_STATUS, Reg.SAF_LAST_SNUFF, Reg.SAF_LAST_SNUFF_T] → t.rd a = resetOf a) ∧
  (∀ dt (s : State), s.halted = true ∨ s.snuffed = true ∨ (s.live = true ∧ s.emg.resetLive = true) →
    Completes (.emgReset dt 0xA55A#32) s fun t =>
      t.emg.started = false ∧ t.fuses = s.fuses ∧ t.flashA = s.flashA ∧ t.flashB = s.flashB ∧
      t.bit Reg.EMG_STATUS 10 = true ∧ (s.snuffed = false → t.rd Reg.SAF_LAST_SNUFF = 0x80000002#32) ∧
      ∀ a, a ∉ [Reg.EMG_STATUS, Reg.SAF_LAST_SNUFF, Reg.SAF_LAST_SNUFF_T] → t.rd a = resetOf a) ∧
  (∀ dt (s : State), s.snuffed = true → s.bit Reg.SAF_CTRL 31 = true → (s.elapse dt).autoDue = true → (s.fld Reg.SAF_STATUS 7 0 = 7 →
      ∀ d < 8, (BitVec.ofNat 16 (s.fld (Reg.THD_STATUS d) 15 0)).toInt < 800) → Completes (.autoResetExpiry dt) s fun t =>
      t.emg.started = false ∧ t.fuses = s.fuses ∧ t.flashA = s.flashA ∧ t.flashB = s.flashB ∧
      t.bit Reg.EMG_STATUS 10 = true ∧ t.fld Reg.SAF_LAST_SNUFF 7 0 = s.fld Reg.SAF_STATUS 7 0 ∧
      ∀ a, a ∉ [Reg.EMG_STATUS, Reg.SAF_LAST_SNUFF, Reg.SAF_LAST_SNUFF_T] → t.rd a = resetOf a) ∧
  (∀ dt rail uv (s : State), railInRange rail uv = false → Completes (.railLoss dt rail uv) s fun t =>
      t.emg.started = false ∧ t.fuses = s.fuses ∧ t.flashA = s.flashA ∧ t.flashB = s.flashB ∧ ∀ a, t.rd a = resetOf a) ∧
  (∀ dt (key : Word) (s : State),
    ¬ (key = 0xA55A#32 ∧ (s.halted = true ∨ s.snuffed = true ∨ (s.live = true ∧ s.emg.resetLive = true))) →
    Completes (.emgReset dt key) s fun t => t.rdN Reg.MGT_REFUSED = (s.rdN Reg.MGT_REFUSED + 1) % 4294967296 ∧
      s.regsBut t [Reg.MGT_REFUSED] ∧ s.sameBut t)

/-- E0 begins with the rails in range, and E1 begins with every die in range testing. With VCORE0, VCORE7, every rail
that was in range at the reset and the other five rails in range, a unit that has not begun begins E0 with the device-
time counter at 0 on the pilot. At the end of E0 the I²C target is up, CLAIMED and FUSE_COUNT show the fuses, nonce
and session value are two fresh draws, the phase is 1, and exactly the dies whose rail is in range begin their self-
test. (R43, R47, R320, R517.) -/
def Obligations.EarlyPhasesBegin : Prop :=
  (∀ dt (v : List Nat) rails (s : State), s.emg.started = false → railsInRange rails = true →
    vcoreInRange (v.getD 0 0) = true → vcoreInRange (v.getD 7 0) = true →
    (∀ d < 8, s.emg.rails.getD d false = true → vcoreInRange (v.getD d 0) = true) →
    Completes (.e0Start dt v rails) s fun t => t.emg.started = true ∧ t.clk.dtc = 0 ∧ t.fld Reg.REF_STATUS 17 16 = 2 ∧
      (∀ d < 8, t.emg.rails.getD d false = vcoreInRange (v.getD d 0)) ∧ s.regsBut t [Reg.REF_STATUS]) ∧
  (∀ dt (s : State), s.emg.started = true → s.phase = 0 → s.emg.i2cUp = false → s.emg.tests.length = 8 →
    Completes (.e0Complete dt) s fun t => t.phase = 1 ∧ t.emg.i2cUp = true ∧ t.draws = s.draws + 2 ∧
      t.bit Reg.EMG_STATUS 9 = s.fuses.claimLock ∧ t.fld Reg.EMG_IMAGE 23 16 = s.fuses.count % 256 ∧
      t.rd Reg.MGT_SESSION = (Config.draw (s.draws + 1)).setWidth 32 ∧
      ∀ d < 8, t.dieTest d = if s.emg.rails.getD d false = true then .testing else s.dieTest d)

/-- A die passes or fails its self-test, and a bound that expires fails it. In E1 a rail that comes into range starts
its die's test; a test that ends passed on a die below 100 °C passes it, any other end fails it; a rail still out of
range and a test beyond its 45 ms fail the die. (R43, R47, R468.) -/
def Obligations.SelfTestsEnd : Prop :=
  (∀ dt (d : Fin 8) (s : State), s.phase = 1 → s.emg.tests.length = 8 →
    (s.dieTest d = .waiting → Completes (.vcoreRailInRange dt d) s fun t => t.dieTest d = .testing ∧
      s.regsBut t []) ∧
    (s.dieTest d = .waiting → Completes (.vcoreRangeTimeout dt d) s fun t => t.dieTest d = .failed) ∧
    (s.dieTest d = .testing → Completes (.e1DieTimeout dt d) s fun t => t.dieTest d = .failed) ∧
    (s.dieTest d = .testing → ∀ passed, Completes (.dieSelfTestDone dt d passed) s fun t =>
      t.dieTest d = if passed = true ∧ (BitVec.ofNat 16 (s.fld (Reg.THD_STATUS d) 15 0)).toInt < 800 then .passed
        else .failed))

/-- E2, E3, HALTED, the restore window, E5 and E6 end as the phase table says. E2 in which every die has passed or
failed and none that passed is isolated ends in E3 with the links between dies that passed up as trained, DIES_OK, the
lead die (D0 if it passed, otherwise D7), DIE_STATUS of the dies that passed, MD_STATUS of the others and the MGMT
lane searching. E3 with a copy chosen ends in E4 with that copy running: sequence number, name and rollback commit of
its header, and a claimed unit; with none chosen in HALTED, EMG_FAIL 2 where no copy has a header, 1 where no flash
answers. A rescan goes back to E3 with every other register kept and both flashes reset. The restore window, closed by
the host or by time, gives each receiver its holding copy where it is whole, signed, of its context and in range, and
otherwise shows the refusal. E5 ends in E6 with every working die's raises to 1,000 plus the margin due: an unlocked
unit stays there, a locked one with no raise possible goes on. E6 at its bound goes on, to E7 or with no twin section
to E8, in HOLDOVER where it had locked; but for raises still to be made, for which it waits. (R47, R50, R53, R63, R71,
R73, R334, R475.) -/
def Obligations.LaterPhasesFollow : Prop :=
  (∀ dt (up : List Bool) (s : State), s.phase = 2 → (∀ d < 8, s.dieTest d = .passed ∨ s.dieTest d = .failed) →
    (s.dieTest 0 = .passed ∨ s.dieTest 7 = .passed) →
    (∀ d < 8, s.dieTest d = .passed → ∃ l < 12, up.getD l false = true ∧ s.dieTest (linkEnds l).1 = .passed ∧
      s.dieTest (linkEnds l).2 = .passed ∧ ((linkEnds l).1 = d ∨ (linkEnds l).2 = d)) →
    Completes (.e2Complete dt up) s fun t => t.phase = 3 ∧ t.emg.mgmtUp = true ∧
      t.emg.links = ((List.range 12).map fun l => up.getD l false && decide (s.dieTest (linkEnds l).1 = .passed) &&
        decide (s.dieTest (linkEnds l).2 = .passed)) ∧
      t.fld Reg.EMG_STATUS 22 20 = (if s.dieTest 0 = .passed then 0 else 7) ∧
      t.fld Reg.SAF_STATUS 26 24 = t.fld Reg.EMG_STATUS 22 20 ∧
      t.bit (Reg.DIE_STATUS (t.fld Reg.EMG_STATUS 22 20)) 30 = true ∧
      t.fld (Reg.LN_STATUS (t.fld Reg.EMG_STATUS 22 20) 9) 26 24 = 1 ∧
      (∀ d < 8, t.bit Reg.EMG_STATUS (24 + d) = decide (s.dieTest d = .passed)) ∧
      (∀ d < 8, (s.dieTest d = .passed → t.bit (Reg.DIE_STATUS d) 31 = true) ∧
        (s.dieTest d = .failed → t.bit (Reg.MD_STATUS d) 31 = true)) ∧
      t.rdN (Reg.EMG_T_E 3) = (s.elapse dt).usE0 % 4294967296 ∧ .cfgReset (s.elapse dt).ns ∈ t.sent ∧
      t.fuses = s.fuses ∧ t.flashA = s.flashA ∧ t.flashB = s.flashB) ∧
  (∀ dt a b (s : State), s.phase = 3 → a = true ∨ b = true →
    (∀ h, (s.choose (s.candidates fun p => if p = 0 then a else b)).2 = some h →
      Completes (.imageLoadDone dt a b) s fun t =>
        t.phase = 4 ∧ t.emg.imageLoaded = true ∧ t.emg.running = some (h.port, h.copy) ∧
        t.emg.rollbackCommit = h.commit ∧ t.fuses.claimLock = true ∧ t.rd64 Reg.EMG_SEQ_LO = h.sequence % 2 ^ 64 ∧
        (∀ i < 8, t.rdN (Reg.IDN_NAME i) = leNat (((flashBytes (s.flash h.port) (copyBase h.copy + 0x20) 32).drop (4 * i)).take 4)) ∧
        t.rdN (Reg.EMG_T_E 4) = (s.elapse dt).usE0 % 4294967296 ∧ t.flashA = s.flashA ∧ t.flashB = s.flashB) ∧
    ((s.choose (s.candidates fun p => if p = 0 then a else b)).2 = none →
      Completes (.imageLoadDone dt a b) s fun t => t.phase = 10 ∧
        (s.candidates (fun p => if p = 0 then a else b) = [] → t.fld Reg.EMG_FAIL 7 0 = 2))) ∧
  (∀ dt (s : State), s.phase = 3 → Completes (.imageLoadDone dt false false) s fun t =>
    t.phase = 10 ∧ t.fld Reg.EMG_FAIL 7 0 = 1) ∧
  (∀ dt (s : State), s.phase = 10 → s.evt.raises = [] → Completes (.haltedRescan dt) s fun t => t.phase = 3 ∧
    t.sent = .cfgReset (s.elapse dt).ns :: s.sent ∧ t.rdN (Reg.EMG_T_E 3) = (s.elapse dt).usE0 % 4294967296 ∧
    t.emg = s.emg ∧ t.fuses = s.fuses ∧ t.flashA = s.flashA ∧ t.flashB = s.flashB ∧
    s.regsBut t [Reg.EMG_STATUS, Reg.EMG_T_E 3]) ∧
  (∀ dt (s : State), s.bit Reg.EMG_STATUS 11 = true →
    (Completes (.restoreDone dt) s fun t => t.bit Reg.EMG_STATUS 11 = false ∧ ∀ r ∈ allRecvs, (t.recv r).held = [] ∧
      (∀ v, s.heldSetting r = some v → (t.recv r).accepted = some v) ∧
      (s.heldSetting r = none → (t.recv r).accepted = (s.recv r).accepted ∧ t.bit (calStat r) 29 = true)) ∧
    (Completes (.restoreWindowTimeout dt) s fun t => t.bit Reg.EMG_STATUS 11 = false ∧
      ∀ r ∈ allRecvs, (t.recv r).held = [] ∧
        (∀ v, s.heldSetting r = some v → (t.recv r).accepted = some v) ∧
        (s.heldSetting r = none → (t.recv r).accepted = (s.recv r).accepted ∧ t.bit (calStat r) 29 = true))) ∧
  (∀ dt (s : State), s.phase = 5 → s.plant.avs.length = 8 →
    (s.timeState ≠ 2 → s.timeState ≠ 4 →
      (Completes (.e5Complete dt) s fun t => t.phase = 6 ∧ t.rdN (Reg.EMG_T_E 6) = (s.elapse dt).usE0 % 4294967296 ∧
        (∀ d < 8, s.dieOk d = true → (t.avs d).raiseTo = some (1000 + s.fld Reg.CAP_AVS_CFG 7 0)) ∧
        s.regsBut t [Reg.EMG_STATUS, Reg.EMG_T_E 6]) ∧
      (Completes (.laneUpTimeout dt) s fun t => t.phase = 6 ∧ t.rdN (Reg.EMG_T_E 6) = (s.elapse dt).usE0 % 4294967296 ∧
        (∀ d < 8, s.dieOk d = true → (t.avs d).raiseTo = some (1000 + s.fld Reg.CAP_AVS_CFG 7 0)) ∧
        s.regsBut t [Reg.EMG_STATUS, Reg.EMG_T_E 6])) ∧
    (s.timeState = 2 ∨ s.timeState = 4 → (∀ d < 8, s.canStep d true = false) →
      (Completes (.e5Complete dt) s fun t => t.phase = if s.emg.hasTwin then 7 else 8) ∧
      (Completes (.laneUpTimeout dt) s fun t => t.phase = if s.emg.hasTwin then 7 else 8))) ∧
  (∀ dt (s : State), s.phase = 6 → Completes (.timeAcquisitionTimeout dt) s fun t =>
    (s.clk.everLocked = true → s.timeState = 1 → t.timeState = 3) ∧
    (¬ (s.clk.everLocked = true ∧ s.timeState = 1) → t.timeState = s.timeState) ∧
    if s.avsRaises then t.phase = 6 ∧ t.emg.e6Over = true
    else t.phase = (if s.emg.hasTwin then 7 else 8) ∧ t.rdN (Reg.EMG_T_E t.phase) = (s.elapse dt).usE0 % 4294967296)

/-- A FLASH session opens, takes contiguous data, and ends by commit, abort or timeout. OPEN of an allowed copy begins
a session at offset 0. While its copy may be written, DATA of 1 to 1,024 bytes at the next offset within 31 MiB
advances it, and the bytes beyond the first 4 KiB read back from the flash, while every byte outside the copy's 31 MiB
reads as before. COMMIT of a copy that may be written programs the held first 4 KiB and ends the session: where the
copy is then valid, a halted unit begins again at E3; otherwise its first 64 KiB are erased and EMG_FAIL shows the
fault. ABORT and 10 s without a message end the session of a copy that the unit does not run, which then reads erased
over its 31 MiB. (R66, R67, R508.) -/
def Obligations.FlashSessions : Prop :=
  (∀ dt (m : BeaconMsg) (p c : Fin 2) (s : State), (s.elapse dt).accepts m 5 → s.flashAllowed p c = true →
    s.emg.session = none → Completes (.flashOpen dt m p c) s fun t => t.emg.session = some ⟨p, c, 0, []⟩ ∧
      t.flashA = s.flashA ∧ t.flashB = s.flashB) ∧
  (∀ dt (m : BeaconMsg) (f : FlashSession) (data : List Byte) (s : State), (s.elapse dt).accepts m 5 →
    s.emg.session = some f → s.flashAllowed f.port f.copy = true → data ≠ [] → data.length ≤ 1024 → f.next + data.length ≤ 32505856 →
    Completes (.flashData dt m f.next data) s fun t =>
      t.emg.session = some ⟨f.port, f.copy, f.next + data.length, f.held ++ data.take (4096 - f.next)⟩ ∧
      (∀ i, max f.next 4096 ≤ i → i < f.next + data.length →
        some (sparseGet erased (t.flash f.port) (copyBase f.copy + i)) = data[i - f.next]?) ∧
      ∀ q b, (q ≠ f.port ∧ (q = 0 ↔ f.port ≠ 0)) ∨ b < copyBase f.copy ∨ copyBase f.copy + 32505856 ≤ b →
        sparseGet erased (t.flash q) b = sparseGet erased (s.flash q) b) ∧
  (∀ dt (m : BeaconMsg) (f : FlashSession) (s : State), (s.elapse dt).accepts m 5 → s.emg.session = some f →
    (s.flashAllowed f.port f.copy = true →
      (commitFault s.fuses (flashProgram (s.flash f.port) (copyBase f.copy) f.held) f.port f.copy = none →
        Completes (.flashCommit dt m) s fun t => t.emg.session = none ∧
          t.flash f.port = flashProgram (s.flash f.port) (copyBase f.copy) f.held ∧
          t.phase = (if s.halted then 3 else s.phase) ∧ t.fuses = s.fuses) ∧
      (∀ c ty o, commitFault s.fuses (flashProgram (s.flash f.port) (copyBase f.copy) f.held) f.port f.copy = some (c, ty, o) →
        Completes (.flashCommit dt m) s fun t => t.emg.session = none ∧ t.phase = s.phase ∧
          t.flash f.port = flashErase (flashProgram (s.flash f.port) (copyBase f.copy) f.held) (copyBase f.copy) 65536 ∧
          t.rdN Reg.EMG_FAIL = (ty % 65536 * 65536 + c) % 4294967296 ∧ t.rdN Reg.EMG_FAIL_OFFSET = o % 4294967296 ∧
          t.fuses = s.fuses)) ∧
    (s.emg.running ≠ some (f.port, f.copy) → Completes (.flashAbort dt m) s fun t => t.emg.session = none ∧
      ∀ i < 32505856, sparseGet erased (t.flash f.port) (copyBase f.copy + i) = 0xFF#8)) ∧
  (∀ dt (f : FlashSession) (s : State), s.emg.session = some f → s.emg.running ≠ some (f.port, f.copy) →
    Completes (.flashSessionTimeout dt) s fun t =>
    t.emg.session = none ∧ ∀ i < 32505856, sparseGet erased (t.flash f.port) (copyBase f.copy + i) = 0xFF#8)

/-- A key claim claims the unit where it is signed and covers the blown bits, and the waiting wear-log record is
programmed under the next sequence number. On an unclaimed unit in HALTED a KEY_CLAIM of 193 bytes draws a new nonce
whatever comes of it. Where the signature over serial number and nonce verifies and the key's hash covers every blown
bit, CLAIM_LOCK and the hash bits are blown and the unit restarts at E3; otherwise no fuse is blown. With a record
waiting, and with the oldest sector blank or the head's sector holding room beyond what must be kept of it,
WEAR_LOG_APPEND takes the first one, the next page holds its record, and EMG_LOG_HEAD shows one more than before, as
does EMG_BOOTS for a boot record. (R59, R60, R61, R69, R70.) -/
def Obligations.KeyClaimsAndWearLog : Prop :=
  (∀ dt (m : BeaconMsg) (s : State), (s.elapse dt).accepts m 6 → m.payload.length = 193 → s.fuses.claimLock = false →
    s.halted = true → Completes (.keyClaim dt m) s fun t =>
      t.rd64 Reg.EMG_NONCE_LO = s.drawn.toNat ∧ t.draws = s.draws + 1 ∧
      if ecdsaVerify (m.payload.take 97) ((m.payload.drop 97).take 48) (m.payload.drop 145)
          (Config.serial ++ leBytes 8 (s.rd64 Reg.EMG_NONCE_LO)) = true ∧ covers s.fuses (m.payload.take 97) = true
      then t.fuses = ⟨s.fuses.rootHash ||| hashBits (m.payload.take 97), true, s.fuses.antiRollback⟩ ∧ t.phase = 3 ∧
        t.bit Reg.EMG_STATUS 9 = true
      else t.fuses = s.fuses ∧ t.phase = s.phase) ∧
  (∀ dt (r : LogReq) (rest : List LogReq) (s : State), s.emg.logQueue = r :: rest →
    s.sectorBlank s.oldestSector = true ∨ ((s.elapse dt).keepers s.oldestSector).length < s.freePages →
    Completes (.wearLogAppend dt) s fun t => t.emg.logQueue = rest ∧
      t.page s.emg.logNext = logRecord (s.rdN Reg.EMG_LOG_HEAD + 1) r.type (s.elapse dt).ns r.payload ∧
      t.rdN Reg.EMG_LOG_HEAD = (s.rdN Reg.EMG_LOG_HEAD + 1) % 4294967296 ∧
      t.rdN Reg.EMG_BOOTS = (s.rdN Reg.EMG_BOOTS + b2n (decide (r.type = 1))) % 4294967296)

/-- A reserved offset reads 0, ignores writes, and is neither counted nor logged. Where an offset within a block's
extent is not named by its table (and its die is there), a read returns 0 and sets no latch, a write changes no
register and no latch or held half, so that nothing is counted under R12 and no abort log entry is written. So it is
for the reserved _HI register of a pair, whose address is such an offset. (R514.) -/
def Obligations.ReservedOffsets : Prop :=
  ∀ dt (mdie : Fin 8) (mid : Fin 4) (a : Nat) (v : Word) (s : State), regAt a = .reserved →
    (s.elapse dt).decodes a = true →
    (Completes (.reg64LoRead dt mdie mid a) s fun t => t.sent = .busRead mdie mid a 0 :: s.sent ∧ t.bus = s.bus ∧
      s.regsBut t []) ∧
    (Completes (.registerWrite dt mdie mid a v) s fun t => t.bus = s.bus ∧ t.sent = s.sent ∧ s.regsBut t []) ∧
    (Completes (.reg64HiWrite dt mdie mid a v) s fun t => t.bus = s.bus ∧ t.sent = s.sent ∧ s.regsBut t [])

/-- A _LO read latches _HI, a _LO write is held, and the _HI write brings both halves into force. For a decoded pair,
reading _LO returns the word shown and latches the word that _HI shows for that master; a latched _HI reads the latch
and drops it; a write of a writable _LO is held for its master and changes no register; a write of CRC_POLY_HI of a
host's unit sets the pair to the held lower half and the written upper half, cut to the unit's width. (R10, R485.) -/
def Obligations.PairsAreLatchedPerMaster : Prop :=
  (∀ dt (mdie : Fin 8) (mid : Fin 4) (a : Nat) (d : RegDef) (s : State), regAt a = .reg d → d.half = 1 →
    (s.elapse dt).decodes a = true → Completes (.reg64LoRead dt mdie mid a) s fun t =>
      let p := (s.elapse dt).posted mdie mid a
      t.sent = .busRead mdie mid a (p.shown a) :: s.sent ∧
      t.latchOf (masterNo mdie mid) (a + 4) = some (BitVec.ofNat 32 (p.shown (a + 4))) ∧
      (∀ m b, (m, b) ≠ (masterNo mdie mid, a + 4) →
        ¬ (a = Reg.DTC_NS_LO ∧ (m, b) = (masterNo mdie mid, Reg.DTC_FRAC)) → t.latchOf m b = s.latchOf m b) ∧
      s.regsBut t []) ∧
  (∀ dt (mdie : Fin 8) (mid : Fin 4) (a : Nat) (d : RegDef) (w : Word) (s : State), regAt a = .reg d → d.half = 2 →
    (s.elapse dt).decodes a = true → s.latchOf (masterNo mdie mid) a = some w →
    Completes (.reg64LoRead dt mdie mid a) s fun t => t.sent = .busRead mdie mid a w.toNat :: s.sent ∧
      t.latchOf (masterNo mdie mid) a = none ∧ s.regsBut t []) ∧
  (∀ dt (mdie : Fin 8) (mid : Fin 4) (a : Nat) (d : RegDef) (v : Word) (s : State), regAt a = .reg d → d.half = 1 →
    writable d = true → (s.elapse dt).decodes a = true → Completes (.reg64LoWrite dt mdie mid a v) s fun t =>
      t.heldLo (masterNo mdie mid) a = v ∧
      (∀ m b, (m, b) ≠ (masterNo mdie mid, a) → t.heldLo m b = s.heldLo m b) ∧ s.regsBut t []) ∧
  (∀ dt (mdie : Fin 8) (mid : Fin 4) (d u : Fin 8) (v : Word) (s : State), 4 ≤ u.val →
    (s.elapse dt).decodes (Reg.CRC_POLY_LO d u + 4) = true →
    Completes (.reg64HiWrite dt mdie mid (Reg.CRC_POLY_LO d u + 4) v) s fun t =>
      t.rd64 (Reg.CRC_POLY_LO d u) = ((s.heldLo (masterNo mdie mid) (Reg.CRC_POLY_LO d u)).toNat + 4294967296 * v.toNat) %
        2 ^ min 64 (s.fld (Reg.CRC_CFG d u) 6 0) ∧
      s.regsBut t [Reg.CRC_POLY_LO d u, Reg.CRC_POLY_LO d u + 4])

/-- A read of DTC_NS_LO latches DTC_NS_HI and DTC_FRAC, and DOFF_LO and DTC_INC_LO latch their upper halves. For each
master: a read of DTC_NS_LO returns the low word of the counter as it stands at the read (a DTC sample that is not
older than a tick), and the master's next reads of DTC_NS_HI and DTC_FRAC return the other two words of that same
counter value, however far device time has gone on; a read of DOFF_LO or DTC_INC_LO latches the upper half of the
value shown at that instant. (R324.) -/
def Obligations.TimePairsFormOneSample : Prop :=
  ∀ dt (mdie : Fin 8) (mid : Fin 4) (s : State),
    let x := (s.elapse dt).clk
    (Completes (.reg64LoRead dt mdie mid Reg.DTC_NS_LO) s fun t =>
      t.sent = .busRead mdie mid Reg.DTC_NS_LO (x.dtc / 2 ^ 32 % 2 ^ 32) :: s.sent ∧
      (∀ dt', Completes (.reg64LoRead dt' mdie mid Reg.DTC_NS_HI) t fun u =>
        u.sent = .busRead mdie mid Reg.DTC_NS_HI (x.dtc / 2 ^ 64 % 2 ^ 32) :: t.sent) ∧
      (∀ dt', Completes (.reg64LoRead dt' mdie mid Reg.DTC_FRAC) t fun u =>
        u.sent = .busRead mdie mid Reg.DTC_FRAC (x.dtc % 2 ^ 32) :: t.sent)) ∧
    (Completes (.reg64LoRead dt mdie mid Reg.DOFF_LO) s fun t =>
      t.sent = .busRead mdie mid Reg.DOFF_LO (x.doff % 2 ^ 32).toNat :: s.sent ∧
      t.latchOf (masterNo mdie mid) (Reg.DOFF_LO + 4) = some (BitVec.ofInt 32 (x.doff / 2 ^ 32))) ∧
    (Completes (.reg64LoRead dt mdie mid Reg.DTC_INC_LO) s fun t =>
      t.sent = .busRead mdie mid Reg.DTC_INC_LO (x.inc % 2 ^ 32) :: s.sent ∧
      t.latchOf (masterNo mdie mid) (Reg.DTC_INC_LO + 4) = some (BitVec.ofNat 32 (x.inc / 2 ^ 32 % 2 ^ 8)))

/-- A write sets an RW field, and a refused write is counted and changes nothing. Written by any master, EMG_LOG_SEL
takes its 13 bits and no other register changes, reserved bits included. A word written to EMG_STATUS, which is read-
only, is counted exactly where some field's value differs from the present one. Before sealing a host's write of
another value to CHN_DELAY, an RWL register, is discarded and counted. (R11, R12, R13, R64.) -/
def Obligations.WritesFollowTheAccessCode : Prop :=
  (∀ dt (mdie : Fin 8) (mid : Fin 4) (v : Word) (s : State),
    Completes (.registerWrite dt mdie mid Reg.EMG_LOG_SEL v) s fun t =>
      t.fld Reg.EMG_LOG_SEL 12 0 = fldOf v 12 0 ∧ t.fld Reg.EMG_LOG_SEL 31 13 = s.fld Reg.EMG_LOG_SEL 31 13 ∧
      s.regsBut t [Reg.EMG_LOG_SEL]) ∧
  (∀ dt (mdie : Fin 8) (mid : Fin 4) (v : Word) (s : State), fldOf v 8 8 ≠ s.fld Reg.EMG_STATUS 8 8 →
    Completes (.registerWrite dt mdie mid Reg.EMG_STATUS v) s fun t =>
      t.rdN Reg.MGT_REFUSED = (s.rdN Reg.MGT_REFUSED + 1) % 4294967296 ∧ s.regsBut t [Reg.MGT_REFUSED]) ∧
  (∀ dt (mdie : Fin 8) (mid : Fin 4) (s : State),
    Completes (.registerWrite dt mdie mid Reg.EMG_STATUS (s.rd Reg.EMG_STATUS)) s fun t => s.regsBut t []) ∧
  (∀ dt (mdie : Fin 8) (mid : Fin 4) (n : Fin 96) (v : Word) (s : State), s.sealed = false →
    fldOf v 22 0 ≠ s.fld (Reg.CHN_DELAY n) 22 0 →
    Completes (.registerWrite dt mdie mid (Reg.CHN_DELAY n) v) s fun t =>
      t.rdN Reg.MGT_REFUSED = (s.rdN Reg.MGT_REFUSED + 1) % 4294967296 ∧ s.regsBut t [Reg.MGT_REFUSED])

/-- A live-permitted write of an audio or policer field takes, and the rest of the register stays. Sealed and with the
field live-permitted: a slot mask within the format is set and staged for the next frame sync; a channel-status word
is set; AUD_CTRL.ENABLE is set with every other bit kept; a policer word in range is set and the entry's buckets are
refilled (no bucket of it is left listed). (R11, R65, R106, R140, R144, R145.) -/
def Obligations.LivePermittedWritesTake : Prop :=
  (∀ dt (p : Fin 16) (v : Word) (s : State), s.mayWrite (Reg.AUD_SLOT_MASK p) 15 0 = true →
    fldOf v 15 0 < 2 ^ s.audSlots p → s.aud.ports.length = 16 → Completes (.audSlotMaskWrite dt p v) s fun t =>
      t.fld (Reg.AUD_SLOT_MASK p) 15 0 = fldOf v 15 0 ∧
      (t.aport p).staged = (s.aport p).staged ++ [(fldOf v 15 0, (s.elapse dt).now)]) ∧
  (∀ dt (p : Fin 16) b (i : Fin 6) (v : Word) (s : State),
    let a := if b then Reg.AUD_CS_TX_B p i else Reg.AUD_CS_TX_A p i
    s.mayWrite a 31 0 = true → Completes (.audCsTxWrite dt p b i v) s fun t => t.rd a = v) ∧
  (∀ dt (p : Fin 16) e (s : State), s.mayWrite (Reg.AUD_CTRL p) 31 31 = true →
    Completes (.audEnableWrite dt p e) s fun t => t.bit (Reg.AUD_CTRL p) 31 = e ∧
      t.fld (Reg.AUD_CTRL p) 30 0 = s.fld (Reg.AUD_CTRL p) 30 0) ∧
  (∀ dt (e : Fin 65536) burst (v : Word) (s : State),
    let a := if burst then Reg.FT_POL_BURST e else Reg.FT_POL_RATE e
    let hi := if burst then 23 else 19
    s.mayWrite a hi 0 = true → (if burst then 1518 ≤ fldOf v 23 0 else 1 ≤ fldOf v 19 0 ∧ fldOf v 19 0 ≤ 400000) →
    Completes (.ftPolWrite dt e burst v) s fun t => t.fld a hi 0 = fldOf v hi 0 ∧
      ∀ x ∈ t.ing.buckets, x.entry ≠ e.val)

/-- The general CRC units start, feed and are set as the model of R486 says, and units 0 to 3 refuse the host. On a
unit that the writer may use (4 to 7, or any for the firmware) of a die that is not out of service: START loads INIT
and clears COUNT; a feed of one, two or four bytes moves VALUE by that many steps of the model, lowest byte first, and
COUNT by their number; a CFG write of a width 1 to 64 sets CFG and cuts the four pairs to that width; a VALUE write
sets the running register and clears COUNT. Nothing outside the unit's registers changes. Whatever a host writes to
START or a feed register of units 0 to 3, no register of the unit changes and MGT_REFUSED counts one. (R12, R485,
R486, R487.) -/
def Obligations.CrcUnitsFollowTheModel : Prop :=
  (∀ dt (host : Bool) (d u : Fin 8) (v : Word) (s : State), (host = true → 4 ≤ u.val) → (s.elapse dt).dieGone d = false →
    (fldOf v 0 0 = 1 → Completes (.crcStart dt host d u v) s fun t => t.crcValue d u = (s.crcCfg d u).init % 2 ^ 64 ∧
      t.rdN (Reg.CRC_COUNT d u) = 0 ∧
      s.regsBut t [Reg.CRC_VALUE_LO d u, Reg.CRC_VALUE_LO d u + 4, Reg.CRC_COUNT d u]) ∧
    ((s.crcCfg d u).w ≠ 0 → ∀ n, n = 1 ∨ n = 2 ∨ n = 4 →
      Completes (if n = 1 then .crcFeedB dt host d u v else if n = 2 then .crcFeedH dt host d u v
        else .crcFeedW dt host d u v) s fun t =>
        t.crcValue d u = (leBytes n v.toNat).foldl (fun x b => crcFeed (s.crcCfg d u) x b.toNat) (s.crcValue d u) % 2 ^ 64 ∧
        t.rdN (Reg.CRC_COUNT d u) = (s.rdN (Reg.CRC_COUNT d u) + n) % 4294967296 ∧
        s.regsBut t [Reg.CRC_VALUE_LO d u, Reg.CRC_VALUE_LO d u + 4, Reg.CRC_COUNT d u]) ∧
    (1 ≤ fldOf v 6 0 → fldOf v 6 0 ≤ 64 → Completes (.crcCfgWrite dt host d u v) s fun t =>
      t.rd (Reg.CRC_CFG d u) = fldPut v 29 7 0 ∧
      (∀ a ∈ [Reg.CRC_POLY_LO d u, Reg.CRC_INIT_LO d u, Reg.CRC_XOROUT_LO d u, Reg.CRC_VALUE_LO d u],
        t.rd64 a = s.rd64 a % 2 ^ fldOf v 6 0) ∧ t.rd (Reg.CRC_COUNT d u) = s.rd (Reg.CRC_COUNT d u)) ∧
    (∀ x : BitVec 64, Completes (.crcValueWrite dt host d u x) s fun t =>
      t.crcValue d u = x.toNat % 2 ^ s.fld (Reg.CRC_CFG d u) 6 0 ∧ t.rdN (Reg.CRC_COUNT d u) = 0 ∧
      s.regsBut t [Reg.CRC_VALUE_LO d u, Reg.CRC_VALUE_LO d u + 4, Reg.CRC_COUNT d u])) ∧
  (∀ dt (d u : Fin 8) (v : Word) (s : State), u.val < 4 → (s.elapse dt).dieGone d = false →
    ∀ i ∈ [Instr.crcStart dt true d u v, .crcFeedB dt true d u v, .crcFeedH dt true d u v, .crcFeedW dt true d u v],
      Completes i s fun t => t.rdN Reg.MGT_REFUSED = (s.rdN Reg.MGT_REFUSED + 1) % 4294967296 ∧
        s.regsBut t [Reg.MGT_REFUSED])

/-- An access of wrong width, an undecoded access and an aborted burst only write the abort log. An access of another
width or alignment, or to an undecoded address, completes with one entry at the head of the target die's abort log
(phase time, address, kind), HEAD and ABORTS advance, and no other register changes. A register burst whose master was
reset leaves an entry of kind 3 with no beat done, and ends that master's latches and held halves and no other's. (R9,
R489, R492, R494, R495, R513.) -/
def Obligations.AbnormalAccessesAreLogged : Prop :=
  (∀ dt (mdie : Fin 8) (mid : Fin 4) (a width : Nat) (s : State), ¬ (width = 32 ∧ a % 4 = 0) →
    Completes (.wrongWidthAccess dt mdie mid a width) s fun t => s.loggedAbort dt t ((s.elapse dt).logDie a mdie) 1 a) ∧
  (∀ dt (mdie : Fin 8) (mid : Fin 4) (a : Nat) (s : State), (s.elapse dt).decodes a = false →
    Completes (.undecodedAccess dt mdie mid a) s fun t => s.loggedAbort dt t ((s.elapse dt).logDie a mdie) 2 a) ∧
  (∀ dt (b : Burst) (left : PartWritten) (s : State), Completes (.masterResetMidBurst dt b false left) s fun t =>
    s.loggedAbort dt t ((s.elapse dt).logDie b.addr b.mdie) 3 b.addr ∧
    (∀ a, t.latchOf (masterNo b.mdie b.mid) a = none ∧ t.heldLo (masterNo b.mdie b.mid) a = 0) ∧
    ∀ m a, m ≠ masterNo b.mdie b.mid → t.latchOf m a = s.latchOf m a ∧ t.heldLo m a = s.heldLo m a)

/-- An acknowledgement frees a transaction, which is carried on, and a failed link's transactions take the new route.
An acknowledged transaction is on that link no longer and goes on from the next die over the route that the links
give; where nothing waits that is all, and of those that wait each goes into flight, or goes on waiting, and none is
lost. When a working link fails without isolating a die, it is down afterwards, no other link changes, and the
transactions are those that the reissue on the new route leaves. (R21, R22, R270.) -/
def Obligations.DieLinkTransactions : Prop :=
  (∀ dt (seq : Nat) (x : LinkTx) (s : State), s.links.flight.find? (fun y => y.seq == seq) = some x →
    Completes (.dieLinkAck dt seq) s fun t => t.emg.links = s.emg.links ∧
      (x.note = none ∨ s.noneWaits →
        let base : Links := { s.links with flight := s.links.flight.erase x }
        (s.links.waiting = [] → (s.carry base (farDie x.link) x).waiting = [] → t.links = s.carry base (farDie x.link) x) ∧
        (t.links.flight ++ t.links.waiting).Perm
          ((s.carry base (farDie x.link) x).flight ++ (s.carry base (farDie x.link) x).waiting) ∧
        t.links.accepted = (s.carry base (farDie x.link) x).accepted ∧
        ∀ w ∈ t.links.waiting, w ∈ (s.carry base (farDie x.link) x).waiting)) ∧
  (∀ dt (l : Fin 12) (taken : List Nat) (s : State), s.emg.links.getD l false = true →
    (∀ d, d = (linkEnds l).1 ∨ d = (linkEnds l).2 →
      ∃ k < 3, linkNo d k ≠ l.val ∧ s.emg.links.getD (linkNo d k) false = true) →
    Completes (.dieLinkFailure dt l [] taken) s fun t => t.emg.links = s.emg.links.set l false ∧
      t.links = ({ s with emg := { s.emg with links := s.emg.links.set l false } }.reroute taken).links) ∧
  (∀ (s : State) (d k : Nat), d < 8 → k < 3 → (∀ m < 12, s.emg.links.getD m false = decide (m ≠ linkNo d k)) →
    ∃ j < 3, j ≠ k ∧ s.route d (d ^^^ 2 ^ k) = some [j, k, j] ∧ ∀ a < 8, ∀ b < 8, ∃ r, s.route a b = some r ∧ r.length ≤ 3)

/-- The host acknowledges records by moving the tail, and a rate-limit window closes with its record. A tail within
the unread records is taken, EVT_PENDING then counts the pinned records left unread; a tail outside them is refused
and counted. Closing a window of source 1 or 5 removes it. (R500, R541.) -/
def Obligations.EventTailAndWindows : Prop :=
  (∀ dt (v : Word) (s : State), s.evt.raises = [] → (fldOf v 11 0 + 4096 - s.fld Reg.EVT_TAIL 11 0) % 4096 ≤ s.unread →
    Completes (.evtTailWrite dt v) s fun t => t.rdN Reg.EVT_TAIL = fldOf v 11 0 ∧
      t.rdN Reg.EVT_PENDING = t.evt.pinned.length % 4294967296 ∧ t.evt.pinned.Sublist s.evt.pinned ∧
      s.regsBut t [] ∧ t.rd Reg.EVT_HEAD = s.rd Reg.EVT_HEAD) ∧
  (∀ dt (v : Word) (s : State), s.unread < (fldOf v 11 0 + 4096 - s.fld Reg.EVT_TAIL 11 0) % 4096 →
    Completes (.evtTailWrite dt v) s fun t => t.rdN Reg.MGT_REFUSED = (s.rdN Reg.MGT_REFUSED + 1) % 4294967296 ∧
      s.regsBut t [Reg.MGT_REFUSED]) ∧
  (∀ dt (src : Nat) (s : State), s.evt.raises = [] → Completes (.rateLimitWindowClose dt src) s fun t =>
    t.evt.windows = (s.evt.windows.filter fun w => w.src != src) ∧ s.regsBut t [])

/-- Writing a record fills one ring entry and moves the head, and a full ring loses its oldest record. A record's four
words stand at the head's entry: sequence, level, severity and source, the time, and the information; the head
advances by one modulo 4,096. With 4,095 records unread the tail advances too and EVT_LOST counts one; otherwise tail
and EVT_LOST stay. Every other ring entry keeps its words. (R497, R499, R500, R501.) -/
def Obligations.RingWritesOneRecord : Prop :=
  ∀ (src time info : Nat) (s : State), sourceAssigned src = true →
    let h := s.rdN Reg.EVT_HEAD % 4096
    let t := s.writeRecord src time info
    t.rdN (Reg.EVT_RING h 0) = s.evt.seq % 65536 * 65536 + levelOf src * 4096 + severityOf src * 1024 + src ∧
    t.rdN (Reg.EVT_RING h 1) = time % 4294967296 ∧
    t.rdN (Reg.EVT_RING h 2) + 4294967296 * t.rdN (Reg.EVT_RING h 3) = info % 2 ^ 64 ∧
    t.rdN Reg.EVT_HEAD = (h + 1) % 4096 ∧
    (s.unread ≠ 4095 → t.rd Reg.EVT_TAIL = s.rd Reg.EVT_TAIL ∧ t.rd Reg.EVT_LOST = s.rd Reg.EVT_LOST) ∧
    (s.unread = 4095 → t.rdN Reg.EVT_TAIL = (s.rdN Reg.EVT_TAIL % 4096 + 1) % 4096 ∧
      t.rdN Reg.EVT_LOST = (s.rdN Reg.EVT_LOST + 1) % 4294967296) ∧
    ∀ k < 4096, k ≠ h → ∀ w < 4, t.rd (Reg.EVT_RING k w) = s.rd (Reg.EVT_RING k w)

/-- PTP messages are measured, discarded or remembered as the device-time chapter says. Outside island mode a Sync or
an Announce at a PTP port of the image that is in service, or a delay response of another domain or outside R325 adds
1 to PTP_RX_DISCARD and changes no other register; so does, from E5 on, a Pdelay_Req at such a port of another domain,
outside R325, or in an end-to-end image. A one-step Sync from the master followed counts in PTP_SYNC_RX and shows the
offset receipt − origin − correction − mean path delay in PTP_OFFSET; a two-step one waits, and its Follow_Up, while
that master is followed, is measured the same way with both corrections. The receipt is the DTC at the port, within 4
ns. The response to the present delay request puts the delay it measures first in the last 16 and PTP_MPD shows their
median. An Announce received at a PTP port and accepted puts its sender in the foreign-master table while the port
holds fewer than 16 others. (R325, R326, R327, R328, R329.) -/
def Obligations.PtpMessages : Prop :=
  (∀ dt (s : State), s.island = false →
    (∀ m : SyncMsg, s.ptpHears m.port = true → s.syncOk m = false → Completes (.syncRx dt m) s fun t =>
      t.rdN Reg.PTP_RX_DISCARD = (s.rdN Reg.PTP_RX_DISCARD + 1) % 4294967296 ∧ s.regsBut t [Reg.PTP_RX_DISCARD]) ∧
    (∀ m : Announce, s.ptpHears m.port = true → s.announceOk m = false → Completes (.announceRx dt m) s fun t =>
      t.rdN Reg.PTP_RX_DISCARD = (s.rdN Reg.PTP_RX_DISCARD + 1) % 4294967296 ∧ s.regsBut t [Reg.PTP_RX_DISCARD]) ∧
    (∀ dom seq at_ corr sup, s.ptpAccepts dom (s.ptpUdp sup) = false → Completes (.delayRespRx dt dom seq at_ corr sup) s fun t =>
      t.rdN Reg.PTP_RX_DISCARD = (s.rdN Reg.PTP_RX_DISCARD + 1) % 4294967296 ∧ s.regsBut t [Reg.PTP_RX_DISCARD]) ∧
    (∀ port dom corr sup, 5 ≤ s.phase → s.halted = false → s.ptpHears port = true →
      s.ptpAccepts dom (s.ptpUdp sup) = false ∨ s.bit Reg.PTP_CTRL 2 = false → Completes (.pdelayReqRx dt port dom corr sup) s fun t =>
      t.rdN Reg.PTP_RX_DISCARD = (s.rdN Reg.PTP_RX_DISCARD + 1) % 4294967296 ∧ s.regsBut t [Reg.PTP_RX_DISCARD])) ∧
  (∀ dt (m : SyncMsg) (b : Announce) (s : State), s.island = false → s.ptpHears m.port = true → s.syncOk m = true →
    s.clk.master = some b → b.sender = m.sender → b.port = m.port →
    (m.twoStep = true → Completes (.syncRx dt m) s fun t => t.clk.waitFollow = some (m, (s.elapse dt).portStamp) ∧ s.regsBut t []) ∧
    (m.twoStep = false → Completes (.syncRx dt m) s fun t =>
      t.rdN Reg.PTP_SYNC_RX = (s.rdN Reg.PTP_SYNC_RX + 1) % 4294967296 ∧
      t.rd Reg.PTP_OFFSET = BitVec.ofInt 32 (sat32 ((s.elapse dt).portStamp + s.clk.doff - m.origin - m.correction - (s.rd Reg.PTP_MPD).toInt)))) ∧
  (∀ dt (m : SyncMsg) (b : Announce) rx origin correction (s : State), s.clk.waitFollow = some (m, rx) →
    s.clk.master = some b → b.sender = m.sender → b.port = m.port →
    Completes (.followUpRx dt m.sender m.seq origin correction) s fun t => t.clk.waitFollow = none ∧
      t.rdN Reg.PTP_SYNC_RX = (s.rdN Reg.PTP_SYNC_RX + 1) % 4294967296 ∧
      t.rd Reg.PTP_OFFSET =
        BitVec.ofInt 32 (sat32 (rx + s.clk.doff - origin - (m.correction + correction) - (s.rd Reg.PTP_MPD).toInt))) ∧
  (∀ dt dom (at_ corr sent : Int) sup (s : State), s.island = false → s.ptpAccepts dom (s.ptpUdp sup) = true →
    s.clk.dreqAt = some sent → let meas := (s.elapse dt).delayMeasured sent at_ corr
    Completes (.delayRespRx dt dom s.clk.dreqSeq at_ corr sup) s fun t => t.clk.mpds = (meas :: s.clk.mpds).take 16 ∧
      t.rd Reg.PTP_MPD = BitVec.ofInt 32 (medianInt ((meas :: s.clk.mpds).take 16)) ∧ s.regsBut t [Reg.PTP_MPD]) ∧
  (∀ dt (m : Announce) (s : State), s.island = false → s.ptpHears m.port = true → s.announceOk m = true →
    ((s.clk.foreign.filter fun f => !(f.sender == m.sender && f.port == m.port)).filter fun f => f.port == m.port).length < 16 →
    Completes (.announceRx dt m) s fun t => m ∈ t.clk.foreign ∧ t.clk.master.isSome = true ∧ t.bit Reg.PTP_STATUS 0 = true)

/-- Delay requests, Pdelay responses and PPS_OUT leave at their time, and a lost master is dropped. From E5 on, a unit
that is not in island mode hands a Delay_Req (Pdelay_Req in a peer-to-peer image) to TC7 of its active PTP port when
that sub-port is UP and TC7 has room, and answers a Pdelay_Req of its domain at such a port in a peer-to-peer image.
When the announce timeout expires the masters heard on the port of the master followed are forgotten, the best one
left on the other port is followed, PTP_ANN_TIMEOUT counts it, and with none left a unit that has ever been locked is
in HOLDOVER. PPS_OUT marks a second not marked before, within 4 ns of it, where it is enabled and the unit is locked
or may send unlocked. (R325, R327, R328, R332.) -/
def Obligations.PtpSendsAndTimeouts : Prop :=
  (∀ dt (s : State), s.island = false → 5 ≤ s.phase → s.halted = false →
    let port := if s.bit Reg.PTP_STATUS 4 then s.fld Reg.PTP_PORTS 12 8 else s.fld Reg.PTP_PORTS 4 0
    s.subUp (port / 4 % 8) (port % 4) = true → s.classRoom (port / 4 % 8) 7 = true → Completes (.delayReqSend dt) s fun t =>
      ∃ f, t.egr.queue = s.egr.queue ++ [f] ∧ f.cls = 7 ∧ f.port = port / 4 % 8 ∧ f.sub = port % 4 ∧
        f.what = .ptp (if s.bit Reg.PTP_CTRL 2 then 2 else 1) port ((s.clk.dreqSeq + 1) % 65536 : Nat)) ∧
  (∀ dt port dom corr sup (s : State), s.island = false → 5 ≤ s.phase → s.halted = false →
    s.ptpHears port = true → s.ptpAccepts dom (s.ptpUdp sup) = true → s.bit Reg.PTP_CTRL 2 = true →
    s.subUp (port / 4 % 8) (port % 4) = true → s.classRoom (port / 4 % 8) 7 = true →
    Completes (.pdelayReqRx dt port dom corr sup) s fun t =>
      ∃ f, t.egr.queue = s.egr.queue ++ [f] ∧ f.cls = 7 ∧ f.what = .ptp 3 port (corr - (s.elapse dt).portStamp)) ∧
  (∀ dt (s : State), s.island = false → let left := match s.clk.master with
      | none => []
      | some m => s.clk.foreign.filter fun f => f.port != m.port
    Completes (.announceTimeout dt) s fun t => t.clk.foreign = left ∧
    t.clk.master = bestAnnounce (s.fld Reg.PTP_PORTS 4 0) left ∧ t.bit Reg.PTP_STATUS 0 = decide (left ≠ []) ∧
    (left = [] → s.clk.everLocked = true → t.timeState = 3) ∧
    t.rdN Reg.PTP_ANN_TIMEOUT = (s.rdN Reg.PTP_ANN_TIMEOUT + 1) % 4294967296) ∧
  (∀ dt (s : State), let sec := ((s.elapse dt).ptpNow + 500000000) / 1000000000
    s.bit Reg.PPS_CTRL 31 = true → s.phase = 7 ∨ s.phase = 8 ∨ s.phase = 9 →
    (s.timeState = 2 ∨ s.timeState = 4 ∨ s.bit Reg.PPS_CTRL 30 = true) → (∀ m, s.clk.ppsMarked = some m → m < sec) →
    ((s.elapse dt).ptpNow - sec * 1000000000).natAbs ≤ 4 → Completes (.ppsOutSecond dt) s fun t => t.clk.ppsMarked = some sec ∧
      t.sent = .pps sec (s.fld Reg.PPS_CTRL 9 0) :: s.sent ∧ s.regsBut t [])

/-- Every PPS_IN edge is timestamped and serves as the island master until it stops, and PPS_OUT marks only later
seconds. PPS_IN_LAST shows the phase time of the edge, stamped within 4 ns. In island mode from E6 on a good edge,
within 1 ms of the second and 999 ms or more after the last good one, adds to the run, shows its error, takes it out
of the offset of a unit not yet LIVE, and as the fourth of a run or a later one gives ISLAND; an edge more than 1 ms
from the second after a good one is a glitch: it is counted and otherwise ignored. 1.1 s after the last good edge the
unit is in ISLAND_FREE. Whatever state the unit is in, PPS_OUT_SECOND either sends nothing, or it sends one pulse, for
a whole second later than the last one marked, and remembers it. (R332, R333.) -/
def Obligations.PpsInputAndOutput : Prop :=
  (∀ dt (s : State), Completes (.ppsInEdge dt) s fun t => t.rdN Reg.PPS_IN_LAST = ((s.elapse dt).portStamp % 4294967296).toNat) ∧
  (∀ dt (x : Int) (s : State), s.island = true → 6 ≤ s.phase → s.halted = false → s.clk.ppsGood = some x →
    1000000 < (s.ppsError (s.elapse dt).portStamp).natAbs → Completes (.ppsInEdge dt) s fun t => t.clk.ppsRun = s.clk.ppsRun ∧
      t.clk.ppsGood = some x ∧ t.rdN Reg.PPS_IN_GLITCH = (s.rdN Reg.PPS_IN_GLITCH + 1) % 4294967296) ∧
  (∀ dt (x : Int) (s : State), s.island = true → 6 ≤ s.phase → s.halted = false → s.clk.ppsGood = some x →
    (s.ppsError (s.elapse dt).portStamp).natAbs ≤ 1000000 → x + 999000000 ≤ (s.elapse dt).portStamp → Completes (.ppsInEdge dt) s fun t =>
      t.clk.ppsGood = some (s.elapse dt).portStamp ∧ t.clk.ppsRun = s.clk.ppsRun + 1 ∧ t.clk.ppsStopped = false ∧
      t.rd Reg.PPS_IN_ERR = BitVec.ofInt 32 (s.ppsError (s.elapse dt).portStamp) ∧
      (3 ≤ s.clk.ppsRun → t.timeState = 4) ∧ (s.live = false → t.clk.doff = s.clk.doff - s.ppsError (s.elapse dt).portStamp)) ∧
  (∀ dt (x : Int) (s : State), s.island = true → s.clk.ppsGood = some x → s.clk.ppsStopped = false →
    x + 1100000000 ≤ (s.elapse dt).now → Completes (.ppsStop dt) s fun t =>
    t.clk.ppsStopped = true ∧ t.clk.ppsRun = 0 ∧ t.timeState = 5) ∧
  (∀ dt (s t : State), exec (.ppsOutSecond dt) s = .next t → t.sent = s.sent ∧ t.clk.ppsMarked = s.clk.ppsMarked ∨
    ∃ sec w, t.sent = .pps sec w :: s.sent ∧ t.clk.ppsMarked = some sec ∧ ∀ m, s.clk.ppsMarked = some m → m < sec)

/-- A reference fault ends its qualification, and the unit goes on with the other reference or resets. From E4 on a
stop, a glitch, or a rate change that meets both limits clears QUAL and sets its flag. If the reference was selected
the other one is selected where it is qualified, otherwise the unit ends in a warm reset with WARM set. A fault of a
reference that is not selected leaves the selection. A reference that qualifies shows QUAL with its flags cleared, and
is selected where none was. (R335, R336, R338, R339.) -/
def Obligations.ReferenceFaults : Prop :=
  (∀ dt (r : Fin 2) (e : Int) (s : State), s.refsJudged = true →
    2000 < e.natAbs → (s.refQual (1 - r.val) = true →
      2000 < (e - (s.rd (if r.val = 0 then Reg.REF_FREQ_B else Reg.REF_FREQ_A)).toInt).natAbs) →
    ∀ i k, (i, k) ∈ [(Instr.refclkStop dt r, 1), (.refclkGlitch dt r, 2), (.refclkRateChange dt r e, 3)] →
      (s.refSel ≠ r.val → Completes i s fun t => t.bit Reg.REF_STATUS (8 * r.val) = false ∧
        t.bit Reg.REF_STATUS (8 * r.val + k) = true ∧ t.refSel = s.refSel ∧ t.emg = s.emg) ∧
      (s.refSel = r.val → s.refQual (1 - r.val) = true → Completes i s fun t => t.refSel = 1 - r.val ∧
        t.bit Reg.REF_STATUS (8 * r.val) = false ∧ t.bit Reg.REF_STATUS (8 * r.val + k) = true ∧ t.emg = s.emg ∧
        t.rdN Reg.REF_SWITCHES = (s.rdN Reg.REF_SWITCHES + 1) % 4294967296) ∧
      (s.refSel = r.val → s.refQual (1 - r.val) = false → Completes i s fun t => t.emg.started = false ∧
        t.bit Reg.EMG_STATUS 10 = true ∧ t.phase = 0)) ∧
  (∀ dt (r : Fin 2) (s : State), s.refsJudged = true → Completes (.refclkQualified dt r) s fun t =>
    t.fld Reg.REF_STATUS (8 * r.val + 3) (8 * r.val) = 1 ∧ (s.refSel = 2 → t.refSel = r.val) ∧
    s.regsBut t [Reg.REF_STATUS, Reg.REF_SWITCHES]) ∧
  (∀ dt ratio (s : State), s.refSel ≠ 2 → Completes (.pilotRatioMeasure dt ratio) s fun t =>
    t.rd Reg.PILOT_FREQ = BitVec.ofInt 32 (Config.pilotLearn (s.rd Reg.PILOT_FREQ).toInt ratio) ∧
    s.regsBut t [Reg.PILOT_FREQ])

/-- No command sets the device-time counter or moves it backward. Whatever command runs while the unit has begun,
either the unit is reset, or E0 begins, or the counter has advanced by a whole number of tick increments, modulo its
96 bits, and the unit has still begun. (R320, R322.) -/
def Obligations.DeviceTimeOnlyAdvances : Prop :=
  ∀ (s t : State), s.emg.started = true → step s = .next t →
    t.emg.started = false ∨ ∃ n, t.clk.dtc = (s.clk.dtc + n * s.tickInc) % 2 ^ 96

/-- IDLE, SKIP and FLAME sets, wick words and presence beacons leave as their rules say. With a lane enabled and
locked, IDLE_SEND sends one IDLE set of RX_LANES, stripe set and acknowledged LSEQ with its check, and SKIP_SEND one
SKIP set, 1,024 code groups after the last, on exactly those lanes (the model's reading, log entry 24); no register
changes. A paired unit that is not halted, from E7 on (the model's reading, log entry 50), sends, on LEASE_SEND and
WICK_WORD_SEND, one flame word on its path with the next SEQ of that path: kind 1 of a holder that is not snuffed,
kind 5 of any other, with its unit number, its epoch and the check of R350 or R351. PRESENCE_BEACON_SEND numbers one
beacon for each port in service. (R350, R351, R390, R391, R394.) -/
def Obligations.OrderedSetsLeave : Prop :=
  (∀ dt (s : State), s.setLanes ≠ 0 →
    (Completes (.idleSend dt) s fun t => t.sent = .idle s.setLanes [s.rxLanes, s.stripe, s.link.rxSeq % 256,
        s.link.rxSeq / 256 % 256, 0, idleCheck s.rxLanes s.stripe s.link.rxSeq] :: s.sent ∧ s.regsBut t []) ∧
    ((s.elapse dt).skipDue = true → Completes (.skipSend dt) s fun t => t.sent = .skip s.setLanes :: s.sent ∧ s.regsBut t [])) ∧
  (∀ dt (s : State), s.sendsWords = true →
    (Completes (.leaseSend dt) s fun t => t.twin.seqTx = (s.twin.seqTx + 1) % 16 ∧ ∃ aux,
      t.sent = .flame 0 (s.fld Reg.LNK_CTRL 7 0) (if s.holding && !s.snuffed then 1 else 5) s.unitNo aux s.epoch
        (flameCheck (if s.holding && !s.snuffed then 1 else 5) s.unitNo aux s.epoch) :: s.sent) ∧
    (Completes (.wickWordSend dt) s fun t => t.twin.wickTx = (s.twin.wickTx + 1) % 16 ∧ ∃ aux,
      t.sent = .flame 1 0 (if s.holding && !s.snuffed then 1 else 5) s.unitNo aux s.epoch
        (wickCheck (if s.holding && !s.snuffed then 1 else 5) s.unitNo aux s.epoch) :: s.sent) ∧
    (Completes (.presenceBeaconSend dt) s fun t =>
      t.twin.beaconTx = s.twin.beaconTx + ((List.range 8).filter s.portUp).length ∧ t.sent = s.sent))

/-- IDLE and SKIP sets, an ABORT and the resend timer act on the Lantern link. An IDLE set on a locked lane whose
check passes gives the partner's RX_LANES and TX_LANES; where the stripe set stays and nothing is queued, the frames
up to the one it acknowledges are done with. A SKIP set moves the lane's elastic buffer one group toward its centre
and counts the adjustment, or takes the lane's lock where the buffer has passed ±8. With a stripe set, the resend
timer, 4 µs after the oldest, sends every unacknowledged frame again, marked as resent, in order, and counts them; the
frames stay unacknowledged. An ABORT changes no register and no other state than device time (the model holds no frame
before its end, log entry 6). (R384, R389, R391, R395, R398.) -/
def Obligations.LanternSetsAreReceived : Prop :=
  (∀ dt (lane : Fin 8) rx tx ack (s : State) u, s.laneLocked lane 8 = true → rx < 256 → tx < 256 → ack < 65536 →
    Completes (.idleSetRx dt lane rx tx ack (idleCheck rx tx ack) u) s fun t => t.link.partnerRx = rx ∧
      t.fld Reg.LNK_STATUS 23 16 = tx ∧
      (s.link.queue = [] → s.setLanes &&& rx = s.stripe → t.link.unacked = s.link.unacked.filter fun x =>
        decide (32768 ≤ (ack + 65536 - x.frame.lseq) % 65536))) ∧
  (∀ dt (lane : Fin 8) drift (s : State), s.laneLocked lane 8 = true → s.link.elastic.length = 8 →
    (s.elastic lane + drift).natAbs ≤ 8 → Completes (.skipSetRx dt lane drift) s fun t =>
      t.elastic lane = s.elastic lane + drift - (if 0 < s.elastic lane + drift then 1 else 0) +
        (if s.elastic lane + drift < 0 then 1 else 0) ∧
      t.rdN Reg.LNK_SKP_DEL = (s.rdN Reg.LNK_SKP_DEL + (if 0 < s.elastic lane + drift then 1 else 0)) % 4294967296 ∧
      t.rdN Reg.LNK_SKP_ADD = (s.rdN Reg.LNK_SKP_ADD + (if s.elastic lane + drift < 0 then 1 else 0)) % 4294967296) ∧
  (∀ dt (lane : Fin 8) drift (s : State), s.laneLocked lane 8 = true → 8 < (s.elastic lane + drift).natAbs →
    Completes (.skipSetRx dt lane drift) s fun t => t.laneLocked lane 8 = false) ∧
  (∀ dt (s : State), s.stripe ≠ 0 → (s.elapse dt).resendDue = true → Completes (.lanternResendTimeout dt) s fun t =>
    t.link.unacked.map (·.frame) = s.link.unacked.map (fun u => { u.frame with resent := true }) ∧
    t.sent = (s.link.unacked.map fun u => Sent.lantern s.stripe { u.frame with resent := true }).reverse ++ s.sent ∧
    t.rdN Reg.LNK_RESENT = (s.rdN Reg.LNK_RESENT + s.link.unacked.length) % 4294967296) ∧
  (∀ dt (s : State), Completes (.abortSetRx dt) s fun t => s.regsBut t [] ∧ s.sameBut t)

/-- Lanes lose and gain lock, are rated by their figure of merit, join RX_LANES, and bring sub-ports and the MGMT lane
up. A locked lane that loses lock counts it and is no longer locked; a present, unlocked lane locks and stands in
ALARM (until its first FOM: the model's reading, log entry 24). A present, locked lane shows its FOM, and its state is
GOOD from 96, MARGINAL from 64, otherwise ALARM. A locked Lantern lane that has been GOOD for 1 ms joins RX_LANES; one
that is skewed is left out and counted. A DOWN or ALARMED sub-port with every lane locked and GOOD, clean for
NP_RETURN, becomes UP. The MGMT lane's state follows its link, but not to a partner of 10 or 100 Mb/s. (R383, R384,
R388, R393, R399, R401.) -/
def Obligations.LanesLockAndRate : Prop :=
  (∀ dt (d : Fin 8) (n : Fin 10) u (s : State), s.laneLocked d n = true →
    Completes (.laneLockLoss dt d n u) s fun t => t.laneLocked d n = false ∧
      t.rdN (Reg.LN_LOCK_LOSS d n) = (s.rdN (Reg.LN_LOCK_LOSS d n) + 1) % 4294967296 ∧ t.fld (Reg.LN_STATUS d n) 7 0 = 0) ∧
  (∀ dt (d : Fin 8) (n : Fin 10) u (s : State), s.lanePresent d n = true → s.laneLocked d n = false →
    Completes (.laneLockAcquire dt d n u) s fun t => t.laneLocked d n = true ∧ t.fld (Reg.LN_STATUS d n) 26 24 = 2) ∧
  (∀ dt (d : Fin 8) (n : Fin 10) (eye : EyeScan) viol corr uncorr (s : State), s.lanePresent d n = true →
    s.laneLocked d n = true → Completes (.fomUpdate dt d n eye viol corr uncorr) s fun t =>
      t.fld (Reg.LN_STATUS d n) 7 0 = eyeFom eye ∧
      t.fld (Reg.LN_STATUS d n) 26 24 = (if 96 ≤ eyeFom eye then 4 else if 64 ≤ eyeFom eye then 3 else 2) ∧
      t.rdN (Reg.LN_VIOL d n) = (s.rdN (Reg.LN_VIOL d n) + viol) % 4294967296) ∧
  (∀ dt (lane : Fin 8) (s : State), s.laneLocked lane 8 = true → s.fld (Reg.LN_STATUS lane 8) 26 24 = 4 →
    ((s.elapse dt).laneSteady lane = true → Completes (.laneJoin dt lane false) s fun t => t.rxLanes.testBit lane = true ∧
      ∀ k : Fin 8, k ≠ lane → t.rxLanes.testBit k = s.rxLanes.testBit k) ∧
    (Completes (.laneJoin dt lane true) s fun t => t.rxLanes.testBit lane = false ∧
      (∀ k : Fin 8, k ≠ lane → t.rxLanes.testBit k = s.rxLanes.testBit k) ∧
      t.rdN Reg.LNK_DESKEW_FAIL = (s.rdN Reg.LNK_DESKEW_FAIL + 1) % 4294967296)) ∧
  (∀ dt (p : Fin 8) (q : Fin 4) (s : State), s.subState p q = 1 ∨ s.subState p q = 3 → s.lanesOfSub p q ≠ [] →
    (∀ n ∈ s.lanesOfSub p q, s.laneLocked p n = true ∧ s.fld (Reg.LN_STATUS p n) 26 24 = 4) →
    (s.elapse dt).cleanFor p q = true → Completes (.subportUp dt p q) s fun t => t.subUp p q = true ∧
      (∀ k < 4, k ≠ q.val → t.subState p k = s.subState p k) ∧ s.regsBut t [Reg.NP_STATUS p]) ∧
  (∀ dt up refused errs (s : State), s.emg.mgmtUp = true → Completes (.mgmtLinkChange dt up refused errs) s fun t =>
    t.bit Reg.MGL_STATUS 31 = (up && !refused) ∧ t.bit Reg.MGL_STATUS 0 = (up && !refused) ∧
    t.rdN Reg.MGL_RX_ERR = (s.rdN Reg.MGL_RX_ERR + errs + b2n refused) % 4294967296 ∧
    s.regsBut t [Reg.MGL_STATUS, Reg.MGL_RX_ERR])

/-- A flame word is judged by its check, its unit and its epoch, and a silent partner leaves the unit designate alone.
A word whose check fails changes no register and no other state than device time, on the lanes and on the wick lines.
A LEASE of the partner at the present epoch with a new SEQ is a renewal on its path, on a locked lane and on the wick
lines. A presence beacon of the pair with its tag, the partner's unit, a SEQ above the last and the present epoch
renews path 2. In E7 the join timeout makes the unit designate and ends E7. (R48, R350, R351, R352, R353, R355.) -/
def Obligations.FlameWordsAreJudged : Prop :=
  (∀ dt (lane : Fin 8) (w : FlameWord) (s : State), w.check ≠ flameCheck w.kind w.unit w.aux w.epoch →
    Completes (.flameSetRx dt lane w) s fun t => s.regsBut t [] ∧ s.sameBut t) ∧
  (∀ dt (w : FlameWord) (s : State), w.check ≠ wickCheck w.kind w.unit w.aux w.epoch →
    Completes (.wickWordRx dt w) s fun t => s.regsBut t [] ∧ s.sameBut t) ∧
  (∀ dt (lane : Fin 8) unit aux (s : State), s.laneLocked lane 8 = true → s.paired = true → s.live = true →
    unit % 2 ≠ s.unitNo → s.holding = false → s.twin.lastSeq.length = 3 → s.twin.renewAt.length = 3 →
    s.twin.lastSeq.getD 0 none ≠ some aux →
    Completes (.flameSetRx dt lane ⟨1, unit, aux, s.epoch, flameCheck 1 unit aux s.epoch⟩) s fun t =>
      t.twin.lastSeq.getD 0 none = some aux ∧ t.twin.renewAt.getD 0 none = some (s.elapse dt).now) ∧
  (∀ dt unit aux (s : State), s.paired = true → s.live = true →
    unit % 2 ≠ s.unitNo → s.holding = false → s.twin.lastSeq.length = 3 → s.twin.renewAt.length = 3 →
    s.twin.lastSeq.getD 1 none ≠ some aux →
    Completes (.wickWordRx dt ⟨1, unit, aux, s.epoch, wickCheck 1 unit aux s.epoch⟩) s fun t =>
      t.twin.lastSeq.getD 1 none = some aux ∧ t.twin.renewAt.getD 1 none = some (s.elapse dt).now) ∧
  (∀ dt (port : Fin 8) (b : List Byte) (s : State),
    let be := fun o n => beNat ((b.drop o).take n)
    b.length = 40 → s.paired = true → s.live = true → s.portUp port = true → be 0 4 = 0x4C414D50 →
    b.drop 0x18 = beaconTag s.twin.pairKey (b.take 0x18) → be 6 2 = s.fld Reg.IDN_UNIT 31 16 →
    be 8 1 = s.fld Reg.IDN_UNIT 11 8 → be 4 1 = 1 → be 5 1 % 2 ≠ s.unitNo → be 0xC 4 = s.epoch →
    s.holding = false → s.twin.lastSeq.length = 3 → s.twin.renewAt.length = 3 →
    (∀ q, s.twin.lastSeq.getD 2 none = some q → q < be 0x10 8) → Completes (.presenceBeaconRx dt port b) s fun t =>
      t.twin.lastSeq.getD 2 none = some (be 0x10 8) ∧ t.twin.renewAt.getD 2 none = some (s.elapse dt).now) ∧
  (∀ dt (s : State), s.phase = 7 → Completes (.twinJoinTimeout dt) s fun t => t.twin.designate = true ∧
    t.twin.joins = false ∧ t.phase = 8)

/-- A silent partner gives the flame to a LIVE standby, and a planned handover gives it up. With all three paths
silent, a LIVE standby that is not snuffed and has heard a renewal, or hears no valid word of its partner, takes the
flame: its gates are open, TWN_STATUS shows it holding, and its epoch is one more. A live-permitted handover request
that R366 refuses adds 1 to TWN_CMD_REFUSED; otherwise a handover is under way. When the frames under way have
finished, the holder that hands over sends HANDOVER on lanes and wick lines and is standby with closed gates. An
expired hold-off awaits the refresh of every channel. (R354, R356, R363, R366, R367, R369.) -/
def Obligations.TheFlameIsTakenAndGivenUp : Prop :=
  (∀ dt (s : State), s.paired = true → s.isStandby = true → s.live = true → s.snuffed = false →
    (∀ p < 3, (s.elapse dt).pathAlive p = false) → s.lastRenewal.isSome = true ∨ (s.elapse dt).partnerSeen = false →
    Completes (.leaseLapse dt) s fun t => t.twin.gatesOpen = true ∧ t.holding = true ∧
      t.epoch = (s.epoch + 1) % 4294967296) ∧
  (∀ dt (s : State), s.mayWrite Reg.TWN_CMD 31 31 = true →
    (s.handoverOk = false → Completes (.twnCmdHandover dt) s fun t =>
      t.rdN Reg.TWN_CMD_REFUSED = (s.rdN Reg.TWN_CMD_REFUSED + 1) % 4294967296 ∧ s.regsBut t [Reg.TWN_CMD_REFUSED]) ∧
    (s.handoverOk = true → Completes (.twnCmdHandover dt) s fun t => t.twin.handover = true ∧
      t.bit Reg.TWN_CMD 31 = true)) ∧
  (∀ dt (s : State), s.egr.leaving = [] → s.twin.handover = true → s.holding = true → s.paired = true → s.twin.after = [] →
    Completes (.handoverDrainDone dt) s fun t => t.twin.handover = false ∧ t.twin.gatesOpen = false ∧
      t.holding = false ∧ t.bit Reg.TWN_CMD 31 = false ∧
      t.rdN Reg.TWN_HANDOVERS = (s.rdN Reg.TWN_HANDOVERS + 1) % 4294967296) ∧
  (∀ dt h (s : State), s.twin.holdoffFrom = some h → (s.elapse dt).heldOffFrom h = true → s.paired = true → (s.elapse dt).takesBack = true →
    Completes (.holdOffExpiry dt) s fun t => t.twin.holdoffFrom = none ∧
      (t.twin.refreshFrom = some (s.shadowChans.map fun n => (n, (s.chan n).decided)) ∨ t.twin.ready = true))

/-- A resync request asks for snapshots, and cursors are sampled. On a LIVE standby a live-permitted resync request
shows RESYNC set where an unconfirmed channel in SHADOW has no snapshot under way, and changes nothing where there is
none. With no copy still to leave, a cursor sample records the present cursor of every flow. (R299, R358, R380.) -/
def Obligations.ResyncAndCursors : Prop :=
  (∀ dt (s : State), s.mayWrite Reg.TWN_CMD 30 30 = true → s.isStandby = true → s.live = true →
    Completes (.twnCmdResync dt) s fun t =>
      if (s.shadowChans.filter fun n => !s.confirmed n &&
          decide ((s.chan n).snap = Snap.none ∨ (s.chan n).snap = Snap.joined)) = []
      then t.bit Reg.TWN_CMD 30 = s.bit Reg.TWN_CMD 30 else t.bit Reg.TWN_CMD 30 = true) ∧
  (∀ dt (s : State), s.egr.leaving = [] → Completes (.cursorSample dt) s fun t =>
    t.twin.ownCursors.map (fun o => (o.1, o.2.1)) = (s.elapse dt).cursorsNow)

/-- A controller's training and fill make its channels GOOD or FAILED, and its memory zero. At E4 with the restore
window closed, a reference selected and another working die not yet ready: a device of density 1 or 2 whose four
channels find a working setting at the first rate shows that density and rate, its channels are GOOD and its fill
begins on all four; a device of another density leaves its four channels FAILED. When the fill is done every channel
it wrote reads zero and holds no poison, and the controller is ready. The phase stays E4. (R427, R440, R441, R449.) -/
def Obligations.MemoryIsTrainedAndFilled : Prop :=
  ∀ dt (d : Fin 8) (m : Fin 2) (s : State), s.phase = 4 →
    (∃ e < 8, e ≠ d.val ∧ s.dieOk e = true ∧ s.memReady e = false) → s.pic.ctls.length = 16 → s.pic.chans.length = 64 →
    (s.trains d m = true → ∀ (f0 f1 f2 f3 : TrainFound) (dens : Fin 4), dens.val = 1 ∨ dens.val = 2 →
      ([f0, f1, f2, f3].all trainWorks) = true →
      Completes (.memoryTrainingDone dt d m dens [] [[some f0, some f1, some f2, some f3]]) s fun t =>
        t.fld (Reg.MC_STATUS d m) 17 16 = dens.val ∧
        t.fld (Reg.MC_STATUS d m) 26 24 = min 4 (s.fld (Reg.MC_CTRL d m) 2 0) ∧
        (∀ c < 4, t.mcState d (4 * m + c) = 2) ∧ (t.mctl (2 * d + m)).phase = .filling ∧
        (t.mctl (2 * d + m)).fill = [0, 1, 2, 3] ∧ t.phase = 4) ∧
    (s.trains d m = true → ∀ tries (dens : Fin 4), ¬ (dens.val = 1 ∨ dens.val = 2) →
      Completes (.memoryTrainingDone dt d m dens [] tries) s fun t => t.fld (Reg.MC_STATUS d m) 17 16 = dens.val ∧
        (∀ c < 4, t.mcState d (4 * m + c) = 4) ∧ (t.mctl (2 * d + m)).phase = .ready ∧ t.phase = 4) ∧
    ((s.mctl (2 * d + m)).phase = .filling → Completes (.memoryFillDone dt d m) s fun t =>
      (t.mctl (2 * d + m)).phase = .ready ∧ (t.mctl (2 * d + m)).fill = [] ∧ t.phase = 4 ∧
      ∀ c ∈ (s.mctl (2 * d + m)).fill, c < 4 → (t.mchan (8 * d + 4 * m + c)).mem = [] ∧
        (t.mchan (8 * d + 4 * m + c)).poison = [])

/-- Memory requests are accepted, writes reach the device and reads return its bytes. At a ready controller with
nothing waiting and the die not in self-refresh, of an access whose tag, if it has one, agrees with the header of its
buffer: a write of a granule is counted for its port at its acceptance, and a read changes no register but the drain
count. A write that completes without an error stands in the device: its bytes read as written and every other byte of
the channel as before. A read that completes without an error, of blocks not poisoned, gives its port the device's
bytes with those that queued writes held over them, unpoisoned, and counts one request. (R432, R433, R434, R436.) -/
def Obligations.MemoryAccessesComplete : Prop :=
  ∀ dt (d : Fin 8) (s : State), s.pic.ctls.length = 16 → s.pic.chans.length = 64 →
    (∀ (m : Fin 2) (port : Fin 8) (a : Nat) (data : List Byte) (tag : Option AccessTag), (∀ x ∈ tag, (s.elapse dt).ownsBuf x = true) →
      (s.mctl (2 * d + m)).phase = .ready → data ≠ [] →
      a % 128 + data.length ≤ 128 → a + data.length ≤ s.dieBytes d → (s.mcPlaceOf d a).1 / 4 = m.val →
      s.bit (Reg.MC_STATUS d 0) 31 = false → (s.mctl (2 * d + m)).waits = [] →
      ((s.mctl (2 * d + m)).writes.length < 96 → Completes (.memoryRequest dt d m port true false a data.length ⟨data, tag⟩) s fun t =>
        t.rdN (Reg.MCP_REQ d m port) = (s.rdN (Reg.MCP_REQ d m port) + 1) % 4294967296 ∧
        (t.mctl (2 * d + m)).waits = [] ∧ s.regsBut t [Reg.MCP_REQ d m port, Reg.MC_WDRAIN d m]) ∧
      ((s.mctl (2 * d + m)).reads.length < 192 → Completes (.memoryRequest dt d m port false false a data.length ⟨[], tag⟩) s fun t =>
        (t.mctl (2 * d + m)).waits = [] ∧ s.regsBut t [Reg.MC_WDRAIN d m])) ∧
    (∀ (k : Fin 8) (r : MReq) owner rows, (s.mchan (8 * d + k)).cur = some r → r.scrub = false →
      (s.mctl (2 * d + k / 4)).waits = [] →
      let a := (s.mcPlaceOf d r.addr).2
      let was := fun b => sparseGet (fun _ => (0 : Byte)) (s.mchan (8 * d + k)).mem b
      (r.write = true → Completes (.memoryAccessDone dt d k ⟨0, false, [], owner, rows, none⟩) s fun t =>
        (∀ i < r.data.length, some (sparseGet (fun _ => (0 : Byte)) (t.mchan (8 * d + k)).mem (a + i)) = r.data[i]?) ∧
        ∀ b, b < a ∨ a + r.data.length ≤ b →
          sparseGet (fun _ => (0 : Byte)) (t.mchan (8 * d + k)).mem b = was b) ∧
      (r.write = false → (∀ b ∈ s.blocksOf d r, b.1 ∉ (s.mchan (8 * d + k)).poison) →
        Completes (.memoryAccessDone dt d k ⟨0, false, [], owner, rows, none⟩) s fun t =>
          assocGet ([], true) (t.mctl (2 * d + k / 4)).last r.port =
            ((List.range r.len).map fun i => assocGet (was (a + i)) r.fwd (r.addr + i), false) ∧
          t.rdN (Reg.MCP_REQ d (k / 4) r.port) = (s.rdN (Reg.MCP_REQ d (k / 4) r.port) + 1) % 4294967296 ∧
          (t.mchan (8 * d + k)).mem = (s.mchan (8 * d + k)).mem))

/-- Refresh, temperature, self-refresh and retraining of the memory channels. For working channels outside self-
refresh: a refresh brings a found setting into force, counts the retraining and leaves the channel GOOD; a temperature
8 °C from that of the last training, an expired interval, and errors at the TRAIN limit make a retraining pending. A
die idle for 10 ms with it enabled enters self-refresh on both controllers and counts it; after 24 h it leaves it and
its scrub starts at the controllers' first granules. A slice, no sooner than 40 µs after the controller's last one,
takes the next pending channel in turn, counts it and makes it running; its end adds its result to the channel's
passes. (R437, R438, R442, R443, R444.) -/
def Obligations.MemoryIsMaintained : Prop :=
  ∀ dt (d : Fin 8) (s : State), s.pic.ctls.length = 16 → s.pic.chans.length = 64 →
    (∀ k : Fin 8, s.mcWorks d k = true → s.bit (Reg.MC_STATUS d (k / 4)) 31 = false →
      ((s.mchan (8 * d + k)).found = true → Completes (.refreshDue dt d k) s fun t => (t.mchan (8 * d + k)).found = false ∧
        t.rdN (Reg.MCC_RETRAINS d (k / 4) (k % 4)) = (s.rdN (Reg.MCC_RETRAINS d (k / 4) (k % 4)) + 1) % 4294967296 ∧
        t.mcState d k = 2) ∧
      (s.bit (mccStatus d k) 9 = false → s.bit (mccStatus d k) 8 = false →
        ((s.elapse dt).trainDue d k = true → Completes (.retrainIntervalExpiry dt d k) s fun t => t.bit (mccStatus d k) 9 = true ∧
          s.regsBut t [mccStatus d k] ∧ s.sameBut t) ∧
        (s.mcState d k = 2 → s.fld (Reg.MC_CTRL d (k / 4)) 15 8 ≤ (s.elapse dt).liveErrs d k →
          Completes (.memoryErrorInterval dt d k) s fun t => t.bit (mccStatus d k) 9 = true ∧
            s.regsBut t [mccStatus d k]))) ∧
    (∀ (m : Fin 2) temp, (s.mctl (2 * d + m)).phase ≠ .off → Completes (.memoryTempRead dt d m temp) s fun t => ∀ c < 4,
      t.fld (Reg.MCC_TEMP d m c) 7 0 = bitsOf 8 temp ∧
      (s.mcWorks d (4 * m + c) = true → s.bit (Reg.MC_STATUS d m) 31 = false → s.bit (mccStatus d (4 * m + c)) 8 = false →
        8 ≤ (temp - (s.mchan (8 * d + (4 * m + c))).trainTemp).natAbs → t.bit (mccStatus d (4 * m + c)) 9 = true)) ∧
    ((∀ m < 2, s.bit (Reg.MC_CTRL d m) 7 = true ∧ (s.mctl (2 * d + m)).pass = false ∧
        ∀ r ∈ (s.mctl (2 * d + m)).waits ++ (s.mctl (2 * d + m)).reads ++ (s.mctl (2 * d + m)).writes, r.port = 7) →
      (∀ k < 8, s.bit (mccStatus d k) 9 = false ∧ s.bit (mccStatus d k) 8 = false ∧ (s.mchan (8 * d + k)).cur = none) →
      s.memReady d = true → s.bit (Reg.MC_STATUS d 0) 31 = false → (s.elapse dt).memIdle d = true → Completes (.selfRefreshEntry dt d) s fun t =>
        (∀ m < 2, t.bit (Reg.MC_STATUS d m) 31 = true ∧
          t.rdN (Reg.MC_SR_ENTRIES d m) = (s.rdN (Reg.MC_SR_ENTRIES d m) + 1) % 4294967296) ∧
        s.regsBut t [Reg.MC_STATUS d 0, Reg.MC_STATUS d 1, Reg.MC_SR_ENTRIES d 0, Reg.MC_SR_ENTRIES d 1]) ∧
    (s.bit (Reg.MC_STATUS d 0) 31 = true → 86400000000000 ≤ (s.elapse dt).srSpent d → Completes (.selfRefreshScrub dt d) s fun t => ∀ m < 2,
      t.bit (Reg.MC_STATUS d m) 31 = false ∧ t.rdN (Reg.MC_SCRUB_POS d m) = ((s.scrubFrom d m 0).getD 0) % 4294967296) ∧
    (∀ (m : Fin 2) c, (s.mctl (2 * d + m)).slicing = none →
      (∀ t ∈ (s.mctl (2 * d + m)).sliceAt, t + 40000 ≤ (s.elapse dt).now) →
      ((List.range 4).map fun j => ((s.mctl (2 * d + m)).turn + 1 + j) % 4).find? (fun c => (s.trainees d m).contains c) =
        some c → Completes (.retrainingSliceStart dt d m) s fun t =>
        (t.mctl (2 * d + m)).slicing = some c ∧ (t.mctl (2 * d + m)).turn = c ∧ t.bit (mccStatus d (4 * m + c)) 8 = true ∧
        t.rdN (Reg.MCC_SLICES d m c) = (s.rdN (Reg.MCC_SLICES d m c) + 1) % 4294967296) ∧
    (∀ (m : Fin 2) (passed : Fin 256) c, (s.mctl (2 * d + m)).slicing = some c → c < 4 →
      (s.mchan (8 * d + (4 * m + c))).passes.length < 127 → Completes (.retrainingSliceEnd dt d m passed) s fun t =>
        (t.mctl (2 * d + m)).slicing = none ∧
        (t.mchan (8 * d + (4 * m + c))).passes = (s.mchan (8 * d + (4 * m + c))).passes ++ [passed.val])

/-- A die shows its sensors' readings, its hottest one, and its gauges' plan values. Where no sensor is broken, the
two elements of each agree and every reading is below the clear levels and 100 °C (no engine waiting for work), each
THS_READ shows its reading with BROKEN 0, THD_STATUS shows the largest, no broken sensor and the normal state. From E5
on in nominal mode, outside a daily planning, with every cluster working and every gauge sound, each gauge reads
sound, each cluster shows the least plan value of its four gauges, and CAP_DIE the least of the clusters. (R461, R462,
R463, R470, R471.) -/
def Obligations.SensorsAndGaugesAreRead : Prop :=
  (∀ dt (d : Fin 8) (v : Vector Int 16) (s : State), s.plant.dies.length = 8 → s.noneWaits →
    (∀ i < 16, s.bit (Reg.THS_READ d i) 31 = false ∧ -360 ≤ v.toList.getD i 0 ∧ v.toList.getD i 0 < 800 ∧
      v.toList.getD i 0 < 8 * (warnSet s - 5 : Nat) ∧ v.toList.getD i 0 < 8 * (throtSet s - 5 : Nat)) →
    Completes (.sensorSample dt d (v.toList.map fun x => (x, x))) s fun t =>
      (∀ i < 16, t.rdN (Reg.THS_READ d i) = bitsOf 16 (v.toList.getD i 0)) ∧
      (∀ i < 16, v.toList.getD i 0 ≤ t.hottest d) ∧ (∃ i < 16, v.toList.getD i 0 = t.hottest d) ∧
      t.fld (Reg.THD_STATUS d) 20 16 = 0 ∧ thermState (t.therm d) = 0 ∧ (t.therm d).seen = true) ∧
  (∀ dt (d : Fin 8) (counts : List Nat) (s : State), counts.length = 32 → 5 ≤ s.phase → s.phase ≤ 9 →
    s.bit Reg.CAP_CTRL 0 = false → s.plant.daily = none → (∀ c < 8, s.clusterOk d c = true) →
    (∀ c < 8, ∀ i < 4, s.bit (Reg.WAX_G d (4 * c + i)) 31 = false ∧ counts.getD (4 * c + i) 0 ≠ 0 ∧
      let now := fun k => siNow d (4 * c + k % 4) (counts.getD (4 * c + k % 4) 0)
      ((now i : Int) - median3 (now (i + 1)) (now (i + 2)) (now (i + 3))).natAbs ≤ 100) →
    Completes (.waxMeasurement dt d counts) s fun t =>
      (∀ c < 8, (∀ i < 4, t.bit (Reg.WAX_G d (4 * c + i)) 31 = false ∧
          t.fld (Reg.WAX_C d c) 31 16 ≤ t.fld (Reg.WAX_G d (4 * c + i)) 15 0) ∧
        ∃ i < 4, t.fld (Reg.WAX_C d c) 31 16 = t.fld (Reg.WAX_G d (4 * c + i)) 15 0) ∧
      (∀ c < 8, t.fld (Reg.CAP_DIE d) 15 0 ≤ t.fld (Reg.WAX_C d c) 31 16) ∧
      ∃ c < 8, t.fld (Reg.CAP_DIE d) 15 0 = t.fld (Reg.WAX_C d c) 31 16)

/-- A die's thermal dim level rises after the grace time and every 100 ms in the throttle state, and falls below the
clear level. A sample that takes a die with no broken sensor into the throttle state sets its next rise at the grace
time after it from D0, and 100 ms after it from a level above. In the throttle state, once that instant has come, the
end of the grace time sets D1 at D0, and the step timer sets the next level at D1 to D3; the next rise is then 100 ms
on. Once the reading has been below the throttle clear level for 2 s, the recovery timer sets the level before, and
the next 2 s begin. Each shows the level in THM_DIM and THD_STATUS and counts one step; the other dies' levels stay.
(R465.) -/
def Obligations.ThermalDimStepsByOne : Prop :=
  ∀ dt (d : Fin 8) (s : State), s.plant.dies.length = 8 →
    (∀ v : Vector Int 16, s.noneWaits → thermState (s.therm d) ≤ 1 →
      (∀ i < 16, s.bit (Reg.THS_READ d i) 31 = false ∧ -360 ≤ v.toList.getD i 0 ∧ v.toList.getD i 0 < 944) →
      (∃ i < 16, 8 * (throtSet s : Nat) ≤ v.toList.getD i 0) → (s.therm d).shut = false →
      Completes (.sensorSample dt d (v.toList.map fun x => (x, x))) s fun t => thermState (t.therm d) = 2 ∧
        t.thermDim d = s.thermDim d ∧ (t.therm d).riseAt =
          some ((s.elapse dt).now + 1000000 * (if s.thermDim d = 0 then s.fld Reg.THM_CTRL 12 0 else 100 : Nat))) ∧
    ∀ i v, (i = Instr.thermalGraceExpiry dt d ∧ thermState (s.therm d) = 2 ∧
          (∃ r, (s.therm d).riseAt = some r ∧ r ≤ (s.elapse dt).now) ∧ s.thermDim d = 0 ∧ v = 1 ∨
        i = .dimStepTimer dt d ∧ thermState (s.therm d) = 2 ∧
          (∃ r, (s.therm d).riseAt = some r ∧ r ≤ (s.elapse dt).now) ∧ 1 ≤ s.thermDim d ∧ s.thermDim d < 4 ∧
          v = s.thermDim d + 1 ∨
        i = .dimRecoveryTimer dt d ∧ (∃ b, (s.therm d).below = some b ∧ b + 2000000000 ≤ (s.elapse dt).now) ∧
          1 ≤ s.thermDim d ∧ s.thermDim d = v + 1) →
      Completes i s fun t => t.thermDim d = v ∧ t.fld (Reg.THD_STATUS d) 26 24 = v ∧
        (∀ e < 8, e ≠ d.val → t.thermDim e = s.thermDim e) ∧
        t.rdN Reg.THM_DIM_STEPS = (s.rdN Reg.THM_DIM_STEPS + 1) % 4294967296 ∧
        (v = s.thermDim d + 1 → (t.therm d).riseAt = (s.therm d).riseAt.map (· + 100000000) ∧
          (t.therm d).below = (s.therm d).below) ∧
        (s.thermDim d = v + 1 → (t.therm d).riseAt = (s.therm d).riseAt ∧
          (t.therm d).below = (s.therm d).below.map (· + 2000000000)) ∧
        s.regsBut t [Reg.THM_DIM, Reg.THD_STATUS d, Reg.THM_DIM_STEPS, Reg.THM_STATUS, Reg.LNK_TX_FRAMES]

/-- PMBus transfers are asked for in turn, retried three times, and step the core voltages. After E3 an alert asks
every regulator for STATUS_WORD and a poll asks each regulator for its three readings, behind what already waits. With
no end of E6 waiting for voltage raises, a transfer that ends well leaves the queue and shows its value; one that
fails, or holds the bus low for 25 ms, is retried up to three times and then counted and given up (but for what it
leaves undone at E4). A step that is due and may be made, 1 ms or more after the last confirmation, writes the
setpoint 5 mV on and counts it; its write stamps it; READ_VOUT within 5 mV after that write confirms it; a step not
confirmed 1 ms after its write writes the old value back and stops further steps, NO_AVS set. A daily planning in
nominal mode, at a whole day of operating time not yet planned, gives every die the need 1,000 and lets it step again.
(R473, R474, R475, R476, R535.) -/
def Obligations.RegulatorsAreDriven : Prop :=
  (∀ dt (s : State), s.chrysalis = false →
    (Completes (.pmbAlert dt) s fun t =>
      t.plant.pmb = s.plant.pmb ++ (List.range 8).map (fun d => ⟨d, .alert, 0, 0⟩) ∧ s.regsBut t []) ∧
    (Completes (.pmbusPoll dt) s fun t =>
      t.plant.pmb = s.plant.pmb ++ (List.range 8).flatMap (fun d =>
        [⟨d, .vout, 0, 0⟩, ⟨d, .iout, 0, 0⟩, ⟨d, .temp, 0, 0⟩]) ∧ s.regsBut t [])) ∧
  (∀ dt (x : PmbXfer) (rest : List PmbXfer) (value : Nat) (s : State), s.plant.pmb = x :: rest → x.die < 8 →
    s.emg.e6Over = false →
    (x.why = .vout → ∀ old t0, s.plant.avs.length = 8 → (s.avs x.die).step = some (old, some t0) →
      ((value : Int) - s.rdN (Reg.AVS_VOUT x.die)).natAbs ≤ 5 →
      Completes (.pmbusTransferDone dt true value) s fun t => t.plant.pmb = rest ∧ (t.avs x.die).step = none ∧
        (t.avs x.die).confirmed = some (s.elapse dt).now ∧ t.fld (Reg.AVS_READ x.die) 15 0 = value % 65536 ∧
        s.regsBut t [Reg.AVS_READ x.die]) ∧
    (x.why = .setpoint → ∀ old, s.plant.avs.length = 8 → (s.avs x.die).step = some (old, none) →
      Completes (.pmbusTransferDone dt true value) s fun t => t.plant.pmb = rest ++ [⟨x.die, .vout, 0, 0⟩] ∧
        (t.avs x.die).step = some (old, some (s.elapse dt).now) ∧ s.regsBut t []) ∧
    (x.why = .iout → Completes (.pmbusTransferDone dt true value) s fun t => t.plant.pmb = rest ∧
      t.fld (Reg.AVS_READ x.die) 31 16 = value % 65536 ∧
      t.fld (Reg.AVS_READ x.die) 15 0 = s.fld (Reg.AVS_READ x.die) 15 0 ∧ s.regsBut t [Reg.AVS_READ x.die]) ∧
    (x.tries < 3 → ∀ i ∈ [Instr.pmbusTransferDone dt false value, .pmbusStuck dt], Completes i s fun t =>
      t.plant.pmb = { x with tries := x.tries + 1 } :: rest ∧ s.regsBut t []) ∧
    (3 ≤ x.tries → x.why ≠ .mode → (x.why = .setpoint → s.phase ≠ 4) → ∀ i ∈ [Instr.pmbusTransferDone dt false value, .pmbusStuck dt], Completes i s fun t =>
      t.plant.pmb = rest ∧ t.rdN (Reg.AVS_PMB_ERR x.die) = (s.rdN (Reg.AVS_PMB_ERR x.die) + 1) % 4294967296 ∧
      s.regsBut t [Reg.AVS_PMB_ERR x.die])) ∧
  (∀ dt (d : Fin 8) up next (s : State), s.plant.avs.length = 8 → s.plant.daily = none → s.stepDue d = some (up, next) →
    (s.avs d).step = none → s.canStep d up = true → (∀ c, (s.avs d).confirmed = some c → c + 1000000 ≤ (s.elapse dt).now) →
    Completes (.voutStep dt d) s fun t =>
      t.rdN (Reg.AVS_VOUT d) = (if up then s.vcore d + 5 else s.vcore d - 5) ∧ (t.avs d).step = some (s.vcore d, none) ∧
      t.rdN (Reg.AVS_STEPS d) = (s.rdN (Reg.AVS_STEPS d) + 1) % 4294967296 ∧
      t.plant.pmb = s.plant.pmb ++ [⟨d, .setpoint, if up then s.vcore d + 5 else s.vcore d - 5, 0⟩] ∧
      s.regsBut t [Reg.AVS_VOUT d, Reg.AVS_STEPS d]) ∧
  (∀ dt (d : Fin 8) old t0 (s : State), s.plant.avs.length = 8 → s.plant.daily = none → s.emg.e6Over = false →
    (s.avs d).step = some (old, some t0) → t0 + 1000000 ≤ (s.elapse dt).now → Completes (.voutConfirmTimeout dt d) s fun t => t.rdN (Reg.AVS_VOUT d) = old % 4294967296 ∧ (t.avs d).step = none ∧
      (t.avs d).stopped = true ∧ t.bit (Reg.THD_STATUS d) 29 = true ∧ t.plant.pmb = s.plant.pmb ++ [⟨d, .back, old, 0⟩] ∧
      s.regsBut t [Reg.AVS_VOUT d, Reg.THD_STATUS d]) ∧
  (∀ dt (s : State), s.live = true → s.plant.daily = none → s.plant.avs.length = 8 → s.bit Reg.CAP_CTRL 0 = false →
    s.plant.plannedDays < (s.elapse dt).opHours / 24 → Completes (.dailyPlanning dt) s fun t => ∀ d < 8, (t.avs d).need = 1000 ∧ (t.avs d).stopped = false ∧
      t.bit (Reg.THD_STATUS d) 29 = (s.avs d).lost)

/-- An accepted READ, WRITE, BLOCK_READ or SUBSCRIBE acts and is answered under its own key and number. A request on
the MGMT lane that is accepted counts in MGT_RX_OK and is answered once, to its source, with its own number and key.
READ of 1 to 64 words and BLOCK_READ of 1 to 256 return status 0 and a word for each address, among them EMG_STATUS
and EMG_FAIL as they stand; any other count is answered with status 4. A WRITE of EMG_LOG_SEL under the operating key
sets it and reports no refused write. A SUBSCRIBE whose parameters are good makes a subscription of the lowest free
number, or is answered with status 7 where all eight are taken. (R504, R505, R506, R508, R510.) -/
def Obligations.BeaconRequestsAreAnswered : Prop :=
  ∀ dt (m : BeaconMsg) (s : State), m.port = none →
    let answered := fun (t : State) (status : Nat) (p : List Byte) => ∃ tag,
      t.sent = .beacon m.src m.op (1 + 4 * b2n (msgRecovery m)) status (s.rdN Reg.MGT_SESSION) m.seq p tag :: s.sent
    ((s.elapse dt).accepts m 1 →
      (m.payload.length % 4 = 0 → m.payload ≠ [] → m.payload.length ≤ 256 → Completes (.beaconRead dt m) s fun t =>
        ∃ p, p.length = m.payload.length ∧ answered t 0 p) ∧
      (m.payload.length % 4 ≠ 0 ∨ m.payload = [] ∨ 256 < m.payload.length → Completes (.beaconRead dt m) s fun t =>
        answered t 4 []) ∧
      (m.payload = beBytes 4 Reg.EMG_STATUS ++ beBytes 4 Reg.EMG_FAIL → Completes (.beaconRead dt m) s fun t =>
        answered t 0 (beBytes 4 (s.rdN Reg.EMG_STATUS) ++ beBytes 4 (s.rdN Reg.EMG_FAIL)) ∧
        t.rdN Reg.MGT_RX_OK = (s.rdN Reg.MGT_RX_OK + 1) % 4294967296 ∧
        s.regsBut t [Reg.MGT_RX_OK, Reg.MGL_RX_FRAMES])) ∧
    ((s.elapse dt).accepts m 2 → msgRecovery m = false → s.emg.started = true → ∀ v : Word,
      m.payload = beBytes 4 Reg.EMG_LOG_SEL ++ beBytes 4 v.toNat → Completes (.beaconWrite dt m) s fun t =>
        answered t 0 (List.replicate 8 0) ∧ t.fld Reg.EMG_LOG_SEL 12 0 = fldOf v 12 0 ∧
        s.regsBut t [Reg.EMG_LOG_SEL, Reg.MGT_RX_OK, Reg.MGL_RX_FRAMES]) ∧
    ((s.elapse dt).accepts m 3 → ∀ start count, (1 ≤ count → count ≤ 256 → Completes (.beaconBlockRead dt m start count) s fun t =>
        (∃ p, p.length = 4 * count ∧ answered t 0 p) ∧
        (start = Reg.EMG_STATUS → count = 1 → answered t 0 (beBytes 4 (s.rdN Reg.EMG_STATUS)))) ∧
      (count = 0 ∨ 256 < count → Completes (.beaconBlockRead dt m start count) s fun t => answered t 4 [])) ∧
    ((s.elapse dt).accepts m 4 → msgRecovery m = false → ∀ kind action params, subParamsOk kind params = true → action ≠ 0 →
      s.evt.raises = [] →
      (∀ x ∈ s.mgt.subs, x.kind ≠ kind ∨ x.params ≠ params ∨ x.dst ≠ m.src) →
      Completes (.beaconSubscribe dt m kind action params) s fun t =>
        match (List.range 8).find? fun i => (s.sub? i).isNone with
        | some i => answered t 0 [BitVec.ofNat 8 i] ∧ ∃ x, t.mgt.subs = s.mgt.subs ++ [x] ∧ x.num = i ∧ x.kind = kind ∧
            x.params = params ∧ x.dst = m.src ∧ x.renewed = (s.elapse dt).now
        | none => answered t 7 [] ∧ t.mgt.subs = s.mgt.subs)

/-- A Beacon request with a wrong tag, an old number or no place to wait does nothing but count. Whatever Beacon
command it is: a well-formed request of the command's operation that finds 16 waiting counts in MGT_OVERRUN; one whose
tag is not that of an allowed key counts in MGT_AUTH_FAIL; one of the right tag and session whose number is not above
the highest accepted counts in MGT_STALE. No other register but the MGMT lane's frame count changes, nothing is sent,
and no other state than the event unit's. (R505, R506, R507, R509.) -/
def Obligations.UnauthenticRequestsAreDiscarded : Prop :=
  ∀ dt (m : BeaconMsg) (s : State) i op,
    (i, op) ∈ [(Instr.beaconRead dt m, 1), (.beaconWrite dt m, 2), (.beaconBlockRead dt m 0 1, 3),
      (.beaconSubscribe dt m 1 1 [0], 4), (.flashOpen dt m 0 0, 5), (.flashData dt m 0 [0], 5), (.flashCommit dt m, 5),
      (.flashAbort dt m, 5), (.keyClaim dt m, 6)] →
    s.beaconReach m = true → m.op = op → msgFormOk m = true → m.flags % 4 = 0 →
    ∀ a, (16 ≤ m.waiting ∧ a = Reg.MGT_OVERRUN ∨ m.waiting < 16 ∧ s.tagOk m = false ∧ a = Reg.MGT_AUTH_FAIL ∨
        m.waiting < 16 ∧ s.tagOk m = true ∧ m.session = s.rdN Reg.MGT_SESSION ∧ m.seq ≤ s.seqHigh (msgRecovery m) ∧
          a = Reg.MGT_STALE) →
      Completes i s fun t => t.rdN a = (s.rdN a + 1) % 4294967296 ∧ s.regsBut t [a, Reg.MGL_RX_FRAMES] ∧ s.sameBut t

/-- Subscriptions end after 60 s, and notify with their own numbers. A subscription not renewed for 60 s is gone at
its expiry and its bit in MGT_SUBS is 0. On the MGMT lane in service: an events subscription with records to send
sends one notification of the count of lost records and the first 64 records it wants, with its next number; a
telemetry subscription of ranges that fit one message, at a whole multiple of its period, sends the words after the
low word of the counter; a trace subscription with 64 entries to send sends them where all still stand, and moves on
by 64. Each is sent to the subscriber under the key it subscribed with. (R503, R510.) -/
def Obligations.NotificationsLeave : Prop :=
  ∀ dt (i : Fin 8) (x : Sub) (s : State), s.sub? i = some x → s.evt.raises = [] →
    let sends := fun (t : State) (p : List Byte) => ∃ tag,
      t.sent = .beacon x.dst 4 (2 + 4 * b2n x.recovery) 0 (s.rdN Reg.MGT_SESSION) x.seq p tag :: s.sent
    (x.renewed + 60000000000 ≤ (s.elapse dt).now → Completes (.subscriptionExpiry dt i) s fun t => t.sub? i = none ∧
      (∀ k : Fin 8, k ≠ i → t.sub? k = s.sub? k) ∧ ((t.rdN Reg.MGT_SUBS).testBit i = false) ∧
      s.regsBut t [Reg.MGT_SUBS]) ∧
    (x.port = none → s.emg.mgmtUp = true →
      (x.kind = 1 → ((s.recordsFrom x.cursor).filter fun e => x.wants (s.rdN (Reg.EVT_RING e.2 0))) ≠ [] →
        Completes (.eventBatchNotify dt i) s fun t =>
          (∃ l, l = (((s.recordsFrom x.cursor).filter fun e => x.wants (s.rdN (Reg.EVT_RING e.2 0))).take 64) ∧
            sends t (beBytes 2 (min x.lost 65535) ++ l.flatMap fun e => (List.range 4).flatMap fun w =>
              beBytes 4 (s.rdN (Reg.EVT_RING e.2 w))) ∧
            ∃ y, t.sub? i = some y ∧ y.seq = x.seq + 1 ∧ some y.cursor = l.getLast?.map (fun e => e.1 + 1) ∧
              y.lost = 0 ∧ y.params = x.params) ∧ s.regsBut t [Reg.MGT_SUBS]) ∧
      (x.kind = 2 → ∀ a n per, x.params = [per, a, n] → n ≤ 64 → (s.elapse dt).ns % (1000000 * per) = 0 →
        Completes (.telemetryNotify dt i) s fun t =>
        (∃ p, p.length = 4 * n ∧ sends t (beBytes 8 ((s.elapse dt).ns % 2 ^ 64) ++ p)) ∧
        (a = Reg.EMG_STATUS → n = 1 →
          sends t (beBytes 8 ((s.elapse dt).ns % 2 ^ 64) ++ beBytes 4 (s.rdN Reg.EMG_STATUS)))) ∧
      (x.kind = 3 → x.cursor + 64 ≤ s.sch.traceSeq.getD (x.params.getD 0 0) 0 → Completes (.traceNotify dt i) s fun t =>
        (∃ y, t.sub? i = some y ∧ y.cursor = x.cursor + 64 ∧ y.params = x.params) ∧
        ((∀ k < 64, (s.traceIndex (x.params.getD 0 0) (x.cursor + k)).isSome = true) →
          (sends t (((List.range 64).filterMap fun k => s.traceIndex (x.params.getD 0 0) (x.cursor + k)).flatMap fun j =>
            (List.range 4).flatMap fun w => beBytes 4 (s.rdN (Reg.TRACE (x.params.getD 0 0) j w)))) ∧ s.regsBut t [Reg.MGT_SUBS])))

/-- ARP, ICMP echo, IGMP, I²C and JTAG are answered as their rules say. On the MGMT lane in service a request for an
address of the unit and an echo request are counted and answered. On a sub-port in service with room in TC4 they are
answered with one TC4 frame of it, the echo while its port's rate allows it (otherwise it is counted in
NP_RX_ICMP_LIMIT); a query is answered with reports of the groups of its version. An I²C write sets the pointer; a
read returns the bytes of the window copy from the pointer upward, wrapping at 256, and with STOP moves the pointer
past them; the refresh takes a new copy; an abandoned transfer keeps the pointer. IDCODE drives the identification
code, boundary scan what it captured. None changes a register but the counters named. (R101, R302, R404, R512, R534,
R536.) -/
def Obligations.SideInterfacesAnswer : Prop :=
  (∀ dt (sub : Fin 4) src nd len (s : State), s.emg.mgmtUp = true →
    ∀ i k, (i, k) ∈ [(Instr.arpRx dt none sub src ⟨nd, true⟩, 1), (.icmpEchoRx dt none sub src len, 2)] →
      Completes i s fun t => t.sent = .reply k 8 src [] :: s.sent ∧
        t.rdN Reg.MGL_RX_FRAMES = (s.rdN Reg.MGL_RX_FRAMES + 1) % 4294967296 ∧ s.regsBut t [Reg.MGL_RX_FRAMES]) ∧
  (∀ dt (p : Fin 8) (sub : Fin 4) src nd len (s : State), s.subUp p sub = true → s.classOn p 4 < 1024 → 0 < s.bufFree p →
    s.ing.echoes.length = 8 →
    (Completes (.arpRx dt (some p) sub src ⟨nd, true⟩) s fun t => s.regsBut t [] ∧
      ∃ f, t.egr.queue = s.egr.queue ++ [f] ∧ f.cls = 4 ∧ f.port = p.val ∧ f.sub = sub.val ∧ f.what = .reply 1 p src []) ∧
    (((s.elapse dt).echoOk p).2 = true → Completes (.icmpEchoRx dt (some p) sub src len) s fun t =>
      s.regsBut t [] ∧ ∃ f, t.egr.queue = s.egr.queue ++ [f] ∧ f.cls = 4 ∧ f.port = p.val ∧ f.what = .reply 2 p src []) ∧
    (((s.elapse dt).echoOk p).2 = false → Completes (.icmpEchoRx dt (some p) sub src len) s fun t =>
      t.egr.queue = s.egr.queue ∧ t.rdN (Reg.NP_RX_ICMP_LIMIT p sub) = (s.rdN (Reg.NP_RX_ICMP_LIMIT p sub) + 1) % 4294967296 ∧
      s.regsBut t [Reg.NP_RX_ICMP_LIMIT p sub]) ∧
    (∀ mld, s.groupsOn p mld ≠ [] → Completes (.igmpQueryRx dt p sub mld) s fun t => s.regsBut t [] ∧
      ∃ f, t.egr.queue = s.egr.queue ++ [f] ∧ f.cls = 4 ∧ f.port = p.val ∧ f.what = .reply 3 p 0 (s.groupsOn p mld))) ∧
  (∀ dt (s : State), s.emg.i2cUp = true →
    (∀ v : Byte, Completes (.i2cPointerWrite dt v) s fun t => t.mgt.i2cPtr = v.toNat ∧ s.regsBut t []) ∧
    (∀ len stop, s.mgt.i2cPtr < 256 → Completes (.i2cRead dt len stop) s fun t =>
      t.sent = .i2c ((List.range len).map fun i => s.mgt.i2cCopy.getD ((s.mgt.i2cPtr + i) % 256) 0) :: s.sent ∧
      t.mgt.i2cPtr = (if stop then (s.mgt.i2cPtr + len) % 256 else s.mgt.i2cPtr) ∧ s.regsBut t []) ∧
    (Completes (.i2cWindowRefresh dt) s fun t => t.mgt.i2cCopy.take 2 = leBytes 2 (s.fld Reg.IDN_PART 15 0) ∧
      (t.mgt.i2cCopy.drop 0x18).take 4 = leBytes 4 (s.rdN Reg.EMG_STATUS) ∧ t.mgt.i2cCopy.length = 256 ∧ s.regsBut t [])) ∧
  (∀ dt (s : State), s.mgt.i2cPtr < 256 → Completes (.i2cTimeout dt) s fun t => t.mgt.i2cPtr = s.mgt.i2cPtr ∧
    t.mgt.i2cBusy = false ∧ s.regsBut t []) ∧
  (∀ dt (kind : Fin 3) capture (s : State), Completes (.jtagInstruction dt kind capture) s fun t => s.regsBut t [] ∧
    t.fuses = s.fuses ∧
    t.sent = (if kind = 0 then [.tdo idcode] else if kind = 1 then [.tdo capture] else []) ++ s.sent)

/-- A Lantern frame with a bad CRC, of another type, or not the next in order changes nothing but a counter. Whichever
Lantern receive command it is, on a paired unit with a locked lane: a bad CRC adds 1 to LNK_CRC_ERR; a good frame of
another type, or but for cursors with another LSEQ than the next, adds 1 to LNK_DISCARD. Nothing else changes: no
other register, no record, no item, and not the acknowledged LSEQ. (R398, R397.) -/
def Obligations.LanternFramesAreChecked : Prop :=
  ∀ dt (h : LHeader) (s : State) input record entry gap n id index body lvl k part digest band entries bytes a v fields x y i type,
    (i, type) ∈ [(Instr.decisionRecordRx dt h input record, 1), (.bandEntryRx dt h n index entry, 2), (.gapEntryRx dt h gap, 3),
      (.liveWriteRx dt h a v, 4), (.spliceCommandRx dt h n id index body, 5), (.dimReportRx dt h n lvl, 6),
      (.inputDigestRx dt h n k part digest, 7), (.outputDigestRx dt h n k band digest, 8), (.cursorFrameRx dt h entries, 9),
      (.failureRecordRx dt h bytes, 10), (.snapshotFrameRx dt h n x, 11), (.joinControlRx dt h y, 12),
      (.liveRegisterImageRx dt h fields, 13)] → s.paired = true → s.fld Reg.LNK_STATUS 15 8 ≠ 0 →
    ∀ c, (h.crcOk = false ∧ c = Reg.LNK_CRC_ERR ∨
        h.crcOk = true ∧ (h.type ≠ type ∨ type ≠ 9 ∧ h.lseq ≠ (s.link.rxSeq + 1) % 65536) ∧ c = Reg.LNK_DISCARD) →
      Completes i s fun t => t.rdN c = (s.rdN c + 1) % 4294967296 ∧ s.regsBut t [c] ∧ s.sameBut t

/-- A standby keeps what the holder sends for the steps to come, and counts the frame. An accepted frame counts in
LNK_RX_FRAMES and, but for cursors, is acknowledged by its LSEQ. On a standby: a good record part of an item not yet
begun, a good band entry and a good gap entry not yet reached are kept for their step, a gap's held datagrams
discarded; a splice body is kept; a first cursor of a flow is its resume point. A dim report is kept with the level
before it and its instant; a failure record only counts. (R119, R246, R343, R345, R357, R376, R398.) -/
def Obligations.HolderMessagesAreKept : Prop :=
  ∀ dt (h : LHeader) (s : State), s.chans.length = 96 →
    let counted := fun (t : State) => t.rdN Reg.LNK_RX_FRAMES = (s.rdN Reg.LNK_RX_FRAMES + 1) % 4294967296
    (s.isStandby = true → s.noneWaits →
      (∀ input bytes, recordOk bytes = true → let r := readRecord bytes; s.takesFrame h 1 → r.chan < 96 → s.item? r.chan r.index = none →
        (s.chan r.chan).next ≤ r.index → Completes (.decisionRecordRx dt h input bytes) s fun t => counted t ∧
          t.link.rxSeq = h.lseq ∧ (t.chan r.chan).parts.head? = some (r.index, input, r) ∧ s.regsBut t [Reg.LNK_RX_FRAMES]) ∧
      (∀ (n : Fin 96) k bytes, entryIntact bytes = true → s.takesFrame h 2 → s.item? n k = none →
        Completes (.bandEntryRx dt h n k bytes) s fun t => counted t ∧ t.link.rxSeq = h.lseq ∧
          (t.chan n).entries.head? = some (readEntry n k bytes) ∧ s.regsBut t [Reg.LNK_RX_FRAMES]) ∧
      (∀ bytes, gapOk bytes = true → let g := readGap bytes; s.takesFrame h 3 → g.chan < 96 →
        (∀ x ∈ (s.chan g.chan).gaps ++ [g], (s.chan g.chan).nextSeq ≠ some x.first) →
        Completes (.gapEntryRx dt h bytes) s fun t => counted t ∧ t.link.rxSeq = h.lseq ∧
          (t.chan g.chan).gaps = (s.chan g.chan).gaps ++ [g] ∧
          (∀ x, x ∈ (t.chan g.chan).held ↔ x ∈ (s.chan g.chan).held ∧ ¬ (g.first ≤ x.1 ∧ x.1 < g.first + g.count)) ∧
          s.regsBut t [Reg.LNK_RX_FRAMES])) ∧
    (s.isStandby = true →
      (∀ (n : Fin 96) id index body, s.takesFrame h 5 → Completes (.spliceCommandRx dt h n id index body) s fun t =>
        counted t ∧ t.link.rxSeq = h.lseq ∧ (t.chan n).bodies.head? = some (id, index, body) ∧
        s.regsBut t [Reg.LNK_RX_FRAMES]) ∧
      (∀ flow cursor, s.takesFrame h 9 → flow < 2048 → (s.twin.cursors.find? fun e => e.1 == flow) = none →
        Completes (.cursorFrameRx dt h [(flow, cursor)]) s fun t => counted t ∧ t.link.rxSeq = s.link.rxSeq ∧
          (t.twin.cursors.find? fun e => e.1 == flow) = some (flow, cursor % 4294967296) ∧
          s.regsBut t [Reg.LNK_RX_FRAMES])) ∧
    (∀ (n : Fin 96) (lvl : Fin 5), s.takesFrame h 6 → Completes (.dimReportRx dt h n lvl) s fun t => counted t ∧
      t.link.rxSeq = h.lseq ∧ t.twin.partnerDims.head? = some (n.val, lvl.val,
        ((s.twin.partnerDims.find? fun e => e.1 == n.val).map fun e => e.2.1).getD 0, (s.elapse dt).now) ∧
      s.regsBut t [Reg.LNK_RX_FRAMES]) ∧
    (∀ bytes, s.takesFrame h 10 → bytes.length = 32 → Completes (.failureRecordRx dt h bytes) s fun t => counted t ∧
      t.link.rxSeq = h.lseq ∧ t.rdN Reg.SAF_FR_PARTNER = (s.rdN Reg.SAF_FR_PARTNER + 1) % 4294967296 ∧
      s.regsBut t [Reg.LNK_RX_FRAMES, Reg.SAF_FR_PARTNER])

/-- Digests, live writes, snapshots and missing records act on their channel. A digest of the partner that does not
yet complete the comparison stands with its item. A standby writes the holder's live value into its own live-permitted
word, alone or in the register image, which ends the wait for it. A holder with two lanes takes a request for a
snapshot of a running channel, and the join state that a joining channel without items of its own waits for gives it
its rate control and refresh state. References that arrive intact start the catch-up. A digest that never came, and an
input step the standby must fix itself because the holder's record did not come, make the channel unconfirmed; that
input step is then fixed as the unit's own. (R344, R345, R346, R371, R375, R397.) -/
def Obligations.PartnersAreComparedAndJoined : Prop :=
  (∀ dt (h : LHeader) (n : Fin 96) k part digest (it : Item) (s : State), s.takesFrame h 7 → s.chans.length = 96 →
    s.item? n k = some it → (s.asCompared n { it with inPartner := it.inPartner.set part (some digest) }).agrees = none →
    it.left = none → it.abandoned = false → Completes (.inputDigestRx dt h n k part digest) s fun t =>
      t.item? n k = some { it with inPartner := it.inPartner.set part (some digest) } ∧ s.regsBut t [Reg.LNK_RX_FRAMES]) ∧
  (∀ dt (h : LHeader) (n : Fin 96) k digest (it : Item) (s : State), s.takesFrame h 8 → s.chans.length = 96 →
    s.item? n k = some it → it.left = none → it.abandoned = false →
    ((s.asCompared n { it with muxPartner := some digest }).agrees = none →
      Completes (.outputDigestRx dt h n k none digest) s fun t => t.item? n k = some { it with muxPartner := some digest }) ∧
    (∀ b, ((s.modBand n k b fun x => { x with partner := some digest }).item? n k).map (fun x => (s.asCompared n x).agrees) = some none →
      b < it.bands.length → Completes (.outputDigestRx dt h n k (some b) digest) s fun t =>
        (t.item? n k).map (fun x => (x.band b).partner) = some (some digest))) ∧
  (∀ dt (h : LHeader) (p : Fin 16) (w : Fin 6) (v : Word) (s : State), s.isStandby = true →
    s.mayWrite (Reg.AUD_CS_TX_A p w) 31 0 = true →
    (s.takesFrame h 4 → Completes (.liveWriteRx dt h (Reg.AUD_CS_TX_A p w) v) s fun t =>
      t.rd (Reg.AUD_CS_TX_A p w) = v ∧ s.regsBut t [Reg.AUD_CS_TX_A p w, Reg.LNK_RX_FRAMES]) ∧
    (s.takesFrame h 13 → Completes (.liveRegisterImageRx dt h [(Reg.AUD_CS_TX_A p w, v.toNat)]) s fun t =>
      t.rd (Reg.AUD_CS_TX_A p w) = v ∧ t.link.imageDue = false ∧
      s.regsBut t [Reg.AUD_CS_TX_A p w, Reg.LNK_RX_FRAMES])) ∧
  (∀ dt (h : LHeader) (n : Fin 96) (s : State), s.chans.length = 96 →
    (s.takesFrame h 12 → s.holding = true → s.running n = true → 2 ≤ lanesOf s.stripe →
      Completes (.joinControlRx dt h (.request n)) s fun t => (t.chan n).snap = .asked ∧
        s.regsBut t [Reg.LNK_RX_FRAMES]) ∧
    (∀ item x, s.takesFrame h 11 → s.isStandby = true → s.noneWaits → (s.chan n).await = some item →
      (s.chan n).items = [] → (∀ d ∈ s.sch.descs, d.st ≠ .waiting) →
      Completes (.snapshotFrameRx dt h n (.joinState item x)) s fun t => (t.chan n).rc = x.rc ∧
        (t.chan n).lastRefresh = x.lastRefresh ∧ (t.chan n).lastIrap = x.lastIrap ∧ (t.chan n).decided = item ∧
        (t.chan n).await = none ∧ s.regsBut t [Reg.LNK_RX_FRAMES]) ∧
    ((s.chan n).snap = .requested true → s.refsOk n = true → Completes (.snapshotReferencesArrived dt n) s fun t =>
      (t.chan n).snap = .catching)) ∧
  (∀ dt (n : Fin 96) k (it : Item) (s : State), s.item? n k = some it → s.isStandby = true →
    (it.compared = false → s.chanState n = 5 → s.releaseAt n it + 1000000 ≤ (s.elapse dt).now →
      (s.asCompared n it).lacksPartner = true → Completes (.holderDigestMissing dt n k) s fun t =>
      t.confirmed n = false ∧ t.bit (Reg.CHN_STATE n) 12 = true) ∧
    (s.paired = true → it.controlFixed = true → it.inputFixed = false → it.accepted = false → s.noneWaits →
      Completes (.recordWaitTimeout dt n k 1 0) s fun t => t.confirmed n = false ∧
        (t.item? n k).map (fun u => (u.inputFixed, u.own)) = some (true, true)))

/-- Admission, E8's end, the ENABLE write and the end of disabling move the channels as their rules say. At E8
admission leaves every enabled channel ADMITTED or SHED and no other channel's state changed, with ADMITTED effort
taken from EFFORT. With every channel DISABLED or SHED the E8 limit makes an unpaired unit LIVE: sealed, SAFE_N high,
its time recorded and its stream gates open. An ENABLE write that is not live-permitted is refused and counted if it
would change the bit; a permitted one sets the bit, offers the channel to the next plan, or begins to disable a
running channel. With no copy still to leave, a channel being disabled whose items have all left is DISABLED, with
nothing kept but its failure records. (R49, R80, R86, R89, R97.) -/
def Obligations.ChannelsAreAdmittedAndEnabled : Prop :=
  (∀ dt (s : State), s.phase = 8 → s.cap.admitted = false → s.chans.length = 96 → Completes (.admission dt) s fun t =>
    t.cap.admitted = true ∧ ∀ n < 96, if s.bit (Reg.CHN_CTRL n) 0 = true
      then (t.chanState n = 1 ∨ t.chanState n = 6) ∧ t.fld (Reg.CHN_EFFORT n) 18 16 = s.fld (Reg.CHN_EFFORT n) 2 0
      else t.chanState n = s.chanState n) ∧
  (∀ dt (s : State), s.phase = 8 → s.cap.admitted = true → s.paired = false →
    (∀ n < 96, s.chanState n = 0 ∨ s.chanState n = 6) → Completes (.e8Timeout dt) s fun t =>
      t.phase = 9 ∧ t.sealed = true ∧ t.bit Reg.SAF_STATUS 30 = true ∧ t.twin.gatesOpen = true ∧
      t.rdN Reg.EMG_T_LIVE = (s.elapse dt).usE0 % 4294967296) ∧
  (∀ dt (n : Fin 96) e (s : State), s.chans.length = 96 →
    (s.mayWrite (Reg.CHN_CTRL n) 0 0 = false → s.bit (Reg.CHN_CTRL n) 0 ≠ e → Completes (.chnEnableWrite dt n e) s fun t =>
      t.rdN Reg.MGT_REFUSED = (s.rdN Reg.MGT_REFUSED + 1) % 4294967296 ∧ s.regsBut t [Reg.MGT_REFUSED] ∧ s.sameBut t) ∧
    (s.mayWrite (Reg.CHN_CTRL n) 0 0 = true → s.live = false → s.bit (Reg.CHN_CTRL n) 0 = false →
      Completes (.chnEnableWrite dt n true) s fun t => t.bit (Reg.CHN_CTRL n) 0 = true ∧ n.val ∈ t.cap.offered ∧
        t.chanState n = s.chanState n) ∧
    (s.mayWrite (Reg.CHN_CTRL n) 0 0 = true → s.bit (Reg.CHN_CTRL n) 0 = true → s.running n = true →
      Completes (.chnEnableWrite dt n false) s fun t => t.bit (Reg.CHN_CTRL n) 0 = false ∧ n.val ∉ t.cap.offered ∧
        (t.chan n).disabling = true ∧ t.chanState n = s.chanState n) ∧
    (s.egr.leaving = [] → (s.chan n).disabling = true → (∀ it ∈ (s.chan n).items, it.left.isSome = true ∨ it.abandoned = true) →
      Completes (.channelDisabled dt n) s fun t => t.chanState n = 0 ∧ t.fld (Reg.CHN_STATE n) 11 8 = 13 ∧
        t.chan n = { Chan.reset with records := (s.chan n).records }))

/-- A placed channel begins its stream at a boundary, and each control step begins one item. In a LIVE unit that is no
standby, at its picture boundary a placed ADMITTED channel that is neither being disabled nor shed goes to PRIMING,
its next item the first of a new stream. A control step does nothing for a channel that does not run or is being
disabled, passes over an item that a joining channel skips, and otherwise, in an unpaired unit, begins the next item
and fixes its control part, so that the index after it comes next. (R80, R82, R170, R371.) -/
def Obligations.ChannelsPrimeAndStep : Prop :=
  ∀ dt (n : Fin 96) (s : State), s.chans.length = 96 → s.noneWaits →
    (s.phase = 9 → s.isStandby = false → (s.chan n).disabling = false → (s.chan n).shedding = none →
      (s.chan n).place.isSome = true → (s.chan n).freed = false → s.chanState n = 1 →
      Completes (.pictureBoundary dt n) s fun t => t.chanState n = 2 ∧ (t.chan n).starts = true ∧ (t.chan n).next = 0 ∧
        (t.chan n).items = [] ∧ t.confirmed n = false ∧ ∀ m < 96, m ≠ n.val → t.chan m = s.chan m) ∧
    (s.running n = false ∨ (s.chan n).disabling = true → Completes (.controlStep dt n) s fun t =>
      s.regsBut t [] ∧ s.sameBut t) ∧
    (s.running n = true → (s.chan n).disabling = false → s.skips n = true → Completes (.controlStep dt n) s fun t =>
      t.chan n = { s.chan n with next := (s.chan n).next + 1 } ∧ s.regsBut t []) ∧
    (s.running n = true → (s.chan n).disabling = false → s.skips n = false → s.paired = false →
      s.item? n (s.chan n).next = none → Completes (.controlStep dt n) s fun t => (t.chan n).next = (s.chan n).next + 1 ∧
        (t.item? n (s.chan n).next).map (·.controlFixed) = some true ∧ (t.chan n).starts = false)

/-- A media frame is discarded and counted, or matched, policed and stored. On a port in service every frame counts in
NP_RX_FRAMES. One with a bad FCS, a MAC control frame, an overrun, or headers outside R101 counts for its reason and
does nothing more; one for the control handlers only counts; one that no flow matches counts as unmatched. A matched
frame that its bucket does not hold counts in FT_MATCHED, FT_POLICED and NP_RX_POLICED and keeps the fill. A
conforming audio frame of an audio flow, its number not yet taken, writes, with no engine waiting, its sample to the
flow's buffer, and a second copy writes nothing. (R101, R102, R104, R106, R107, R108, R110.) -/
def Obligations.FramesAreCountedAndPoliced : Prop :=
  ∀ dt (m : MediaFrame) (s : State), m.port < 8 → m.sub < 4 → s.portUp m.port = true →
    let frames := Reg.NP_RX_FRAMES m.port m.sub
    let up := fun (t : State) (a : Nat) => t.rdN a = (s.rdN a + 1) % 4294967296
    let path := s.fld (Reg.NP_CTRL m.port) 2 2
    (∀ k a, (k, a) ∈ [(1, Reg.NP_RX_FCS m.port m.sub), (2, Reg.NP_RX_MACCTL m.port m.sub),
        (3, Reg.NP_RX_OVERRUN m.port m.sub)] → m.fault = k → Completes (.mediaFrameRx dt m) s fun t =>
          up t frames ∧ up t a ∧ s.regsBut t [frames, a] ∧ s.sameBut t) ∧
    (m.fault = 0 → badHeader m = true → Completes (.mediaFrameRx dt m) s fun t => up t frames ∧
      up t (Reg.NP_RX_HEADER m.port m.sub) ∧ s.regsBut t [frames, Reg.NP_RX_HEADER m.port m.sub] ∧ s.sameBut t) ∧
    (m.fault = 0 → badHeader m = false → m.control = true → Completes (.mediaFrameRx dt m) s fun t => up t frames ∧ s.regsBut t [frames] ∧
      s.sameBut t) ∧
    (m.fault = 0 → badHeader m = false → m.control = false → s.flowOf m path = none → Completes (.mediaFrameRx dt m) s fun t => up t frames ∧
      up t (Reg.NP_RX_UNMATCHED m.port m.sub) ∧ s.regsBut t [frames, Reg.NP_RX_UNMATCHED m.port m.sub] ∧ s.sameBut t) ∧
    (∀ i, m.fault = 0 → badHeader m = false → m.control = false → s.flowOf m path = some i → i < 65536 →
      ((s.elapse dt).bucketFill i m.port < 8000 * m.len → Completes (.mediaFrameRx dt m) s fun t => up t frames ∧
        up t (Reg.FT_MATCHED i) ∧ up t (Reg.FT_POLICED i) ∧ up t (Reg.NP_RX_POLICED m.port m.sub) ∧
        t.bucketFill i m.port = (s.elapse dt).bucketFill i m.port ∧
        s.regsBut t [frames, Reg.FT_MATCHED i, Reg.FT_POLICED i, Reg.NP_RX_POLICED m.port m.sub]) ∧
      (8000 * m.len ≤ (s.elapse dt).bucketFill i m.port → s.noneWaits → ∀ w, m.body = .audio [[w]] → s.fld (Reg.FT_CTRL i) 26 24 = 1 →
        s.fld (Reg.FT_BIND i) 6 0 = 1 → Completes (.mediaFrameRx dt m) s fun t => up t frames ∧ up t (Reg.FT_MATCHED i) ∧
          t.bucketFill i m.port = (s.elapse dt).bucketFill i m.port - 8000 * m.len ∧
          s.regsBut t [frames, Reg.FT_MATCHED i] ∧
          let b := s.fld (Reg.FT_BIND i) 19 10
          if (s.elapse dt).seqTaken (s.flowKey i) m.seq = true then t.aud = s.aud
          else (t.abuf b).words.head? = some (audioWord false (s.bit (Reg.FT_FORMAT i) 8) w)))

/-- Paths go down, gaps are passed over, empty slots and late bands are repaired, and prepared pictures are noted. A
path that was up goes down and shows it. In an unpaired unit, with no engine waiting: a gap held for its window is
counted, one entry for each 65,535 numbers, is an error of class 2 and passed over, and the NAL unit under way ends;
at half a period past its boundary an empty slot of a context whose input was present shows the loss of input, and its
item leaves as a repeat; at its deadline a band not yet ready has its missing lines counted as repaired, and an
accepted picture's band is then ready; and preparation of a picture whose bands are all ready notes the digest of its
prepared samples and makes it the repair source. (R110, R111, R115, R118, R120, R246, R247.) -/
def Obligations.InputsEndAndBegin : Prop :=
  ∀ dt (n : Fin 96) (s : State), s.chans.length = 96 →
    (∀ path : Fin 2, (s.chan n).paths.length = 2 → ((s.chan n).paths.getD path ⟨false, none⟩).up = true →
      Completes (.pathDown dt n path) s fun t => ((t.chan n).paths.getD path ⟨true, none⟩).up = false ∧
        t.bit (Reg.CHN_IN_STATUS n) path = false ∧ s.regsBut t [Reg.CHN_IN_STATUS n]) ∧
    (s.paired = false → s.noneWaits →
      (∀ q h, (s.chan n).nextSeq = some q → ((s.chan n).held.map (·.1)).min? = some h → q < h →
        (∀ x ∈ (s.chan n).held, x.2 = []) → Completes (.tsGapPass dt n) s fun t =>
          t.rdN (Reg.CHN_IN_GAPS n) = (s.rdN (Reg.CHN_IN_GAPS n) + ceilDiv (h - q) 65535) % 4294967296 ∧
          t.rdN (Reg.CHN_IN_DEC_ERR n) = (s.rdN (Reg.CHN_IN_DEC_ERR n) + 1) % 4294967296 ∧ t.fld (Reg.CHN_IN_LAST_ERR n) 7 0 = 2 ∧
          s.regsBut t [Reg.CHN_IN_GAPS n, Reg.CHN_IN_DEC_ERR n, Reg.CHN_IN_LAST_ERR n] ∧
          (t.chan n).demux.nal = none ∧ ∃ r, (t.chan n).nextSeq = some r ∧ h < r) ∧
      (∀ k (it : Item), s.item? n k = some it → it.inputFixed = false → it.accepted = false → it.controlFixed = true →
        it.dr.slateEn = false → s.inputOf n < 96 → (s.chan (s.inputOf n)).absent = none →
        Completes (.slotEmpty dt n k) s fun t => t.bit (Reg.CHN_IN_STATUS (s.inputOf n)) 4 = true ∧
          (t.chan (s.inputOf n)).absent = some (bndDtc it) ∧
          (((n : Nat), k) ∈ s.slotItems (s.inputOf n) (bndDtc it) →
            (t.item? n k).map (fun u => (u.inputFixed, u.dr.outcome)) = some (true, 1))) ∧
      (∀ k b (it : Item), s.item? n k = some it → (it.band b).done = 0 → b < s.bands n → s.inputOf n < 96 →
        s.chKind (s.inputOf n) ≠ 1 → Completes (.bandDeadline dt n k b) s fun t =>
          t.rdN (Reg.CHN_IN_LINES_REP (s.inputOf n)) = (s.rdN (Reg.CHN_IN_LINES_REP (s.inputOf n)) +
            s.entryLines n (entryFor n k b (s.missingLines n it b))) % 4294967296 ∧
          (it.inputFixed = true → it.form = .coded → b < it.bands.length →
            (t.item? n k).map (fun u => (u.band b).done) = some 1)) ∧
      (∀ k (it : Item), s.item? n k = some it → it.prep = 1 → it.inDigest = [none] → (∀ b ∈ it.bands, b.done ≠ 0) →
        Completes (.preparationDone dt n k) s fun t => (t.chan n).repairFrom = some k ∧
          t.item? n k = some { it with prep := 2, inDigest := [some (s.inputDigestOf n k 0)] }))

/-- Engines take, complete and are reset, waiting allocations are made, and the trace is controlled. With no engine
waiting: an idle engine that asks and finds nothing it may serve waits; one that finds a piece with no side effects of
its taking (neither stage 2 nor 3 nor a decode piece) holds it, and the descriptor is TAKEN by it with ATTEMPT one
higher; a completion of a piece of stage 1, 2, 4 or 7 leaves the engine idle, counts for it, and takes the band past
that stage; after stage 7 its descriptor is free. A reset engine that is ready is idle, one that is not within its
bound is failed, counted and out of its cluster. A waiting allocation whose item is gone is forgotten, one whose slot
is not free goes on waiting, and one whose slot and descriptor are free becomes a descriptor of that band, at stage 1
or later. A write of TRC_CTRL sets KINDS, and MODE unless the value is the reserved one; with RESTART it sets the head
of the trace ring to 0. (R256, R259, R260, R263, R266, R268, R269, R274.) -/
def Obligations.EnginesTakeAndFinishWork : Prop :=
  (∀ dt (e : Fin 464) (s : State), s.noneWaits → s.engOk e = true →
    (s.eng? e = none → s.bestFor e = none → Completes (.takeRequest dt e) s fun t => t.eng? e = some (.waits (s.elapse dt).ns) ∧
      t.sch.descs = s.sch.descs ∧ s.regsBut t []) ∧
    (∀ d, s.eng? e = none → s.bestFor e = some d → d.decode = false → d.stage ≠ 2 → d.stage ≠ 3 →
      s.descAt d.die d.no = some d → Completes (.takeRequest dt e) s fun t =>
        t.eng? e = some (.holds d.die d.no (s.elapse dt).ns) ∧ t.descAt d.die d.no = some { d with
          st := .taken, engine := e, tTake := (s.elapse dt).phaseTime, attempt := d.attempt + 1 })) ∧
  (∀ dt (e : Fin 464) (s : State), s.noneWaits →
    (∀ (d : Desc) since r, s.eng? e = some (.holds d.die d.no since) → s.descAt d.die d.no = some d →
      d.engine = e → d.st = .taken → d.decode = false → d.stage ∈ [1, 2, 4, 7] → Completes (.workComplete dt e r) s fun t =>
        t.eng? e = none ∧
        (e.val < 448 → t.rdN (Reg.CL_ITEMS_E (engDie e) (engCluster e) (e.val % 7)) =
          (s.rdN (Reg.CL_ITEMS_E (engDie e) (engCluster e) (e.val % 7)) + 1) % 4294967296) ∧
        (∀ it, s.item? d.chan d.idx = some it → d.band < it.bands.length → (it.band d.band).done = d.stage →
          (d.stage ≠ 7 → (t.item? d.chan d.idx).map (fun u => (u.band d.band).done) = some (d.stage + 1)) ∧
          (d.stage = 7 → t.descAt d.die d.no = none ∧ ∀ u, t.item? d.chan d.idx = some u → (u.band d.band).done = 8))) ∧
    (s.eng? e = some .resets →
      (Completes (.engineResetDone dt e) s fun t => t.eng? e = none ∧ s.regsBut t []) ∧
      (Completes (.engineResetTimeout dt e) s fun t => t.eng? e = some .failed ∧
        t.rdN (Reg.SCH_ENG_FAIL (engDie e)) = (s.rdN (Reg.SCH_ENG_FAIL (engDie e)) + 1) % 4294967296 ∧
        (e.val < 448 → t.bit (Reg.CL_STATUS (engDie e) (engCluster e)) (e.val % 7) = false)))) ∧
  (∀ dt i (w : AllocWait) (s : State), s.noneWaits → s.sch.waits[i]? = some w → w.decode = false →
    (s.item? w.chan w.idx = none → Completes (.allocationWaitEnd dt i) s fun t =>
      t.sch.waits = s.sch.waits.filter (fun x => !(x == w)) ∧ t.sch.descs = s.sch.descs ∧
      (s.fld (Reg.TRC_CTRL w.die) 9 8 = 0 → s.regsBut t [])) ∧
    (s.slotFree w.chan w.idx false = false → (s.item? w.chan w.idx).isSome = true →
      Completes (.allocationWaitEnd dt i) s fun t => s.regsBut t [] ∧ s.sameBut t) ∧
    (∀ it, s.item? w.chan w.idx = some it → s.slotFree w.chan w.idx false = true →
      s.descFree w.chan (s.partOf w.chan w.band) (s.dieOf w.chan (s.partOf w.chan w.band)) = true →
      Completes (.allocationWaitEnd dt i) s fun t =>
        t.sch.waits = s.sch.waits.filter (fun x => !(x == w)) ∧ ∃ d ∈ t.sch.descs, d.chan = w.chan ∧ d.idx = w.idx ∧ d.band = w.band ∧
          d.stage = max 1 (it.band w.band).done ∧ d.decode = false ∧ d.engine = 1023)) ∧
  (∀ dt (d : Fin 8) v (s : State), Completes (.trcRestart dt d v) s fun t =>
    (if fldOf v 0 0 = 1 then t.rdN (Reg.TRC_HEAD d) = 0 else t.rdN (Reg.TRC_HEAD d) = s.rdN (Reg.TRC_HEAD d)) ∧
    t.fld (Reg.TRC_CTRL d) 31 16 = fldOf v 31 16 ∧
    t.fld (Reg.TRC_CTRL d) 9 8 = (if fldOf v 9 8 = 3 then s.fld (Reg.TRC_CTRL d) 9 8 else fldOf v 9 8) ∧
    s.regsBut t [Reg.TRC_HEAD d, Reg.TRC_CTRL d, Reg.MGT_REFUSED])

/-- A fault, a tag fault or a stall sends the piece back to READY and resets its engine. An engine of less than two
faults in the last 10 s that holds a piece not yet at its fourth attempt: FAULT, a channel-tag fault of an access that
disagrees with its header and, once WD_FACTOR band periods have passed since T_TAKE, the stall watchdog each put the
descriptor back to READY with REDISPATCHED set, reset the engine, and count one re-dispatch of the die and of the
channel; the tag fault and the watchdog count in their own counters as well. A band not past stage 6 when its bound of
R162 has passed is marked late and counted once. (R266, R268, R415, R418.) -/
def Obligations.FaultsRedispatchWork : Prop :=
  (∀ dt (e : Fin 464) (d : Desc) since (s : State), s.noneWaits → s.eng? e = some (.holds d.die d.no since) →
    s.descAt d.die d.no = some d → d.attempt < 3 → (s.elapse dt).faultsOf e < 2 → d.die < 8 → d.chan < 96 →
    let out := fun (t : State) => t.eng? e = some .resets ∧
      t.descAt d.die d.no = some { d with st := .ready, redisp := true, tReady := (s.elapse dt).phaseTime } ∧
      t.rdN (Reg.SCH_REDISPATCH d.die) = (s.rdN (Reg.SCH_REDISPATCH d.die) + 1) % 4294967296 ∧
      t.rdN (Reg.CHN_REDISPATCH d.chan) = (s.rdN (Reg.CHN_REDISPATCH d.chan) + 1) % 4294967296
    (Completes (.workFault dt e) s out) ∧
    (∀ tag, (s.elapse dt).ownsBuf tag = false → Completes (.channelTagFault dt ⟨e, tag⟩) s fun t => out t ∧
      t.rdN Reg.SAF_TAG_FAULTS = (s.rdN Reg.SAF_TAG_FAULTS + 1) % 4294967296) ∧
    (∀ (die : Fin 8) (no : Fin 32768), d.die = die → d.no = no → d.engine = e → d.st = .taken →
      (s.elapse dt).stalled d = true → Completes (.stallWatchdog dt die no) s fun t => out t ∧
        t.rdN Reg.SAF_WD_FIRES = (s.rdN Reg.SAF_WD_FIRES + 1) % 4294967296) ∧
    (∀ (die : Fin 8) (no : Fin 32768), d.die = die → d.no = no → (s.elapse dt).stalled d = false →
      Completes (.stallWatchdog dt die no) s fun t => s.regsBut t [] ∧ s.sameBut t)) ∧
  (∀ dt (n : Fin 96) k b (it : Item) (s : State), s.chans.length = 96 → s.item? n k = some it → b < it.bands.length →
    (if (it.band b).done < 7 ∧ (it.band b).late = false ∧ (s.elapse dt).boundPast n it b = true then Completes (.bandTimingDeparture dt n k b) s fun t =>
      (t.item? n k).map (fun x => (x.band b).late) = some true ∧
      t.rdN Reg.SAF_BAND_LATE = (s.rdN Reg.SAF_BAND_LATE + 1) % 4294967296 ∧
      (s.dieOf n (s.partOf n b) < 8 → s.regsBut t [Reg.SAF_BAND_LATE])
    else Completes (.bandTimingDeparture dt n k b) s fun t => s.regsBut t [] ∧ s.sameBut t))

/-- Datagrams form in each kind of flow, are handed over in order, and items without output leave at E_k. Where no
copy is still to leave: a flow that is not valid forms nothing. A FEC flow of a unit that is no standby, whose media
flow runs and whose next row or column has left every path, forms a datagram of the parity of each path without
packets. In an unpaired unit a TS flow that runs forms, once the close instant of its waiting packets has come, one of
seven packets: those due by then and null packets; a NAL flow that runs forms, once its next payload is due, one of
that payload. Each adds one to the flow's datagrams and, where a path is enabled, stands after those formed before it
until its paths have sent it. An audio flow of a LIVE unit attaches its readers, forms nothing before each has
started, and then forms 3 bytes a sample of each of its channels. A copy that has closed, is built, follows its
predecessor and finds room is handed over: it waits no more on that path and, the sub-port being up, stands in that
port's queue. A sealed item of a channel without output counts as released. (R281, R282, R284, R288, R291, R295,
R316.) -/
def Obligations.DatagramsFormAndAreHandedOver : Prop :=
  (∀ dt (i : Fin 2048) (s : State), s.egr.leaving = [] →
    let u := ((s.elapse dt).crcChain 0 false).startBase i
    (s.flowValid i = false → Completes (.datagramClose dt i [] false) s fun t => s.regsBut t [] ∧ s.sameBut t) ∧
    (s.flowValid i = true → s.flowKind i = 3 ∨ s.flowKind i = 4 → s.flowRuns (s.fld (Reg.OF_AUX i) 15 0) = true →
      s.isStandby = false → (∀ k ∈ s.fecMembers i, k < (s.flow (s.fld (Reg.OF_AUX i) 15 0)).left) →
      Completes (.datagramClose dt i [] false) s fun t => (t.flow i).formed = (s.flow i).formed + 1 ∧
        (s.pathEn i false = true ∨ s.pathEn i true = true → ∃ d, t.egr.dgrams = s.egr.dgrams ++ [d] ∧ d.flow = i.val ∧
          d.seq = (s.flow i).formed ∧ d.payload = (s.fecBody i false, s.fecBody i true) ∧ d.pkts = [] ∧
          d.wait = (s.pathEn i false, s.pathEn i true)) ∧ s.regsBut t []) ∧
    (s.flowValid i = true → s.flowKind i = 0 → s.flowRuns i = true → s.isStandby = false → s.paired = false → ∀ close,
      closeOf (u.waiting i).1 (u.waiting i).2 = some close → close ≤ u.now →
      Completes (.datagramClose dt i [] false) s fun t => (t.flow i).formed = (s.flow i).formed + 1 ∧
        (s.pathEn i false = true ∨ s.pathEn i true = true → ∃ d, t.egr.dgrams = s.egr.dgrams ++ [d] ∧ d.flow = i.val ∧
          d.seq = (s.flow i).formed ∧ d.close = close ∧ d.pkts.length = 7 ∧
          (d.pkts.filter fun p => p.kind != 6).map (·.payload) =
            (((u.waiting i).1.filter fun x => decide (x.due ≤ close)).take 7).map (·.p.payload))) ∧
    (s.flowValid i = true → s.flowKind i = 1 → s.flowRuns i = true → s.isStandby = false → s.paired = false → ∀ due p g,
      u.nalNext (s.fld (Reg.OF_CTRL i) 19 8) (s.chan (s.fld (Reg.OF_CTRL i) 19 8)).mux = .packet due p g → due ≤ u.now →
      Completes (.datagramClose dt i [] false) s fun t => (t.flow i).formed = (s.flow i).formed + 1 ∧
        (s.pathEn i false = true ∨ s.pathEn i true = true → ∃ d, t.egr.dgrams = s.egr.dgrams ++ [d] ∧ d.flow = i.val ∧
          d.seq = (s.flow i).formed ∧ d.close = due ∧ d.pkts = [p] ∧ d.payload = (p.payload, p.payload)))) ∧
  (∀ dt (i : Fin 2048) short (s : State),
    let buf := fun ch => (s.fld (Reg.OF_AUX i) 31 22 + ch) % 1024
    let chs := s.fld (Reg.OF_AUX i) 21 18 + 1
    (s.flowValid i = false ∨ s.flowKind i ≠ 2 ∨ s.live = false → Completes (.audioFlowPacketTime dt i short) s fun t =>
      s.regsBut t [] ∧ s.sameBut t) ∧
    (s.flowValid i = true → s.flowKind i = 2 → s.live = true → chs ≤ 8 →
      ((∀ ch < chs, (s.abuf (buf ch)).rds.any (fun r => r.id == 1024 + i.val && (r.started ||
          decide (s.fld (Reg.OF_AUX i) 12 0 ≤ (s.abuf (buf ch)).wr - r.idx))) = true) →
        Completes (.audioFlowPacketTime dt i short) s fun t => (t.flow i).formed = (s.flow i).formed + 1 ∧
          (s.pathEn i false = true ∨ s.pathEn i true = true → ∃ d, t.egr.dgrams = s.egr.dgrams ++ [d] ∧ d.flow = i.val ∧
            d.payload.1.length = 3 * chs * (if short then 6 else 48) ∧ d.payload.2 = d.payload.1 ∧
            d.pkts = [])) ∧
      (∀ ch < chs, (s.abuf (buf ch)).rds = [] → 0 < s.fld (Reg.OF_AUX i) 12 0 →
        Completes (.audioFlowPacketTime dt i short) s fun t => t.egr = s.egr ∧
          ∀ c < chs, (t.abuf (buf c)).rds.any (fun r => r.id == 1024 + i.val) = true))) ∧
  (∀ dt (i : Fin 2048) seq blue (d : Dgram) (s : State),
    s.egr.dgrams.find? (fun x => x.flow == i.val && x.seq == seq) = some d →
    (if blue then d.wait.2 else d.wait.1) = true → s.built d = true → s.earlierHanded d blue = true →
    s.streamRoom (s.pathPort i blue).1 = true → d.close ≤ (s.elapse dt).now →
    s.subUp (s.pathPort i blue).1 (s.pathPort i blue).2 = true → Completes (.datagramRelease dt i seq blue) s fun t =>
      (∃ f, t.egr.queue = s.egr.queue ++ [f] ∧ f.port = (s.pathPort i blue).1 ∧ f.sub = (s.pathPort i blue).2 ∧
        f.cls = s.flowClass i ∧ f.flow = i.val ∧ f.seq = seq ∧ f.blue = blue) ∧
      (t.egr.dgrams.find? fun x => x.flow == i.val && x.seq == seq) = some { d with
        wait := if blue then (d.wait.1, false) else (false, d.wait.2) } ∧ s.regsBut t []) ∧
  (∀ dt (n : Fin 96) k (it : Item) (s : State), s.chans.length = 96 → s.item? n k = some it → s.noOutput n = true →
    it.inputFixed = true → it.bands.all (fun b => decide (7 ≤ b.done)) = true → it.left = none → it.abandoned = false →
    Completes (.releaseInstant dt n k) s fun t =>
      t.rd64 (Reg.CHN_PIC_REL_LO n) = (s.rd64 (Reg.CHN_PIC_REL_LO n) + 1) % 18446744073709551616 ∧ t.chanState n ≠ 2) ∧
  (∀ dt (n : Fin 96) k (it : Item) (s : State), s.item? n k = some it →
    it.audio = none → Completes (.audioDueInstant dt n k) s fun t => t.egr = s.egr ∧
      ((t.item? n k).bind (·.audio)).isSome = true ∧ s.regsBut t [Reg.CHN_OUT_AUD_UNDER n] ∧ ∀ a < 8, s.bit (Reg.CHN_OUT_AUD n a) 31 = true →
        ∀ ch < 2 * (s.fld (Reg.CHN_OUT_AUD n a) 1 0 + 1),
          (t.abuf ((s.fld (Reg.CHN_OUT_AUD_SRC n a) 31 22 + ch) % 1024)).rds.any (fun r => r.id == 256 + 8 * n.val + a) = true)

/-- A free line sends the frame of the first class that is eligible, and rates and gate lists take effect as their
rules say. On a sub-port in service, with no copy still to leave: where a frame still has the line nothing leaves. On
a free line, where no head frame is held back by its gate and none is eligible nothing leaves. An eligible frame of
TC7, TC4 or TC0 takes the line for its length, preamble and gap, leaves and is counted for its class and sub-port. A
stream frame selected while the stream gates are closed is discarded, and counted in TMS_GATE_DISCARD. A TF_RATE write
that is live-permitted, at or above TF_FLOOR and within R317 takes its value; any other that would change it is
refused and counted. A gate list entry written while no list is pending is stored at INDEX, which moves on, and is
counted as refused while one is pending. COMMIT of a valid list comes into force at once with gating off, is pending
with gating on, and is counted as refused where the list is not valid or one is pending. A cycle start brings a list
committed before it into force; the end of an entry's interval goes on to the next entry. (R303, R306, R309, R310,
R311, R312, R313, R318, R319.) -/
def Obligations.FramesLeaveAndGatesRun : Prop :=
  (∀ dt (p : Fin 8) (q : Fin 4) (s : State), s.subUp p q = true → s.egr.leaving = [] →
    (s.elapse dt).lineFree p q = false → ∀ x y, Completes (.frameSelect dt p q x y) s fun t => s.regsBut t [] ∧ s.sameBut t) ∧
  (∀ dt (p : Fin 8) (q : Fin 4) (s : State), s.subUp p q = true → s.egr.leaving = [] → (s.elapse dt).lineFree p q = true →
    (s.elapse dt).heldBack p q = [] →
    ((s.elapse dt).framePick p q = none → ∀ x y, Completes (.frameSelect dt p q x y) s fun t =>
      s.regsBut t [] ∧ s.sameBut t) ∧
    (∀ f, (s.elapse dt).framePick p q = some f → f.cls = 7 ∨ f.cls = 4 ∨ f.cls = 0 → f.port = p → f.sub = q →
      ∀ x y, Completes (.frameSelect dt p q x y) s fun t => t.egr.queue = s.egr.queue.erase f ∧
        t.egr.lines = assocSet s.egr.lines (4 * p + q) ((s.elapse dt).now50 + (s.elapse dt).lineTicks p f.len) ∧
        t.sent = (s.elapse dt).departing f :: s.sent ∧
        t.rdN (Reg.TMC_FRAMES p q f.cls) = (s.rdN (Reg.TMC_FRAMES p q f.cls) + 1) % 4294967296 ∧
        t.rdN (Reg.NP_TX_FRAMES p q) = (s.rdN (Reg.NP_TX_FRAMES p q) + 1) % 4294967296 ∧
        s.regsBut t [Reg.TMC_FRAMES p q f.cls, Reg.TMC_BYTES p q f.cls, Reg.NP_TX_FRAMES p q]) ∧
    (∀ f, (s.elapse dt).framePick p q = some f → f.cls = 6 ∨ f.cls = 5 → f.port = p → f.sub = q → f.replay = true →
      s.twin.gatesOpen = false → s.isStandby = false → Completes (.frameSelect dt p q [] false) s fun t =>
        t.egr.queue = s.egr.queue.erase f ∧ t.egr.lines = s.egr.lines ∧ t.sent = s.sent ∧
        t.rdN (Reg.TMS_GATE_DISCARD p q) = (s.rdN (Reg.TMS_GATE_DISCARD p q) + 1) % 4294967296 ∧
        s.regsBut t [Reg.TMS_GATE_DISCARD p q])) ∧
  (∀ dt (i : Fin 2048) v (s : State), let r := fldOf v 29 0
    if s.mayWrite (Reg.TF_RATE i) 29 0 = true ∧ r ≤ 360000000 ∧ s.fld (Reg.TF_FLOOR i) 29 0 ≤ r ∧ s.ratesFit i r = true
    then Completes (.tfRateWrite dt i v) s fun t => t.fld (Reg.TF_RATE i) 29 0 = r ∧ s.regsBut t [Reg.TF_RATE i]
    else r ≠ s.fld (Reg.TF_RATE i) 29 0 → Completes (.tfRateWrite dt i v) s fun t =>
      t.rdN Reg.MGT_REFUSED = (s.rdN Reg.MGT_REFUSED + 1) % 4294967296 ∧ s.regsBut t [Reg.MGT_REFUSED] ∧ s.sameBut t) ∧
  (∀ dt (p : Fin 8) v (s : State), s.egr.gates.length = 8 → s.mayWrite (Reg.TMG_GCL_DATA p) 31 24 = true →
    s.mayWrite (Reg.TMG_GCL_DATA p) 23 0 = true → Completes (.tmgGclDataWrite dt p v) s fun t =>
      if (s.gate p).pending.isSome = true
      then t.rdN (Reg.TMG_GCL_REFUSED p) = (s.rdN (Reg.TMG_GCL_REFUSED p) + 1) % 4294967296 ∧
        s.regsBut t [Reg.TMG_GCL_REFUSED p] ∧ s.sameBut t
      else assocGet 0 (t.gate p).shadow (s.gclIndex p) = v.toNat ∧ t.gclIndex p = (s.gclIndex p + 1) % 1024 ∧
        s.regsBut t [Reg.TMG_GCL_CTRL p]) ∧
  (∀ dt (p : Fin 8) v (s : State), s.egr.gates.length = 8 → s.mayWrite (Reg.TMG_GCL_CTRL p) 9 0 = true →
    s.mayWrite (Reg.TMG_GCL_CTRL p) 31 31 = true → fldOf v 31 31 = 1 → Completes (.gclCommit dt p v) s fun t =>
      t.gclIndex p = fldOf v 9 0 ∧
      if (s.gate p).pending.isSome = true ∨ (s.shadowList p).valid = false
      then t.rdN (Reg.TMG_GCL_REFUSED p) = (s.rdN (Reg.TMG_GCL_REFUSED p) + 1) % 4294967296 ∧ t.gate p = s.gate p
      else if s.bit (Reg.TMG_CTRL p) 0 = true
      then (t.gate p).pending = some (s.shadowList p, (s.elapse dt).clk.dtc) ∧ (t.gate p).oper = (s.gate p).oper ∧
        t.bit (Reg.TMG_GCL_CTRL p) 31 = true
      else (t.gate p).oper = s.shadowList p ∧ t.rdN (Reg.TMG_CYCLE p) = (s.shadowList p).cycle ∧
        t.rdN (Reg.TMG_LEN p) = (s.shadowList p).entries.length ∧
        t.rdN (Reg.TMG_SWITCHES p) = (s.rdN (Reg.TMG_SWITCHES p) + 1) % 4294967296) ∧
  (∀ dt (p : Fin 8) (s : State), s.egr.gates.length = 8 →
    (s.gated p = true → (s.elapse dt).nextCycle p ≤ (s.elapse dt).now → Completes (.gateCycleStart dt p) s fun t =>
      (t.gate p).entry = 0 ∧ (t.gate p).start = some ((s.elapse dt).nextCycle p, s.clk.moves) ∧
      match (s.gate p).pending with
      | none => (t.gate p).oper = (s.gate p).oper ∧ s.regsBut t []
      | some (l, at_) => if (at_ : Int) < (s.elapse dt).clk.dtc then (t.gate p).oper = l ∧ (t.gate p).pending = none ∧
          t.bit (Reg.TMG_GCL_CTRL p) 31 = false ∧
          t.rdN (Reg.TMG_SWITCHES p) = (s.rdN (Reg.TMG_SWITCHES p) + 1) % 4294967296
        else (t.gate p).oper = (s.gate p).oper) ∧
    (Completes (.gateEntryExpiry dt p) s fun t => s.regsBut t [] ∧ t.gate p = { s.gate p with
      entry := if (s.gate p).entryOver (s.elapse dt).now = true then (s.gate p).entry + 1 else (s.gate p).entry }))

/-- A write to a full audio buffer overwrites its newest sample and nothing else that a reader has not read. The
writer of a channel buffer with an attached reader whose fill is 8,192 (one more would exceed it) overwrites the
newest sample; the write index stays. Otherwise it stores the word and the index advances. Either way no reader's
index moves, and every sample from a reader's index on, apart from the newest where it is overwritten, is in its place
as before. (R138.) -/
def Obligations.OverrunKeepsUnreadSamples : Prop :=
  ∀ (s : State) (b : Nat) (w : Word) (stamp : Int),
    let x := s.abuf b
    let y := (s.audioWrite b w stamp).abuf b
    let full := x.rds.any fun r => decide (8192 ≤ x.wr - r.idx)
    (y.wr = if full = true then x.wr else x.wr + 1) ∧ y.rds = x.rds ∧ y.words.head? = some w ∧
    (y.overs = if full = true then x.overs + 1 else x.overs) ∧
    ∀ r ∈ x.rds, ∀ j, r.idx ≤ j → x.wr ≤ j + 8192 → (if full = true then j + 1 < x.wr else j < x.wr) →
      y.words.getD (y.wr - 1 - j) 0 = x.words.getD (x.wr - 1 - j) 0

/-- Ports start with a pre-roll and go on at each sync, AES3 faults are counted, and the word clock fails, flywheels
and returns. Before LIVE a frame sync does nothing. In LIVE, at a sync its grid takes, a stopped port of a working die
that is wanted, has its gap behind it and drives a pre-roll starts: it is counted and stands in its pre-roll, one
frame of it gone; a port in data that stays wanted and needs no restart goes on in data: a serial output sends a frame
of its slots, and an enabled slot of a serial input writes its word, its low byte 0, to its buffer. A frame of an
enabled AES3 input with a faulty subframe adds one to AUD_PARITY_ERR; locked and in data, a good subframe of an
enabled slot writes its sample with V, U and C. A stop, a glitch and a rate change of WCLK_IN set their flag and take
QUAL away; a glitch is counted, the estimate of a rate change is shown; ports that run on WCLK_IN flywheel after a
stop or a glitch. A rate change, or a flywheel that runs out, switches to the fallback where FALLBACK allows it and is
counted, and otherwise loses the clock. A qualified WCLK_IN ends the flywheel, shows its estimate, and is switched
back to where RETURN says so. (R136, R142, R145, R146, R148, R149, R150.) -/
def Obligations.AudioPortsFollowTheirClock : Prop :=
  (∀ dt (p : Fin 16) ins (s : State),
    (s.live = false → Completes (.audioFrameSync dt p ins none) s fun t => s.regsBut t [] ∧ s.sameBut t) ∧
    (s.live = true → s.dieOk (p.val / 2) = true → s.aud.ports.length = 16 → s.audWanted p = true →
      ((s.elapse dt).takeSync p).2 = true →
      ((s.aport p).phase = .stopped → (s.elapse dt).gapOver p = true → s.audFollows p = false →
        0 < s.fld (Reg.AUD_PREROLL p) 12 0 → Completes (.audioFrameSync dt p ins none) s fun t =>
          (t.aport p).phase = .pre ∧ (t.aport p).left = s.fld (Reg.AUD_PREROLL p) 12 0 - 1 ∧
          t.rdN (Reg.AUD_STARTS p) = (s.rdN (Reg.AUD_STARTS p) + 1) % 4294967296) ∧
      ((s.aport p).phase = .data → (s.aport p).restart = false → Completes (.audioFrameSync dt p ins none) s fun t =>
        (t.aport p).phase = .data ∧
        (s.audOut p = true → s.audMode p ≠ 2 → s.audFollows p = false →
          ∃ ws, ws.length = s.audSlots p ∧ t.sent = .audio p ws :: s.sent) ∧
        (∀ i, s.audOut p = false → s.audMode p ≠ 2 → i < s.audSlots p → (s.aport p).staged = [] → (s.aport p).mask.testBit i = true →
          s.audBuf p i < 1024 → (∀ j < 16, j ≠ i → s.audBuf p j ≠ s.audBuf p i) →
          (∀ r ∈ (s.abuf (s.audBuf p i)).rds, (s.abuf (s.audBuf p i)).wr - r.idx < 8192) →
          (t.abuf (s.audBuf p i)).wr = (s.abuf (s.audBuf p i)).wr + 1 ∧
          (t.abuf (s.audBuf p i)).words.head? = some ((ins.getD i 0) &&& 0xFFFFFF00#32))))) ∧
  (∀ dt (p : Fin 16) (f : Aes3Frame) (s : State), s.live = true → s.dieOk (p.val / 2) = true → s.aesIn p = true →
    s.bit (Reg.AUD_CTRL p) 31 = true → Completes (.aes3FrameRx dt p f) s fun t =>
      t.rdN (Reg.AUD_PARITY_ERR p) = (s.rdN (Reg.AUD_PARITY_ERR p) + b2n (f.subs.any fun x => !x.good)) % 4294967296 ∧
      (∀ i x, i < 2 → f.subs[i]? = some x → x.good = true → f.z = false → s.bit (Reg.AUD_STATUS p) 8 = true →
        (s.aport p).phase = .data → (s.aport p).staged = [] → (s.aport p).mask.testBit i = true → s.aud.ports.length = 16 →
        s.audBuf p i < 1024 → s.audBuf p 0 ≠ s.audBuf p 1 →
        (∀ r ∈ (s.abuf (s.audBuf p i)).rds, (s.abuf (s.audBuf p i)).wr - r.idx < 8192) →
        (t.abuf (s.audBuf p i)).wr = (s.abuf (s.audBuf p i)).wr + 1 ∧
        (t.abuf (s.audBuf p i)).words.head? =
          some (BitVec.ofNat 32 (256 * (x.sample % 16777216) + 8 * b2n x.v + 4 * b2n x.u + 2 * b2n x.c)))) ∧
  (∀ dt (s : State),
    let lost := fun (t : State) => if s.onWclk = true then
        (if s.bit Reg.AUD_WC_CTRL 23 = true then t.aud.fallback = true ∧
          t.rdN Reg.AUD_WC_SWITCHES = (s.rdN Reg.AUD_WC_SWITCHES + 1) % 4294967296
        else t.aud.fallback = s.aud.fallback ∧ t.aud.lost = true) else t.aud = s.aud
    (Completes (.wclkStop dt) s fun t => t.bit Reg.AUD_WC_STATUS 9 = true ∧ t.bit Reg.AUD_WC_STATUS 8 = false ∧
      t.aud = { s.aud with flywheel := s.aud.flywheel || s.onWclk } ∧ s.regsBut t [Reg.AUD_WC_STATUS]) ∧
    (Completes (.wclkGlitch dt) s fun t => t.bit Reg.AUD_WC_STATUS 10 = true ∧ t.bit Reg.AUD_WC_STATUS 8 = false ∧
      t.rdN Reg.AUD_WC_GLITCHES = (s.rdN Reg.AUD_WC_GLITCHES + 1) % 4294967296 ∧
      t.aud = { s.aud with flywheel := s.aud.flywheel || s.onWclk } ∧
      s.regsBut t [Reg.AUD_WC_STATUS, Reg.AUD_WC_GLITCHES]) ∧
    (∀ x, Completes (.wclkRateChange dt x) s fun t => t.rd Reg.AUD_WC_FREQ = BitVec.ofInt 32 x ∧
      if 5000 < x.natAbs then t.bit Reg.AUD_WC_STATUS 11 = true ∧ t.bit Reg.AUD_WC_STATUS 8 = false ∧ lost t
      else s.regsBut t [Reg.AUD_WC_FREQ] ∧ t.aud = s.aud) ∧
    (Completes (.flywheelExpiry dt) s fun t => if s.aud.flywheel = true then lost t else s.regsBut t [] ∧ s.sameBut t) ∧
    (∀ x, Completes (.wclkQualified dt x) s fun t => t.bit Reg.AUD_WC_STATUS 8 = true ∧
      t.fld Reg.AUD_WC_STATUS 11 9 = 0 ∧ t.rd Reg.AUD_WC_FREQ = BitVec.ofInt 32 x ∧ t.aud.flywheel = false ∧
      t.aud.lost = false ∧
      if s.aud.fallback = true ∧ s.bit Reg.AUD_WC_CTRL 24 = true then t.aud.fallback = false ∧
        t.rdN Reg.AUD_WC_SWITCHES = (s.rdN Reg.AUD_WC_SWITCHES + 1) % 4294967296
      else t.aud.fallback = s.aud.fallback ∧ s.regsBut t [Reg.AUD_WC_STATUS, Reg.AUD_WC_FREQ]))

/-- Adaptation stages a setting, the commit point puts it in force, and the window is read as one sample and written
only while restoring. A receiver that does not exist or does not adapt is left as it is. One with a setting staged
takes no step; otherwise the values in force stand, and in what is staged every parameter but a lane's CTLE has moved
by its one step. The commit point puts a staged setting into force, ends STAGED and counts; with neither one nor a
reference correction staged it changes nothing. Reading CAL_CTX latches the whole window for its master, and reading
CAL_SIG returns the latched signature and ends the latch. A window write is held while the restore window is open,
changing no register; otherwise it is refused and counted where it would change the word. (R453, R454, R458, R459,
R491.) -/
def Obligations.CalibrationIsStagedAndCommitted : Prop :=
  (∀ dt (r : Fin 144) st (s : State),
    (recvExists r = false ∨ s.adapts r = false → Completes (.adaptationCycle dt r st) s fun t =>
      s.regsBut t [] ∧ s.sameBut t) ∧
    (recvExists r = true → s.adapts r = true → Completes (.adaptationCycle dt r st) s fun t =>
      (t.recv r).cycles = (s.recv r).cycles + 1 ∧ (t.recv r).force = (s.recv r).force ∧ s.regsBut t [calStat r] ∧
      (∀ v, (s.recv r).shadow = some v → (t.recv r).shadow = some v ∧ s.regsBut t []) ∧
      ((s.recv r).shadow = none → ∀ v, (t.recv r).shadow = some v → t.bit (calStat r) 31 = true ∧
        v.length = (s.recv r).force.length ∧
        ∀ i < v.length, i ≠ 0 ∨ isMem r = true →
          v.getD i 0 = (stepParam r i ((s.recv r).force.getD i 0) (stepDir r i ((s.recv r).force.getD i 0) st)).1))) ∧
  (∀ dt (d : Fin 8) (n : Fin 10) (s : State), recvExists (laneId d n) = true →
    (∀ v, (s.recv (laneId d n)).shadow = some v → Completes (.calibrationCommit dt d n) s fun t =>
      (t.recv (laneId d n)).force = v ∧ (t.recv (laneId d n)).shadow = none ∧ t.bit (Reg.CAL_STAT d n) 31 = false ∧
      t.rdN (Reg.CAL_COMMITS d n) = (s.rdN (Reg.CAL_COMMITS d n) + 1) % 4294967296 ∧
      s.regsBut t [Reg.CAL_STAT d n, Reg.CAL_COMMITS d n]) ∧
    ((s.recv (laneId d n)).shadow = none → (assocGet (0, none) s.cal.refs (laneId d n)).2 = none →
      Completes (.calibrationCommit dt d n) s fun t =>
      s.regsBut t [] ∧ s.sameBut t)) ∧
  (∀ dt (mdie : Fin 8) (mid : Fin 4) (r : Fin 144) (s : State), recvExists r = true →
    ((s.elapse dt).decodes (calAddr r 0) = true → Completes (.calCtxRead dt mdie mid r) s fun t =>
      t.sent = .busRead mdie mid (calAddr r 0) (BitVec.ofNat 32 ((s.windowNow r).getD 0 0)).toNat :: s.sent ∧
      s.regsBut t [] ∧
      ∀ i ≤ sigIndex r, t.latchOf (masterNo mdie mid) (calAddr r i) =
        some (BitVec.ofNat 32 ((s.windowNow r).getD i 0))) ∧
    (∀ w, (s.elapse dt).decodes (calAddr r (sigIndex r)) = true →
      s.latchOf (masterNo mdie mid) (calAddr r (sigIndex r)) = some w → Completes (.calSigRead dt mdie mid r) s fun t =>
        t.sent = .busRead mdie mid (calAddr r (sigIndex r)) w.toNat :: s.sent ∧ s.regsBut t [] ∧
        ∀ i ≤ sigIndex r, t.latchOf (masterNo mdie mid) (calAddr r i) = none)) ∧
  (∀ dt (r : Fin 144) (i : Fin 11) v (s : State), recvExists r = true → i.val ≤ sigIndex r →
    (s.bit Reg.EMG_STATUS 11 = true → Completes (.calWindowWrite dt r i v) s fun t =>
      ((t.recv r).held.find? fun e => e.1 == i.val) = some (i.val, v.toNat &&& calMask r i) ∧
      (t.recv r).force = (s.recv r).force ∧ s.regsBut t []) ∧
    (s.bit Reg.EMG_STATUS 11 = false → Completes (.calWindowWrite dt r i v) s fun t => s.sameBut t ∧
      if v.toNat &&& calMask r i = (s.windowNow r).getD i 0 &&& calMask r i then s.regsBut t []
      else t.rdN Reg.MGT_REFUSED = (s.rdN Reg.MGT_REFUSED + 1) % 4294967296 ∧ s.regsBut t [Reg.MGT_REFUSED]))

/-- Departures are judged once, and lockstep, SRAM, rail and late-item faults are counted or retire their die. Where
no copy is still to leave: an item judged, abandoned, met in a snuffed unit, or less than 1 ms past its release
instant is not judged; otherwise one that left in time clears its channel's late bit, and one that has not left adds
one to SAF_DEPARTURES and sets that bit. A lockstep mismatch of a working die's pair that has had none for 1 s holds
the pair and is counted, and the restart releases it. SRAM errors of a working die are counted. An item that has left,
or is not yet DIE_LIMIT ms past its release instant, is no fault; one that has not left retires the die it names, and
a rail out of its window that the device did not turn off retires its die: in an unpaired unit that die is no longer
in service. (R412, R413, R416, R419, R420, R421, R426.) -/
def Obligations.SafetyMonitorsAct : Prop :=
  (∀ dt (n : Fin 96) k (it : Item) (s : State), s.chans.length = 96 → s.egr.leaving = [] → s.item? n k = some it →
    (s.snuffed = true ∨ it.judged = true ∨ it.abandoned = true ∨ (s.elapse dt).sinceRelease n it 1 = false →
      Completes (.departureJudgement dt n k) s fun t =>
      s.regsBut t [] ∧ s.sameBut t) ∧
    (s.snuffed = false → it.judged = false → it.abandoned = false → (s.elapse dt).sinceRelease n it 1 = true →
      (∀ x, it.left = some x → x ≤ s.releaseAt n it + 1000000 → Completes (.departureJudgement dt n k) s fun t =>
        t.bit (Reg.SAF_LATE (n / 32)) (n % 32) = false ∧ s.regsBut t [Reg.SAF_LATE (n / 32)]) ∧
      (it.left = none → s.paired = false → Completes (.departureJudgement dt n k) s fun t =>
        t.bit (Reg.SAF_LATE (n / 32)) (n % 32) = true ∧
        t.rdN Reg.SAF_DEPARTURES = (s.rdN Reg.SAF_DEPARTURES + 1) % 4294967296 ∧
        s.regsBut t [Reg.SAF_LATE (n / 32), Reg.SAF_DEPARTURES] ∧
        (t.item? n k).map (·.judged) = some true)) ∧
    (s.snuffed = true ∨ it.left.isSome = true ∨ it.abandoned = true ∨
      (s.elapse dt).sinceRelease n it (s.fld Reg.SAF_CTRL 7 0) = false → Completes (.dieLimitExpiry dt n k) s fun t =>
      s.regsBut t [] ∧ s.sameBut t) ∧
    (s.snuffed = false → it.left = none → it.abandoned = false → s.paired = false → s.twin.handover = false →
      s.twin.after = [] → s.namedDie n it < 8 → (s.elapse dt).sinceRelease n it (s.fld Reg.SAF_CTRL 7 0) = true →
      Completes (.dieLimitExpiry dt n k) s fun t =>
        t.dieOk (s.namedDie n it) = false)) ∧
  (∀ dt (d : Fin 8) (pair : Fin 2) (s : State),
    (s.dieOk d = true → 2 * d.val + pair.val ∉ s.saf.held → s.saf.lockstepAt = [] → s.noneWaits →
      Completes (.lockstepMismatch dt d pair) s fun t => 2 * d.val + pair.val ∈ t.saf.held ∧
        t.rdN Reg.SAF_LOCKSTEP = (s.rdN Reg.SAF_LOCKSTEP + 1) % 4294967296 ∧ s.regsBut t [Reg.SAF_LOCKSTEP]) ∧
    (Completes (.lockstepRestartDone dt d pair) s fun t => 2 * d.val + pair.val ∉ t.saf.held ∧
      t.saf.lockstepAt = s.saf.lockstepAt ∧ s.regsBut t [])) ∧
  (∀ dt (d : Fin 8) (s : State), s.dieOk d = true →
    (Completes (.sramCorrectedError dt d) s fun t => t.rdN Reg.SAF_SRAM_CE = (s.rdN Reg.SAF_SRAM_CE + 1) % 4294967296 ∧
      s.regsBut t [Reg.SAF_SRAM_CE] ∧ s.sameBut t) ∧
    (s.noneWaits → Completes (.sramUncorrectableError dt d .nobody) s fun t =>
      t.rdN Reg.SAF_SRAM_UE = (s.rdN Reg.SAF_SRAM_UE + 1) % 4294967296 ∧ s.regsBut t [Reg.SAF_SRAM_UE]) ∧
    (∀ uv, s.bit Reg.THM_STATUS d = true ∨ s.outOfWindow d uv = false → Completes (.vcoreOutOfWindow dt d uv) s fun t =>
      s.regsBut t [] ∧ s.sameBut t) ∧
    (∀ uv, s.outOfWindow d uv = true → s.bit Reg.THM_STATUS d = false → s.paired = false → s.twin.handover = false →
      s.twin.after = [] → Completes (.vcoreOutOfWindow dt d uv) s fun t => t.dieOk d = false))
end

