-- ==== Sys2Proof/Laws/Crypto.lean ====
section
/-! SUPPORT. Lengths of what the hash functions answer: the TAG of a Beacon message has 16 bytes whatever the key. -/

namespace Sys2Proof.Machine

theorem leBytes_length (n x : Nat) : (leBytes n x).length = n := by
  induction n generalizing x with
  | zero => rfl
  | succ n ih => simp [leBytes, ih]

theorem beBytes_length (n x : Nat) : (beBytes n x).length = n := by simp [beBytes, leBytes_length]

theorem shaRound_length (p : ShaParams) (st : List Nat × List Nat) (k : Nat) :
    (shaRound p st k).1.length = st.1.length := by
  unfold shaRound
  split <;> simp_all

theorem shaRounds_length (p : ShaParams) (ks : List Nat) (st : List Nat × List Nat) :
    (ks.foldl (shaRound p) st).1.length = st.1.length := by
  induction ks generalizing st with
  | nil => rfl
  | cons k ks ih => rw [List.foldl_cons, ih, shaRound_length]

theorem shaBlock_length (p : ShaParams) (h : List Nat) (blk : List Byte) : (shaBlock p h blk).length = h.length := by
  simp [shaBlock, shaRounds_length]

theorem shaBlocks_length (p : ShaParams) (n : Nat) (h : List Nat) (bs : List Byte) :
    (shaBlocks p n h bs).length = h.length := by
  induction n generalizing h bs with
  | zero => rfl
  | succ n ih => rw [shaBlocks, ih, shaBlock_length]

theorem flatMap_length_const {α : Type} (f : α → List Byte) (c : Nat) (h : ∀ x, (f x).length = c) (l : List α) :
    (l.flatMap f).length = l.length * c := by
  induction l with
  | nil => simp
  | cons a l ih => simp [h, ih, Nat.succ_mul, Nat.add_comm]

theorem sha256_length (bs : List Byte) : (sha256 bs).length = 32 := by
  have h : ∀ l : List Nat, l.length = 8 → (l.flatMap (beBytes (sha256Params.w / 8))).length = 32 := fun l hl => by
    show (l.flatMap (beBytes 4)).length = 32
    rw [flatMap_length_const _ 4 (fun x => beBytes_length 4 x) l, hl]
  unfold sha256 sha
  rw [List.length_take, h _ (by rw [shaBlocks_length]; rfl)]
  rfl

theorem beaconTag_length (key msg : List Byte) : (beaconTag key msg).length = 16 := by
  simp [beaconTag, sha256_length]

end Sys2Proof.Machine
end

