-- ==== Sys2Proof/Laws/Sparse.lean ====
section
/-! SUPPORT. The laws of the sparse tables: a read after a write, and the canonical form. -/

namespace Sys2Proof.Machine

theorem sparseGet_erase {α : Type} (d : Nat → α) (l : List (Nat × α)) (a b : Nat) :
    sparseGet d (sparseErase l a) b = if b = a then d b else sparseGet d l b := by
  induction l with
  | nil => simp [sparseErase, sparseGet]
  | cons e r ih =>
    obtain ⟨k, w⟩ := e
    simp only [sparseErase, sparseGet]
    by_cases h : k = a
    · subst h
      rw [if_pos rfl, ih]
      by_cases hb : b = k <;> simp [hb]
    · by_cases hb : b = k
      · subst hb; simp [h, sparseGet]
      · simp [h, hb, sparseGet, ih]

theorem sparseGet_insert {α : Type} (d : Nat → α) (l : List (Nat × α)) (a : Nat) (v : α) (b : Nat)
    (hl : ∀ e ∈ l, e.1 ≠ a) : sparseGet d (sparseInsert l a v) b = if b = a then v else sparseGet d l b := by
  induction l with
  | nil => simp [sparseInsert, sparseGet]
  | cons e r ih =>
    obtain ⟨k, w⟩ := e
    have hk : k ≠ a := hl (k, w) (by simp)
    have ih' := ih fun e he => hl e (by simp [he])
    simp only [sparseInsert]
    split
    · simp [sparseGet]
    · by_cases hb : b = k
      · subst hb; simp [sparseGet, hk]
      · simp [sparseGet, hb, ih']

theorem sparseErase_ne {α : Type} (l : List (Nat × α)) (a : Nat) : ∀ e ∈ sparseErase l a, e.1 ≠ a := by
  induction l with
  | nil => simp [sparseErase]
  | cons e r ih =>
    simp only [sparseErase]
    split
    · exact ih
    · rename_i h
      simp only [List.mem_cons, forall_eq_or_imp]
      exact ⟨h, ih⟩

/-- A read after a write gives the value written there, and what stood elsewhere. -/
theorem sparseGet_set {α : Type} [DecidableEq α] (d : Nat → α) (l : List (Nat × α)) (a : Nat) (v : α) (b : Nat) :
    sparseGet d (sparseSet d l a v) b = if b = a then v else sparseGet d l b := by
  unfold sparseSet
  split
  · rename_i h
    rw [sparseGet_erase]
    split
    · rename_i hb; rw [hb, h]
    · rfl
  · exact sparseGet_insert d _ a v b (sparseErase_ne l a) |>.trans (by
      split
      · rfl
      · rename_i hb; rw [sparseGet_erase, if_neg hb])

theorem sparseErase_mem {α : Type} (l : List (Nat × α)) (a : Nat) (e : Nat × α) (h : e ∈ sparseErase l a) : e ∈ l := by
  induction l with
  | nil => simp [sparseErase] at h
  | cons x r ih =>
    simp only [sparseErase] at h
    split at h
    · exact List.mem_cons_of_mem _ (ih h)
    · rcases List.mem_cons.mp h with h | h
      · exact h ▸ List.mem_cons_self
      · exact List.mem_cons_of_mem _ (ih h)

theorem sparseErase_wf {α : Type} [DecidableEq α] (d : Nat → α) (l : List (Nat × α)) (a : Nat)
    (h : sparseWf d l = true) : sparseWf d (sparseErase l a) = true := by
  induction l with
  | nil => rfl
  | cons x r ih =>
    obtain ⟨k, w⟩ := x
    simp only [sparseWf, Bool.and_eq_true, List.all_eq_true] at h
    simp only [sparseErase]
    split
    · exact ih h.2
    · simp only [sparseWf, Bool.and_eq_true, List.all_eq_true]
      exact ⟨⟨h.1.1, fun e he => h.1.2 e (sparseErase_mem r a e he)⟩, ih h.2⟩

theorem sparseInsert_mem {α : Type} (l : List (Nat × α)) (a : Nat) (v : α) (e : Nat × α)
    (h : e ∈ sparseInsert l a v) : e = (a, v) ∨ e ∈ l := by
  induction l with
  | nil => simpa [sparseInsert] using h
  | cons x r ih =>
    simp only [sparseInsert] at h
    split at h
    · exact List.mem_cons.mp h
    · rcases List.mem_cons.mp h with h | h
      · exact .inr (h ▸ List.mem_cons_self)
      · exact (ih h).imp id (List.mem_cons_of_mem _)

theorem sparseInsert_wf {α : Type} [DecidableEq α] (d : Nat → α) (l : List (Nat × α)) (a : Nat) (v : α) (hv : v ≠ d a)
    (hl : ∀ e ∈ l, e.1 ≠ a) (h : sparseWf d l = true) : sparseWf d (sparseInsert l a v) = true := by
  induction l with
  | nil => simp [sparseInsert, sparseWf, hv]
  | cons x r ih =>
    obtain ⟨k, w⟩ := x
    have hk : k ≠ a := hl (k, w) List.mem_cons_self
    simp only [sparseWf, Bool.and_eq_true, List.all_eq_true, decide_eq_true_eq] at h
    simp only [sparseInsert]
    split
    · rename_i hlt
      simp only [sparseWf, Bool.and_eq_true, List.all_eq_true, decide_eq_true_eq, List.mem_cons, forall_eq_or_imp]
      exact ⟨⟨hv, hlt, fun e he => Nat.lt_trans hlt (h.1.2 e he)⟩, h⟩
    · rename_i hge
      simp only [sparseWf, Bool.and_eq_true, List.all_eq_true, decide_eq_true_eq]
      refine ⟨⟨h.1.1, fun e he => ?_⟩, ih (fun e he => hl e (List.mem_cons_of_mem _ he)) h.2⟩
      rcases sparseInsert_mem r a v e he with he | he
      · rw [he]; show k < a; omega
      · exact h.1.2 e he

/-- Every write keeps the canonical form. -/
theorem sparseSet_wf {α : Type} [DecidableEq α] (d : Nat → α) (l : List (Nat × α)) (a : Nat) (v : α)
    (h : sparseWf d l = true) : sparseWf d (sparseSet d l a v) = true := by
  unfold sparseSet
  split
  · exact sparseErase_wf d l a h
  · rename_i hv
    exact sparseInsert_wf d _ a v hv (sparseErase_ne l a) (sparseErase_wf d l a h)

end Sys2Proof.Machine
end

