-- ==== Sys2Proof/Laws/Keeps.lean ====
section
/-! SUPPORT. What every operation keeps: `Keeps s t` says once what may have become of the queue, the canonical tables, the
fuses and the model's own counters between `s` and `t`. One lemma for each operation follows in the files beside this one. -/

namespace Sys2Proof.Machine

/-- `t` comes from `s` by operations of the model. -/
structure Keeps (s t : State) : Prop where
  pending : t.pending = s.pending
  regs : s.regsWf = true → t.regsWf = true
  flash : s.flashWf = true → t.flashWf = true
  pic : s.picWf = true → t.picWf = true
  fuses : Fuses.le s.fuses t.fuses
  draws : s.draws ≤ t.draws
  fresh : s.fresh ≤ t.fresh
  sent : s.sent <:+ t.sent

theorem Fuses.le_refl (f : Fuses) : Fuses.le f f := ⟨by simp, id, by simp⟩

theorem and_le_trans {n : Nat} {a b c : BitVec n} (h : a &&& b = a) (k : b &&& c = b) : a &&& c = a := by
  rw [← h, BitVec.and_assoc, k]

theorem Fuses.le_trans {f g h : Fuses} (a : Fuses.le f g) (b : Fuses.le g h) : Fuses.le f h :=
  ⟨and_le_trans a.1 b.1, fun x => b.2.1 (a.2.1 x), and_le_trans a.2.2 b.2.2⟩

theorem Keeps.refl (s : State) : Keeps s s :=
  ⟨rfl, id, id, id, Fuses.le_refl _, Nat.le_refl _, Nat.le_refl _, List.suffix_refl _⟩

theorem Keeps.trans {s t u : State} (a : Keeps s t) (b : Keeps t u) : Keeps s u :=
  ⟨b.pending.trans a.pending, fun h => b.regs (a.regs h), fun h => b.flash (a.flash h),
    fun h => b.pic (a.pic h), Fuses.le_trans a.fuses b.fuses,
    Nat.le_trans a.draws b.draws, Nat.le_trans a.fresh b.fresh, a.sent.trans b.sent⟩

/-- `Keeps`, for the fields it speaks of. -/
structure KeepsCore (s : State) (pending : List Instr) (sent : List Sent) (fresh draws : Nat) (regs : List (Nat × Word))
    (fuses : Fuses) (flashA flashB : List Host.Cell) (pic : PicMem) : Prop where
  pending : pending = s.pending
  regs : s.regsWf = true → sparseWf resetOf regs = true
  flash : s.flashWf = true → (Memory.wf flashA && Memory.wf flashB) = true
  pic : s.picWf = true → pic.chans.all MChan.wf = true
  fuses : Fuses.le s.fuses fuses
  draws : s.draws ≤ draws
  fresh : s.fresh ≤ fresh
  sent : s.sent <:+ sent

/-- The other fields do not matter. -/
theorem Keeps.mk_iff {z : State} (p : List Instr) (se : List Sent) (fr dr : Nat) (rg : List (Nat × Word)) (fu : Fuses)
    (fa fb : List Host.Cell) (emg : Emg) (clk : Clock) (evt : Evt) (bus : Bus) (twin : Twin)
    (link : Lantern) (saf : Safety) (links : Links) (mgt : Mgt) (cap : Planner) (chans : List Chan) (sch : Sched)
    (ing : Ingest) (aud : Audio) (egr : Egress) (cal : Calib) (pic : PicMem) (plant : Plant) :
    Keeps z (State.mk p se fr dr rg fu fa fb emg clk evt bus twin link
      saf links mgt cap chans sch ing aud egr cal pic plant) ↔ KeepsCore z p se fr dr rg fu fa fb pic :=
  ⟨fun h => ⟨h.pending, h.regs, h.flash, h.pic, h.fuses, h.draws, h.fresh, h.sent⟩,
   fun h => ⟨h.pending, h.regs, h.flash, h.pic, h.fuses, h.draws, h.fresh, h.sent⟩⟩

theorem KeepsCore.of {z s : State} (h : Keeps z s) :
    KeepsCore z s.pending s.sent s.fresh s.draws s.regs s.fuses s.flashA s.flashB s.pic :=
  ⟨h.pending, h.regs, h.flash, h.pic, h.fuses, h.draws, h.fresh, h.sent⟩

/-! ## Control -/

theorem Keeps.ite {z s t : State} {c : Prop} [Decidable c] (h : Keeps z s) (k : Keeps z t) :
    Keeps z (if c then s else t) := by split <;> assumption

theorem State.when_keeps {z s : State} {c : Bool} {f : State → State} (h : Keeps z s)
    (k : ∀ x, Keeps z x → Keeps z (f x)) : Keeps z (s.when c f) := by
  unfold State.when; split
  · exact k s h
  · exact h

theorem Keeps.foldl {z : State} {α : Type} {f : State → α → State} (l : List α)
    (k : ∀ x a, Keeps z x → Keeps z (f x a)) : ∀ {s : State}, Keeps z s → Keeps z (l.foldl f s) := by
  induction l with
  | nil => intro s h; exact h
  | cons a r ih => intro s h; exact ih (k s a h)

theorem State.each_keeps {z s : State} {α : Type} {l : List α} {f : α → State → State} (h : Keeps z s)
    (k : ∀ a x, Keeps z x → Keeps z (f a x)) : Keeps z (s.each l f) :=
  Keeps.foldl l (fun x a hx => k a x hx) h

/-- A fold whose accumulator carries the state first. -/
theorem Keeps.foldlFst {z : State} {α β : Type} {f : State × β → α → State × β} (l : List α)
    (k : ∀ (x : State × β) a, Keeps z x.1 → Keeps z (f x a).1) :
    ∀ {x : State × β}, Keeps z x.1 → Keeps z (l.foldl f x).1 := by
  induction l with
  | nil => intro s h; exact h
  | cons a r ih => intro s h; exact ih (k s a h)

/-- The same with the state one pair deeper. -/
theorem Keeps.foldlFst2 {z : State} {α β γ : Type} {f : (State × γ) × β → α → (State × γ) × β} (l : List α)
    (k : ∀ (x : (State × γ) × β) a, Keeps z x.1.1 → Keeps z (f x a).1.1) :
    ∀ {x : (State × γ) × β}, Keeps z x.1.1 → Keeps z (l.foldl f x).1.1 := by
  induction l with
  | nil => intro s h; exact h
  | cons a r ih => intro s h; exact ih (k s a h)

/-! ## Primitives: the operations that change what `Keeps` speaks of -/

theorem State.wr_keeps {z s : State} {a : Nat} {v : Word} (h : Keeps z s) : Keeps z (s.wr a v) :=
  h.trans ⟨rfl, fun k => sparseSet_wf _ _ _ _ k, id, id, Fuses.le_refl _, Nat.le_refl _, Nat.le_refl _, List.suffix_refl _⟩

theorem State.send_keeps {z s : State} {x : Sent} (h : Keeps z s) : Keeps z (s.send x) :=
  h.trans ⟨rfl, id, id, id, Fuses.le_refl _, Nat.le_refl _, Nat.le_refl _, List.suffix_cons _ _⟩

theorem State.freshId_keeps {z s : State} (h : Keeps z s) : Keeps z s.freshId :=
  h.trans ⟨rfl, id, id, id, Fuses.le_refl _, Nat.le_refl _, Nat.le_succ _, List.suffix_refl _⟩

theorem State.afterDraw_keeps {z s : State} (h : Keeps z s) : Keeps z s.afterDraw :=
  h.trans ⟨rfl, id, id, id, Fuses.le_refl _, Nat.le_succ _, Nat.le_refl _, List.suffix_refl _⟩

theorem reset_picWf : State.reset.picWf = true := by decide +kernel

theorem State.cleared_keeps {z s : State} (h : Keeps z s) : Keeps z s.cleared :=
  h.trans ⟨rfl, fun _ => rfl, id, fun _ => reset_picWf, Fuses.le_refl _, Nat.le_refl _, Nat.le_refl _, List.suffix_refl _⟩

/-! ## Picture memory -/

/-- An update of a memory channel that keeps its canonical form. -/
def ChanKeeps (f : MChan → MChan) : Prop := ∀ x, x.wf = true → (f x).wf = true

theorem all_modify {α : Type} (p : α → Bool) (f : α → α) (hf : ∀ x, p x = true → p (f x) = true) :
    ∀ (l : List α) (i : Nat), l.all p = true → (l.modify i f).all p = true
  | [], _, _ => by simp
  | x :: r, 0, h => by
    simp only [List.all_cons, Bool.and_eq_true] at h
    simp [List.modify_zero_cons, hf x h.1, h.2]
  | x :: r, i + 1, h => by
    simp only [List.all_cons, Bool.and_eq_true] at h
    simp only [List.modify_succ_cons, List.all_cons, Bool.and_eq_true]
    exact ⟨h.1, all_modify p f hf r i h.2⟩

theorem rising_insert (x : Nat) : ∀ l, rising l = true → rising (insertNat x l) = true ∧
    ∀ y ∈ insertNat x l, y = x ∨ y ∈ l
  | [], _ => by simp [insertNat, rising]
  | y :: r, h => by
    simp only [rising, Bool.and_eq_true, List.all_eq_true, decide_eq_true_eq] at h
    obtain ⟨k, m⟩ := rising_insert x r h.2
    unfold insertNat
    split
    · rename_i hxy
      refine ⟨?_, by simp⟩
      simp only [rising, Bool.and_eq_true, List.all_eq_true, decide_eq_true_eq, List.mem_cons]
      exact ⟨fun b hb => hb.elim (fun e => e ▸ hxy) (fun e => Nat.lt_trans hxy (h.1 b e)), h.1, h.2⟩
    · split
      · rename_i e; subst e
        refine ⟨?_, by simp⟩
        simp only [rising, Bool.and_eq_true, List.all_eq_true, decide_eq_true_eq]
        exact h
      · rename_i h1 h2
        refine ⟨?_, ?_⟩
        · simp only [rising, Bool.and_eq_true, List.all_eq_true, decide_eq_true_eq]
          exact ⟨fun b hb => (m b hb).elim (fun e => by omega) (h.1 b), k⟩
        · intro b hb
          simp only [List.mem_cons] at hb ⊢
          rcases hb with hb | hb
          · exact .inr (.inl hb)
          · rcases m b hb with e | e
            · exact .inl e
            · exact .inr (.inr e)

theorem rising_erase (x : Nat) : ∀ l, rising l = true → rising (l.erase x) = true
  | [], _ => rfl
  | y :: r, h => by
    simp only [rising, Bool.and_eq_true, List.all_eq_true, decide_eq_true_eq] at h
    rw [List.erase_cons]
    split
    · exact h.2
    · simp only [rising, Bool.and_eq_true, List.all_eq_true, decide_eq_true_eq]
      exact ⟨fun b hb => h.1 b (List.mem_of_mem_erase hb), rising_erase x r h.2⟩

theorem ChanKeeps.poison (on : Bool) (blk : Nat) :
    ChanKeeps fun x => { x with poison := (if on then insertNat blk x.poison else x.poison.erase blk) } := by
  intro x h
  simp only [MChan.wf, Bool.and_eq_true] at h ⊢
  refine ⟨h.1, ?_⟩
  split
  · exact (rising_insert blk _ h.2).1
  · exact rising_erase blk _ h.2

/-! ## Answers -/

/-- A step's answer keeps everything where it is a next state. -/
def KeepsOut (z : State) (o : Host.Outcome State Fault Refusal) : Prop := ∀ t, o = .next t → Keeps z t

theorem KeepsOut.next {z s : State} (h : Keeps z s) : KeepsOut z (.next s) := by
  intro t e; cases e; exact h

theorem KeepsOut.ite {z : State} {o p : Host.Outcome State Fault Refusal} {c : Prop} [Decidable c] (h : KeepsOut z o)
    (k : KeepsOut z p) : KeepsOut z (if c then o else p) := by split <;> assumption

end Sys2Proof.Machine
end

