-- ==== Sys2Proof/Laws/KeepsOps.lean ====
section
/-! SUPPORT. One lemma for each operation of Machine/Ops.lean: it keeps what `Keeps` names. -/

namespace Sys2Proof.Machine

set_option linter.all false

theorem State.wrN_keeps {z s : State} {a : Nat} {v : Nat} (hz : Keeps z s) :
    Keeps z (State.wrN s a v) := by
  unfold State.wrN
  try dsimp only
  repeat' first
    | (with_reducible intro _)
    | with_reducible assumption
    | with_reducible apply Keeps.ite
    | with_reducible apply State.wr_keeps
    | simp only [Keeps.mk_iff]
    | with_reducible apply KeepsCore.of
    | (split <;> (rename_i hp; have hp := congrArg Prod.fst hp; dsimp only at hp; subst hp))
    | split

theorem State.wrI_keeps {z s : State} {a : Nat} {v : Int} (hz : Keeps z s) :
    Keeps z (State.wrI s a v) := by
  unfold State.wrI
  try dsimp only
  repeat' first
    | (with_reducible intro _)
    | with_reducible assumption
    | with_reducible apply Keeps.ite
    | with_reducible apply State.wr_keeps
    | simp only [Keeps.mk_iff]
    | with_reducible apply KeepsCore.of
    | (split <;> (rename_i hp; have hp := congrArg Prod.fst hp; dsimp only at hp; subst hp))
    | split

theorem State.setFld_keeps {z s : State} {a : Nat} {hi : Nat} {lo : Nat} {v : Nat} (hz : Keeps z s) :
    Keeps z (State.setFld s a hi lo v) := by
  unfold State.setFld
  try dsimp only
  repeat' first
    | (with_reducible intro _)
    | with_reducible assumption
    | with_reducible apply Keeps.ite
    | with_reducible apply State.wr_keeps
    | simp only [Keeps.mk_iff]
    | with_reducible apply KeepsCore.of
    | (split <;> (rename_i hp; have hp := congrArg Prod.fst hp; dsimp only at hp; subst hp))
    | split

theorem State.setBit_keeps {z s : State} {a : Nat} {i : Nat} {b : Bool} (hz : Keeps z s) :
    Keeps z (State.setBit s a i b) := by
  unfold State.setBit
  try dsimp only
  repeat' first
    | (with_reducible intro _)
    | with_reducible assumption
    | with_reducible apply Keeps.ite
    | with_reducible apply State.setFld_keeps
    | simp only [Keeps.mk_iff]
    | with_reducible apply KeepsCore.of
    | (split <;> (rename_i hp; have hp := congrArg Prod.fst hp; dsimp only at hp; subst hp))
    | split

theorem State.bump_keeps {z s : State} {a : Nat} {n : Nat} (hz : Keeps z s) :
    Keeps z (State.bump s a n) := by
  unfold State.bump
  try dsimp only
  repeat' first
    | (with_reducible intro _)
    | with_reducible assumption
    | with_reducible apply Keeps.ite
    | with_reducible apply State.wrN_keeps
    | simp only [Keeps.mk_iff]
    | with_reducible apply KeepsCore.of
    | (split <;> (rename_i hp; have hp := congrArg Prod.fst hp; dsimp only at hp; subst hp))
    | split

theorem State.wr64_keeps {z s : State} {a : Nat} {v : Nat} (hz : Keeps z s) :
    Keeps z (State.wr64 s a v) := by
  unfold State.wr64
  try dsimp only
  repeat' first
    | (with_reducible intro _)
    | with_reducible assumption
    | with_reducible apply Keeps.ite
    | with_reducible apply State.wrN_keeps
    | simp only [Keeps.mk_iff]
    | with_reducible apply KeepsCore.of
    | (split <;> (rename_i hp; have hp := congrArg Prod.fst hp; dsimp only at hp; subst hp))
    | split

theorem State.bump64_keeps {z s : State} {a : Nat} {n : Nat} (hz : Keeps z s) :
    Keeps z (State.bump64 s a n) := by
  unfold State.bump64
  try dsimp only
  repeat' first
    | (with_reducible intro _)
    | with_reducible assumption
    | with_reducible apply Keeps.ite
    | with_reducible apply State.wr64_keeps
    | simp only [Keeps.mk_iff]
    | with_reducible apply KeepsCore.of
    | (split <;> (rename_i hp; have hp := congrArg Prod.fst hp; dsimp only at hp; subst hp))
    | split

theorem State.maxN_keeps {z s : State} {a : Nat} {v : Nat} (hz : Keeps z s) :
    Keeps z (State.maxN s a v) := by
  unfold State.maxN
  try dsimp only
  repeat' first
    | (with_reducible intro _)
    | with_reducible assumption
    | with_reducible apply Keeps.ite
    | with_reducible apply State.wrN_keeps
    | simp only [Keeps.mk_iff]
    | with_reducible apply KeepsCore.of
    | (split <;> (rename_i hp; have hp := congrArg Prod.fst hp; dsimp only at hp; subst hp))
    | split

theorem State.elapse_keeps {z s : State} {n : Nat} (hz : Keeps z s) :
    Keeps z (State.elapse s n) := by
  unfold State.elapse
  try dsimp only
  repeat' first
    | (with_reducible intro _)
    | with_reducible assumption
    | with_reducible apply Keeps.ite
    | simp only [Keeps.mk_iff]
    | with_reducible apply KeepsCore.of
    | (split <;> (rename_i hp; have hp := congrArg Prod.fst hp; dsimp only at hp; subst hp))
    | split

theorem State.raise_keeps {z s : State} {src : Nat} {info : Nat} (hz : Keeps z s) :
    Keeps z (State.raise s src info) := by
  unfold State.raise
  try dsimp only
  repeat' first
    | (with_reducible intro _)
    | with_reducible assumption
    | with_reducible apply Keeps.ite
    | simp only [Keeps.mk_iff]
    | with_reducible apply KeepsCore.of
    | (split <;> (rename_i hp; have hp := congrArg Prod.fst hp; dsimp only at hp; subst hp))
    | split

theorem State.raiseLimited_keeps {z s : State} {src : Nat} {info : Nat} (hz : Keeps z s) :
    Keeps z (State.raiseLimited s src info) := by
  unfold State.raiseLimited
  try dsimp only
  repeat' first
    | (with_reducible intro _)
    | with_reducible assumption
    | with_reducible apply Keeps.ite
    | simp only [Keeps.mk_iff]
    | with_reducible apply KeepsCore.of
    | (split <;> (rename_i hp; have hp := congrArg Prod.fst hp; dsimp only at hp; subst hp))
    | split

theorem State.raiseT_keeps {z s : State} {src : Nat} {info : Nat} (hz : Keeps z s) :
    Keeps z (State.raiseT s src info) := by
  unfold State.raiseT
  try dsimp only
  repeat' first
    | (with_reducible intro _)
    | with_reducible assumption
    | with_reducible apply Keeps.ite
    | with_reducible apply State.raise_keeps
    | simp only [Keeps.mk_iff]
    | with_reducible apply KeepsCore.of
    | (split <;> (rename_i hp; have hp := congrArg Prod.fst hp; dsimp only at hp; subst hp))
    | split

theorem State.setPinned_keeps {z s : State} {l : List Nat} (hz : Keeps z s) :
    Keeps z (State.setPinned s l) := by
  unfold State.setPinned
  try dsimp only
  repeat' first
    | (with_reducible intro _)
    | with_reducible assumption
    | with_reducible apply Keeps.ite
    | with_reducible apply State.wrN_keeps
    | simp only [Keeps.mk_iff]
    | with_reducible apply KeepsCore.of
    | (split <;> (rename_i hp; have hp := congrArg Prod.fst hp; dsimp only at hp; subst hp))
    | split

theorem State.noteOverwrite_keeps {z s : State} {h : Nat} (hz : Keeps z s) :
    Keeps z (State.noteOverwrite s h) := by
  unfold State.noteOverwrite
  try dsimp only
  repeat' first
    | (with_reducible intro _)
    | with_reducible assumption
    | with_reducible apply Keeps.ite
    | simp only [Keeps.mk_iff]
    | with_reducible apply KeepsCore.of
    | (split <;> (rename_i hp; have hp := congrArg Prod.fst hp; dsimp only at hp; subst hp))
    | split

theorem State.writeRecord_keeps {z s : State} {src : Nat} {time : Nat} {info : Nat} (hz : Keeps z s) :
    Keeps z (State.writeRecord s src time info) := by
  unfold State.writeRecord
  try dsimp only
  repeat' first
    | (with_reducible intro _)
    | with_reducible assumption
    | with_reducible apply Keeps.ite
    | with_reducible apply State.noteOverwrite_keeps
    | with_reducible apply State.wrN_keeps
    | with_reducible apply State.when_keeps
    | with_reducible apply State.bump_keeps
    | with_reducible apply State.setPinned_keeps
    | simp only [Keeps.mk_iff]
    | with_reducible apply KeepsCore.of
    | (split <;> (rename_i hp; have hp := congrArg Prod.fst hp; dsimp only at hp; subst hp))
    | split

theorem State.recordIfEnabled_keeps {z s : State} {src : Nat} {time : Nat} {info : Nat} (hz : Keeps z s) :
    Keeps z (State.recordIfEnabled s src time info) := by
  unfold State.recordIfEnabled
  try dsimp only
  repeat' first
    | (with_reducible intro _)
    | with_reducible assumption
    | with_reducible apply Keeps.ite
    | with_reducible apply State.when_keeps
    | with_reducible apply State.writeRecord_keeps
    | simp only [Keeps.mk_iff]
    | with_reducible apply KeepsCore.of
    | (split <;> (rename_i hp; have hp := congrArg Prod.fst hp; dsimp only at hp; subst hp))
    | split

theorem State.closeWindow_keeps {z s : State} {src : Nat} (hz : Keeps z s) :
    Keeps z (State.closeWindow s src) := by
  unfold State.closeWindow
  try dsimp only
  repeat' first
    | (with_reducible intro _)
    | with_reducible assumption
    | with_reducible apply Keeps.ite
    | with_reducible apply State.when_keeps
    | with_reducible apply State.recordIfEnabled_keeps
    | simp only [Keeps.mk_iff]
    | with_reducible apply KeepsCore.of
    | (split <;> (rename_i hp; have hp := congrArg Prod.fst hp; dsimp only at hp; subst hp))
    | split

theorem State.takeRaise_keeps {z s : State} {r : Raise} (hz : Keeps z s) :
    Keeps z (State.takeRaise s r) := by
  unfold State.takeRaise
  try dsimp only
  repeat' first
    | (with_reducible intro _)
    | with_reducible assumption
    | with_reducible apply Keeps.ite
    | with_reducible apply State.setFld_keeps
    | with_reducible apply State.closeWindow_keeps
    | with_reducible apply State.when_keeps
    | with_reducible apply State.recordIfEnabled_keeps
    | simp only [Keeps.mk_iff]
    | with_reducible apply KeepsCore.of
    | (split <;> (rename_i hp; have hp := congrArg Prod.fst hp; dsimp only at hp; subst hp))
    | split

theorem State.settle_keeps {z s : State}  (hz : Keeps z s) :
    Keeps z (State.settle s) := by
  unfold State.settle
  try dsimp only
  repeat' first
    | (with_reducible intro _)
    | with_reducible assumption
    | with_reducible apply Keeps.ite
    | with_reducible apply Keeps.foldl
    | with_reducible apply Keeps.foldlFst
    | with_reducible apply State.each_keeps
    | with_reducible apply State.takeRaise_keeps
    | simp only [Keeps.mk_iff]
    | with_reducible apply KeepsCore.of
    | (split <;> (rename_i hp; have hp := congrArg Prod.fst hp; dsimp only at hp; subst hp))
    | split

theorem State.refuse_keeps {z s : State} {a : Nat} (hz : Keeps z s) :
    Keeps z (State.refuse s a) := by
  unfold State.refuse
  try dsimp only
  repeat' first
    | (with_reducible intro _)
    | with_reducible assumption
    | with_reducible apply Keeps.ite
    | with_reducible apply State.bump_keeps
    | with_reducible apply State.raiseLimited_keeps
    | simp only [Keeps.mk_iff]
    | with_reducible apply KeepsCore.of
    | (split <;> (rename_i hp; have hp := congrArg Prod.fst hp; dsimp only at hp; subst hp))
    | split

theorem State.enterPhase_keeps {z s : State} {p : Nat} (hz : Keeps z s) :
    Keeps z (State.enterPhase s p) := by
  unfold State.enterPhase
  try dsimp only
  repeat' first
    | (with_reducible intro _)
    | with_reducible assumption
    | with_reducible apply Keeps.ite
    | with_reducible apply State.setFld_keeps
    | with_reducible apply State.when_keeps
    | with_reducible apply State.wrN_keeps
    | with_reducible apply State.raise_keeps
    | simp only [Keeps.mk_iff]
    | with_reducible apply KeepsCore.of
    | (split <;> (rename_i hp; have hp := congrArg Prod.fst hp; dsimp only at hp; subst hp))
    | split

theorem done_keeps {z s : State} (hz : Keeps z s) : KeepsOut z (done s) := KeepsOut.next (State.settle_keeps hz)

end Sys2Proof.Machine
end

