-- ==== Sys2Proof/Laws/KeepsPort.lean ====
section
/-! SUPPORT. One lemma for each operation of Machine/Port.lean: it keeps what `Keeps` names. -/

namespace Sys2Proof.Machine

set_option linter.all false

theorem State.enqueueFrame_keeps {z s : State} {f : QFrame} (hz : Keeps z s) :
    Keeps z (State.enqueueFrame s f) := by
  unfold State.enqueueFrame
  try dsimp only
  repeat' first
    | (with_reducible intro _)
    | with_reducible assumption
    | with_reducible apply Keeps.ite
    | simp only [Keeps.mk_iff]
    | with_reducible apply KeepsCore.of
    | (split <;> (rename_i hp; have hp := congrArg Prod.fst hp; dsimp only at hp; subst hp))
    | split

theorem State.toSub_keeps {z s : State} {p : Nat} {i : Nat} {cls : Nat} {len : Nat} {x : Sent} (hz : Keeps z s) :
    Keeps z (State.toSub s p i cls len x) := by
  unfold State.toSub
  try dsimp only
  repeat' first
    | (with_reducible intro _)
    | with_reducible assumption
    | with_reducible apply Keeps.ite
    | with_reducible apply State.bump_keeps
    | with_reducible apply State.enqueueFrame_keeps
    | simp only [Keeps.mk_iff]
    | with_reducible apply KeepsCore.of
    | (split <;> (rename_i hp; have hp := congrArg Prod.fst hp; dsimp only at hp; subst hp))
    | split

theorem State.promoteFrame_keeps {z s : State} {p : Nat} (hz : Keeps z s) :
    Keeps z (State.promoteFrame s p) := by
  unfold State.promoteFrame
  try dsimp only
  repeat' first
    | (with_reducible intro _)
    | with_reducible assumption
    | with_reducible apply Keeps.ite
    | with_reducible apply State.enqueueFrame_keeps
    | with_reducible apply State.bump_keeps
    | simp only [Keeps.mk_iff]
    | with_reducible apply KeepsCore.of
    | (split <;> (rename_i hp; have hp := congrArg Prod.fst hp; dsimp only at hp; subst hp))
    | split

theorem State.toPort_keeps {z s : State} {p : Nat} {cls : Nat} {len : Nat} {x : Sent} (hz : Keeps z s) :
    Keeps z (State.toPort s p cls len x) := by
  unfold State.toPort
  try dsimp only
  repeat' first
    | (with_reducible intro _)
    | with_reducible assumption
    | with_reducible apply Keeps.ite
    | with_reducible apply State.toSub_keeps
    | simp only [Keeps.mk_iff]
    | with_reducible apply KeepsCore.of
    | (split <;> (rename_i hp; have hp := congrArg Prod.fst hp; dsimp only at hp; subst hp))
    | split

theorem State.modGate_keeps {z s : State} {p : Nat} {f : Gates → Gates} (hz : Keeps z s) :
    Keeps z (State.modGate s p f) := by
  unfold State.modGate
  try dsimp only
  repeat' first
    | (with_reducible intro _)
    | with_reducible assumption
    | with_reducible apply Keeps.ite
    | simp only [Keeps.mk_iff]
    | with_reducible apply KeepsCore.of
    | (split <;> (rename_i hp; have hp := congrArg Prod.fst hp; dsimp only at hp; subst hp))
    | split

theorem State.storeEntry_keeps {z s : State} {p : Nat} {v : Nat} (hz : Keeps z s) :
    Keeps z (State.storeEntry s p v) := by
  unfold State.storeEntry
  try dsimp only
  repeat' first
    | (with_reducible intro _)
    | with_reducible assumption
    | with_reducible apply Keeps.ite
    | with_reducible apply State.modGate_keeps
    | with_reducible apply State.setFld_keeps
    | simp only [Keeps.mk_iff]
    | with_reducible apply KeepsCore.of
    | (split <;> (rename_i hp; have hp := congrArg Prod.fst hp; dsimp only at hp; subst hp))
    | split

end Sys2Proof.Machine
end

