-- ==== Sys2Proof/Laws/KeepsSafety.lean ====
section
/-! SUPPORT. One lemma for each operation of Machine/Safety.lean: it keeps what `Keeps` names. -/

namespace Sys2Proof.Machine

set_option linter.all false

/-- The canonical form of a flash that operations of the model have reached. -/
def FlashOk (z : State) (m : List Host.Cell) : Prop := z.flashWf = true → Memory.wf m = true

theorem FlashOk.of {z s : State} {p : Nat} (h : Keeps z s) : FlashOk z (s.flash p) := by
  intro k
  have w := h.flash k
  simp only [State.flashWf, Bool.and_eq_true] at w
  unfold State.flash
  split
  · exact w.1
  · exact w.2

theorem flashProgram_wf (bs : List Byte) : ∀ (m : List Host.Cell) (a : Nat), Memory.wf m = true →
    Memory.wf (flashProgram m a bs) = true := by
  induction bs with
  | nil => intro m a h; exact h
  | cons b r ih => intro m a h; exact ih _ _ (sparseSet_wf _ _ _ _ h)

theorem flashErase_wf (m : List Host.Cell) (a n : Nat) (h : Memory.wf m = true) :
    Memory.wf (flashErase m a n) = true := by
  unfold flashErase Memory.wf at *
  induction m with
  | nil => rfl
  | cons x r ih =>
    obtain ⟨k, w⟩ := x
    simp only [sparseWf, Bool.and_eq_true, List.all_eq_true] at h
    simp only [List.filter_cons]
    split
    · simp only [sparseWf, Bool.and_eq_true, List.all_eq_true]
      exact ⟨⟨h.1.1, fun e he => h.1.2 e (List.mem_filter.1 he).1⟩, ih h.2⟩
    · exact ih h.2

theorem FlashOk.program {z : State} {m : List Host.Cell} {a : Nat} {bs : List Byte} (h : FlashOk z m) :
    FlashOk z (flashProgram m a bs) := fun k => flashProgram_wf bs m a (h k)

theorem FlashOk.erase {z : State} {m : List Host.Cell} {a n : Nat} (h : FlashOk z m) :
    FlashOk z (flashErase m a n) := fun k => flashErase_wf m a n (h k)

theorem State.setFlash_keeps {z s : State} {port : Nat} {m : List Host.Cell} (hm : FlashOk z m) (hz : Keeps z s) :
    Keeps z (s.setFlash port m) := by
  have k (w : z.flashWf = true) : Memory.wf s.flashA = true ∧ Memory.wf s.flashB = true := by
    have := hz.flash w; simpa [State.flashWf] using this
  unfold State.setFlash
  split
  · exact ⟨hz.pending, hz.regs, fun w => by simp [State.flashWf, hm w, (k w).2], hz.pic, hz.fuses, hz.draws, hz.fresh, hz.sent⟩
  · exact ⟨hz.pending, hz.regs, fun w => by simp [State.flashWf, hm w, (k w).1], hz.pic, hz.fuses, hz.draws, hz.fresh, hz.sent⟩

theorem State.endSession_keeps {z s : State}  (hz : Keeps z s) :
    Keeps z (State.endSession s) := by
  unfold State.endSession
  try dsimp only
  repeat' first
    | (with_reducible intro _)
    | with_reducible assumption
    | with_reducible apply Keeps.ite
    | simp only [Keeps.mk_iff]
    | with_reducible apply KeepsCore.of
    | (split <;> (rename_i hp; have hp := congrArg Prod.fst hp; dsimp only at hp; subst hp))
    | split

theorem State.abortSession_keeps {z s : State} {f : FlashSession} (hz : Keeps z s) :
    Keeps z (State.abortSession s f) := by
  unfold State.abortSession
  try dsimp only
  repeat' first
    | (with_reducible intro _)
    | with_reducible assumption
    | with_reducible apply Keeps.ite
    | with_reducible apply State.endSession_keeps
    | with_reducible apply State.setFlash_keeps
    | with_reducible apply FlashOk.of
    | with_reducible apply FlashOk.program
    | with_reducible apply FlashOk.erase
    | simp only [Keeps.mk_iff]
    | with_reducible apply KeepsCore.of
    | (split <;> (rename_i hp; have hp := congrArg Prod.fst hp; dsimp only at hp; subst hp))
    | split

theorem State.journal_keeps {z s : State} {type : Nat} {payload : List Byte} (hz : Keeps z s) :
    Keeps z (State.journal s type payload) := by
  unfold State.journal
  try dsimp only
  repeat' first
    | (with_reducible intro _)
    | with_reducible assumption
    | with_reducible apply Keeps.ite
    | with_reducible apply State.bump_keeps
    | simp only [Keeps.mk_iff]
    | with_reducible apply KeepsCore.of
    | (split <;> (rename_i hp; have hp := congrArg Prod.fst hp; dsimp only at hp; subst hp))
    | split

theorem State.ageingRecord_keeps {z s : State} {payload : List Byte} (hz : Keeps z s) :
    Keeps z (State.ageingRecord s payload) := by
  unfold State.ageingRecord
  try dsimp only
  repeat' first
    | (with_reducible intro _)
    | with_reducible assumption
    | with_reducible apply Keeps.ite
    | simp only [Keeps.mk_iff]
    | with_reducible apply KeepsCore.of
    | (split <;> (rename_i hp; have hp := congrArg Prod.fst hp; dsimp only at hp; subst hp))
    | split

theorem State.sendSet_keeps {z s : State} {kind : Nat} (hz : Keeps z s) :
    Keeps z (State.sendSet s kind) := by
  unfold State.sendSet
  try dsimp only
  repeat' first
    | (with_reducible intro _)
    | with_reducible assumption
    | with_reducible apply Keeps.ite
    | with_reducible apply State.send_keeps
    | simp only [Keeps.mk_iff]
    | with_reducible apply KeepsCore.of
    | (split <;> (rename_i hp; have hp := congrArg Prod.fst hp; dsimp only at hp; subst hp))
    | split

theorem State.sendWick_keeps {z s : State} {kind : Nat} (hz : Keeps z s) :
    Keeps z (State.sendWick s kind) := by
  unfold State.sendWick
  try dsimp only
  repeat' first
    | (with_reducible intro _)
    | with_reducible assumption
    | with_reducible apply Keeps.ite
    | with_reducible apply State.send_keeps
    | simp only [Keeps.mk_iff]
    | with_reducible apply KeepsCore.of
    | (split <;> (rename_i hp; have hp := congrArg Prod.fst hp; dsimp only at hp; subst hp))
    | split

theorem State.sendPresence_keeps {z s : State} {kind : Nat} (hz : Keeps z s) :
    Keeps z (State.sendPresence s kind) := by
  unfold State.sendPresence
  try dsimp only
  repeat' first
    | (with_reducible intro _)
    | with_reducible assumption
    | with_reducible apply Keeps.ite
    | with_reducible apply State.each_keeps
    | with_reducible apply State.when_keeps
    | with_reducible apply State.toPort_keeps
    | simp only [Keeps.mk_iff]
    | with_reducible apply KeepsCore.of
    | (split <;> (rename_i hp; have hp := congrArg Prod.fst hp; dsimp only at hp; subst hp))
    | split

theorem State.sendEverywhere_keeps {z s : State} {kind : Nat} (hz : Keeps z s) :
    Keeps z (State.sendEverywhere s kind) := by
  unfold State.sendEverywhere
  try dsimp only
  repeat' first
    | (with_reducible intro _)
    | with_reducible assumption
    | with_reducible apply Keeps.ite
    | with_reducible apply State.sendSet_keeps
    | with_reducible apply State.sendWick_keeps
    | with_reducible apply State.sendPresence_keeps
    | simp only [Keeps.mk_iff]
    | with_reducible apply KeepsCore.of
    | (split <;> (rename_i hp; have hp := congrArg Prod.fst hp; dsimp only at hp; subst hp))
    | split

theorem State.setGates_keeps {z s : State} {b : Bool} (hz : Keeps z s) :
    Keeps z (State.setGates s b) := by
  unfold State.setGates
  try dsimp only
  repeat' first
    | (with_reducible intro _)
    | with_reducible assumption
    | with_reducible apply Keeps.ite
    | simp only [Keeps.mk_iff]
    | with_reducible apply KeepsCore.of
    | (split <;> (rename_i hp; have hp := congrArg Prod.fst hp; dsimp only at hp; subst hp))
    | split

theorem State.setChan_keeps {z s : State} {n : Nat} {st : Nat} {cause : Nat} (hz : Keeps z s) :
    Keeps z (State.setChan s n st cause) := by
  unfold State.setChan
  try dsimp only
  repeat' first
    | (with_reducible intro _)
    | with_reducible assumption
    | with_reducible apply Keeps.ite
    | with_reducible apply State.setFld_keeps
    | with_reducible apply State.raise_keeps
    | simp only [Keeps.mk_iff]
    | with_reducible apply KeepsCore.of
    | (split <;> (rename_i hp; have hp := congrArg Prod.fst hp; dsimp only at hp; subst hp))
    | split

theorem State.chansToShadow_keeps {z s : State}  (hz : Keeps z s) :
    Keeps z (State.chansToShadow s) := by
  unfold State.chansToShadow
  try dsimp only
  repeat' first
    | (with_reducible intro _)
    | with_reducible assumption
    | with_reducible apply Keeps.ite
    | with_reducible apply State.each_keeps
    | with_reducible apply State.when_keeps
    | with_reducible apply State.setChan_keeps
    | with_reducible apply State.setBit_keeps
    | simp only [Keeps.mk_iff]
    | with_reducible apply KeepsCore.of
    | (split <;> (rename_i hp; have hp := congrArg Prod.fst hp; dsimp only at hp; subst hp))
    | split

theorem State.dropCopy_keeps {z s : State} {n : Nat} (hz : Keeps z s) :
    Keeps z (State.dropCopy s n) := by
  unfold State.dropCopy
  try dsimp only
  repeat' first
    | (with_reducible intro _)
    | with_reducible assumption
    | with_reducible apply Keeps.ite
    | simp only [Keeps.mk_iff]
    | with_reducible apply KeepsCore.of
    | (split <;> (rename_i hp; have hp := congrArg Prod.fst hp; dsimp only at hp; subst hp))
    | split

theorem State.endSnaps_keeps {z s : State}  (hz : Keeps z s) :
    Keeps z (State.endSnaps s) := by
  unfold State.endSnaps
  try dsimp only
  repeat' first
    | (with_reducible intro _)
    | with_reducible assumption
    | with_reducible apply Keeps.ite
    | with_reducible apply State.each_keeps
    | with_reducible apply State.dropCopy_keeps
    | with_reducible apply State.raise_keeps
    | simp only [Keeps.mk_iff]
    | with_reducible apply KeepsCore.of
    | (split <;> (rename_i hp; have hp := congrArg Prod.fst hp; dsimp only at hp; subst hp))
    | split

theorem State.setRole_keeps {z s : State} {r : Role} (hz : Keeps z s) :
    Keeps z (State.setRole s r) := by
  unfold State.setRole
  try dsimp only
  repeat' first
    | (with_reducible intro _)
    | with_reducible assumption
    | with_reducible apply Keeps.ite
    | with_reducible apply State.setBit_keeps
    | simp only [Keeps.mk_iff]
    | with_reducible apply KeepsCore.of
    | (split <;> (rename_i hp; have hp := congrArg Prod.fst hp; dsimp only at hp; subst hp))
    | split

theorem State.flameEvent_keeps {z s : State} {holds : Bool} {cause : Nat} (hz : Keeps z s) :
    Keeps z (State.flameEvent s holds cause) := by
  unfold State.flameEvent
  try dsimp only
  repeat' first
    | (with_reducible intro _)
    | with_reducible assumption
    | with_reducible apply Keeps.ite
    | with_reducible apply State.raise_keeps
    | simp only [Keeps.mk_iff]
    | with_reducible apply KeepsCore.of
    | (split <;> (rename_i hp; have hp := congrArg Prod.fst hp; dsimp only at hp; subst hp))
    | split

theorem State.dropFlame_keeps {z s : State} {cause : Nat} (hz : Keeps z s) :
    Keeps z (State.dropFlame s cause) := by
  unfold State.dropFlame
  try dsimp only
  repeat' first
    | (with_reducible intro _)
    | with_reducible assumption
    | with_reducible apply Keeps.ite
    | with_reducible apply State.setBit_keeps
    | with_reducible apply State.setGates_keeps
    | with_reducible apply State.setRole_keeps
    | with_reducible apply State.chansToShadow_keeps
    | with_reducible apply State.endSnaps_keeps
    | with_reducible apply State.flameEvent_keeps
    | simp only [Keeps.mk_iff]
    | with_reducible apply KeepsCore.of
    | (split <;> (rename_i hp; have hp := congrArg Prod.fst hp; dsimp only at hp; subst hp))
    | split

theorem State.releaseFlame_keeps {z s : State} {lanesRun : Bool} (hz : Keeps z s) :
    Keeps z (State.releaseFlame s lanesRun) := by
  unfold State.releaseFlame
  try dsimp only
  repeat' first
    | (with_reducible intro _)
    | with_reducible assumption
    | with_reducible apply Keeps.ite
    | with_reducible apply State.sendEverywhere_keeps
    | with_reducible apply State.sendWick_keeps
    | with_reducible apply State.dropFlame_keeps
    | simp only [Keeps.mk_iff]
    | with_reducible apply KeepsCore.of
    | (split <;> (rename_i hp; have hp := congrArg Prod.fst hp; dsimp only at hp; subst hp))
    | split

theorem State.snuff_keeps {z s : State} {cause : Nat} (hz : Keeps z s) :
    Keeps z (State.snuff s cause) := by
  unfold State.snuff
  try dsimp only
  repeat' first
    | (with_reducible intro _)
    | with_reducible assumption
    | with_reducible apply Keeps.ite
    | with_reducible apply State.setGates_keeps
    | with_reducible apply State.when_keeps
    | with_reducible apply State.releaseFlame_keeps
    | with_reducible apply State.setFld_keeps
    | with_reducible apply State.wrN_keeps
    | with_reducible apply State.freshId_keeps
    | with_reducible apply State.raiseT_keeps
    | with_reducible apply State.journal_keeps
    | simp only [Keeps.mk_iff]
    | with_reducible apply KeepsCore.of
    | (split <;> (rename_i hp; have hp := congrArg Prod.fst hp; dsimp only at hp; subst hp))
    | split

theorem PicMem.kept_wf (p : PicMem) (h : p.chans.all MChan.wf = true) : p.kept.chans.all MChan.wf = true := by
  simp only [PicMem.kept, List.all_map, List.all_eq_true, Function.comp] at h ⊢
  exact h

theorem State.warmReset_keeps {z s : State} (hz : Keeps z s) : Keeps z s.warmReset := by
  unfold State.warmReset
  dsimp only
  refine State.when_keeps (State.setBit_keeps (hz.trans ⟨rfl, fun _ => rfl, id, fun h => PicMem.kept_wf _ h, Fuses.le_refl _,
    Nat.le_refl _, Nat.le_refl _, List.suffix_refl _⟩)) fun x hx => ?_
  exact State.wrN_keeps (State.wrN_keeps hx)

theorem State.coldReset_keeps {z s : State}  (hz : Keeps z s) :
    Keeps z (State.coldReset s) := by
  unfold State.coldReset
  try dsimp only
  repeat' first
    | (with_reducible intro _)
    | with_reducible assumption
    | with_reducible apply Keeps.ite
    | with_reducible apply State.cleared_keeps
    | simp only [Keeps.mk_iff]
    | with_reducible apply KeepsCore.of
    | (split <;> (rename_i hp; have hp := congrArg Prod.fst hp; dsimp only at hp; subst hp))
    | split

theorem State.snuffAndReset_keeps {z s : State} {cause : Nat} (hz : Keeps z s) :
    Keeps z (State.snuffAndReset s cause) := by
  unfold State.snuffAndReset
  try dsimp only
  repeat' first
    | (with_reducible intro _)
    | with_reducible assumption
    | with_reducible apply Keeps.ite
    | with_reducible apply State.snuff_keeps
    | with_reducible apply State.warmReset_keeps
    | simp only [Keeps.mk_iff]
    | with_reducible apply KeepsCore.of
    | (split <;> (rename_i hp; have hp := congrArg Prod.fst hp; dsimp only at hp; subst hp))
    | split

end Sys2Proof.Machine
end

