-- ==== Sys2Proof/Laws/KeepsFabric.lean ====
section
/-! SUPPORT. One lemma for each operation of Machine/Fabric.lean: it keeps what `Keeps` names. -/

namespace Sys2Proof.Machine

set_option linter.all false

theorem State.abortLog_keeps {z s : State} {d : Nat} {kind : Nat} {addr : Nat} {mdie : Nat} {mid : Nat} {chan : Nat} {beats : Nat} {total : Nat} {idx : Nat} (hz : Keeps z s) :
    Keeps z (State.abortLog s d kind addr mdie mid chan beats total idx) := by
  unfold State.abortLog
  try dsimp only
  repeat' first
    | (with_reducible intro _)
    | with_reducible assumption
    | with_reducible apply Keeps.ite
    | with_reducible apply State.wrN_keeps
    | with_reducible apply State.setFld_keeps
    | with_reducible apply State.bump_keeps
    | with_reducible apply State.raiseLimited_keeps
    | with_reducible apply State.raise_keeps
    | simp only [Keeps.mk_iff]
    | with_reducible apply KeepsCore.of
    | (split <;> (rename_i hp; have hp := congrArg Prod.fst hp; dsimp only at hp; subst hp))
    | split

theorem State.crcGuard_keeps {z s : State} {host : Bool} {u : Nat} {a : Nat} {differs : Bool} {f : State → State} (hz : Keeps z s) (hf : ∀ x, Keeps z x → Keeps z (f x)) :
    Keeps z (State.crcGuard s host u a differs f) := by
  unfold State.crcGuard
  try dsimp only
  repeat' first
    | (with_reducible intro _)
    | with_reducible assumption
    | with_reducible apply Keeps.ite
    | with_reducible apply State.when_keeps
    | with_reducible apply State.refuse_keeps
    | with_reducible apply hf
    | simp only [Keeps.mk_iff]
    | with_reducible apply KeepsCore.of
    | (split <;> (rename_i hp; have hp := congrArg Prod.fst hp; dsimp only at hp; subst hp))
    | split

theorem State.crcReach_keeps {z s : State} {host : Bool} {d : Nat} {a : Nat} {f : State → State} (hz : Keeps z s) (hf : ∀ x, Keeps z x → Keeps z (f x)) :
    Keeps z (State.crcReach s host d a f) := by
  unfold State.crcReach
  try dsimp only
  repeat' first
    | (with_reducible intro _)
    | with_reducible assumption
    | with_reducible apply Keeps.ite
    | with_reducible apply State.when_keeps
    | with_reducible apply State.abortLog_keeps
    | with_reducible apply hf
    | simp only [Keeps.mk_iff]
    | with_reducible apply KeepsCore.of
    | (split <;> (rename_i hp; have hp := congrArg Prod.fst hp; dsimp only at hp; subst hp))
    | split

theorem State.crcStart_keeps {z s : State} {d : Nat} {u : Nat} (hz : Keeps z s) :
    Keeps z (State.crcStart s d u) := by
  unfold State.crcStart
  try dsimp only
  repeat' first
    | (with_reducible intro _)
    | with_reducible assumption
    | with_reducible apply Keeps.ite
    | with_reducible apply State.wr64_keeps
    | with_reducible apply State.wrN_keeps
    | simp only [Keeps.mk_iff]
    | with_reducible apply KeepsCore.of
    | (split <;> (rename_i hp; have hp := congrArg Prod.fst hp; dsimp only at hp; subst hp))
    | split

theorem State.crcFeedBytes_keeps {z s : State} {d : Nat} {u : Nat} {n : Nat} {x : Nat} (hz : Keeps z s) :
    Keeps z (State.crcFeedBytes s d u n x) := by
  unfold State.crcFeedBytes
  try dsimp only
  repeat' first
    | (with_reducible intro _)
    | with_reducible assumption
    | with_reducible apply Keeps.ite
    | with_reducible apply Keeps.foldl
    | with_reducible apply Keeps.foldlFst
    | with_reducible apply State.wr64_keeps
    | with_reducible apply State.bump_keeps
    | simp only [Keeps.mk_iff]
    | with_reducible apply KeepsCore.of
    | (split <;> (rename_i hp; have hp := congrArg Prod.fst hp; dsimp only at hp; subst hp))
    | split

theorem State.crcMask_keeps {z s : State} {w : Nat} {a : Nat} (hz : Keeps z s) :
    Keeps z (State.crcMask s w a) := by
  unfold State.crcMask
  try dsimp only
  repeat' first
    | (with_reducible intro _)
    | with_reducible assumption
    | with_reducible apply Keeps.ite
    | with_reducible apply State.wr64_keeps
    | simp only [Keeps.mk_iff]
    | with_reducible apply KeepsCore.of
    | (split <;> (rename_i hp; have hp := congrArg Prod.fst hp; dsimp only at hp; subst hp))
    | split

theorem State.crcCfgWrite_keeps {z s : State} {d : Nat} {u : Nat} {v : Word} (hz : Keeps z s) :
    Keeps z (State.crcCfgWrite s d u v) := by
  unfold State.crcCfgWrite
  try dsimp only
  repeat' first
    | (with_reducible intro _)
    | with_reducible assumption
    | with_reducible apply Keeps.ite
    | with_reducible apply State.when_keeps
    | with_reducible apply State.refuse_keeps
    | with_reducible apply State.wr_keeps
    | with_reducible apply State.crcMask_keeps
    | simp only [Keeps.mk_iff]
    | with_reducible apply KeepsCore.of
    | (split <;> (rename_i hp; have hp := congrArg Prod.fst hp; dsimp only at hp; subst hp))
    | split

theorem State.crcValueWrite_keeps {z s : State} {d : Nat} {u : Nat} {x : Nat} (hz : Keeps z s) :
    Keeps z (State.crcValueWrite s d u x) := by
  unfold State.crcValueWrite
  try dsimp only
  repeat' first
    | (with_reducible intro _)
    | with_reducible assumption
    | with_reducible apply Keeps.ite
    | with_reducible apply State.wr64_keeps
    | with_reducible apply State.wrN_keeps
    | simp only [Keeps.mk_iff]
    | with_reducible apply KeepsCore.of
    | (split <;> (rename_i hp; have hp := congrArg Prod.fst hp; dsimp only at hp; subst hp))
    | split

theorem execCrcStart_keeps {z s : State} {dt : Nat} {host : Bool} {d : Fin 8} {u : Fin 8} {v : Word} (hz : Keeps z s) :
    KeepsOut z (execCrcStart dt host d u v s) := by
  unfold execCrcStart
  try dsimp only
  repeat' first
    | (with_reducible intro _)
    | with_reducible assumption
    | with_reducible apply KeepsOut.next
    | with_reducible apply KeepsOut.ite
    | with_reducible apply done_keeps
    | with_reducible apply Keeps.ite
    | with_reducible apply State.elapse_keeps
    | with_reducible apply State.crcReach_keeps
    | with_reducible apply State.crcGuard_keeps
    | with_reducible apply State.when_keeps
    | with_reducible apply State.crcStart_keeps
    | with_reducible apply done_keeps
    | simp only [Keeps.mk_iff]
    | with_reducible apply KeepsCore.of
    | (split <;> (rename_i hp; have hp := congrArg Prod.fst hp; dsimp only at hp; subst hp))
    | split

theorem execCrcFeedB_keeps {z s : State} {dt : Nat} {host : Bool} {d : Fin 8} {u : Fin 8} {v : Word} (hz : Keeps z s) :
    KeepsOut z (execCrcFeedB dt host d u v s) := by
  unfold execCrcFeedB
  try dsimp only
  repeat' first
    | (with_reducible intro _)
    | with_reducible assumption
    | with_reducible apply KeepsOut.next
    | with_reducible apply KeepsOut.ite
    | with_reducible apply done_keeps
    | with_reducible apply Keeps.ite
    | with_reducible apply State.elapse_keeps
    | with_reducible apply State.crcReach_keeps
    | with_reducible apply State.crcGuard_keeps
    | with_reducible apply State.crcFeedBytes_keeps
    | with_reducible apply done_keeps
    | simp only [Keeps.mk_iff]
    | with_reducible apply KeepsCore.of
    | (split <;> (rename_i hp; have hp := congrArg Prod.fst hp; dsimp only at hp; subst hp))
    | split

theorem execCrcFeedH_keeps {z s : State} {dt : Nat} {host : Bool} {d : Fin 8} {u : Fin 8} {v : Word} (hz : Keeps z s) :
    KeepsOut z (execCrcFeedH dt host d u v s) := by
  unfold execCrcFeedH
  try dsimp only
  repeat' first
    | (with_reducible intro _)
    | with_reducible assumption
    | with_reducible apply KeepsOut.next
    | with_reducible apply KeepsOut.ite
    | with_reducible apply done_keeps
    | with_reducible apply Keeps.ite
    | with_reducible apply State.elapse_keeps
    | with_reducible apply State.crcReach_keeps
    | with_reducible apply State.crcGuard_keeps
    | with_reducible apply State.crcFeedBytes_keeps
    | with_reducible apply done_keeps
    | simp only [Keeps.mk_iff]
    | with_reducible apply KeepsCore.of
    | (split <;> (rename_i hp; have hp := congrArg Prod.fst hp; dsimp only at hp; subst hp))
    | split

theorem execCrcFeedW_keeps {z s : State} {dt : Nat} {host : Bool} {d : Fin 8} {u : Fin 8} {v : Word} (hz : Keeps z s) :
    KeepsOut z (execCrcFeedW dt host d u v s) := by
  unfold execCrcFeedW
  try dsimp only
  repeat' first
    | (with_reducible intro _)
    | with_reducible assumption
    | with_reducible apply KeepsOut.next
    | with_reducible apply KeepsOut.ite
    | with_reducible apply done_keeps
    | with_reducible apply Keeps.ite
    | with_reducible apply State.elapse_keeps
    | with_reducible apply State.crcReach_keeps
    | with_reducible apply State.crcGuard_keeps
    | with_reducible apply State.crcFeedBytes_keeps
    | with_reducible apply done_keeps
    | simp only [Keeps.mk_iff]
    | with_reducible apply KeepsCore.of
    | (split <;> (rename_i hp; have hp := congrArg Prod.fst hp; dsimp only at hp; subst hp))
    | split

theorem execCrcCfgWrite_keeps {z s : State} {dt : Nat} {host : Bool} {d : Fin 8} {u : Fin 8} {v : Word} (hz : Keeps z s) :
    KeepsOut z (execCrcCfgWrite dt host d u v s) := by
  unfold execCrcCfgWrite
  try dsimp only
  repeat' first
    | (with_reducible intro _)
    | with_reducible assumption
    | with_reducible apply KeepsOut.next
    | with_reducible apply KeepsOut.ite
    | with_reducible apply done_keeps
    | with_reducible apply Keeps.ite
    | with_reducible apply State.elapse_keeps
    | with_reducible apply State.crcReach_keeps
    | with_reducible apply State.crcGuard_keeps
    | with_reducible apply State.crcCfgWrite_keeps
    | with_reducible apply done_keeps
    | simp only [Keeps.mk_iff]
    | with_reducible apply KeepsCore.of
    | (split <;> (rename_i hp; have hp := congrArg Prod.fst hp; dsimp only at hp; subst hp))
    | split

theorem execCrcValueWrite_keeps {z s : State} {dt : Nat} {host : Bool} {d : Fin 8} {u : Fin 8} {v : BitVec 64} (hz : Keeps z s) :
    KeepsOut z (execCrcValueWrite dt host d u v s) := by
  unfold execCrcValueWrite
  try dsimp only
  repeat' first
    | (with_reducible intro _)
    | with_reducible assumption
    | with_reducible apply KeepsOut.next
    | with_reducible apply KeepsOut.ite
    | with_reducible apply done_keeps
    | with_reducible apply Keeps.ite
    | with_reducible apply State.elapse_keeps
    | with_reducible apply State.when_keeps
    | with_reducible apply State.crcReach_keeps
    | with_reducible apply State.crcGuard_keeps
    | with_reducible apply State.crcValueWrite_keeps
    | with_reducible apply done_keeps
    | simp only [Keeps.mk_iff]
    | with_reducible apply KeepsCore.of
    | (split <;> (rename_i hp; have hp := congrArg Prod.fst hp; dsimp only at hp; subst hp))
    | split

theorem execWrongWidthAccess_keeps {z s : State} {dt : Nat} {mdie : Fin 8} {mid : Fin 4} {addr : Nat} {width : Nat} (hz : Keeps z s) :
    KeepsOut z (execWrongWidthAccess dt mdie mid addr width s) := by
  unfold execWrongWidthAccess
  try dsimp only
  repeat' first
    | (with_reducible intro _)
    | with_reducible assumption
    | with_reducible apply KeepsOut.next
    | with_reducible apply KeepsOut.ite
    | with_reducible apply done_keeps
    | with_reducible apply Keeps.ite
    | with_reducible apply State.elapse_keeps
    | with_reducible apply State.abortLog_keeps
    | with_reducible apply done_keeps
    | simp only [Keeps.mk_iff]
    | with_reducible apply KeepsCore.of
    | (split <;> (rename_i hp; have hp := congrArg Prod.fst hp; dsimp only at hp; subst hp))
    | split

theorem execUndecodedAccess_keeps {z s : State} {dt : Nat} {mdie : Fin 8} {mid : Fin 4} {addr : Nat} (hz : Keeps z s) :
    KeepsOut z (execUndecodedAccess dt mdie mid addr s) := by
  unfold execUndecodedAccess
  try dsimp only
  repeat' first
    | (with_reducible intro _)
    | with_reducible assumption
    | with_reducible apply KeepsOut.next
    | with_reducible apply KeepsOut.ite
    | with_reducible apply done_keeps
    | with_reducible apply Keeps.ite
    | with_reducible apply State.elapse_keeps
    | with_reducible apply State.abortLog_keeps
    | with_reducible apply done_keeps
    | simp only [Keeps.mk_iff]
    | with_reducible apply KeepsCore.of
    | (split <;> (rename_i hp; have hp := congrArg Prod.fst hp; dsimp only at hp; subst hp))
    | split

theorem State.latchSet_keeps {z s : State} {m : Nat} {a : Nat} {v : Word} (hz : Keeps z s) :
    Keeps z (State.latchSet s m a v) := by
  unfold State.latchSet
  try dsimp only
  repeat' first
    | (with_reducible intro _)
    | with_reducible assumption
    | with_reducible apply Keeps.ite
    | simp only [Keeps.mk_iff]
    | with_reducible apply KeepsCore.of
    | (split <;> (rename_i hp; have hp := congrArg Prod.fst hp; dsimp only at hp; subst hp))
    | split

theorem State.latchDrop_keeps {z s : State} {m : Nat} {a : Nat} (hz : Keeps z s) :
    Keeps z (State.latchDrop s m a) := by
  unfold State.latchDrop
  try dsimp only
  repeat' first
    | (with_reducible intro _)
    | with_reducible assumption
    | with_reducible apply Keeps.ite
    | simp only [Keeps.mk_iff]
    | with_reducible apply KeepsCore.of
    | (split <;> (rename_i hp; have hp := congrArg Prod.fst hp; dsimp only at hp; subst hp))
    | split

theorem State.holdLo_keeps {z s : State} {m : Nat} {a : Nat} {v : Word} (hz : Keeps z s) :
    Keeps z (State.holdLo s m a v) := by
  unfold State.holdLo
  try dsimp only
  repeat' first
    | (with_reducible intro _)
    | with_reducible assumption
    | with_reducible apply Keeps.ite
    | simp only [Keeps.mk_iff]
    | with_reducible apply KeepsCore.of
    | (split <;> (rename_i hp; have hp := congrArg Prod.fst hp; dsimp only at hp; subst hp))
    | split

theorem State.masterReset_keeps {z s : State} {m : Nat} (hz : Keeps z s) :
    Keeps z (State.masterReset s m) := by
  unfold State.masterReset
  try dsimp only
  repeat' first
    | (with_reducible intro _)
    | with_reducible assumption
    | with_reducible apply Keeps.ite
    | simp only [Keeps.mk_iff]
    | with_reducible apply KeepsCore.of
    | (split <;> (rename_i hp; have hp := congrArg Prod.fst hp; dsimp only at hp; subst hp))
    | split

theorem State.postTx_keeps {z s : State} {a : Nat} {b : Nat} {ingest : Bool} {note : Option Note} {master : Option Nat} (hz : Keeps z s) :
    Keeps z (State.postTx s a b ingest note master) := by
  unfold State.postTx
  try dsimp only
  repeat' first
    | (with_reducible intro _)
    | with_reducible assumption
    | with_reducible apply Keeps.ite
    | simp only [Keeps.mk_iff]
    | with_reducible apply KeepsCore.of
    | (split <;> (rename_i hp; have hp := congrArg Prod.fst hp; dsimp only at hp; subst hp))
    | split

theorem State.postAs_keeps {z s : State} {ingest : Bool} {note : Option Note} {a : Nat} {b : Nat} (hz : Keeps z s) :
    Keeps z (State.postAs s ingest note a b) := by
  unfold State.postAs
  try dsimp only
  repeat' first
    | (with_reducible intro _)
    | with_reducible assumption
    | with_reducible apply Keeps.ite
    | with_reducible apply State.postTx_keeps
    | simp only [Keeps.mk_iff]
    | with_reducible apply KeepsCore.of
    | (split <;> (rename_i hp; have hp := congrArg Prod.fst hp; dsimp only at hp; subst hp))
    | split

theorem State.issue_keeps {z s : State} {a : Nat} {mid : Nat} {b : Nat} (hz : Keeps z s) :
    Keeps z (State.issue s a mid b) := by
  unfold State.issue
  try dsimp only
  repeat' first
    | (with_reducible intro _)
    | with_reducible assumption
    | with_reducible apply Keeps.ite
    | with_reducible apply State.when_keeps
    | with_reducible apply State.postTx_keeps
    | simp only [Keeps.mk_iff]
    | with_reducible apply KeepsCore.of
    | (split <;> (rename_i hp; have hp := congrArg Prod.fst hp; dsimp only at hp; subst hp))
    | split

theorem State.acked_keeps {z s : State} {t : LinkTx} (hz : Keeps z s) :
    Keeps z (State.acked s t) := by
  unfold State.acked
  try dsimp only
  repeat' first
    | (with_reducible intro _)
    | with_reducible assumption
    | with_reducible apply Keeps.ite
    | with_reducible apply Keeps.foldl
    | with_reducible apply Keeps.foldlFst
    | simp only [Keeps.mk_iff]
    | with_reducible apply KeepsCore.of
    | (split <;> (rename_i hp; have hp := congrArg Prod.fst hp; dsimp only at hp; subst hp))
    | split

theorem State.reroute_keeps {z s : State} {taken : List Nat} (hz : Keeps z s) :
    Keeps z (State.reroute s taken) := by
  unfold State.reroute
  try dsimp only
  repeat' first
    | (with_reducible intro _)
    | with_reducible assumption
    | with_reducible apply Keeps.ite
    | with_reducible apply Keeps.foldl
    | with_reducible apply Keeps.foldlFst
    | simp only [Keeps.mk_iff]
    | with_reducible apply KeepsCore.of
    | (split <;> (rename_i hp; have hp := congrArg Prod.fst hp; dsimp only at hp; subst hp))
    | split

end Sys2Proof.Machine
end

