-- ==== Sys2Proof/Laws/KeepsCalib.lean ====
section
/-! SUPPORT. One lemma for each operation of Machine/Calib.lean: it keeps what `Keeps` names. -/

namespace Sys2Proof.Machine

set_option linter.all false

theorem State.setRecv_keeps {z s : State} {r : Nat} {x : Recv} (hz : Keeps z s) :
    Keeps z (State.setRecv s r x) := by
  unfold State.setRecv
  try dsimp only
  repeat' first
    | (with_reducible intro _)
    | with_reducible assumption
    | with_reducible apply Keeps.ite
    | simp only [Keeps.mk_iff]
    | with_reducible apply KeepsCore.of
    | (split <;> (rename_i hp; have hp := congrArg Prod.fst hp; dsimp only at hp; subst hp))
    | split

theorem State.stage_keeps {z s : State} {r : Nat} {v : List Int} (hz : Keeps z s) :
    Keeps z (State.stage s r v) := by
  unfold State.stage
  try dsimp only
  repeat' first
    | (with_reducible intro _)
    | with_reducible assumption
    | with_reducible apply Keeps.ite
    | with_reducible apply State.setRecv_keeps
    | with_reducible apply State.setBit_keeps
    | simp only [Keeps.mk_iff]
    | with_reducible apply KeepsCore.of
    | (split <;> (rename_i hp; have hp := congrArg Prod.fst hp; dsimp only at hp; subst hp))
    | split

theorem State.stageRef_keeps {z s : State} {r : Nat} {v : Int} (hz : Keeps z s) :
    Keeps z (State.stageRef s r v) := by
  unfold State.stageRef
  try dsimp only
  repeat' first
    | (with_reducible intro _)
    | with_reducible assumption
    | with_reducible apply Keeps.ite
    | simp only [Keeps.mk_iff]
    | with_reducible apply KeepsCore.of
    | (split <;> (rename_i hp; have hp := congrArg Prod.fst hp; dsimp only at hp; subst hp))
    | split

theorem State.commitRef_keeps {z s : State} {r : Nat} (hz : Keeps z s) :
    Keeps z (State.commitRef s r) := by
  unfold State.commitRef
  try dsimp only
  repeat' first
    | (with_reducible intro _)
    | with_reducible assumption
    | with_reducible apply Keeps.ite
    | simp only [Keeps.mk_iff]
    | with_reducible apply KeepsCore.of
    | (split <;> (rename_i hp; have hp := congrArg Prod.fst hp; dsimp only at hp; subst hp))
    | split

theorem State.commitRecv_keeps {z s : State} {r : Nat} (hz : Keeps z s) :
    Keeps z (State.commitRecv s r) := by
  unfold State.commitRecv
  try dsimp only
  repeat' first
    | (with_reducible intro _)
    | with_reducible assumption
    | with_reducible apply Keeps.ite
    | with_reducible apply State.commitRef_keeps
    | with_reducible apply State.setRecv_keeps
    | with_reducible apply State.setBit_keeps
    | with_reducible apply State.bump_keeps
    | simp only [Keeps.mk_iff]
    | with_reducible apply KeepsCore.of
    | (split <;> (rename_i hp; have hp := congrArg Prod.fst hp; dsimp only at hp; subst hp))
    | split

theorem State.recvLost_keeps {z s : State} {r : Nat} (hz : Keeps z s) :
    Keeps z (State.recvLost s r) := by
  unfold State.recvLost
  try dsimp only
  repeat' first
    | (with_reducible intro _)
    | with_reducible assumption
    | with_reducible apply Keeps.ite
    | with_reducible apply State.setRecv_keeps
    | with_reducible apply State.setBit_keeps
    | simp only [Keeps.mk_iff]
    | with_reducible apply KeepsCore.of
    | (split <;> (rename_i hp; have hp := congrArg Prod.fst hp; dsimp only at hp; subst hp))
    | split

theorem State.recvGood_keeps {z s : State} {r : Nat} (hz : Keeps z s) :
    Keeps z (State.recvGood s r) := by
  unfold State.recvGood
  try dsimp only
  repeat' first
    | (with_reducible intro _)
    | with_reducible assumption
    | with_reducible apply Keeps.ite
    | with_reducible apply State.setRecv_keeps
    | simp only [Keeps.mk_iff]
    | with_reducible apply KeepsCore.of
    | (split <;> (rename_i hp; have hp := congrArg Prod.fst hp; dsimp only at hp; subst hp))
    | split

theorem State.adapt_keeps {z s : State} {r : Nat} {st : AdaptStats} (hz : Keeps z s) :
    Keeps z (State.adapt s r st) := by
  unfold State.adapt
  try dsimp only
  repeat' first
    | (with_reducible intro _)
    | with_reducible assumption
    | with_reducible apply Keeps.ite
    | with_reducible apply State.setRecv_keeps
    | with_reducible apply State.setBit_keeps
    | with_reducible apply State.stage_keeps
    | simp only [Keeps.mk_iff]
    | with_reducible apply KeepsCore.of
    | (split <;> (rename_i hp; have hp := congrArg Prod.fst hp; dsimp only at hp; subst hp))
    | split

theorem State.calWrite_keeps {z s : State} {r : Nat} {i : Nat} {v : Nat} (hz : Keeps z s) :
    Keeps z (State.calWrite s r i v) := by
  unfold State.calWrite
  try dsimp only
  repeat' first
    | (with_reducible intro _)
    | with_reducible assumption
    | with_reducible apply Keeps.ite
    | with_reducible apply State.setRecv_keeps
    | with_reducible apply State.when_keeps
    | with_reducible apply State.refuse_keeps
    | simp only [Keeps.mk_iff]
    | with_reducible apply KeepsCore.of
    | (split <;> (rename_i hp; have hp := congrArg Prod.fst hp; dsimp only at hp; subst hp))
    | split

theorem State.restoreJudge_keeps {z s : State} {r : Nat} (hz : Keeps z s) :
    Keeps z (State.restoreJudge s r) := by
  unfold State.restoreJudge
  try dsimp only
  repeat' first
    | (with_reducible intro _)
    | with_reducible assumption
    | with_reducible apply Keeps.ite
    | with_reducible apply State.setRecv_keeps
    | with_reducible apply State.setBit_keeps
    | simp only [Keeps.mk_iff]
    | with_reducible apply KeepsCore.of
    | (split <;> (rename_i hp; have hp := congrArg Prod.fst hp; dsimp only at hp; subst hp))
    | split

theorem State.closeRestore_keeps {z s : State}  (hz : Keeps z s) :
    Keeps z (State.closeRestore s) := by
  unfold State.closeRestore
  try dsimp only
  repeat' first
    | (with_reducible intro _)
    | with_reducible assumption
    | with_reducible apply Keeps.ite
    | with_reducible apply State.setBit_keeps
    | with_reducible apply State.each_keeps
    | with_reducible apply State.restoreJudge_keeps
    | simp only [Keeps.mk_iff]
    | with_reducible apply KeepsCore.of
    | (split <;> (rename_i hp; have hp := congrArg Prod.fst hp; dsimp only at hp; subst hp))
    | split

theorem State.restorePassed_keeps {z s : State} {r : Nat} {ok : Bool} (hz : Keeps z s) :
    Keeps z (State.restorePassed s r ok) := by
  unfold State.restorePassed
  try dsimp only
  repeat' first
    | (with_reducible intro _)
    | with_reducible assumption
    | with_reducible apply Keeps.ite
    | with_reducible apply State.setRecv_keeps
    | with_reducible apply State.setBit_keeps
    | simp only [Keeps.mk_iff]
    | with_reducible apply KeepsCore.of
    | (split <;> (rename_i hp; have hp := congrArg Prod.fst hp; dsimp only at hp; subst hp))
    | split

theorem State.startLanes_keeps {z s : State}  (hz : Keeps z s) :
    Keeps z (State.startLanes s) := by
  unfold State.startLanes
  try dsimp only
  repeat' first
    | (with_reducible intro _)
    | with_reducible assumption
    | with_reducible apply Keeps.ite
    | with_reducible apply State.each_keeps
    | with_reducible apply State.setRecv_keeps
    | simp only [Keeps.mk_iff]
    | with_reducible apply KeepsCore.of
    | (split <;> (rename_i hp; have hp := congrArg Prod.fst hp; dsimp only at hp; subst hp))
    | split

theorem State.verifyLane_keeps {z s : State} {r : Nat} {fom : Nat} (hz : Keeps z s) :
    Keeps z (State.verifyLane s r fom) := by
  unfold State.verifyLane
  try dsimp only
  repeat' first
    | (with_reducible intro _)
    | with_reducible assumption
    | with_reducible apply Keeps.ite
    | with_reducible apply State.when_keeps
    | with_reducible apply State.restorePassed_keeps
    | simp only [Keeps.mk_iff]
    | with_reducible apply KeepsCore.of
    | (split <;> (rename_i hp; have hp := congrArg Prod.fst hp; dsimp only at hp; subst hp))
    | split

theorem execAdaptationCycle_keeps {z s : State} {dt : Nat} {r : Fin 144} {st : AdaptStats} (hz : Keeps z s) :
    KeepsOut z (execAdaptationCycle dt r st s) := by
  unfold execAdaptationCycle
  try dsimp only
  repeat' first
    | (with_reducible intro _)
    | with_reducible assumption
    | with_reducible apply KeepsOut.next
    | with_reducible apply KeepsOut.ite
    | with_reducible apply done_keeps
    | with_reducible apply Keeps.ite
    | with_reducible apply State.elapse_keeps
    | with_reducible apply State.adapt_keeps
    | with_reducible apply done_keeps
    | simp only [Keeps.mk_iff]
    | with_reducible apply KeepsCore.of
    | (split <;> (rename_i hp; have hp := congrArg Prod.fst hp; dsimp only at hp; subst hp))
    | split

theorem execCalibrationCommit_keeps {z s : State} {dt : Nat} {d : Fin 8} {n : Fin 10} (hz : Keeps z s) :
    KeepsOut z (execCalibrationCommit dt d n s) := by
  unfold execCalibrationCommit
  try dsimp only
  repeat' first
    | (with_reducible intro _)
    | with_reducible assumption
    | with_reducible apply KeepsOut.next
    | with_reducible apply KeepsOut.ite
    | with_reducible apply done_keeps
    | with_reducible apply Keeps.ite
    | with_reducible apply State.elapse_keeps
    | with_reducible apply State.commitRecv_keeps
    | with_reducible apply done_keeps
    | simp only [Keeps.mk_iff]
    | with_reducible apply KeepsCore.of
    | (split <;> (rename_i hp; have hp := congrArg Prod.fst hp; dsimp only at hp; subst hp))
    | split

theorem execCalWindowWrite_keeps {z s : State} {dt : Nat} {r : Fin 144} {i : Fin 11} {v : Word} (hz : Keeps z s) :
    KeepsOut z (execCalWindowWrite dt r i v s) := by
  unfold execCalWindowWrite
  try dsimp only
  repeat' first
    | (with_reducible intro _)
    | with_reducible assumption
    | with_reducible apply KeepsOut.next
    | with_reducible apply KeepsOut.ite
    | with_reducible apply done_keeps
    | with_reducible apply Keeps.ite
    | with_reducible apply State.elapse_keeps
    | with_reducible apply State.calWrite_keeps
    | with_reducible apply done_keeps
    | simp only [Keeps.mk_iff]
    | with_reducible apply KeepsCore.of
    | (split <;> (rename_i hp; have hp := congrArg Prod.fst hp; dsimp only at hp; subst hp))
    | split

end Sys2Proof.Machine
end

