-- ==== Sys2Proof/Laws/KeepsMemBase.lean ====
section
/-! SUPPORT. One lemma for each operation of Machine/MemBase.lean: it keeps what `Keeps` names. -/

namespace Sys2Proof.Machine

set_option linter.all false

theorem State.modMctl_keeps {z s : State} {i : Nat} {f : MCtl → MCtl} (hz : Keeps z s) : Keeps z (State.modMctl s i f) :=
  hz.trans ⟨rfl, id, id, id, Fuses.le_refl _, Nat.le_refl _, Nat.le_refl _, List.suffix_refl _⟩

theorem State.modMchan_keeps {z s : State} {i : Nat} {f : MChan → MChan} (hf : ChanKeeps f) (hz : Keeps z s) :
    Keeps z (State.modMchan s i f) :=
  hz.trans ⟨rfl, id, id, fun h => all_modify _ f hf _ _ h, Fuses.le_refl _, Nat.le_refl _, Nat.le_refl _, List.suffix_refl _⟩

theorem State.modMdie_keeps {z s : State} {d : Nat} {f : MDie → MDie} (hz : Keeps z s) : Keeps z (State.modMdie s d f) :=
  hz.trans ⟨rfl, id, id, id, Fuses.le_refl _, Nat.le_refl _, Nat.le_refl _, List.suffix_refl _⟩

theorem State.setMc_keeps {z s : State} {d : Nat} {k : Nat} {st : Nat} (hz : Keeps z s) :
    Keeps z (State.setMc s d k st) := by
  unfold State.setMc
  try dsimp only
  repeat' first
    | (with_reducible intro _)
    | with_reducible assumption
    | with_reducible apply Keeps.ite
    | with_reducible apply State.setFld_keeps
    | with_reducible apply State.raise_keeps
    | with_reducible apply State.setBit_keeps
    | simp only [Keeps.mk_iff]
    | with_reducible apply KeepsCore.of
    | (split <;> (rename_i hp; have hp := congrArg Prod.fst hp; dsimp only at hp; subst hp))
    | split

theorem State.showPool_keeps {z s : State} {d : Nat} (hz : Keeps z s) :
    Keeps z (State.showPool s d) := by
  unfold State.showPool
  try dsimp only
  repeat' first
    | (with_reducible intro _)
    | with_reducible assumption
    | with_reducible apply Keeps.ite
    | with_reducible apply State.wr64_keeps
    | simp only [Keeps.mk_iff]
    | with_reducible apply KeepsCore.of
    | (split <;> (rename_i hp; have hp := congrArg Prod.fst hp; dsimp only at hp; subst hp))
    | split

theorem State.countPoison_keeps {z s : State} {d : Nat} {m : Nat} (hz : Keeps z s) :
    Keeps z (State.countPoison s d m) := by
  unfold State.countPoison
  try dsimp only
  repeat' first
    | (with_reducible intro _)
    | with_reducible assumption
    | with_reducible apply Keeps.ite
    | with_reducible apply Keeps.foldl
    | with_reducible apply Keeps.foldlFst
    | with_reducible apply State.wrN_keeps
    | simp only [Keeps.mk_iff]
    | with_reducible apply KeepsCore.of
    | (split <;> (rename_i hp; have hp := congrArg Prod.fst hp; dsimp only at hp; subst hp))
    | split

theorem State.poisonBlock_keeps {z s : State} {d : Nat} {k : Nat} {blk : Nat} {on : Bool} (hz : Keeps z s) :
    Keeps z (State.poisonBlock s d k blk on) := by
  unfold State.poisonBlock
  try dsimp only
  repeat' first
    | (with_reducible intro _)
    | with_reducible assumption
    | with_reducible apply Keeps.ite
    | with_reducible apply State.modMchan_keeps
    | with_reducible apply State.countPoison_keeps
    | exact fun _ h => h
    | exact fun _ _ => rfl
    | exact ChanKeeps.poison _ _
    | simp only [Keeps.mk_iff]
    | with_reducible apply KeepsCore.of
    | (split <;> (rename_i hp; have hp := congrArg Prod.fst hp; dsimp only at hp; subst hp))
    | split

theorem State.addErrs_keeps {z s : State} {d : Nat} {k : Nat} {n : Nat} (hz : Keeps z s) :
    Keeps z (State.addErrs s d k n) := by
  unfold State.addErrs
  try dsimp only
  repeat' first
    | (with_reducible intro _)
    | with_reducible assumption
    | with_reducible apply Keeps.ite
    | with_reducible apply State.modMchan_keeps
    | exact fun _ h => h
    | exact fun _ _ => rfl
    | exact ChanKeeps.poison _ _
    | simp only [Keeps.mk_iff]
    | with_reducible apply KeepsCore.of
    | (split <;> (rename_i hp; have hp := congrArg Prod.fst hp; dsimp only at hp; subst hp))
    | split

theorem State.wantTraining_keeps {z s : State} {d : Nat} {k : Nat} (hz : Keeps z s) :
    Keeps z (State.wantTraining s d k) := by
  unfold State.wantTraining
  try dsimp only
  repeat' first
    | (with_reducible intro _)
    | with_reducible assumption
    | with_reducible apply Keeps.ite
    | with_reducible apply State.modMchan_keeps
    | with_reducible apply State.setBit_keeps
    | exact fun _ h => h
    | exact fun _ _ => rfl
    | exact ChanKeeps.poison _ _
    | simp only [Keeps.mk_iff]
    | with_reducible apply KeepsCore.of
    | (split <;> (rename_i hp; have hp := congrArg Prod.fst hp; dsimp only at hp; subst hp))
    | split

theorem State.wake_keeps {z s : State} {d : Nat} (hz : Keeps z s) :
    Keeps z (State.wake s d) := by
  unfold State.wake
  try dsimp only
  repeat' first
    | (with_reducible intro _)
    | with_reducible assumption
    | with_reducible apply Keeps.ite
    | with_reducible apply State.modMdie_keeps
    | with_reducible apply State.setBit_keeps
    | with_reducible apply State.each_keeps
    | with_reducible apply State.when_keeps
    | with_reducible apply State.modMchan_keeps
    | with_reducible apply State.wantTraining_keeps
    | exact fun _ h => h
    | exact fun _ _ => rfl
    | exact ChanKeeps.poison _ _
    | simp only [Keeps.mk_iff]
    | with_reducible apply KeepsCore.of
    | (split <;> (rename_i hp; have hp := congrArg Prod.fst hp; dsimp only at hp; subst hp))
    | split

theorem State.completed_keeps {z s : State} {d : Nat} {m : Nat} {r : MReq} (hz : Keeps z s) :
    Keeps z (State.completed s d m r) := by
  unfold State.completed
  try dsimp only
  repeat' first
    | (with_reducible intro _)
    | with_reducible assumption
    | with_reducible apply Keeps.ite
    | with_reducible apply State.bump_keeps
    | with_reducible apply State.maxN_keeps
    | with_reducible apply State.when_keeps
    | simp only [Keeps.mk_iff]
    | with_reducible apply KeepsCore.of
    | (split <;> (rename_i hp; have hp := congrArg Prod.fst hp; dsimp only at hp; subst hp))
    | split

theorem State.accept1_keeps {z s t : State} {d m : Nat} {r : MReq} (e : s.accept1 d m r = some t) (hz : Keeps z s) :
    Keeps z t := by
  unfold State.accept1 at e
  dsimp only at e
  repeat' split at e
  all_goals first
    | (cases e; first | exact State.completed_keeps (State.modMctl_keeps hz) | exact State.modMctl_keeps hz)
    | cases e

theorem State.acceptWaits_keeps {z : State} {d m : Nat} (n : Nat) :
    ∀ {s : State}, Keeps z s → Keeps z (State.acceptWaits d m n s) := by
  induction n with
  | zero => intro s h; exact h
  | succ n ih =>
    intro s h
    unfold State.acceptWaits
    dsimp only
    split
    · exact h
    · rename_i hf
      obtain ⟨k, _, hk⟩ := List.exists_of_findSome?_eq_some hf
      obtain ⟨r, _, hr⟩ := Option.bind_eq_some_iff.1 hk
      obtain ⟨u, hu, he⟩ := Option.map_eq_some_iff.1 hr
      cases he
      exact ih (State.modMctl_keeps (State.accept1_keeps hu h))

theorem State.drainStep_keeps {z s : State} {d : Nat} {m : Nat} (hz : Keeps z s) :
    Keeps z (State.drainStep s d m) := by
  unfold State.drainStep
  try dsimp only
  repeat' first
    | (with_reducible intro _)
    | with_reducible assumption
    | with_reducible apply Keeps.ite
    | with_reducible apply State.modMctl_keeps
    | with_reducible apply State.bump_keeps
    | simp only [Keeps.mk_iff]
    | with_reducible apply KeepsCore.of
    | (split <;> (rename_i hp; have hp := congrArg Prod.fst hp; dsimp only at hp; subst hp))
    | split

theorem State.startAccess_keeps {z s : State} {d : Nat} {k : Nat} {rows : List Nat} (hz : Keeps z s) :
    Keeps z (State.startAccess s d k rows) := by
  unfold State.startAccess
  try dsimp only
  repeat' first
    | (with_reducible intro _)
    | with_reducible assumption
    | with_reducible apply Keeps.ite
    | with_reducible apply State.drainStep_keeps
    | with_reducible apply State.modMctl_keeps
    | with_reducible apply State.modMchan_keeps
    | exact fun _ h => h
    | exact fun _ _ => rfl
    | exact ChanKeeps.poison _ _
    | simp only [Keeps.mk_iff]
    | with_reducible apply KeepsCore.of
    | (split <;> (rename_i hp; have hp := congrArg Prod.fst hp; dsimp only at hp; subst hp))
    | split

theorem State.startAll_keeps {z s : State} {d : Nat} {m : Nat} (hz : Keeps z s) :
    Keeps z (State.startAll s d m) := by
  unfold State.startAll
  try dsimp only
  repeat' first
    | (with_reducible intro _)
    | with_reducible assumption
    | with_reducible apply Keeps.ite
    | with_reducible apply State.each_keeps
    | with_reducible apply State.startAccess_keeps
    | simp only [Keeps.mk_iff]
    | with_reducible apply KeepsCore.of
    | (split <;> (rename_i hp; have hp := congrArg Prod.fst hp; dsimp only at hp; subst hp))
    | split

theorem State.memStop_keeps {z s : State} {d : Nat} {p : MPhase} (hz : Keeps z s) :
    Keeps z (State.memStop s d p) := by
  unfold State.memStop
  try dsimp only
  repeat' first
    | (with_reducible intro _)
    | with_reducible assumption
    | with_reducible apply Keeps.ite
    | with_reducible apply State.modMdie_keeps
    | with_reducible apply State.each_keeps
    | with_reducible apply State.modMctl_keeps
    | with_reducible apply State.modMchan_keeps
    | with_reducible apply State.setBit_keeps
    | exact fun _ h => h
    | exact fun _ _ => rfl
    | exact ChanKeeps.poison _ _
    | simp only [Keeps.mk_iff]
    | with_reducible apply KeepsCore.of
    | (split <;> (rename_i hp; have hp := congrArg Prod.fst hp; dsimp only at hp; subst hp))
    | split

end Sys2Proof.Machine
end

