-- ==== Sys2Proof/Laws/KeepsChannel.lean ====
section
/-! SUPPORT. One lemma for each operation of Machine/Channel.lean: it keeps what `Keeps` names. -/

namespace Sys2Proof.Machine

set_option linter.all false

theorem State.modChan_keeps {z s : State} {n : Nat} {f : Chan → Chan} (hz : Keeps z s) :
    Keeps z (State.modChan s n f) := by
  unfold State.modChan
  try dsimp only
  repeat' first
    | (with_reducible intro _)
    | with_reducible assumption
    | with_reducible apply Keeps.ite
    | simp only [Keeps.mk_iff]
    | with_reducible apply KeepsCore.of
    | (split <;> (rename_i hp; have hp := congrArg Prod.fst hp; dsimp only at hp; subst hp))
    | split

theorem State.writeFailure_keeps {z s : State} {n : Nat} {action : Nat} {cause : Nat} {level : Nat} {element : Nat} {first : Nat} {bands : Nat} {idx : Nat} {info : Nat} (hz : Keeps z s) :
    Keeps z (State.writeFailure s n action cause level element first bands idx info) := by
  unfold State.writeFailure
  try dsimp only
  repeat' first
    | (with_reducible intro _)
    | with_reducible assumption
    | with_reducible apply Keeps.ite
    | with_reducible apply State.modChan_keeps
    | with_reducible apply State.wrN_keeps
    | with_reducible apply State.bump_keeps
    | with_reducible apply State.raise_keeps
    | simp only [Keeps.mk_iff]
    | with_reducible apply KeepsCore.of
    | (split <;> (rename_i hp; have hp := congrArg Prod.fst hp; dsimp only at hp; subst hp))
    | split

end Sys2Proof.Machine
end

