-- ==== Sys2Proof/Laws/KeepsTrace.lean ====
section
/-! SUPPORT. One lemma for each operation of Machine/Trace.lean: it keeps what `Keeps` names. -/

namespace Sys2Proof.Machine

set_option linter.all false

theorem State.trace_keeps {z s : State} {d : Nat} {kind : Nat} {n : Nat} {idx : Nat} {band : Nat} {stage : Nat} {attempt : Nat} {eng : Nat} {no : Nat} {info : Nat} (hz : Keeps z s) :
    Keeps z (State.trace s d kind n idx band stage attempt eng no info) := by
  unfold State.trace
  try dsimp only
  repeat' first
    | (with_reducible intro _)
    | with_reducible assumption
    | with_reducible apply Keeps.ite
    | with_reducible apply State.bump_keeps
    | with_reducible apply State.wrN_keeps
    | with_reducible apply State.setFld_keeps
    | with_reducible apply State.when_keeps
    | with_reducible apply State.setBit_keeps
    | simp only [Keeps.mk_iff]
    | with_reducible apply KeepsCore.of
    | (split <;> (rename_i hp; have hp := congrArg Prod.fst hp; dsimp only at hp; subst hp))
    | split

theorem State.freeDesc_keeps {z s : State} {d : Desc} (hz : Keeps z s) :
    Keeps z (State.freeDesc s d) := by
  unfold State.freeDesc
  try dsimp only
  repeat' first
    | (with_reducible intro _)
    | with_reducible assumption
    | with_reducible apply Keeps.ite
    | with_reducible apply State.trace_keeps
    | simp only [Keeps.mk_iff]
    | with_reducible apply KeepsCore.of
    | (split <;> (rename_i hp; have hp := congrArg Prod.fst hp; dsimp only at hp; subst hp))
    | split

theorem State.freeDescs_keeps {z s : State} {p : Desc → Bool} (hz : Keeps z s) :
    Keeps z (State.freeDescs s p) := by
  unfold State.freeDescs
  try dsimp only
  repeat' first
    | (with_reducible intro _)
    | with_reducible assumption
    | with_reducible apply Keeps.ite
    | with_reducible apply State.each_keeps
    | with_reducible apply State.freeDesc_keeps
    | simp only [Keeps.mk_iff]
    | with_reducible apply KeepsCore.of
    | (split <;> (rename_i hp; have hp := congrArg Prod.fst hp; dsimp only at hp; subst hp))
    | split

theorem State.endAllocs_keeps {z s : State} {p : AllocWait → Bool} (hz : Keeps z s) :
    Keeps z (State.endAllocs s p) := by
  unfold State.endAllocs
  try dsimp only
  repeat' first
    | (with_reducible intro _)
    | with_reducible assumption
    | with_reducible apply Keeps.ite
    | with_reducible apply State.each_keeps
    | with_reducible apply State.modChan_keeps
    | with_reducible apply State.trace_keeps
    | simp only [Keeps.mk_iff]
    | with_reducible apply KeepsCore.of
    | (split <;> (rename_i hp; have hp := congrArg Prod.fst hp; dsimp only at hp; subst hp))
    | split

end Sys2Proof.Machine
end

