-- ==== Sys2Proof/Laws/KeepsTwinBase.lean ====
section
/-! SUPPORT. One lemma for each operation of Machine/TwinBase.lean: it keeps what `Keeps` names. -/

namespace Sys2Proof.Machine

set_option linter.all false

theorem State.setConf_keeps {z s : State} {n : Nat} {b : Bool} (hz : Keeps z s) :
    Keeps z (State.setConf s n b) := by
  unfold State.setConf
  try dsimp only
  repeat' first
    | (with_reducible intro _)
    | with_reducible assumption
    | with_reducible apply Keeps.ite
    | with_reducible apply State.setBit_keeps
    | simp only [Keeps.mk_iff]
    | with_reducible apply KeepsCore.of
    | (split <;> (rename_i hp; have hp := congrArg Prod.fst hp; dsimp only at hp; subst hp))
    | split

theorem State.emitFrame_keeps {z s : State} {b : LBody} (hz : Keeps z s) :
    Keeps z (State.emitFrame s b) := by
  unfold State.emitFrame
  try dsimp only
  repeat' first
    | (with_reducible intro _)
    | with_reducible assumption
    | with_reducible apply Keeps.ite
    | with_reducible apply State.bump_keeps
    | with_reducible apply State.send_keeps
    | simp only [Keeps.mk_iff]
    | with_reducible apply KeepsCore.of
    | (split <;> (rename_i hp; have hp := congrArg Prod.fst hp; dsimp only at hp; subst hp))
    | split

theorem State.pumpLantern_keeps {z : State} (n : Nat) : ∀ {s : State}, Keeps z s → Keeps z (State.pumpLantern n s) := by
  induction n with
  | zero => intro s h; exact h
  | succ n ih =>
    intro s h
    unfold State.pumpLantern
    split
    · exact h
    · split
      · exact h
      · apply ih; apply State.emitFrame_keeps; exact Keeps.mk_iff .. |>.2 (KeepsCore.of h)

theorem State.lanternSend_keeps {z s : State} {b : LBody} (hz : Keeps z s) :
    Keeps z (State.lanternSend s b) := by
  unfold State.lanternSend
  try dsimp only
  repeat' first
    | (with_reducible intro _)
    | with_reducible assumption
    | with_reducible apply Keeps.ite
    | with_reducible apply State.pumpLantern_keeps
    | simp only [Keeps.mk_iff]
    | with_reducible apply KeepsCore.of
    | (split <;> (rename_i hp; have hp := congrArg Prod.fst hp; dsimp only at hp; subst hp))
    | split

theorem State.mirrorWrite_keeps {z s : State} {a : Nat} {v : Nat} (hz : Keeps z s) :
    Keeps z (State.mirrorWrite s a v) := by
  unfold State.mirrorWrite
  try dsimp only
  repeat' first
    | (with_reducible intro _)
    | with_reducible assumption
    | with_reducible apply Keeps.ite
    | with_reducible apply State.when_keeps
    | with_reducible apply State.lanternSend_keeps
    | simp only [Keeps.mk_iff]
    | with_reducible apply KeepsCore.of
    | (split <;> (rename_i hp; have hp := congrArg Prod.fst hp; dsimp only at hp; subst hp))
    | split

theorem State.dropWork_keeps {z s : State} {n : Nat} (hz : Keeps z s) :
    Keeps z (State.dropWork s n) := by
  unfold State.dropWork
  try dsimp only
  repeat' first
    | (with_reducible intro _)
    | with_reducible assumption
    | with_reducible apply Keeps.ite
    | with_reducible apply State.freeDescs_keeps
    | with_reducible apply State.endAllocs_keeps
    | with_reducible apply State.modChan_keeps
    | simp only [Keeps.mk_iff]
    | with_reducible apply KeepsCore.of
    | (split <;> (rename_i hp; have hp := congrArg Prod.fst hp; dsimp only at hp; subst hp))
    | split

theorem State.endJoin_keeps {z s : State} {n : Nat} (hz : Keeps z s) :
    Keeps z (State.endJoin s n) := by
  unfold State.endJoin
  try dsimp only
  repeat' first
    | (with_reducible intro _)
    | with_reducible assumption
    | with_reducible apply Keeps.ite
    | with_reducible apply State.dropWork_keeps
    | simp only [Keeps.mk_iff]
    | with_reducible apply KeepsCore.of
    | (split <;> (rename_i hp; have hp := congrArg Prod.fst hp; dsimp only at hp; subst hp))
    | split

theorem State.requestSnapshot_keeps {z s : State} {n : Nat} (hz : Keeps z s) :
    Keeps z (State.requestSnapshot s n) := by
  unfold State.requestSnapshot
  try dsimp only
  repeat' first
    | (with_reducible intro _)
    | with_reducible assumption
    | with_reducible apply Keeps.ite
    | with_reducible apply State.endJoin_keeps
    | with_reducible apply State.modChan_keeps
    | with_reducible apply State.lanternSend_keeps
    | simp only [Keeps.mk_iff]
    | with_reducible apply KeepsCore.of
    | (split <;> (rename_i hp; have hp := congrArg Prod.fst hp; dsimp only at hp; subst hp))
    | split

theorem State.unconfirm_keeps {z s : State} {n : Nat} (hz : Keeps z s) :
    Keeps z (State.unconfirm s n) := by
  unfold State.unconfirm
  try dsimp only
  repeat' first
    | (with_reducible intro _)
    | with_reducible assumption
    | with_reducible apply Keeps.ite
    | with_reducible apply State.modChan_keeps
    | with_reducible apply State.setConf_keeps
    | with_reducible apply State.when_keeps
    | with_reducible apply State.setBit_keeps
    | with_reducible apply State.raise_keeps
    | with_reducible apply State.requestSnapshot_keeps
    | simp only [Keeps.mk_iff]
    | with_reducible apply KeepsCore.of
    | (split <;> (rename_i hp; have hp := congrArg Prod.fst hp; dsimp only at hp; subst hp))
    | split

theorem State.confirm_keeps {z s : State} {n : Nat} (hz : Keeps z s) :
    Keeps z (State.confirm s n) := by
  unfold State.confirm
  try dsimp only
  repeat' first
    | (with_reducible intro _)
    | with_reducible assumption
    | with_reducible apply Keeps.ite
    | with_reducible apply State.setConf_keeps
    | with_reducible apply State.setBit_keeps
    | with_reducible apply State.raise_keeps
    | simp only [Keeps.mk_iff]
    | with_reducible apply KeepsCore.of
    | (split <;> (rename_i hp; have hp := congrArg Prod.fst hp; dsimp only at hp; subst hp))
    | split

theorem State.twinStatus_keeps {z s : State}  (hz : Keeps z s) :
    Keeps z (State.twinStatus s) := by
  unfold State.twinStatus
  try dsimp only
  repeat' first
    | (with_reducible intro _)
    | with_reducible assumption
    | with_reducible apply Keeps.ite
    | with_reducible apply State.setFld_keeps
    | with_reducible apply State.when_keeps
    | with_reducible apply State.raise_keeps
    | with_reducible apply State.setBit_keeps
    | with_reducible apply State.wrN_keeps
    | simp only [Keeps.mk_iff]
    | with_reducible apply KeepsCore.of
    | (split <;> (rename_i hp; have hp := congrArg Prod.fst hp; dsimp only at hp; subst hp))
    | split

end Sys2Proof.Machine
end

