-- ==== Sys2Proof/Laws/KeepsCapacity.lean ====
section
/-! SUPPORT. One lemma for each operation of Machine/Capacity.lean: it keeps what `Keeps` names. -/

namespace Sys2Proof.Machine

set_option linter.all false

theorem State.setPlace_keeps {z s : State} {n : Nat} {p : Placement} (hz : Keeps z s) :
    Keeps z (State.setPlace s n p) := by
  unfold State.setPlace
  try dsimp only
  repeat' first
    | (with_reducible intro _)
    | with_reducible assumption
    | with_reducible apply Keeps.ite
    | with_reducible apply State.modChan_keeps
    | simp only [Keeps.mk_iff]
    | with_reducible apply KeepsCore.of
    | (split <;> (rename_i hp; have hp := congrArg Prod.fst hp; dsimp only at hp; subst hp))
    | split

theorem State.tryPlace_keeps {z s t : State} {n : Nat} {p : Placement} (e : s.tryPlace n p = some t) (hz : Keeps z s) :
    Keeps z t := by
  unfold State.tryPlace at e
  dsimp only at e
  split at e <;> cases e
  exact State.setPlace_keeps hz

theorem State.placeWhole_keeps {z s t : State} {n d e : Nat} {f : Nat → Nat} (h : s.placeWhole n d e f = some t) (hz : Keeps z s) :
    Keeps z t := by
  obtain ⟨_, _, h⟩ := Option.bind_eq_some_iff.1 h
  exact State.tryPlace_keeps h hz

theorem State.placeOneDie_keeps {z s t : State} {n d e : Nat} {f : Nat → Nat} (h : s.placeOneDie n d e f = some t) (hz : Keeps z s) :
    Keeps z t := by
  obtain ⟨_, _, h⟩ := Option.bind_eq_some_iff.1 h
  exact State.tryPlace_keeps h hz

theorem State.placeSplit_keeps {z s t : State} {n a b e : Nat} {f : Nat → Nat} (h : s.placeSplit n a b e f = some t)
    (hz : Keeps z s) : Keeps z t := by
  unfold State.placeSplit at h
  dsimp only at h
  obtain ⟨_, _, h⟩ := Option.bind_eq_some_iff.1 h
  obtain ⟨_, _, h⟩ := Option.bind_eq_some_iff.1 h
  exact State.tryPlace_keeps h hz

theorem State.tryCand_keeps {z s t : State} {n : Nat} {c : PlaceCand} {e : Option Nat} {f : Nat → Nat}
    (h : s.tryCand n c e f = some t) (hz : Keeps z s) : Keeps z t := by
  unfold State.tryCand at h
  dsimp only at h
  split at h
  · split at h
    · exact State.placeOneDie_keeps h hz
    · exact State.placeWhole_keeps h hz
  · exact State.placeSplit_keeps h hz

theorem State.placeFull_keeps {z s t : State} {n : Nat} (h : s.placeFull n = some t) (hz : Keeps z s) : Keeps z t := by
  obtain ⟨_, _, h⟩ := List.exists_of_findSome?_eq_some h
  exact State.tryCand_keeps h hz

theorem State.noteUndo_keeps {z s : State} {u : Undo} (hz : Keeps z s) :
    Keeps z (State.noteUndo s u) := by
  unfold State.noteUndo
  try dsimp only
  repeat' first
    | (with_reducible intro _)
    | with_reducible assumption
    | with_reducible apply Keeps.ite
    | simp only [Keeps.mk_iff]
    | with_reducible apply KeepsCore.of
    | (split <;> (rename_i hp; have hp := congrArg Prod.fst hp; dsimp only at hp; subst hp))
    | split

theorem State.setDims_keeps {z s : State} {l : List Nat} (hz : Keeps z s) :
    Keeps z (State.setDims s l) := by
  unfold State.setDims
  try dsimp only
  repeat' first
    | (with_reducible intro _)
    | with_reducible assumption
    | with_reducible apply Keeps.ite
    | with_reducible apply State.when_keeps
    | with_reducible apply State.noteUndo_keeps
    | simp only [Keeps.mk_iff]
    | with_reducible apply KeepsCore.of
    | (split <;> (rename_i hp; have hp := congrArg Prod.fst hp; dsimp only at hp; subst hp))
    | split

theorem State.raiseDims_keeps {z s : State} {c : PlaceCand} {k : Nat} (hz : Keeps z s) :
    Keeps z (State.raiseDims s c k) := by
  unfold State.raiseDims
  try dsimp only
  repeat' first
    | (with_reducible intro _)
    | with_reducible assumption
    | with_reducible apply Keeps.ite
    | with_reducible apply State.setDims_keeps
    | simp only [Keeps.mk_iff]
    | with_reducible apply KeepsCore.of
    | (split <;> (rename_i hp; have hp := congrArg Prod.fst hp; dsimp only at hp; subst hp))
    | split

theorem State.placeDimmed_keeps {z s t : State} {n : Nat} (h : s.placeDimmed n = some t) (hz : Keeps z s) :
    Keeps z t := by
  unfold State.placeDimmed at h
  split at h
  · rename_i hf
    cases h
    obtain ⟨_, _, h⟩ := List.exists_of_findSome?_eq_some hf
    exact State.tryCand_keeps h hz
  · obtain ⟨_, _, h⟩ := List.exists_of_findSome?_eq_some h
    obtain ⟨_, _, h⟩ := List.exists_of_findSome?_eq_some h
    split at h
    · obtain ⟨_, k, e⟩ := Option.map_eq_some_iff.1 h
      cases e
      exact State.raiseDims_keeps (State.tryCand_keeps k hz)
    · cases h

theorem State.showPlace_keeps {z s : State} {n : Nat} (hz : Keeps z s) :
    Keeps z (State.showPlace s n) := by
  unfold State.showPlace
  try dsimp only
  repeat' first
    | (with_reducible intro _)
    | with_reducible assumption
    | with_reducible apply Keeps.ite
    | with_reducible apply Keeps.foldl
    | with_reducible apply Keeps.foldlFst
    | with_reducible apply State.wrN_keeps
    | simp only [Keeps.mk_iff]
    | with_reducible apply KeepsCore.of
    | (split <;> (rename_i hp; have hp := congrArg Prod.fst hp; dsimp only at hp; subst hp))
    | split

theorem State.sumEff_keeps {z s : State}  (hz : Keeps z s) :
    Keeps z (State.sumEff s) := by
  unfold State.sumEff
  try dsimp only
  repeat' first
    | (with_reducible intro _)
    | with_reducible assumption
    | with_reducible apply Keeps.ite
    | with_reducible apply State.wrN_keeps
    | with_reducible apply State.each_keeps
    | simp only [Keeps.mk_iff]
    | with_reducible apply KeepsCore.of
    | (split <;> (rename_i hp; have hp := congrArg Prod.fst hp; dsimp only at hp; subst hp))
    | split

theorem State.showSums_keeps {z s : State}  (hz : Keeps z s) :
    Keeps z (State.showSums s) := by
  unfold State.showSums
  try dsimp only
  repeat' first
    | (with_reducible intro _)
    | with_reducible assumption
    | with_reducible apply Keeps.ite
    | with_reducible apply Keeps.foldl
    | with_reducible apply Keeps.foldlFst
    | with_reducible apply State.wrN_keeps
    | with_reducible apply State.sumEff_keeps
    | with_reducible apply State.each_keeps
    | with_reducible apply State.wr64_keeps
    | with_reducible apply State.setFld_keeps
    | with_reducible apply State.setBit_keeps
    | simp only [Keeps.mk_iff]
    | with_reducible apply KeepsCore.of
    | (split <;> (rename_i hp; have hp := congrArg Prod.fst hp; dsimp only at hp; subst hp))
    | split

theorem State.setLims_keeps {z s : State}  (hz : Keeps z s) :
    Keeps z (State.setLims s) := by
  unfold State.setLims
  try dsimp only
  repeat' first
    | (with_reducible intro _)
    | with_reducible assumption
    | with_reducible apply Keeps.ite
    | with_reducible apply State.each_keeps
    | with_reducible apply State.wrN_keeps
    | simp only [Keeps.mk_iff]
    | with_reducible apply KeepsCore.of
    | (split <;> (rename_i hp; have hp := congrArg Prod.fst hp; dsimp only at hp; subst hp))
    | split

theorem State.dropLims_keeps {z s : State}  (hz : Keeps z s) :
    Keeps z (State.dropLims s) := by
  unfold State.dropLims
  try dsimp only
  repeat' first
    | (with_reducible intro _)
    | with_reducible assumption
    | with_reducible apply Keeps.ite
    | with_reducible apply State.each_keeps
    | with_reducible apply State.wrN_keeps
    | simp only [Keeps.mk_iff]
    | with_reducible apply KeepsCore.of
    | (split <;> (rename_i hp; have hp := congrArg Prod.fst hp; dsimp only at hp; subst hp))
    | split

theorem State.redim_keeps {z s : State}  (hz : Keeps z s) :
    Keeps z (State.redim s) := by
  unfold State.redim
  try dsimp only
  repeat' first
    | (with_reducible intro _)
    | with_reducible assumption
    | with_reducible apply Keeps.ite
    | with_reducible apply State.setDims_keeps
    | simp only [Keeps.mk_iff]
    | with_reducible apply KeepsCore.of
    | (split <;> (rename_i hp; have hp := congrArg Prod.fst hp; dsimp only at hp; subst hp))
    | split

theorem State.showEff_keeps {z s : State}  (hz : Keeps z s) :
    Keeps z (State.showEff s) := by
  unfold State.showEff
  try dsimp only
  repeat' first
    | (with_reducible intro _)
    | with_reducible assumption
    | with_reducible apply Keeps.ite
    | with_reducible apply State.each_keeps
    | with_reducible apply State.wrN_keeps
    | with_reducible apply State.sumEff_keeps
    | simp only [Keeps.mk_iff]
    | with_reducible apply KeepsCore.of
    | (split <;> (rename_i hp; have hp := congrArg Prod.fst hp; dsimp only at hp; subst hp))
    | split

theorem State.showAll_keeps {z s : State}  (hz : Keeps z s) :
    Keeps z (State.showAll s) := by
  unfold State.showAll
  try dsimp only
  repeat' first
    | (with_reducible intro _)
    | with_reducible assumption
    | with_reducible apply Keeps.ite
    | with_reducible apply State.each_keeps
    | with_reducible apply State.showPlace_keeps
    | with_reducible apply State.showSums_keeps
    | simp only [Keeps.mk_iff]
    | with_reducible apply KeepsCore.of
    | (split <;> (rename_i hp; have hp := congrArg Prod.fst hp; dsimp only at hp; subst hp))
    | split

theorem State.showRank_keeps {z s : State} {n : Nat} (hz : Keeps z s) :
    Keeps z (State.showRank s n) := by
  unfold State.showRank
  try dsimp only
  repeat' first
    | (with_reducible intro _)
    | with_reducible assumption
    | with_reducible apply Keeps.ite
    | with_reducible apply State.wrN_keeps
    | simp only [Keeps.mk_iff]
    | with_reducible apply KeepsCore.of
    | (split <;> (rename_i hp; have hp := congrArg Prod.fst hp; dsimp only at hp; subst hp))
    | split

theorem State.countShed_keeps {z s : State}  (hz : Keeps z s) :
    Keeps z (State.countShed s) := by
  unfold State.countShed
  try dsimp only
  repeat' first
    | (with_reducible intro _)
    | with_reducible assumption
    | with_reducible apply Keeps.ite
    | with_reducible apply State.wrN_keeps
    | simp only [Keeps.mk_iff]
    | with_reducible apply KeepsCore.of
    | (split <;> (rename_i hp; have hp := congrArg Prod.fst hp; dsimp only at hp; subst hp))
    | split

end Sys2Proof.Machine
end

