-- ==== Sys2Proof/Laws/KeepsItems.lean ====
section
/-! SUPPORT. One lemma for each operation of Machine/Items.lean: it keeps what `Keeps` names. -/

namespace Sys2Proof.Machine

set_option linter.all false

theorem State.modItem_keeps {z s : State} {n : Nat} {k : Nat} {f : Item → Item} (hz : Keeps z s) :
    Keeps z (State.modItem s n k f) := by
  unfold State.modItem
  try dsimp only
  repeat' first
    | (with_reducible intro _)
    | with_reducible assumption
    | with_reducible apply Keeps.ite
    | with_reducible apply State.modChan_keeps
    | simp only [Keeps.mk_iff]
    | with_reducible apply KeepsCore.of
    | (split <;> (rename_i hp; have hp := congrArg Prod.fst hp; dsimp only at hp; subst hp))
    | split

theorem State.modBand_keeps {z s : State} {n : Nat} {k : Nat} {b : Nat} {f : Band → Band} (hz : Keeps z s) :
    Keeps z (State.modBand s n k b f) := by
  unfold State.modBand
  try dsimp only
  repeat' first
    | (with_reducible intro _)
    | with_reducible assumption
    | with_reducible apply Keeps.ite
    | with_reducible apply State.modItem_keeps
    | simp only [Keeps.mk_iff]
    | with_reducible apply KeepsCore.of
    | (split <;> (rename_i hp; have hp := congrArg Prod.fst hp; dsimp only at hp; subst hp))
    | split

theorem State.reportDims_keeps {z s : State}  (hz : Keeps z s) :
    Keeps z (State.reportDims s) := by
  unfold State.reportDims
  try dsimp only
  repeat' first
    | (with_reducible intro _)
    | with_reducible assumption
    | with_reducible apply Keeps.ite
    | with_reducible apply State.each_keeps
    | with_reducible apply State.lanternSend_keeps
    | simp only [Keeps.mk_iff]
    | with_reducible apply KeepsCore.of
    | (split <;> (rename_i hp; have hp := congrArg Prod.fst hp; dsimp only at hp; subst hp))
    | split

theorem State.judge_keeps {z s : State} {n : Nat} {it : Item} {mayEnd : Bool} (hz : Keeps z s) :
    Keeps z (State.judge s n it mayEnd) := by
  unfold State.judge
  try dsimp only
  repeat' first
    | (with_reducible intro _)
    | with_reducible assumption
    | with_reducible apply Keeps.ite
    | with_reducible apply State.modChan_keeps
    | with_reducible apply State.setChan_keeps
    | with_reducible apply State.setFld_keeps
    | simp only [Keeps.mk_iff]
    | with_reducible apply KeepsCore.of
    | (split <;> (rename_i hp; have hp := congrArg Prod.fst hp; dsimp only at hp; subst hp))
    | split

theorem State.judgeMarginal_keeps {z s : State} {d : Nat} (hz : Keeps z s) :
    Keeps z (State.judgeMarginal s d) := by
  unfold State.judgeMarginal
  try dsimp only
  repeat' first
    | (with_reducible intro _)
    | with_reducible assumption
    | with_reducible apply Keeps.ite
    | with_reducible apply State.each_keeps
    | with_reducible apply State.modChan_keeps
    | with_reducible apply State.setChan_keeps
    | with_reducible apply State.setFld_keeps
    | simp only [Keeps.mk_iff]
    | with_reducible apply KeepsCore.of
    | (split <;> (rename_i hp; have hp := congrArg Prod.fst hp; dsimp only at hp; subst hp))
    | split

theorem State.fail_keeps {z s : State} {n : Nat} {action : Nat} {cause : Nat} {level : Nat} {element : Nat} {first : Nat} {bands : Nat} {idx : Nat} {info : Nat} (hz : Keeps z s) :
    Keeps z (State.fail s n action cause level element first bands idx info) := by
  unfold State.fail
  try dsimp only
  repeat' first
    | (with_reducible intro _)
    | with_reducible assumption
    | with_reducible apply Keeps.ite
    | with_reducible apply State.modItem_keeps
    | with_reducible apply State.writeFailure_keeps
    | with_reducible apply State.lanternSend_keeps
    | simp only [Keeps.mk_iff]
    | with_reducible apply KeepsCore.of
    | (split <;> (rename_i hp; have hp := congrArg Prod.fst hp; dsimp only at hp; subst hp))
    | split

theorem State.noteEmbers_keeps {z s : State} {n : Nat} {k : Nat} (hz : Keeps z s) :
    Keeps z (State.noteEmbers s n k) := by
  unfold State.noteEmbers
  try dsimp only
  repeat' first
    | (with_reducible intro _)
    | with_reducible assumption
    | with_reducible apply Keeps.ite
    | with_reducible apply State.modItem_keeps
    | with_reducible apply State.fail_keeps
    | simp only [Keeps.mk_iff]
    | with_reducible apply KeepsCore.of
    | (split <;> (rename_i hp; have hp := congrArg Prod.fst hp; dsimp only at hp; subst hp))
    | split

theorem State.makePool_keeps {z s : State} {n : Nat} (hz : Keeps z s) :
    Keeps z (State.makePool s n) := by
  unfold State.makePool
  try dsimp only
  repeat' first
    | (with_reducible intro _)
    | with_reducible assumption
    | with_reducible apply Keeps.ite
    | with_reducible apply State.modChan_keeps
    | simp only [Keeps.mk_iff]
    | with_reducible apply KeepsCore.of
    | (split <;> (rename_i hp; have hp := congrArg Prod.fst hp; dsimp only at hp; subst hp))
    | split

theorem State.vacate_keeps {z s : State} {n : Nat} (hz : Keeps z s) :
    Keeps z (State.vacate s n) := by
  unfold State.vacate
  try dsimp only
  repeat' first
    | (with_reducible intro _)
    | with_reducible assumption
    | with_reducible apply Keeps.ite
    | with_reducible apply State.modChan_keeps
    | with_reducible apply State.when_keeps
    | with_reducible apply State.makePool_keeps
    | with_reducible apply State.showAll_keeps
    | simp only [Keeps.mk_iff]
    | with_reducible apply KeepsCore.of
    | (split <;> (rename_i hp; have hp := congrArg Prod.fst hp; dsimp only at hp; subst hp))
    | split

theorem State.allocBuf_keeps {z s : State} {n : Nat} {part : Nat} {kind : BufKind} {m : Mark} {k : Nat} (hz : Keeps z s) :
    Keeps z (State.allocBuf s n part kind m k) := by
  unfold State.allocBuf
  try dsimp only
  repeat' first
    | (with_reducible intro _)
    | with_reducible assumption
    | with_reducible apply Keeps.ite
    | with_reducible apply State.modChan_keeps
    | simp only [Keeps.mk_iff]
    | with_reducible apply KeepsCore.of
    | (split <;> (rename_i hp; have hp := congrArg Prod.fst hp; dsimp only at hp; subst hp))
    | split

theorem State.reMark_keeps {z s : State} {n : Nat} {k : Nat} {kind : BufKind} {froms : List Mark} {m : Mark} (hz : Keeps z s) :
    Keeps z (State.reMark s n k kind froms m) := by
  unfold State.reMark
  try dsimp only
  repeat' first
    | (with_reducible intro _)
    | with_reducible assumption
    | with_reducible apply Keeps.ite
    | with_reducible apply State.modChan_keeps
    | simp only [Keeps.mk_iff]
    | with_reducible apply KeepsCore.of
    | (split <;> (rename_i hp; have hp := congrArg Prod.fst hp; dsimp only at hp; subst hp))
    | split

theorem State.freeBuf_keeps {z s : State} {n : Nat} {k : Nat} {kind : BufKind} (hz : Keeps z s) :
    Keeps z (State.freeBuf s n k kind) := by
  unfold State.freeBuf
  try dsimp only
  repeat' first
    | (with_reducible intro _)
    | with_reducible assumption
    | with_reducible apply Keeps.ite
    | with_reducible apply State.modChan_keeps
    | simp only [Keeps.mk_iff]
    | with_reducible apply KeepsCore.of
    | (split <;> (rename_i hp; have hp := congrArg Prod.fst hp; dsimp only at hp; subst hp))
    | split

theorem State.shareRecon_keeps {z s : State} {n : Nat} {k : Nat} {j : Nat} (hz : Keeps z s) :
    Keeps z (State.shareRecon s n k j) := by
  unfold State.shareRecon
  try dsimp only
  repeat' first
    | (with_reducible intro _)
    | with_reducible assumption
    | with_reducible apply Keeps.ite
    | with_reducible apply State.modChan_keeps
    | simp only [Keeps.mk_iff]
    | with_reducible apply KeepsCore.of
    | (split <;> (rename_i hp; have hp := congrArg Prod.fst hp; dsimp only at hp; subst hp))
    | split

theorem State.takeRecon_keeps {z s : State} {n : Nat} {k : Nat} {sharers : List Nat} (hz : Keeps z s) :
    Keeps z (State.takeRecon s n k sharers) := by
  unfold State.takeRecon
  try dsimp only
  repeat' first
    | (with_reducible intro _)
    | with_reducible assumption
    | with_reducible apply Keeps.ite
    | with_reducible apply State.each_keeps
    | with_reducible apply State.allocBuf_keeps
    | with_reducible apply State.modChan_keeps
    | simp only [Keeps.mk_iff]
    | with_reducible apply KeepsCore.of
    | (split <;> (rename_i hp; have hp := congrArg Prod.fst hp; dsimp only at hp; subst hp))
    | split

theorem State.excludeRefs_keeps {z s : State} {n : Nat} (hz : Keeps z s) :
    Keeps z (State.excludeRefs s n) := by
  unfold State.excludeRefs
  try dsimp only
  repeat' first
    | (with_reducible intro _)
    | with_reducible assumption
    | with_reducible apply Keeps.ite
    | with_reducible apply State.modChan_keeps
    | simp only [Keeps.mk_iff]
    | with_reducible apply KeepsCore.of
    | (split <;> (rename_i hp; have hp := congrArg Prod.fst hp; dsimp only at hp; subst hp))
    | split

theorem State.leaveRecon_keeps {z s : State} {n : Nat} {k : Nat} (hz : Keeps z s) :
    Keeps z (State.leaveRecon s n k) := by
  unfold State.leaveRecon
  try dsimp only
  repeat' first
    | (with_reducible intro _)
    | with_reducible assumption
    | with_reducible apply Keeps.ite
    | with_reducible apply State.modChan_keeps
    | simp only [Keeps.mk_iff]
    | with_reducible apply KeepsCore.of
    | (split <;> (rename_i hp; have hp := congrArg Prod.fst hp; dsimp only at hp; subst hp))
    | split

end Sys2Proof.Machine
end

