-- ==== Sys2Proof/Laws/KeepsDatapath.lean ====
section
/-! SUPPORT. One lemma for each operation of Machine/Datapath.lean: it keeps what `Keeps` names. -/

namespace Sys2Proof.Machine

set_option linter.all false

theorem State.modPic_keeps {z s : State} {n : Nat} {k : Nat} {f : PicSt → PicSt} (hz : Keeps z s) :
    Keeps z (State.modPic s n k f) := by
  unfold State.modPic
  try dsimp only
  repeat' first
    | (with_reducible intro _)
    | with_reducible assumption
    | with_reducible apply Keeps.ite
    | with_reducible apply State.modChan_keeps
    | simp only [Keeps.mk_iff]
    | with_reducible apply KeepsCore.of
    | (split <;> (rename_i hp; have hp := congrArg Prod.fst hp; dsimp only at hp; subst hp))
    | split

theorem State.keepHalo_keeps {z s : State} {n : Nat} {k : Nat} {part : Nat} (hz : Keeps z s) :
    Keeps z (State.keepHalo s n k part) := by
  unfold State.keepHalo
  try dsimp only
  repeat' first
    | (with_reducible intro _)
    | with_reducible assumption
    | with_reducible apply Keeps.ite
    | with_reducible apply State.modPic_keeps
    | simp only [Keeps.mk_iff]
    | with_reducible apply KeepsCore.of
    | (split <;> (rename_i hp; have hp := congrArg Prod.fst hp; dsimp only at hp; subst hp))
    | split

theorem State.prunePics_keeps {z s : State} {n : Nat} (hz : Keeps z s) :
    Keeps z (State.prunePics s n) := by
  unfold State.prunePics
  try dsimp only
  repeat' first
    | (with_reducible intro _)
    | with_reducible assumption
    | with_reducible apply Keeps.ite
    | with_reducible apply State.modChan_keeps
    | simp only [Keeps.mk_iff]
    | with_reducible apply KeepsCore.of
    | (split <;> (rename_i hp; have hp := congrArg Prod.fst hp; dsimp only at hp; subst hp))
    | split

theorem State.repeatPic_keeps {z s : State} {n : Nat} {k : Nat} {keep : Nat → Bool} (hz : Keeps z s) :
    Keeps z (State.repeatPic s n k keep) := by
  unfold State.repeatPic
  try dsimp only
  repeat' first
    | (with_reducible intro _)
    | with_reducible assumption
    | with_reducible apply Keeps.ite
    | with_reducible apply State.modPic_keeps
    | with_reducible apply State.modChan_keeps
    | simp only [Keeps.mk_iff]
    | with_reducible apply KeepsCore.of
    | (split <;> (rename_i hp; have hp := congrArg Prod.fst hp; dsimp only at hp; subst hp))
    | split

theorem State.prepBand_keeps {z s : State} {n : Nat} {k : Nat} {b : Nat} (hz : Keeps z s) :
    Keeps z (State.prepBand s n k b) := by
  unfold State.prepBand
  try dsimp only
  repeat' first
    | (with_reducible intro _)
    | with_reducible assumption
    | with_reducible apply Keeps.ite
    | with_reducible apply State.modPic_keeps
    | simp only [Keeps.mk_iff]
    | with_reducible apply KeepsCore.of
    | (split <;> (rename_i hp; have hp := congrArg Prod.fst hp; dsimp only at hp; subst hp))
    | split

theorem State.repairRuns_keeps {z s : State} {n : Nat} {k : Nat} {lines : List Nat} (hz : Keeps z s) :
    Keeps z (State.repairRuns s n k lines) := by
  unfold State.repairRuns
  try dsimp only
  repeat' first
    | (with_reducible intro _)
    | with_reducible assumption
    | with_reducible apply Keeps.ite
    | with_reducible apply State.modPic_keeps
    | simp only [Keeps.mk_iff]
    | with_reducible apply KeepsCore.of
    | (split <;> (rename_i hp; have hp := congrArg Prod.fst hp; dsimp only at hp; subst hp))
    | split

theorem State.slateSource_keeps {z s : State} {n : Nat} {k : Nat} {id : Nat} (hz : Keeps z s) :
    Keeps z (State.slateSource s n k id) := by
  unfold State.slateSource
  try dsimp only
  repeat' first
    | (with_reducible intro _)
    | with_reducible assumption
    | with_reducible apply Keeps.ite
    | with_reducible apply State.modPic_keeps
    | simp only [Keeps.mk_iff]
    | with_reducible apply KeepsCore.of
    | (split <;> (rename_i hp; have hp := congrArg Prod.fst hp; dsimp only at hp; subst hp))
    | split

theorem State.codeStage_keeps {z s : State} {n : Nat} {k : Nat} {b : Nat} {qp : Int} (hz : Keeps z s) :
    Keeps z (State.codeStage s n k b qp) := by
  unfold State.codeStage
  try dsimp only
  repeat' first
    | (with_reducible intro _)
    | with_reducible assumption
    | with_reducible apply Keeps.ite
    | with_reducible apply State.modPic_keeps
    | simp only [Keeps.mk_iff]
    | with_reducible apply KeepsCore.of
    | (split <;> (rename_i hp; have hp := congrArg Prod.fst hp; dsimp only at hp; subst hp))
    | split

theorem State.filterStage_keeps {z s : State} {n : Nat} {k : Nat} {b : Nat} (hz : Keeps z s) :
    Keeps z (State.filterStage s n k b) := by
  unfold State.filterStage
  try dsimp only
  repeat' first
    | (with_reducible intro _)
    | with_reducible assumption
    | with_reducible apply Keeps.ite
    | with_reducible apply State.modPic_keeps
    | simp only [Keeps.mk_iff]
    | with_reducible apply KeepsCore.of
    | (split <;> (rename_i hp; have hp := congrArg Prod.fst hp; dsimp only at hp; subst hp))
    | split

theorem State.emberStage_keeps {z s : State} {n : Nat} {k : Nat} {b : Nat} (hz : Keeps z s) :
    Keeps z (State.emberStage s n k b) := by
  unfold State.emberStage
  try dsimp only
  repeat' first
    | (with_reducible intro _)
    | with_reducible assumption
    | with_reducible apply Keeps.ite
    | with_reducible apply State.modPic_keeps
    | with_reducible apply State.when_keeps
    | simp only [Keeps.mk_iff]
    | with_reducible apply KeepsCore.of
    | (split <;> (rename_i hp; have hp := congrArg Prod.fst hp; dsimp only at hp; subst hp))
    | split

theorem State.parseBands_keeps {z s : State} {n : Nat} {it : Item} {b : Nat} {band : List Byte} {next : List Byte} (hz : Keeps z s) :
    Keeps z (State.parseBands s n it b band next) := by
  unfold State.parseBands
  try dsimp only
  repeat' first
    | (with_reducible intro _)
    | with_reducible assumption
    | with_reducible apply Keeps.ite
    | with_reducible apply State.modPic_keeps
    | simp only [Keeps.mk_iff]
    | with_reducible apply KeepsCore.of
    | (split <;> (rename_i hp; have hp := congrArg Prod.fst hp; dsimp only at hp; subst hp))
    | split

end Sys2Proof.Machine
end

