-- ==== Sys2Proof/Laws/KeepsSched.lean ====
section
/-! SUPPORT. One lemma for each operation of Machine/Sched.lean: it keeps what `Keeps` names. -/

namespace Sys2Proof.Machine

set_option linter.all false

theorem State.setEng_keeps {z s : State} {code : Nat} {x : Option EngSt} (hz : Keeps z s) :
    Keeps z (State.setEng s code x) := by
  unfold State.setEng
  try dsimp only
  repeat' first
    | (with_reducible intro _)
    | with_reducible assumption
    | with_reducible apply Keeps.ite
    | simp only [Keeps.mk_iff]
    | with_reducible apply KeepsCore.of
    | (split <;> (rename_i hp; have hp := congrArg Prod.fst hp; dsimp only at hp; subst hp))
    | split

theorem State.tell_keeps {z s : State} {d : Desc} {st : Nat} (hz : Keeps z s) :
    Keeps z (State.tell s d st) := by
  unfold State.tell
  try dsimp only
  repeat' first
    | (with_reducible intro _)
    | with_reducible assumption
    | with_reducible apply Keeps.ite
    | with_reducible apply State.when_keeps
    | with_reducible apply State.postAs_keeps
    | simp only [Keeps.mk_iff]
    | with_reducible apply KeepsCore.of
    | (split <;> (rename_i hp; have hp := congrArg Prod.fst hp; dsimp only at hp; subst hp))
    | split

theorem State.modDesc_keeps {z s : State} {die : Nat} {no : Nat} {f : Desc → Desc} (hz : Keeps z s) :
    Keeps z (State.modDesc s die no f) := by
  unfold State.modDesc
  try dsimp only
  repeat' first
    | (with_reducible intro _)
    | with_reducible assumption
    | with_reducible apply Keeps.ite
    | simp only [Keeps.mk_iff]
    | with_reducible apply KeepsCore.of
    | (split <;> (rename_i hp; have hp := congrArg Prod.fst hp; dsimp only at hp; subst hp))
    | split

theorem State.noteShared_keeps {z s : State} {d : Nat} (hz : Keeps z s) :
    Keeps z (State.noteShared s d) := by
  unfold State.noteShared
  try dsimp only
  repeat' first
    | (with_reducible intro _)
    | with_reducible assumption
    | with_reducible apply Keeps.ite
    | with_reducible apply State.raiseLimited_keeps
    | simp only [Keeps.mk_iff]
    | with_reducible apply KeepsCore.of
    | (split <;> (rename_i hp; have hp := congrArg Prod.fst hp; dsimp only at hp; subst hp))
    | split

theorem State.makeReady_keeps {z s : State} {d : Desc} (hz : Keeps z s) :
    Keeps z (State.makeReady s d) := by
  unfold State.makeReady
  try dsimp only
  repeat' first
    | (with_reducible intro _)
    | with_reducible assumption
    | with_reducible apply Keeps.ite
    | with_reducible apply State.modDesc_keeps
    | with_reducible apply State.trace_keeps
    | with_reducible apply State.stage_keeps
    | simp only [Keeps.mk_iff]
    | with_reducible apply KeepsCore.of
    | (split <;> (rename_i hp; have hp := congrArg Prod.fst hp; dsimp only at hp; subst hp))
    | split

theorem State.setWait_keeps {z s : State} {d : Desc} (hz : Keeps z s) :
    Keeps z (State.setWait s d) := by
  unfold State.setWait
  try dsimp only
  repeat' first
    | (with_reducible intro _)
    | with_reducible assumption
    | with_reducible apply Keeps.ite
    | with_reducible apply State.makeReady_keeps
    | with_reducible apply State.modDesc_keeps
    | with_reducible apply State.stage_keeps
    | simp only [Keeps.mk_iff]
    | with_reducible apply KeepsCore.of
    | (split <;> (rename_i hp; have hp := congrArg Prod.fst hp; dsimp only at hp; subst hp))
    | split

theorem State.countWaits_keeps {z s : State}  (hz : Keeps z s) :
    Keeps z (State.countWaits s) := by
  unfold State.countWaits
  try dsimp only
  repeat' first
    | (with_reducible intro _)
    | with_reducible assumption
    | with_reducible apply Keeps.ite
    | with_reducible apply State.each_keeps
    | with_reducible apply State.setWait_keeps
    | simp only [Keeps.mk_iff]
    | with_reducible apply KeepsCore.of
    | (split <;> (rename_i hp; have hp := congrArg Prod.fst hp; dsimp only at hp; subst hp))
    | split

theorem State.allocDesc_keeps {z s : State} {n : Nat} {k : Nat} {b : Nat} {st : Nat} {decode : Bool} (hz : Keeps z s) :
    Keeps z (State.allocDesc s n k b st decode) := by
  unfold State.allocDesc
  try dsimp only
  repeat' first
    | (with_reducible intro _)
    | with_reducible assumption
    | with_reducible apply Keeps.ite
    | with_reducible apply State.noteShared_keeps
    | with_reducible apply State.setWait_keeps
    | simp only [Keeps.mk_iff]
    | with_reducible apply KeepsCore.of
    | (split <;> (rename_i hp; have hp := congrArg Prod.fst hp; dsimp only at hp; subst hp))
    | split

theorem State.enqueue_keeps {z s : State} {n : Nat} {k : Nat} {b : Nat} {st : Nat} {decode : Bool} (hz : Keeps z s) :
    Keeps z (State.enqueue s n k b st decode) := by
  unfold State.enqueue
  try dsimp only
  repeat' first
    | (with_reducible intro _)
    | with_reducible assumption
    | with_reducible apply Keeps.ite
    | with_reducible apply State.allocDesc_keeps
    | with_reducible apply State.bump_keeps
    | with_reducible apply State.trace_keeps
    | simp only [Keeps.mk_iff]
    | with_reducible apply KeepsCore.of
    | (split <;> (rename_i hp; have hp := congrArg Prod.fst hp; dsimp only at hp; subst hp))
    | split

theorem State.freeItemDescs_keeps {z s : State} {n : Nat} {k : Nat} (hz : Keeps z s) :
    Keeps z (State.freeItemDescs s n k) := by
  unfold State.freeItemDescs
  try dsimp only
  repeat' first
    | (with_reducible intro _)
    | with_reducible assumption
    | with_reducible apply Keeps.ite
    | with_reducible apply State.freeDescs_keeps
    | with_reducible apply State.endAllocs_keeps
    | simp only [Keeps.mk_iff]
    | with_reducible apply KeepsCore.of
    | (split <;> (rename_i hp; have hp := congrArg Prod.fst hp; dsimp only at hp; subst hp))
    | split

theorem State.take_keeps {z s : State} {e : Nat} {d : Desc} (hz : Keeps z s) :
    Keeps z (State.take s e d) := by
  unfold State.take
  try dsimp only
  repeat' first
    | (with_reducible intro _)
    | with_reducible assumption
    | with_reducible apply Keeps.ite
    | with_reducible apply State.modDesc_keeps
    | with_reducible apply State.setEng_keeps
    | with_reducible apply State.trace_keeps
    | with_reducible apply State.stage_keeps
    | simp only [Keeps.mk_iff]
    | with_reducible apply KeepsCore.of
    | (split <;> (rename_i hp; have hp := congrArg Prod.fst hp; dsimp only at hp; subst hp))
    | split

theorem State.busy_keeps {z s : State} {e : Nat} {ns : Nat} (hz : Keeps z s) :
    Keeps z (State.busy s e ns) := by
  unfold State.busy
  try dsimp only
  repeat' first
    | (with_reducible intro _)
    | with_reducible assumption
    | with_reducible apply Keeps.ite
    | with_reducible apply State.bump_keeps
    | with_reducible apply State.bump64_keeps
    | simp only [Keeps.mk_iff]
    | with_reducible apply KeepsCore.of
    | (split <;> (rename_i hp; have hp := congrArg Prod.fst hp; dsimp only at hp; subst hp))
    | split

end Sys2Proof.Machine
end

