-- ==== Sys2Proof/Laws/KeepsAccept.lean ====
section
/-! SUPPORT. One lemma for each operation of Machine/Accept.lean: it keeps what `Keeps` names. -/

namespace Sys2Proof.Machine

set_option linter.all false

theorem State.recode_keeps {z s : State} {n : Nat} {k : Nat} {st : Nat} {hit : Nat → Bool} (hz : Keeps z s) :
    Keeps z (State.recode s n k st hit) := by
  unfold State.recode
  try dsimp only
  repeat' first
    | (with_reducible intro _)
    | with_reducible assumption
    | with_reducible apply Keeps.ite
    | with_reducible apply State.each_keeps
    | with_reducible apply State.modDesc_keeps
    | with_reducible apply State.endAllocs_keeps
    | with_reducible apply State.enqueue_keeps
    | simp only [Keeps.mk_iff]
    | with_reducible apply KeepsCore.of
    | (split <;> (rename_i hp; have hp := congrArg Prod.fst hp; dsimp only at hp; subst hp))
    | split

theorem State.codeRefresh_keeps {z s : State} {n : Nat} {k : Nat} (hz : Keeps z s) :
    Keeps z (State.codeRefresh s n k) := by
  unfold State.codeRefresh
  try dsimp only
  repeat' first
    | (with_reducible intro _)
    | with_reducible assumption
    | with_reducible apply Keeps.ite
    | with_reducible apply State.modItem_keeps
    | with_reducible apply State.leaveRecon_keeps
    | with_reducible apply State.recode_keeps
    | with_reducible apply done_keeps
    | simp only [Keeps.mk_iff]
    | with_reducible apply KeepsCore.of
    | (split <;> (rename_i hp; have hp := congrArg Prod.fst hp; dsimp only at hp; subst hp))
    | split

theorem State.decideItem_keeps {z s : State} {n : Nat} {it : Item} (hz : Keeps z s) :
    Keeps z (State.decideItem s n it) := by
  unfold State.decideItem
  try dsimp only
  repeat' first
    | (with_reducible intro _)
    | with_reducible assumption
    | with_reducible apply Keeps.ite
    | with_reducible apply State.modItem_keeps
    | with_reducible apply State.modChan_keeps
    | with_reducible apply State.excludeRefs_keeps
    | with_reducible apply State.when_keeps
    | with_reducible apply State.codeRefresh_keeps
    | simp only [Keeps.mk_iff]
    | with_reducible apply KeepsCore.of
    | (split <;> (rename_i hp; have hp := congrArg Prod.fst hp; dsimp only at hp; subst hp))
    | split

theorem State.decideAll_keeps {z : State} (k : Nat) :
    ∀ {a0 : Nat} {s : State}, Keeps z s → Keeps z (State.decideAll k a0 s) := by
  induction k with
  | zero =>
    intros
    assumption
  | succ k ih =>
    intros
    unfold State.decideAll
    try dsimp only
    repeat' first
      | (with_reducible intro _)
      | with_reducible assumption
      | with_reducible apply Keeps.ite
      | with_reducible apply ih
      | with_reducible apply State.decideItem_keeps
      | simp only [Keeps.mk_iff]
      | with_reducible apply KeepsCore.of
      | split

theorem State.settleChan_keeps {z s : State} {n : Nat} (hz : Keeps z s) :
    Keeps z (State.settleChan s n) := by
  unfold State.settleChan
  try dsimp only
  repeat' first
    | (with_reducible intro _)
    | with_reducible assumption
    | with_reducible apply Keeps.ite
    | with_reducible apply State.decideAll_keeps
    | with_reducible apply State.countWaits_keeps
    | simp only [Keeps.mk_iff]
    | with_reducible apply KeepsCore.of
    | (split <;> (rename_i hp; have hp := congrArg Prod.fst hp; dsimp only at hp; subst hp))
    | split

theorem State.repairSource_keeps {z s : State} {n : Nat} {k : Nat} (hz : Keeps z s) :
    Keeps z (State.repairSource s n k) := by
  unfold State.repairSource
  try dsimp only
  repeat' first
    | (with_reducible intro _)
    | with_reducible assumption
    | with_reducible apply Keeps.ite
    | with_reducible apply State.freeBuf_keeps
    | with_reducible apply State.modChan_keeps
    | with_reducible apply State.when_keeps
    | simp only [Keeps.mk_iff]
    | with_reducible apply KeepsCore.of
    | (split <;> (rename_i hp; have hp := congrArg Prod.fst hp; dsimp only at hp; subst hp))
    | split

theorem State.becomeRepeat_keeps {z s : State} {n : Nat} {k : Nat} (hz : Keeps z s) :
    Keeps z (State.becomeRepeat s n k) := by
  unfold State.becomeRepeat
  try dsimp only
  repeat' first
    | (with_reducible intro _)
    | with_reducible assumption
    | with_reducible apply Keeps.ite
    | with_reducible apply State.noteEmbers_keeps
    | with_reducible apply State.modItem_keeps
    | with_reducible apply State.when_keeps
    | with_reducible apply State.repairSource_keeps
    | with_reducible apply State.reMark_keeps
    | with_reducible apply State.repeatPic_keeps
    | with_reducible apply State.codeRefresh_keeps
    | with_reducible apply State.settleChan_keeps
    | with_reducible apply State.shareRecon_keeps
    | with_reducible apply State.recode_keeps
    | with_reducible apply done_keeps
    | simp only [Keeps.mk_iff]
    | with_reducible apply KeepsCore.of
    | (split <;> (rename_i hp; have hp := congrArg Prod.fst hp; dsimp only at hp; subst hp))
    | split

theorem State.poolExhausted_keeps {z s : State} {n : Nat} {k : Nat} {part : Nat} (hz : Keeps z s) :
    Keeps z (State.poolExhausted s n k part) := by
  unfold State.poolExhausted
  try dsimp only
  repeat' first
    | (with_reducible intro _)
    | with_reducible assumption
    | with_reducible apply Keeps.ite
    | with_reducible apply State.bump_keeps
    | with_reducible apply State.raise_keeps
    | with_reducible apply State.modChan_keeps
    | with_reducible apply State.modItem_keeps
    | with_reducible apply State.becomeRepeat_keeps
    | with_reducible apply State.fail_keeps
    | simp only [Keeps.mk_iff]
    | with_reducible apply KeepsCore.of
    | (split <;> (rename_i hp; have hp := congrArg Prod.fst hp; dsimp only at hp; subst hp))
    | split

theorem State.inputEvent_keeps {z s : State} {n : Nat} {code : Nat} {path : Nat} {idx : Nat} (hz : Keeps z s) :
    Keeps z (State.inputEvent s n code path idx) := by
  unfold State.inputEvent
  try dsimp only
  repeat' first
    | (with_reducible intro _)
    | with_reducible assumption
    | with_reducible apply Keeps.ite
    | with_reducible apply State.raise_keeps
    | simp only [Keeps.mk_iff]
    | with_reducible apply KeepsCore.of
    | (split <;> (rename_i hp; have hp := congrArg Prod.fst hp; dsimp only at hp; subst hp))
    | split

theorem State.startHold_keeps {z s : State} {n : Nat} {k : Nat} (hz : Keeps z s) :
    Keeps z (State.startHold s n k) := by
  unfold State.startHold
  try dsimp only
  repeat' first
    | (with_reducible intro _)
    | with_reducible assumption
    | with_reducible apply Keeps.ite
    | with_reducible apply State.modChan_keeps
    | with_reducible apply State.modItem_keeps
    | with_reducible apply State.reMark_keeps
    | simp only [Keeps.mk_iff]
    | with_reducible apply KeepsCore.of
    | (split <;> (rename_i hp; have hp := congrArg Prod.fst hp; dsimp only at hp; subst hp))
    | split

theorem State.fixInput_keeps {z s : State} {n : Nat} {k : Nat} {outcome : Nat} {ts : Nat} {p : Nat} (hz : Keeps z s) :
    Keeps z (State.fixInput s n k outcome ts p) := by
  unfold State.fixInput
  try dsimp only
  repeat' first
    | (with_reducible intro _)
    | with_reducible assumption
    | with_reducible apply Keeps.ite
    | with_reducible apply State.modItem_keeps
    | with_reducible apply State.when_keeps
    | with_reducible apply State.lanternSend_keeps
    | with_reducible apply State.bump64_keeps
    | with_reducible apply State.modChan_keeps
    | with_reducible apply State.allocBuf_keeps
    | with_reducible apply State.poolExhausted_keeps
    | with_reducible apply State.each_keeps
    | with_reducible apply State.startHold_keeps
    | with_reducible apply State.becomeRepeat_keeps
    | with_reducible apply State.slateSource_keeps
    | with_reducible apply State.modPic_keeps
    | with_reducible apply State.enqueue_keeps
    | with_reducible apply State.fail_keeps
    | with_reducible apply State.judge_keeps
    | with_reducible apply State.settleChan_keeps
    | with_reducible apply done_keeps
    | simp only [Keeps.mk_iff]
    | with_reducible apply KeepsCore.of
    | (split <;> (rename_i hp; have hp := congrArg Prod.fst hp; dsimp only at hp; subst hp))
    | split

theorem State.bandReady_keeps {z s : State} {n : Nat} {k : Nat} {b : Nat} {e : BandEntry} {own : Bool} (hz : Keeps z s) :
    Keeps z (State.bandReady s n k b e own) := by
  unfold State.bandReady
  try dsimp only
  repeat' first
    | (with_reducible intro _)
    | with_reducible assumption
    | with_reducible apply Keeps.ite
    | with_reducible apply State.modBand_keeps
    | with_reducible apply State.prepBand_keeps
    | with_reducible apply State.when_keeps
    | with_reducible apply State.lanternSend_keeps
    | with_reducible apply State.enqueue_keeps
    | with_reducible apply State.settleChan_keeps
    | with_reducible apply done_keeps
    | simp only [Keeps.mk_iff]
    | with_reducible apply KeepsCore.of
    | (split <;> (rename_i hp; have hp := congrArg Prod.fst hp; dsimp only at hp; subst hp))
    | split

theorem State.judgedTo_keeps {z s : State} {n : Nat} {t : Int} (hz : Keeps z s) :
    Keeps z (State.judgedTo s n t) := by
  unfold State.judgedTo
  try dsimp only
  repeat' first
    | (with_reducible intro _)
    | with_reducible assumption
    | with_reducible apply Keeps.ite
    | with_reducible apply State.modChan_keeps
    | simp only [Keeps.mk_iff]
    | with_reducible apply KeepsCore.of
    | (split <;> (rename_i hp; have hp := congrArg Prod.fst hp; dsimp only at hp; subst hp))
    | split

theorem State.stepLookahead_keeps {z s : State} {n : Nat} {k : Nat} {start : Bool} (hz : Keeps z s) :
    Keeps z (State.stepLookahead s n k start) := by
  unfold State.stepLookahead
  try dsimp only
  repeat' first
    | (with_reducible intro _)
    | with_reducible assumption
    | with_reducible apply Keeps.ite
    | with_reducible apply State.modChan_keeps
    | with_reducible apply State.judgedTo_keeps
    | with_reducible apply State.when_keeps
    | with_reducible apply State.bump_keeps
    | with_reducible apply State.trace_keeps
    | simp only [Keeps.mk_iff]
    | with_reducible apply KeepsCore.of
    | (split <;> (rename_i hp; have hp := congrArg Prod.fst hp; dsimp only at hp; subst hp))
    | split

theorem State.reanchorChan_keeps {z s : State} {n : Nat} (hz : Keeps z s) :
    Keeps z (State.reanchorChan s n) := by
  unfold State.reanchorChan
  try dsimp only
  repeat' first
    | (with_reducible intro _)
    | with_reducible assumption
    | with_reducible apply Keeps.ite
    | with_reducible apply State.modChan_keeps
    | simp only [Keeps.mk_iff]
    | with_reducible apply KeepsCore.of
    | (split <;> (rename_i hp; have hp := congrArg Prod.fst hp; dsimp only at hp; subst hp))
    | split

theorem State.passSplices_keeps {z s : State} {n : Nat} {k : Nat} (hz : Keeps z s) :
    Keeps z (State.passSplices s n k) := by
  unfold State.passSplices
  try dsimp only
  repeat' first
    | (with_reducible intro _)
    | with_reducible assumption
    | with_reducible apply Keeps.ite
    | with_reducible apply State.when_keeps
    | with_reducible apply State.modChan_keeps
    | simp only [Keeps.mk_iff]
    | with_reducible apply KeepsCore.of
    | (split <;> (rename_i hp; have hp := congrArg Prod.fst hp; dsimp only at hp; subst hp))
    | split

theorem State.asOf_keeps {z s : State} {t : Int} (hz : Keeps z s) :
    Keeps z (State.asOf s t) := by
  unfold State.asOf
  try dsimp only
  repeat' first
    | (with_reducible intro _)
    | with_reducible assumption
    | with_reducible apply Keeps.ite
    | with_reducible apply Keeps.foldl
    | with_reducible apply Keeps.foldlFst
    | with_reducible apply State.wr_keeps
    | simp only [Keeps.mk_iff]
    | with_reducible apply KeepsCore.of
    | (split <;> (rename_i hp; have hp := congrArg Prod.fst hp; dsimp only at hp; subst hp))
    | split

theorem State.fixControl_keeps {z s : State} {n : Nat} {k : Nat} {dr : DecisionRecord} {own : Bool} (hz : Keeps z s) :
    Keeps z (State.fixControl s n k dr own) := by
  unfold State.fixControl
  try dsimp only
  repeat' first
    | (with_reducible intro _)
    | with_reducible assumption
    | with_reducible apply Keeps.ite
    | with_reducible apply State.when_keeps
    | with_reducible apply State.modChan_keeps
    | with_reducible apply State.modItem_keeps
    | with_reducible apply State.setFld_keeps
    | with_reducible apply State.each_keeps
    | with_reducible apply State.lanternSend_keeps
    | with_reducible apply State.excludeRefs_keeps
    | with_reducible apply State.passSplices_keeps
    | with_reducible apply State.showPlace_keeps
    | with_reducible apply State.sumEff_keeps
    | with_reducible apply State.judge_keeps
    | simp only [Keeps.mk_iff]
    | with_reducible apply KeepsCore.of
    | (split <;> (rename_i hp; have hp := congrArg Prod.fst hp; dsimp only at hp; subst hp))
    | split

end Sys2Proof.Machine
end

