-- ==== Sys2Proof/Laws/KeepsAudioBuf.lean ====
section
/-! SUPPORT. One lemma for each operation of Machine/AudioBuf.lean: it keeps what `Keeps` names. -/

namespace Sys2Proof.Machine

set_option linter.all false

theorem State.setAbuf_keeps {z s : State} {b : Nat} {x : ABuf} (hz : Keeps z s) :
    Keeps z (State.setAbuf s b x) := by
  unfold State.setAbuf
  try dsimp only
  repeat' first
    | (with_reducible intro _)
    | with_reducible assumption
    | with_reducible apply Keeps.ite
    | simp only [Keeps.mk_iff]
    | with_reducible apply KeepsCore.of
    | (split <;> (rename_i hp; have hp := congrArg Prod.fst hp; dsimp only at hp; subst hp))
    | split

theorem State.audioEvent_keeps {z s : State} {what : Nat} {port : Nat} {buf : Nat} (hz : Keeps z s) :
    Keeps z (State.audioEvent s what port buf) := by
  unfold State.audioEvent
  try dsimp only
  repeat' first
    | (with_reducible intro _)
    | with_reducible assumption
    | with_reducible apply Keeps.ite
    | with_reducible apply State.raise_keeps
    | simp only [Keeps.mk_iff]
    | with_reducible apply KeepsCore.of
    | (split <;> (rename_i hp; have hp := congrArg Prod.fst hp; dsimp only at hp; subst hp))
    | split

theorem State.audioWrite_keeps {z s : State} {b : Nat} {w : Word} {stamp : Int} (hz : Keeps z s) :
    Keeps z (State.audioWrite s b w stamp) := by
  unfold State.audioWrite
  try dsimp only
  repeat' first
    | (with_reducible intro _)
    | with_reducible assumption
    | with_reducible apply Keeps.ite
    | with_reducible apply State.wr_keeps
    | with_reducible apply State.setAbuf_keeps
    | with_reducible apply State.when_keeps
    | with_reducible apply State.audioEvent_keeps
    | with_reducible apply State.take_keeps
    | simp only [Keeps.mk_iff]
    | with_reducible apply KeepsCore.of
    | (split <;> (rename_i hp; have hp := congrArg Prod.fst hp; dsimp only at hp; subst hp))
    | split

theorem State.attachAt_keeps {z s : State} {b : Nat} {id : Nat} {idx : Nat} (hz : Keeps z s) :
    Keeps z (State.attachAt s b id idx) := by
  unfold State.attachAt
  try dsimp only
  repeat' first
    | (with_reducible intro _)
    | with_reducible assumption
    | with_reducible apply Keeps.ite
    | with_reducible apply State.setAbuf_keeps
    | with_reducible apply State.wr_keeps
    | simp only [Keeps.mk_iff]
    | with_reducible apply KeepsCore.of
    | (split <;> (rename_i hp; have hp := congrArg Prod.fst hp; dsimp only at hp; subst hp))
    | split

theorem State.attach_keeps {z s : State} {b : Nat} {id : Nat} (hz : Keeps z s) :
    Keeps z (State.attach s b id) := by
  unfold State.attach
  try dsimp only
  repeat' first
    | (with_reducible intro _)
    | with_reducible assumption
    | with_reducible apply Keeps.ite
    | with_reducible apply State.attachAt_keeps
    | with_reducible apply State.wr_keeps
    | simp only [Keeps.mk_iff]
    | with_reducible apply KeepsCore.of
    | (split <;> (rename_i hp; have hp := congrArg Prod.fst hp; dsimp only at hp; subst hp))
    | split

theorem State.detach_keeps {z s : State} {b : Nat} {id : Nat} (hz : Keeps z s) :
    Keeps z (State.detach s b id) := by
  unfold State.detach
  try dsimp only
  repeat' first
    | (with_reducible intro _)
    | with_reducible assumption
    | with_reducible apply Keeps.ite
    | with_reducible apply State.setAbuf_keeps
    | simp only [Keeps.mk_iff]
    | with_reducible apply KeepsCore.of
    | (split <;> (rename_i hp; have hp := congrArg Prod.fst hp; dsimp only at hp; subst hp))
    | split

theorem State.audioRead_keeps {z s : State} {b : Nat} {id : Nat} {lat : Nat} (hz : Keeps z s) :
    Keeps z (State.audioRead s b id lat).1 := by
  unfold State.audioRead
  try dsimp only
  repeat' first
    | (with_reducible intro _)
    | with_reducible assumption
    | with_reducible apply Keeps.ite
    | with_reducible apply State.wr_keeps
    | with_reducible apply State.setAbuf_keeps
    | with_reducible apply State.when_keeps
    | with_reducible apply State.audioEvent_keeps
    | simp only [Keeps.mk_iff]
    | with_reducible apply KeepsCore.of
    | (split <;> (rename_i hp; have hp := congrArg Prod.fst hp; dsimp only at hp; subst hp))
    | split

theorem State.restartBufs_keeps {z s : State} {d : Nat} (hz : Keeps z s) :
    Keeps z (State.restartBufs s d) := by
  unfold State.restartBufs
  try dsimp only
  repeat' first
    | (with_reducible intro _)
    | with_reducible assumption
    | with_reducible apply Keeps.ite
    | with_reducible apply State.setBit_keeps
    | simp only [Keeps.mk_iff]
    | with_reducible apply KeepsCore.of
    | (split <;> (rename_i hp; have hp := congrArg Prod.fst hp; dsimp only at hp; subst hp))
    | split

theorem State.modAport_keeps {z s : State} {p : Nat} {f : APort → APort} (hz : Keeps z s) :
    Keeps z (State.modAport s p f) := by
  unfold State.modAport
  try dsimp only
  repeat' first
    | (with_reducible intro _)
    | with_reducible assumption
    | with_reducible apply Keeps.ite
    | simp only [Keeps.mk_iff]
    | with_reducible apply KeepsCore.of
    | (split <;> (rename_i hp; have hp := congrArg Prod.fst hp; dsimp only at hp; subst hp))
    | split

theorem State.detachPort_keeps {z s : State} {p : Nat} (hz : Keeps z s) :
    Keeps z (State.detachPort s p) := by
  unfold State.detachPort
  try dsimp only
  repeat' first
    | (with_reducible intro _)
    | with_reducible assumption
    | with_reducible apply Keeps.ite
    | with_reducible apply State.each_keeps
    | with_reducible apply State.detach_keeps
    | simp only [Keeps.mk_iff]
    | with_reducible apply KeepsCore.of
    | (split <;> (rename_i hp; have hp := congrArg Prod.fst hp; dsimp only at hp; subst hp))
    | split

theorem State.endFlywheel_keeps {z s : State}  (hz : Keeps z s) :
    Keeps z (State.endFlywheel s) := by
  unfold State.endFlywheel
  try dsimp only
  repeat' first
    | (with_reducible intro _)
    | with_reducible assumption
    | with_reducible apply Keeps.ite
    | with_reducible apply State.when_keeps
    | simp only [Keeps.mk_iff]
    | with_reducible apply KeepsCore.of
    | (split <;> (rename_i hp; have hp := congrArg Prod.fst hp; dsimp only at hp; subst hp))
    | split

theorem State.losePorts_keeps {z s : State} {d : Nat} (hz : Keeps z s) :
    Keeps z (State.losePorts s d) := by
  unfold State.losePorts
  try dsimp only
  repeat' first
    | (with_reducible intro _)
    | with_reducible assumption
    | with_reducible apply Keeps.ite
    | with_reducible apply State.each_keeps
    | with_reducible apply State.detachPort_keeps
    | with_reducible apply State.modAport_keeps
    | with_reducible apply State.endFlywheel_keeps
    | simp only [Keeps.mk_iff]
    | with_reducible apply KeepsCore.of
    | (split <;> (rename_i hp; have hp := congrArg Prod.fst hp; dsimp only at hp; subst hp))
    | split

theorem State.countFlow_keeps {z s : State} {a : Nat} {d : Nat} (hz : Keeps z s) :
    Keeps z (State.countFlow s a d) := by
  unfold State.countFlow
  try dsimp only
  repeat' first
    | (with_reducible intro _)
    | with_reducible assumption
    | with_reducible apply Keeps.ite
    | with_reducible apply State.bump_keeps
    | simp only [Keeps.mk_iff]
    | with_reducible apply KeepsCore.of
    | (split <;> (rename_i hp; have hp := congrArg Prod.fst hp; dsimp only at hp; subst hp))
    | split

theorem State.loseCopies_keeps {z s : State} {d : Nat} (hz : Keeps z s) :
    Keeps z (State.loseCopies s d) := by
  unfold State.loseCopies
  try dsimp only
  repeat' first
    | (with_reducible intro _)
    | with_reducible assumption
    | with_reducible apply Keeps.ite
    | with_reducible apply State.each_keeps
    | with_reducible apply State.bump_keeps
    | simp only [Keeps.mk_iff]
    | with_reducible apply KeepsCore.of
    | (split <;> (rename_i hp; have hp := congrArg Prod.fst hp; dsimp only at hp; subst hp))
    | split

theorem State.loadMasks_keeps {z s : State}  (hz : Keeps z s) :
    Keeps z (State.loadMasks s) := by
  unfold State.loadMasks
  try dsimp only
  repeat' first
    | (with_reducible intro _)
    | with_reducible assumption
    | with_reducible apply Keeps.ite
    | with_reducible apply State.each_keeps
    | with_reducible apply State.modAport_keeps
    | simp only [Keeps.mk_iff]
    | with_reducible apply KeepsCore.of
    | (split <;> (rename_i hp; have hp := congrArg Prod.fst hp; dsimp only at hp; subst hp))
    | split

end Sys2Proof.Machine
end

