-- ==== Sys2Proof/Laws/KeepsConfirm.lean ====
section
/-! SUPPORT. One lemma for each operation of Machine/Confirm.lean: it keeps what `Keeps` names. -/

namespace Sys2Proof.Machine

set_option linter.all false

theorem State.compareItem_keeps {z s : State} {n : Nat} {k : Nat} (hz : Keeps z s) :
    Keeps z (State.compareItem s n k) := by
  unfold State.compareItem
  try dsimp only
  repeat' first
    | (with_reducible intro _)
    | with_reducible assumption
    | with_reducible apply Keeps.ite
    | with_reducible apply State.modItem_keeps
    | with_reducible apply State.unconfirm_keeps
    | with_reducible apply State.modChan_keeps
    | with_reducible apply State.confirm_keeps
    | simp only [Keeps.mk_iff]
    | with_reducible apply KeepsCore.of
    | (split <;> (rename_i hp; have hp := congrArg Prod.fst hp; dsimp only at hp; subst hp))
    | split

end Sys2Proof.Machine
end

