-- ==== Sys2Proof/Laws/KeepsRate.lean ====
section
/-! SUPPORT. One lemma for each operation of Machine/Rate.lean: it keeps what `Keeps` names. -/

namespace Sys2Proof.Machine

set_option linter.all false

theorem State.writeHead_keeps {z s : State} {n : Nat} {k : Nat} {rh : Nat} (hz : Keeps z s) :
    Keeps z (State.writeHead s n k rh) := by
  unfold State.writeHead
  try dsimp only
  repeat' first
    | (with_reducible intro _)
    | with_reducible assumption
    | with_reducible apply Keeps.ite
    | with_reducible apply State.modPic_keeps
    | with_reducible apply State.modItem_keeps
    | simp only [Keeps.mk_iff]
    | with_reducible apply KeepsCore.of
    | (split <;> (rename_i hp; have hp := congrArg Prod.fst hp; dsimp only at hp; subst hp))
    | split

theorem State.openItem_keeps {z s : State} {n : Nat} {k : Nat} (hz : Keeps z s) :
    Keeps z (State.openItem s n k) := by
  unfold State.openItem
  try dsimp only
  repeat' first
    | (with_reducible intro _)
    | with_reducible assumption
    | with_reducible apply Keeps.ite
    | with_reducible apply State.writeHead_keeps
    | with_reducible apply State.modChan_keeps
    | with_reducible apply State.modItem_keeps
    | simp only [Keeps.mk_iff]
    | with_reducible apply KeepsCore.of
    | (split <;> (rename_i hp; have hp := congrArg Prod.fst hp; dsimp only at hp; subst hp))
    | split

theorem State.sendJoin_keeps {z s : State} {n : Nat} {j : Nat} (hz : Keeps z s) :
    Keeps z (State.sendJoin s n j) := by
  unfold State.sendJoin
  try dsimp only
  repeat' first
    | (with_reducible intro _)
    | with_reducible assumption
    | with_reducible apply Keeps.ite
    | with_reducible apply State.lanternSend_keeps
    | with_reducible apply State.modChan_keeps
    | simp only [Keeps.mk_iff]
    | with_reducible apply KeepsCore.of
    | (split <;> (rename_i hp; have hp := congrArg Prod.fst hp; dsimp only at hp; subst hp))
    | split

theorem State.closeItem_keeps {z s : State} {n : Nat} {k : Nat} (hz : Keeps z s) :
    Keeps z (State.closeItem s n k) := by
  unfold State.closeItem
  try dsimp only
  repeat' first
    | (with_reducible intro _)
    | with_reducible assumption
    | with_reducible apply Keeps.ite
    | with_reducible apply State.openItem_keeps
    | with_reducible apply State.modChan_keeps
    | with_reducible apply State.modItem_keeps
    | with_reducible apply State.reMark_keeps
    | with_reducible apply State.excludeRefs_keeps
    | with_reducible apply State.noteEmbers_keeps
    | with_reducible apply State.when_keeps
    | with_reducible apply State.sendJoin_keeps
    | simp only [Keeps.mk_iff]
    | with_reducible apply KeepsCore.of
    | (split <;> (rename_i hp; have hp := congrArg Prod.fst hp; dsimp only at hp; subst hp))
    | split

theorem State.closeItems_keeps {z s : State} {n : Nat} (hz : Keeps z s) :
    Keeps z (State.closeItems s n) := by
  unfold State.closeItems
  try dsimp only
  repeat' first
    | (with_reducible intro _)
    | with_reducible assumption
    | with_reducible apply Keeps.ite
    | with_reducible apply State.each_keeps
    | with_reducible apply State.closeItem_keeps
    | simp only [Keeps.mk_iff]
    | with_reducible apply KeepsCore.of
    | (split <;> (rename_i hp; have hp := congrArg Prod.fst hp; dsimp only at hp; subst hp))
    | split

theorem State.releaseBuffers_keeps {z s : State} {n : Nat} (hz : Keeps z s) :
    Keeps z (State.releaseBuffers s n) := by
  unfold State.releaseBuffers
  try dsimp only
  repeat' first
    | (with_reducible intro _)
    | with_reducible assumption
    | with_reducible apply Keeps.ite
    | with_reducible apply State.each_keeps
    | with_reducible apply State.when_keeps
    | with_reducible apply State.freeBuf_keeps
    | with_reducible apply State.modChan_keeps
    | with_reducible apply State.prunePics_keeps
    | simp only [Keeps.mk_iff]
    | with_reducible apply KeepsCore.of
    | (split <;> (rename_i hp; have hp := congrArg Prod.fst hp; dsimp only at hp; subst hp))
    | split

end Sys2Proof.Machine
end

