-- ==== Sys2Proof/Laws/KeepsOutput.lean ====
section
/-! SUPPORT. One lemma for each operation of Machine/Output.lean: it keeps what `Keeps` names. -/

namespace Sys2Proof.Machine

set_option linter.all false

theorem State.setFlow_keeps {z s : State} {f : Flow} (hz : Keeps z s) :
    Keeps z (State.setFlow s f) := by
  unfold State.setFlow
  try dsimp only
  repeat' first
    | (with_reducible intro _)
    | with_reducible assumption
    | with_reducible apply Keeps.ite
    | simp only [Keeps.mk_iff]
    | with_reducible apply KeepsCore.of
    | (split <;> (rename_i hp; have hp := congrArg Prod.fst hp; dsimp only at hp; subst hp))
    | split

theorem State.modFlow_keeps {z s : State} {i : Nat} {f : Flow → Flow} (hz : Keeps z s) :
    Keeps z (State.modFlow s i f) := by
  unfold State.modFlow
  try dsimp only
  repeat' first
    | (with_reducible intro _)
    | with_reducible assumption
    | with_reducible apply Keeps.ite
    | with_reducible apply State.setFlow_keeps
    | simp only [Keeps.mk_iff]
    | with_reducible apply KeepsCore.of
    | (split <;> (rename_i hp; have hp := congrArg Prod.fst hp; dsimp only at hp; subst hp))
    | split

theorem State.enterService_keeps {z s : State} {n : Nat} (hz : Keeps z s) :
    Keeps z (State.enterService s n) := by
  unfold State.enterService
  try dsimp only
  repeat' first
    | (with_reducible intro _)
    | with_reducible assumption
    | with_reducible apply Keeps.ite
    | with_reducible apply State.setChan_keeps
    | with_reducible apply State.setBit_keeps
    | simp only [Keeps.mk_iff]
    | with_reducible apply KeepsCore.of
    | (split <;> (rename_i hp; have hp := congrArg Prod.fst hp; dsimp only at hp; subst hp))
    | split

theorem State.sweepItems_keeps {z s : State} {n : Nat} (hz : Keeps z s) :
    Keeps z (State.sweepItems s n) := by
  unfold State.sweepItems
  try dsimp only
  repeat' first
    | (with_reducible intro _)
    | with_reducible assumption
    | with_reducible apply Keeps.ite
    | with_reducible apply State.modChan_keeps
    | simp only [Keeps.mk_iff]
    | with_reducible apply KeepsCore.of
    | (split <;> (rename_i hp; have hp := congrArg Prod.fst hp; dsimp only at hp; subst hp))
    | split

theorem State.sqiAlarm_keeps {z s : State} {n : Nat} {it : Item} (hz : Keeps z s) :
    Keeps z (State.sqiAlarm s n it) := by
  unfold State.sqiAlarm
  try dsimp only
  repeat' first
    | (with_reducible intro _)
    | with_reducible assumption
    | with_reducible apply Keeps.ite
    | with_reducible apply State.take_keeps
    | with_reducible apply State.modChan_keeps
    | with_reducible apply State.raise_keeps
    | simp only [Keeps.mk_iff]
    | with_reducible apply KeepsCore.of
    | (split <;> (rename_i hp; have hp := congrArg Prod.fst hp; dsimp only at hp; subst hp))
    | split

theorem State.itemLeft_keeps {z s : State} {n : Nat} {k : Nat} {t : Int} (hz : Keeps z s) :
    Keeps z (State.itemLeft s n k t) := by
  unfold State.itemLeft
  try dsimp only
  repeat' first
    | (with_reducible intro _)
    | with_reducible assumption
    | with_reducible apply Keeps.ite
    | with_reducible apply State.modItem_keeps
    | with_reducible apply State.bump64_keeps
    | with_reducible apply State.when_keeps
    | with_reducible apply State.bump_keeps
    | with_reducible apply State.wrN_keeps
    | with_reducible apply State.raise_keeps
    | with_reducible apply State.freshId_keeps
    | with_reducible apply State.setBit_keeps
    | with_reducible apply State.sqiAlarm_keeps
    | with_reducible apply State.sweepItems_keeps
    | with_reducible apply State.vacate_keeps
    | simp only [Keeps.mk_iff]
    | with_reducible apply KeepsCore.of
    | (split <;> (rename_i hp; have hp := congrArg Prod.fst hp; dsimp only at hp; subst hp))
    | split

theorem State.silentRelease_keeps {z s : State} {n : Nat} {k : Nat} (hz : Keeps z s) :
    Keeps z (State.silentRelease s n k) := by
  unfold State.silentRelease
  try dsimp only
  repeat' first
    | (with_reducible intro _)
    | with_reducible assumption
    | with_reducible apply Keeps.ite
    | with_reducible apply State.enterService_keeps
    | with_reducible apply State.itemLeft_keeps
    | with_reducible apply done_keeps
    | simp only [Keeps.mk_iff]
    | with_reducible apply KeepsCore.of
    | (split <;> (rename_i hp; have hp := congrArg Prod.fst hp; dsimp only at hp; subst hp))
    | split

theorem State.silentReleases_keeps {z s : State} {n : Nat} (hz : Keeps z s) :
    Keeps z (State.silentReleases s n) := by
  unfold State.silentReleases
  try dsimp only
  repeat' first
    | (with_reducible intro _)
    | with_reducible assumption
    | with_reducible apply Keeps.ite
    | with_reducible apply State.each_keeps
    | with_reducible apply State.silentRelease_keeps
    | simp only [Keeps.mk_iff]
    | with_reducible apply KeepsCore.of
    | (split <;> (rename_i hp; have hp := congrArg Prod.fst hp; dsimp only at hp; subst hp))
    | split

theorem execReleaseInstant_keeps {z s : State} {dt : Nat} {n : Fin 96} {k : Nat} (hz : Keeps z s) :
    KeepsOut z (execReleaseInstant dt n k s) := by
  unfold execReleaseInstant
  try dsimp only
  repeat' first
    | (with_reducible intro _)
    | with_reducible assumption
    | with_reducible apply KeepsOut.next
    | with_reducible apply KeepsOut.ite
    | with_reducible apply done_keeps
    | with_reducible apply Keeps.ite
    | with_reducible apply State.elapse_keeps
    | with_reducible apply State.silentRelease_keeps
    | with_reducible apply done_keeps
    | simp only [Keeps.mk_iff]
    | with_reducible apply KeepsCore.of
    | (split <;> (rename_i hp; have hp := congrArg Prod.fst hp; dsimp only at hp; subst hp))
    | split

theorem State.crcChain_keeps {z s : State} {fails : Nat} {noCopy : Bool} (hz : Keeps z s) :
    Keeps z (State.crcChain s fails noCopy) := by
  unfold State.crcChain
  try dsimp only
  repeat' first
    | (with_reducible intro _)
    | with_reducible assumption
    | with_reducible apply Keeps.ite
    | with_reducible apply State.bump_keeps
    | with_reducible apply State.when_keeps
    | with_reducible apply State.snuff_keeps
    | simp only [Keeps.mk_iff]
    | with_reducible apply KeepsCore.of
    | (split <;> (rename_i hp; have hp := congrArg Prod.fst hp; dsimp only at hp; subst hp))
    | split

theorem State.readsCaught_keeps {z s : State} {caught : List (Nat × Nat × Nat)} {noCopy : Bool} (hz : Keeps z s) :
    Keeps z (State.readsCaught s caught noCopy) := by
  unfold State.readsCaught
  try dsimp only
  repeat' first
    | (with_reducible intro _)
    | with_reducible assumption
    | with_reducible apply Keeps.ite
    | with_reducible apply State.crcChain_keeps
    | with_reducible apply State.when_keeps
    | with_reducible apply State.each_keeps
    | with_reducible apply State.fail_keeps
    | simp only [Keeps.mk_iff]
    | with_reducible apply KeepsCore.of
    | (split <;> (rename_i hp; have hp := congrArg Prod.fst hp; dsimp only at hp; subst hp))
    | split

theorem State.modDgram_keeps {z s : State} {i : Nat} {seq : Nat} {f : Dgram → Dgram} (hz : Keeps z s) :
    Keeps z (State.modDgram s i seq f) := by
  unfold State.modDgram
  try dsimp only
  repeat' first
    | (with_reducible intro _)
    | with_reducible assumption
    | with_reducible apply Keeps.ite
    | simp only [Keeps.mk_iff]
    | with_reducible apply KeepsCore.of
    | (split <;> (rename_i hp; have hp := congrArg Prod.fst hp; dsimp only at hp; subst hp))
    | split

theorem State.settleCredit_keeps {z s : State} {i : Nat} {blue : Bool} (hz : Keeps z s) :
    Keeps z (State.settleCredit s i blue) := by
  unfold State.settleCredit
  try dsimp only
  repeat' first
    | (with_reducible intro _)
    | with_reducible assumption
    | with_reducible apply Keeps.ite
    | with_reducible apply State.modFlow_keeps
    | with_reducible apply State.freshId_keeps
    | simp only [Keeps.mk_iff]
    | with_reducible apply KeepsCore.of
    | (split <;> (rename_i hp; have hp := congrArg Prod.fst hp; dsimp only at hp; subst hp))
    | split

theorem State.copyLeft_keeps {z s : State} {i : Nat} {seq : Nat} {blue : Bool} {t : Int} (hz : Keeps z s) :
    Keeps z (State.copyLeft s i seq blue t) := by
  unfold State.copyLeft
  try dsimp only
  repeat' first
    | (with_reducible intro _)
    | with_reducible assumption
    | with_reducible apply Keeps.ite
    | with_reducible apply State.each_keeps
    | with_reducible apply State.enterService_keeps
    | with_reducible apply State.modDgram_keeps
    | with_reducible apply State.modFlow_keeps
    | with_reducible apply State.wrN_keeps
    | with_reducible apply State.itemLeft_keeps
    | simp only [Keeps.mk_iff]
    | with_reducible apply KeepsCore.of
    | (split <;> (rename_i hp; have hp := congrArg Prod.fst hp; dsimp only at hp; subst hp))
    | split

theorem State.leaves_keeps {z s : State} {i : Nat} {seq : Nat} {blue : Bool} {t : Int} (hz : Keeps z s) :
    Keeps z (State.leaves s i seq blue t) := by
  unfold State.leaves
  try dsimp only
  repeat' first
    | (with_reducible intro _)
    | with_reducible assumption
    | with_reducible apply Keeps.ite
    | simp only [Keeps.mk_iff]
    | with_reducible apply KeepsCore.of
    | (split <;> (rename_i hp; have hp := congrArg Prod.fst hp; dsimp only at hp; subst hp))
    | split

theorem State.settleLeft_keeps {z s : State}  (hz : Keeps z s) :
    Keeps z (State.settleLeft s) := by
  unfold State.settleLeft
  try dsimp only
  repeat' first
    | (with_reducible intro _)
    | with_reducible assumption
    | with_reducible apply Keeps.ite
    | with_reducible apply State.each_keeps
    | with_reducible apply State.copyLeft_keeps
    | simp only [Keeps.mk_iff]
    | with_reducible apply KeepsCore.of
    | (split <;> (rename_i hp; have hp := congrArg Prod.fst hp; dsimp only at hp; subst hp))
    | split

theorem State.handOver_keeps {z s : State} {d : Dgram} {blue : Bool} (hz : Keeps z s) :
    Keeps z (State.handOver s d blue) := by
  unfold State.handOver
  try dsimp only
  repeat' first
    | (with_reducible intro _)
    | with_reducible assumption
    | with_reducible apply Keeps.ite
    | with_reducible apply State.modDgram_keeps
    | with_reducible apply State.bump_keeps
    | with_reducible apply State.copyLeft_keeps
    | with_reducible apply State.settleCredit_keeps
    | with_reducible apply State.modFlow_keeps
    | with_reducible apply State.enqueueFrame_keeps
    | simp only [Keeps.mk_iff]
    | with_reducible apply KeepsCore.of
    | (split <;> (rename_i hp; have hp := congrArg Prod.fst hp; dsimp only at hp; subst hp))
    | split

theorem State.dropFrame_keeps {z s : State} {f : QFrame} (hz : Keeps z s) :
    Keeps z (State.dropFrame s f) := by
  unfold State.dropFrame
  try dsimp only
  repeat' first
    | (with_reducible intro _)
    | with_reducible assumption
    | with_reducible apply Keeps.ite
    | with_reducible apply State.promoteFrame_keeps
    | simp only [Keeps.mk_iff]
    | with_reducible apply KeepsCore.of
    | (split <;> (rename_i hp; have hp := congrArg Prod.fst hp; dsimp only at hp; subst hp))
    | split

theorem State.discardFrame_keeps {z s : State} {f : QFrame} (hz : Keeps z s) :
    Keeps z (State.discardFrame s f) := by
  unfold State.discardFrame
  try dsimp only
  repeat' first
    | (with_reducible intro _)
    | with_reducible assumption
    | with_reducible apply Keeps.ite
    | with_reducible apply State.when_keeps
    | with_reducible apply State.settleCredit_keeps
    | with_reducible apply State.dropFrame_keeps
    | with_reducible apply State.bump_keeps
    | with_reducible apply State.copyLeft_keeps
    | simp only [Keeps.mk_iff]
    | with_reducible apply KeepsCore.of
    | (split <;> (rename_i hp; have hp := congrArg Prod.fst hp; dsimp only at hp; subst hp))
    | split

theorem State.subOutage_keeps {z s : State} {p : Nat} {q : Nat} {st : Nat} (hz : Keeps z s) :
    Keeps z (State.subOutage s p q st) := by
  unfold State.subOutage
  try dsimp only
  repeat' first
    | (with_reducible intro _)
    | with_reducible assumption
    | with_reducible apply Keeps.ite
    | with_reducible apply State.when_keeps
    | with_reducible apply State.each_keeps
    | with_reducible apply State.settleCredit_keeps
    | with_reducible apply State.setFld_keeps
    | with_reducible apply State.raise_keeps
    | with_reducible apply State.discardFrame_keeps
    | simp only [Keeps.mk_iff]
    | with_reducible apply KeepsCore.of
    | (split <;> (rename_i hp; have hp := congrArg Prod.fst hp; dsimp only at hp; subst hp))
    | split

end Sys2Proof.Machine
end

