-- ==== Sys2Proof/Laws/KeepsMux.lean ====
section
/-! SUPPORT. One lemma for each operation of Machine/Mux.lean: it keeps what `Keeps` names. -/

namespace Sys2Proof.Machine

set_option linter.all false

theorem State.modOut_keeps {z s : State} {n : Nat} {k : Nat} {f : Item → Item} (hz : Keeps z s) :
    Keeps z (State.modOut s n k f) := by
  unfold State.modOut
  try dsimp only
  repeat' first
    | (with_reducible intro _)
    | with_reducible assumption
    | with_reducible apply Keeps.ite
    | with_reducible apply State.modChan_keeps
    | simp only [Keeps.mk_iff]
    | with_reducible apply KeepsCore.of
    | (split <;> (rename_i hp; have hp := congrArg Prod.fst hp; dsimp only at hp; subst hp))
    | split

theorem State.modMux_keeps {z s : State} {n : Nat} {f : MuxState → MuxState} (hz : Keeps z s) :
    Keeps z (State.modMux s n f) := by
  unfold State.modMux
  try dsimp only
  repeat' first
    | (with_reducible intro _)
    | with_reducible assumption
    | with_reducible apply Keeps.ite
    | with_reducible apply State.modChan_keeps
    | simp only [Keeps.mk_iff]
    | with_reducible apply KeepsCore.of
    | (split <;> (rename_i hp; have hp := congrArg Prod.fst hp; dsimp only at hp; subst hp))
    | split

theorem State.formDatagram_keeps {z s : State} {i : Nat} {close : Int} {stamp : Nat} {marker : Bool} {payload : List Byte × List Byte} {pkts : List TsPacket} (hz : Keeps z s) :
    Keeps z (State.formDatagram s i close stamp marker payload pkts) := by
  unfold State.formDatagram
  try dsimp only
  repeat' first
    | (with_reducible intro _)
    | with_reducible assumption
    | with_reducible apply Keeps.ite
    | with_reducible apply State.setFlow_keeps
    | simp only [Keeps.mk_iff]
    | with_reducible apply KeepsCore.of
    | (split <;> (rename_i hp; have hp := congrArg Prod.fst hp; dsimp only at hp; subst hp))
    | split

theorem State.pruneSections_keeps {z s : State} {m : Nat} (hz : Keeps z s) :
    Keeps z (State.pruneSections s m) := by
  unfold State.pruneSections
  try dsimp only
  repeat' first
    | (with_reducible intro _)
    | with_reducible assumption
    | with_reducible apply Keeps.ite
    | with_reducible apply State.modChan_keeps
    | simp only [Keeps.mk_iff]
    | with_reducible apply KeepsCore.of
    | (split <;> (rename_i hp; have hp := congrArg Prod.fst hp; dsimp only at hp; subst hp))
    | split

theorem State.pruneCaught_keeps {z s : State} {n : Nat} (hz : Keeps z s) :
    Keeps z (State.pruneCaught s n) := by
  unfold State.pruneCaught
  try dsimp only
  repeat' first
    | (with_reducible intro _)
    | with_reducible assumption
    | with_reducible apply Keeps.ite
    | with_reducible apply State.modChan_keeps
    | simp only [Keeps.mk_iff]
    | with_reducible apply KeepsCore.of
    | (split <;> (rename_i hp; have hp := congrArg Prod.fst hp; dsimp only at hp; subst hp))
    | split

theorem State.closeMux_keeps {z s : State} {n : Nat} {k : Nat} (hz : Keeps z s) :
    Keeps z (State.closeMux s n k) := by
  unfold State.closeMux
  try dsimp only
  repeat' first
    | (with_reducible intro _)
    | with_reducible assumption
    | with_reducible apply Keeps.ite
    | with_reducible apply State.modMux_keeps
    | with_reducible apply State.modItem_keeps
    | with_reducible apply State.lanternSend_keeps
    | with_reducible apply State.compareItem_keeps
    | with_reducible apply State.pruneSections_keeps
    | with_reducible apply State.pruneCaught_keeps
    | simp only [Keeps.mk_iff]
    | with_reducible apply KeepsCore.of
    | (split <;> (rename_i hp; have hp := congrArg Prod.fst hp; dsimp only at hp; subst hp))
    | split

theorem State.placePacket_keeps {z s : State} {i : Nat} {x : Waiting} (hz : Keeps z s) :
    Keeps z (State.placePacket s i x) := by
  unfold State.placePacket
  try dsimp only
  repeat' first
    | (with_reducible intro _)
    | with_reducible assumption
    | with_reducible apply Keeps.ite
    | with_reducible apply Keeps.foldl
    | with_reducible apply Keeps.foldlFst
    | with_reducible apply State.setFlow_keeps
    | with_reducible apply State.when_keeps
    | with_reducible apply State.modFlow_keeps
    | with_reducible apply State.modMux_keeps
    | with_reducible apply State.bump_keeps
    | with_reducible apply State.closeMux_keeps
    | simp only [Keeps.mk_iff]
    | with_reducible apply KeepsCore.of
    | (split <;> (rename_i hp; have hp := congrArg Prod.fst hp; dsimp only at hp; subst hp))
    | split

theorem State.closeTs_keeps {z s : State} {i : Nat} (hz : Keeps z s) :
    Keeps z (State.closeTs s i) := by
  unfold State.closeTs
  try dsimp only
  repeat' first
    | (with_reducible intro _)
    | with_reducible assumption
    | with_reducible apply Keeps.ite
    | with_reducible apply State.take_keeps
    | with_reducible apply State.each_keeps
    | with_reducible apply State.placePacket_keeps
    | with_reducible apply State.formDatagram_keeps
    | simp only [Keeps.mk_iff]
    | with_reducible apply KeepsCore.of
    | (split <;> (rename_i hp; have hp := congrArg Prod.fst hp; dsimp only at hp; subst hp))
    | split

theorem State.closeNal_keeps {z s : State} {i : Nat} {n : Nat} (hz : Keeps z s) :
    Keeps z (State.closeNal s i n) := by
  unfold State.closeNal
  try dsimp only
  repeat' first
    | (with_reducible intro _)
    | with_reducible assumption
    | with_reducible apply Keeps.ite
    | with_reducible apply State.placePacket_keeps
    | with_reducible apply State.formDatagram_keeps
    | simp only [Keeps.mk_iff]
    | with_reducible apply KeepsCore.of
    | (split <;> (rename_i hp; have hp := congrArg Prod.fst hp; dsimp only at hp; subst hp))
    | split

theorem State.closeFec_keeps {z s : State} {i : Nat} (hz : Keeps z s) :
    Keeps z (State.closeFec s i) := by
  unfold State.closeFec
  try dsimp only
  repeat' first
    | (with_reducible intro _)
    | with_reducible assumption
    | with_reducible apply Keeps.ite
    | with_reducible apply State.formDatagram_keeps
    | simp only [Keeps.mk_iff]
    | with_reducible apply KeepsCore.of
    | (split <;> (rename_i hp; have hp := congrArg Prod.fst hp; dsimp only at hp; subst hp))
    | split

theorem State.startBase_keeps {z s : State} {i : Nat} (hz : Keeps z s) :
    Keeps z (State.startBase s i) := by
  unfold State.startBase
  try dsimp only
  repeat' first
    | (with_reducible intro _)
    | with_reducible assumption
    | with_reducible apply Keeps.ite
    | with_reducible apply State.when_keeps
    | with_reducible apply State.modFlow_keeps
    | simp only [Keeps.mk_iff]
    | with_reducible apply KeepsCore.of
    | (split <;> (rename_i hp; have hp := congrArg Prod.fst hp; dsimp only at hp; subst hp))
    | split

theorem State.closeDatagram_keeps {z s : State} {i : Nat} (hz : Keeps z s) :
    Keeps z (State.closeDatagram s i) := by
  unfold State.closeDatagram
  try dsimp only
  repeat' first
    | (with_reducible intro _)
    | with_reducible assumption
    | with_reducible apply Keeps.ite
    | with_reducible apply State.startBase_keeps
    | with_reducible apply State.closeTs_keeps
    | with_reducible apply State.closeNal_keeps
    | with_reducible apply State.closeFec_keeps
    | with_reducible apply State.dues_last_keeps
    | simp only [Keeps.mk_iff]
    | with_reducible apply KeepsCore.of
    | (split <;> (rename_i hp; have hp := congrArg Prod.fst hp; dsimp only at hp; subst hp))
    | split

theorem execDatagramClose_keeps {z s : State} {dt : Nat} {i : Fin 2048} {reads : List BandRead} {noCopy : Bool} (hz : Keeps z s) :
    KeepsOut z (execDatagramClose dt i reads noCopy s) := by
  unfold execDatagramClose
  try dsimp only
  repeat' first
    | (with_reducible intro _)
    | with_reducible assumption
    | with_reducible apply KeepsOut.next
    | with_reducible apply KeepsOut.ite
    | with_reducible apply done_keeps
    | with_reducible apply Keeps.ite
    | with_reducible apply State.elapse_keeps
    | with_reducible apply State.settleLeft_keeps
    | with_reducible apply State.readsCaught_keeps
    | with_reducible apply State.closeDatagram_keeps
    | with_reducible apply done_keeps
    | simp only [Keeps.mk_iff]
    | with_reducible apply KeepsCore.of
    | (split <;> (rename_i hp; have hp := congrArg Prod.fst hp; dsimp only at hp; subst hp))
    | split

theorem State.readWindow_keeps {z s : State} {n : Nat} {b : Nat} {id : Nat} {count : Nat} (hz : Keeps z s) :
    Keeps z (State.readWindow s n b id count).1 := by
  unfold State.readWindow
  try dsimp only
  repeat' first
    | (with_reducible intro _)
    | with_reducible assumption
    | with_reducible apply Keeps.ite
    | with_reducible apply Keeps.foldl
    | with_reducible apply Keeps.foldlFst
    | with_reducible apply State.audioRead_keeps
    | with_reducible apply State.when_keeps
    | with_reducible apply State.bump_keeps
    | simp only [Keeps.mk_iff]
    | with_reducible apply KeepsCore.of
    | (split <;> (rename_i hp; have hp := congrArg Prod.fst hp; dsimp only at hp; subst hp))
    | split

theorem State.audioPes_keeps {z s : State} {n : Nat} {it : Item} {a : Nat} (hz : Keeps z s) :
    Keeps z (State.audioPes s n it a).1 := by
  unfold State.audioPes
  try dsimp only
  repeat' first
    | (with_reducible intro _)
    | with_reducible assumption
    | with_reducible apply Keeps.ite
    | with_reducible apply Keeps.foldl
    | with_reducible apply Keeps.foldlFst
    | with_reducible apply State.when_keeps
    | with_reducible apply State.detach_keeps
    | with_reducible apply State.attachAt_keeps
    | with_reducible apply State.readWindow_keeps
    | simp only [Keeps.mk_iff]
    | with_reducible apply KeepsCore.of
    | (split <;> (rename_i hp; have hp := congrArg Prod.fst hp; dsimp only at hp; subst hp))
    | split

theorem execAudioDueInstant_keeps {z s : State} {dt : Nat} {n : Fin 96} {k : Nat} (hz : Keeps z s) :
    KeepsOut z (execAudioDueInstant dt n k s) := by
  unfold execAudioDueInstant
  try dsimp only
  repeat' first
    | (with_reducible intro _)
    | with_reducible assumption
    | with_reducible apply KeepsOut.next
    | with_reducible apply KeepsOut.ite
    | with_reducible apply done_keeps
    | with_reducible apply Keeps.ite
    | with_reducible apply Keeps.foldl
    | with_reducible apply Keeps.foldlFst
    | with_reducible apply State.elapse_keeps
    | with_reducible apply State.audioPes_keeps
    | with_reducible apply State.modOut_keeps
    | with_reducible apply done_keeps
    | simp only [Keeps.mk_iff]
    | with_reducible apply KeepsCore.of
    | (split <;> (rename_i hp; have hp := congrArg Prod.fst hp; dsimp only at hp; subst hp))
    | split

theorem execAudioFlowPacketTime_keeps {z s : State} {dt : Nat} {i : Fin 2048} {short : Bool} (hz : Keeps z s) :
    KeepsOut z (execAudioFlowPacketTime dt i short s) := by
  unfold execAudioFlowPacketTime
  try dsimp only
  repeat' first
    | (with_reducible intro _)
    | with_reducible assumption
    | with_reducible apply KeepsOut.next
    | with_reducible apply KeepsOut.ite
    | with_reducible apply done_keeps
    | with_reducible apply Keeps.ite
    | with_reducible apply Keeps.foldl
    | with_reducible apply Keeps.foldlFst
    | with_reducible apply State.elapse_keeps
    | with_reducible apply State.each_keeps
    | with_reducible apply State.attach_keeps
    | with_reducible apply State.wr_keeps
    | with_reducible apply State.audioRead_keeps
    | with_reducible apply State.formDatagram_keeps
    | with_reducible apply done_keeps
    | simp only [Keeps.mk_iff]
    | with_reducible apply KeepsCore.of
    | (split <;> (rename_i hp; have hp := congrArg Prod.fst hp; dsimp only at hp; subst hp))
    | split

end Sys2Proof.Machine
end

