-- ==== Sys2Proof/Laws/KeepsLantern.lean ====
section
/-! SUPPORT. One lemma for each operation of Machine/Lantern.lean: it keeps what `Keeps` names. -/

namespace Sys2Proof.Machine

set_option linter.all false

theorem State.snapEvent_keeps {z s : State} {n : Nat} {what : Nat} (hz : Keeps z s) :
    Keeps z (State.snapEvent s n what) := by
  unfold State.snapEvent
  try dsimp only
  repeat' first
    | (with_reducible intro _)
    | with_reducible assumption
    | with_reducible apply Keeps.ite
    | with_reducible apply State.raise_keeps
    | simp only [Keeps.mk_iff]
    | with_reducible apply KeepsCore.of
    | (split <;> (rename_i hp; have hp := congrArg Prod.fst hp; dsimp only at hp; subst hp))
    | split

theorem State.unpin_keeps {z s : State} {n : Nat} (hz : Keeps z s) :
    Keeps z (State.unpin s n) := by
  unfold State.unpin
  try dsimp only
  repeat' first
    | (with_reducible intro _)
    | with_reducible assumption
    | with_reducible apply Keeps.ite
    | with_reducible apply State.modChan_keeps
    | with_reducible apply State.releaseBuffers_keeps
    | simp only [Keeps.mk_iff]
    | with_reducible apply KeepsCore.of
    | (split <;> (rename_i hp; have hp := congrArg Prod.fst hp; dsimp only at hp; subst hp))
    | split

theorem State.abortSnap_keeps {z s : State} {n : Nat} (hz : Keeps z s) :
    Keeps z (State.abortSnap s n) := by
  unfold State.abortSnap
  try dsimp only
  repeat' first
    | (with_reducible intro _)
    | with_reducible assumption
    | with_reducible apply Keeps.ite
    | with_reducible apply State.when_keeps
    | with_reducible apply State.endJoin_keeps
    | with_reducible apply State.modChan_keeps
    | with_reducible apply State.snapEvent_keeps
    | with_reducible apply State.unpin_keeps
    | with_reducible apply State.dropCopy_keeps
    | simp only [Keeps.mk_iff]
    | with_reducible apply KeepsCore.of
    | (split <;> (rename_i hp; have hp := congrArg Prod.fst hp; dsimp only at hp; subst hp))
    | split

theorem State.abortSnaps_keeps {z s : State}  (hz : Keeps z s) :
    Keeps z (State.abortSnaps s) := by
  unfold State.abortSnaps
  try dsimp only
  repeat' first
    | (with_reducible intro _)
    | with_reducible assumption
    | with_reducible apply Keeps.ite
    | with_reducible apply State.each_keeps
    | with_reducible apply State.abortSnap_keeps
    | simp only [Keeps.mk_iff]
    | with_reducible apply KeepsCore.of
    | (split <;> (rename_i hp; have hp := congrArg Prod.fst hp; dsimp only at hp; subst hp))
    | split

theorem State.repeatRequests_keeps {z s : State}  (hz : Keeps z s) :
    Keeps z (State.repeatRequests s) := by
  unfold State.repeatRequests
  try dsimp only
  repeat' first
    | (with_reducible intro _)
    | with_reducible assumption
    | with_reducible apply Keeps.ite
    | with_reducible apply State.each_keeps
    | with_reducible apply State.requestSnapshot_keeps
    | simp only [Keeps.mk_iff]
    | with_reducible apply KeepsCore.of
    | (split <;> (rename_i hp; have hp := congrArg Prod.fst hp; dsimp only at hp; subst hp))
    | split

theorem State.sendIdle_keeps {z s : State}  (hz : Keeps z s) :
    Keeps z (State.sendIdle s) := by
  unfold State.sendIdle
  try dsimp only
  repeat' first
    | (with_reducible intro _)
    | with_reducible assumption
    | with_reducible apply Keeps.ite
    | with_reducible apply State.send_keeps
    | simp only [Keeps.mk_iff]
    | with_reducible apply KeepsCore.of
    | (split <;> (rename_i hp; have hp := congrArg Prod.fst hp; dsimp only at hp; subst hp))
    | split

theorem State.resendAll_keeps {z s : State}  (hz : Keeps z s) :
    Keeps z (State.resendAll s) := by
  unfold State.resendAll
  try dsimp only
  repeat' first
    | (with_reducible intro _)
    | with_reducible assumption
    | with_reducible apply Keeps.ite
    | with_reducible apply State.bump_keeps
    | with_reducible apply State.each_keeps
    | with_reducible apply State.send_keeps
    | simp only [Keeps.mk_iff]
    | with_reducible apply KeepsCore.of
    | (split <;> (rename_i hp; have hp := congrArg Prod.fst hp; dsimp only at hp; subst hp))
    | split

theorem State.pump_keeps {z s : State}  (hz : Keeps z s) :
    Keeps z (State.pump s) := by
  unfold State.pump
  try dsimp only
  repeat' first
    | (with_reducible intro _)
    | with_reducible assumption
    | with_reducible apply Keeps.ite
    | with_reducible apply State.pumpLantern_keeps
    | simp only [Keeps.mk_iff]
    | with_reducible apply KeepsCore.of
    | (split <;> (rename_i hp; have hp := congrArg Prod.fst hp; dsimp only at hp; subst hp))
    | split

theorem State.linkUpNow_keeps {z s : State}  (hz : Keeps z s) :
    Keeps z (State.linkUpNow s) := by
  unfold State.linkUpNow
  try dsimp only
  repeat' first
    | (with_reducible intro _)
    | with_reducible assumption
    | with_reducible apply Keeps.ite
    | with_reducible apply State.when_keeps
    | with_reducible apply State.lanternSend_keeps
    | simp only [Keeps.mk_iff]
    | with_reducible apply KeepsCore.of
    | (split <;> (rename_i hp; have hp := congrArg Prod.fst hp; dsimp only at hp; subst hp))
    | split

theorem State.restripe_keeps {z s : State} {underWay : Bool} (hz : Keeps z s) :
    Keeps z (State.restripe s underWay) := by
  unfold State.restripe
  try dsimp only
  repeat' first
    | (with_reducible intro _)
    | with_reducible assumption
    | with_reducible apply Keeps.ite
    | with_reducible apply State.setFld_keeps
    | with_reducible apply State.bump_keeps
    | with_reducible apply State.raise_keeps
    | with_reducible apply State.when_keeps
    | with_reducible apply State.send_keeps
    | with_reducible apply State.sendIdle_keeps
    | with_reducible apply State.resendAll_keeps
    | with_reducible apply State.abortSnaps_keeps
    | with_reducible apply State.linkUpNow_keeps
    | with_reducible apply State.repeatRequests_keeps
    | with_reducible apply State.pump_keeps
    | simp only [Keeps.mk_iff]
    | with_reducible apply KeepsCore.of
    | (split <;> (rename_i hp; have hp := congrArg Prod.fst hp; dsimp only at hp; subst hp))
    | split

theorem State.setRxLanes_keeps {z s : State} {m : Nat} (hz : Keeps z s) :
    Keeps z (State.setRxLanes s m) := by
  unfold State.setRxLanes
  try dsimp only
  repeat' first
    | (with_reducible intro _)
    | with_reducible assumption
    | with_reducible apply Keeps.ite
    | with_reducible apply State.setFld_keeps
    | with_reducible apply State.sendIdle_keeps
    | simp only [Keeps.mk_iff]
    | with_reducible apply KeepsCore.of
    | (split <;> (rename_i hp; have hp := congrArg Prod.fst hp; dsimp only at hp; subst hp))
    | split

theorem State.setLane_keeps {z s : State} {d : Nat} {n : Nat} {st : Nat} (hz : Keeps z s) :
    Keeps z (State.setLane s d n st) := by
  unfold State.setLane
  try dsimp only
  repeat' first
    | (with_reducible intro _)
    | with_reducible assumption
    | with_reducible apply Keeps.ite
    | with_reducible apply State.setFld_keeps
    | with_reducible apply State.raise_keeps
    | simp only [Keeps.mk_iff]
    | with_reducible apply KeepsCore.of
    | (split <;> (rename_i hp; have hp := congrArg Prod.fst hp; dsimp only at hp; subst hp))
    | split

theorem State.laneNotGood_keeps {z s : State} {d : Nat} {n : Nat} (hz : Keeps z s) :
    Keeps z (State.laneNotGood s d n) := by
  unfold State.laneNotGood
  try dsimp only
  repeat' first
    | (with_reducible intro _)
    | with_reducible assumption
    | with_reducible apply Keeps.ite
    | with_reducible apply State.setBit_keeps
    | with_reducible apply State.setRxLanes_keeps
    | simp only [Keeps.mk_iff]
    | with_reducible apply KeepsCore.of
    | (split <;> (rename_i hp; have hp := congrArg Prod.fst hp; dsimp only at hp; subst hp))
    | split

theorem State.loseLane_keeps {z s : State} {d : Nat} {n : Nat} {underWay : Bool} (hz : Keeps z s) :
    Keeps z (State.loseLane s d n underWay) := by
  unfold State.loseLane
  try dsimp only
  repeat' first
    | (with_reducible intro _)
    | with_reducible assumption
    | with_reducible apply Keeps.ite
    | with_reducible apply State.bump_keeps
    | with_reducible apply State.setBit_keeps
    | with_reducible apply State.recvLost_keeps
    | with_reducible apply State.setLane_keeps
    | with_reducible apply State.setFld_keeps
    | with_reducible apply State.when_keeps
    | with_reducible apply State.laneNotGood_keeps
    | with_reducible apply State.subOutage_keeps
    | with_reducible apply State.restripe_keeps
    | simp only [Keeps.mk_iff]
    | with_reducible apply KeepsCore.of
    | (split <;> (rename_i hp; have hp := congrArg Prod.fst hp; dsimp only at hp; subst hp))
    | split

theorem State.loseLanes_keeps {z s : State} {d : Nat} (hz : Keeps z s) :
    Keeps z (State.loseLanes s d) := by
  unfold State.loseLanes
  try dsimp only
  repeat' first
    | (with_reducible intro _)
    | with_reducible assumption
    | with_reducible apply Keeps.ite
    | with_reducible apply State.each_keeps
    | with_reducible apply State.loseLane_keeps
    | simp only [Keeps.mk_iff]
    | with_reducible apply KeepsCore.of
    | (split <;> (rename_i hp; have hp := congrArg Prod.fst hp; dsimp only at hp; subst hp))
    | split

end Sys2Proof.Machine
end

