-- ==== Sys2Proof/Laws/KeepsThermBase.lean ====
section
/-! SUPPORT. One lemma for each operation of Machine/ThermBase.lean: it keeps what `Keeps` names. -/

namespace Sys2Proof.Machine

set_option linter.all false

theorem State.modTherm_keeps {z s : State} {d : Nat} {f : Therm → Therm} (hz : Keeps z s) :
    Keeps z (State.modTherm s d f) := by
  unfold State.modTherm
  try dsimp only
  repeat' first
    | (with_reducible intro _)
    | with_reducible assumption
    | with_reducible apply Keeps.ite
    | simp only [Keeps.mk_iff]
    | with_reducible apply KeepsCore.of
    | (split <;> (rename_i hp; have hp := congrArg Prod.fst hp; dsimp only at hp; subst hp))
    | split

theorem State.modAvs_keeps {z s : State} {d : Nat} {f : Avs → Avs} (hz : Keeps z s) :
    Keeps z (State.modAvs s d f) := by
  unfold State.modAvs
  try dsimp only
  repeat' first
    | (with_reducible intro _)
    | with_reducible assumption
    | with_reducible apply Keeps.ite
    | simp only [Keeps.mk_iff]
    | with_reducible apply KeepsCore.of
    | (split <;> (rename_i hp; have hp := congrArg Prod.fst hp; dsimp only at hp; subst hp))
    | split

theorem State.pmbStart_keeps {z s : State}  (hz : Keeps z s) :
    Keeps z (State.pmbStart s) := by
  unfold State.pmbStart
  try dsimp only
  repeat' first
    | (with_reducible intro _)
    | with_reducible assumption
    | with_reducible apply Keeps.ite
    | with_reducible apply State.send_keeps
    | simp only [Keeps.mk_iff]
    | with_reducible apply KeepsCore.of
    | (split <;> (rename_i hp; have hp := congrArg Prod.fst hp; dsimp only at hp; subst hp))
    | split

theorem State.pmbAsk_keeps {z s : State} {d : Nat} {why : PmbWhy} {value : Nat} (hz : Keeps z s) :
    Keeps z (State.pmbAsk s d why value) := by
  unfold State.pmbAsk
  try dsimp only
  repeat' first
    | (with_reducible intro _)
    | with_reducible assumption
    | with_reducible apply Keeps.ite
    | with_reducible apply State.when_keeps
    | with_reducible apply State.pmbStart_keeps
    | simp only [Keeps.mk_iff]
    | with_reducible apply KeepsCore.of
    | (split <;> (rename_i hp; have hp := congrArg Prod.fst hp; dsimp only at hp; subst hp))
    | split

theorem State.throtPin_keeps {z s : State}  (hz : Keeps z s) :
    Keeps z (State.throtPin s) := by
  unfold State.throtPin
  try dsimp only
  repeat' first
    | (with_reducible intro _)
    | with_reducible assumption
    | with_reducible apply Keeps.ite
    | with_reducible apply State.setBit_keeps
    | simp only [Keeps.mk_iff]
    | with_reducible apply KeepsCore.of
    | (split <;> (rename_i hp; have hp := congrArg Prod.fst hp; dsimp only at hp; subst hp))
    | split

theorem State.thermalOff_keeps {z s : State} {d : Nat} (hz : Keeps z s) :
    Keeps z (State.thermalOff s d) := by
  unfold State.thermalOff
  try dsimp only
  repeat' first
    | (with_reducible intro _)
    | with_reducible assumption
    | with_reducible apply Keeps.ite
    | with_reducible apply State.setBit_keeps
    | with_reducible apply State.pmbAsk_keeps
    | with_reducible apply State.journal_keeps
    | with_reducible apply State.when_keeps
    | with_reducible apply State.snuff_keeps
    | simp only [Keeps.mk_iff]
    | with_reducible apply KeepsCore.of
    | (split <;> (rename_i hp; have hp := congrArg Prod.fst hp; dsimp only at hp; subst hp))
    | split

end Sys2Proof.Machine
end

