-- ==== Sys2Proof/Laws/KeepsReplan.lean ====
section
/-! SUPPORT. One lemma for each operation of Machine/Replan.lean: it keeps what `Keeps` names. -/

namespace Sys2Proof.Machine

set_option linter.all false

theorem State.startHandover_keeps {z s : State}  (hz : Keeps z s) :
    Keeps z (State.startHandover s) := by
  unfold State.startHandover
  try dsimp only
  repeat' first
    | (with_reducible intro _)
    | with_reducible assumption
    | with_reducible apply Keeps.ite
    | with_reducible apply State.setGates_keeps
    | simp only [Keeps.mk_iff]
    | with_reducible apply KeepsCore.of
    | (split <;> (rename_i hp; have hp := congrArg Prod.fst hp; dsimp only at hp; subst hp))
    | split

theorem State.giveUp_keeps {z s : State}  (hz : Keeps z s) :
    Keeps z (State.giveUp s) := by
  unfold State.giveUp
  try dsimp only
  repeat' first
    | (with_reducible intro _)
    | with_reducible assumption
    | with_reducible apply Keeps.ite
    | with_reducible apply State.startHandover_keeps
    | with_reducible apply State.when_keeps
    | with_reducible apply State.bump_keeps
    | with_reducible apply State.releaseFlame_keeps
    | simp only [Keeps.mk_iff]
    | with_reducible apply KeepsCore.of
    | (split <;> (rename_i hp; have hp := congrArg Prod.fst hp; dsimp only at hp; subst hp))
    | split

theorem State.passItems_keeps {z s : State} {d : Nat} (hz : Keeps z s) :
    Keeps z (State.passItems s d) := by
  unfold State.passItems
  try dsimp only
  repeat' first
    | (with_reducible intro _)
    | with_reducible assumption
    | with_reducible apply Keeps.ite
    | with_reducible apply State.each_keeps
    | with_reducible apply State.when_keeps
    | with_reducible apply State.fail_keeps
    | simp only [Keeps.mk_iff]
    | with_reducible apply KeepsCore.of
    | (split <;> (rename_i hp; have hp := congrArg Prod.fst hp; dsimp only at hp; subst hp))
    | split

theorem State.endWaits_keeps {z s : State} {m : Nat} (hz : Keeps z s) :
    Keeps z (State.endWaits s m) := by
  unfold State.endWaits
  try dsimp only
  repeat' first
    | (with_reducible intro _)
    | with_reducible assumption
    | with_reducible apply Keeps.ite
    | with_reducible apply State.each_keeps
    | with_reducible apply State.when_keeps
    | with_reducible apply State.modChan_keeps
    | simp only [Keeps.mk_iff]
    | with_reducible apply KeepsCore.of
    | (split <;> (rename_i hp; have hp := congrArg Prod.fst hp; dsimp only at hp; subst hp))
    | split

theorem State.shedChan_keeps {z s : State} {n : Nat} {cause : Nat} (hz : Keeps z s) :
    Keeps z (State.shedChan s n cause) := by
  unfold State.shedChan
  try dsimp only
  repeat' first
    | (with_reducible intro _)
    | with_reducible assumption
    | with_reducible apply Keeps.ite
    | with_reducible apply State.modChan_keeps
    | simp only [Keeps.mk_iff]
    | with_reducible apply KeepsCore.of
    | (split <;> (rename_i hp; have hp := congrArg Prod.fst hp; dsimp only at hp; subst hp))
    | split

theorem State.freeCapacity_keeps {z s : State} {n : Nat} (hz : Keeps z s) :
    Keeps z (State.freeCapacity s n) := by
  unfold State.freeCapacity
  try dsimp only
  repeat' first
    | (with_reducible intro _)
    | with_reducible assumption
    | with_reducible apply Keeps.ite
    | with_reducible apply State.modChan_keeps
    | with_reducible apply State.stage_keeps
    | with_reducible apply State.freeDescs_keeps
    | with_reducible apply State.endAllocs_keeps
    | with_reducible apply State.endWaits_keeps
    | with_reducible apply State.redim_keeps
    | with_reducible apply State.showAll_keeps
    | with_reducible apply State.vacate_keeps
    | with_reducible apply State.reportDims_keeps
    | simp only [Keeps.mk_iff]
    | with_reducible apply KeepsCore.of
    | (split <;> (rename_i hp; have hp := congrArg Prod.fst hp; dsimp only at hp; subst hp))
    | split

theorem State.freeIfEnded_keeps {z s : State} {n : Nat} (hz : Keeps z s) :
    Keeps z (State.freeIfEnded s n) := by
  unfold State.freeIfEnded
  try dsimp only
  repeat' first
    | (with_reducible intro _)
    | with_reducible assumption
    | with_reducible apply Keeps.ite
    | with_reducible apply State.when_keeps
    | with_reducible apply State.freeCapacity_keeps
    | simp only [Keeps.mk_iff]
    | with_reducible apply KeepsCore.of
    | (split <;> (rename_i hp; have hp := congrArg Prod.fst hp; dsimp only at hp; subst hp))
    | split

theorem State.shedNow_keeps {z s : State} {n : Nat} {cause : Nat} (hz : Keeps z s) :
    Keeps z (State.shedNow s n cause) := by
  unfold State.shedNow
  try dsimp only
  repeat' first
    | (with_reducible intro _)
    | with_reducible assumption
    | with_reducible apply Keeps.ite
    | with_reducible apply State.modChan_keeps
    | with_reducible apply State.each_keeps
    | with_reducible apply State.when_keeps
    | with_reducible apply State.fail_keeps
    | with_reducible apply State.freeItemDescs_keeps
    | with_reducible apply State.setChan_keeps
    | with_reducible apply State.countShed_keeps
    | with_reducible apply State.freeCapacity_keeps
    | with_reducible apply State.showSums_keeps
    | simp only [Keeps.mk_iff]
    | with_reducible apply KeepsCore.of
    | (split <;> (rename_i hp; have hp := congrArg Prod.fst hp; dsimp only at hp; subst hp))
    | split

theorem State.reseat_keeps {z s : State} {n : Nat} (hz : Keeps z s) :
    Keeps z (State.reseat s n) := by
  unfold State.reseat
  try dsimp only
  repeat' first
    | (with_reducible intro _)
    | with_reducible assumption
    | with_reducible apply Keeps.ite
    | with_reducible apply State.freeDescs_keeps
    | with_reducible apply State.endAllocs_keeps
    | with_reducible apply State.each_keeps
    | with_reducible apply State.when_keeps
    | with_reducible apply State.enqueue_keeps
    | with_reducible apply State.countWaits_keeps
    | with_reducible apply done_keeps
    | simp only [Keeps.mk_iff]
    | with_reducible apply KeepsCore.of
    | (split <;> (rename_i hp; have hp := congrArg Prod.fst hp; dsimp only at hp; subst hp))
    | split

theorem State.restart_keeps {z s : State} {n : Nat} {die : Nat} {keep : Bool} {waits : List Nat} (hz : Keeps z s) :
    Keeps z (State.restart s n die keep waits) := by
  unfold State.restart
  try dsimp only
  repeat' first
    | (with_reducible intro _)
    | with_reducible assumption
    | with_reducible apply Keeps.ite
    | with_reducible apply State.makePool_keeps
    | with_reducible apply State.showRank_keeps
    | with_reducible apply State.modChan_keeps
    | with_reducible apply State.setFld_keeps
    | with_reducible apply State.raise_keeps
    | with_reducible apply State.when_keeps
    | with_reducible apply State.each_keeps
    | with_reducible apply State.becomeRepeat_keeps
    | with_reducible apply State.fail_keeps
    | with_reducible apply State.reseat_keeps
    | simp only [Keeps.mk_iff]
    | with_reducible apply KeepsCore.of
    | (split <;> (rename_i hp; have hp := congrArg Prod.fst hp; dsimp only at hp; subst hp))
    | split

theorem State.shedLost_keeps {z s : State} {n : Nat} {die : Nat} {keep : Bool} {old : Option Placement} (hz : Keeps z s) :
    Keeps z (State.shedLost s n die keep old) := by
  unfold State.shedLost
  try dsimp only
  repeat' first
    | (with_reducible intro _)
    | with_reducible assumption
    | with_reducible apply Keeps.ite
    | with_reducible apply State.modChan_keeps
    | with_reducible apply State.shedChan_keeps
    | with_reducible apply State.when_keeps
    | with_reducible apply State.each_keeps
    | with_reducible apply State.becomeRepeat_keeps
    | with_reducible apply State.fail_keeps
    | with_reducible apply State.modItem_keeps
    | with_reducible apply State.freeItemDescs_keeps
    | with_reducible apply done_keeps
    | simp only [Keeps.mk_iff]
    | with_reducible apply KeepsCore.of
    | (split <;> (rename_i hp; have hp := congrArg Prod.fst hp; dsimp only at hp; subst hp))
    | split

theorem State.replace_keeps {z : State} (k : Nat) {n : Nat} :
    ∀ {gone : List Nat} {s : State}, Keeps z s → Keeps z (State.replace k n gone s).1 := by
  induction k with
  | zero => intro _ s h; exact h
  | succ k ih =>
    intro _ s h
    unfold State.replace
    split
    · exact State.placeDimmed_keeps (by assumption) h
    · split
      · exact h
      · exact ih (State.shedChan_keeps h)

theorem State.offer_keeps {z s : State}  (hz : Keeps z s) :
    Keeps z (State.offer s) := by
  unfold State.offer
  try dsimp only
  repeat' first
    | (with_reducible intro _)
    | with_reducible assumption
    | with_reducible apply Keeps.ite
    | with_reducible apply State.each_keeps
    | with_reducible apply State.setFld_keeps
    | with_reducible apply State.modChan_keeps
    | with_reducible apply State.showRank_keeps
    | with_reducible apply State.makePool_keeps
    | with_reducible apply State.setChan_keeps
    | refine State.placeFull_keeps (by with_reducible assumption) ?_
    | simp only [Keeps.mk_iff]
    | with_reducible apply KeepsCore.of
    | (split <;> (rename_i hp; have hp := congrArg Prod.fst hp; dsimp only at hp; subst hp))
    | split

theorem State.replan_keeps {z s : State} {lost : List Nat} {die : Nat} {keep : Bool} (hz : Keeps z s) :
    Keeps z (State.replan s lost die keep) := by
  unfold State.replan
  try dsimp only
  repeat' first
    | (with_reducible intro _)
    | with_reducible assumption
    | with_reducible apply Keeps.ite
    | with_reducible apply Keeps.foldl
    | with_reducible apply Keeps.foldlFst
    | with_reducible apply State.dropLims_keeps
    | with_reducible apply State.each_keeps
    | with_reducible apply State.modChan_keeps
    | with_reducible apply State.redim_keeps
    | with_reducible apply State.replace_keeps
    | with_reducible apply State.showAll_keeps
    | with_reducible apply State.restart_keeps
    | with_reducible apply State.shedLost_keeps
    | with_reducible apply State.offer_keeps
    | with_reducible apply State.reportDims_keeps
    | with_reducible apply State.noteShared_keeps
    | simp only [Keeps.mk_iff]
    | with_reducible apply KeepsCore.of
    | (split <;> (rename_i hp; have hp := congrArg Prod.fst hp; dsimp only at hp; subst hp))
    | split

theorem State.lossHandover_keeps {z s : State} {lost : List Nat} (hz : Keeps z s) :
    Keeps z (State.lossHandover s lost) := by
  unfold State.lossHandover
  try dsimp only
  repeat' first
    | (with_reducible intro _)
    | with_reducible assumption
    | with_reducible apply Keeps.ite
    | with_reducible apply State.when_keeps
    | with_reducible apply State.giveUp_keeps
    | simp only [Keeps.mk_iff]
    | with_reducible apply KeepsCore.of
    | (split <;> (rename_i hp; have hp := congrArg Prod.fst hp; dsimp only at hp; subst hp))
    | split

theorem State.dropLater_keeps {z s : State} {d : Nat} {c : Option Nat} (hz : Keeps z s) :
    Keeps z (State.dropLater s d c) := by
  unfold State.dropLater
  try dsimp only
  repeat' first
    | (with_reducible intro _)
    | with_reducible assumption
    | with_reducible apply Keeps.ite
    | with_reducible apply State.each_keeps
    | with_reducible apply State.modChan_keeps
    | simp only [Keeps.mk_iff]
    | with_reducible apply KeepsCore.of
    | (split <;> (rename_i hp; have hp := congrArg Prod.fst hp; dsimp only at hp; subst hp))
    | split

theorem State.clusterFailed_keeps {z s : State} {d : Nat} {c : Nat} (hz : Keeps z s) :
    Keeps z (State.clusterFailed s d c) := by
  unfold State.clusterFailed
  try dsimp only
  repeat' first
    | (with_reducible intro _)
    | with_reducible assumption
    | with_reducible apply Keeps.ite
    | with_reducible apply State.dropLater_keeps
    | with_reducible apply State.lossHandover_keeps
    | with_reducible apply State.setBit_keeps
    | with_reducible apply State.replan_keeps
    | simp only [Keeps.mk_iff]
    | with_reducible apply KeepsCore.of
    | (split <;> (rename_i hp; have hp := congrArg Prod.fst hp; dsimp only at hp; subst hp))
    | split

theorem State.forceEmbers_keeps {z s : State} {n : Nat} {parts : List Nat} {st : Nat} {cause : Nat} {die : Nat} (hz : Keeps z s) :
    Keeps z (State.forceEmbers s n parts st cause die) := by
  unfold State.forceEmbers
  try dsimp only
  repeat' first
    | (with_reducible intro _)
    | with_reducible assumption
    | with_reducible apply Keeps.ite
    | with_reducible apply State.each_keeps
    | with_reducible apply State.modItem_keeps
    | with_reducible apply State.when_keeps
    | with_reducible apply State.fail_keeps
    | with_reducible apply done_keeps
    | simp only [Keeps.mk_iff]
    | with_reducible apply KeepsCore.of
    | (split <;> (rename_i hp; have hp := congrArg Prod.fst hp; dsimp only at hp; subst hp))
    | split

theorem State.leadLost_keeps {z s : State}  (hz : Keeps z s) :
    Keeps z (State.leadLost s) := by
  unfold State.leadLost
  try dsimp only
  repeat' first
    | (with_reducible intro _)
    | with_reducible assumption
    | with_reducible apply Keeps.ite
    | with_reducible apply State.abortSession_keeps
    | with_reducible apply State.setFld_keeps
    | with_reducible apply State.setBit_keeps
    | with_reducible apply State.raiseT_keeps
    | with_reducible apply State.snuff_keeps
    | simp only [Keeps.mk_iff]
    | with_reducible apply KeepsCore.of
    | (split <;> (rename_i hp; have hp := congrArg Prod.fst hp; dsimp only at hp; subst hp))
    | split

theorem State.startE5_keeps {z s : State}  (hz : Keeps z s) :
    Keeps z (State.startE5 s) := by
  unfold State.startE5
  try dsimp only
  repeat' first
    | (with_reducible intro _)
    | with_reducible assumption
    | with_reducible apply Keeps.ite
    | with_reducible apply State.enterPhase_keeps
    | with_reducible apply State.startLanes_keeps
    | with_reducible apply State.each_keeps
    | with_reducible apply State.setFld_keeps
    | with_reducible apply State.setLane_keeps
    | with_reducible apply State.when_keeps
    | simp only [Keeps.mk_iff]
    | with_reducible apply KeepsCore.of
    | (split <;> (rename_i hp; have hp := congrArg Prod.fst hp; dsimp only at hp; subst hp))
    | split

theorem State.endE4_keeps {z s : State}  (hz : Keeps z s) :
    Keeps z (State.endE4 s) := by
  unfold State.endE4
  try dsimp only
  repeat' first
    | (with_reducible intro _)
    | with_reducible assumption
    | with_reducible apply Keeps.ite
    | with_reducible apply State.when_keeps
    | with_reducible apply State.startE5_keeps
    | simp only [Keeps.mk_iff]
    | with_reducible apply KeepsCore.of
    | (split <;> (rename_i hp; have hp := congrArg Prod.fst hp; dsimp only at hp; subst hp))
    | split

theorem State.retireNow_keeps {z s : State} {d : Nat} {reason : Nat} (hz : Keeps z s) :
    Keeps z (State.retireNow s d reason) := by
  unfold State.retireNow
  try dsimp only
  repeat' first
    | (with_reducible intro _)
    | with_reducible assumption
    | with_reducible apply Keeps.ite
    | with_reducible apply State.setBit_keeps
    | with_reducible apply State.setFld_keeps
    | with_reducible apply State.each_keeps
    | with_reducible apply State.setMc_keeps
    | with_reducible apply State.memStop_keeps
    | with_reducible apply State.raiseT_keeps
    | with_reducible apply State.masterReset_keeps
    | with_reducible apply State.when_keeps
    | with_reducible apply State.leadLost_keeps
    | with_reducible apply State.losePorts_keeps
    | with_reducible apply State.loseCopies_keeps
    | with_reducible apply State.restartBufs_keeps
    | with_reducible apply State.loseLanes_keeps
    | with_reducible apply State.forceEmbers_keeps
    | with_reducible apply State.dropLater_keeps
    | with_reducible apply State.replan_keeps
    | with_reducible apply State.thermalOff_keeps
    | with_reducible apply State.endE4_keeps
    | simp only [Keeps.mk_iff]
    | with_reducible apply KeepsCore.of
    | (split <;> (rename_i hp; have hp := congrArg Prod.fst hp; dsimp only at hp; subst hp))
    | split

theorem State.retire_keeps {z s : State} {d : Nat} {reason : Nat} (hz : Keeps z s) :
    Keeps z (State.retire s d reason) := by
  unfold State.retire
  try dsimp only
  repeat' first
    | (with_reducible intro _)
    | with_reducible assumption
    | with_reducible apply Keeps.ite
    | with_reducible apply State.giveUp_keeps
    | with_reducible apply State.setBit_keeps
    | with_reducible apply State.retireNow_keeps
    | simp only [Keeps.mk_iff]
    | with_reducible apply KeepsCore.of
    | (split <;> (rename_i hp; have hp := congrArg Prod.fst hp; dsimp only at hp; subst hp))
    | split

theorem State.dieEmbers_keeps {z s : State} {d : Nat} (hz : Keeps z s) :
    Keeps z (State.dieEmbers s d) := by
  unfold State.dieEmbers
  try dsimp only
  repeat' first
    | (with_reducible intro _)
    | with_reducible assumption
    | with_reducible apply Keeps.ite
    | with_reducible apply State.each_keeps
    | with_reducible apply State.forceEmbers_keeps
    | simp only [Keeps.mk_iff]
    | with_reducible apply KeepsCore.of
    | (split <;> (rename_i hp; have hp := congrArg Prod.fst hp; dsimp only at hp; subst hp))
    | split

theorem State.memLost_keeps {z s : State} {d : Nat} (hz : Keeps z s) :
    Keeps z (State.memLost s d) := by
  unfold State.memLost
  try dsimp only
  repeat' first
    | (with_reducible intro _)
    | with_reducible assumption
    | with_reducible apply Keeps.ite
    | with_reducible apply State.memStop_keeps
    | with_reducible apply State.dieEmbers_keeps
    | with_reducible apply State.each_keeps
    | with_reducible apply State.modMchan_keeps
    | with_reducible apply State.countPoison_keeps
    | with_reducible apply State.modMctl_keeps
    | with_reducible apply State.setBit_keeps
    | with_reducible apply State.showPool_keeps
    | with_reducible apply State.restartBufs_keeps
    | exact fun _ h => h
    | exact fun _ _ => rfl
    | exact ChanKeeps.poison _ _
    | simp only [Keeps.mk_iff]
    | with_reducible apply KeepsCore.of
    | (split <;> (rename_i hp; have hp := congrArg Prod.fst hp; dsimp only at hp; subst hp))
    | split

theorem State.failMc_keeps {z s : State} {d : Nat} {k : Nat} (hz : Keeps z s) :
    Keeps z (State.failMc s d k) := by
  unfold State.failMc
  try dsimp only
  repeat' first
    | (with_reducible intro _)
    | with_reducible assumption
    | with_reducible apply Keeps.ite
    | with_reducible apply State.setMc_keeps
    | with_reducible apply State.when_keeps
    | with_reducible apply State.giveUp_keeps
    | with_reducible apply State.passItems_keeps
    | with_reducible apply State.memLost_keeps
    | simp only [Keeps.mk_iff]
    | with_reducible apply KeepsCore.of
    | (split <;> (rename_i hp; have hp := congrArg Prod.fst hp; dsimp only at hp; subst hp))
    | split

end Sys2Proof.Machine
end

