-- ==== Sys2Proof/Laws/KeepsEgress.lean ====
section
/-! SUPPORT. One lemma for each operation of Machine/Egress.lean: it keeps what `Keeps` names. -/

namespace Sys2Proof.Machine

set_option linter.all false

theorem execDatagramRelease_keeps {z s : State} {dt : Nat} {i : Fin 2048} {seq : Nat} {blue : Bool} (hz : Keeps z s) :
    KeepsOut z (execDatagramRelease dt i seq blue s) := by
  unfold execDatagramRelease
  try dsimp only
  repeat' first
    | (with_reducible intro _)
    | with_reducible assumption
    | with_reducible apply KeepsOut.next
    | with_reducible apply KeepsOut.ite
    | with_reducible apply done_keeps
    | with_reducible apply Keeps.ite
    | with_reducible apply State.elapse_keeps
    | with_reducible apply State.retire_keeps
    | with_reducible apply State.handOver_keeps
    | with_reducible apply done_keeps
    | simp only [Keeps.mk_iff]
    | with_reducible apply KeepsCore.of
    | (split <;> (rename_i hp; have hp := congrArg Prod.fst hp; dsimp only at hp; subst hp))
    | split

theorem State.deferFrame_keeps {z s : State} {f : QFrame} (hz : Keeps z s) :
    Keeps z (State.deferFrame s f) := by
  unfold State.deferFrame
  try dsimp only
  repeat' first
    | (with_reducible intro _)
    | with_reducible assumption
    | with_reducible apply Keeps.ite
    | with_reducible apply State.discardFrame_keeps
    | with_reducible apply State.bump_keeps
    | simp only [Keeps.mk_iff]
    | with_reducible apply KeepsCore.of
    | (split <;> (rename_i hp; have hp := congrArg Prod.fst hp; dsimp only at hp; subst hp))
    | split

theorem State.charge_keeps {z s : State} {f : QFrame} {onLine : Bool} (hz : Keeps z s) :
    Keeps z (State.charge s f onLine) := by
  unfold State.charge
  try dsimp only
  repeat' first
    | (with_reducible intro _)
    | with_reducible assumption
    | with_reducible apply Keeps.ite
    | with_reducible apply State.modFlow_keeps
    | with_reducible apply State.freshId_keeps
    | simp only [Keeps.mk_iff]
    | with_reducible apply KeepsCore.of
    | (split <;> (rename_i hp; have hp := congrArg Prod.fst hp; dsimp only at hp; subst hp))
    | split

theorem State.countSent_keeps {z s : State} {f : QFrame} (hz : Keeps z s) :
    Keeps z (State.countSent s f) := by
  unfold State.countSent
  try dsimp only
  repeat' first
    | (with_reducible intro _)
    | with_reducible assumption
    | with_reducible apply Keeps.ite
    | with_reducible apply State.bump_keeps
    | with_reducible apply State.when_keeps
    | simp only [Keeps.mk_iff]
    | with_reducible apply KeepsCore.of
    | (split <;> (rename_i hp; have hp := congrArg Prod.fst hp; dsimp only at hp; subst hp))
    | split

theorem State.trimReplay_keeps {z : State} (k : Nat) :
    ∀ {a0 : Nat} {s : State}, Keeps z s → Keeps z (State.trimReplay k a0 s) := by
  induction k with
  | zero =>
    intros
    assumption
  | succ k ih =>
    intros
    unfold State.trimReplay
    try dsimp only
    repeat' first
      | (with_reducible intro _)
      | with_reducible assumption
      | with_reducible apply Keeps.ite
      | with_reducible apply ih
      | with_reducible apply State.each_keeps
      | with_reducible apply State.when_keeps
      | with_reducible apply State.unconfirm_keeps
      | with_reducible apply State.raise_keeps
      | with_reducible apply State.bump_keeps
      | simp only [Keeps.mk_iff]
      | with_reducible apply KeepsCore.of
      | split

theorem State.keepReplay_keeps {z s : State} {f : QFrame} (hz : Keeps z s) :
    Keeps z (State.keepReplay s f) := by
  unfold State.keepReplay
  try dsimp only
  repeat' first
    | (with_reducible intro _)
    | with_reducible assumption
    | with_reducible apply Keeps.ite
    | with_reducible apply State.trimReplay_keeps
    | simp only [Keeps.mk_iff]
    | with_reducible apply KeepsCore.of
    | (split <;> (rename_i hp; have hp := congrArg Prod.fst hp; dsimp only at hp; subst hp))
    | split

theorem State.noteRequest_keeps {z s : State} {f : QFrame} (hz : Keeps z s) :
    Keeps z (State.noteRequest s f) := by
  unfold State.noteRequest
  try dsimp only
  repeat' first
    | (with_reducible intro _)
    | with_reducible assumption
    | with_reducible apply Keeps.ite
    | with_reducible apply State.when_keeps
    | simp only [Keeps.mk_iff]
    | with_reducible apply KeepsCore.of
    | (split <;> (rename_i hp; have hp := congrArg Prod.fst hp; dsimp only at hp; subst hp))
    | split

theorem State.keepCopy_keeps {z s : State} {f : QFrame} (hz : Keeps z s) :
    Keeps z (State.keepCopy s f) := by
  unfold State.keepCopy
  try dsimp only
  repeat' first
    | (with_reducible intro _)
    | with_reducible assumption
    | with_reducible apply Keeps.ite
    | simp only [Keeps.mk_iff]
    | with_reducible apply KeepsCore.of
    | (split <;> (rename_i hp; have hp := congrArg Prod.fst hp; dsimp only at hp; subst hp))
    | split

theorem State.takeLine_keeps {z s : State} {f : QFrame} (hz : Keeps z s) :
    Keeps z (State.takeLine s f) := by
  unfold State.takeLine
  try dsimp only
  repeat' first
    | (with_reducible intro _)
    | with_reducible assumption
    | with_reducible apply Keeps.ite
    | simp only [Keeps.mk_iff]
    | with_reducible apply KeepsCore.of
    | (split <;> (rename_i hp; have hp := congrArg Prod.fst hp; dsimp only at hp; subst hp))
    | split

theorem State.sendFrame_keeps {z s : State} {f : QFrame} (hz : Keeps z s) :
    Keeps z (State.sendFrame s f) := by
  unfold State.sendFrame
  try dsimp only
  repeat' first
    | (with_reducible intro _)
    | with_reducible assumption
    | with_reducible apply Keeps.ite
    | with_reducible apply State.when_keeps
    | with_reducible apply State.charge_keeps
    | with_reducible apply State.keepCopy_keeps
    | with_reducible apply State.dropFrame_keeps
    | with_reducible apply State.bump_keeps
    | with_reducible apply State.keepReplay_keeps
    | with_reducible apply State.takeLine_keeps
    | with_reducible apply State.countSent_keeps
    | with_reducible apply State.send_keeps
    | with_reducible apply State.noteRequest_keeps
    | with_reducible apply State.freshId_keeps
    | with_reducible apply State.leaves_keeps
    | simp only [Keeps.mk_iff]
    | with_reducible apply KeepsCore.of
    | (split <;> (rename_i hp; have hp := congrArg Prod.fst hp; dsimp only at hp; subst hp))
    | split

theorem execFrameSelect_keeps {z s : State} {dt : Nat} {p : Fin 8} {q : Fin 4} {reads : List (List Byte)} {noCopy : Bool} (hz : Keeps z s) :
    KeepsOut z (execFrameSelect dt p q reads noCopy s) := by
  unfold execFrameSelect
  try dsimp only
  repeat' first
    | (with_reducible intro _)
    | with_reducible assumption
    | with_reducible apply KeepsOut.next
    | with_reducible apply KeepsOut.ite
    | with_reducible apply done_keeps
    | with_reducible apply Keeps.ite
    | with_reducible apply State.elapse_keeps
    | with_reducible apply State.settleLeft_keeps
    | with_reducible apply State.each_keeps
    | with_reducible apply State.deferFrame_keeps
    | with_reducible apply State.when_keeps
    | with_reducible apply State.crcChain_keeps
    | with_reducible apply State.sendFrame_keeps
    | with_reducible apply done_keeps
    | simp only [Keeps.mk_iff]
    | with_reducible apply KeepsCore.of
    | (split <;> (rename_i hp; have hp := congrArg Prod.fst hp; dsimp only at hp; subst hp))
    | split

theorem State.tfRateWrite_keeps {z s : State} {i : Nat} {v : Word} (hz : Keeps z s) :
    Keeps z (State.tfRateWrite s i v).1 := by
  unfold State.tfRateWrite
  try dsimp only
  repeat' first
    | (with_reducible intro _)
    | with_reducible assumption
    | with_reducible apply Keeps.ite
    | with_reducible apply State.settleCredit_keeps
    | with_reducible apply State.setFld_keeps
    | with_reducible apply State.mirrorWrite_keeps
    | with_reducible apply State.when_keeps
    | with_reducible apply State.refuse_keeps
    | simp only [Keeps.mk_iff]
    | with_reducible apply KeepsCore.of
    | (split <;> (rename_i hp; have hp := congrArg Prod.fst hp; dsimp only at hp; subst hp))
    | split

theorem execTfRateWrite_keeps {z s : State} {dt : Nat} {i : Fin 2048} {v : Word} (hz : Keeps z s) :
    KeepsOut z (execTfRateWrite dt i v s) := by
  unfold execTfRateWrite
  try dsimp only
  repeat' first
    | (with_reducible intro _)
    | with_reducible assumption
    | with_reducible apply KeepsOut.next
    | with_reducible apply KeepsOut.ite
    | with_reducible apply done_keeps
    | with_reducible apply Keeps.ite
    | with_reducible apply State.elapse_keeps
    | with_reducible apply State.tfRateWrite_keeps
    | with_reducible apply done_keeps
    | simp only [Keeps.mk_iff]
    | with_reducible apply KeepsCore.of
    | (split <;> (rename_i hp; have hp := congrArg Prod.fst hp; dsimp only at hp; subst hp))
    | split

theorem State.gclDataWrite_keeps {z s : State} {p : Nat} {v : Word} (hz : Keeps z s) :
    Keeps z (State.gclDataWrite s p v).1 := by
  unfold State.gclDataWrite
  try dsimp only
  repeat' first
    | (with_reducible intro _)
    | with_reducible assumption
    | with_reducible apply Keeps.ite
    | with_reducible apply State.when_keeps
    | with_reducible apply State.refuse_keeps
    | with_reducible apply State.bump_keeps
    | with_reducible apply State.storeEntry_keeps
    | with_reducible apply State.mirrorWrite_keeps
    | simp only [Keeps.mk_iff]
    | with_reducible apply KeepsCore.of
    | (split <;> (rename_i hp; have hp := congrArg Prod.fst hp; dsimp only at hp; subst hp))
    | split

theorem execTmgGclDataWrite_keeps {z s : State} {dt : Nat} {p : Fin 8} {v : Word} (hz : Keeps z s) :
    KeepsOut z (execTmgGclDataWrite dt p v s) := by
  unfold execTmgGclDataWrite
  try dsimp only
  repeat' first
    | (with_reducible intro _)
    | with_reducible assumption
    | with_reducible apply KeepsOut.next
    | with_reducible apply KeepsOut.ite
    | with_reducible apply done_keeps
    | with_reducible apply Keeps.ite
    | with_reducible apply State.elapse_keeps
    | with_reducible apply State.gclDataWrite_keeps
    | with_reducible apply done_keeps
    | simp only [Keeps.mk_iff]
    | with_reducible apply KeepsCore.of
    | (split <;> (rename_i hp; have hp := congrArg Prod.fst hp; dsimp only at hp; subst hp))
    | split

theorem State.setGateList_keeps {z s : State} {p : Nat} {g : GateList} (hz : Keeps z s) :
    Keeps z (State.setGateList s p g) := by
  unfold State.setGateList
  try dsimp only
  repeat' first
    | (with_reducible intro _)
    | with_reducible assumption
    | with_reducible apply Keeps.ite
    | with_reducible apply State.modGate_keeps
    | with_reducible apply State.wrN_keeps
    | simp only [Keeps.mk_iff]
    | with_reducible apply KeepsCore.of
    | (split <;> (rename_i hp; have hp := congrArg Prod.fst hp; dsimp only at hp; subst hp))
    | split

theorem State.commitGates_keeps {z s : State} {p : Nat} (hz : Keeps z s) :
    Keeps z (State.commitGates s p) := by
  unfold State.commitGates
  try dsimp only
  repeat' first
    | (with_reducible intro _)
    | with_reducible assumption
    | with_reducible apply Keeps.ite
    | with_reducible apply State.bump_keeps
    | with_reducible apply State.setGateList_keeps
    | with_reducible apply State.modGate_keeps
    | with_reducible apply State.setBit_keeps
    | simp only [Keeps.mk_iff]
    | with_reducible apply KeepsCore.of
    | (split <;> (rename_i hp; have hp := congrArg Prod.fst hp; dsimp only at hp; subst hp))
    | split

theorem State.gclCtrlWrite_keeps {z s : State} {p : Nat} {v : Word} (hz : Keeps z s) :
    Keeps z (State.gclCtrlWrite s p v).1 := by
  unfold State.gclCtrlWrite
  try dsimp only
  repeat' first
    | (with_reducible intro _)
    | with_reducible assumption
    | with_reducible apply Keeps.ite
    | with_reducible apply State.when_keeps
    | with_reducible apply State.setFld_keeps
    | with_reducible apply State.commitGates_keeps
    | with_reducible apply State.mirrorWrite_keeps
    | with_reducible apply State.refuse_keeps
    | simp only [Keeps.mk_iff]
    | with_reducible apply KeepsCore.of
    | (split <;> (rename_i hp; have hp := congrArg Prod.fst hp; dsimp only at hp; subst hp))
    | split

theorem execGclCommit_keeps {z s : State} {dt : Nat} {p : Fin 8} {v : Word} (hz : Keeps z s) :
    KeepsOut z (execGclCommit dt p v s) := by
  unfold execGclCommit
  try dsimp only
  repeat' first
    | (with_reducible intro _)
    | with_reducible assumption
    | with_reducible apply KeepsOut.next
    | with_reducible apply KeepsOut.ite
    | with_reducible apply done_keeps
    | with_reducible apply Keeps.ite
    | with_reducible apply State.elapse_keeps
    | with_reducible apply State.gclCtrlWrite_keeps
    | with_reducible apply done_keeps
    | simp only [Keeps.mk_iff]
    | with_reducible apply KeepsCore.of
    | (split <;> (rename_i hp; have hp := congrArg Prod.fst hp; dsimp only at hp; subst hp))
    | split

theorem execGateCycleStart_keeps {z s : State} {dt : Nat} {p : Fin 8} (hz : Keeps z s) :
    KeepsOut z (execGateCycleStart dt p s) := by
  unfold execGateCycleStart
  try dsimp only
  repeat' first
    | (with_reducible intro _)
    | with_reducible assumption
    | with_reducible apply KeepsOut.next
    | with_reducible apply KeepsOut.ite
    | with_reducible apply done_keeps
    | with_reducible apply Keeps.ite
    | with_reducible apply State.elapse_keeps
    | with_reducible apply State.setGateList_keeps
    | with_reducible apply State.modGate_keeps
    | with_reducible apply State.setBit_keeps
    | with_reducible apply State.bump_keeps
    | with_reducible apply done_keeps
    | simp only [Keeps.mk_iff]
    | with_reducible apply KeepsCore.of
    | (split <;> (rename_i hp; have hp := congrArg Prod.fst hp; dsimp only at hp; subst hp))
    | split

theorem execGateEntryExpiry_keeps {z s : State} {dt : Nat} {p : Fin 8} (hz : Keeps z s) :
    KeepsOut z (execGateEntryExpiry dt p s) := by
  unfold execGateEntryExpiry
  try dsimp only
  repeat' first
    | (with_reducible intro _)
    | with_reducible assumption
    | with_reducible apply KeepsOut.next
    | with_reducible apply KeepsOut.ite
    | with_reducible apply done_keeps
    | with_reducible apply Keeps.ite
    | with_reducible apply State.elapse_keeps
    | with_reducible apply State.modGate_keeps
    | with_reducible apply done_keeps
    | simp only [Keeps.mk_iff]
    | with_reducible apply KeepsCore.of
    | (split <;> (rename_i hp; have hp := congrArg Prod.fst hp; dsimp only at hp; subst hp))
    | split

end Sys2Proof.Machine
end

