-- ==== Sys2Proof/Laws/KeepsMgmt.lean ====
section
/-! SUPPORT. One lemma for each operation of Machine/Mgmt.lean: it keeps what `Keeps` names. -/

namespace Sys2Proof.Machine

set_option linter.all false

theorem State.sendBeacon_keeps {z s : State} {port : Option Nat} {dst : Nat} {op : Nat} {flags : Nat} {status : Nat} {seq : Nat} {payload : List Byte} (hz : Keeps z s) :
    Keeps z (State.sendBeacon s port dst op flags status seq payload) := by
  unfold State.sendBeacon
  try dsimp only
  repeat' first
    | (with_reducible intro _)
    | with_reducible assumption
    | with_reducible apply Keeps.ite
    | with_reducible apply State.send_keeps
    | with_reducible apply State.toPort_keeps
    | simp only [Keeps.mk_iff]
    | with_reducible apply KeepsCore.of
    | (split <;> (rename_i hp; have hp := congrArg Prod.fst hp; dsimp only at hp; subst hp))
    | split

theorem State.respond_keeps {z s : State} {m : BeaconMsg} {status : Nat} {payload : List Byte} (hz : Keeps z s) :
    Keeps z (State.respond s m status payload) := by
  unfold State.respond
  try dsimp only
  repeat' first
    | (with_reducible intro _)
    | with_reducible assumption
    | with_reducible apply Keeps.ite
    | with_reducible apply State.sendBeacon_keeps
    | simp only [Keeps.mk_iff]
    | with_reducible apply KeepsCore.of
    | (split <;> (rename_i hp; have hp := congrArg Prod.fst hp; dsimp only at hp; subst hp))
    | split

theorem State.request_keeps {z s : State} {m : BeaconMsg} {op : Nat} {f : State → State} (hz : Keeps z s) (hf : ∀ x, Keeps z x → Keeps z (f x)) :
    Keeps z (State.request s m op f) := by
  unfold State.request
  try dsimp only
  repeat' first
    | (with_reducible intro _)
    | with_reducible assumption
    | with_reducible apply Keeps.ite
    | with_reducible apply State.when_keeps
    | with_reducible apply State.bump_keeps
    | with_reducible apply State.raiseLimited_keeps
    | with_reducible apply State.respond_keeps
    | with_reducible apply hf
    | simp only [Keeps.mk_iff]
    | with_reducible apply KeepsCore.of
    | (split <;> (rename_i hp; have hp := congrArg Prod.fst hp; dsimp only at hp; subst hp))
    | split

theorem State.i2cRefresh_keeps {z s : State}  (hz : Keeps z s) :
    Keeps z (State.i2cRefresh s) := by
  unfold State.i2cRefresh
  try dsimp only
  repeat' first
    | (with_reducible intro _)
    | with_reducible assumption
    | with_reducible apply Keeps.ite
    | simp only [Keeps.mk_iff]
    | with_reducible apply KeepsCore.of
    | (split <;> (rename_i hp; have hp := congrArg Prod.fst hp; dsimp only at hp; subst hp))
    | split

end Sys2Proof.Machine
end

