-- ==== Sys2Proof/Laws/KeepsFlash.lean ====
section
/-! SUPPORT. One lemma for each operation of Machine/Flash.lean: it keeps what `Keeps` names. -/

namespace Sys2Proof.Machine

set_option linter.all false

theorem State.loadWord_keeps {z s : State} {a : Nat} {v : Nat} (hz : Keeps z s) :
    Keeps z (State.loadWord s a v) := by
  unfold State.loadWord
  try dsimp only
  repeat' first
    | (with_reducible intro _)
    | with_reducible assumption
    | with_reducible apply Keeps.ite
    | with_reducible apply State.storeEntry_keeps
    | with_reducible apply State.wrN_keeps
    | with_reducible apply FlashOk.of
    | with_reducible apply FlashOk.program
    | with_reducible apply FlashOk.erase
    | simp only [Keeps.mk_iff]
    | with_reducible apply KeepsCore.of
    | (split <;> (rename_i hp; have hp := congrArg Prod.fst hp; dsimp only at hp; subst hp))
    | split

theorem and_or_self_left {n : Nat} (a b : BitVec n) : a &&& (a ||| b) = a := by
  apply BitVec.eq_of_getLsbD_eq
  intro i _
  simp only [BitVec.getLsbD_and, BitVec.getLsbD_or]
  cases a.getLsbD i <;> simp

theorem State.blow_keeps {z s : State} {hash : BitVec 384} {lock : Bool} {rollback : BitVec 64} (hz : Keeps z s) :
    Keeps z (s.blow hash lock rollback) :=
  hz.trans ⟨rfl, id, id, id, ⟨and_or_self_left _ _, fun h => by simp [State.blow, h], and_or_self_left _ _⟩, Nat.le_refl _,
    Nat.le_refl _, List.suffix_refl _⟩

theorem State.claimKey_keeps {z s : State} {pub : List Byte} (hz : Keeps z s) :
    Keeps z (State.claimKey s pub) := by
  unfold State.claimKey
  try dsimp only
  repeat' first
    | (with_reducible intro _)
    | with_reducible assumption
    | with_reducible apply Keeps.ite
    | with_reducible apply State.blow_keeps
    | with_reducible apply State.setBit_keeps
    | with_reducible apply FlashOk.of
    | with_reducible apply FlashOk.program
    | with_reducible apply FlashOk.erase
    | simp only [Keeps.mk_iff]
    | with_reducible apply KeepsCore.of
    | (split <;> (rename_i hp; have hp := congrArg Prod.fst hp; dsimp only at hp; subst hp))
    | split

theorem State.commitRollback_keeps {z s : State}  (hz : Keeps z s) :
    Keeps z (State.commitRollback s) := by
  unfold State.commitRollback
  try dsimp only
  repeat' first
    | (with_reducible intro _)
    | with_reducible assumption
    | with_reducible apply Keeps.ite
    | with_reducible apply State.when_keeps
    | with_reducible apply State.blow_keeps
    | with_reducible apply State.setFld_keeps
    | with_reducible apply FlashOk.of
    | with_reducible apply FlashOk.program
    | with_reducible apply FlashOk.erase
    | simp only [Keeps.mk_iff]
    | with_reducible apply KeepsCore.of
    | (split <;> (rename_i hp; have hp := congrArg Prod.fst hp; dsimp only at hp; subst hp))
    | split

theorem State.startE3_keeps {z s : State}  (hz : Keeps z s) :
    Keeps z (State.startE3 s) := by
  unfold State.startE3
  try dsimp only
  repeat' first
    | (with_reducible intro _)
    | with_reducible assumption
    | with_reducible apply Keeps.ite
    | with_reducible apply State.enterPhase_keeps
    | with_reducible apply State.send_keeps
    | with_reducible apply FlashOk.of
    | with_reducible apply FlashOk.program
    | with_reducible apply FlashOk.erase
    | simp only [Keeps.mk_iff]
    | with_reducible apply KeepsCore.of
    | (split <;> (rename_i hp; have hp := congrArg Prod.fst hp; dsimp only at hp; subst hp))
    | split

theorem State.recordFail_keeps {z s : State} {cause : Nat} {sect : Nat} {off : Nat} (hz : Keeps z s) :
    Keeps z (State.recordFail s cause sect off) := by
  unfold State.recordFail
  try dsimp only
  repeat' first
    | (with_reducible intro _)
    | with_reducible assumption
    | with_reducible apply Keeps.ite
    | with_reducible apply State.wrN_keeps
    | with_reducible apply FlashOk.of
    | with_reducible apply FlashOk.program
    | with_reducible apply FlashOk.erase
    | simp only [Keeps.mk_iff]
    | with_reducible apply KeepsCore.of
    | (split <;> (rename_i hp; have hp := congrArg Prod.fst hp; dsimp only at hp; subst hp))
    | split

theorem State.choose_keeps {z : State} (l : List CopyHeader) :
    ∀ {s : State}, Keeps z s → Keeps z (s.choose l).1 := by
  induction l with
  | nil => intro s h; exact h
  | cons a r ih =>
    intro s h
    unfold State.choose
    split
    · exact h
    · exact ih (State.recordFail_keeps h)

theorem State.loadSection_keeps {z s : State} {c : Section} (hz : Keeps z s) :
    Keeps z (State.loadSection s c) := by
  unfold State.loadSection
  try dsimp only
  repeat' first
    | (with_reducible intro _)
    | with_reducible assumption
    | with_reducible apply Keeps.ite
    | with_reducible apply State.raise_keeps
    | with_reducible apply State.each_keeps
    | with_reducible apply State.loadWord_keeps
    | with_reducible apply State.setBit_keeps
    | with_reducible apply State.take_keeps
    | with_reducible apply FlashOk.of
    | with_reducible apply FlashOk.program
    | with_reducible apply FlashOk.erase
    | simp only [Keeps.mk_iff]
    | with_reducible apply KeepsCore.of
    | (split <;> (rename_i hp; have hp := congrArg Prod.fst hp; dsimp only at hp; subst hp))
    | split

theorem State.programRecord_keeps {z s : State} {type : Nat} {time : Nat} {payload : List Byte} (hz : Keeps z s) :
    Keeps z (State.programRecord s type time payload) := by
  unfold State.programRecord
  try dsimp only
  repeat' first
    | (with_reducible intro _)
    | with_reducible assumption
    | with_reducible apply Keeps.ite
    | with_reducible apply State.setFlash_keeps
    | with_reducible apply State.wrN_keeps
    | with_reducible apply State.when_keeps
    | with_reducible apply State.bump_keeps
    | with_reducible apply FlashOk.of
    | with_reducible apply FlashOk.program
    | with_reducible apply FlashOk.erase
    | simp only [Keeps.mk_iff]
    | with_reducible apply KeepsCore.of
    | (split <;> (rename_i hp; have hp := congrArg Prod.fst hp; dsimp only at hp; subst hp))
    | split

theorem State.copyForward_keeps {z s : State} {b : List Byte} (hz : Keeps z s) :
    Keeps z (State.copyForward s b) := by
  unfold State.copyForward
  try dsimp only
  repeat' first
    | (with_reducible intro _)
    | with_reducible assumption
    | with_reducible apply Keeps.ite
    | with_reducible apply State.programRecord_keeps
    | with_reducible apply State.take_keeps
    | with_reducible apply FlashOk.of
    | with_reducible apply FlashOk.program
    | with_reducible apply FlashOk.erase
    | simp only [Keeps.mk_iff]
    | with_reducible apply KeepsCore.of
    | (split <;> (rename_i hp; have hp := congrArg Prod.fst hp; dsimp only at hp; subst hp))
    | split

theorem State.eraseSector_keeps {z s : State} {p : Nat} (hz : Keeps z s) :
    Keeps z (State.eraseSector s p) := by
  unfold State.eraseSector
  try dsimp only
  repeat' first
    | (with_reducible intro _)
    | with_reducible assumption
    | with_reducible apply Keeps.ite
    | with_reducible apply State.setFlash_keeps
    | with_reducible apply State.wrN_keeps
    | with_reducible apply FlashOk.of
    | with_reducible apply FlashOk.program
    | with_reducible apply FlashOk.erase
    | simp only [Keeps.mk_iff]
    | with_reducible apply KeepsCore.of
    | (split <;> (rename_i hp; have hp := congrArg Prod.fst hp; dsimp only at hp; subst hp))
    | split

theorem State.makeRoom_keeps {z s : State}  (hz : Keeps z s) :
    Keeps z (State.makeRoom s) := by
  unfold State.makeRoom
  try dsimp only
  repeat' first
    | (with_reducible intro _)
    | with_reducible assumption
    | with_reducible apply Keeps.ite
    | with_reducible apply State.each_keeps
    | with_reducible apply State.take_keeps
    | with_reducible apply State.copyForward_keeps
    | with_reducible apply State.eraseSector_keeps
    | with_reducible apply FlashOk.of
    | with_reducible apply FlashOk.program
    | with_reducible apply FlashOk.erase
    | simp only [Keeps.mk_iff]
    | with_reducible apply KeepsCore.of
    | (split <;> (rename_i hp; have hp := congrArg Prod.fst hp; dsimp only at hp; subst hp))
    | split

theorem execWearLogAppend_keeps {z s : State} {dt : Nat} (hz : Keeps z s) :
    KeepsOut z (execWearLogAppend dt s) := by
  unfold execWearLogAppend
  try dsimp only
  repeat' first
    | (with_reducible intro _)
    | with_reducible assumption
    | with_reducible apply KeepsOut.next
    | with_reducible apply KeepsOut.ite
    | with_reducible apply done_keeps
    | with_reducible apply Keeps.ite
    | with_reducible apply State.elapse_keeps
    | with_reducible apply State.makeRoom_keeps
    | with_reducible apply State.programRecord_keeps
    | with_reducible apply done_keeps
    | with_reducible apply FlashOk.of
    | with_reducible apply FlashOk.program
    | with_reducible apply FlashOk.erase
    | simp only [Keeps.mk_iff]
    | with_reducible apply KeepsCore.of
    | (split <;> (rename_i hp; have hp := congrArg Prod.fst hp; dsimp only at hp; subst hp))
    | split

theorem State.logScanned_keeps {z s : State} {l : List (Nat × Nat × Nat)} (hz : Keeps z s) :
    Keeps z (State.logScanned s l) := by
  unfold State.logScanned
  try dsimp only
  repeat' first
    | (with_reducible intro _)
    | with_reducible assumption
    | with_reducible apply Keeps.ite
    | with_reducible apply State.wrN_keeps
    | with_reducible apply FlashOk.of
    | with_reducible apply FlashOk.program
    | with_reducible apply FlashOk.erase
    | simp only [Keeps.mk_iff]
    | with_reducible apply KeepsCore.of
    | (split <;> (rename_i hp; have hp := congrArg Prod.fst hp; dsimp only at hp; subst hp))
    | split

theorem State.scanLog_keeps {z s : State} {answersA : Bool} (hz : Keeps z s) :
    Keeps z (State.scanLog s answersA) := by
  unfold State.scanLog
  try dsimp only
  repeat' first
    | (with_reducible intro _)
    | with_reducible assumption
    | with_reducible apply Keeps.ite
    | with_reducible apply State.logScanned_keeps
    | with_reducible apply FlashOk.of
    | with_reducible apply FlashOk.program
    | with_reducible apply FlashOk.erase
    | simp only [Keeps.mk_iff]
    | with_reducible apply KeepsCore.of
    | (split <;> (rename_i hp; have hp := congrArg Prod.fst hp; dsimp only at hp; subst hp))
    | split

theorem State.halt_keeps {z s : State}  (hz : Keeps z s) :
    Keeps z (State.halt s) := by
  unfold State.halt
  try dsimp only
  repeat' first
    | (with_reducible intro _)
    | with_reducible assumption
    | with_reducible apply Keeps.ite
    | with_reducible apply State.enterPhase_keeps
    | with_reducible apply FlashOk.of
    | with_reducible apply FlashOk.program
    | with_reducible apply FlashOk.erase
    | simp only [Keeps.mk_iff]
    | with_reducible apply KeepsCore.of
    | (split <;> (rename_i hp; have hp := congrArg Prod.fst hp; dsimp only at hp; subst hp))
    | split

theorem State.loadImage_keeps {z s : State} {h : CopyHeader} (hz : Keeps z s) :
    Keeps z (State.loadImage s h) := by
  unfold State.loadImage
  try dsimp only
  repeat' first
    | (with_reducible intro _)
    | with_reducible assumption
    | with_reducible apply Keeps.ite
    | with_reducible apply State.when_keeps
    | with_reducible apply State.claimKey_keeps
    | with_reducible apply State.each_keeps
    | with_reducible apply State.loadSection_keeps
    | with_reducible apply State.setFld_keeps
    | with_reducible apply State.setBit_keeps
    | with_reducible apply State.wrN_keeps
    | with_reducible apply State.take_keeps
    | with_reducible apply State.wr64_keeps
    | with_reducible apply FlashOk.of
    | with_reducible apply FlashOk.program
    | with_reducible apply FlashOk.erase
    | simp only [Keeps.mk_iff]
    | with_reducible apply KeepsCore.of
    | (split <;> (rename_i hp; have hp := congrArg Prod.fst hp; dsimp only at hp; subst hp))
    | split

theorem execFlashOpen_keeps {z s : State} {dt : Nat} {m : BeaconMsg} {port : Fin 2} {copy : Fin 2} (hz : Keeps z s) :
    KeepsOut z (execFlashOpen dt m port copy s) := by
  unfold execFlashOpen
  try dsimp only
  repeat' first
    | (with_reducible intro _)
    | with_reducible assumption
    | with_reducible apply KeepsOut.next
    | with_reducible apply KeepsOut.ite
    | with_reducible apply done_keeps
    | with_reducible apply Keeps.ite
    | with_reducible apply State.elapse_keeps
    | with_reducible apply State.request_keeps
    | with_reducible apply State.respond_keeps
    | with_reducible apply done_keeps
    | with_reducible apply FlashOk.of
    | with_reducible apply FlashOk.program
    | with_reducible apply FlashOk.erase
    | simp only [Keeps.mk_iff]
    | with_reducible apply KeepsCore.of
    | (split <;> (rename_i hp; have hp := congrArg Prod.fst hp; dsimp only at hp; subst hp))
    | split

theorem State.flashData_keeps {z s : State} {f : FlashSession} {data : List Byte} (hz : Keeps z s) :
    Keeps z (State.flashData s f data) := by
  unfold State.flashData
  try dsimp only
  repeat' first
    | (with_reducible intro _)
    | with_reducible assumption
    | with_reducible apply Keeps.ite
    | with_reducible apply State.take_keeps
    | with_reducible apply State.setFlash_keeps
    | with_reducible apply FlashOk.of
    | with_reducible apply FlashOk.program
    | with_reducible apply FlashOk.erase
    | simp only [Keeps.mk_iff]
    | with_reducible apply KeepsCore.of
    | (split <;> (rename_i hp; have hp := congrArg Prod.fst hp; dsimp only at hp; subst hp))
    | split

theorem execFlashData_keeps {z s : State} {dt : Nat} {m : BeaconMsg} {offset : Nat} {data : List Byte} (hz : Keeps z s) :
    KeepsOut z (execFlashData dt m offset data s) := by
  unfold execFlashData
  try dsimp only
  repeat' first
    | (with_reducible intro _)
    | with_reducible assumption
    | with_reducible apply KeepsOut.next
    | with_reducible apply KeepsOut.ite
    | with_reducible apply done_keeps
    | with_reducible apply Keeps.ite
    | with_reducible apply State.elapse_keeps
    | with_reducible apply State.request_keeps
    | with_reducible apply State.respond_keeps
    | with_reducible apply State.abortSession_keeps
    | with_reducible apply State.flashData_keeps
    | with_reducible apply done_keeps
    | with_reducible apply FlashOk.of
    | with_reducible apply FlashOk.program
    | with_reducible apply FlashOk.erase
    | simp only [Keeps.mk_iff]
    | with_reducible apply KeepsCore.of
    | (split <;> (rename_i hp; have hp := congrArg Prod.fst hp; dsimp only at hp; subst hp))
    | split

theorem execFlashCommit_keeps {z s : State} {dt : Nat} {m : BeaconMsg} (hz : Keeps z s) :
    KeepsOut z (execFlashCommit dt m s) := by
  unfold execFlashCommit
  try dsimp only
  repeat' first
    | (with_reducible intro _)
    | with_reducible assumption
    | with_reducible apply KeepsOut.next
    | with_reducible apply KeepsOut.ite
    | with_reducible apply done_keeps
    | with_reducible apply Keeps.ite
    | with_reducible apply State.elapse_keeps
    | with_reducible apply State.request_keeps
    | with_reducible apply State.respond_keeps
    | with_reducible apply State.setFlash_keeps
    | with_reducible apply State.endSession_keeps
    | with_reducible apply State.when_keeps
    | with_reducible apply State.startE3_keeps
    | with_reducible apply State.recordFail_keeps
    | with_reducible apply done_keeps
    | with_reducible apply FlashOk.of
    | with_reducible apply FlashOk.program
    | with_reducible apply FlashOk.erase
    | simp only [Keeps.mk_iff]
    | with_reducible apply KeepsCore.of
    | (split <;> (rename_i hp; have hp := congrArg Prod.fst hp; dsimp only at hp; subst hp))
    | split

theorem execFlashAbort_keeps {z s : State} {dt : Nat} {m : BeaconMsg} (hz : Keeps z s) :
    KeepsOut z (execFlashAbort dt m s) := by
  unfold execFlashAbort
  try dsimp only
  repeat' first
    | (with_reducible intro _)
    | with_reducible assumption
    | with_reducible apply KeepsOut.next
    | with_reducible apply KeepsOut.ite
    | with_reducible apply done_keeps
    | with_reducible apply Keeps.ite
    | with_reducible apply State.elapse_keeps
    | with_reducible apply State.request_keeps
    | with_reducible apply State.respond_keeps
    | with_reducible apply State.abortSession_keeps
    | with_reducible apply done_keeps
    | with_reducible apply FlashOk.of
    | with_reducible apply FlashOk.program
    | with_reducible apply FlashOk.erase
    | simp only [Keeps.mk_iff]
    | with_reducible apply KeepsCore.of
    | (split <;> (rename_i hp; have hp := congrArg Prod.fst hp; dsimp only at hp; subst hp))
    | split

theorem execFlashSessionTimeout_keeps {z s : State} {dt : Nat} (hz : Keeps z s) :
    KeepsOut z (execFlashSessionTimeout dt s) := by
  unfold execFlashSessionTimeout
  try dsimp only
  repeat' first
    | (with_reducible intro _)
    | with_reducible assumption
    | with_reducible apply KeepsOut.next
    | with_reducible apply KeepsOut.ite
    | with_reducible apply done_keeps
    | with_reducible apply Keeps.ite
    | with_reducible apply State.elapse_keeps
    | with_reducible apply State.abortSession_keeps
    | with_reducible apply done_keeps
    | with_reducible apply FlashOk.of
    | with_reducible apply FlashOk.program
    | with_reducible apply FlashOk.erase
    | simp only [Keeps.mk_iff]
    | with_reducible apply KeepsCore.of
    | (split <;> (rename_i hp; have hp := congrArg Prod.fst hp; dsimp only at hp; subst hp))
    | split

theorem State.newNonce_keeps {z s : State}  (hz : Keeps z s) :
    Keeps z (State.newNonce s) := by
  unfold State.newNonce
  try dsimp only
  repeat' first
    | (with_reducible intro _)
    | with_reducible assumption
    | with_reducible apply Keeps.ite
    | with_reducible apply State.wr64_keeps
    | with_reducible apply State.afterDraw_keeps
    | with_reducible apply FlashOk.of
    | with_reducible apply FlashOk.program
    | with_reducible apply FlashOk.erase
    | simp only [Keeps.mk_iff]
    | with_reducible apply KeepsCore.of
    | (split <;> (rename_i hp; have hp := congrArg Prod.fst hp; dsimp only at hp; subst hp))
    | split

theorem execKeyClaim_keeps {z s : State} {dt : Nat} {m : BeaconMsg} (hz : Keeps z s) :
    KeepsOut z (execKeyClaim dt m s) := by
  unfold execKeyClaim
  try dsimp only
  repeat' first
    | (with_reducible intro _)
    | with_reducible assumption
    | with_reducible apply KeepsOut.next
    | with_reducible apply KeepsOut.ite
    | with_reducible apply done_keeps
    | with_reducible apply Keeps.ite
    | with_reducible apply State.elapse_keeps
    | with_reducible apply State.request_keeps
    | with_reducible apply State.newNonce_keeps
    | with_reducible apply State.respond_keeps
    | with_reducible apply State.take_keeps
    | with_reducible apply State.recordFail_keeps
    | with_reducible apply State.claimKey_keeps
    | with_reducible apply State.startE3_keeps
    | with_reducible apply done_keeps
    | with_reducible apply FlashOk.of
    | with_reducible apply FlashOk.program
    | with_reducible apply FlashOk.erase
    | simp only [Keeps.mk_iff]
    | with_reducible apply KeepsCore.of
    | (split <;> (rename_i hp; have hp := congrArg Prod.fst hp; dsimp only at hp; subst hp))
    | split

end Sys2Proof.Machine
end

