-- ==== Sys2Proof/Laws/KeepsGroups.lean ====
section
/-! SUPPORT. One lemma for each operation of Machine/Groups.lean: it keeps what `Keeps` names. -/

namespace Sys2Proof.Machine

set_option linter.all false

theorem State.report_keeps {z s : State} {p : Nat} {kind : Nat} {mld : Bool} {g : List (List Nat)} (hz : Keeps z s) :
    Keeps z (State.report s p kind mld g) := by
  unfold State.report
  try dsimp only
  repeat' first
    | (with_reducible intro _)
    | with_reducible assumption
    | with_reducible apply Keeps.ite
    | with_reducible apply State.each_keeps
    | with_reducible apply State.toSub_keeps
    | simp only [Keeps.mk_iff]
    | with_reducible apply KeepsCore.of
    | (split <;> (rename_i hp; have hp := congrArg Prod.fst hp; dsimp only at hp; subst hp))
    | split

theorem State.syncGroups_keeps {z s : State}  (hz : Keeps z s) :
    Keeps z (State.syncGroups s) := by
  unfold State.syncGroups
  try dsimp only
  repeat' first
    | (with_reducible intro _)
    | with_reducible assumption
    | with_reducible apply Keeps.ite
    | with_reducible apply State.each_keeps
    | with_reducible apply State.report_keeps
    | simp only [Keeps.mk_iff]
    | with_reducible apply KeepsCore.of
    | (split <;> (rename_i hp; have hp := congrArg Prod.fst hp; dsimp only at hp; subst hp))
    | split

theorem State.fillBuckets_keeps {z s : State}  (hz : Keeps z s) :
    Keeps z (State.fillBuckets s) := by
  unfold State.fillBuckets
  try dsimp only
  repeat' first
    | (with_reducible intro _)
    | with_reducible assumption
    | with_reducible apply Keeps.ite
    | simp only [Keeps.mk_iff]
    | with_reducible apply KeepsCore.of
    | (split <;> (rename_i hp; have hp := congrArg Prod.fst hp; dsimp only at hp; subst hp))
    | split

theorem State.startE8_keeps {z s : State}  (hz : Keeps z s) :
    Keeps z (State.startE8 s) := by
  unfold State.startE8
  try dsimp only
  repeat' first
    | (with_reducible intro _)
    | with_reducible assumption
    | with_reducible apply Keeps.ite
    | with_reducible apply State.enterPhase_keeps
    | with_reducible apply State.syncGroups_keeps
    | with_reducible apply State.fillBuckets_keeps
    | simp only [Keeps.mk_iff]
    | with_reducible apply KeepsCore.of
    | (split <;> (rename_i hp; have hp := congrArg Prod.fst hp; dsimp only at hp; subst hp))
    | split

end Sys2Proof.Machine
end

