-- ==== Sys2Proof/Laws/KeepsFlame.lean ====
section
/-! SUPPORT. One lemma for each operation of Machine/Flame.lean: it keeps what `Keeps` names. -/

namespace Sys2Proof.Machine

set_option linter.all false

theorem State.tendHoldOff_keeps {z s : State}  (hz : Keeps z s) :
    Keeps z (State.tendHoldOff s) := by
  unfold State.tendHoldOff
  try dsimp only
  repeat' first
    | (with_reducible intro _)
    | with_reducible assumption
    | with_reducible apply Keeps.ite
    | simp only [Keeps.mk_iff]
    | with_reducible apply KeepsCore.of
    | (split <;> (rename_i hp; have hp := congrArg Prod.fst hp; dsimp only at hp; subst hp))
    | split

theorem State.tendTwin_keeps {z s : State}  (hz : Keeps z s) :
    Keeps z (State.tendTwin s) := by
  unfold State.tendTwin
  try dsimp only
  repeat' first
    | (with_reducible intro _)
    | with_reducible assumption
    | with_reducible apply Keeps.ite
    | with_reducible apply State.when_keeps
    | with_reducible apply State.setRole_keeps
    | with_reducible apply State.tendHoldOff_keeps
    | with_reducible apply State.twinStatus_keeps
    | simp only [Keeps.mk_iff]
    | with_reducible apply KeepsCore.of
    | (split <;> (rename_i hp; have hp := congrArg Prod.fst hp; dsimp only at hp; subst hp))
    | split

theorem State.replayFrame_keeps {z s : State} {f : QFrame} (hz : Keeps z s) :
    Keeps z (State.replayFrame s f) := by
  unfold State.replayFrame
  try dsimp only
  repeat' first
    | (with_reducible intro _)
    | with_reducible assumption
    | with_reducible apply Keeps.ite
    | with_reducible apply State.bump_keeps
    | with_reducible apply State.settleCredit_keeps
    | with_reducible apply State.modFlow_keeps
    | simp only [Keeps.mk_iff]
    | with_reducible apply KeepsCore.of
    | (split <;> (rename_i hp; have hp := congrArg Prod.fst hp; dsimp only at hp; subst hp))
    | split

theorem State.jumpFlow_keeps {z s : State} {i : Nat} (hz : Keeps z s) :
    Keeps z (State.jumpFlow s i) := by
  unfold State.jumpFlow
  try dsimp only
  repeat' first
    | (with_reducible intro _)
    | with_reducible assumption
    | with_reducible apply Keeps.ite
    | with_reducible apply State.setFlow_keeps
    | simp only [Keeps.mk_iff]
    | with_reducible apply KeepsCore.of
    | (split <;> (rename_i hp; have hp := congrArg Prod.fst hp; dsimp only at hp; subst hp))
    | split

theorem State.resumeFlows_keeps {z s : State}  (hz : Keeps z s) :
    Keeps z (State.resumeFlows s) := by
  unfold State.resumeFlows
  try dsimp only
  repeat' first
    | (with_reducible intro _)
    | with_reducible assumption
    | with_reducible apply Keeps.ite
    | with_reducible apply State.each_keeps
    | with_reducible apply State.replayFrame_keeps
    | with_reducible apply State.jumpFlow_keeps
    | with_reducible apply State.bump_keeps
    | simp only [Keeps.mk_iff]
    | with_reducible apply KeepsCore.of
    | (split <;> (rename_i hp; have hp := congrArg Prod.fst hp; dsimp only at hp; subst hp))
    | split

theorem State.chanTaken_keeps {z s : State} {n : Nat} (hz : Keeps z s) :
    Keeps z (State.chanTaken s n) := by
  unfold State.chanTaken
  try dsimp only
  repeat' first
    | (with_reducible intro _)
    | with_reducible assumption
    | with_reducible apply Keeps.ite
    | with_reducible apply State.when_keeps
    | with_reducible apply State.modChan_keeps
    | with_reducible apply State.setChan_keeps
    | with_reducible apply State.setBit_keeps
    | simp only [Keeps.mk_iff]
    | with_reducible apply KeepsCore.of
    | (split <;> (rename_i hp; have hp := congrArg Prod.fst hp; dsimp only at hp; subst hp))
    | split

theorem State.settledRole_keeps {z s : State}  (hz : Keeps z s) :
    Keeps z (State.settledRole s) := by
  unfold State.settledRole
  try dsimp only
  repeat' first
    | (with_reducible intro _)
    | with_reducible assumption
    | with_reducible apply Keeps.ite
    | simp only [Keeps.mk_iff]
    | with_reducible apply KeepsCore.of
    | (split <;> (rename_i hp; have hp := congrArg Prod.fst hp; dsimp only at hp; subst hp))
    | split

theorem State.awaitSyncs_keeps {z s : State}  (hz : Keeps z s) :
    Keeps z (State.awaitSyncs s) := by
  unfold State.awaitSyncs
  try dsimp only
  repeat' first
    | (with_reducible intro _)
    | with_reducible assumption
    | with_reducible apply Keeps.ite
    | simp only [Keeps.mk_iff]
    | with_reducible apply KeepsCore.of
    | (split <;> (rename_i hp; have hp := congrArg Prod.fst hp; dsimp only at hp; subst hp))
    | split

theorem State.takeFlame_keeps {z s : State} {cause : Nat} (hz : Keeps z s) :
    Keeps z (State.takeFlame s cause) := by
  unfold State.takeFlame
  try dsimp only
  repeat' first
    | (with_reducible intro _)
    | with_reducible assumption
    | with_reducible apply Keeps.ite
    | with_reducible apply State.wrN_keeps
    | with_reducible apply State.setRole_keeps
    | with_reducible apply State.settledRole_keeps
    | with_reducible apply State.sendEverywhere_keeps
    | with_reducible apply State.setGates_keeps
    | with_reducible apply State.awaitSyncs_keeps
    | with_reducible apply State.freshId_keeps
    | with_reducible apply State.when_keeps
    | with_reducible apply State.resumeFlows_keeps
    | with_reducible apply State.each_keeps
    | with_reducible apply State.chanTaken_keeps
    | with_reducible apply State.abortSnaps_keeps
    | with_reducible apply State.modChan_keeps
    | with_reducible apply State.setConf_keeps
    | with_reducible apply State.bump_keeps
    | with_reducible apply State.flameEvent_keeps
    | simp only [Keeps.mk_iff]
    | with_reducible apply KeepsCore.of
    | (split <;> (rename_i hp; have hp := congrArg Prod.fst hp; dsimp only at hp; subst hp))
    | split

theorem State.startGates_keeps {z s : State}  (hz : Keeps z s) :
    Keeps z (State.startGates s) := by
  unfold State.startGates
  try dsimp only
  repeat' first
    | (with_reducible intro _)
    | with_reducible assumption
    | with_reducible apply Keeps.ite
    | with_reducible apply State.each_keeps
    | with_reducible apply State.when_keeps
    | with_reducible apply State.setGateList_keeps
    | simp only [Keeps.mk_iff]
    | with_reducible apply KeepsCore.of
    | (split <;> (rename_i hp; have hp := congrArg Prod.fst hp; dsimp only at hp; subst hp))
    | split

theorem State.becomeLive_keeps {z s : State}  (hz : Keeps z s) :
    Keeps z (State.becomeLive s) := by
  unfold State.becomeLive
  try dsimp only
  repeat' first
    | (with_reducible intro _)
    | with_reducible assumption
    | with_reducible apply Keeps.ite
    | with_reducible apply State.enterPhase_keeps
    | with_reducible apply State.setBit_keeps
    | with_reducible apply State.commitRollback_keeps
    | with_reducible apply State.startGates_keeps
    | with_reducible apply State.loadMasks_keeps
    | with_reducible apply State.setGates_keeps
    | with_reducible apply State.tendTwin_keeps
    | with_reducible apply State.takeFlame_keeps
    | simp only [Keeps.mk_iff]
    | with_reducible apply KeepsCore.of
    | (split <;> (rename_i hp; have hp := congrArg Prod.fst hp; dsimp only at hp; subst hp))
    | split

theorem State.decideRole_keeps {z s : State} {designate : Bool} {joins : Bool} (hz : Keeps z s) :
    Keeps z (State.decideRole s designate joins) := by
  unfold State.decideRole
  try dsimp only
  repeat' first
    | (with_reducible intro _)
    | with_reducible assumption
    | with_reducible apply Keeps.ite
    | with_reducible apply State.setRole_keeps
    | with_reducible apply State.when_keeps
    | with_reducible apply State.startE8_keeps
    | simp only [Keeps.mk_iff]
    | with_reducible apply KeepsCore.of
    | (split <;> (rename_i hp; have hp := congrArg Prod.fst hp; dsimp only at hp; subst hp))
    | split

theorem State.sameUnit_keeps {z s : State}  (hz : Keeps z s) :
    Keeps z (State.sameUnit s) := by
  unfold State.sameUnit
  try dsimp only
  repeat' first
    | (with_reducible intro _)
    | with_reducible assumption
    | with_reducible apply Keeps.ite
    | with_reducible apply State.raise_keeps
    | with_reducible apply State.decideRole_keeps
    | simp only [Keeps.mk_iff]
    | with_reducible apply KeepsCore.of
    | (split <;> (rename_i hp; have hp := congrArg Prod.fst hp; dsimp only at hp; subst hp))
    | split

theorem State.agreeRole_keeps {z s : State} {kind : Nat} (hz : Keeps z s) :
    Keeps z (State.agreeRole s kind) := by
  unfold State.agreeRole
  try dsimp only
  repeat' first
    | (with_reducible intro _)
    | with_reducible assumption
    | with_reducible apply Keeps.ite
    | with_reducible apply State.decideRole_keeps
    | simp only [Keeps.mk_iff]
    | with_reducible apply KeepsCore.of
    | (split <;> (rename_i hp; have hp := congrArg Prod.fst hp; dsimp only at hp; subst hp))
    | split

theorem execTwinJoinTimeout_keeps {z s : State} {dt : Nat} (hz : Keeps z s) :
    KeepsOut z (execTwinJoinTimeout dt s) := by
  unfold execTwinJoinTimeout
  try dsimp only
  repeat' first
    | (with_reducible intro _)
    | with_reducible assumption
    | with_reducible apply KeepsOut.next
    | with_reducible apply KeepsOut.ite
    | with_reducible apply done_keeps
    | with_reducible apply Keeps.ite
    | with_reducible apply State.elapse_keeps
    | with_reducible apply State.decideRole_keeps
    | with_reducible apply done_keeps
    | simp only [Keeps.mk_iff]
    | with_reducible apply KeepsCore.of
    | (split <;> (rename_i hp; have hp := congrArg Prod.fst hp; dsimp only at hp; subst hp))
    | split

theorem State.giveSeconds_keeps {z s : State}  (hz : Keeps z s) :
    Keeps z (State.giveSeconds s) := by
  unfold State.giveSeconds
  try dsimp only
  repeat' first
    | (with_reducible intro _)
    | with_reducible assumption
    | with_reducible apply Keeps.ite
    | with_reducible apply State.lanternSend_keeps
    | simp only [Keeps.mk_iff]
    | with_reducible apply KeepsCore.of
    | (split <;> (rename_i hp; have hp := congrArg Prod.fst hp; dsimp only at hp; subst hp))
    | split

theorem State.standbyWord_keeps {z s : State} {aux : Nat} (hz : Keeps z s) :
    Keeps z (State.standbyWord s aux) := by
  unfold State.standbyWord
  try dsimp only
  repeat' first
    | (with_reducible intro _)
    | with_reducible assumption
    | with_reducible apply Keeps.ite
    | with_reducible apply State.startHandover_keeps
    | with_reducible apply State.bump_keeps
    | simp only [Keeps.mk_iff]
    | with_reducible apply KeepsCore.of
    | (split <;> (rename_i hp; have hp := congrArg Prod.fst hp; dsimp only at hp; subst hp))
    | split

theorem State.validWord_keeps {z s : State} {path : Nat} {kind : Nat} {aux : Nat} {epoch : Nat} {fresh : Bool} (hz : Keeps z s) :
    Keeps z (State.validWord s path kind aux epoch fresh) := by
  unfold State.validWord
  try dsimp only
  repeat' first
    | (with_reducible intro _)
    | with_reducible assumption
    | with_reducible apply Keeps.ite
    | with_reducible apply State.wrN_keeps
    | with_reducible apply State.when_keeps
    | with_reducible apply State.agreeRole_keeps
    | with_reducible apply State.standbyWord_keeps
    | with_reducible apply State.giveSeconds_keeps
    | with_reducible apply State.dropFlame_keeps
    | with_reducible apply State.takeFlame_keeps
    | with_reducible apply State.tendTwin_keeps
    | simp only [Keeps.mk_iff]
    | with_reducible apply KeepsCore.of
    | (split <;> (rename_i hp; have hp := congrArg Prod.fst hp; dsimp only at hp; subst hp))
    | split

theorem State.flameWord_keeps {z s : State} {path : Nat} {kind : Nat} {unit : Nat} {aux : Nat} {epoch : Nat} {seq : Nat} (hz : Keeps z s) :
    Keeps z (State.flameWord s path kind unit aux epoch seq) := by
  unfold State.flameWord
  try dsimp only
  repeat' first
    | (with_reducible intro _)
    | with_reducible assumption
    | with_reducible apply Keeps.ite
    | with_reducible apply State.when_keeps
    | with_reducible apply State.decideRole_keeps
    | with_reducible apply State.sameUnit_keeps
    | with_reducible apply State.validWord_keeps
    | simp only [Keeps.mk_iff]
    | with_reducible apply KeepsCore.of
    | (split <;> (rename_i hp; have hp := congrArg Prod.fst hp; dsimp only at hp; subst hp))
    | split

theorem execFlameSetRx_keeps {z s : State} {dt : Nat} {lane : Fin 8} {w : FlameWord} (hz : Keeps z s) :
    KeepsOut z (execFlameSetRx dt lane w s) := by
  unfold execFlameSetRx
  try dsimp only
  repeat' first
    | (with_reducible intro _)
    | with_reducible assumption
    | with_reducible apply KeepsOut.next
    | with_reducible apply KeepsOut.ite
    | with_reducible apply done_keeps
    | with_reducible apply Keeps.ite
    | with_reducible apply State.elapse_keeps
    | with_reducible apply State.flameWord_keeps
    | with_reducible apply done_keeps
    | simp only [Keeps.mk_iff]
    | with_reducible apply KeepsCore.of
    | (split <;> (rename_i hp; have hp := congrArg Prod.fst hp; dsimp only at hp; subst hp))
    | split

theorem execWickWordRx_keeps {z s : State} {dt : Nat} {w : FlameWord} (hz : Keeps z s) :
    KeepsOut z (execWickWordRx dt w s) := by
  unfold execWickWordRx
  try dsimp only
  repeat' first
    | (with_reducible intro _)
    | with_reducible assumption
    | with_reducible apply KeepsOut.next
    | with_reducible apply KeepsOut.ite
    | with_reducible apply done_keeps
    | with_reducible apply Keeps.ite
    | with_reducible apply State.elapse_keeps
    | with_reducible apply State.flameWord_keeps
    | with_reducible apply done_keeps
    | simp only [Keeps.mk_iff]
    | with_reducible apply KeepsCore.of
    | (split <;> (rename_i hp; have hp := congrArg Prod.fst hp; dsimp only at hp; subst hp))
    | split

theorem execPresenceBeaconRx_keeps {z s : State} {dt : Nat} {port : Fin 8} {payload : List Byte} (hz : Keeps z s) :
    KeepsOut z (execPresenceBeaconRx dt port payload s) := by
  unfold execPresenceBeaconRx
  try dsimp only
  repeat' first
    | (with_reducible intro _)
    | with_reducible assumption
    | with_reducible apply KeepsOut.next
    | with_reducible apply KeepsOut.ite
    | with_reducible apply done_keeps
    | with_reducible apply Keeps.ite
    | with_reducible apply State.elapse_keeps
    | with_reducible apply State.take_keeps
    | with_reducible apply State.raise_keeps
    | with_reducible apply State.when_keeps
    | with_reducible apply State.flameWord_keeps
    | with_reducible apply done_keeps
    | simp only [Keeps.mk_iff]
    | with_reducible apply KeepsCore.of
    | (split <;> (rename_i hp; have hp := congrArg Prod.fst hp; dsimp only at hp; subst hp))
    | split

theorem execLeaseSend_keeps {z s : State} {dt : Nat} (hz : Keeps z s) :
    KeepsOut z (execLeaseSend dt s) := by
  unfold execLeaseSend
  try dsimp only
  repeat' first
    | (with_reducible intro _)
    | with_reducible assumption
    | with_reducible apply KeepsOut.next
    | with_reducible apply KeepsOut.ite
    | with_reducible apply done_keeps
    | with_reducible apply Keeps.ite
    | with_reducible apply State.elapse_keeps
    | with_reducible apply State.tendTwin_keeps
    | with_reducible apply State.sendSet_keeps
    | with_reducible apply done_keeps
    | simp only [Keeps.mk_iff]
    | with_reducible apply KeepsCore.of
    | (split <;> (rename_i hp; have hp := congrArg Prod.fst hp; dsimp only at hp; subst hp))
    | split

theorem execWickWordSend_keeps {z s : State} {dt : Nat} (hz : Keeps z s) :
    KeepsOut z (execWickWordSend dt s) := by
  unfold execWickWordSend
  try dsimp only
  repeat' first
    | (with_reducible intro _)
    | with_reducible assumption
    | with_reducible apply KeepsOut.next
    | with_reducible apply KeepsOut.ite
    | with_reducible apply done_keeps
    | with_reducible apply Keeps.ite
    | with_reducible apply State.elapse_keeps
    | with_reducible apply State.tendTwin_keeps
    | with_reducible apply State.sendWick_keeps
    | with_reducible apply done_keeps
    | simp only [Keeps.mk_iff]
    | with_reducible apply KeepsCore.of
    | (split <;> (rename_i hp; have hp := congrArg Prod.fst hp; dsimp only at hp; subst hp))
    | split

theorem execPresenceBeaconSend_keeps {z s : State} {dt : Nat} (hz : Keeps z s) :
    KeepsOut z (execPresenceBeaconSend dt s) := by
  unfold execPresenceBeaconSend
  try dsimp only
  repeat' first
    | (with_reducible intro _)
    | with_reducible assumption
    | with_reducible apply KeepsOut.next
    | with_reducible apply KeepsOut.ite
    | with_reducible apply done_keeps
    | with_reducible apply Keeps.ite
    | with_reducible apply State.elapse_keeps
    | with_reducible apply State.tendTwin_keeps
    | with_reducible apply State.sendPresence_keeps
    | with_reducible apply done_keeps
    | simp only [Keeps.mk_iff]
    | with_reducible apply KeepsCore.of
    | (split <;> (rename_i hp; have hp := congrArg Prod.fst hp; dsimp only at hp; subst hp))
    | split

theorem execLeaseLapse_keeps {z s : State} {dt : Nat} (hz : Keeps z s) :
    KeepsOut z (execLeaseLapse dt s) := by
  unfold execLeaseLapse
  try dsimp only
  repeat' first
    | (with_reducible intro _)
    | with_reducible assumption
    | with_reducible apply KeepsOut.next
    | with_reducible apply KeepsOut.ite
    | with_reducible apply done_keeps
    | with_reducible apply Keeps.ite
    | with_reducible apply State.elapse_keeps
    | with_reducible apply State.takeFlame_keeps
    | with_reducible apply State.tendTwin_keeps
    | with_reducible apply done_keeps
    | simp only [Keeps.mk_iff]
    | with_reducible apply KeepsCore.of
    | (split <;> (rename_i hp; have hp := congrArg Prod.fst hp; dsimp only at hp; subst hp))
    | split

theorem State.requestHandover_keeps {z s : State}  (hz : Keeps z s) :
    Keeps z (State.requestHandover s) := by
  unfold State.requestHandover
  try dsimp only
  repeat' first
    | (with_reducible intro _)
    | with_reducible assumption
    | with_reducible apply Keeps.ite
    | with_reducible apply State.startHandover_keeps
    | with_reducible apply State.setBit_keeps
    | with_reducible apply State.bump_keeps
    | simp only [Keeps.mk_iff]
    | with_reducible apply KeepsCore.of
    | (split <;> (rename_i hp; have hp := congrArg Prod.fst hp; dsimp only at hp; subst hp))
    | split

theorem execTwnCmdHandover_keeps {z s : State} {dt : Nat} (hz : Keeps z s) :
    KeepsOut z (execTwnCmdHandover dt s) := by
  unfold execTwnCmdHandover
  try dsimp only
  repeat' first
    | (with_reducible intro _)
    | with_reducible assumption
    | with_reducible apply KeepsOut.next
    | with_reducible apply KeepsOut.ite
    | with_reducible apply done_keeps
    | with_reducible apply Keeps.ite
    | with_reducible apply State.elapse_keeps
    | with_reducible apply State.when_keeps
    | with_reducible apply State.refuse_keeps
    | with_reducible apply State.requestHandover_keeps
    | with_reducible apply done_keeps
    | simp only [Keeps.mk_iff]
    | with_reducible apply KeepsCore.of
    | (split <;> (rename_i hp; have hp := congrArg Prod.fst hp; dsimp only at hp; subst hp))
    | split

theorem State.requestResync_keeps {z s : State}  (hz : Keeps z s) :
    Keeps z (State.requestResync s) := by
  unfold State.requestResync
  try dsimp only
  repeat' first
    | (with_reducible intro _)
    | with_reducible assumption
    | with_reducible apply Keeps.ite
    | with_reducible apply State.each_keeps
    | with_reducible apply State.requestSnapshot_keeps
    | with_reducible apply State.when_keeps
    | with_reducible apply State.setBit_keeps
    | simp only [Keeps.mk_iff]
    | with_reducible apply KeepsCore.of
    | (split <;> (rename_i hp; have hp := congrArg Prod.fst hp; dsimp only at hp; subst hp))
    | split

theorem State.twnCmdWrite_keeps {z s : State} {v : Word} (hz : Keeps z s) :
    Keeps z (State.twnCmdWrite s v) := by
  unfold State.twnCmdWrite
  try dsimp only
  repeat' first
    | (with_reducible intro _)
    | with_reducible assumption
    | with_reducible apply Keeps.ite
    | with_reducible apply State.when_keeps
    | with_reducible apply State.requestHandover_keeps
    | with_reducible apply State.requestResync_keeps
    | with_reducible apply State.refuse_keeps
    | simp only [Keeps.mk_iff]
    | with_reducible apply KeepsCore.of
    | (split <;> (rename_i hp; have hp := congrArg Prod.fst hp; dsimp only at hp; subst hp))
    | split

theorem execTwnCmdResync_keeps {z s : State} {dt : Nat} (hz : Keeps z s) :
    KeepsOut z (execTwnCmdResync dt s) := by
  unfold execTwnCmdResync
  try dsimp only
  repeat' first
    | (with_reducible intro _)
    | with_reducible assumption
    | with_reducible apply KeepsOut.next
    | with_reducible apply KeepsOut.ite
    | with_reducible apply done_keeps
    | with_reducible apply Keeps.ite
    | with_reducible apply State.elapse_keeps
    | with_reducible apply State.when_keeps
    | with_reducible apply State.refuse_keeps
    | with_reducible apply State.requestResync_keeps
    | with_reducible apply done_keeps
    | simp only [Keeps.mk_iff]
    | with_reducible apply KeepsCore.of
    | (split <;> (rename_i hp; have hp := congrArg Prod.fst hp; dsimp only at hp; subst hp))
    | split

theorem State.sampleCursors_keeps {z s : State}  (hz : Keeps z s) :
    Keeps z (State.sampleCursors s) := by
  unfold State.sampleCursors
  try dsimp only
  repeat' first
    | (with_reducible intro _)
    | with_reducible assumption
    | with_reducible apply Keeps.ite
    | with_reducible apply State.settleLeft_keeps
    | simp only [Keeps.mk_iff]
    | with_reducible apply KeepsCore.of
    | (split <;> (rename_i hp; have hp := congrArg Prod.fst hp; dsimp only at hp; subst hp))
    | split

theorem State.sendCursors_keeps {z : State} (k : Nat) :
    ∀ {a0 : List (Nat × Nat)} {s : State}, Keeps z s → Keeps z (State.sendCursors k a0 s) := by
  induction k with
  | zero =>
    intros
    assumption
  | succ k ih =>
    intros
    unfold State.sendCursors
    try dsimp only
    repeat' first
      | (with_reducible intro _)
      | with_reducible assumption
      | with_reducible apply Keeps.ite
      | with_reducible apply ih
      | with_reducible apply State.lanternSend_keeps
      | simp only [Keeps.mk_iff]
      | with_reducible apply KeepsCore.of
      | split

theorem execCursorSample_keeps {z s : State} {dt : Nat} (hz : Keeps z s) :
    KeepsOut z (execCursorSample dt s) := by
  unfold execCursorSample
  try dsimp only
  repeat' first
    | (with_reducible intro _)
    | with_reducible assumption
    | with_reducible apply KeepsOut.next
    | with_reducible apply KeepsOut.ite
    | with_reducible apply done_keeps
    | with_reducible apply Keeps.ite
    | with_reducible apply State.elapse_keeps
    | with_reducible apply State.sampleCursors_keeps
    | with_reducible apply State.sendCursors_keeps
    | with_reducible apply done_keeps
    | simp only [Keeps.mk_iff]
    | with_reducible apply KeepsCore.of
    | (split <;> (rename_i hp; have hp := congrArg Prod.fst hp; dsimp only at hp; subst hp))
    | split

theorem State.retireWaiting_keeps {z s : State}  (hz : Keeps z s) :
    Keeps z (State.retireWaiting s) := by
  unfold State.retireWaiting
  try dsimp only
  repeat' first
    | (with_reducible intro _)
    | with_reducible assumption
    | with_reducible apply Keeps.ite
    | with_reducible apply State.each_keeps
    | with_reducible apply State.retireNow_keeps
    | with_reducible apply State.memLost_keeps
    | simp only [Keeps.mk_iff]
    | with_reducible apply KeepsCore.of
    | (split <;> (rename_i hp; have hp := congrArg Prod.fst hp; dsimp only at hp; subst hp))
    | split

theorem execHandoverDrainDone_keeps {z s : State} {dt : Nat} (hz : Keeps z s) :
    KeepsOut z (execHandoverDrainDone dt s) := by
  unfold execHandoverDrainDone
  try dsimp only
  repeat' first
    | (with_reducible intro _)
    | with_reducible assumption
    | with_reducible apply KeepsOut.next
    | with_reducible apply KeepsOut.ite
    | with_reducible apply done_keeps
    | with_reducible apply Keeps.ite
    | with_reducible apply State.elapse_keeps
    | with_reducible apply State.settleLeft_keeps
    | with_reducible apply State.retireWaiting_keeps
    | with_reducible apply State.sampleCursors_keeps
    | with_reducible apply State.sendCursors_keeps
    | with_reducible apply State.sendSet_keeps
    | with_reducible apply State.sendWick_keeps
    | with_reducible apply State.bump_keeps
    | with_reducible apply State.dropFlame_keeps
    | with_reducible apply State.tendTwin_keeps
    | with_reducible apply done_keeps
    | simp only [Keeps.mk_iff]
    | with_reducible apply KeepsCore.of
    | (split <;> (rename_i hp; have hp := congrArg Prod.fst hp; dsimp only at hp; subst hp))
    | split

theorem execHoldOffExpiry_keeps {z s : State} {dt : Nat} (hz : Keeps z s) :
    KeepsOut z (execHoldOffExpiry dt s) := by
  unfold execHoldOffExpiry
  try dsimp only
  repeat' first
    | (with_reducible intro _)
    | with_reducible assumption
    | with_reducible apply KeepsOut.next
    | with_reducible apply KeepsOut.ite
    | with_reducible apply done_keeps
    | with_reducible apply Keeps.ite
    | with_reducible apply State.elapse_keeps
    | with_reducible apply State.tendTwin_keeps
    | with_reducible apply done_keeps
    | simp only [Keeps.mk_iff]
    | with_reducible apply KeepsCore.of
    | (split <;> (rename_i hp; have hp := congrArg Prod.fst hp; dsimp only at hp; subst hp))
    | split

end Sys2Proof.Machine
end

