-- ==== Sys2Proof/Laws/KeepsAudio.lean ====
section
/-! SUPPORT. One lemma for each operation of Machine/Audio.lean: it keeps what `Keeps` names. -/

namespace Sys2Proof.Machine

set_option linter.all false

theorem State.takeMask_keeps {z s : State} {p : Nat} (hz : Keeps z s) :
    Keeps z (State.takeMask s p) := by
  unfold State.takeMask
  try dsimp only
  repeat' first
    | (with_reducible intro _)
    | with_reducible assumption
    | with_reducible apply Keeps.ite
    | with_reducible apply State.modAport_keeps
    | simp only [Keeps.mk_iff]
    | with_reducible apply KeepsCore.of
    | (split <;> (rename_i hp; have hp := congrArg Prod.fst hp; dsimp only at hp; subst hp))
    | split

theorem State.syncSlots_keeps {z s : State} {p : Nat} (hz : Keeps z s) :
    Keeps z (State.syncSlots s p) := by
  unfold State.syncSlots
  try dsimp only
  repeat' first
    | (with_reducible intro _)
    | with_reducible assumption
    | with_reducible apply Keeps.ite
    | with_reducible apply State.each_keeps
    | with_reducible apply State.attach_keeps
    | with_reducible apply State.detach_keeps
    | simp only [Keeps.mk_iff]
    | with_reducible apply KeepsCore.of
    | (split <;> (rename_i hp; have hp := congrArg Prod.fst hp; dsimp only at hp; subst hp))
    | split

theorem State.emitAudio_keeps {z s : State} {p : Nat} {ws : List Nat} (hz : Keeps z s) :
    Keeps z (State.emitAudio s p ws) := by
  unfold State.emitAudio
  try dsimp only
  repeat' first
    | (with_reducible intro _)
    | with_reducible assumption
    | with_reducible apply Keeps.ite
    | with_reducible apply State.when_keeps
    | with_reducible apply State.send_keeps
    | simp only [Keeps.mk_iff]
    | with_reducible apply KeepsCore.of
    | (split <;> (rename_i hp; have hp := congrArg Prod.fst hp; dsimp only at hp; subst hp))
    | split

theorem State.aesFrame_keeps {z s : State} {p : Nat} {ws : List (Word × Bool)} {data : Bool} (hz : Keeps z s) :
    Keeps z (State.aesFrame s p ws data) := by
  unfold State.aesFrame
  try dsimp only
  repeat' first
    | (with_reducible intro _)
    | with_reducible assumption
    | with_reducible apply Keeps.ite
    | with_reducible apply State.modAport_keeps
    | with_reducible apply State.freshId_keeps
    | with_reducible apply State.emitAudio_keeps
    | simp only [Keeps.mk_iff]
    | with_reducible apply KeepsCore.of
    | (split <;> (rename_i hp; have hp := congrArg Prod.fst hp; dsimp only at hp; subst hp))
    | split

theorem State.rollFrame_keeps {z s : State} {p : Nat} (hz : Keeps z s) :
    Keeps z (State.rollFrame s p) := by
  unfold State.rollFrame
  try dsimp only
  repeat' first
    | (with_reducible intro _)
    | with_reducible assumption
    | with_reducible apply Keeps.ite
    | with_reducible apply State.aesFrame_keeps
    | with_reducible apply State.emitAudio_keeps
    | simp only [Keeps.mk_iff]
    | with_reducible apply KeepsCore.of
    | (split <;> (rename_i hp; have hp := congrArg Prod.fst hp; dsimp only at hp; subst hp))
    | split

theorem State.readSlots_keeps {z s : State} {p : Nat} (hz : Keeps z s) :
    Keeps z (State.readSlots s p).1 := by
  unfold State.readSlots
  try dsimp only
  repeat' first
    | (with_reducible intro _)
    | with_reducible assumption
    | with_reducible apply Keeps.ite
    | with_reducible apply Keeps.foldl
    | with_reducible apply Keeps.foldlFst
    | with_reducible apply State.audioRead_keeps
    | simp only [Keeps.mk_iff]
    | with_reducible apply KeepsCore.of
    | (split <;> (rename_i hp; have hp := congrArg Prod.fst hp; dsimp only at hp; subst hp))
    | split

theorem State.dataFrame_keeps {z s : State} {p : Nat} {ins : List Word} (hz : Keeps z s) :
    Keeps z (State.dataFrame s p ins) := by
  unfold State.dataFrame
  try dsimp only
  repeat' first
    | (with_reducible intro _)
    | with_reducible assumption
    | with_reducible apply Keeps.ite
    | with_reducible apply State.modAport_keeps
    | with_reducible apply State.syncSlots_keeps
    | with_reducible apply State.readSlots_keeps
    | with_reducible apply State.aesFrame_keeps
    | with_reducible apply State.emitAudio_keeps
    | with_reducible apply State.each_keeps
    | with_reducible apply State.audioWrite_keeps
    | simp only [Keeps.mk_iff]
    | with_reducible apply KeepsCore.of
    | (split <;> (rename_i hp; have hp := congrArg Prod.fst hp; dsimp only at hp; subst hp))
    | split

theorem State.startPort_keeps {z s : State} {p : Nat} {ins : List Word} (hz : Keeps z s) :
    Keeps z (State.startPort s p ins) := by
  unfold State.startPort
  try dsimp only
  repeat' first
    | (with_reducible intro _)
    | with_reducible assumption
    | with_reducible apply Keeps.ite
    | with_reducible apply State.bump_keeps
    | with_reducible apply State.modAport_keeps
    | with_reducible apply State.when_keeps
    | with_reducible apply State.setBit_keeps
    | with_reducible apply State.dataFrame_keeps
    | with_reducible apply State.rollFrame_keeps
    | simp only [Keeps.mk_iff]
    | with_reducible apply KeepsCore.of
    | (split <;> (rename_i hp; have hp := congrArg Prod.fst hp; dsimp only at hp; subst hp))
    | split

theorem State.stopPort_keeps {z s : State} {p : Nat} (hz : Keeps z s) :
    Keeps z (State.stopPort s p) := by
  unfold State.stopPort
  try dsimp only
  repeat' first
    | (with_reducible intro _)
    | with_reducible assumption
    | with_reducible apply Keeps.ite
    | with_reducible apply State.detachPort_keeps
    | with_reducible apply State.setBit_keeps
    | with_reducible apply State.modAport_keeps
    | with_reducible apply State.restart_keeps
    | with_reducible apply State.endFlywheel_keeps
    | simp only [Keeps.mk_iff]
    | with_reducible apply KeepsCore.of
    | (split <;> (rename_i hp; have hp := congrArg Prod.fst hp; dsimp only at hp; subst hp))
    | split

theorem State.postFrame_keeps {z s : State} {p : Nat} (hz : Keeps z s) :
    Keeps z (State.postFrame s p) := by
  unfold State.postFrame
  try dsimp only
  repeat' first
    | (with_reducible intro _)
    | with_reducible assumption
    | with_reducible apply Keeps.ite
    | with_reducible apply State.stopPort_keeps
    | with_reducible apply State.modAport_keeps
    | with_reducible apply State.rollFrame_keeps
    | simp only [Keeps.mk_iff]
    | with_reducible apply KeepsCore.of
    | (split <;> (rename_i hp; have hp := congrArg Prod.fst hp; dsimp only at hp; subst hp))
    | split

theorem State.startPost_keeps {z s : State} {p : Nat} (hz : Keeps z s) :
    Keeps z (State.startPost s p) := by
  unfold State.startPost
  try dsimp only
  repeat' first
    | (with_reducible intro _)
    | with_reducible assumption
    | with_reducible apply Keeps.ite
    | with_reducible apply State.modAport_keeps
    | with_reducible apply State.postFrame_keeps
    | simp only [Keeps.mk_iff]
    | with_reducible apply KeepsCore.of
    | (split <;> (rename_i hp; have hp := congrArg Prod.fst hp; dsimp only at hp; subst hp))
    | split

theorem State.frameSync_keeps {z s : State} {p : Nat} {ins : List Word} (hz : Keeps z s) :
    Keeps z (State.frameSync s p ins) := by
  unfold State.frameSync
  try dsimp only
  repeat' first
    | (with_reducible intro _)
    | with_reducible assumption
    | with_reducible apply Keeps.ite
    | with_reducible apply State.when_keeps
    | with_reducible apply State.takeMask_keeps
    | with_reducible apply State.restart_keeps
    | with_reducible apply State.startPort_keeps
    | with_reducible apply State.startPost_keeps
    | with_reducible apply State.dataFrame_keeps
    | with_reducible apply State.modAport_keeps
    | with_reducible apply State.rollFrame_keeps
    | with_reducible apply State.postFrame_keeps
    | simp only [Keeps.mk_iff]
    | with_reducible apply KeepsCore.of
    | (split <;> (rename_i hp; have hp := congrArg Prod.fst hp; dsimp only at hp; subst hp))
    | split

theorem State.restartPorts_keeps {z s : State}  (hz : Keeps z s) :
    Keeps z (State.restartPorts s) := by
  unfold State.restartPorts
  try dsimp only
  repeat' first
    | (with_reducible intro _)
    | with_reducible assumption
    | with_reducible apply Keeps.ite
    | simp only [Keeps.mk_iff]
    | with_reducible apply KeepsCore.of
    | (split <;> (rename_i hp; have hp := congrArg Prod.fst hp; dsimp only at hp; subst hp))
    | split

theorem State.edgesBack_keeps {z s : State} {err : Int} (hz : Keeps z s) :
    Keeps z (State.edgesBack s err) := by
  unfold State.edgesBack
  try dsimp only
  repeat' first
    | (with_reducible intro _)
    | with_reducible assumption
    | with_reducible apply Keeps.ite
    | with_reducible apply State.when_keeps
    | with_reducible apply State.restartPorts_keeps
    | simp only [Keeps.mk_iff]
    | with_reducible apply KeepsCore.of
    | (split <;> (rename_i hp; have hp := congrArg Prod.fst hp; dsimp only at hp; subst hp))
    | split

theorem State.midwaySync_keeps {z s : State} {p : Nat} (hz : Keeps z s) :
    Keeps z (State.midwaySync s p).1 := by
  unfold State.midwaySync
  try dsimp only
  repeat' first
    | (with_reducible intro _)
    | with_reducible assumption
    | with_reducible apply Keeps.ite
    | with_reducible apply State.modAport_keeps
    | simp only [Keeps.mk_iff]
    | with_reducible apply KeepsCore.of
    | (split <;> (rename_i hp; have hp := congrArg Prod.fst hp; dsimp only at hp; subst hp))
    | split

theorem State.takeSync_keeps {z s : State} {p : Nat} (hz : Keeps z s) :
    Keeps z (State.takeSync s p).1 := by
  unfold State.takeSync
  try dsimp only
  repeat' first
    | (with_reducible intro _)
    | with_reducible assumption
    | with_reducible apply Keeps.ite
    | with_reducible apply State.modAport_keeps
    | with_reducible apply State.midwaySync_keeps
    | simp only [Keeps.mk_iff]
    | with_reducible apply KeepsCore.of
    | (split <;> (rename_i hp; have hp := congrArg Prod.fst hp; dsimp only at hp; subst hp))
    | split

theorem execAudioFrameSync_keeps {z s : State} {dt : Nat} {p : Fin 16} {ins : List Word} {edge : Option Int} (hz : Keeps z s) :
    KeepsOut z (execAudioFrameSync dt p ins edge s) := by
  unfold execAudioFrameSync
  try dsimp only
  repeat' first
    | (with_reducible intro _)
    | with_reducible assumption
    | with_reducible apply KeepsOut.next
    | with_reducible apply KeepsOut.ite
    | with_reducible apply done_keeps
    | with_reducible apply Keeps.ite
    | with_reducible apply State.elapse_keeps
    | with_reducible apply State.edgesBack_keeps
    | with_reducible apply State.takeSync_keeps
    | with_reducible apply State.when_keeps
    | with_reducible apply State.modAport_keeps
    | with_reducible apply State.frameSync_keeps
    | with_reducible apply done_keeps
    | simp only [Keeps.mk_iff]
    | with_reducible apply KeepsCore.of
    | (split <;> (rename_i hp; have hp := congrArg Prod.fst hp; dsimp only at hp; subst hp))
    | split

theorem State.blockEnd_keeps {z s : State} {p : Nat} {sub : Nat} (hz : Keeps z s) :
    Keeps z (State.blockEnd s p sub) := by
  unfold State.blockEnd
  try dsimp only
  repeat' first
    | (with_reducible intro _)
    | with_reducible assumption
    | with_reducible apply Keeps.ite
    | with_reducible apply State.take_keeps
    | with_reducible apply State.setBit_keeps
    | with_reducible apply State.each_keeps
    | with_reducible apply State.wrN_keeps
    | with_reducible apply State.bump_keeps
    | simp only [Keeps.mk_iff]
    | with_reducible apply KeepsCore.of
    | (split <;> (rename_i hp; have hp := congrArg Prod.fst hp; dsimp only at hp; subst hp))
    | split

theorem State.blockCount_keeps {z0 s : State} {p : Nat} {z : Bool} (hz : Keeps z0 s) :
    Keeps z0 (State.blockCount s p z) := by
  unfold State.blockCount
  try dsimp only
  repeat' first
    | (with_reducible intro _)
    | with_reducible assumption
    | with_reducible apply Keeps.ite
    | with_reducible apply State.setBit_keeps
    | with_reducible apply State.bump_keeps
    | with_reducible apply State.modAport_keeps
    | simp only [Keeps.mk_iff]
    | with_reducible apply KeepsCore.of
    | (split <;> (rename_i hp; have hp := congrArg Prod.fst hp; dsimp only at hp; subst hp))
    | split

theorem State.aesSub_keeps {z0 s : State} {p : Nat} {i : Nat} {x : Aes3Sub} {z : Bool} (hz : Keeps z0 s) :
    Keeps z0 (State.aesSub s p i x z) := by
  unfold State.aesSub
  try dsimp only
  repeat' first
    | (with_reducible intro _)
    | with_reducible assumption
    | with_reducible apply Keeps.ite
    | with_reducible apply State.when_keeps
    | with_reducible apply State.modAport_keeps
    | with_reducible apply State.bump_keeps
    | with_reducible apply State.blockEnd_keeps
    | with_reducible apply State.audioWrite_keeps
    | simp only [Keeps.mk_iff]
    | with_reducible apply KeepsCore.of
    | (split <;> (rename_i hp; have hp := congrArg Prod.fst hp; dsimp only at hp; subst hp))
    | split

theorem execAes3FrameRx_keeps {z s : State} {dt : Nat} {p : Fin 16} {f : Aes3Frame} (hz : Keeps z s) :
    KeepsOut z (execAes3FrameRx dt p f s) := by
  unfold execAes3FrameRx
  try dsimp only
  repeat' first
    | (with_reducible intro _)
    | with_reducible assumption
    | with_reducible apply KeepsOut.next
    | with_reducible apply KeepsOut.ite
    | with_reducible apply done_keeps
    | with_reducible apply Keeps.ite
    | with_reducible apply State.elapse_keeps
    | with_reducible apply State.takeMask_keeps
    | with_reducible apply State.blockCount_keeps
    | with_reducible apply State.when_keeps
    | with_reducible apply State.bump_keeps
    | with_reducible apply State.each_keeps
    | with_reducible apply State.take_keeps
    | with_reducible apply State.aesSub_keeps
    | with_reducible apply done_keeps
    | simp only [Keeps.mk_iff]
    | with_reducible apply KeepsCore.of
    | (split <;> (rename_i hp; have hp := congrArg Prod.fst hp; dsimp only at hp; subst hp))
    | split

theorem State.wclkFault_keeps {z s : State} {bit : Nat} (hz : Keeps z s) :
    Keeps z (State.wclkFault s bit) := by
  unfold State.wclkFault
  try dsimp only
  repeat' first
    | (with_reducible intro _)
    | with_reducible assumption
    | with_reducible apply Keeps.ite
    | with_reducible apply State.setBit_keeps
    | simp only [Keeps.mk_iff]
    | with_reducible apply KeepsCore.of
    | (split <;> (rename_i hp; have hp := congrArg Prod.fst hp; dsimp only at hp; subst hp))
    | split

theorem State.switchClock_keeps {z s : State} {back : Bool} (hz : Keeps z s) :
    Keeps z (State.switchClock s back) := by
  unfold State.switchClock
  try dsimp only
  repeat' first
    | (with_reducible intro _)
    | with_reducible assumption
    | with_reducible apply Keeps.ite
    | with_reducible apply State.restartPorts_keeps
    | with_reducible apply State.endFlywheel_keeps
    | with_reducible apply State.bump_keeps
    | with_reducible apply State.audioEvent_keeps
    | simp only [Keeps.mk_iff]
    | with_reducible apply KeepsCore.of
    | (split <;> (rename_i hp; have hp := congrArg Prod.fst hp; dsimp only at hp; subst hp))
    | split

theorem State.wclkLost_keeps {z s : State}  (hz : Keeps z s) :
    Keeps z (State.wclkLost s) := by
  unfold State.wclkLost
  try dsimp only
  repeat' first
    | (with_reducible intro _)
    | with_reducible assumption
    | with_reducible apply Keeps.ite
    | with_reducible apply State.switchClock_keeps
    | with_reducible apply State.endFlywheel_keeps
    | simp only [Keeps.mk_iff]
    | with_reducible apply KeepsCore.of
    | (split <;> (rename_i hp; have hp := congrArg Prod.fst hp; dsimp only at hp; subst hp))
    | split

theorem State.startFlywheel_keeps {z s : State}  (hz : Keeps z s) :
    Keeps z (State.startFlywheel s) := by
  unfold State.startFlywheel
  try dsimp only
  repeat' first
    | (with_reducible intro _)
    | with_reducible assumption
    | with_reducible apply Keeps.ite
    | with_reducible apply State.when_keeps
    | simp only [Keeps.mk_iff]
    | with_reducible apply KeepsCore.of
    | (split <;> (rename_i hp; have hp := congrArg Prod.fst hp; dsimp only at hp; subst hp))
    | split

theorem execWclkStop_keeps {z s : State} {dt : Nat} (hz : Keeps z s) :
    KeepsOut z (execWclkStop dt s) := by
  unfold execWclkStop
  try dsimp only
  repeat' first
    | (with_reducible intro _)
    | with_reducible assumption
    | with_reducible apply KeepsOut.next
    | with_reducible apply KeepsOut.ite
    | with_reducible apply done_keeps
    | with_reducible apply Keeps.ite
    | with_reducible apply State.elapse_keeps
    | with_reducible apply State.wclkFault_keeps
    | with_reducible apply State.startFlywheel_keeps
    | with_reducible apply done_keeps
    | simp only [Keeps.mk_iff]
    | with_reducible apply KeepsCore.of
    | (split <;> (rename_i hp; have hp := congrArg Prod.fst hp; dsimp only at hp; subst hp))
    | split

theorem execWclkGlitch_keeps {z s : State} {dt : Nat} (hz : Keeps z s) :
    KeepsOut z (execWclkGlitch dt s) := by
  unfold execWclkGlitch
  try dsimp only
  repeat' first
    | (with_reducible intro _)
    | with_reducible assumption
    | with_reducible apply KeepsOut.next
    | with_reducible apply KeepsOut.ite
    | with_reducible apply done_keeps
    | with_reducible apply Keeps.ite
    | with_reducible apply State.elapse_keeps
    | with_reducible apply State.wclkFault_keeps
    | with_reducible apply State.bump_keeps
    | with_reducible apply State.startFlywheel_keeps
    | with_reducible apply done_keeps
    | simp only [Keeps.mk_iff]
    | with_reducible apply KeepsCore.of
    | (split <;> (rename_i hp; have hp := congrArg Prod.fst hp; dsimp only at hp; subst hp))
    | split

theorem execWclkRateChange_keeps {z s : State} {dt : Nat} {estimate : Int} (hz : Keeps z s) :
    KeepsOut z (execWclkRateChange dt estimate s) := by
  unfold execWclkRateChange
  try dsimp only
  repeat' first
    | (with_reducible intro _)
    | with_reducible assumption
    | with_reducible apply KeepsOut.next
    | with_reducible apply KeepsOut.ite
    | with_reducible apply done_keeps
    | with_reducible apply Keeps.ite
    | with_reducible apply State.elapse_keeps
    | with_reducible apply State.wrI_keeps
    | with_reducible apply State.wclkFault_keeps
    | with_reducible apply State.wclkLost_keeps
    | with_reducible apply done_keeps
    | simp only [Keeps.mk_iff]
    | with_reducible apply KeepsCore.of
    | (split <;> (rename_i hp; have hp := congrArg Prod.fst hp; dsimp only at hp; subst hp))
    | split

theorem execFlywheelExpiry_keeps {z s : State} {dt : Nat} (hz : Keeps z s) :
    KeepsOut z (execFlywheelExpiry dt s) := by
  unfold execFlywheelExpiry
  try dsimp only
  repeat' first
    | (with_reducible intro _)
    | with_reducible assumption
    | with_reducible apply KeepsOut.next
    | with_reducible apply KeepsOut.ite
    | with_reducible apply done_keeps
    | with_reducible apply Keeps.ite
    | with_reducible apply State.elapse_keeps
    | with_reducible apply State.wclkLost_keeps
    | with_reducible apply done_keeps
    | simp only [Keeps.mk_iff]
    | with_reducible apply KeepsCore.of
    | (split <;> (rename_i hp; have hp := congrArg Prod.fst hp; dsimp only at hp; subst hp))
    | split

theorem execWclkQualified_keeps {z s : State} {dt : Nat} {estimate : Int} (hz : Keeps z s) :
    KeepsOut z (execWclkQualified dt estimate s) := by
  unfold execWclkQualified
  try dsimp only
  repeat' first
    | (with_reducible intro _)
    | with_reducible assumption
    | with_reducible apply KeepsOut.next
    | with_reducible apply KeepsOut.ite
    | with_reducible apply done_keeps
    | with_reducible apply Keeps.ite
    | with_reducible apply State.elapse_keeps
    | with_reducible apply State.setFld_keeps
    | with_reducible apply State.wrI_keeps
    | with_reducible apply State.when_keeps
    | with_reducible apply State.switchClock_keeps
    | with_reducible apply done_keeps
    | simp only [Keeps.mk_iff]
    | with_reducible apply KeepsCore.of
    | (split <;> (rename_i hp; have hp := congrArg Prod.fst hp; dsimp only at hp; subst hp))
    | split

end Sys2Proof.Machine
end

