-- ==== Sys2Proof/Laws/KeepsTime.lean ====
section
/-! SUPPORT. One lemma for each operation of Machine/Time.lean: it keeps what `Keeps` names. -/

namespace Sys2Proof.Machine

set_option linter.all false

theorem State.setTime_keeps {z s : State} {st : Nat} (hz : Keeps z s) :
    Keeps z (State.setTime s st) := by
  unfold State.setTime
  try dsimp only
  repeat' first
    | (with_reducible intro _)
    | with_reducible assumption
    | with_reducible apply Keeps.ite
    | with_reducible apply State.setFld_keeps
    | with_reducible apply State.raiseT_keeps
    | simp only [Keeps.mk_iff]
    | with_reducible apply KeepsCore.of
    | (split <;> (rename_i hp; have hp := congrArg Prod.fst hp; dsimp only at hp; subst hp))
    | split

theorem State.endE6_keeps {z s : State}  (hz : Keeps z s) :
    Keeps z (State.endE6 s) := by
  unfold State.endE6
  try dsimp only
  repeat' first
    | (with_reducible intro _)
    | with_reducible assumption
    | with_reducible apply Keeps.ite
    | with_reducible apply State.when_keeps
    | with_reducible apply State.enterPhase_keeps
    | with_reducible apply State.startE8_keeps
    | simp only [Keeps.mk_iff]
    | with_reducible apply KeepsCore.of
    | (split <;> (rename_i hp; have hp := congrArg Prod.fst hp; dsimp only at hp; subst hp))
    | split

theorem State.afterRaises_keeps {z s : State}  (hz : Keeps z s) :
    Keeps z (State.afterRaises s) := by
  unfold State.afterRaises
  try dsimp only
  repeat' first
    | (with_reducible intro _)
    | with_reducible assumption
    | with_reducible apply Keeps.ite
    | with_reducible apply State.endE6_keeps
    | simp only [Keeps.mk_iff]
    | with_reducible apply KeepsCore.of
    | (split <;> (rename_i hp; have hp := congrArg Prod.fst hp; dsimp only at hp; subst hp))
    | split

theorem State.doffStep_keeps {z s : State} {d : Int} (hz : Keeps z s) :
    Keeps z (State.doffStep s d) := by
  unfold State.doffStep
  try dsimp only
  repeat' first
    | (with_reducible intro _)
    | with_reducible assumption
    | with_reducible apply Keeps.ite
    | with_reducible apply State.when_keeps
    | with_reducible apply State.bump_keeps
    | with_reducible apply State.setBit_keeps
    | with_reducible apply State.raiseT_keeps
    | simp only [Keeps.mk_iff]
    | with_reducible apply KeepsCore.of
    | (split <;> (rename_i hp; have hp := congrArg Prod.fst hp; dsimp only at hp; subst hp))
    | split

theorem State.servo_keeps {z s : State} {off : Int} {slews : Bool} (hz : Keeps z s) :
    Keeps z (State.servo s off slews) := by
  unfold State.servo
  try dsimp only
  repeat' first
    | (with_reducible intro _)
    | with_reducible assumption
    | with_reducible apply Keeps.ite
    | with_reducible apply State.setBit_keeps
    | simp only [Keeps.mk_iff]
    | with_reducible apply KeepsCore.of
    | (split <;> (rename_i hp; have hp := congrArg Prod.fst hp; dsimp only at hp; subst hp))
    | split

theorem State.holdInc_keeps {z s : State}  (hz : Keeps z s) :
    Keeps z (State.holdInc s) := by
  unfold State.holdInc
  try dsimp only
  repeat' first
    | (with_reducible intro _)
    | with_reducible assumption
    | with_reducible apply Keeps.ite
    | with_reducible apply State.setBit_keeps
    | with_reducible apply State.freshId_keeps
    | simp only [Keeps.mk_iff]
    | with_reducible apply KeepsCore.of
    | (split <;> (rename_i hp; have hp := congrArg Prod.fst hp; dsimp only at hp; subst hp))
    | split

theorem State.runOffset_keeps {z s : State} {off : Int} (hz : Keeps z s) :
    Keeps z (State.runOffset s off) := by
  unfold State.runOffset
  try dsimp only
  repeat' first
    | (with_reducible intro _)
    | with_reducible assumption
    | with_reducible apply Keeps.ite
    | with_reducible apply State.when_keeps
    | with_reducible apply State.bump_keeps
    | with_reducible apply State.doffStep_keeps
    | simp only [Keeps.mk_iff]
    | with_reducible apply KeepsCore.of
    | (split <;> (rename_i hp; have hp := congrArg Prod.fst hp; dsimp only at hp; subst hp))
    | split

theorem State.slewOffset_keeps {z s : State} {off : Int} (hz : Keeps z s) :
    Keeps z (State.slewOffset s off) := by
  unfold State.slewOffset
  try dsimp only
  repeat' first
    | (with_reducible intro _)
    | with_reducible assumption
    | with_reducible apply Keeps.ite
    | with_reducible apply State.when_keeps
    | with_reducible apply State.bump_keeps
    | with_reducible apply State.servo_keeps
    | simp only [Keeps.mk_iff]
    | with_reducible apply KeepsCore.of
    | (split <;> (rename_i hp; have hp := congrArg Prod.fst hp; dsimp only at hp; subst hp))
    | split

theorem State.takeOffset_keeps {z s : State} {off : Int} (hz : Keeps z s) :
    Keeps z (State.takeOffset s off) := by
  unfold State.takeOffset
  try dsimp only
  repeat' first
    | (with_reducible intro _)
    | with_reducible assumption
    | with_reducible apply Keeps.ite
    | with_reducible apply State.doffStep_keeps
    | with_reducible apply State.servo_keeps
    | with_reducible apply State.slewOffset_keeps
    | with_reducible apply State.runOffset_keeps
    | simp only [Keeps.mk_iff]
    | with_reducible apply KeepsCore.of
    | (split <;> (rename_i hp; have hp := congrArg Prod.fst hp; dsimp only at hp; subst hp))
    | split

theorem State.lockTime_keeps {z s : State} {st : Nat} (hz : Keeps z s) :
    Keeps z (State.lockTime s st) := by
  unfold State.lockTime
  try dsimp only
  repeat' first
    | (with_reducible intro _)
    | with_reducible assumption
    | with_reducible apply Keeps.ite
    | with_reducible apply State.setTime_keeps
    | with_reducible apply State.endE6_keeps
    | simp only [Keeps.mk_iff]
    | with_reducible apply KeepsCore.of
    | (split <;> (rename_i hp; have hp := congrArg Prod.fst hp; dsimp only at hp; subst hp))
    | split

theorem State.lockJudge_keeps {z s : State} {off : Int} (hz : Keeps z s) :
    Keeps z (State.lockJudge s off) := by
  unfold State.lockJudge
  try dsimp only
  repeat' first
    | (with_reducible intro _)
    | with_reducible assumption
    | with_reducible apply Keeps.ite
    | with_reducible apply State.lockTime_keeps
    | with_reducible apply State.setTime_keeps
    | simp only [Keeps.mk_iff]
    | with_reducible apply KeepsCore.of
    | (split <;> (rename_i hp; have hp := congrArg Prod.fst hp; dsimp only at hp; subst hp))
    | split

theorem State.syncMeasured_keeps {z s : State} {rx : Int} {origin : Int} {corr : Int} (hz : Keeps z s) :
    Keeps z (State.syncMeasured s rx origin corr) := by
  unfold State.syncMeasured
  try dsimp only
  repeat' first
    | (with_reducible intro _)
    | with_reducible assumption
    | with_reducible apply Keeps.ite
    | with_reducible apply State.wrI_keeps
    | with_reducible apply State.bump_keeps
    | with_reducible apply State.takeOffset_keeps
    | with_reducible apply State.lockJudge_keeps
    | simp only [Keeps.mk_iff]
    | with_reducible apply KeepsCore.of
    | (split <;> (rename_i hp; have hp := congrArg Prod.fst hp; dsimp only at hp; subst hp))
    | split

theorem State.pathDelay_keeps {z s : State} {d : Int} (hz : Keeps z s) :
    Keeps z (State.pathDelay s d) := by
  unfold State.pathDelay
  try dsimp only
  repeat' first
    | (with_reducible intro _)
    | with_reducible assumption
    | with_reducible apply Keeps.ite
    | with_reducible apply State.take_keeps
    | with_reducible apply State.wrI_keeps
    | simp only [Keeps.mk_iff]
    | with_reducible apply KeepsCore.of
    | (split <;> (rename_i hp; have hp := congrArg Prod.fst hp; dsimp only at hp; subst hp))
    | split

theorem State.followBest_keeps {z s : State}  (hz : Keeps z s) :
    Keeps z (State.followBest s) := by
  unfold State.followBest
  try dsimp only
  repeat' first
    | (with_reducible intro _)
    | with_reducible assumption
    | with_reducible apply Keeps.ite
    | with_reducible apply State.setBit_keeps
    | with_reducible apply State.wr64_keeps
    | with_reducible apply State.wrN_keeps
    | with_reducible apply State.when_keeps
    | with_reducible apply State.raiseT_keeps
    | simp only [Keeps.mk_iff]
    | with_reducible apply KeepsCore.of
    | (split <;> (rename_i hp; have hp := congrArg Prod.fst hp; dsimp only at hp; subst hp))
    | split

theorem State.holdTime_keeps {z s : State}  (hz : Keeps z s) :
    Keeps z (State.holdTime s) := by
  unfold State.holdTime
  try dsimp only
  repeat' first
    | (with_reducible intro _)
    | with_reducible assumption
    | with_reducible apply Keeps.ite
    | with_reducible apply State.when_keeps
    | with_reducible apply State.holdInc_keeps
    | with_reducible apply State.setTime_keeps
    | simp only [Keeps.mk_iff]
    | with_reducible apply KeepsCore.of
    | (split <;> (rename_i hp; have hp := congrArg Prod.fst hp; dsimp only at hp; subst hp))
    | split

theorem State.masterLost_keeps {z s : State}  (hz : Keeps z s) :
    Keeps z (State.masterLost s) := by
  unfold State.masterLost
  try dsimp only
  repeat' first
    | (with_reducible intro _)
    | with_reducible assumption
    | with_reducible apply Keeps.ite
    | with_reducible apply State.followBest_keeps
    | with_reducible apply State.when_keeps
    | with_reducible apply State.holdTime_keeps
    | simp only [Keeps.mk_iff]
    | with_reducible apply KeepsCore.of
    | (split <;> (rename_i hp; have hp := congrArg Prod.fst hp; dsimp only at hp; subst hp))
    | split

theorem execSyncRx_keeps {z s : State} {dt : Nat} {m : SyncMsg} (hz : Keeps z s) :
    KeepsOut z (execSyncRx dt m s) := by
  unfold execSyncRx
  try dsimp only
  repeat' first
    | (with_reducible intro _)
    | with_reducible assumption
    | with_reducible apply KeepsOut.next
    | with_reducible apply KeepsOut.ite
    | with_reducible apply done_keeps
    | with_reducible apply Keeps.ite
    | with_reducible apply State.elapse_keeps
    | with_reducible apply State.bump_keeps
    | with_reducible apply State.freshId_keeps
    | with_reducible apply State.syncMeasured_keeps
    | with_reducible apply done_keeps
    | simp only [Keeps.mk_iff]
    | with_reducible apply KeepsCore.of
    | (split <;> (rename_i hp; have hp := congrArg Prod.fst hp; dsimp only at hp; subst hp))
    | split

theorem execFollowUpRx_keeps {z s : State} {dt : Nat} {sender : Nat} {seq : Nat} {origin : Int} {correction : Int} (hz : Keeps z s) :
    KeepsOut z (execFollowUpRx dt sender seq origin correction s) := by
  unfold execFollowUpRx
  try dsimp only
  repeat' first
    | (with_reducible intro _)
    | with_reducible assumption
    | with_reducible apply KeepsOut.next
    | with_reducible apply KeepsOut.ite
    | with_reducible apply done_keeps
    | with_reducible apply Keeps.ite
    | with_reducible apply State.elapse_keeps
    | with_reducible apply State.syncMeasured_keeps
    | with_reducible apply done_keeps
    | simp only [Keeps.mk_iff]
    | with_reducible apply KeepsCore.of
    | (split <;> (rename_i hp; have hp := congrArg Prod.fst hp; dsimp only at hp; subst hp))
    | split

theorem execAnnounceRx_keeps {z s : State} {dt : Nat} {m : Announce} (hz : Keeps z s) :
    KeepsOut z (execAnnounceRx dt m s) := by
  unfold execAnnounceRx
  try dsimp only
  repeat' first
    | (with_reducible intro _)
    | with_reducible assumption
    | with_reducible apply KeepsOut.next
    | with_reducible apply KeepsOut.ite
    | with_reducible apply done_keeps
    | with_reducible apply Keeps.ite
    | with_reducible apply State.elapse_keeps
    | with_reducible apply State.bump_keeps
    | with_reducible apply State.when_keeps
    | with_reducible apply State.each_keeps
    | with_reducible apply State.wr_keeps
    | with_reducible apply State.followBest_keeps
    | with_reducible apply done_keeps
    | simp only [Keeps.mk_iff]
    | with_reducible apply KeepsCore.of
    | (split <;> (rename_i hp; have hp := congrArg Prod.fst hp; dsimp only at hp; subst hp))
    | split

theorem execDelayReqSend_keeps {z s : State} {dt : Nat} (hz : Keeps z s) :
    KeepsOut z (execDelayReqSend dt s) := by
  unfold execDelayReqSend
  try dsimp only
  repeat' first
    | (with_reducible intro _)
    | with_reducible assumption
    | with_reducible apply KeepsOut.next
    | with_reducible apply KeepsOut.ite
    | with_reducible apply done_keeps
    | with_reducible apply Keeps.ite
    | with_reducible apply State.elapse_keeps
    | with_reducible apply State.toSub_keeps
    | with_reducible apply done_keeps
    | simp only [Keeps.mk_iff]
    | with_reducible apply KeepsCore.of
    | (split <;> (rename_i hp; have hp := congrArg Prod.fst hp; dsimp only at hp; subst hp))
    | split

theorem execDelayRespRx_keeps {z s : State} {dt : Nat} {domain : Nat} {seq : Nat} {receipt : Int} {correction : Int} {transport : Nat} (hz : Keeps z s) :
    KeepsOut z (execDelayRespRx dt domain seq receipt correction transport s) := by
  unfold execDelayRespRx
  try dsimp only
  repeat' first
    | (with_reducible intro _)
    | with_reducible assumption
    | with_reducible apply KeepsOut.next
    | with_reducible apply KeepsOut.ite
    | with_reducible apply done_keeps
    | with_reducible apply Keeps.ite
    | with_reducible apply State.elapse_keeps
    | with_reducible apply State.bump_keeps
    | with_reducible apply State.pathDelay_keeps
    | with_reducible apply State.freshId_keeps
    | with_reducible apply done_keeps
    | simp only [Keeps.mk_iff]
    | with_reducible apply KeepsCore.of
    | (split <;> (rename_i hp; have hp := congrArg Prod.fst hp; dsimp only at hp; subst hp))
    | split

theorem execPdelayReqRx_keeps {z s : State} {dt : Nat} {port : Nat} {domain : Nat} {correction : Int} {transport : Nat} (hz : Keeps z s) :
    KeepsOut z (execPdelayReqRx dt port domain correction transport s) := by
  unfold execPdelayReqRx
  try dsimp only
  repeat' first
    | (with_reducible intro _)
    | with_reducible assumption
    | with_reducible apply KeepsOut.next
    | with_reducible apply KeepsOut.ite
    | with_reducible apply done_keeps
    | with_reducible apply Keeps.ite
    | with_reducible apply State.elapse_keeps
    | with_reducible apply State.bump_keeps
    | with_reducible apply State.toSub_keeps
    | with_reducible apply State.freshId_keeps
    | with_reducible apply done_keeps
    | simp only [Keeps.mk_iff]
    | with_reducible apply KeepsCore.of
    | (split <;> (rename_i hp; have hp := congrArg Prod.fst hp; dsimp only at hp; subst hp))
    | split

theorem execAnnounceTimeout_keeps {z s : State} {dt : Nat} (hz : Keeps z s) :
    KeepsOut z (execAnnounceTimeout dt s) := by
  unfold execAnnounceTimeout
  try dsimp only
  repeat' first
    | (with_reducible intro _)
    | with_reducible assumption
    | with_reducible apply KeepsOut.next
    | with_reducible apply KeepsOut.ite
    | with_reducible apply done_keeps
    | with_reducible apply Keeps.ite
    | with_reducible apply State.elapse_keeps
    | with_reducible apply State.bump_keeps
    | with_reducible apply State.masterLost_keeps
    | with_reducible apply done_keeps
    | simp only [Keeps.mk_iff]
    | with_reducible apply KeepsCore.of
    | (split <;> (rename_i hp; have hp := congrArg Prod.fst hp; dsimp only at hp; subst hp))
    | split

theorem execTimeAcquisitionTimeout_keeps {z s : State} {dt : Nat} (hz : Keeps z s) :
    KeepsOut z (execTimeAcquisitionTimeout dt s) := by
  unfold execTimeAcquisitionTimeout
  try dsimp only
  repeat' first
    | (with_reducible intro _)
    | with_reducible assumption
    | with_reducible apply KeepsOut.next
    | with_reducible apply KeepsOut.ite
    | with_reducible apply done_keeps
    | with_reducible apply Keeps.ite
    | with_reducible apply State.elapse_keeps
    | with_reducible apply State.holdTime_keeps
    | with_reducible apply State.endE6_keeps
    | with_reducible apply State.raiseT_keeps
    | with_reducible apply done_keeps
    | simp only [Keeps.mk_iff]
    | with_reducible apply KeepsCore.of
    | (split <;> (rename_i hp; have hp := congrArg Prod.fst hp; dsimp only at hp; subst hp))
    | split

theorem State.ppsGoodEdge_keeps {z s : State} {t : Int} (hz : Keeps z s) :
    Keeps z (State.ppsGoodEdge s t) := by
  unfold State.ppsGoodEdge
  try dsimp only
  repeat' first
    | (with_reducible intro _)
    | with_reducible assumption
    | with_reducible apply Keeps.ite
    | with_reducible apply State.when_keeps
    | with_reducible apply State.raiseT_keeps
    | with_reducible apply State.doffStep_keeps
    | with_reducible apply State.takeOffset_keeps
    | with_reducible apply State.lockTime_keeps
    | simp only [Keeps.mk_iff]
    | with_reducible apply KeepsCore.of
    | (split <;> (rename_i hp; have hp := congrArg Prod.fst hp; dsimp only at hp; subst hp))
    | split

theorem execPpsInEdge_keeps {z s : State} {dt : Nat} (hz : Keeps z s) :
    KeepsOut z (execPpsInEdge dt s) := by
  unfold execPpsInEdge
  try dsimp only
  repeat' first
    | (with_reducible intro _)
    | with_reducible assumption
    | with_reducible apply KeepsOut.next
    | with_reducible apply KeepsOut.ite
    | with_reducible apply done_keeps
    | with_reducible apply Keeps.ite
    | with_reducible apply State.elapse_keeps
    | with_reducible apply State.wrN_keeps
    | with_reducible apply State.wrI_keeps
    | with_reducible apply State.freshId_keeps
    | with_reducible apply State.ppsGoodEdge_keeps
    | with_reducible apply State.bump_keeps
    | with_reducible apply State.raiseT_keeps
    | with_reducible apply done_keeps
    | simp only [Keeps.mk_iff]
    | with_reducible apply KeepsCore.of
    | (split <;> (rename_i hp; have hp := congrArg Prod.fst hp; dsimp only at hp; subst hp))
    | split

theorem execPpsStop_keeps {z s : State} {dt : Nat} (hz : Keeps z s) :
    KeepsOut z (execPpsStop dt s) := by
  unfold execPpsStop
  try dsimp only
  repeat' first
    | (with_reducible intro _)
    | with_reducible assumption
    | with_reducible apply KeepsOut.next
    | with_reducible apply KeepsOut.ite
    | with_reducible apply done_keeps
    | with_reducible apply Keeps.ite
    | with_reducible apply State.elapse_keeps
    | with_reducible apply State.holdInc_keeps
    | with_reducible apply State.setTime_keeps
    | with_reducible apply State.raiseT_keeps
    | with_reducible apply done_keeps
    | simp only [Keeps.mk_iff]
    | with_reducible apply KeepsCore.of
    | (split <;> (rename_i hp; have hp := congrArg Prod.fst hp; dsimp only at hp; subst hp))
    | split

theorem execPpsOutSecond_keeps {z s : State} {dt : Nat} (hz : Keeps z s) :
    KeepsOut z (execPpsOutSecond dt s) := by
  unfold execPpsOutSecond
  try dsimp only
  repeat' first
    | (with_reducible intro _)
    | with_reducible assumption
    | with_reducible apply KeepsOut.next
    | with_reducible apply KeepsOut.ite
    | with_reducible apply done_keeps
    | with_reducible apply Keeps.ite
    | with_reducible apply State.elapse_keeps
    | with_reducible apply State.send_keeps
    | with_reducible apply done_keeps
    | simp only [Keeps.mk_iff]
    | with_reducible apply KeepsCore.of
    | (split <;> (rename_i hp; have hp := congrArg Prod.fst hp; dsimp only at hp; subst hp))
    | split

theorem State.selectRef_keeps {z s : State} {x : Nat} {count : Bool} (hz : Keeps z s) :
    Keeps z (State.selectRef s x count) := by
  unfold State.selectRef
  try dsimp only
  repeat' first
    | (with_reducible intro _)
    | with_reducible assumption
    | with_reducible apply Keeps.ite
    | with_reducible apply State.setFld_keeps
    | with_reducible apply State.raiseT_keeps
    | with_reducible apply State.when_keeps
    | with_reducible apply State.bump_keeps
    | simp only [Keeps.mk_iff]
    | with_reducible apply KeepsCore.of
    | (split <;> (rename_i hp; have hp := congrArg Prod.fst hp; dsimp only at hp; subst hp))
    | split

theorem State.refFault_keeps {z s : State} {r : Nat} {kind : Nat} (hz : Keeps z s) :
    Keeps z (State.refFault s r kind) := by
  unfold State.refFault
  try dsimp only
  repeat' first
    | (with_reducible intro _)
    | with_reducible assumption
    | with_reducible apply Keeps.ite
    | with_reducible apply State.setBit_keeps
    | with_reducible apply State.raiseT_keeps
    | with_reducible apply State.selectRef_keeps
    | with_reducible apply State.snuffAndReset_keeps
    | simp only [Keeps.mk_iff]
    | with_reducible apply KeepsCore.of
    | (split <;> (rename_i hp; have hp := congrArg Prod.fst hp; dsimp only at hp; subst hp))
    | split

theorem execRefclkStop_keeps {z s : State} {dt : Nat} {r : Fin 2} (hz : Keeps z s) :
    KeepsOut z (execRefclkStop dt r s) := by
  unfold execRefclkStop
  try dsimp only
  repeat' first
    | (with_reducible intro _)
    | with_reducible assumption
    | with_reducible apply KeepsOut.next
    | with_reducible apply KeepsOut.ite
    | with_reducible apply done_keeps
    | with_reducible apply Keeps.ite
    | with_reducible apply State.elapse_keeps
    | with_reducible apply State.refFault_keeps
    | with_reducible apply done_keeps
    | simp only [Keeps.mk_iff]
    | with_reducible apply KeepsCore.of
    | (split <;> (rename_i hp; have hp := congrArg Prod.fst hp; dsimp only at hp; subst hp))
    | split

theorem execRefclkGlitch_keeps {z s : State} {dt : Nat} {r : Fin 2} (hz : Keeps z s) :
    KeepsOut z (execRefclkGlitch dt r s) := by
  unfold execRefclkGlitch
  try dsimp only
  repeat' first
    | (with_reducible intro _)
    | with_reducible assumption
    | with_reducible apply KeepsOut.next
    | with_reducible apply KeepsOut.ite
    | with_reducible apply done_keeps
    | with_reducible apply Keeps.ite
    | with_reducible apply State.elapse_keeps
    | with_reducible apply State.refFault_keeps
    | with_reducible apply done_keeps
    | simp only [Keeps.mk_iff]
    | with_reducible apply KeepsCore.of
    | (split <;> (rename_i hp; have hp := congrArg Prod.fst hp; dsimp only at hp; subst hp))
    | split

theorem execRefclkRateChange_keeps {z s : State} {dt : Nat} {r : Fin 2} {estimate : Int} (hz : Keeps z s) :
    KeepsOut z (execRefclkRateChange dt r estimate s) := by
  unfold execRefclkRateChange
  try dsimp only
  repeat' first
    | (with_reducible intro _)
    | with_reducible assumption
    | with_reducible apply KeepsOut.next
    | with_reducible apply KeepsOut.ite
    | with_reducible apply done_keeps
    | with_reducible apply Keeps.ite
    | with_reducible apply State.elapse_keeps
    | with_reducible apply State.when_keeps
    | with_reducible apply State.wrI_keeps
    | with_reducible apply State.refFault_keeps
    | with_reducible apply done_keeps
    | simp only [Keeps.mk_iff]
    | with_reducible apply KeepsCore.of
    | (split <;> (rename_i hp; have hp := congrArg Prod.fst hp; dsimp only at hp; subst hp))
    | split

theorem execRefclkQualified_keeps {z s : State} {dt : Nat} {r : Fin 2} (hz : Keeps z s) :
    KeepsOut z (execRefclkQualified dt r s) := by
  unfold execRefclkQualified
  try dsimp only
  repeat' first
    | (with_reducible intro _)
    | with_reducible assumption
    | with_reducible apply KeepsOut.next
    | with_reducible apply KeepsOut.ite
    | with_reducible apply done_keeps
    | with_reducible apply Keeps.ite
    | with_reducible apply State.elapse_keeps
    | with_reducible apply State.setFld_keeps
    | with_reducible apply State.when_keeps
    | with_reducible apply State.raiseT_keeps
    | with_reducible apply State.selectRef_keeps
    | with_reducible apply done_keeps
    | simp only [Keeps.mk_iff]
    | with_reducible apply KeepsCore.of
    | (split <;> (rename_i hp; have hp := congrArg Prod.fst hp; dsimp only at hp; subst hp))
    | split

theorem execPilotRatioMeasure_keeps {z s : State} {dt : Nat} {ratio : Int} (hz : Keeps z s) :
    KeepsOut z (execPilotRatioMeasure dt ratio s) := by
  unfold execPilotRatioMeasure
  try dsimp only
  repeat' first
    | (with_reducible intro _)
    | with_reducible assumption
    | with_reducible apply KeepsOut.next
    | with_reducible apply KeepsOut.ite
    | with_reducible apply done_keeps
    | with_reducible apply Keeps.ite
    | with_reducible apply State.elapse_keeps
    | with_reducible apply State.wrI_keeps
    | with_reducible apply done_keeps
    | simp only [Keeps.mk_iff]
    | with_reducible apply KeepsCore.of
    | (split <;> (rename_i hp; have hp := congrArg Prod.fst hp; dsimp only at hp; subst hp))
    | split

end Sys2Proof.Machine
end

