-- ==== Sys2Proof/Laws/KeepsEmergence.lean ====
section
/-! SUPPORT. One lemma for each operation of Machine/Emergence.lean: it keeps what `Keeps` names. -/

namespace Sys2Proof.Machine

set_option linter.all false

theorem execResetNAssert_keeps {z s : State} {dt : Nat} (hz : Keeps z s) :
    KeepsOut z (execResetNAssert dt s) := by
  unfold execResetNAssert
  try dsimp only
  repeat' first
    | (with_reducible intro _)
    | with_reducible assumption
    | with_reducible apply KeepsOut.next
    | with_reducible apply KeepsOut.ite
    | with_reducible apply done_keeps
    | with_reducible apply Keeps.ite
    | with_reducible apply State.elapse_keeps
    | with_reducible apply State.snuffAndReset_keeps
    | with_reducible apply done_keeps
    | simp only [Keeps.mk_iff]
    | with_reducible apply KeepsCore.of
    | (split <;> (rename_i hp; have hp := congrArg Prod.fst hp; dsimp only at hp; subst hp))
    | split

theorem execRailLoss_keeps {z s : State} {dt : Nat} {rail : Rail} {uv : Nat} (hz : Keeps z s) :
    KeepsOut z (execRailLoss dt rail uv s) := by
  unfold execRailLoss
  try dsimp only
  repeat' first
    | (with_reducible intro _)
    | with_reducible assumption
    | with_reducible apply KeepsOut.next
    | with_reducible apply KeepsOut.ite
    | with_reducible apply done_keeps
    | with_reducible apply Keeps.ite
    | with_reducible apply State.elapse_keeps
    | with_reducible apply State.snuff_keeps
    | with_reducible apply State.coldReset_keeps
    | with_reducible apply done_keeps
    | simp only [Keeps.mk_iff]
    | with_reducible apply KeepsCore.of
    | (split <;> (rename_i hp; have hp := congrArg Prod.fst hp; dsimp only at hp; subst hp))
    | split

theorem State.emgResetWrite_keeps {z s : State} {key : Word} (hz : Keeps z s) :
    Keeps z (State.emgResetWrite s key) := by
  unfold State.emgResetWrite
  try dsimp only
  repeat' first
    | (with_reducible intro _)
    | with_reducible assumption
    | with_reducible apply Keeps.ite
    | with_reducible apply State.snuffAndReset_keeps
    | with_reducible apply State.refuse_keeps
    | simp only [Keeps.mk_iff]
    | with_reducible apply KeepsCore.of
    | (split <;> (rename_i hp; have hp := congrArg Prod.fst hp; dsimp only at hp; subst hp))
    | split

theorem execEmgReset_keeps {z s : State} {dt : Nat} {key : Word} (hz : Keeps z s) :
    KeepsOut z (execEmgReset dt key s) := by
  unfold execEmgReset
  try dsimp only
  repeat' first
    | (with_reducible intro _)
    | with_reducible assumption
    | with_reducible apply KeepsOut.next
    | with_reducible apply KeepsOut.ite
    | with_reducible apply done_keeps
    | with_reducible apply Keeps.ite
    | with_reducible apply State.elapse_keeps
    | with_reducible apply State.emgResetWrite_keeps
    | with_reducible apply done_keeps
    | simp only [Keeps.mk_iff]
    | with_reducible apply KeepsCore.of
    | (split <;> (rename_i hp; have hp := congrArg Prod.fst hp; dsimp only at hp; subst hp))
    | split

theorem State.setTest_keeps {z s : State} {d : Nat} {t : DieTest} (hz : Keeps z s) :
    Keeps z (State.setTest s d t) := by
  unfold State.setTest
  try dsimp only
  repeat' first
    | (with_reducible intro _)
    | with_reducible assumption
    | with_reducible apply Keeps.ite
    | simp only [Keeps.mk_iff]
    | with_reducible apply KeepsCore.of
    | (split <;> (rename_i hp; have hp := congrArg Prod.fst hp; dsimp only at hp; subst hp))
    | split

theorem State.setRail_keeps {z s : State} {d : Nat} {b : Bool} (hz : Keeps z s) :
    Keeps z (State.setRail s d b) := by
  unfold State.setRail
  try dsimp only
  repeat' first
    | (with_reducible intro _)
    | with_reducible assumption
    | with_reducible apply Keeps.ite
    | simp only [Keeps.mk_iff]
    | with_reducible apply KeepsCore.of
    | (split <;> (rename_i hp; have hp := congrArg Prod.fst hp; dsimp only at hp; subst hp))
    | split

theorem execE0Start_keeps {z s : State} {dt : Nat} {vcores : List Nat} {rails : List (Rail × Nat)} (hz : Keeps z s) :
    KeepsOut z (execE0Start dt vcores rails s) := by
  unfold execE0Start
  try dsimp only
  repeat' first
    | (with_reducible intro _)
    | with_reducible assumption
    | with_reducible apply KeepsOut.next
    | with_reducible apply KeepsOut.ite
    | with_reducible apply done_keeps
    | with_reducible apply Keeps.ite
    | with_reducible apply State.elapse_keeps
    | with_reducible apply State.when_keeps
    | with_reducible apply State.coldReset_keeps
    | with_reducible apply State.setFld_keeps
    | with_reducible apply done_keeps
    | simp only [Keeps.mk_iff]
    | with_reducible apply KeepsCore.of
    | (split <;> (rename_i hp; have hp := congrArg Prod.fst hp; dsimp only at hp; subst hp))
    | split

theorem State.startTests_keeps {z s : State}  (hz : Keeps z s) :
    Keeps z (State.startTests s) := by
  unfold State.startTests
  try dsimp only
  repeat' first
    | (with_reducible intro _)
    | with_reducible assumption
    | with_reducible apply Keeps.ite
    | with_reducible apply State.each_keeps
    | with_reducible apply State.when_keeps
    | with_reducible apply State.setTest_keeps
    | simp only [Keeps.mk_iff]
    | with_reducible apply KeepsCore.of
    | (split <;> (rename_i hp; have hp := congrArg Prod.fst hp; dsimp only at hp; subst hp))
    | split

theorem execE0Complete_keeps {z s : State} {dt : Nat} (hz : Keeps z s) :
    KeepsOut z (execE0Complete dt s) := by
  unfold execE0Complete
  try dsimp only
  repeat' first
    | (with_reducible intro _)
    | with_reducible assumption
    | with_reducible apply KeepsOut.next
    | with_reducible apply KeepsOut.ite
    | with_reducible apply done_keeps
    | with_reducible apply Keeps.ite
    | with_reducible apply State.elapse_keeps
    | with_reducible apply State.wrN_keeps
    | with_reducible apply State.each_keeps
    | with_reducible apply State.take_keeps
    | with_reducible apply State.setBit_keeps
    | with_reducible apply State.setFld_keeps
    | with_reducible apply State.newNonce_keeps
    | with_reducible apply State.afterDraw_keeps
    | with_reducible apply State.enterPhase_keeps
    | with_reducible apply State.startTests_keeps
    | with_reducible apply State.i2cRefresh_keeps
    | with_reducible apply done_keeps
    | simp only [Keeps.mk_iff]
    | with_reducible apply KeepsCore.of
    | (split <;> (rename_i hp; have hp := congrArg Prod.fst hp; dsimp only at hp; subst hp))
    | split

theorem State.endE1_keeps {z s : State}  (hz : Keeps z s) :
    Keeps z (State.endE1 s) := by
  unfold State.endE1
  try dsimp only
  repeat' first
    | (with_reducible intro _)
    | with_reducible assumption
    | with_reducible apply Keeps.ite
    | with_reducible apply State.enterPhase_keeps
    | simp only [Keeps.mk_iff]
    | with_reducible apply KeepsCore.of
    | (split <;> (rename_i hp; have hp := congrArg Prod.fst hp; dsimp only at hp; subst hp))
    | split

theorem State.failTest_keeps {z s : State} {d : Nat} (hz : Keeps z s) :
    Keeps z (State.failTest s d) := by
  unfold State.failTest
  try dsimp only
  repeat' first
    | (with_reducible intro _)
    | with_reducible assumption
    | with_reducible apply Keeps.ite
    | with_reducible apply State.setTest_keeps
    | with_reducible apply State.endE1_keeps
    | simp only [Keeps.mk_iff]
    | with_reducible apply KeepsCore.of
    | (split <;> (rename_i hp; have hp := congrArg Prod.fst hp; dsimp only at hp; subst hp))
    | split

theorem execVcoreRailInRange_keeps {z s : State} {dt : Nat} {d : Fin 8} (hz : Keeps z s) :
    KeepsOut z (execVcoreRailInRange dt d s) := by
  unfold execVcoreRailInRange
  try dsimp only
  repeat' first
    | (with_reducible intro _)
    | with_reducible assumption
    | with_reducible apply KeepsOut.next
    | with_reducible apply KeepsOut.ite
    | with_reducible apply done_keeps
    | with_reducible apply Keeps.ite
    | with_reducible apply State.elapse_keeps
    | with_reducible apply State.setRail_keeps
    | with_reducible apply State.setTest_keeps
    | with_reducible apply done_keeps
    | simp only [Keeps.mk_iff]
    | with_reducible apply KeepsCore.of
    | (split <;> (rename_i hp; have hp := congrArg Prod.fst hp; dsimp only at hp; subst hp))
    | split

theorem execVcoreRangeTimeout_keeps {z s : State} {dt : Nat} {d : Fin 8} (hz : Keeps z s) :
    KeepsOut z (execVcoreRangeTimeout dt d s) := by
  unfold execVcoreRangeTimeout
  try dsimp only
  repeat' first
    | (with_reducible intro _)
    | with_reducible assumption
    | with_reducible apply KeepsOut.next
    | with_reducible apply KeepsOut.ite
    | with_reducible apply done_keeps
    | with_reducible apply Keeps.ite
    | with_reducible apply State.elapse_keeps
    | with_reducible apply State.failTest_keeps
    | with_reducible apply done_keeps
    | simp only [Keeps.mk_iff]
    | with_reducible apply KeepsCore.of
    | (split <;> (rename_i hp; have hp := congrArg Prod.fst hp; dsimp only at hp; subst hp))
    | split

theorem execDieSelfTestDone_keeps {z s : State} {dt : Nat} {d : Fin 8} {passed : Bool} (hz : Keeps z s) :
    KeepsOut z (execDieSelfTestDone dt d passed s) := by
  unfold execDieSelfTestDone
  try dsimp only
  repeat' first
    | (with_reducible intro _)
    | with_reducible assumption
    | with_reducible apply KeepsOut.next
    | with_reducible apply KeepsOut.ite
    | with_reducible apply done_keeps
    | with_reducible apply Keeps.ite
    | with_reducible apply State.elapse_keeps
    | with_reducible apply State.when_keeps
    | with_reducible apply State.setBit_keeps
    | with_reducible apply State.setTest_keeps
    | with_reducible apply State.endE1_keeps
    | with_reducible apply State.failTest_keeps
    | with_reducible apply done_keeps
    | simp only [Keeps.mk_iff]
    | with_reducible apply KeepsCore.of
    | (split <;> (rename_i hp; have hp := congrArg Prod.fst hp; dsimp only at hp; subst hp))
    | split

theorem execE1DieTimeout_keeps {z s : State} {dt : Nat} {d : Fin 8} (hz : Keeps z s) :
    KeepsOut z (execE1DieTimeout dt d s) := by
  unfold execE1DieTimeout
  try dsimp only
  repeat' first
    | (with_reducible intro _)
    | with_reducible assumption
    | with_reducible apply KeepsOut.next
    | with_reducible apply KeepsOut.ite
    | with_reducible apply done_keeps
    | with_reducible apply Keeps.ite
    | with_reducible apply State.elapse_keeps
    | with_reducible apply State.failTest_keeps
    | with_reducible apply done_keeps
    | simp only [Keeps.mk_iff]
    | with_reducible apply KeepsCore.of
    | (split <;> (rename_i hp; have hp := congrArg Prod.fst hp; dsimp only at hp; subst hp))
    | split

theorem State.bringUpDie_keeps {z s : State} {d : Nat} (hz : Keeps z s) :
    Keeps z (State.bringUpDie s d) := by
  unfold State.bringUpDie
  try dsimp only
  repeat' first
    | (with_reducible intro _)
    | with_reducible assumption
    | with_reducible apply Keeps.ite
    | with_reducible apply State.setBit_keeps
    | with_reducible apply State.each_keeps
    | with_reducible apply State.setFld_keeps
    | simp only [Keeps.mk_iff]
    | with_reducible apply KeepsCore.of
    | (split <;> (rename_i hp; have hp := congrArg Prod.fst hp; dsimp only at hp; subst hp))
    | split

theorem State.holdDie_keeps {z s : State} {d : Nat} (hz : Keeps z s) :
    Keeps z (State.holdDie s d) := by
  unfold State.holdDie
  try dsimp only
  repeat' first
    | (with_reducible intro _)
    | with_reducible assumption
    | with_reducible apply Keeps.ite
    | with_reducible apply State.raise_keeps
    | with_reducible apply State.setBit_keeps
    | with_reducible apply State.each_keeps
    | simp only [Keeps.mk_iff]
    | with_reducible apply KeepsCore.of
    | (split <;> (rename_i hp; have hp := congrArg Prod.fst hp; dsimp only at hp; subst hp))
    | split

theorem execE2Complete_keeps {z s : State} {dt : Nat} {linksUp : List Bool} (hz : Keeps z s) :
    KeepsOut z (execE2Complete dt linksUp s) := by
  unfold execE2Complete
  try dsimp only
  repeat' first
    | (with_reducible intro _)
    | with_reducible assumption
    | with_reducible apply KeepsOut.next
    | with_reducible apply KeepsOut.ite
    | with_reducible apply done_keeps
    | with_reducible apply Keeps.ite
    | with_reducible apply Keeps.foldl
    | with_reducible apply Keeps.foldlFst
    | with_reducible apply State.elapse_keeps
    | with_reducible apply State.setRecv_keeps
    | with_reducible apply State.setFld_keeps
    | with_reducible apply State.setBit_keeps
    | with_reducible apply State.each_keeps
    | with_reducible apply State.bringUpDie_keeps
    | with_reducible apply State.holdDie_keeps
    | with_reducible apply State.startE3_keeps
    | with_reducible apply State.setLane_keeps
    | with_reducible apply State.retireNow_keeps
    | with_reducible apply done_keeps
    | simp only [Keeps.mk_iff]
    | with_reducible apply KeepsCore.of
    | (split <;> (rename_i hp; have hp := congrArg Prod.fst hp; dsimp only at hp; subst hp))
    | split

theorem State.bootRecord_keeps {z s : State}  (hz : Keeps z s) :
    Keeps z (State.bootRecord s) := by
  unfold State.bootRecord
  try dsimp only
  repeat' first
    | (with_reducible intro _)
    | with_reducible assumption
    | with_reducible apply Keeps.ite
    | with_reducible apply State.journal_keeps
    | simp only [Keeps.mk_iff]
    | with_reducible apply KeepsCore.of
    | (split <;> (rename_i hp; have hp := congrArg Prod.fst hp; dsimp only at hp; subst hp))
    | split

theorem State.startE4_keeps {z s : State}  (hz : Keeps z s) :
    Keeps z (State.startE4 s) := by
  unfold State.startE4
  try dsimp only
  repeat' first
    | (with_reducible intro _)
    | with_reducible assumption
    | with_reducible apply Keeps.ite
    | with_reducible apply State.enterPhase_keeps
    | with_reducible apply State.take_keeps
    | with_reducible apply State.each_keeps
    | with_reducible apply State.setFld_keeps
    | with_reducible apply State.modMctl_keeps
    | with_reducible apply State.setMc_keeps
    | with_reducible apply State.pmbAsk_keeps
    | with_reducible apply State.when_keeps
    | with_reducible apply State.setBit_keeps
    | simp only [Keeps.mk_iff]
    | with_reducible apply KeepsCore.of
    | (split <;> (rename_i hp; have hp := congrArg Prod.fst hp; dsimp only at hp; subst hp))
    | split

theorem State.noImageHalt_keeps {z s : State} {cause : Option Nat} (hz : Keeps z s) :
    Keeps z (State.noImageHalt s cause) := by
  unfold State.noImageHalt
  try dsimp only
  repeat' first
    | (with_reducible intro _)
    | with_reducible assumption
    | with_reducible apply Keeps.ite
    | with_reducible apply State.recordFail_keeps
    | with_reducible apply State.halt_keeps
    | simp only [Keeps.mk_iff]
    | with_reducible apply KeepsCore.of
    | (split <;> (rename_i hp; have hp := congrArg Prod.fst hp; dsimp only at hp; subst hp))
    | split

theorem execImageLoadDone_keeps {z s : State} {dt : Nat} {answersA : Bool} {answersB : Bool} (hz : Keeps z s) :
    KeepsOut z (execImageLoadDone dt answersA answersB s) := by
  unfold execImageLoadDone
  try dsimp only
  repeat' first
    | (with_reducible intro _)
    | with_reducible assumption
    | with_reducible apply KeepsOut.next
    | with_reducible apply KeepsOut.ite
    | with_reducible apply done_keeps
    | with_reducible apply Keeps.ite
    | with_reducible apply State.elapse_keeps
    | with_reducible apply State.noImageHalt_keeps
    | with_reducible apply State.scanLog_keeps
    | with_reducible apply State.bootRecord_keeps
    | with_reducible apply State.choose_keeps
    | with_reducible apply State.loadImage_keeps
    | with_reducible apply State.startE4_keeps
    | with_reducible apply done_keeps
    | simp only [Keeps.mk_iff]
    | with_reducible apply KeepsCore.of
    | (split <;> (rename_i hp; have hp := congrArg Prod.fst hp; dsimp only at hp; subst hp))
    | split

theorem execHaltedRescan_keeps {z s : State} {dt : Nat} (hz : Keeps z s) :
    KeepsOut z (execHaltedRescan dt s) := by
  unfold execHaltedRescan
  try dsimp only
  repeat' first
    | (with_reducible intro _)
    | with_reducible assumption
    | with_reducible apply KeepsOut.next
    | with_reducible apply KeepsOut.ite
    | with_reducible apply done_keeps
    | with_reducible apply Keeps.ite
    | with_reducible apply State.elapse_keeps
    | with_reducible apply State.startE3_keeps
    | with_reducible apply done_keeps
    | simp only [Keeps.mk_iff]
    | with_reducible apply KeepsCore.of
    | (split <;> (rename_i hp; have hp := congrArg Prod.fst hp; dsimp only at hp; subst hp))
    | split

theorem execRestoreDone_keeps {z s : State} {dt : Nat} (hz : Keeps z s) :
    KeepsOut z (execRestoreDone dt s) := by
  unfold execRestoreDone
  try dsimp only
  repeat' first
    | (with_reducible intro _)
    | with_reducible assumption
    | with_reducible apply KeepsOut.next
    | with_reducible apply KeepsOut.ite
    | with_reducible apply done_keeps
    | with_reducible apply Keeps.ite
    | with_reducible apply State.elapse_keeps
    | with_reducible apply State.closeRestore_keeps
    | with_reducible apply done_keeps
    | simp only [Keeps.mk_iff]
    | with_reducible apply KeepsCore.of
    | (split <;> (rename_i hp; have hp := congrArg Prod.fst hp; dsimp only at hp; subst hp))
    | split

theorem execRestoreWindowTimeout_keeps {z s : State} {dt : Nat} (hz : Keeps z s) :
    KeepsOut z (execRestoreWindowTimeout dt s) := by
  unfold execRestoreWindowTimeout
  try dsimp only
  repeat' first
    | (with_reducible intro _)
    | with_reducible assumption
    | with_reducible apply KeepsOut.next
    | with_reducible apply KeepsOut.ite
    | with_reducible apply done_keeps
    | with_reducible apply Keeps.ite
    | with_reducible apply State.elapse_keeps
    | with_reducible apply State.closeRestore_keeps
    | with_reducible apply done_keeps
    | simp only [Keeps.mk_iff]
    | with_reducible apply KeepsCore.of
    | (split <;> (rename_i hp; have hp := congrArg Prod.fst hp; dsimp only at hp; subst hp))
    | split

theorem State.startE6_keeps {z s : State}  (hz : Keeps z s) :
    Keeps z (State.startE6 s) := by
  unfold State.startE6
  try dsimp only
  repeat' first
    | (with_reducible intro _)
    | with_reducible assumption
    | with_reducible apply Keeps.ite
    | with_reducible apply State.enterPhase_keeps
    | with_reducible apply State.each_keeps
    | with_reducible apply State.modAvs_keeps
    | with_reducible apply State.when_keeps
    | with_reducible apply State.endE6_keeps
    | simp only [Keeps.mk_iff]
    | with_reducible apply KeepsCore.of
    | (split <;> (rename_i hp; have hp := congrArg Prod.fst hp; dsimp only at hp; subst hp))
    | split

theorem execE5Complete_keeps {z s : State} {dt : Nat} (hz : Keeps z s) :
    KeepsOut z (execE5Complete dt s) := by
  unfold execE5Complete
  try dsimp only
  repeat' first
    | (with_reducible intro _)
    | with_reducible assumption
    | with_reducible apply KeepsOut.next
    | with_reducible apply KeepsOut.ite
    | with_reducible apply done_keeps
    | with_reducible apply Keeps.ite
    | with_reducible apply State.elapse_keeps
    | with_reducible apply State.startE6_keeps
    | with_reducible apply done_keeps
    | simp only [Keeps.mk_iff]
    | with_reducible apply KeepsCore.of
    | (split <;> (rename_i hp; have hp := congrArg Prod.fst hp; dsimp only at hp; subst hp))
    | split

theorem execLaneUpTimeout_keeps {z s : State} {dt : Nat} (hz : Keeps z s) :
    KeepsOut z (execLaneUpTimeout dt s) := by
  unfold execLaneUpTimeout
  try dsimp only
  repeat' first
    | (with_reducible intro _)
    | with_reducible assumption
    | with_reducible apply KeepsOut.next
    | with_reducible apply KeepsOut.ite
    | with_reducible apply done_keeps
    | with_reducible apply Keeps.ite
    | with_reducible apply State.elapse_keeps
    | with_reducible apply State.each_keeps
    | with_reducible apply State.when_keeps
    | with_reducible apply State.raise_keeps
    | with_reducible apply State.startE6_keeps
    | with_reducible apply done_keeps
    | simp only [Keeps.mk_iff]
    | with_reducible apply KeepsCore.of
    | (split <;> (rename_i hp; have hp := congrArg Prod.fst hp; dsimp only at hp; subst hp))
    | split

end Sys2Proof.Machine
end

