-- ==== Sys2Proof/Laws/KeepsIngest.lean ====
section
/-! SUPPORT. One lemma for each operation of Machine/Ingest.lean: it keeps what `Keeps` names. -/

namespace Sys2Proof.Machine

set_option linter.all false

theorem State.setBucket_keeps {z s : State} {i : Nat} {port : Nat} {fill : Nat} (hz : Keeps z s) :
    Keeps z (State.setBucket s i port fill) := by
  unfold State.setBucket
  try dsimp only
  repeat' first
    | (with_reducible intro _)
    | with_reducible assumption
    | with_reducible apply Keeps.ite
    | simp only [Keeps.mk_iff]
    | with_reducible apply KeepsCore.of
    | (split <;> (rename_i hp; have hp := congrArg Prod.fst hp; dsimp only at hp; subst hp))
    | split

theorem State.refill_keeps {z s : State} {i : Nat} (hz : Keeps z s) :
    Keeps z (State.refill s i) := by
  unfold State.refill
  try dsimp only
  repeat' first
    | (with_reducible intro _)
    | with_reducible assumption
    | with_reducible apply Keeps.ite
    | simp only [Keeps.mk_iff]
    | with_reducible apply KeepsCore.of
    | (split <;> (rename_i hp; have hp := congrArg Prod.fst hp; dsimp only at hp; subst hp))
    | split

theorem State.takeSeq_keeps {z s : State} {flow : Nat} {seq : Nat} (hz : Keeps z s) :
    Keeps z (State.takeSeq s flow seq) := by
  unfold State.takeSeq
  try dsimp only
  repeat' first
    | (with_reducible intro _)
    | with_reducible assumption
    | with_reducible apply Keeps.ite
    | simp only [Keeps.mk_iff]
    | with_reducible apply KeepsCore.of
    | (split <;> (rename_i hp; have hp := congrArg Prod.fst hp; dsimp only at hp; subst hp))
    | split

theorem State.setPath_keeps {z s : State} {m : Nat} {path : Nat} {up : Bool} (hz : Keeps z s) :
    Keeps z (State.setPath s m path up) := by
  unfold State.setPath
  try dsimp only
  repeat' first
    | (with_reducible intro _)
    | with_reducible assumption
    | with_reducible apply Keeps.ite
    | with_reducible apply State.modChan_keeps
    | with_reducible apply State.setBit_keeps
    | with_reducible apply State.when_keeps
    | with_reducible apply State.inputEvent_keeps
    | simp only [Keeps.mk_iff]
    | with_reducible apply KeepsCore.of
    | (split <;> (rename_i hp; have hp := congrArg Prod.fst hp; dsimp only at hp; subst hp))
    | split

theorem State.showSkew_keeps {z s : State} {m : Nat} {ts : Nat} (hz : Keeps z s) :
    Keeps z (State.showSkew s m ts) := by
  unfold State.showSkew
  try dsimp only
  repeat' first
    | (with_reducible intro _)
    | with_reducible assumption
    | with_reducible apply Keeps.ite
    | with_reducible apply State.freshId_keeps
    | with_reducible apply State.wrN_keeps
    | with_reducible apply State.setBit_keeps
    | with_reducible apply State.when_keeps
    | with_reducible apply State.inputEvent_keeps
    | simp only [Keeps.mk_iff]
    | with_reducible apply KeepsCore.of
    | (split <;> (rename_i hp; have hp := congrArg Prod.fst hp; dsimp only at hp; subst hp))
    | split

theorem State.noteSkew_keeps {z s : State} {m : Nat} {path : Nat} {seq : Nat} {ts : Nat} (hz : Keeps z s) :
    Keeps z (State.noteSkew s m path seq ts) := by
  unfold State.noteSkew
  try dsimp only
  repeat' first
    | (with_reducible intro _)
    | with_reducible assumption
    | with_reducible apply Keeps.ite
    | with_reducible apply State.showSkew_keeps
    | with_reducible apply State.take_keeps
    | with_reducible apply State.modChan_keeps
    | with_reducible apply State.when_keeps
    | simp only [Keeps.mk_iff]
    | with_reducible apply KeepsCore.of
    | (split <;> (rename_i hp; have hp := congrArg Prod.fst hp; dsimp only at hp; subst hp))
    | split

theorem State.repairBand_keeps {z s : State} {n : Nat} {k : Nat} {b : Nat} {e : BandEntry} {own : Bool} (hz : Keeps z s) :
    Keeps z (State.repairBand s n k b e own) := by
  unfold State.repairBand
  try dsimp only
  repeat' first
    | (with_reducible intro _)
    | with_reducible assumption
    | with_reducible apply Keeps.ite
    | with_reducible apply State.modItem_keeps
    | with_reducible apply State.repairRuns_keeps
    | with_reducible apply State.bump_keeps
    | with_reducible apply State.when_keeps
    | with_reducible apply State.bandReady_keeps
    | simp only [Keeps.mk_iff]
    | with_reducible apply KeepsCore.of
    | (split <;> (rename_i hp; have hp := congrArg Prod.fst hp; dsimp only at hp; subst hp))
    | split

theorem State.followBand_keeps {z s : State} {n : Nat} {k : Nat} {b : Nat} (hz : Keeps z s) :
    Keeps z (State.followBand s n k b) := by
  unfold State.followBand
  try dsimp only
  repeat' first
    | (with_reducible intro _)
    | with_reducible assumption
    | with_reducible apply Keeps.ite
    | with_reducible apply State.when_keeps
    | with_reducible apply State.repairBand_keeps
    | with_reducible apply done_keeps
    | simp only [Keeps.mk_iff]
    | with_reducible apply KeepsCore.of
    | (split <;> (rename_i hp; have hp := congrArg Prod.fst hp; dsimp only at hp; subst hp))
    | split

theorem State.readyBands_keeps {z s : State} {n : Nat} {k : Nat} (hz : Keeps z s) :
    Keeps z (State.readyBands s n k) := by
  unfold State.readyBands
  try dsimp only
  repeat' first
    | (with_reducible intro _)
    | with_reducible assumption
    | with_reducible apply Keeps.ite
    | with_reducible apply State.each_keeps
    | with_reducible apply State.followBand_keeps
    | with_reducible apply State.when_keeps
    | with_reducible apply State.bandReady_keeps
    | with_reducible apply done_keeps
    | simp only [Keeps.mk_iff]
    | with_reducible apply KeepsCore.of
    | (split <;> (rename_i hp; have hp := congrArg Prod.fst hp; dsimp only at hp; subst hp))
    | split

theorem State.endAbsence_keeps {z s : State} {m : Nat} {k : Nat} (hz : Keeps z s) :
    Keeps z (State.endAbsence s m k) := by
  unfold State.endAbsence
  try dsimp only
  repeat' first
    | (with_reducible intro _)
    | with_reducible assumption
    | with_reducible apply Keeps.ite
    | with_reducible apply State.modChan_keeps
    | with_reducible apply State.setBit_keeps
    | with_reducible apply State.inputEvent_keeps
    | simp only [Keeps.mk_iff]
    | with_reducible apply KeepsCore.of
    | (split <;> (rename_i hp; have hp := congrArg Prod.fst hp; dsimp only at hp; subst hp))
    | split

theorem State.setUnlocked_keeps {z s : State} {m : Nat} {b : Bool} (hz : Keeps z s) :
    Keeps z (State.setUnlocked s m b) := by
  unfold State.setUnlocked
  try dsimp only
  repeat' first
    | (with_reducible intro _)
    | with_reducible assumption
    | with_reducible apply Keeps.ite
    | with_reducible apply State.setBit_keeps
    | with_reducible apply State.when_keeps
    | with_reducible apply State.inputEvent_keeps
    | simp only [Keeps.mk_iff]
    | with_reducible apply KeepsCore.of
    | (split <;> (rename_i hp; have hp := congrArg Prod.fst hp; dsimp only at hp; subst hp))
    | split

theorem State.noteAbsence_keeps {z s : State} {m : Nat} {j : Nat} {b : Int} {slate : Bool} (hz : Keeps z s) :
    Keeps z (State.noteAbsence s m j b slate) := by
  unfold State.noteAbsence
  try dsimp only
  repeat' first
    | (with_reducible intro _)
    | with_reducible assumption
    | with_reducible apply Keeps.ite
    | with_reducible apply State.when_keeps
    | with_reducible apply State.modChan_keeps
    | with_reducible apply State.setBit_keeps
    | with_reducible apply State.inputEvent_keeps
    | simp only [Keeps.mk_iff]
    | with_reducible apply KeepsCore.of
    | (split <;> (rename_i hp; have hp := congrArg Prod.fst hp; dsimp only at hp; subst hp))
    | split

theorem State.emptySlot_keeps {z s : State} {n : Nat} {k : Nat} (hz : Keeps z s) :
    Keeps z (State.emptySlot s n k) := by
  unfold State.emptySlot
  try dsimp only
  repeat' first
    | (with_reducible intro _)
    | with_reducible assumption
    | with_reducible apply Keeps.ite
    | with_reducible apply State.noteAbsence_keeps
    | with_reducible apply State.each_keeps
    | with_reducible apply State.fixInput_keeps
    | simp only [Keeps.mk_iff]
    | with_reducible apply KeepsCore.of
    | (split <;> (rename_i hp; have hp := congrArg Prod.fst hp; dsimp only at hp; subst hp))
    | split

theorem State.refusePic_keeps {z s : State} {n : Nat} {k : Nat} {ts : Nat} {size : Bool} (hz : Keeps z s) :
    Keeps z (State.refusePic s n k ts size) := by
  unfold State.refusePic
  try dsimp only
  repeat' first
    | (with_reducible intro _)
    | with_reducible assumption
    | with_reducible apply Keeps.ite
    | with_reducible apply State.bump_keeps
    | with_reducible apply State.modChan_keeps
    | with_reducible apply State.fail_keeps
    | simp only [Keeps.mk_iff]
    | with_reducible apply KeepsCore.of
    | (split <;> (rename_i hp; have hp := congrArg Prod.fst hp; dsimp only at hp; subst hp))
    | split

theorem State.arriveAt_keeps {z s : State} {m : Nat} {n : Nat} {ts : Nat} {p : Int} {size : Bool} (hz : Keeps z s) :
    Keeps z (State.arriveAt s m n ts p size) := by
  unfold State.arriveAt
  try dsimp only
  repeat' first
    | (with_reducible intro _)
    | with_reducible assumption
    | with_reducible apply Keeps.ite
    | with_reducible apply State.when_keeps
    | with_reducible apply State.emptySlot_keeps
    | with_reducible apply State.refusePic_keeps
    | with_reducible apply State.modItem_keeps
    | with_reducible apply State.modChan_keeps
    | with_reducible apply State.modPic_keeps
    | with_reducible apply State.endAbsence_keeps
    | with_reducible apply State.fixInput_keeps
    | simp only [Keeps.mk_iff]
    | with_reducible apply KeepsCore.of
    | (split <;> (rename_i hp; have hp := congrArg Prod.fst hp; dsimp only at hp; subst hp))
    | split

theorem State.arrive_keeps {z s : State} {m : Nat} {ts : Nat} {p0 : Int} {size : Bool} (hz : Keeps z s) :
    Keeps z (State.arrive s m ts p0 size) := by
  unfold State.arrive
  try dsimp only
  repeat' first
    | (with_reducible intro _)
    | with_reducible assumption
    | with_reducible apply Keeps.ite
    | with_reducible apply State.setUnlocked_keeps
    | with_reducible apply State.each_keeps
    | with_reducible apply State.arriveAt_keeps
    | simp only [Keeps.mk_iff]
    | with_reducible apply KeepsCore.of
    | (split <;> (rename_i hp; have hp := congrArg Prod.fst hp; dsimp only at hp; subst hp))
    | split

theorem State.videoWrite_keeps {z s : State} {m : Nat} {n : Nat} {ts : Nat} {runs : List LineRun} {count : Bool} (hz : Keeps z s) :
    Keeps z (State.videoWrite s m n ts runs count) := by
  unfold State.videoWrite
  try dsimp only
  repeat' first
    | (with_reducible intro _)
    | with_reducible assumption
    | with_reducible apply Keeps.ite
    | with_reducible apply State.when_keeps
    | with_reducible apply State.bump_keeps
    | with_reducible apply State.modItem_keeps
    | with_reducible apply State.modPic_keeps
    | with_reducible apply State.readyBands_keeps
    | with_reducible apply done_keeps
    | simp only [Keeps.mk_iff]
    | with_reducible apply KeepsCore.of
    | (split <;> (rename_i hp; have hp := congrArg Prod.fst hp; dsimp only at hp; subst hp))
    | split

theorem State.addSplice_keeps {z s : State} {m : Nat} {carry : Nat} {at_ : Nat} {a : SpliceCmd} {anc : Bool} (hz : Keeps z s) :
    Keeps z (State.addSplice s m carry at_ a anc) := by
  unfold State.addSplice
  try dsimp only
  repeat' first
    | (with_reducible intro _)
    | with_reducible assumption
    | with_reducible apply Keeps.ite
    | with_reducible apply State.modChan_keeps
    | with_reducible apply State.bump_keeps
    | simp only [Keeps.mk_iff]
    | with_reducible apply KeepsCore.of
    | (split <;> (rename_i hp; have hp := congrArg Prod.fst hp; dsimp only at hp; subst hp))
    | split

theorem State.ancPacket_keeps {z s : State} {m : Nat} {p : Int} {l : List Nat} (hz : Keeps z s) :
    Keeps z (State.ancPacket s m p l) := by
  unfold State.ancPacket
  try dsimp only
  repeat' first
    | (with_reducible intro _)
    | with_reducible assumption
    | with_reducible apply Keeps.ite
    | with_reducible apply State.each_keeps
    | with_reducible apply State.modItem_keeps
    | with_reducible apply State.bump_keeps
    | with_reducible apply State.addSplice_keeps
    | simp only [Keeps.mk_iff]
    | with_reducible apply KeepsCore.of
    | (split <;> (rename_i hp; have hp := congrArg Prod.fst hp; dsimp only at hp; subst hp))
    | split

theorem State.tsSplice_keeps {z s : State} {m : Nat} {a : SpliceCmd} {pts : Nat} (hz : Keeps z s) :
    Keeps z (State.tsSplice s m a pts) := by
  unfold State.tsSplice
  try dsimp only
  repeat' first
    | (with_reducible intro _)
    | with_reducible assumption
    | with_reducible apply Keeps.ite
    | with_reducible apply State.bump_keeps
    | with_reducible apply State.addSplice_keeps
    | simp only [Keeps.mk_iff]
    | with_reducible apply KeepsCore.of
    | (split <;> (rename_i hp; have hp := congrArg Prod.fst hp; dsimp only at hp; subst hp))
    | split

end Sys2Proof.Machine
end

