-- ==== Sys2Proof/Laws/KeepsContrib.lean ====
section
/-! SUPPORT. One lemma for each operation of Machine/Contrib.lean: it keeps what `Keeps` names. -/

namespace Sys2Proof.Machine

set_option linter.all false

theorem State.decodeErrors_keeps {z s : State} {m : Nat} {errs : List Nat} (hz : Keeps z s) :
    Keeps z (State.decodeErrors s m errs) := by
  unfold State.decodeErrors
  try dsimp only
  repeat' first
    | (with_reducible intro _)
    | with_reducible assumption
    | with_reducible apply Keeps.ite
    | with_reducible apply State.each_keeps
    | with_reducible apply State.bump_keeps
    | with_reducible apply State.setFld_keeps
    | with_reducible apply State.modChan_keeps
    | with_reducible apply State.raise_keeps
    | simp only [Keeps.mk_iff]
    | with_reducible apply KeepsCore.of
    | (split <;> (rename_i hp; have hp := congrArg Prod.fst hp; dsimp only at hp; subst hp))
    | split

theorem State.modDemux_keeps {z s : State} {m : Nat} {f : Demux → Demux} (hz : Keeps z s) :
    Keeps z (State.modDemux s m f) := by
  unfold State.modDemux
  try dsimp only
  repeat' first
    | (with_reducible intro _)
    | with_reducible assumption
    | with_reducible apply Keeps.ite
    | with_reducible apply State.modChan_keeps
    | simp only [Keeps.mk_iff]
    | with_reducible apply KeepsCore.of
    | (split <;> (rename_i hp; have hp := congrArg Prod.fst hp; dsimp only at hp; subst hp))
    | split

theorem State.nalError_keeps {z s : State} {m : Nat} {e : Nat} (hz : Keeps z s) :
    Keeps z (State.nalError s m e) := by
  unfold State.nalError
  try dsimp only
  repeat' first
    | (with_reducible intro _)
    | with_reducible assumption
    | with_reducible apply Keeps.ite
    | with_reducible apply State.decodeErrors_keeps
    | with_reducible apply State.modDemux_keeps
    | simp only [Keeps.mk_iff]
    | with_reducible apply KeepsCore.of
    | (split <;> (rename_i hp; have hp := congrArg Prod.fst hp; dsimp only at hp; subst hp))
    | split

theorem State.postPic_keeps {z s : State} {m : Nat} {x : OpenPic} (hz : Keeps z s) :
    Keeps z (State.postPic s m x) := by
  unfold State.postPic
  try dsimp only
  repeat' first
    | (with_reducible intro _)
    | with_reducible assumption
    | with_reducible apply Keeps.ite
    | with_reducible apply State.modChan_keeps
    | with_reducible apply State.each_keeps
    | with_reducible apply State.enqueue_keeps
    | simp only [Keeps.mk_iff]
    | with_reducible apply KeepsCore.of
    | (split <;> (rename_i hp; have hp := congrArg Prod.fst hp; dsimp only at hp; subst hp))
    | split

theorem State.endPic_keeps {z s : State} {m : Nat} (hz : Keeps z s) :
    Keeps z (State.endPic s m) := by
  unfold State.endPic
  try dsimp only
  repeat' first
    | (with_reducible intro _)
    | with_reducible assumption
    | with_reducible apply Keeps.ite
    | with_reducible apply State.modDemux_keeps
    | with_reducible apply State.postPic_keeps
    | simp only [Keeps.mk_iff]
    | with_reducible apply KeepsCore.of
    | (split <;> (rename_i hp; have hp := congrArg Prod.fst hp; dsimp only at hp; subst hp))
    | split

theorem State.openPic_keeps {z s : State} {m : Nat} {sps : SpsInfo} {irap : Bool} {gdr : Bool} {anchor : Bool} {h : SliceHead} (hz : Keeps z s) :
    Keeps z (State.openPic s m sps irap gdr anchor h) := by
  unfold State.openPic
  try dsimp only
  repeat' first
    | (with_reducible intro _)
    | with_reducible assumption
    | with_reducible apply Keeps.ite
    | with_reducible apply State.decodeErrors_keeps
    | with_reducible apply State.modChan_keeps
    | with_reducible apply State.modDemux_keeps
    | simp only [Keeps.mk_iff]
    | with_reducible apply KeepsCore.of
    | (split <;> (rename_i hp; have hp := congrArg Prod.fst hp; dsimp only at hp; subst hp))
    | split

theorem State.lostPic_keeps {z s : State} {m : Nat} (hz : Keeps z s) :
    Keeps z (State.lostPic s m) := by
  unfold State.lostPic
  try dsimp only
  repeat' first
    | (with_reducible intro _)
    | with_reducible assumption
    | with_reducible apply Keeps.ite
    | with_reducible apply State.modChan_keeps
    | with_reducible apply State.modDemux_keeps
    | with_reducible apply State.postPic_keeps
    | simp only [Keeps.mk_iff]
    | with_reducible apply KeepsCore.of
    | (split <;> (rename_i hp; have hp := congrArg Prod.fst hp; dsimp only at hp; subst hp))
    | split

theorem State.takeSet_keeps {z s : State} {m : Nat} {hevc : Bool} {k : SetKind} {l : List Byte} {cut : Bool} (hz : Keeps z s) :
    Keeps z (State.takeSet s m hevc k l cut) := by
  unfold State.takeSet
  try dsimp only
  repeat' first
    | (with_reducible intro _)
    | with_reducible assumption
    | with_reducible apply Keeps.ite
    | with_reducible apply State.nalError_keeps
    | with_reducible apply State.modDemux_keeps
    | simp only [Keeps.mk_iff]
    | with_reducible apply KeepsCore.of
    | (split <;> (rename_i hp; have hp := congrArg Prod.fst hp; dsimp only at hp; subst hp))
    | split

theorem State.takeSlice_keeps {z s : State} {m : Nat} {hevc : Bool} {l : List Byte} {cut : Bool} (hz : Keeps z s) :
    Keeps z (State.takeSlice s m hevc l cut) := by
  unfold State.takeSlice
  try dsimp only
  repeat' first
    | (with_reducible intro _)
    | with_reducible assumption
    | with_reducible apply Keeps.ite
    | with_reducible apply State.when_keeps
    | with_reducible apply State.endPic_keeps
    | with_reducible apply State.openPic_keeps
    | with_reducible apply State.nalError_keeps
    | with_reducible apply State.modDemux_keeps
    | simp only [Keeps.mk_iff]
    | with_reducible apply KeepsCore.of
    | (split <;> (rename_i hp; have hp := congrArg Prod.fst hp; dsimp only at hp; subst hp))
    | split

theorem State.takeNal_keeps {z s : State} {m : Nat} {hevc : Bool} {l : List Byte} {cut : Bool} (hz : Keeps z s) :
    Keeps z (State.takeNal s m hevc l cut) := by
  unfold State.takeNal
  try dsimp only
  repeat' first
    | (with_reducible intro _)
    | with_reducible assumption
    | with_reducible apply Keeps.ite
    | with_reducible apply State.nalError_keeps
    | with_reducible apply State.takeSlice_keeps
    | with_reducible apply State.takeSet_keeps
    | with_reducible apply State.modDemux_keeps
    | with_reducible apply State.endPic_keeps
    | simp only [Keeps.mk_iff]
    | with_reducible apply KeepsCore.of
    | (split <;> (rename_i hp; have hp := congrArg Prod.fst hp; dsimp only at hp; subst hp))
    | split

theorem State.endUnit_keeps {z s : State} {m : Nat} {hevc : Bool} (hz : Keeps z s) :
    Keeps z (State.endUnit s m hevc) := by
  unfold State.endUnit
  try dsimp only
  repeat' first
    | (with_reducible intro _)
    | with_reducible assumption
    | with_reducible apply Keeps.ite
    | with_reducible apply State.modDemux_keeps
    | with_reducible apply State.takeNal_keeps
    | simp only [Keeps.mk_iff]
    | with_reducible apply KeepsCore.of
    | (split <;> (rename_i hp; have hp := congrArg Prod.fst hp; dsimp only at hp; subst hp))
    | split

theorem State.takeByte_keeps {z s : State} {m : Nat} {hevc : Bool} {b : Byte} (hz : Keeps z s) :
    Keeps z (State.takeByte s m hevc b) := by
  unfold State.takeByte
  try dsimp only
  repeat' first
    | (with_reducible intro _)
    | with_reducible assumption
    | with_reducible apply Keeps.ite
    | with_reducible apply State.endUnit_keeps
    | with_reducible apply State.when_keeps
    | with_reducible apply State.bump_keeps
    | with_reducible apply State.modDemux_keeps
    | simp only [Keeps.mk_iff]
    | with_reducible apply KeepsCore.of
    | (split <;> (rename_i hp; have hp := congrArg Prod.fst hp; dsimp only at hp; subst hp))
    | split

theorem State.loseBytes_keeps {z s : State} {m : Nat} (hz : Keeps z s) :
    Keeps z (State.loseBytes s m) := by
  unfold State.loseBytes
  try dsimp only
  repeat' first
    | (with_reducible intro _)
    | with_reducible assumption
    | with_reducible apply Keeps.ite
    | with_reducible apply State.decodeErrors_keeps
    | with_reducible apply State.modDemux_keeps
    | simp only [Keeps.mk_iff]
    | with_reducible apply KeepsCore.of
    | (split <;> (rename_i hp; have hp := congrArg Prod.fst hp; dsimp only at hp; subst hp))
    | split

theorem State.beginPes_keeps {z s : State} {m : Nat} {hevc : Bool} {l : List Byte} (hz : Keeps z s) :
    Keeps z (State.beginPes s m hevc l) := by
  unfold State.beginPes
  try dsimp only
  repeat' first
    | (with_reducible intro _)
    | with_reducible assumption
    | with_reducible apply Keeps.ite
    | with_reducible apply State.decodeErrors_keeps
    | with_reducible apply State.modDemux_keeps
    | with_reducible apply State.endUnit_keeps
    | with_reducible apply State.endPic_keeps
    | with_reducible apply State.lostPic_keeps
    | simp only [Keeps.mk_iff]
    | with_reducible apply KeepsCore.of
    | (split <;> (rename_i hp; have hp := congrArg Prod.fst hp; dsimp only at hp; subst hp))
    | split

theorem State.videoPacket_keeps {z s : State} {m : Nat} {hevc : Bool} {p : TsRead} (hz : Keeps z s) :
    Keeps z (State.videoPacket s m hevc p) := by
  unfold State.videoPacket
  try dsimp only
  repeat' first
    | (with_reducible intro _)
    | with_reducible assumption
    | with_reducible apply Keeps.ite
    | with_reducible apply State.when_keeps
    | with_reducible apply State.loseBytes_keeps
    | with_reducible apply State.modDemux_keeps
    | with_reducible apply State.beginPes_keeps
    | with_reducible apply State.each_keeps
    | with_reducible apply State.takeByte_keeps
    | simp only [Keeps.mk_iff]
    | with_reducible apply KeepsCore.of
    | (split <;> (rename_i hp; have hp := congrArg Prod.fst hp; dsimp only at hp; subst hp))
    | split

theorem State.takePmt_keeps {z s : State} {m : Nat} {l : List Byte} (hz : Keeps z s) :
    Keeps z (State.takePmt s m l) := by
  unfold State.takePmt
  try dsimp only
  repeat' first
    | (with_reducible intro _)
    | with_reducible assumption
    | with_reducible apply Keeps.ite
    | with_reducible apply State.setFld_keeps
    | with_reducible apply State.modDemux_keeps
    | simp only [Keeps.mk_iff]
    | with_reducible apply KeepsCore.of
    | (split <;> (rename_i hp; have hp := congrArg Prod.fst hp; dsimp only at hp; subst hp))
    | split

theorem State.takeSection_keeps {z s : State} {m : Nat} {pid : Nat} {l : List Byte} (hz : Keeps z s) :
    Keeps z (State.takeSection s m pid l) := by
  unfold State.takeSection
  try dsimp only
  repeat' first
    | (with_reducible intro _)
    | with_reducible assumption
    | with_reducible apply Keeps.ite
    | with_reducible apply State.when_keeps
    | with_reducible apply State.modDemux_keeps
    | with_reducible apply State.takePmt_keeps
    | with_reducible apply State.tsSplice_keeps
    | simp only [Keeps.mk_iff]
    | with_reducible apply KeepsCore.of
    | (split <;> (rename_i hp; have hp := congrArg Prod.fst hp; dsimp only at hp; subst hp))
    | split

theorem State.take302_keeps {z s : State} {m : Nat} {pid : Nat} {l : List Byte} (hz : Keeps z s) :
    Keeps z (State.take302 s m pid l) := by
  unfold State.take302
  try dsimp only
  repeat' first
    | (with_reducible intro _)
    | with_reducible assumption
    | with_reducible apply Keeps.ite
    | with_reducible apply State.each_keeps
    | with_reducible apply State.audioWrite_keeps
    | with_reducible apply State.setAbuf_keeps
    | simp only [Keeps.mk_iff]
    | with_reducible apply KeepsCore.of
    | (split <;> (rename_i hp; have hp := congrArg Prod.fst hp; dsimp only at hp; subst hp))
    | split

theorem State.audioPacket_keeps {z s : State} {m : Nat} {p : TsRead} (hz : Keeps z s) :
    Keeps z (State.audioPacket s m p) := by
  unfold State.audioPacket
  try dsimp only
  repeat' first
    | (with_reducible intro _)
    | with_reducible assumption
    | with_reducible apply Keeps.ite
    | with_reducible apply State.modDemux_keeps
    | with_reducible apply State.take302_keeps
    | with_reducible apply State.take_keeps
    | simp only [Keeps.mk_iff]
    | with_reducible apply KeepsCore.of
    | (split <;> (rename_i hp; have hp := congrArg Prod.fst hp; dsimp only at hp; subst hp))
    | split

theorem State.tablePacket_keeps {z s : State} {m : Nat} {p : TsRead} (hz : Keeps z s) :
    Keeps z (State.tablePacket s m p) := by
  unfold State.tablePacket
  try dsimp only
  repeat' first
    | (with_reducible intro _)
    | with_reducible assumption
    | with_reducible apply Keeps.ite
    | with_reducible apply State.modDemux_keeps
    | with_reducible apply State.each_keeps
    | with_reducible apply State.takeSection_keeps
    | simp only [Keeps.mk_iff]
    | with_reducible apply KeepsCore.of
    | (split <;> (rename_i hp; have hp := congrArg Prod.fst hp; dsimp only at hp; subst hp))
    | split

theorem State.takePacket_keeps {z s : State} {m : Nat} {l : List Byte} (hz : Keeps z s) :
    Keeps z (State.takePacket s m l) := by
  unfold State.takePacket
  try dsimp only
  repeat' first
    | (with_reducible intro _)
    | with_reducible assumption
    | with_reducible apply Keeps.ite
    | with_reducible apply State.decodeErrors_keeps
    | with_reducible apply State.when_keeps
    | with_reducible apply State.modChan_keeps
    | with_reducible apply State.videoPacket_keeps
    | with_reducible apply State.audioPacket_keeps
    | with_reducible apply State.tablePacket_keeps
    | simp only [Keeps.mk_iff]
    | with_reducible apply KeepsCore.of
    | (split <;> (rename_i hp; have hp := congrArg Prod.fst hp; dsimp only at hp; subst hp))
    | split

theorem State.passOn_keeps {z : State} (k : Nat) :
    ∀ {a0 : Nat} {s : State}, Keeps z s → Keeps z (State.passOn k a0 s) := by
  induction k with
  | zero =>
    intros
    assumption
  | succ k ih =>
    intros
    unfold State.passOn
    try dsimp only
    repeat' first
      | (with_reducible intro _)
      | with_reducible assumption
      | with_reducible apply Keeps.ite
      | with_reducible apply ih
      | with_reducible apply State.each_keeps
      | with_reducible apply State.takePacket_keeps
      | with_reducible apply State.modChan_keeps
      | simp only [Keeps.mk_iff]
      | with_reducible apply KeepsCore.of
      | split

theorem State.passGap_keeps {z s : State} {m : Nat} {first : Nat} {count : Nat} (hz : Keeps z s) :
    Keeps z (State.passGap s m first count) := by
  unfold State.passGap
  try dsimp only
  repeat' first
    | (with_reducible intro _)
    | with_reducible assumption
    | with_reducible apply Keeps.ite
    | with_reducible apply State.bump_keeps
    | with_reducible apply State.when_keeps
    | with_reducible apply State.each_keeps
    | with_reducible apply State.lanternSend_keeps
    | with_reducible apply State.modChan_keeps
    | with_reducible apply State.passOn_keeps
    | with_reducible apply State.loseBytes_keeps
    | simp only [Keeps.mk_iff]
    | with_reducible apply KeepsCore.of
    | (split <;> (rename_i hp; have hp := congrArg Prod.fst hp; dsimp only at hp; subst hp))
    | split

theorem State.followGaps_keeps {z : State} (k : Nat) :
    ∀ {a0 : Nat} {s : State}, Keeps z s → Keeps z (State.followGaps k a0 s) := by
  induction k with
  | zero =>
    intros
    assumption
  | succ k ih =>
    intros
    unfold State.followGaps
    try dsimp only
    repeat' first
      | (with_reducible intro _)
      | with_reducible assumption
      | with_reducible apply Keeps.ite
      | with_reducible apply ih
      | with_reducible apply State.passGap_keeps
      | simp only [Keeps.mk_iff]
      | with_reducible apply KeepsCore.of
      | split

theorem State.dropGapped_keeps {z s : State} {m : Nat} (hz : Keeps z s) :
    Keeps z (State.dropGapped s m) := by
  unfold State.dropGapped
  try dsimp only
  repeat' first
    | (with_reducible intro _)
    | with_reducible assumption
    | with_reducible apply Keeps.ite
    | with_reducible apply State.when_keeps
    | with_reducible apply State.modChan_keeps
    | simp only [Keeps.mk_iff]
    | with_reducible apply KeepsCore.of
    | (split <;> (rename_i hp; have hp := congrArg Prod.fst hp; dsimp only at hp; subst hp))
    | split

theorem State.tsDatagram_keeps {z s : State} {m : Nat} {seq : Nat} {x : List (List Byte)} (hz : Keeps z s) :
    Keeps z (State.tsDatagram s m seq x) := by
  unfold State.tsDatagram
  try dsimp only
  repeat' first
    | (with_reducible intro _)
    | with_reducible assumption
    | with_reducible apply Keeps.ite
    | with_reducible apply State.bump_keeps
    | with_reducible apply State.modChan_keeps
    | with_reducible apply State.dropGapped_keeps
    | with_reducible apply State.passOn_keeps
    | with_reducible apply State.followGaps_keeps
    | simp only [Keeps.mk_iff]
    | with_reducible apply KeepsCore.of
    | (split <;> (rename_i hp; have hp := congrArg Prod.fst hp; dsimp only at hp; subst hp))
    | split

end Sys2Proof.Machine
end

