-- ==== Sys2Proof/Laws/KeepsTaking.lean ====
section
/-! SUPPORT. One lemma for each operation of Machine/Taking.lean: it keeps what `Keeps` names. -/

namespace Sys2Proof.Machine

set_option linter.all false

theorem State.dropPicture_keeps {z s : State} {m : Nat} {k : Nat} (hz : Keeps z s) :
    Keeps z (State.dropPicture s m k) := by
  unfold State.dropPicture
  try dsimp only
  repeat' first
    | (with_reducible intro _)
    | with_reducible assumption
    | with_reducible apply Keeps.ite
    | with_reducible apply State.modChan_keeps
    | with_reducible apply State.freeBuf_keeps
    | simp only [Keeps.mk_iff]
    | with_reducible apply KeepsCore.of
    | (split <;> (rename_i hp; have hp := congrArg Prod.fst hp; dsimp only at hp; subst hp))
    | split

theorem State.dropPics_keeps {z s : State} {m : Nat} {gone : DpbPic → Bool} (hz : Keeps z s) :
    Keeps z (State.dropPics s m gone) := by
  unfold State.dropPics
  try dsimp only
  repeat' first
    | (with_reducible intro _)
    | with_reducible assumption
    | with_reducible apply Keeps.ite
    | with_reducible apply State.each_keeps
    | with_reducible apply State.dropPicture_keeps
    | with_reducible apply State.modChan_keeps
    | simp only [Keeps.mk_iff]
    | with_reducible apply KeepsCore.of
    | (split <;> (rename_i hp; have hp := congrArg Prod.fst hp; dsimp only at hp; subst hp))
    | split

theorem State.fixSubst_keeps {z s : State} {m : Nat} {sps : SpsInfo} {ref : Int} (hz : Keeps z s) :
    Keeps z (State.fixSubst s m sps ref) := by
  unfold State.fixSubst
  try dsimp only
  repeat' first
    | (with_reducible intro _)
    | with_reducible assumption
    | with_reducible apply Keeps.ite
    | with_reducible apply State.modChan_keeps
    | with_reducible apply State.bump_keeps
    | with_reducible apply State.decodeErrors_keeps
    | simp only [Keeps.mk_iff]
    | with_reducible apply KeepsCore.of
    | (split <;> (rename_i hp; have hp := congrArg Prod.fst hp; dsimp only at hp; subst hp))
    | split

theorem State.beginRefs_keeps {z s : State} {m : Nat} {x : DecPic} (hz : Keeps z s) :
    Keeps z (State.beginRefs s m x) := by
  unfold State.beginRefs
  try dsimp only
  repeat' first
    | (with_reducible intro _)
    | with_reducible assumption
    | with_reducible apply Keeps.ite
    | with_reducible apply State.dropPics_keeps
    | with_reducible apply State.modChan_keeps
    | with_reducible apply State.each_keeps
    | with_reducible apply State.fixSubst_keeps
    | simp only [Keeps.mk_iff]
    | with_reducible apply KeepsCore.of
    | (split <;> (rename_i hp; have hp := congrArg Prod.fst hp; dsimp only at hp; subst hp))
    | split

theorem State.beginDecode_keeps {z s : State} {m : Nat} {num : Nat} (hz : Keeps z s) :
    Keeps z (State.beginDecode s m num) := by
  unfold State.beginDecode
  try dsimp only
  repeat' first
    | (with_reducible intro _)
    | with_reducible assumption
    | with_reducible apply Keeps.ite
    | with_reducible apply State.modChan_keeps
    | with_reducible apply State.beginRefs_keeps
    | with_reducible apply State.arrive_keeps
    | simp only [Keeps.mk_iff]
    | with_reducible apply KeepsCore.of
    | (split <;> (rename_i hp; have hp := congrArg Prod.fst hp; dsimp only at hp; subst hp))
    | split

theorem State.needRecon_keeps {z s : State} {n : Nat} {k : Nat} (hz : Keeps z s) :
    Keeps z (State.needRecon s n k) := by
  unfold State.needRecon
  try dsimp only
  repeat' first
    | (with_reducible intro _)
    | with_reducible assumption
    | with_reducible apply Keeps.ite
    | with_reducible apply State.poolExhausted_keeps
    | with_reducible apply State.takeRecon_keeps
    | simp only [Keeps.mk_iff]
    | with_reducible apply KeepsCore.of
    | (split <;> (rename_i hp; have hp := congrArg Prod.fst hp; dsimp only at hp; subst hp))
    | split

theorem State.onTake_keeps {z s : State} {d : Desc} (hz : Keeps z s) :
    Keeps z (State.onTake s d) := by
  unfold State.onTake
  try dsimp only
  repeat' first
    | (with_reducible intro _)
    | with_reducible assumption
    | with_reducible apply Keeps.ite
    | with_reducible apply State.beginDecode_keeps
    | with_reducible apply State.stage_keeps
    | with_reducible apply State.reMark_keeps
    | with_reducible apply State.needRecon_keeps
    | simp only [Keeps.mk_iff]
    | with_reducible apply KeepsCore.of
    | (split <;> (rename_i hp; have hp := congrArg Prod.fst hp; dsimp only at hp; subst hp))
    | split

theorem State.tryTake_keeps {z s : State} {e : Nat} (hz : Keeps z s) :
    Keeps z (State.tryTake s e) := by
  unfold State.tryTake
  try dsimp only
  repeat' first
    | (with_reducible intro _)
    | with_reducible assumption
    | with_reducible apply Keeps.ite
    | with_reducible apply State.setEng_keeps
    | with_reducible apply State.take_keeps
    | with_reducible apply State.onTake_keeps
    | simp only [Keeps.mk_iff]
    | with_reducible apply KeepsCore.of
    | (split <;> (rename_i hp; have hp := congrArg Prod.fst hp; dsimp only at hp; subst hp))
    | split

theorem State.pumpTakes_keeps {z s : State}  (hz : Keeps z s) :
    Keeps z (State.pumpTakes s) := by
  unfold State.pumpTakes
  try dsimp only
  repeat' first
    | (with_reducible intro _)
    | with_reducible assumption
    | with_reducible apply Keeps.ite
    | with_reducible apply State.each_keeps
    | with_reducible apply State.tryTake_keeps
    | simp only [Keeps.mk_iff]
    | with_reducible apply KeepsCore.of
    | (split <;> (rename_i hp; have hp := congrArg Prod.fst hp; dsimp only at hp; subst hp))
    | split

theorem execDieLinkAck_keeps {z s : State} {dt : Nat} {seq : Nat} (hz : Keeps z s) :
    KeepsOut z (execDieLinkAck dt seq s) := by
  unfold execDieLinkAck
  try dsimp only
  repeat' first
    | (with_reducible intro _)
    | with_reducible assumption
    | with_reducible apply KeepsOut.next
    | with_reducible apply KeepsOut.ite
    | with_reducible apply done_keeps
    | with_reducible apply Keeps.ite
    | with_reducible apply State.elapse_keeps
    | with_reducible apply State.acked_keeps
    | with_reducible apply State.when_keeps
    | with_reducible apply State.countWaits_keeps
    | with_reducible apply State.pumpTakes_keeps
    | with_reducible apply done_keeps
    | simp only [Keeps.mk_iff]
    | with_reducible apply KeepsCore.of
    | (split <;> (rename_i hp; have hp := congrArg Prod.fst hp; dsimp only at hp; subst hp))
    | split

end Sys2Proof.Machine
end

