-- ==== Sys2Proof/Laws/KeepsFrames.lean ====
section
/-! SUPPORT. One lemma for each operation of Machine/Frames.lean: it keeps what `Keeps` names. -/

namespace Sys2Proof.Machine

set_option linter.all false

theorem State.pathSeen_keeps {z s : State} {m : Nat} {path : Nat} {seq : Nat} {ts : Nat} (hz : Keeps z s) :
    Keeps z (State.pathSeen s m path seq ts) := by
  unfold State.pathSeen
  try dsimp only
  repeat' first
    | (with_reducible intro _)
    | with_reducible assumption
    | with_reducible apply Keeps.ite
    | with_reducible apply State.setPath_keeps
    | with_reducible apply State.noteSkew_keeps
    | simp only [Keeps.mk_iff]
    | with_reducible apply KeepsCore.of
    | (split <;> (rename_i hp; have hp := congrArg Prod.fst hp; dsimp only at hp; subst hp))
    | split

theorem State.sendOn_keeps {z s : State} {port : Nat} {dies : List Nat} (hz : Keeps z s) :
    Keeps z (State.sendOn s port dies) := by
  unfold State.sendOn
  try dsimp only
  repeat' first
    | (with_reducible intro _)
    | with_reducible assumption
    | with_reducible apply Keeps.ite
    | with_reducible apply State.each_keeps
    | with_reducible apply State.postAs_keeps
    | simp only [Keeps.mk_iff]
    | with_reducible apply KeepsCore.of
    | (split <;> (rename_i hp; have hp := congrArg Prod.fst hp; dsimp only at hp; subst hp))
    | split

theorem State.forward_keeps {z s : State} {i : Nat} {path : Nat} {m : MediaFrame} (hz : Keeps z s) :
    Keeps z (State.forward s i path m) := by
  unfold State.forward
  try dsimp only
  repeat' first
    | (with_reducible intro _)
    | with_reducible assumption
    | with_reducible apply Keeps.ite
    | with_reducible apply State.bump_keeps
    | with_reducible apply State.sendOn_keeps
    | with_reducible apply State.pathSeen_keeps
    | with_reducible apply State.arrive_keeps
    | with_reducible apply State.each_keeps
    | with_reducible apply State.videoWrite_keeps
    | with_reducible apply State.takeSeq_keeps
    | with_reducible apply State.audioWrite_keeps
    | with_reducible apply State.ancPacket_keeps
    | with_reducible apply State.tsDatagram_keeps
    | with_reducible apply State.when_keeps
    | simp only [Keeps.mk_iff]
    | with_reducible apply KeepsCore.of
    | (split <;> (rename_i hp; have hp := congrArg Prod.fst hp; dsimp only at hp; subst hp))
    | split

theorem execMediaFrameRx_keeps {z s : State} {dt : Nat} {m : MediaFrame} (hz : Keeps z s) :
    KeepsOut z (execMediaFrameRx dt m s) := by
  unfold execMediaFrameRx
  try dsimp only
  repeat' first
    | (with_reducible intro _)
    | with_reducible assumption
    | with_reducible apply KeepsOut.next
    | with_reducible apply KeepsOut.ite
    | with_reducible apply done_keeps
    | with_reducible apply Keeps.ite
    | with_reducible apply State.elapse_keeps
    | with_reducible apply State.bump_keeps
    | with_reducible apply State.countFlow_keeps
    | with_reducible apply State.setBucket_keeps
    | with_reducible apply State.forward_keeps
    | with_reducible apply State.pumpTakes_keeps
    | with_reducible apply done_keeps
    | simp only [Keeps.mk_iff]
    | with_reducible apply KeepsCore.of
    | (split <;> (rename_i hp; have hp := congrArg Prod.fst hp; dsimp only at hp; subst hp))
    | split

theorem execPathDown_keeps {z s : State} {dt : Nat} {n : Fin 96} {path : Fin 2} (hz : Keeps z s) :
    KeepsOut z (execPathDown dt n path s) := by
  unfold execPathDown
  try dsimp only
  repeat' first
    | (with_reducible intro _)
    | with_reducible assumption
    | with_reducible apply KeepsOut.next
    | with_reducible apply KeepsOut.ite
    | with_reducible apply done_keeps
    | with_reducible apply Keeps.ite
    | with_reducible apply State.elapse_keeps
    | with_reducible apply State.when_keeps
    | with_reducible apply State.setPath_keeps
    | with_reducible apply done_keeps
    | simp only [Keeps.mk_iff]
    | with_reducible apply KeepsCore.of
    | (split <;> (rename_i hp; have hp := congrArg Prod.fst hp; dsimp only at hp; subst hp))
    | split

theorem execTsGapPass_keeps {z s : State} {dt : Nat} {n : Fin 96} (hz : Keeps z s) :
    KeepsOut z (execTsGapPass dt n s) := by
  unfold execTsGapPass
  try dsimp only
  repeat' first
    | (with_reducible intro _)
    | with_reducible assumption
    | with_reducible apply KeepsOut.next
    | with_reducible apply KeepsOut.ite
    | with_reducible apply done_keeps
    | with_reducible apply Keeps.ite
    | with_reducible apply State.elapse_keeps
    | with_reducible apply State.followGaps_keeps
    | with_reducible apply State.pumpTakes_keeps
    | with_reducible apply State.when_keeps
    | with_reducible apply State.passGap_keeps
    | with_reducible apply done_keeps
    | simp only [Keeps.mk_iff]
    | with_reducible apply KeepsCore.of
    | (split <;> (rename_i hp; have hp := congrArg Prod.fst hp; dsimp only at hp; subst hp))
    | split

theorem execSlotEmpty_keeps {z s : State} {dt : Nat} {n : Fin 96} {k : Nat} (hz : Keeps z s) :
    KeepsOut z (execSlotEmpty dt n k s) := by
  unfold execSlotEmpty
  try dsimp only
  repeat' first
    | (with_reducible intro _)
    | with_reducible assumption
    | with_reducible apply KeepsOut.next
    | with_reducible apply KeepsOut.ite
    | with_reducible apply done_keeps
    | with_reducible apply Keeps.ite
    | with_reducible apply State.elapse_keeps
    | with_reducible apply State.emptySlot_keeps
    | with_reducible apply State.pumpTakes_keeps
    | with_reducible apply done_keeps
    | simp only [Keeps.mk_iff]
    | with_reducible apply KeepsCore.of
    | (split <;> (rename_i hp; have hp := congrArg Prod.fst hp; dsimp only at hp; subst hp))
    | split

theorem execBandDeadline_keeps {z s : State} {dt : Nat} {n : Fin 96} {k : Nat} {b : Nat} (hz : Keeps z s) :
    KeepsOut z (execBandDeadline dt n k b s) := by
  unfold execBandDeadline
  try dsimp only
  repeat' first
    | (with_reducible intro _)
    | with_reducible assumption
    | with_reducible apply KeepsOut.next
    | with_reducible apply KeepsOut.ite
    | with_reducible apply done_keeps
    | with_reducible apply Keeps.ite
    | with_reducible apply State.elapse_keeps
    | with_reducible apply State.modBand_keeps
    | with_reducible apply State.followBand_keeps
    | with_reducible apply State.pumpTakes_keeps
    | with_reducible apply State.repairBand_keeps
    | with_reducible apply State.readyBands_keeps
    | with_reducible apply done_keeps
    | simp only [Keeps.mk_iff]
    | with_reducible apply KeepsCore.of
    | (split <;> (rename_i hp; have hp := congrArg Prod.fst hp; dsimp only at hp; subst hp))
    | split

theorem State.prepared_keeps {z s : State} {n : Nat} {k : Nat} (hz : Keeps z s) :
    Keeps z (State.prepared s n k) := by
  unfold State.prepared
  try dsimp only
  repeat' first
    | (with_reducible intro _)
    | with_reducible assumption
    | with_reducible apply Keeps.ite
    | with_reducible apply State.modItem_keeps
    | with_reducible apply State.each_keeps
    | with_reducible apply State.bump64_keeps
    | with_reducible apply State.busy_keeps
    | with_reducible apply State.lanternSend_keeps
    | with_reducible apply State.repairSource_keeps
    | with_reducible apply State.compareItem_keeps
    | with_reducible apply done_keeps
    | simp only [Keeps.mk_iff]
    | with_reducible apply KeepsCore.of
    | (split <;> (rename_i hp; have hp := congrArg Prod.fst hp; dsimp only at hp; subst hp))
    | split

theorem execPreparationDone_keeps {z s : State} {dt : Nat} {n : Fin 96} {k : Nat} (hz : Keeps z s) :
    KeepsOut z (execPreparationDone dt n k s) := by
  unfold execPreparationDone
  try dsimp only
  repeat' first
    | (with_reducible intro _)
    | with_reducible assumption
    | with_reducible apply KeepsOut.next
    | with_reducible apply KeepsOut.ite
    | with_reducible apply done_keeps
    | with_reducible apply Keeps.ite
    | with_reducible apply State.elapse_keeps
    | with_reducible apply State.prepared_keeps
    | with_reducible apply State.pumpTakes_keeps
    | with_reducible apply done_keeps
    | simp only [Keeps.mk_iff]
    | with_reducible apply KeepsCore.of
    | (split <;> (rename_i hp; have hp := congrArg Prod.fst hp; dsimp only at hp; subst hp))
    | split

end Sys2Proof.Machine
end

