-- ==== Sys2Proof/Laws/KeepsWork.lean ====
section
/-! SUPPORT. One lemma for each operation of Machine/Work.lean: it keeps what `Keeps` names. -/

namespace Sys2Proof.Machine

set_option linter.all false

theorem State.advance_keeps {z s : State} {d : Desc} (hz : Keeps z s) :
    Keeps z (State.advance s d) := by
  unfold State.advance
  try dsimp only
  repeat' first
    | (with_reducible intro _)
    | with_reducible assumption
    | with_reducible apply Keeps.ite
    | with_reducible apply State.freeDesc_keeps
    | with_reducible apply State.modDesc_keeps
    | with_reducible apply State.setWait_keeps
    | with_reducible apply done_keeps
    | simp only [Keeps.mk_iff]
    | with_reducible apply KeepsCore.of
    | (split <;> (rename_i hp; have hp := congrArg Prod.fst hp; dsimp only at hp; subst hp))
    | split

theorem State.afterWork_keeps {z s : State} {n : Nat} (hz : Keeps z s) :
    Keeps z (State.afterWork s n) := by
  unfold State.afterWork
  try dsimp only
  repeat' first
    | (with_reducible intro _)
    | with_reducible assumption
    | with_reducible apply Keeps.ite
    | with_reducible apply State.closeItems_keeps
    | with_reducible apply State.releaseBuffers_keeps
    | with_reducible apply State.settleChan_keeps
    | with_reducible apply State.pumpTakes_keeps
    | with_reducible apply State.silentReleases_keeps
    | simp only [Keeps.mk_iff]
    | with_reducible apply KeepsCore.of
    | (split <;> (rename_i hp; have hp := congrArg Prod.fst hp; dsimp only at hp; subst hp))
    | split

theorem State.setDone_keeps {z s : State} {n : Nat} {k : Nat} {b : Nat} {st : Nat} (hz : Keeps z s) :
    Keeps z (State.setDone s n k b st) := by
  unfold State.setDone
  try dsimp only
  repeat' first
    | (with_reducible intro _)
    | with_reducible assumption
    | with_reducible apply Keeps.ite
    | with_reducible apply State.modBand_keeps
    | with_reducible apply done_keeps
    | simp only [Keeps.mk_iff]
    | with_reducible apply KeepsCore.of
    | (split <;> (rename_i hp; have hp := congrArg Prod.fst hp; dsimp only at hp; subst hp))
    | split

theorem State.doneAnalysis_keeps {z s : State} {d : Desc} (hz : Keeps z s) :
    Keeps z (State.doneAnalysis s d) := by
  unfold State.doneAnalysis
  try dsimp only
  repeat' first
    | (with_reducible intro _)
    | with_reducible assumption
    | with_reducible apply Keeps.ite
    | with_reducible apply State.modBand_keeps
    | with_reducible apply State.modPic_keeps
    | with_reducible apply State.when_keeps
    | with_reducible apply State.modItem_keeps
    | with_reducible apply done_keeps
    | simp only [Keeps.mk_iff]
    | with_reducible apply KeepsCore.of
    | (split <;> (rename_i hp; have hp := congrArg Prod.fst hp; dsimp only at hp; subst hp))
    | split

theorem State.doneSearch_keeps {z s : State} {d : Desc} (hz : Keeps z s) :
    Keeps z (State.doneSearch s d) := by
  unfold State.doneSearch
  try dsimp only
  repeat' first
    | (with_reducible intro _)
    | with_reducible assumption
    | with_reducible apply Keeps.ite
    | with_reducible apply State.when_keeps
    | with_reducible apply State.modPic_keeps
    | with_reducible apply State.setDone_keeps
    | simp only [Keeps.mk_iff]
    | with_reducible apply KeepsCore.of
    | (split <;> (rename_i hp; have hp := congrArg Prod.fst hp; dsimp only at hp; subst hp))
    | split

theorem State.doneRecon_keeps {z s : State} {e : Nat} {d : Desc} (hz : Keeps z s) :
    Keeps z (State.doneRecon s e d) := by
  unfold State.doneRecon
  try dsimp only
  repeat' first
    | (with_reducible intro _)
    | with_reducible assumption
    | with_reducible apply Keeps.ite
    | with_reducible apply State.openItem_keeps
    | with_reducible apply State.modBand_keeps
    | with_reducible apply State.codeStage_keeps
    | with_reducible apply State.bump64_keeps
    | with_reducible apply State.bump_keeps
    | with_reducible apply done_keeps
    | simp only [Keeps.mk_iff]
    | with_reducible apply KeepsCore.of
    | (split <;> (rename_i hp; have hp := congrArg Prod.fst hp; dsimp only at hp; subst hp))
    | split

theorem State.sendHalo_keeps {z s : State} {d : Desc} {ember : Bool} (hz : Keeps z s) :
    Keeps z (State.sendHalo s d ember) := by
  unfold State.sendHalo
  try dsimp only
  repeat' first
    | (with_reducible intro _)
    | with_reducible assumption
    | with_reducible apply Keeps.ite
    | with_reducible apply State.when_keeps
    | with_reducible apply State.keepHalo_keeps
    | with_reducible apply State.tell_keeps
    | simp only [Keeps.mk_iff]
    | with_reducible apply KeepsCore.of
    | (split <;> (rename_i hp; have hp := congrArg Prod.fst hp; dsimp only at hp; subst hp))
    | split

theorem State.doneFilter_keeps {z s : State} {d : Desc} (hz : Keeps z s) :
    Keeps z (State.doneFilter s d) := by
  unfold State.doneFilter
  try dsimp only
  repeat' first
    | (with_reducible intro _)
    | with_reducible assumption
    | with_reducible apply Keeps.ite
    | with_reducible apply State.filterStage_keeps
    | with_reducible apply State.modBand_keeps
    | with_reducible apply State.sendHalo_keeps
    | with_reducible apply done_keeps
    | simp only [Keeps.mk_iff]
    | with_reducible apply KeepsCore.of
    | (split <;> (rename_i hp; have hp := congrArg Prod.fst hp; dsimp only at hp; subst hp))
    | split

theorem State.closeSqi_keeps {z s : State} {n : Nat} {k : Nat} {b : Nat} (hz : Keeps z s) :
    Keeps z (State.closeSqi s n k b) := by
  unfold State.closeSqi
  try dsimp only
  repeat' first
    | (with_reducible intro _)
    | with_reducible assumption
    | with_reducible apply Keeps.ite
    | with_reducible apply State.modItem_keeps
    | simp only [Keeps.mk_iff]
    | with_reducible apply KeepsCore.of
    | (split <;> (rename_i hp; have hp := congrArg Prod.fst hp; dsimp only at hp; subst hp))
    | split

theorem State.completeEmber_keeps {z s : State} {d : Desc} (hz : Keeps z s) :
    Keeps z (State.completeEmber s d) := by
  unfold State.completeEmber
  try dsimp only
  repeat' first
    | (with_reducible intro _)
    | with_reducible assumption
    | with_reducible apply Keeps.ite
    | with_reducible apply State.emberStage_keeps
    | with_reducible apply State.modBand_keeps
    | with_reducible apply State.when_keeps
    | with_reducible apply State.closeSqi_keeps
    | with_reducible apply State.sendHalo_keeps
    | with_reducible apply State.tell_keeps
    | with_reducible apply done_keeps
    | simp only [Keeps.mk_iff]
    | with_reducible apply KeepsCore.of
    | (split <;> (rename_i hp; have hp := congrArg Prod.fst hp; dsimp only at hp; subst hp))
    | split

theorem State.doneEntropy_keeps {z s : State} {e : Nat} {d : Desc} (hz : Keeps z s) :
    Keeps z (State.doneEntropy s e d) := by
  unfold State.doneEntropy
  try dsimp only
  repeat' first
    | (with_reducible intro _)
    | with_reducible assumption
    | with_reducible apply Keeps.ite
    | with_reducible apply State.openItem_keeps
    | with_reducible apply State.modPic_keeps
    | with_reducible apply State.modBand_keeps
    | with_reducible apply State.when_keeps
    | with_reducible apply State.modItem_keeps
    | with_reducible apply State.raise_keeps
    | with_reducible apply State.bump64_keeps
    | with_reducible apply State.bump_keeps
    | with_reducible apply State.modDesc_keeps
    | with_reducible apply State.makeReady_keeps
    | with_reducible apply State.setDone_keeps
    | with_reducible apply State.closeSqi_keeps
    | with_reducible apply State.tell_keeps
    | with_reducible apply State.advance_keeps
    | simp only [Keeps.mk_iff]
    | with_reducible apply KeepsCore.of
    | (split <;> (rename_i hp; have hp := congrArg Prod.fst hp; dsimp only at hp; subst hp))
    | split

theorem State.seal_keeps {z s : State} {d : Desc} (hz : Keeps z s) :
    Keeps z (State.seal s d) := by
  unfold State.seal
  try dsimp only
  repeat' first
    | (with_reducible intro _)
    | with_reducible assumption
    | with_reducible apply Keeps.ite
    | with_reducible apply State.bump64_keeps
    | with_reducible apply State.modBand_keeps
    | with_reducible apply State.lanternSend_keeps
    | with_reducible apply State.when_keeps
    | with_reducible apply State.advance_keeps
    | with_reducible apply State.compareItem_keeps
    | with_reducible apply done_keeps
    | simp only [Keeps.mk_iff]
    | with_reducible apply KeepsCore.of
    | (split <;> (rename_i hp; have hp := congrArg Prod.fst hp; dsimp only at hp; subst hp))
    | split

theorem State.checkEvent_keeps {z s : State} {d : Desc} {code : Nat} (hz : Keeps z s) :
    Keeps z (State.checkEvent s d code) := by
  unfold State.checkEvent
  try dsimp only
  repeat' first
    | (with_reducible intro _)
    | with_reducible assumption
    | with_reducible apply Keeps.ite
    | with_reducible apply State.raise_keeps
    | simp only [Keeps.mk_iff]
    | with_reducible apply KeepsCore.of
    | (split <;> (rename_i hp; have hp := congrArg Prod.fst hp; dsimp only at hp; subst hp))
    | split

theorem State.substitute_keeps {z s : State} {d : Desc} (hz : Keeps z s) :
    Keeps z (State.substitute s d) := by
  unfold State.substitute
  try dsimp only
  repeat' first
    | (with_reducible intro _)
    | with_reducible assumption
    | with_reducible apply Keeps.ite
    | with_reducible apply State.bump_keeps
    | with_reducible apply State.modItem_keeps
    | with_reducible apply State.endAllocs_keeps
    | with_reducible apply State.each_keeps
    | with_reducible apply State.stage_keeps
    | with_reducible apply State.advance_keeps
    | with_reducible apply State.when_keeps
    | with_reducible apply State.enqueue_keeps
    | with_reducible apply done_keeps
    | simp only [Keeps.mk_iff]
    | with_reducible apply KeepsCore.of
    | (split <;> (rename_i hp; have hp := congrArg Prod.fst hp; dsimp only at hp; subst hp))
    | split

theorem State.buffersLost_keeps {z s : State} {n : Nat} {part : Nat} (hz : Keeps z s) :
    Keeps z (State.buffersLost s n part) := by
  unfold State.buffersLost
  try dsimp only
  repeat' first
    | (with_reducible intro _)
    | with_reducible assumption
    | with_reducible apply Keeps.ite
    | with_reducible apply State.forceEmbers_keeps
    | with_reducible apply State.replan_keeps
    | simp only [Keeps.mk_iff]
    | with_reducible apply KeepsCore.of
    | (split <;> (rename_i hp; have hp := congrArg Prod.fst hp; dsimp only at hp; subst hp))
    | split

theorem State.formCheck_keeps {z s : State} {d : Desc} {it : Item} (hz : Keeps z s) :
    Keeps z (State.formCheck s d it).1 := by
  unfold State.formCheck
  try dsimp only
  repeat' first
    | (with_reducible intro _)
    | with_reducible assumption
    | with_reducible apply Keeps.ite
    | with_reducible apply State.each_keeps
    | with_reducible apply State.parseBands_keeps
    | with_reducible apply done_keeps
    | simp only [Keeps.mk_iff]
    | with_reducible apply KeepsCore.of
    | (split <;> (rename_i hp; have hp := congrArg Prod.fst hp; dsimp only at hp; subst hp))
    | split

theorem State.sealSubst_keeps {z s : State} {d : Desc} (hz : Keeps z s) :
    Keeps z (State.sealSubst s d) := by
  unfold State.sealSubst
  try dsimp only
  repeat' first
    | (with_reducible intro _)
    | with_reducible assumption
    | with_reducible apply Keeps.ite
    | with_reducible apply State.stage_keeps
    | with_reducible apply State.seal_keeps
    | with_reducible apply State.each_keeps
    | with_reducible apply done_keeps
    | simp only [Keeps.mk_iff]
    | with_reducible apply KeepsCore.of
    | (split <;> (rename_i hp; have hp := congrArg Prod.fst hp; dsimp only at hp; subst hp))
    | split

theorem State.doneCheck_keeps {z s : State} {d : Desc} {r : CheckRead} (hz : Keeps z s) :
    Keeps z (State.doneCheck s d r) := by
  unfold State.doneCheck
  try dsimp only
  repeat' first
    | (with_reducible intro _)
    | with_reducible assumption
    | with_reducible apply Keeps.ite
    | with_reducible apply State.parseBands_keeps
    | with_reducible apply State.seal_keeps
    | with_reducible apply State.bump_keeps
    | with_reducible apply State.checkEvent_keeps
    | with_reducible apply State.substitute_keeps
    | with_reducible apply State.formCheck_keeps
    | with_reducible apply State.sealSubst_keeps
    | with_reducible apply State.lossHandover_keeps
    | with_reducible apply State.buffersLost_keeps
    | with_reducible apply State.giveUp_keeps
    | with_reducible apply State.when_keeps
    | with_reducible apply State.passItems_keeps
    | with_reducible apply State.retire_keeps
    | simp only [Keeps.mk_iff]
    | with_reducible apply KeepsCore.of
    | (split <;> (rename_i hp; have hp := congrArg Prod.fst hp; dsimp only at hp; subst hp))
    | split

theorem State.deliver_keeps {z s : State} {m : Nat} {x : DecPic} {last : Bool} (hz : Keeps z s) :
    Keeps z (State.deliver s m x last) := by
  unfold State.deliver
  try dsimp only
  repeat' first
    | (with_reducible intro _)
    | with_reducible assumption
    | with_reducible apply Keeps.ite
    | with_reducible apply State.modChan_keeps
    | with_reducible apply State.each_keeps
    | with_reducible apply State.modItem_keeps
    | with_reducible apply State.modPic_keeps
    | with_reducible apply State.readyBands_keeps
    | simp only [Keeps.mk_iff]
    | with_reducible apply KeepsCore.of
    | (split <;> (rename_i hp; have hp := congrArg Prod.fst hp; dsimp only at hp; subst hp))
    | split

theorem State.trimDpb_keeps {z s : State} {m : Nat} {x : SpsInfo} (hz : Keeps z s) :
    Keeps z (State.trimDpb s m x) := by
  unfold State.trimDpb
  try dsimp only
  repeat' first
    | (with_reducible intro _)
    | with_reducible assumption
    | with_reducible apply Keeps.ite
    | with_reducible apply State.when_keeps
    | with_reducible apply State.each_keeps
    | with_reducible apply State.dropPicture_keeps
    | with_reducible apply State.modChan_keeps
    | with_reducible apply State.decodeErrors_keeps
    | simp only [Keeps.mk_iff]
    | with_reducible apply KeepsCore.of
    | (split <;> (rename_i hp; have hp := congrArg Prod.fst hp; dsimp only at hp; subst hp))
    | split

theorem State.endDecode_keeps {z s : State} {die : Nat} {m : Nat} {x : DecPic} (hz : Keeps z s) :
    Keeps z (State.endDecode s die m x) := by
  unfold State.endDecode
  try dsimp only
  repeat' first
    | (with_reducible intro _)
    | with_reducible assumption
    | with_reducible apply Keeps.ite
    | with_reducible apply State.decodeErrors_keeps
    | with_reducible apply State.setBit_keeps
    | with_reducible apply State.when_keeps
    | with_reducible apply State.bump64_keeps
    | with_reducible apply State.bump_keeps
    | with_reducible apply State.modChan_keeps
    | with_reducible apply State.trimDpb_keeps
    | with_reducible apply State.each_keeps
    | with_reducible apply State.modItem_keeps
    | with_reducible apply State.judge_keeps
    | simp only [Keeps.mk_iff]
    | with_reducible apply KeepsCore.of
    | (split <;> (rename_i hp; have hp := congrArg Prod.fst hp; dsimp only at hp; subst hp))
    | split

theorem State.pieceDone_keeps {z s : State} {die : Nat} {m : Nat} {x : DecPic} {b : Nat} {out : PieceOut} (hz : Keeps z s) :
    Keeps z (State.pieceDone s die m x b out) := by
  unfold State.pieceDone
  try dsimp only
  repeat' first
    | (with_reducible intro _)
    | with_reducible assumption
    | with_reducible apply Keeps.ite
    | with_reducible apply State.decodeErrors_keeps
    | with_reducible apply State.bump_keeps
    | with_reducible apply State.modChan_keeps
    | with_reducible apply State.deliver_keeps
    | with_reducible apply State.endDecode_keeps
    | simp only [Keeps.mk_iff]
    | with_reducible apply KeepsCore.of
    | (split <;> (rename_i hp; have hp := congrArg Prod.fst hp; dsimp only at hp; subst hp))
    | split

theorem State.doneDecode_keeps {z s : State} {d : Desc} (hz : Keeps z s) :
    Keeps z (State.doneDecode s d) := by
  unfold State.doneDecode
  try dsimp only
  repeat' first
    | (with_reducible intro _)
    | with_reducible assumption
    | with_reducible apply Keeps.ite
    | with_reducible apply State.freeDesc_keeps
    | with_reducible apply State.pieceDone_keeps
    | simp only [Keeps.mk_iff]
    | with_reducible apply KeepsCore.of
    | (split <;> (rename_i hp; have hp := congrArg Prod.fst hp; dsimp only at hp; subst hp))
    | split

theorem State.noteRerun_keeps {z s : State} {d : Desc} (hz : Keeps z s) :
    Keeps z (State.noteRerun s d) := by
  unfold State.noteRerun
  try dsimp only
  repeat' first
    | (with_reducible intro _)
    | with_reducible assumption
    | with_reducible apply Keeps.ite
    | with_reducible apply State.when_keeps
    | with_reducible apply State.fail_keeps
    | with_reducible apply done_keeps
    | simp only [Keeps.mk_iff]
    | with_reducible apply KeepsCore.of
    | (split <;> (rename_i hp; have hp := congrArg Prod.fst hp; dsimp only at hp; subst hp))
    | split

theorem State.complete_keeps {z s : State} {e : Nat} {d : Desc} {r : CheckRead} (hz : Keeps z s) :
    Keeps z (State.complete s e d r) := by
  unfold State.complete
  try dsimp only
  repeat' first
    | (with_reducible intro _)
    | with_reducible assumption
    | with_reducible apply Keeps.ite
    | with_reducible apply State.doneDecode_keeps
    | with_reducible apply State.stage_keeps
    | with_reducible apply State.doneAnalysis_keeps
    | with_reducible apply State.tell_keeps
    | with_reducible apply State.advance_keeps
    | with_reducible apply State.doneSearch_keeps
    | with_reducible apply State.doneRecon_keeps
    | with_reducible apply State.doneFilter_keeps
    | with_reducible apply State.completeEmber_keeps
    | with_reducible apply State.doneEntropy_keeps
    | with_reducible apply State.doneCheck_keeps
    | with_reducible apply State.setDone_keeps
    | with_reducible apply State.freeDesc_keeps
    | with_reducible apply State.noteRerun_keeps
    | simp only [Keeps.mk_iff]
    | with_reducible apply KeepsCore.of
    | (split <;> (rename_i hp; have hp := congrArg Prod.fst hp; dsimp only at hp; subst hp))
    | split

theorem execWorkComplete_keeps {z s : State} {dt : Nat} {e : Fin 464} {r : CheckRead} (hz : Keeps z s) :
    KeepsOut z (execWorkComplete dt e r s) := by
  unfold execWorkComplete
  try dsimp only
  repeat' first
    | (with_reducible intro _)
    | with_reducible assumption
    | with_reducible apply KeepsOut.next
    | with_reducible apply KeepsOut.ite
    | with_reducible apply done_keeps
    | with_reducible apply Keeps.ite
    | with_reducible apply State.elapse_keeps
    | with_reducible apply State.setEng_keeps
    | with_reducible apply State.busy_keeps
    | with_reducible apply State.when_keeps
    | with_reducible apply State.bump_keeps
    | with_reducible apply State.pumpTakes_keeps
    | with_reducible apply State.complete_keeps
    | with_reducible apply State.trace_keeps
    | with_reducible apply State.stage_keeps
    | with_reducible apply State.freeIfEnded_keeps
    | with_reducible apply State.afterWork_keeps
    | with_reducible apply done_keeps
    | simp only [Keeps.mk_iff]
    | with_reducible apply KeepsCore.of
    | (split <;> (rename_i hp; have hp := congrArg Prod.fst hp; dsimp only at hp; subst hp))
    | split

theorem execTakeRequest_keeps {z s : State} {dt : Nat} {e : Fin 464} (hz : Keeps z s) :
    KeepsOut z (execTakeRequest dt e s) := by
  unfold execTakeRequest
  try dsimp only
  repeat' first
    | (with_reducible intro _)
    | with_reducible assumption
    | with_reducible apply KeepsOut.next
    | with_reducible apply KeepsOut.ite
    | with_reducible apply done_keeps
    | with_reducible apply Keeps.ite
    | with_reducible apply State.elapse_keeps
    | with_reducible apply State.tryTake_keeps
    | with_reducible apply done_keeps
    | simp only [Keeps.mk_iff]
    | with_reducible apply KeepsCore.of
    | (split <;> (rename_i hp; have hp := congrArg Prod.fst hp; dsimp only at hp; subst hp))
    | split

theorem State.engineFailed_keeps {z s : State} {e : Nat} (hz : Keeps z s) :
    Keeps z (State.engineFailed s e) := by
  unfold State.engineFailed
  try dsimp only
  repeat' first
    | (with_reducible intro _)
    | with_reducible assumption
    | with_reducible apply Keeps.ite
    | with_reducible apply State.bump_keeps
    | with_reducible apply State.trace_keeps
    | with_reducible apply State.setEng_keeps
    | with_reducible apply State.setBit_keeps
    | with_reducible apply State.clusterFailed_keeps
    | with_reducible apply State.retire_keeps
    | simp only [Keeps.mk_iff]
    | with_reducible apply KeepsCore.of
    | (split <;> (rename_i hp; have hp := congrArg Prod.fst hp; dsimp only at hp; subst hp))
    | split

theorem State.pieceLost_keeps {z s : State} {d : Desc} {e : Nat} (hz : Keeps z s) :
    Keeps z (State.pieceLost s d e) := by
  unfold State.pieceLost
  try dsimp only
  repeat' first
    | (with_reducible intro _)
    | with_reducible assumption
    | with_reducible apply Keeps.ite
    | with_reducible apply State.freeDesc_keeps
    | with_reducible apply State.each_keeps
    | with_reducible apply State.when_keeps
    | with_reducible apply State.becomeRepeat_keeps
    | with_reducible apply State.fail_keeps
    | with_reducible apply State.pieceDone_keeps
    | with_reducible apply State.countWaits_keeps
    | simp only [Keeps.mk_iff]
    | with_reducible apply KeepsCore.of
    | (split <;> (rename_i hp; have hp := congrArg Prod.fst hp; dsimp only at hp; subst hp))
    | split

theorem State.exhausted_keeps {z s : State} {d : Desc} {e : Nat} (hz : Keeps z s) :
    Keeps z (State.exhausted s d e) := by
  unfold State.exhausted
  try dsimp only
  repeat' first
    | (with_reducible intro _)
    | with_reducible assumption
    | with_reducible apply Keeps.ite
    | with_reducible apply State.pieceLost_keeps
    | with_reducible apply State.when_keeps
    | with_reducible apply State.stage_keeps
    | with_reducible apply State.modBand_keeps
    | with_reducible apply State.modDesc_keeps
    | with_reducible apply State.modItem_keeps
    | with_reducible apply State.becomeRepeat_keeps
    | with_reducible apply State.fail_keeps
    | with_reducible apply done_keeps
    | simp only [Keeps.mk_iff]
    | with_reducible apply KeepsCore.of
    | (split <;> (rename_i hp; have hp := congrArg Prod.fst hp; dsimp only at hp; subst hp))
    | split

theorem State.redispatch_keeps {z s : State} {e : Nat} {d : Desc} {kind : Nat} (hz : Keeps z s) :
    Keeps z (State.redispatch s e d kind) := by
  unfold State.redispatch
  try dsimp only
  repeat' first
    | (with_reducible intro _)
    | with_reducible assumption
    | with_reducible apply Keeps.ite
    | with_reducible apply State.bump_keeps
    | with_reducible apply State.when_keeps
    | with_reducible apply State.raise_keeps
    | with_reducible apply State.stage_keeps
    | with_reducible apply State.trace_keeps
    | with_reducible apply State.setEng_keeps
    | with_reducible apply State.modItem_keeps
    | with_reducible apply State.modDesc_keeps
    | with_reducible apply State.exhausted_keeps
    | with_reducible apply State.engineFailed_keeps
    | with_reducible apply State.pumpTakes_keeps
    | simp only [Keeps.mk_iff]
    | with_reducible apply KeepsCore.of
    | (split <;> (rename_i hp; have hp := congrArg Prod.fst hp; dsimp only at hp; subst hp))
    | split

theorem State.faultOf_keeps {z s : State} {e : Nat} {kind : Nat} (hz : Keeps z s) :
    Keeps z (State.faultOf s e kind) := by
  unfold State.faultOf
  try dsimp only
  repeat' first
    | (with_reducible intro _)
    | with_reducible assumption
    | with_reducible apply Keeps.ite
    | with_reducible apply State.redispatch_keeps
    | with_reducible apply State.setEng_keeps
    | with_reducible apply State.pumpTakes_keeps
    | simp only [Keeps.mk_iff]
    | with_reducible apply KeepsCore.of
    | (split <;> (rename_i hp; have hp := congrArg Prod.fst hp; dsimp only at hp; subst hp))
    | split

theorem execWorkFault_keeps {z s : State} {dt : Nat} {e : Fin 464} (hz : Keeps z s) :
    KeepsOut z (execWorkFault dt e s) := by
  unfold execWorkFault
  try dsimp only
  repeat' first
    | (with_reducible intro _)
    | with_reducible assumption
    | with_reducible apply KeepsOut.next
    | with_reducible apply KeepsOut.ite
    | with_reducible apply done_keeps
    | with_reducible apply Keeps.ite
    | with_reducible apply State.elapse_keeps
    | with_reducible apply State.busy_keeps
    | with_reducible apply State.faultOf_keeps
    | with_reducible apply done_keeps
    | simp only [Keeps.mk_iff]
    | with_reducible apply KeepsCore.of
    | (split <;> (rename_i hp; have hp := congrArg Prod.fst hp; dsimp only at hp; subst hp))
    | split

theorem execChannelTagFault_keeps {z s : State} {dt : Nat} {e : EngineAccess} (hz : Keeps z s) :
    KeepsOut z (execChannelTagFault dt e s) := by
  unfold execChannelTagFault
  try dsimp only
  repeat' first
    | (with_reducible intro _)
    | with_reducible assumption
    | with_reducible apply KeepsOut.next
    | with_reducible apply KeepsOut.ite
    | with_reducible apply done_keeps
    | with_reducible apply Keeps.ite
    | with_reducible apply State.elapse_keeps
    | with_reducible apply State.bump_keeps
    | with_reducible apply State.faultOf_keeps
    | with_reducible apply done_keeps
    | simp only [Keeps.mk_iff]
    | with_reducible apply KeepsCore.of
    | (split <;> (rename_i hp; have hp := congrArg Prod.fst hp; dsimp only at hp; subst hp))
    | split

theorem execStallWatchdog_keeps {z s : State} {dt : Nat} {die : Fin 8} {no : Fin 32768} (hz : Keeps z s) :
    KeepsOut z (execStallWatchdog dt die no s) := by
  unfold execStallWatchdog
  try dsimp only
  repeat' first
    | (with_reducible intro _)
    | with_reducible assumption
    | with_reducible apply KeepsOut.next
    | with_reducible apply KeepsOut.ite
    | with_reducible apply done_keeps
    | with_reducible apply Keeps.ite
    | with_reducible apply State.elapse_keeps
    | with_reducible apply State.bump_keeps
    | with_reducible apply State.faultOf_keeps
    | with_reducible apply done_keeps
    | simp only [Keeps.mk_iff]
    | with_reducible apply KeepsCore.of
    | (split <;> (rename_i hp; have hp := congrArg Prod.fst hp; dsimp only at hp; subst hp))
    | split

theorem execBandTimingDeparture_keeps {z s : State} {dt : Nat} {n : Fin 96} {k : Nat} {b : Nat} (hz : Keeps z s) :
    KeepsOut z (execBandTimingDeparture dt n k b s) := by
  unfold execBandTimingDeparture
  try dsimp only
  repeat' first
    | (with_reducible intro _)
    | with_reducible assumption
    | with_reducible apply KeepsOut.next
    | with_reducible apply KeepsOut.ite
    | with_reducible apply done_keeps
    | with_reducible apply Keeps.ite
    | with_reducible apply State.elapse_keeps
    | with_reducible apply State.modBand_keeps
    | with_reducible apply State.bump_keeps
    | with_reducible apply State.raise_keeps
    | with_reducible apply done_keeps
    | simp only [Keeps.mk_iff]
    | with_reducible apply KeepsCore.of
    | (split <;> (rename_i hp; have hp := congrArg Prod.fst hp; dsimp only at hp; subst hp))
    | split

theorem execEngineResetDone_keeps {z s : State} {dt : Nat} {e : Fin 464} (hz : Keeps z s) :
    KeepsOut z (execEngineResetDone dt e s) := by
  unfold execEngineResetDone
  try dsimp only
  repeat' first
    | (with_reducible intro _)
    | with_reducible assumption
    | with_reducible apply KeepsOut.next
    | with_reducible apply KeepsOut.ite
    | with_reducible apply done_keeps
    | with_reducible apply Keeps.ite
    | with_reducible apply State.elapse_keeps
    | with_reducible apply State.setEng_keeps
    | with_reducible apply done_keeps
    | simp only [Keeps.mk_iff]
    | with_reducible apply KeepsCore.of
    | (split <;> (rename_i hp; have hp := congrArg Prod.fst hp; dsimp only at hp; subst hp))
    | split

theorem execEngineResetTimeout_keeps {z s : State} {dt : Nat} {e : Fin 464} (hz : Keeps z s) :
    KeepsOut z (execEngineResetTimeout dt e s) := by
  unfold execEngineResetTimeout
  try dsimp only
  repeat' first
    | (with_reducible intro _)
    | with_reducible assumption
    | with_reducible apply KeepsOut.next
    | with_reducible apply KeepsOut.ite
    | with_reducible apply done_keeps
    | with_reducible apply Keeps.ite
    | with_reducible apply State.elapse_keeps
    | with_reducible apply State.engineFailed_keeps
    | with_reducible apply State.pumpTakes_keeps
    | with_reducible apply done_keeps
    | simp only [Keeps.mk_iff]
    | with_reducible apply KeepsCore.of
    | (split <;> (rename_i hp; have hp := congrArg Prod.fst hp; dsimp only at hp; subst hp))
    | split

theorem execAllocationWaitEnd_keeps {z s : State} {dt : Nat} {i : Nat} (hz : Keeps z s) :
    KeepsOut z (execAllocationWaitEnd dt i s) := by
  unfold execAllocationWaitEnd
  try dsimp only
  repeat' first
    | (with_reducible intro _)
    | with_reducible assumption
    | with_reducible apply KeepsOut.next
    | with_reducible apply KeepsOut.ite
    | with_reducible apply done_keeps
    | with_reducible apply Keeps.ite
    | with_reducible apply State.elapse_keeps
    | with_reducible apply State.endAllocs_keeps
    | with_reducible apply State.allocDesc_keeps
    | with_reducible apply State.pumpTakes_keeps
    | with_reducible apply done_keeps
    | simp only [Keeps.mk_iff]
    | with_reducible apply KeepsCore.of
    | (split <;> (rename_i hp; have hp := congrArg Prod.fst hp; dsimp only at hp; subst hp))
    | split

end Sys2Proof.Machine
end

