-- ==== Sys2Proof/Laws/KeepsMemory.lean ====
section
/-! SUPPORT. One lemma for each operation of Machine/Memory.lean: it keeps what `Keeps` names. -/

namespace Sys2Proof.Machine

set_option linter.all false

theorem State.emberItem_keeps {z s : State} {n : Nat} {k : Nat} {cause : Nat} {die : Nat} (hz : Keeps z s) :
    Keeps z (State.emberItem s n k cause die) := by
  unfold State.emberItem
  try dsimp only
  repeat' first
    | (with_reducible intro _)
    | with_reducible assumption
    | with_reducible apply Keeps.ite
    | with_reducible apply State.needRecon_keeps
    | with_reducible apply State.modItem_keeps
    | with_reducible apply State.recode_keeps
    | with_reducible apply State.settleChan_keeps
    | with_reducible apply State.fail_keeps
    | with_reducible apply done_keeps
    | simp only [Keeps.mk_iff]
    | with_reducible apply KeepsCore.of
    | (split <;> (rename_i hp; have hp := congrArg Prod.fst hp; dsimp only at hp; subst hp))
    | split

theorem State.poisonBuffer_keeps {z s : State} {n : Nat} {part : Nat} {no : Nat} (hz : Keeps z s) :
    Keeps z (State.poisonBuffer s n part no) := by
  unfold State.poisonBuffer
  try dsimp only
  repeat' first
    | (with_reducible intro _)
    | with_reducible assumption
    | with_reducible apply Keeps.ite
    | with_reducible apply State.lossHandover_keeps
    | with_reducible apply State.buffersLost_keeps
    | with_reducible apply State.modChan_keeps
    | with_reducible apply State.bump_keeps
    | with_reducible apply State.each_keeps
    | with_reducible apply State.emberItem_keeps
    | simp only [Keeps.mk_iff]
    | with_reducible apply KeepsCore.of
    | (split <;> (rename_i hp; have hp := congrArg Prod.fst hp; dsimp only at hp; subst hp))
    | split

theorem State.ownerLost_keeps {z s : State} {o : DataOwner} (hz : Keeps z s) :
    Keeps z (State.ownerLost s o) := by
  unfold State.ownerLost
  try dsimp only
  repeat' first
    | (with_reducible intro _)
    | with_reducible assumption
    | with_reducible apply Keeps.ite
    | with_reducible apply State.faultOf_keeps
    | with_reducible apply State.when_keeps
    | with_reducible apply State.becomeRepeat_keeps
    | with_reducible apply State.fail_keeps
    | with_reducible apply State.readsCaught_keeps
    | with_reducible apply State.crcChain_keeps
    | with_reducible apply State.poisonBuffer_keeps
    | simp only [Keeps.mk_iff]
    | with_reducible apply KeepsCore.of
    | (split <;> (rename_i hp; have hp := congrArg Prod.fst hp; dsimp only at hp; subst hp))
    | split

theorem State.trainChannel_keeps {z s : State} {d : Nat} {k : Nat} {j : Nat} {keep : Bool} {found : Option TrainFound} (hz : Keeps z s) :
    Keeps z (State.trainChannel s d k j keep found) := by
  unfold State.trainChannel
  try dsimp only
  repeat' first
    | (with_reducible intro _)
    | with_reducible assumption
    | with_reducible apply Keeps.ite
    | with_reducible apply State.modMchan_keeps
    | with_reducible apply State.setRecv_keeps
    | with_reducible apply State.restorePassed_keeps
    | with_reducible apply State.setMc_keeps
    | with_reducible apply State.when_keeps
    | with_reducible apply State.setFld_keeps
    | with_reducible apply State.wrN_keeps
    | exact fun _ h => h
    | exact fun _ _ => rfl
    | exact ChanKeeps.poison _ _
    | simp only [Keeps.mk_iff]
    | with_reducible apply KeepsCore.of
    | (split <;> (rename_i hp; have hp := congrArg Prod.fst hp; dsimp only at hp; subst hp))
    | split

theorem execMemoryTrainingDone_keeps {z s : State} {dt : Nat} {d : Fin 8} {m : Fin 2} {density : Fin 4} {compared : List Nat} {tries : List (List (Option TrainFound))} (hz : Keeps z s) :
    KeepsOut z (execMemoryTrainingDone dt d m density compared tries s) := by
  unfold execMemoryTrainingDone
  try dsimp only
  repeat' first
    | (with_reducible intro _)
    | with_reducible assumption
    | with_reducible apply KeepsOut.next
    | with_reducible apply KeepsOut.ite
    | with_reducible apply done_keeps
    | with_reducible apply Keeps.ite
    | with_reducible apply State.elapse_keeps
    | with_reducible apply State.setFld_keeps
    | with_reducible apply State.each_keeps
    | with_reducible apply State.trainChannel_keeps
    | with_reducible apply State.modMctl_keeps
    | with_reducible apply State.countPoison_keeps
    | with_reducible apply State.showPool_keeps
    | with_reducible apply State.endE4_keeps
    | with_reducible apply done_keeps
    | simp only [Keeps.mk_iff]
    | with_reducible apply KeepsCore.of
    | (split <;> (rename_i hp; have hp := congrArg Prod.fst hp; dsimp only at hp; subst hp))
    | split

theorem execMemoryFillDone_keeps {z s : State} {dt : Nat} {d : Fin 8} {m : Fin 2} (hz : Keeps z s) :
    KeepsOut z (execMemoryFillDone dt d m s) := by
  unfold execMemoryFillDone
  try dsimp only
  repeat' first
    | (with_reducible intro _)
    | with_reducible assumption
    | with_reducible apply KeepsOut.next
    | with_reducible apply KeepsOut.ite
    | with_reducible apply done_keeps
    | with_reducible apply Keeps.ite
    | with_reducible apply State.elapse_keeps
    | with_reducible apply State.each_keeps
    | with_reducible apply State.modMchan_keeps
    | with_reducible apply State.modMctl_keeps
    | with_reducible apply State.countPoison_keeps
    | with_reducible apply State.wrN_keeps
    | with_reducible apply State.endE4_keeps
    | with_reducible apply State.dieEmbers_keeps
    | with_reducible apply State.replan_keeps
    | with_reducible apply State.startAll_keeps
    | with_reducible apply State.pumpTakes_keeps
    | with_reducible apply done_keeps
    | exact fun _ h => h
    | exact fun _ _ => rfl
    | exact ChanKeeps.poison _ _
    | simp only [Keeps.mk_iff]
    | with_reducible apply KeepsCore.of
    | (split <;> (rename_i hp; have hp := congrArg Prod.fst hp; dsimp only at hp; subst hp))
    | split

theorem State.noteBusy_keeps {z s : State} {d : Nat} {r : MReq} (hz : Keeps z s) :
    Keeps z (State.noteBusy s d r) := by
  unfold State.noteBusy
  try dsimp only
  repeat' first
    | (with_reducible intro _)
    | with_reducible assumption
    | with_reducible apply Keeps.ite
    | with_reducible apply State.when_keeps
    | with_reducible apply State.modMdie_keeps
    | simp only [Keeps.mk_iff]
    | with_reducible apply KeepsCore.of
    | (split <;> (rename_i hp; have hp := congrArg Prod.fst hp; dsimp only at hp; subst hp))
    | split

theorem execMemoryRequest_keeps {z s : State} {dt : Nat} {d : Fin 8} {m : Fin 2} {port : Fin 8} {write : Bool} {scrub : Bool} {addr : Nat} {len : Nat} {data : TaggedData} (hz : Keeps z s) :
    KeepsOut z (execMemoryRequest dt d m port write scrub addr len data s) := by
  unfold execMemoryRequest
  try dsimp only
  repeat' first
    | (with_reducible intro _)
    | with_reducible assumption
    | with_reducible apply KeepsOut.next
    | with_reducible apply KeepsOut.ite
    | with_reducible apply done_keeps
    | with_reducible apply Keeps.ite
    | with_reducible apply State.elapse_keeps
    | with_reducible apply State.wake_keeps
    | with_reducible apply State.modMctl_keeps
    | with_reducible apply State.noteBusy_keeps
    | with_reducible apply State.acceptWaits_keeps
    | with_reducible apply State.startAll_keeps
    | with_reducible apply done_keeps
    | simp only [Keeps.mk_iff]
    | with_reducible apply KeepsCore.of
    | (split <;> (rename_i hp; have hp := congrArg Prod.fst hp; dsimp only at hp; subst hp))
    | split

theorem State.memUe_keeps {z s : State} {d : Nat} {k : Nat} {what : Nat} (hz : Keeps z s) :
    Keeps z (State.memUe s d k what) := by
  unfold State.memUe
  try dsimp only
  repeat' first
    | (with_reducible intro _)
    | with_reducible assumption
    | with_reducible apply Keeps.ite
    | with_reducible apply State.modMchan_keeps
    | with_reducible apply State.raise_keeps
    | with_reducible apply State.when_keeps
    | with_reducible apply State.failMc_keeps
    | exact fun _ h => h
    | exact fun _ _ => rfl
    | exact ChanKeeps.poison _ _
    | simp only [Keeps.mk_iff]
    | with_reducible apply KeepsCore.of
    | (split <;> (rename_i hp; have hp := congrArg Prod.fst hp; dsimp only at hp; subst hp))
    | split

theorem State.judgeBlocks_keeps {z s : State} {d : Nat} {k : Nat} {scrub : Bool} {merge : Bool} {l : List ((Nat × Bool) × Nat)} (hz : Keeps z s) :
    Keeps z (State.judgeBlocks s d k scrub merge l) := by
  unfold State.judgeBlocks
  try dsimp only
  repeat' first
    | (with_reducible intro _)
    | with_reducible assumption
    | with_reducible apply Keeps.ite
    | with_reducible apply State.each_keeps
    | with_reducible apply State.bump_keeps
    | with_reducible apply State.addErrs_keeps
    | with_reducible apply State.poisonBlock_keeps
    | with_reducible apply State.memUe_keeps
    | simp only [Keeps.mk_iff]
    | with_reducible apply KeepsCore.of
    | (split <;> (rename_i hp; have hp := congrArg Prod.fst hp; dsimp only at hp; subst hp))
    | split

theorem State.readDone_keeps {z s : State} {d : Nat} {k : Nat} {r : MReq} {res : MemResult} (hz : Keeps z s) :
    Keeps z (State.readDone s d k r res) := by
  unfold State.readDone
  try dsimp only
  repeat' first
    | (with_reducible intro _)
    | with_reducible assumption
    | with_reducible apply Keeps.ite
    | with_reducible apply State.modMctl_keeps
    | with_reducible apply State.completed_keeps
    | with_reducible apply State.judgeBlocks_keeps
    | with_reducible apply State.when_keeps
    | with_reducible apply State.ownerLost_keeps
    | simp only [Keeps.mk_iff]
    | with_reducible apply KeepsCore.of
    | (split <;> (rename_i hp; have hp := congrArg Prod.fst hp; dsimp only at hp; subst hp))
    | split

theorem cellsPut_wf (l : List Byte) : ∀ (m : List (Nat × Byte)) (a : Nat), sparseWf zeroed m = true →
    sparseWf zeroed (cellsPut m a l) = true := by
  induction l with
  | nil => intro m a h; exact h
  | cons x r ih => intro m a h; exact ih _ _ (sparseSet_wf _ _ _ _ h)

/-- A read after a write of picture memory: the bytes written read as written, every other byte as before. -/
theorem cellsPut_get (l : List Byte) : ∀ (m : List (Nat × Byte)) (a b : Nat),
    sparseGet zeroed (cellsPut m a l) b =
      if a ≤ b ∧ b < a + l.length then l.getD (b - a) 0 else sparseGet zeroed m b := by
  induction l with
  | nil => intro m a b; rw [cellsPut, if_neg (by simp only [List.length_nil]; omega)]
  | cons x r ih =>
    intro m a b
    rw [cellsPut, ih, sparseGet_set]
    by_cases h : b = a
    · subst h
      rw [if_neg (by omega), if_pos rfl, if_pos (by simp only [List.length_cons]; omega), Nat.sub_self]; rfl
    · by_cases k : a + 1 ≤ b ∧ b < a + 1 + r.length
      · have e : b - a = b - (a + 1) + 1 := by omega
        rw [if_pos k, if_pos (by simp only [List.length_cons]; omega), e]; rfl
      · rw [if_neg k, if_neg h, if_neg (by simp only [List.length_cons]; omega)]

theorem ChanKeeps.put (a : Nat) (l : List Byte) : ChanKeeps fun x => { x with mem := cellsPut x.mem a l } := by
  intro x h
  simp only [MChan.wf, Bool.and_eq_true] at h ⊢
  exact ⟨cellsPut_wf l _ a h.1, h.2⟩

theorem State.writeDone_keeps {z s : State} {d : Nat} {k : Nat} {r : MReq} {res : MemResult} (hz : Keeps z s) :
    Keeps z (State.writeDone s d k r res) := by
  unfold State.writeDone
  try dsimp only
  repeat' first
    | (with_reducible intro _)
    | with_reducible assumption
    | with_reducible apply Keeps.ite
    | with_reducible apply State.each_keeps
    | with_reducible apply State.poisonBlock_keeps
    | with_reducible apply State.memUe_keeps
    | with_reducible apply State.modMchan_keeps
    | with_reducible apply State.when_keeps
    | with_reducible apply State.judgeBlocks_keeps
    | with_reducible apply cellsPut_keeps
    | exact fun _ h => h
    | exact fun _ _ => rfl
    | exact ChanKeeps.poison _ _
    | exact ChanKeeps.put _ _
    | simp only [Keeps.mk_iff]
    | with_reducible apply KeepsCore.of
    | (split <;> (rename_i hp; have hp := congrArg Prod.fst hp; dsimp only at hp; subst hp))
    | split

theorem State.scrubStep_keeps {z s : State} {d : Nat} {m : Nat} (hz : Keeps z s) :
    Keeps z (State.scrubStep s d m) := by
  unfold State.scrubStep
  try dsimp only
  repeat' first
    | (with_reducible intro _)
    | with_reducible assumption
    | with_reducible apply Keeps.ite
    | with_reducible apply State.wrN_keeps
    | with_reducible apply State.modMctl_keeps
    | with_reducible apply State.modMdie_keeps
    | with_reducible apply State.bump_keeps
    | simp only [Keeps.mk_iff]
    | with_reducible apply KeepsCore.of
    | (split <;> (rename_i hp; have hp := congrArg Prod.fst hp; dsimp only at hp; subst hp))
    | split

theorem execMemoryAccessDone_keeps {z s : State} {dt : Nat} {d : Fin 8} {k : Fin 8} {res : MemResult} (hz : Keeps z s) :
    KeepsOut z (execMemoryAccessDone dt d k res s) := by
  unfold execMemoryAccessDone
  try dsimp only
  repeat' first
    | (with_reducible intro _)
    | with_reducible assumption
    | with_reducible apply KeepsOut.next
    | with_reducible apply KeepsOut.ite
    | with_reducible apply done_keeps
    | with_reducible apply Keeps.ite
    | with_reducible apply State.elapse_keeps
    | with_reducible apply State.modMchan_keeps
    | with_reducible apply State.noteBusy_keeps
    | with_reducible apply State.bump_keeps
    | with_reducible apply State.addErrs_keeps
    | with_reducible apply State.writeDone_keeps
    | with_reducible apply State.readDone_keeps
    | with_reducible apply State.when_keeps
    | with_reducible apply State.scrubStep_keeps
    | with_reducible apply State.acceptWaits_keeps
    | with_reducible apply State.startAccess_keeps
    | with_reducible apply State.startAll_keeps
    | with_reducible apply done_keeps
    | exact fun _ h => h
    | exact fun _ _ => rfl
    | exact ChanKeeps.poison _ _
    | simp only [Keeps.mk_iff]
    | with_reducible apply KeepsCore.of
    | (split <;> (rename_i hp; have hp := congrArg Prod.fst hp; dsimp only at hp; subst hp))
    | split

theorem execRefreshDue_keeps {z s : State} {dt : Nat} {d : Fin 8} {k : Fin 8} (hz : Keeps z s) :
    KeepsOut z (execRefreshDue dt d k s) := by
  unfold execRefreshDue
  try dsimp only
  repeat' first
    | (with_reducible intro _)
    | with_reducible assumption
    | with_reducible apply KeepsOut.next
    | with_reducible apply KeepsOut.ite
    | with_reducible apply done_keeps
    | with_reducible apply Keeps.ite
    | with_reducible apply State.elapse_keeps
    | with_reducible apply State.commitRecv_keeps
    | with_reducible apply State.modMchan_keeps
    | with_reducible apply State.bump_keeps
    | with_reducible apply State.raise_keeps
    | with_reducible apply State.setMc_keeps
    | with_reducible apply done_keeps
    | exact fun _ h => h
    | exact fun _ _ => rfl
    | exact ChanKeeps.poison _ _
    | simp only [Keeps.mk_iff]
    | with_reducible apply KeepsCore.of
    | (split <;> (rename_i hp; have hp := congrArg Prod.fst hp; dsimp only at hp; subst hp))
    | split

theorem execMemoryTempRead_keeps {z s : State} {dt : Nat} {d : Fin 8} {m : Fin 2} {temp : Int} (hz : Keeps z s) :
    KeepsOut z (execMemoryTempRead dt d m temp s) := by
  unfold execMemoryTempRead
  try dsimp only
  repeat' first
    | (with_reducible intro _)
    | with_reducible assumption
    | with_reducible apply KeepsOut.next
    | with_reducible apply KeepsOut.ite
    | with_reducible apply done_keeps
    | with_reducible apply Keeps.ite
    | with_reducible apply State.elapse_keeps
    | with_reducible apply State.each_keeps
    | with_reducible apply State.setFld_keeps
    | with_reducible apply State.when_keeps
    | with_reducible apply State.wantTraining_keeps
    | with_reducible apply done_keeps
    | simp only [Keeps.mk_iff]
    | with_reducible apply KeepsCore.of
    | (split <;> (rename_i hp; have hp := congrArg Prod.fst hp; dsimp only at hp; subst hp))
    | split

theorem execSelfRefreshEntry_keeps {z s : State} {dt : Nat} {d : Fin 8} (hz : Keeps z s) :
    KeepsOut z (execSelfRefreshEntry dt d s) := by
  unfold execSelfRefreshEntry
  try dsimp only
  repeat' first
    | (with_reducible intro _)
    | with_reducible assumption
    | with_reducible apply KeepsOut.next
    | with_reducible apply KeepsOut.ite
    | with_reducible apply done_keeps
    | with_reducible apply Keeps.ite
    | with_reducible apply State.elapse_keeps
    | with_reducible apply State.modMdie_keeps
    | with_reducible apply State.each_keeps
    | with_reducible apply State.setBit_keeps
    | with_reducible apply State.bump_keeps
    | with_reducible apply done_keeps
    | simp only [Keeps.mk_iff]
    | with_reducible apply KeepsCore.of
    | (split <;> (rename_i hp; have hp := congrArg Prod.fst hp; dsimp only at hp; subst hp))
    | split

theorem execSelfRefreshScrub_keeps {z s : State} {dt : Nat} {d : Fin 8} (hz : Keeps z s) :
    KeepsOut z (execSelfRefreshScrub dt d s) := by
  unfold execSelfRefreshScrub
  try dsimp only
  repeat' first
    | (with_reducible intro _)
    | with_reducible assumption
    | with_reducible apply KeepsOut.next
    | with_reducible apply KeepsOut.ite
    | with_reducible apply done_keeps
    | with_reducible apply Keeps.ite
    | with_reducible apply State.elapse_keeps
    | with_reducible apply State.wake_keeps
    | with_reducible apply State.each_keeps
    | with_reducible apply State.modMctl_keeps
    | with_reducible apply State.wrN_keeps
    | with_reducible apply State.startAll_keeps
    | with_reducible apply done_keeps
    | simp only [Keeps.mk_iff]
    | with_reducible apply KeepsCore.of
    | (split <;> (rename_i hp; have hp := congrArg Prod.fst hp; dsimp only at hp; subst hp))
    | split

theorem execRetrainIntervalExpiry_keeps {z s : State} {dt : Nat} {d : Fin 8} {k : Fin 8} (hz : Keeps z s) :
    KeepsOut z (execRetrainIntervalExpiry dt d k s) := by
  unfold execRetrainIntervalExpiry
  try dsimp only
  repeat' first
    | (with_reducible intro _)
    | with_reducible assumption
    | with_reducible apply KeepsOut.next
    | with_reducible apply KeepsOut.ite
    | with_reducible apply done_keeps
    | with_reducible apply Keeps.ite
    | with_reducible apply State.elapse_keeps
    | with_reducible apply State.wantTraining_keeps
    | with_reducible apply done_keeps
    | simp only [Keeps.mk_iff]
    | with_reducible apply KeepsCore.of
    | (split <;> (rename_i hp; have hp := congrArg Prod.fst hp; dsimp only at hp; subst hp))
    | split

theorem execMemoryErrorInterval_keeps {z s : State} {dt : Nat} {d : Fin 8} {k : Fin 8} (hz : Keeps z s) :
    KeepsOut z (execMemoryErrorInterval dt d k s) := by
  unfold execMemoryErrorInterval
  try dsimp only
  repeat' first
    | (with_reducible intro _)
    | with_reducible assumption
    | with_reducible apply KeepsOut.next
    | with_reducible apply KeepsOut.ite
    | with_reducible apply done_keeps
    | with_reducible apply Keeps.ite
    | with_reducible apply State.elapse_keeps
    | with_reducible apply State.failMc_keeps
    | with_reducible apply State.wantTraining_keeps
    | with_reducible apply done_keeps
    | simp only [Keeps.mk_iff]
    | with_reducible apply KeepsCore.of
    | (split <;> (rename_i hp; have hp := congrArg Prod.fst hp; dsimp only at hp; subst hp))
    | split

theorem execRetrainingSliceStart_keeps {z s : State} {dt : Nat} {d : Fin 8} {m : Fin 2} (hz : Keeps z s) :
    KeepsOut z (execRetrainingSliceStart dt d m s) := by
  unfold execRetrainingSliceStart
  try dsimp only
  repeat' first
    | (with_reducible intro _)
    | with_reducible assumption
    | with_reducible apply KeepsOut.next
    | with_reducible apply KeepsOut.ite
    | with_reducible apply done_keeps
    | with_reducible apply Keeps.ite
    | with_reducible apply State.elapse_keeps
    | with_reducible apply State.modMctl_keeps
    | with_reducible apply State.when_keeps
    | with_reducible apply State.setBit_keeps
    | with_reducible apply State.modMchan_keeps
    | with_reducible apply State.bump_keeps
    | with_reducible apply done_keeps
    | exact fun _ h => h
    | exact fun _ _ => rfl
    | exact ChanKeeps.poison _ _
    | simp only [Keeps.mk_iff]
    | with_reducible apply KeepsCore.of
    | (split <;> (rename_i hp; have hp := congrArg Prod.fst hp; dsimp only at hp; subst hp))
    | split

theorem State.endRetraining_keeps {z s : State} {d : Nat} {k : Nat} (hz : Keeps z s) :
    Keeps z (State.endRetraining s d k) := by
  unfold State.endRetraining
  try dsimp only
  repeat' first
    | (with_reducible intro _)
    | with_reducible assumption
    | with_reducible apply Keeps.ite
    | with_reducible apply Keeps.foldl
    | with_reducible apply Keeps.foldlFst
    | with_reducible apply State.setBit_keeps
    | with_reducible apply State.modMchan_keeps
    | with_reducible apply State.stage_keeps
    | with_reducible apply State.setFld_keeps
    | with_reducible apply State.wrN_keeps
    | with_reducible apply State.bump_keeps
    | with_reducible apply State.raise_keeps
    | with_reducible apply State.when_keeps
    | with_reducible apply State.setMc_keeps
    | with_reducible apply State.judgeMarginal_keeps
    | exact fun _ h => h
    | exact fun _ _ => rfl
    | exact ChanKeeps.poison _ _
    | simp only [Keeps.mk_iff]
    | with_reducible apply KeepsCore.of
    | (split <;> (rename_i hp; have hp := congrArg Prod.fst hp; dsimp only at hp; subst hp))
    | split

theorem execRetrainingSliceEnd_keeps {z s : State} {dt : Nat} {d : Fin 8} {m : Fin 2} {passed : Fin 256} (hz : Keeps z s) :
    KeepsOut z (execRetrainingSliceEnd dt d m passed s) := by
  unfold execRetrainingSliceEnd
  try dsimp only
  repeat' first
    | (with_reducible intro _)
    | with_reducible assumption
    | with_reducible apply KeepsOut.next
    | with_reducible apply KeepsOut.ite
    | with_reducible apply done_keeps
    | with_reducible apply Keeps.ite
    | with_reducible apply State.elapse_keeps
    | with_reducible apply State.modMctl_keeps
    | with_reducible apply State.modMchan_keeps
    | with_reducible apply State.when_keeps
    | with_reducible apply State.endRetraining_keeps
    | with_reducible apply State.startAll_keeps
    | with_reducible apply done_keeps
    | exact fun _ h => h
    | exact fun _ _ => rfl
    | exact ChanKeeps.poison _ _
    | simp only [Keeps.mk_iff]
    | with_reducible apply KeepsCore.of
    | (split <;> (rename_i hp; have hp := congrArg Prod.fst hp; dsimp only at hp; subst hp))
    | split

end Sys2Proof.Machine
end

