-- ==== Sys2Proof/Laws/KeepsGuard.lean ====
section
/-! SUPPORT. One lemma for each operation of Machine/Guard.lean: it keeps what `Keeps` names. -/

namespace Sys2Proof.Machine

set_option linter.all false

theorem State.departureHandover_keeps {z s : State}  (hz : Keeps z s) :
    Keeps z (State.departureHandover s) := by
  unfold State.departureHandover
  try dsimp only
  repeat' first
    | (with_reducible intro _)
    | with_reducible assumption
    | with_reducible apply Keeps.ite
    | with_reducible apply State.startHandover_keeps
    | with_reducible apply State.when_keeps
    | with_reducible apply State.bump_keeps
    | simp only [Keeps.mk_iff]
    | with_reducible apply KeepsCore.of
    | (split <;> (rename_i hp; have hp := congrArg Prod.fst hp; dsimp only at hp; subst hp))
    | split

theorem State.departure_keeps {z s : State} {n : Nat} {it : Item} (hz : Keeps z s) :
    Keeps z (State.departure s n it) := by
  unfold State.departure
  try dsimp only
  repeat' first
    | (with_reducible intro _)
    | with_reducible assumption
    | with_reducible apply Keeps.ite
    | with_reducible apply State.departureHandover_keeps
    | with_reducible apply State.bump_keeps
    | with_reducible apply State.setBit_keeps
    | with_reducible apply State.raiseT_keeps
    | with_reducible apply State.freshId_keeps
    | simp only [Keeps.mk_iff]
    | with_reducible apply KeepsCore.of
    | (split <;> (rename_i hp; have hp := congrArg Prod.fst hp; dsimp only at hp; subst hp))
    | split

theorem execDepartureJudgement_keeps {z s : State} {dt : Nat} {n : Fin 96} {k : Nat} (hz : Keeps z s) :
    KeepsOut z (execDepartureJudgement dt n k s) := by
  unfold execDepartureJudgement
  try dsimp only
  repeat' first
    | (with_reducible intro _)
    | with_reducible assumption
    | with_reducible apply KeepsOut.next
    | with_reducible apply KeepsOut.ite
    | with_reducible apply done_keeps
    | with_reducible apply Keeps.ite
    | with_reducible apply State.elapse_keeps
    | with_reducible apply State.settleLeft_keeps
    | with_reducible apply State.modItem_keeps
    | with_reducible apply State.departure_keeps
    | with_reducible apply State.setBit_keeps
    | with_reducible apply State.sweepItems_keeps
    | with_reducible apply done_keeps
    | simp only [Keeps.mk_iff]
    | with_reducible apply KeepsCore.of
    | (split <;> (rename_i hp; have hp := congrArg Prod.fst hp; dsimp only at hp; subst hp))
    | split

theorem execDieLimitExpiry_keeps {z s : State} {dt : Nat} {n : Fin 96} {k : Nat} (hz : Keeps z s) :
    KeepsOut z (execDieLimitExpiry dt n k s) := by
  unfold execDieLimitExpiry
  try dsimp only
  repeat' first
    | (with_reducible intro _)
    | with_reducible assumption
    | with_reducible apply KeepsOut.next
    | with_reducible apply KeepsOut.ite
    | with_reducible apply done_keeps
    | with_reducible apply Keeps.ite
    | with_reducible apply State.elapse_keeps
    | with_reducible apply State.settleLeft_keeps
    | with_reducible apply State.retire_keeps
    | with_reducible apply State.pumpTakes_keeps
    | with_reducible apply done_keeps
    | simp only [Keeps.mk_iff]
    | with_reducible apply KeepsCore.of
    | (split <;> (rename_i hp; have hp := congrArg Prod.fst hp; dsimp only at hp; subst hp))
    | split

theorem execLockstepMismatch_keeps {z s : State} {dt : Nat} {d : Fin 8} {pair : Fin 2} (hz : Keeps z s) :
    KeepsOut z (execLockstepMismatch dt d pair s) := by
  unfold execLockstepMismatch
  try dsimp only
  repeat' first
    | (with_reducible intro _)
    | with_reducible assumption
    | with_reducible apply KeepsOut.next
    | with_reducible apply KeepsOut.ite
    | with_reducible apply done_keeps
    | with_reducible apply Keeps.ite
    | with_reducible apply State.elapse_keeps
    | with_reducible apply State.bump_keeps
    | with_reducible apply State.raiseT_keeps
    | with_reducible apply State.masterReset_keeps
    | with_reducible apply State.when_keeps
    | with_reducible apply State.retire_keeps
    | with_reducible apply State.pumpTakes_keeps
    | with_reducible apply done_keeps
    | simp only [Keeps.mk_iff]
    | with_reducible apply KeepsCore.of
    | (split <;> (rename_i hp; have hp := congrArg Prod.fst hp; dsimp only at hp; subst hp))
    | split

theorem execLockstepRestartDone_keeps {z s : State} {dt : Nat} {d : Fin 8} {pair : Fin 2} (hz : Keeps z s) :
    KeepsOut z (execLockstepRestartDone dt d pair s) := by
  unfold execLockstepRestartDone
  try dsimp only
  repeat' first
    | (with_reducible intro _)
    | with_reducible assumption
    | with_reducible apply KeepsOut.next
    | with_reducible apply KeepsOut.ite
    | with_reducible apply done_keeps
    | with_reducible apply Keeps.ite
    | with_reducible apply State.elapse_keeps
    | with_reducible apply done_keeps
    | simp only [Keeps.mk_iff]
    | with_reducible apply KeepsCore.of
    | (split <;> (rename_i hp; have hp := congrArg Prod.fst hp; dsimp only at hp; subst hp))
    | split

theorem execSramCorrectedError_keeps {z s : State} {dt : Nat} {d : Fin 8} (hz : Keeps z s) :
    KeepsOut z (execSramCorrectedError dt d s) := by
  unfold execSramCorrectedError
  try dsimp only
  repeat' first
    | (with_reducible intro _)
    | with_reducible assumption
    | with_reducible apply KeepsOut.next
    | with_reducible apply KeepsOut.ite
    | with_reducible apply done_keeps
    | with_reducible apply Keeps.ite
    | with_reducible apply State.elapse_keeps
    | with_reducible apply State.when_keeps
    | with_reducible apply State.bump_keeps
    | with_reducible apply done_keeps
    | simp only [Keeps.mk_iff]
    | with_reducible apply KeepsCore.of
    | (split <;> (rename_i hp; have hp := congrArg Prod.fst hp; dsimp only at hp; subst hp))
    | split

theorem execSramUncorrectableError_keeps {z s : State} {dt : Nat} {d : Fin 8} {owner : DataOwner} (hz : Keeps z s) :
    KeepsOut z (execSramUncorrectableError dt d owner s) := by
  unfold execSramUncorrectableError
  try dsimp only
  repeat' first
    | (with_reducible intro _)
    | with_reducible assumption
    | with_reducible apply KeepsOut.next
    | with_reducible apply KeepsOut.ite
    | with_reducible apply done_keeps
    | with_reducible apply Keeps.ite
    | with_reducible apply State.elapse_keeps
    | with_reducible apply State.bump_keeps
    | with_reducible apply State.raiseT_keeps
    | with_reducible apply State.ownerLost_keeps
    | with_reducible apply State.pumpTakes_keeps
    | with_reducible apply done_keeps
    | simp only [Keeps.mk_iff]
    | with_reducible apply KeepsCore.of
    | (split <;> (rename_i hp; have hp := congrArg Prod.fst hp; dsimp only at hp; subst hp))
    | split

theorem State.railLeft_keeps {z s : State} {d : Nat} (hz : Keeps z s) :
    Keeps z (State.railLeft s d) := by
  unfold State.railLeft
  try dsimp only
  repeat' first
    | (with_reducible intro _)
    | with_reducible assumption
    | with_reducible apply Keeps.ite
    | with_reducible apply State.coldReset_keeps
    | with_reducible apply State.setRail_keeps
    | with_reducible apply State.setTest_keeps
    | with_reducible apply State.endE1_keeps
    | simp only [Keeps.mk_iff]
    | with_reducible apply KeepsCore.of
    | (split <;> (rename_i hp; have hp := congrArg Prod.fst hp; dsimp only at hp; subst hp))
    | split

theorem execVcoreOutOfWindow_keeps {z s : State} {dt : Nat} {d : Fin 8} {uv : Nat} (hz : Keeps z s) :
    KeepsOut z (execVcoreOutOfWindow dt d uv s) := by
  unfold execVcoreOutOfWindow
  try dsimp only
  repeat' first
    | (with_reducible intro _)
    | with_reducible assumption
    | with_reducible apply KeepsOut.next
    | with_reducible apply KeepsOut.ite
    | with_reducible apply done_keeps
    | with_reducible apply Keeps.ite
    | with_reducible apply State.elapse_keeps
    | with_reducible apply State.railLeft_keeps
    | with_reducible apply State.retire_keeps
    | with_reducible apply State.pumpTakes_keeps
    | with_reducible apply done_keeps
    | simp only [Keeps.mk_iff]
    | with_reducible apply KeepsCore.of
    | (split <;> (rename_i hp; have hp := congrArg Prod.fst hp; dsimp only at hp; subst hp))
    | split

theorem execAutoResetExpiry_keeps {z s : State} {dt : Nat} (hz : Keeps z s) :
    KeepsOut z (execAutoResetExpiry dt s) := by
  unfold execAutoResetExpiry
  try dsimp only
  repeat' first
    | (with_reducible intro _)
    | with_reducible assumption
    | with_reducible apply KeepsOut.next
    | with_reducible apply KeepsOut.ite
    | with_reducible apply done_keeps
    | with_reducible apply Keeps.ite
    | with_reducible apply State.elapse_keeps
    | with_reducible apply State.warmReset_keeps
    | with_reducible apply done_keeps
    | simp only [Keeps.mk_iff]
    | with_reducible apply KeepsCore.of
    | (split <;> (rename_i hp; have hp := congrArg Prod.fst hp; dsimp only at hp; subst hp))
    | split

theorem State.logBurst_keeps {z s : State} {kind : Nat} {b : Burst} (hz : Keeps z s) :
    Keeps z (State.logBurst s kind b) := by
  unfold State.logBurst
  try dsimp only
  repeat' first
    | (with_reducible intro _)
    | with_reducible assumption
    | with_reducible apply Keeps.ite
    | with_reducible apply State.abortLog_keeps
    | simp only [Keeps.mk_iff]
    | with_reducible apply KeepsCore.of
    | (split <;> (rename_i hp; have hp := congrArg Prod.fst hp; dsimp only at hp; subst hp))
    | split

theorem execDieLinkFailure_keeps {z s : State} {dt : Nat} {l : Fin 12} {cut : List Burst} {taken : List Nat} (hz : Keeps z s) :
    KeepsOut z (execDieLinkFailure dt l cut taken s) := by
  unfold execDieLinkFailure
  try dsimp only
  repeat' first
    | (with_reducible intro _)
    | with_reducible assumption
    | with_reducible apply KeepsOut.next
    | with_reducible apply KeepsOut.ite
    | with_reducible apply done_keeps
    | with_reducible apply Keeps.ite
    | with_reducible apply State.elapse_keeps
    | with_reducible apply State.reroute_keeps
    | with_reducible apply State.each_keeps
    | with_reducible apply State.logBurst_keeps
    | with_reducible apply State.when_keeps
    | with_reducible apply State.retire_keeps
    | with_reducible apply State.pumpTakes_keeps
    | with_reducible apply done_keeps
    | simp only [Keeps.mk_iff]
    | with_reducible apply KeepsCore.of
    | (split <;> (rename_i hp; have hp := congrArg Prod.fst hp; dsimp only at hp; subst hp))
    | split

theorem State.partWritten_keeps {z s : State} {x : PartWritten} (hz : Keeps z s) :
    Keeps z (State.partWritten s x) := by
  unfold State.partWritten
  try dsimp only
  repeat' first
    | (with_reducible intro _)
    | with_reducible assumption
    | with_reducible apply Keeps.ite
    | with_reducible apply State.ownerLost_keeps
    | with_reducible apply State.poisonBlock_keeps
    | simp only [Keeps.mk_iff]
    | with_reducible apply KeepsCore.of
    | (split <;> (rename_i hp; have hp := congrArg Prod.fst hp; dsimp only at hp; subst hp))
    | split

theorem execMasterResetMidBurst_keeps {z s : State} {dt : Nat} {b : Burst} {sram : Bool} {left : PartWritten} (hz : Keeps z s) :
    KeepsOut z (execMasterResetMidBurst dt b sram left s) := by
  unfold execMasterResetMidBurst
  try dsimp only
  repeat' first
    | (with_reducible intro _)
    | with_reducible assumption
    | with_reducible apply KeepsOut.next
    | with_reducible apply KeepsOut.ite
    | with_reducible apply done_keeps
    | with_reducible apply Keeps.ite
    | with_reducible apply State.elapse_keeps
    | with_reducible apply State.masterReset_keeps
    | with_reducible apply State.logBurst_keeps
    | with_reducible apply State.partWritten_keeps
    | with_reducible apply done_keeps
    | simp only [Keeps.mk_iff]
    | with_reducible apply KeepsCore.of
    | (split <;> (rename_i hp; have hp := congrArg Prod.fst hp; dsimp only at hp; subst hp))
    | split

end Sys2Proof.Machine
end

