-- ==== Sys2Proof/Laws/KeepsSteps.lean ====
section
/-! SUPPORT. One lemma for each operation of Machine/Steps.lean: it keeps what `Keeps` names. -/

namespace Sys2Proof.Machine

set_option linter.all false

theorem State.beginItem_keeps {z s : State} {n : Nat} (hz : Keeps z s) :
    Keeps z (State.beginItem s n) := by
  unfold State.beginItem
  try dsimp only
  repeat' first
    | (with_reducible intro _)
    | with_reducible assumption
    | with_reducible apply Keeps.ite
    | with_reducible apply State.modChan_keeps
    | simp only [Keeps.mk_iff]
    | with_reducible apply KeepsCore.of
    | (split <;> (rename_i hp; have hp := congrArg Prod.fst hp; dsimp only at hp; subst hp))
    | split

theorem State.placeItem_keeps {z s : State} {n : Nat} {k : Nat} (hz : Keeps z s) :
    Keeps z (State.placeItem s n k) := by
  unfold State.placeItem
  try dsimp only
  repeat' first
    | (with_reducible intro _)
    | with_reducible assumption
    | with_reducible apply Keeps.ite
    | with_reducible apply State.modItem_keeps
    | simp only [Keeps.mk_iff]
    | with_reducible apply KeepsCore.of
    | (split <;> (rename_i hp; have hp := congrArg Prod.fst hp; dsimp only at hp; subst hp))
    | split

theorem State.ownControl_keeps {z s : State} {n : Nat} {k : Nat} (hz : Keeps z s) :
    Keeps z (State.ownControl s n k) := by
  unfold State.ownControl
  try dsimp only
  repeat' first
    | (with_reducible intro _)
    | with_reducible assumption
    | with_reducible apply Keeps.ite
    | with_reducible apply State.when_keeps
    | with_reducible apply State.reanchorChan_keeps
    | with_reducible apply State.placeItem_keeps
    | with_reducible apply State.stepLookahead_keeps
    | with_reducible apply State.asOf_keeps
    | with_reducible apply State.modChan_keeps
    | with_reducible apply State.fixControl_keeps
    | with_reducible apply State.unconfirm_keeps
    | simp only [Keeps.mk_iff]
    | with_reducible apply KeepsCore.of
    | (split <;> (rename_i hp; have hp := congrArg Prod.fst hp; dsimp only at hp; subst hp))
    | split

theorem State.adoptControl_keeps {z s : State} {n : Nat} {k : Nat} {dr : DecisionRecord} (hz : Keeps z s) :
    Keeps z (State.adoptControl s n k dr) := by
  unfold State.adoptControl
  try dsimp only
  repeat' first
    | (with_reducible intro _)
    | with_reducible assumption
    | with_reducible apply Keeps.ite
    | with_reducible apply State.when_keeps
    | with_reducible apply State.doffStep_keeps
    | with_reducible apply State.reanchorChan_keeps
    | with_reducible apply State.placeItem_keeps
    | with_reducible apply State.modChan_keeps
    | with_reducible apply State.judgedTo_keeps
    | with_reducible apply State.fixControl_keeps
    | simp only [Keeps.mk_iff]
    | with_reducible apply KeepsCore.of
    | (split <;> (rename_i hp; have hp := congrArg Prod.fst hp; dsimp only at hp; subst hp))
    | split

theorem State.adoptInput_keeps {z s : State} {n : Nat} {k : Nat} {dr : DecisionRecord} (hz : Keeps z s) :
    Keeps z (State.adoptInput s n k dr) := by
  unfold State.adoptInput
  try dsimp only
  repeat' first
    | (with_reducible intro _)
    | with_reducible assumption
    | with_reducible apply Keeps.ite
    | with_reducible apply State.when_keeps
    | with_reducible apply State.endAbsence_keeps
    | with_reducible apply State.noteAbsence_keeps
    | with_reducible apply State.fixInput_keeps
    | simp only [Keeps.mk_iff]
    | with_reducible apply KeepsCore.of
    | (split <;> (rename_i hp; have hp := congrArg Prod.fst hp; dsimp only at hp; subst hp))
    | split

theorem State.dropParts_keeps {z s : State} {n : Nat} {k : Nat} (hz : Keeps z s) :
    Keeps z (State.dropParts s n k) := by
  unfold State.dropParts
  try dsimp only
  repeat' first
    | (with_reducible intro _)
    | with_reducible assumption
    | with_reducible apply Keeps.ite
    | with_reducible apply State.modChan_keeps
    | simp only [Keeps.mk_iff]
    | with_reducible apply KeepsCore.of
    | (split <;> (rename_i hp; have hp := congrArg Prod.fst hp; dsimp only at hp; subst hp))
    | split

theorem State.adoptParts_keeps {z s : State} {n : Nat} {k : Nat} (hz : Keeps z s) :
    Keeps z (State.adoptParts s n k) := by
  unfold State.adoptParts
  try dsimp only
  repeat' first
    | (with_reducible intro _)
    | with_reducible assumption
    | with_reducible apply Keeps.ite
    | with_reducible apply State.adoptControl_keeps
    | with_reducible apply State.adoptInput_keeps
    | with_reducible apply State.readyBands_keeps
    | simp only [Keeps.mk_iff]
    | with_reducible apply KeepsCore.of
    | (split <;> (rename_i hp; have hp := congrArg Prod.fst hp; dsimp only at hp; subst hp))
    | split

theorem State.controlStep_keeps {z s : State} {n : Nat} (hz : Keeps z s) :
    Keeps z (State.controlStep s n) := by
  unfold State.controlStep
  try dsimp only
  repeat' first
    | (with_reducible intro _)
    | with_reducible assumption
    | with_reducible apply Keeps.ite
    | with_reducible apply State.modChan_keeps
    | with_reducible apply State.beginItem_keeps
    | with_reducible apply State.dropParts_keeps
    | with_reducible apply State.adoptParts_keeps
    | with_reducible apply State.ownControl_keeps
    | simp only [Keeps.mk_iff]
    | with_reducible apply KeepsCore.of
    | (split <;> (rename_i hp; have hp := congrArg Prod.fst hp; dsimp only at hp; subst hp))
    | split

theorem execControlStep_keeps {z s : State} {dt : Nat} {n : Fin 96} (hz : Keeps z s) :
    KeepsOut z (execControlStep dt n s) := by
  unfold execControlStep
  try dsimp only
  repeat' first
    | (with_reducible intro _)
    | with_reducible assumption
    | with_reducible apply KeepsOut.next
    | with_reducible apply KeepsOut.ite
    | with_reducible apply done_keeps
    | with_reducible apply Keeps.ite
    | with_reducible apply State.elapse_keeps
    | with_reducible apply State.controlStep_keeps
    | with_reducible apply State.pumpTakes_keeps
    | with_reducible apply done_keeps
    | simp only [Keeps.mk_iff]
    | with_reducible apply KeepsCore.of
    | (split <;> (rename_i hp; have hp := congrArg Prod.fst hp; dsimp only at hp; subst hp))
    | split

theorem State.waitEnds_keeps {z s : State} {n : Nat} {k : Nat} {step : Nat} {b : Nat} (hz : Keeps z s) :
    Keeps z (State.waitEnds s n k step b) := by
  unfold State.waitEnds
  try dsimp only
  repeat' first
    | (with_reducible intro _)
    | with_reducible assumption
    | with_reducible apply Keeps.ite
    | with_reducible apply State.when_keeps
    | with_reducible apply State.passGap_keeps
    | with_reducible apply State.modItem_keeps
    | with_reducible apply State.unconfirm_keeps
    | with_reducible apply State.ownControl_keeps
    | with_reducible apply State.adoptParts_keeps
    | with_reducible apply State.endAbsence_keeps
    | with_reducible apply State.fixInput_keeps
    | with_reducible apply State.readyBands_keeps
    | with_reducible apply State.repairBand_keeps
    | with_reducible apply done_keeps
    | simp only [Keeps.mk_iff]
    | with_reducible apply KeepsCore.of
    | (split <;> (rename_i hp; have hp := congrArg Prod.fst hp; dsimp only at hp; subst hp))
    | split

theorem execRecordWaitTimeout_keeps {z s : State} {dt : Nat} {n : Fin 96} {k : Nat} {step : Nat} {b : Nat} (hz : Keeps z s) :
    KeepsOut z (execRecordWaitTimeout dt n k step b s) := by
  unfold execRecordWaitTimeout
  try dsimp only
  repeat' first
    | (with_reducible intro _)
    | with_reducible assumption
    | with_reducible apply KeepsOut.next
    | with_reducible apply KeepsOut.ite
    | with_reducible apply done_keeps
    | with_reducible apply Keeps.ite
    | with_reducible apply State.elapse_keeps
    | with_reducible apply State.waitEnds_keeps
    | with_reducible apply State.pumpTakes_keeps
    | with_reducible apply done_keeps
    | simp only [Keeps.mk_iff]
    | with_reducible apply KeepsCore.of
    | (split <;> (rename_i hp; have hp := congrArg Prod.fst hp; dsimp only at hp; subst hp))
    | split

theorem execHolderDigestMissing_keeps {z s : State} {dt : Nat} {n : Fin 96} {k : Nat} (hz : Keeps z s) :
    KeepsOut z (execHolderDigestMissing dt n k s) := by
  unfold execHolderDigestMissing
  try dsimp only
  repeat' first
    | (with_reducible intro _)
    | with_reducible assumption
    | with_reducible apply KeepsOut.next
    | with_reducible apply KeepsOut.ite
    | with_reducible apply done_keeps
    | with_reducible apply Keeps.ite
    | with_reducible apply State.elapse_keeps
    | with_reducible apply State.modItem_keeps
    | with_reducible apply State.unconfirm_keeps
    | with_reducible apply State.sweepItems_keeps
    | with_reducible apply done_keeps
    | simp only [Keeps.mk_iff]
    | with_reducible apply KeepsCore.of
    | (split <;> (rename_i hp; have hp := congrArg Prod.fst hp; dsimp only at hp; subst hp))
    | split

theorem State.admitAll_keeps {z s : State}  (hz : Keeps z s) :
    Keeps z (State.admitAll s) := by
  unfold State.admitAll
  try dsimp only
  repeat' first
    | (with_reducible intro _)
    | with_reducible assumption
    | with_reducible apply Keeps.ite
    | with_reducible apply Keeps.foldl
    | with_reducible apply Keeps.foldlFst
    | with_reducible apply State.setLims_keeps
    | with_reducible apply State.setFld_keeps
    | with_reducible apply State.setChan_keeps
    | with_reducible apply State.makePool_keeps
    | with_reducible apply State.showRank_keeps
    | with_reducible apply State.modChan_keeps
    | with_reducible apply State.when_keeps
    | with_reducible apply State.raise_keeps
    | with_reducible apply State.redim_keeps
    | with_reducible apply State.showAll_keeps
    | with_reducible apply State.reportDims_keeps
    | with_reducible apply State.each_keeps
    | with_reducible apply State.noteShared_keeps
    | refine State.placeFull_keeps (by with_reducible assumption) ?_
    | simp only [Keeps.mk_iff]
    | with_reducible apply KeepsCore.of
    | (split <;> (rename_i hp; have hp := congrArg Prod.fst hp; dsimp only at hp; subst hp))
    | split

theorem execAdmission_keeps {z s : State} {dt : Nat} (hz : Keeps z s) :
    KeepsOut z (execAdmission dt s) := by
  unfold execAdmission
  try dsimp only
  repeat' first
    | (with_reducible intro _)
    | with_reducible assumption
    | with_reducible apply KeepsOut.next
    | with_reducible apply KeepsOut.ite
    | with_reducible apply done_keeps
    | with_reducible apply Keeps.ite
    | with_reducible apply State.elapse_keeps
    | with_reducible apply State.admitAll_keeps
    | with_reducible apply done_keeps
    | simp only [Keeps.mk_iff]
    | with_reducible apply KeepsCore.of
    | (split <;> (rename_i hp; have hp := congrArg Prod.fst hp; dsimp only at hp; subst hp))
    | split

theorem State.goLive_keeps {z s : State}  (hz : Keeps z s) :
    Keeps z (State.goLive s) := by
  unfold State.goLive
  try dsimp only
  repeat' first
    | (with_reducible intro _)
    | with_reducible assumption
    | with_reducible apply Keeps.ite
    | with_reducible apply State.becomeLive_keeps
    | with_reducible apply State.when_keeps
    | with_reducible apply State.each_keeps
    | with_reducible apply State.requestSnapshot_keeps
    | simp only [Keeps.mk_iff]
    | with_reducible apply KeepsCore.of
    | (split <;> (rename_i hp; have hp := congrArg Prod.fst hp; dsimp only at hp; subst hp))
    | split

theorem execE8Timeout_keeps {z s : State} {dt : Nat} (hz : Keeps z s) :
    KeepsOut z (execE8Timeout dt s) := by
  unfold execE8Timeout
  try dsimp only
  repeat' first
    | (with_reducible intro _)
    | with_reducible assumption
    | with_reducible apply KeepsOut.next
    | with_reducible apply KeepsOut.ite
    | with_reducible apply done_keeps
    | with_reducible apply Keeps.ite
    | with_reducible apply State.elapse_keeps
    | with_reducible apply State.goLive_keeps
    | with_reducible apply done_keeps
    | simp only [Keeps.mk_iff]
    | with_reducible apply KeepsCore.of
    | (split <;> (rename_i hp; have hp := congrArg Prod.fst hp; dsimp only at hp; subst hp))
    | split

theorem State.prime_keeps {z s : State} {n : Nat} (hz : Keeps z s) :
    Keeps z (State.prime s n) := by
  unfold State.prime
  try dsimp only
  repeat' first
    | (with_reducible intro _)
    | with_reducible assumption
    | with_reducible apply Keeps.ite
    | with_reducible apply State.modChan_keeps
    | with_reducible apply State.when_keeps
    | with_reducible apply State.setFld_keeps
    | with_reducible apply State.setConf_keeps
    | with_reducible apply State.setChan_keeps
    | with_reducible apply State.countShed_keeps
    | with_reducible apply State.requestSnapshot_keeps
    | simp only [Keeps.mk_iff]
    | with_reducible apply KeepsCore.of
    | (split <;> (rename_i hp; have hp := congrArg Prod.fst hp; dsimp only at hp; subst hp))
    | split

theorem State.startSnap_keeps {z s : State} {n : Nat} (hz : Keeps z s) :
    Keeps z (State.startSnap s n) := by
  unfold State.startSnap
  try dsimp only
  repeat' first
    | (with_reducible intro _)
    | with_reducible assumption
    | with_reducible apply Keeps.ite
    | with_reducible apply State.modChan_keeps
    | with_reducible apply State.snapEvent_keeps
    | with_reducible apply State.lanternSend_keeps
    | simp only [Keeps.mk_iff]
    | with_reducible apply KeepsCore.of
    | (split <;> (rename_i hp; have hp := congrArg Prod.fst hp; dsimp only at hp; subst hp))
    | split

theorem State.stopAccepting_keeps {z s : State} {n : Nat} (hz : Keeps z s) :
    Keeps z (State.stopAccepting s n) := by
  unfold State.stopAccepting
  try dsimp only
  repeat' first
    | (with_reducible intro _)
    | with_reducible assumption
    | with_reducible apply Keeps.ite
    | with_reducible apply State.each_keeps
    | with_reducible apply State.freeItemDescs_keeps
    | with_reducible apply State.modChan_keeps
    | simp only [Keeps.mk_iff]
    | with_reducible apply KeepsCore.of
    | (split <;> (rename_i hp; have hp := congrArg Prod.fst hp; dsimp only at hp; subst hp))
    | split

theorem State.pictureBoundary_keeps {z s : State} {n : Nat} (hz : Keeps z s) :
    Keeps z (State.pictureBoundary s n) := by
  unfold State.pictureBoundary
  try dsimp only
  repeat' first
    | (with_reducible intro _)
    | with_reducible assumption
    | with_reducible apply Keeps.ite
    | with_reducible apply State.stopAccepting_keeps
    | with_reducible apply State.shedNow_keeps
    | with_reducible apply State.prime_keeps
    | with_reducible apply State.startSnap_keeps
    | with_reducible apply State.when_keeps
    | with_reducible apply State.goLive_keeps
    | simp only [Keeps.mk_iff]
    | with_reducible apply KeepsCore.of
    | (split <;> (rename_i hp; have hp := congrArg Prod.fst hp; dsimp only at hp; subst hp))
    | split

theorem execPictureBoundary_keeps {z s : State} {dt : Nat} {n : Fin 96} (hz : Keeps z s) :
    KeepsOut z (execPictureBoundary dt n s) := by
  unfold execPictureBoundary
  try dsimp only
  repeat' first
    | (with_reducible intro _)
    | with_reducible assumption
    | with_reducible apply KeepsOut.next
    | with_reducible apply KeepsOut.ite
    | with_reducible apply done_keeps
    | with_reducible apply Keeps.ite
    | with_reducible apply State.elapse_keeps
    | with_reducible apply State.pictureBoundary_keeps
    | with_reducible apply State.pumpTakes_keeps
    | with_reducible apply done_keeps
    | simp only [Keeps.mk_iff]
    | with_reducible apply KeepsCore.of
    | (split <;> (rename_i hp; have hp := congrArg Prod.fst hp; dsimp only at hp; subst hp))
    | split

theorem State.nowDisabled_keeps {z s : State} {n : Nat} (hz : Keeps z s) :
    Keeps z (State.nowDisabled s n) := by
  unfold State.nowDisabled
  try dsimp only
  repeat' first
    | (with_reducible intro _)
    | with_reducible assumption
    | with_reducible apply Keeps.ite
    | with_reducible apply State.freeDescs_keeps
    | with_reducible apply State.endAllocs_keeps
    | with_reducible apply State.modChan_keeps
    | with_reducible apply State.each_keeps
    | with_reducible apply State.setConf_keeps
    | with_reducible apply State.setChan_keeps
    | with_reducible apply State.when_keeps
    | with_reducible apply State.makePool_keeps
    | with_reducible apply State.redim_keeps
    | with_reducible apply State.showAll_keeps
    | with_reducible apply State.reportDims_keeps
    | with_reducible apply State.syncGroups_keeps
    | simp only [Keeps.mk_iff]
    | with_reducible apply KeepsCore.of
    | (split <;> (rename_i hp; have hp := congrArg Prod.fst hp; dsimp only at hp; subst hp))
    | split

theorem State.tryDisable_keeps {z s : State} {n : Nat} (hz : Keeps z s) :
    Keeps z (State.tryDisable s n) := by
  unfold State.tryDisable
  try dsimp only
  repeat' first
    | (with_reducible intro _)
    | with_reducible assumption
    | with_reducible apply Keeps.ite
    | with_reducible apply State.when_keeps
    | with_reducible apply State.nowDisabled_keeps
    | simp only [Keeps.mk_iff]
    | with_reducible apply KeepsCore.of
    | (split <;> (rename_i hp; have hp := congrArg Prod.fst hp; dsimp only at hp; subst hp))
    | split

theorem execChannelDisabled_keeps {z s : State} {dt : Nat} {n : Fin 96} (hz : Keeps z s) :
    KeepsOut z (execChannelDisabled dt n s) := by
  unfold execChannelDisabled
  try dsimp only
  repeat' first
    | (with_reducible intro _)
    | with_reducible assumption
    | with_reducible apply KeepsOut.next
    | with_reducible apply KeepsOut.ite
    | with_reducible apply done_keeps
    | with_reducible apply Keeps.ite
    | with_reducible apply State.elapse_keeps
    | with_reducible apply State.settleLeft_keeps
    | with_reducible apply State.tryDisable_keeps
    | with_reducible apply done_keeps
    | simp only [Keeps.mk_iff]
    | with_reducible apply KeepsCore.of
    | (split <;> (rename_i hp; have hp := congrArg Prod.fst hp; dsimp only at hp; subst hp))
    | split

theorem State.enableChan_keeps {z s : State} {n : Nat} {enable : Bool} (hz : Keeps z s) :
    Keeps z (State.enableChan s n enable) := by
  unfold State.enableChan
  try dsimp only
  repeat' first
    | (with_reducible intro _)
    | with_reducible assumption
    | with_reducible apply Keeps.ite
    | with_reducible apply State.setBit_keeps
    | with_reducible apply State.when_keeps
    | with_reducible apply State.replan_keeps
    | with_reducible apply State.syncGroups_keeps
    | with_reducible apply State.modChan_keeps
    | with_reducible apply State.tryDisable_keeps
    | simp only [Keeps.mk_iff]
    | with_reducible apply KeepsCore.of
    | (split <;> (rename_i hp; have hp := congrArg Prod.fst hp; dsimp only at hp; subst hp))
    | split

theorem execChnEnableWrite_keeps {z s : State} {dt : Nat} {n : Fin 96} {enable : Bool} (hz : Keeps z s) :
    KeepsOut z (execChnEnableWrite dt n enable s) := by
  unfold execChnEnableWrite
  try dsimp only
  repeat' first
    | (with_reducible intro _)
    | with_reducible assumption
    | with_reducible apply KeepsOut.next
    | with_reducible apply KeepsOut.ite
    | with_reducible apply done_keeps
    | with_reducible apply Keeps.ite
    | with_reducible apply State.elapse_keeps
    | with_reducible apply State.when_keeps
    | with_reducible apply State.refuse_keeps
    | with_reducible apply State.enableChan_keeps
    | with_reducible apply State.mirrorWrite_keeps
    | with_reducible apply done_keeps
    | simp only [Keeps.mk_iff]
    | with_reducible apply KeepsCore.of
    | (split <;> (rename_i hp; have hp := congrArg Prod.fst hp; dsimp only at hp; subst hp))
    | split

end Sys2Proof.Machine
end

