-- ==== Sys2Proof/Laws/KeepsMirror.lean ====
section
/-! SUPPORT. One lemma for each operation of Machine/Mirror.lean: it keeps what `Keeps` names. -/

namespace Sys2Proof.Machine

set_option linter.all false

theorem State.lanternRx_keeps {z s : State} {h : LHeader} {type : Nat} {f : State → State} (hz : Keeps z s) (hf : ∀ x, Keeps z x → Keeps z (f x)) :
    Keeps z (State.lanternRx s h type f) := by
  unfold State.lanternRx
  try dsimp only
  repeat' first
    | (with_reducible intro _)
    | with_reducible assumption
    | with_reducible apply Keeps.ite
    | with_reducible apply State.bump_keeps
    | with_reducible apply hf
    | simp only [Keeps.mk_iff]
    | with_reducible apply KeepsCore.of
    | (split <;> (rename_i hp; have hp := congrArg Prod.fst hp; dsimp only at hp; subst hp))
    | split

theorem State.badRecord_keeps {z s : State} {n : Nat} {k : Nat} (hz : Keeps z s) :
    Keeps z (State.badRecord s n k) := by
  unfold State.badRecord
  try dsimp only
  repeat' first
    | (with_reducible intro _)
    | with_reducible assumption
    | with_reducible apply Keeps.ite
    | with_reducible apply State.when_keeps
    | with_reducible apply State.ownControl_keeps
    | with_reducible apply State.fixInput_keeps
    | with_reducible apply State.becomeRepeat_keeps
    | with_reducible apply State.fail_keeps
    | with_reducible apply State.unconfirm_keeps
    | simp only [Keeps.mk_iff]
    | with_reducible apply KeepsCore.of
    | (split <;> (rename_i hp; have hp := congrArg Prod.fst hp; dsimp only at hp; subst hp))
    | split

theorem State.recordRx_keeps {z s : State} {input : Bool} {r : DecisionRecord} {ok : Bool} (hz : Keeps z s) :
    Keeps z (State.recordRx s input r ok) := by
  unfold State.recordRx
  try dsimp only
  repeat' first
    | (with_reducible intro _)
    | with_reducible assumption
    | with_reducible apply Keeps.ite
    | with_reducible apply State.badRecord_keeps
    | with_reducible apply State.modChan_keeps
    | with_reducible apply State.when_keeps
    | with_reducible apply State.adoptParts_keeps
    | simp only [Keeps.mk_iff]
    | with_reducible apply KeepsCore.of
    | (split <;> (rename_i hp; have hp := congrArg Prod.fst hp; dsimp only at hp; subst hp))
    | split

theorem execDecisionRecordRx_keeps {z s : State} {dt : Nat} {h : LHeader} {input : Bool} {bytes : List Byte} (hz : Keeps z s) :
    KeepsOut z (execDecisionRecordRx dt h input bytes s) := by
  unfold execDecisionRecordRx
  try dsimp only
  repeat' first
    | (with_reducible intro _)
    | with_reducible assumption
    | with_reducible apply KeepsOut.next
    | with_reducible apply KeepsOut.ite
    | with_reducible apply done_keeps
    | with_reducible apply Keeps.ite
    | with_reducible apply State.elapse_keeps
    | with_reducible apply State.lanternRx_keeps
    | with_reducible apply State.recordRx_keeps
    | with_reducible apply State.pumpTakes_keeps
    | with_reducible apply done_keeps
    | simp only [Keeps.mk_iff]
    | with_reducible apply KeepsCore.of
    | (split <;> (rename_i hp; have hp := congrArg Prod.fst hp; dsimp only at hp; subst hp))
    | split

theorem State.bandEntryRx_keeps {z s : State} {e : BandEntry} {ok : Bool} (hz : Keeps z s) :
    Keeps z (State.bandEntryRx s e ok) := by
  unfold State.bandEntryRx
  try dsimp only
  repeat' first
    | (with_reducible intro _)
    | with_reducible assumption
    | with_reducible apply Keeps.ite
    | with_reducible apply State.badRecord_keeps
    | with_reducible apply State.modChan_keeps
    | with_reducible apply State.when_keeps
    | with_reducible apply State.followBand_keeps
    | simp only [Keeps.mk_iff]
    | with_reducible apply KeepsCore.of
    | (split <;> (rename_i hp; have hp := congrArg Prod.fst hp; dsimp only at hp; subst hp))
    | split

theorem execBandEntryRx_keeps {z s : State} {dt : Nat} {h : LHeader} {n : Fin 96} {k : Nat} {bytes : List Byte} (hz : Keeps z s) :
    KeepsOut z (execBandEntryRx dt h n k bytes s) := by
  unfold execBandEntryRx
  try dsimp only
  repeat' first
    | (with_reducible intro _)
    | with_reducible assumption
    | with_reducible apply KeepsOut.next
    | with_reducible apply KeepsOut.ite
    | with_reducible apply done_keeps
    | with_reducible apply Keeps.ite
    | with_reducible apply State.elapse_keeps
    | with_reducible apply State.lanternRx_keeps
    | with_reducible apply State.bandEntryRx_keeps
    | with_reducible apply State.pumpTakes_keeps
    | with_reducible apply done_keeps
    | simp only [Keeps.mk_iff]
    | with_reducible apply KeepsCore.of
    | (split <;> (rename_i hp; have hp := congrArg Prod.fst hp; dsimp only at hp; subst hp))
    | split

theorem State.gapEntryRx_keeps {z s : State} {e : GapEntry} {ok : Bool} (hz : Keeps z s) :
    Keeps z (State.gapEntryRx s e ok) := by
  unfold State.gapEntryRx
  try dsimp only
  repeat' first
    | (with_reducible intro _)
    | with_reducible assumption
    | with_reducible apply Keeps.ite
    | with_reducible apply State.badRecord_keeps
    | with_reducible apply State.modChan_keeps
    | with_reducible apply State.followGaps_keeps
    | simp only [Keeps.mk_iff]
    | with_reducible apply KeepsCore.of
    | (split <;> (rename_i hp; have hp := congrArg Prod.fst hp; dsimp only at hp; subst hp))
    | split

theorem execGapEntryRx_keeps {z s : State} {dt : Nat} {h : LHeader} {bytes : List Byte} (hz : Keeps z s) :
    KeepsOut z (execGapEntryRx dt h bytes s) := by
  unfold execGapEntryRx
  try dsimp only
  repeat' first
    | (with_reducible intro _)
    | with_reducible assumption
    | with_reducible apply KeepsOut.next
    | with_reducible apply KeepsOut.ite
    | with_reducible apply done_keeps
    | with_reducible apply Keeps.ite
    | with_reducible apply State.elapse_keeps
    | with_reducible apply State.lanternRx_keeps
    | with_reducible apply State.gapEntryRx_keeps
    | with_reducible apply State.pumpTakes_keeps
    | with_reducible apply done_keeps
    | simp only [Keeps.mk_iff]
    | with_reducible apply KeepsCore.of
    | (split <;> (rename_i hp; have hp := congrArg Prod.fst hp; dsimp only at hp; subst hp))
    | split

theorem execSpliceCommandRx_keeps {z s : State} {dt : Nat} {h : LHeader} {n : Fin 96} {id : Nat} {index : Nat} {body : List Byte} (hz : Keeps z s) :
    KeepsOut z (execSpliceCommandRx dt h n id index body s) := by
  unfold execSpliceCommandRx
  try dsimp only
  repeat' first
    | (with_reducible intro _)
    | with_reducible assumption
    | with_reducible apply KeepsOut.next
    | with_reducible apply KeepsOut.ite
    | with_reducible apply done_keeps
    | with_reducible apply Keeps.ite
    | with_reducible apply State.elapse_keeps
    | with_reducible apply State.lanternRx_keeps
    | with_reducible apply State.when_keeps
    | with_reducible apply State.modChan_keeps
    | with_reducible apply done_keeps
    | simp only [Keeps.mk_iff]
    | with_reducible apply KeepsCore.of
    | (split <;> (rename_i hp; have hp := congrArg Prod.fst hp; dsimp only at hp; subst hp))
    | split

theorem execDimReportRx_keeps {z s : State} {dt : Nat} {h : LHeader} {n : Fin 96} {level : Fin 5} (hz : Keeps z s) :
    KeepsOut z (execDimReportRx dt h n level s) := by
  unfold execDimReportRx
  try dsimp only
  repeat' first
    | (with_reducible intro _)
    | with_reducible assumption
    | with_reducible apply KeepsOut.next
    | with_reducible apply KeepsOut.ite
    | with_reducible apply done_keeps
    | with_reducible apply Keeps.ite
    | with_reducible apply State.elapse_keeps
    | with_reducible apply State.lanternRx_keeps
    | with_reducible apply done_keeps
    | simp only [Keeps.mk_iff]
    | with_reducible apply KeepsCore.of
    | (split <;> (rename_i hp; have hp := congrArg Prod.fst hp; dsimp only at hp; subst hp))
    | split

theorem execInputDigestRx_keeps {z s : State} {dt : Nat} {h : LHeader} {n : Fin 96} {k : Nat} {part : Nat} {digest : Nat} (hz : Keeps z s) :
    KeepsOut z (execInputDigestRx dt h n k part digest s) := by
  unfold execInputDigestRx
  try dsimp only
  repeat' first
    | (with_reducible intro _)
    | with_reducible assumption
    | with_reducible apply KeepsOut.next
    | with_reducible apply KeepsOut.ite
    | with_reducible apply done_keeps
    | with_reducible apply Keeps.ite
    | with_reducible apply State.elapse_keeps
    | with_reducible apply State.lanternRx_keeps
    | with_reducible apply State.modItem_keeps
    | with_reducible apply State.compareItem_keeps
    | with_reducible apply State.sweepItems_keeps
    | with_reducible apply done_keeps
    | simp only [Keeps.mk_iff]
    | with_reducible apply KeepsCore.of
    | (split <;> (rename_i hp; have hp := congrArg Prod.fst hp; dsimp only at hp; subst hp))
    | split

theorem execOutputDigestRx_keeps {z s : State} {dt : Nat} {h : LHeader} {n : Fin 96} {k : Nat} {band : Option Nat} {digest : Nat} (hz : Keeps z s) :
    KeepsOut z (execOutputDigestRx dt h n k band digest s) := by
  unfold execOutputDigestRx
  try dsimp only
  repeat' first
    | (with_reducible intro _)
    | with_reducible assumption
    | with_reducible apply KeepsOut.next
    | with_reducible apply KeepsOut.ite
    | with_reducible apply done_keeps
    | with_reducible apply Keeps.ite
    | with_reducible apply State.elapse_keeps
    | with_reducible apply State.lanternRx_keeps
    | with_reducible apply State.modBand_keeps
    | with_reducible apply State.modItem_keeps
    | with_reducible apply State.compareItem_keeps
    | with_reducible apply State.sweepItems_keeps
    | with_reducible apply done_keeps
    | simp only [Keeps.mk_iff]
    | with_reducible apply KeepsCore.of
    | (split <;> (rename_i hp; have hp := congrArg Prod.fst hp; dsimp only at hp; subst hp))
    | split

theorem State.cursorRx_keeps {z s : State} {flow : Nat} {cursor : Nat} (hz : Keeps z s) :
    Keeps z (State.cursorRx s flow cursor) := by
  unfold State.cursorRx
  try dsimp only
  repeat' first
    | (with_reducible intro _)
    | with_reducible assumption
    | with_reducible apply Keeps.ite
    | with_reducible apply State.modFlow_keeps
    | simp only [Keeps.mk_iff]
    | with_reducible apply KeepsCore.of
    | (split <;> (rename_i hp; have hp := congrArg Prod.fst hp; dsimp only at hp; subst hp))
    | split

theorem execCursorFrameRx_keeps {z s : State} {dt : Nat} {h : LHeader} {entries : List (Nat × Nat)} (hz : Keeps z s) :
    KeepsOut z (execCursorFrameRx dt h entries s) := by
  unfold execCursorFrameRx
  try dsimp only
  repeat' first
    | (with_reducible intro _)
    | with_reducible assumption
    | with_reducible apply KeepsOut.next
    | with_reducible apply KeepsOut.ite
    | with_reducible apply done_keeps
    | with_reducible apply Keeps.ite
    | with_reducible apply State.elapse_keeps
    | with_reducible apply State.lanternRx_keeps
    | with_reducible apply State.when_keeps
    | with_reducible apply State.each_keeps
    | with_reducible apply State.cursorRx_keeps
    | with_reducible apply done_keeps
    | simp only [Keeps.mk_iff]
    | with_reducible apply KeepsCore.of
    | (split <;> (rename_i hp; have hp := congrArg Prod.fst hp; dsimp only at hp; subst hp))
    | split

theorem execFailureRecordRx_keeps {z s : State} {dt : Nat} {h : LHeader} {bytes : List Byte} (hz : Keeps z s) :
    KeepsOut z (execFailureRecordRx dt h bytes s) := by
  unfold execFailureRecordRx
  try dsimp only
  repeat' first
    | (with_reducible intro _)
    | with_reducible assumption
    | with_reducible apply KeepsOut.next
    | with_reducible apply KeepsOut.ite
    | with_reducible apply done_keeps
    | with_reducible apply Keeps.ite
    | with_reducible apply State.elapse_keeps
    | with_reducible apply State.lanternRx_keeps
    | with_reducible apply State.when_keeps
    | with_reducible apply State.bump_keeps
    | with_reducible apply done_keeps
    | simp only [Keeps.mk_iff]
    | with_reducible apply KeepsCore.of
    | (split <;> (rename_i hp; have hp := congrArg Prod.fst hp; dsimp only at hp; subst hp))
    | split

theorem State.alignIndex_keeps {z s : State} {n : Nat} (hz : Keeps z s) :
    Keeps z (State.alignIndex s n) := by
  unfold State.alignIndex
  try dsimp only
  repeat' first
    | (with_reducible intro _)
    | with_reducible assumption
    | with_reducible apply Keeps.ite
    | with_reducible apply State.modChan_keeps
    | simp only [Keeps.mk_iff]
    | with_reducible apply KeepsCore.of
    | (split <;> (rename_i hp; have hp := congrArg Prod.fst hp; dsimp only at hp; subst hp))
    | split

theorem State.nameJoin_keeps {z s : State} {n : Nat} {decoded : Nat} (hz : Keeps z s) :
    Keeps z (State.nameJoin s n decoded) := by
  unfold State.nameJoin
  try dsimp only
  repeat' first
    | (with_reducible intro _)
    | with_reducible assumption
    | with_reducible apply Keeps.ite
    | with_reducible apply State.alignIndex_keeps
    | with_reducible apply State.modChan_keeps
    | with_reducible apply State.lanternSend_keeps
    | simp only [Keeps.mk_iff]
    | with_reducible apply KeepsCore.of
    | (split <;> (rename_i hp; have hp := congrArg Prod.fst hp; dsimp only at hp; subst hp))
    | split

theorem State.placeRefs_keeps {z s : State} {n : Nat} (hz : Keeps z s) :
    Keeps z (State.placeRefs s n) := by
  unfold State.placeRefs
  try dsimp only
  repeat' first
    | (with_reducible intro _)
    | with_reducible assumption
    | with_reducible apply Keeps.ite
    | with_reducible apply State.each_keeps
    | with_reducible apply State.modPic_keeps
    | with_reducible apply State.when_keeps
    | with_reducible apply State.keepHalo_keeps
    | with_reducible apply State.takeRecon_keeps
    | with_reducible apply State.reMark_keeps
    | with_reducible apply State.modChan_keeps
    | simp only [Keeps.mk_iff]
    | with_reducible apply KeepsCore.of
    | (split <;> (rename_i hp; have hp := congrArg Prod.fst hp; dsimp only at hp; subst hp))
    | split

theorem execSnapshotReferencesArrived_keeps {z s : State} {dt : Nat} {n : Fin 96} (hz : Keeps z s) :
    KeepsOut z (execSnapshotReferencesArrived dt n s) := by
  unfold execSnapshotReferencesArrived
  try dsimp only
  repeat' first
    | (with_reducible intro _)
    | with_reducible assumption
    | with_reducible apply KeepsOut.next
    | with_reducible apply KeepsOut.ite
    | with_reducible apply done_keeps
    | with_reducible apply Keeps.ite
    | with_reducible apply State.elapse_keeps
    | with_reducible apply State.dropWork_keeps
    | with_reducible apply State.placeRefs_keeps
    | with_reducible apply State.modChan_keeps
    | with_reducible apply State.snapEvent_keeps
    | with_reducible apply State.requestSnapshot_keeps
    | with_reducible apply done_keeps
    | simp only [Keeps.mk_iff]
    | with_reducible apply KeepsCore.of
    | (split <;> (rename_i hp; have hp := congrArg Prod.fst hp; dsimp only at hp; subst hp))
    | split

theorem State.endResync_keeps {z s : State}  (hz : Keeps z s) :
    Keeps z (State.endResync s) := by
  unfold State.endResync
  try dsimp only
  repeat' first
    | (with_reducible intro _)
    | with_reducible assumption
    | with_reducible apply Keeps.ite
    | with_reducible apply State.when_keeps
    | with_reducible apply State.setBit_keeps
    | simp only [Keeps.mk_iff]
    | with_reducible apply KeepsCore.of
    | (split <;> (rename_i hp; have hp := congrArg Prod.fst hp; dsimp only at hp; subst hp))
    | split

theorem State.muxState_keeps {z s : State} {i : Nat} {formed : Nat} {jump : Nat} {psi : Option (Int × Nat)} {base : Int} {cc : List (Nat × Nat)} {progs : List (Nat × MuxState)} (hz : Keeps z s) :
    Keeps z (State.muxState s i formed jump psi base cc progs) := by
  unfold State.muxState
  try dsimp only
  repeat' first
    | (with_reducible intro _)
    | with_reducible assumption
    | with_reducible apply Keeps.ite
    | with_reducible apply State.modFlow_keeps
    | with_reducible apply State.each_keeps
    | with_reducible apply State.modMux_keeps
    | with_reducible apply State.modChan_keeps
    | with_reducible apply State.snapEvent_keeps
    | with_reducible apply State.endResync_keeps
    | simp only [Keeps.mk_iff]
    | with_reducible apply KeepsCore.of
    | (split <;> (rename_i hp; have hp := congrArg Prod.fst hp; dsimp only at hp; subst hp))
    | split

theorem State.takeJoin_keeps {z s : State} {n : Nat} {j : Nat} {x : JoinState} (hz : Keeps z s) :
    Keeps z (State.takeJoin s n j x) := by
  unfold State.takeJoin
  try dsimp only
  repeat' first
    | (with_reducible intro _)
    | with_reducible assumption
    | with_reducible apply Keeps.ite
    | with_reducible apply State.each_keeps
    | with_reducible apply State.modPic_keeps
    | with_reducible apply State.modItem_keeps
    | with_reducible apply State.modChan_keeps
    | with_reducible apply State.settleChan_keeps
    | simp only [Keeps.mk_iff]
    | with_reducible apply KeepsCore.of
    | (split <;> (rename_i hp; have hp := congrArg Prod.fst hp; dsimp only at hp; subst hp))
    | split

theorem State.catchBand_keeps {z s : State} {n : Nat} {dr : DecisionRecord} {rh : Nat} {starts : Bool} {refs : List Nat} {b : Nat} {bytes : List Byte} {crcs : List Nat} (hz : Keeps z s) :
    Keeps z (State.catchBand s n dr rh starts refs b bytes crcs) := by
  unfold State.catchBand
  try dsimp only
  repeat' first
    | (with_reducible intro _)
    | with_reducible assumption
    | with_reducible apply Keeps.ite
    | with_reducible apply State.modChan_keeps
    | with_reducible apply State.modPic_keeps
    | with_reducible apply done_keeps
    | simp only [Keeps.mk_iff]
    | with_reducible apply KeepsCore.of
    | (split <;> (rename_i hp; have hp := congrArg Prod.fst hp; dsimp only at hp; subst hp))
    | split

theorem State.placeDecoded_keeps {z s : State} {n : Nat} {k : Nat} (hz : Keeps z s) :
    Keeps z (State.placeDecoded s n k) := by
  unfold State.placeDecoded
  try dsimp only
  repeat' first
    | (with_reducible intro _)
    | with_reducible assumption
    | with_reducible apply Keeps.ite
    | with_reducible apply State.modChan_keeps
    | with_reducible apply State.releaseBuffers_keeps
    | with_reducible apply State.takeRecon_keeps
    | with_reducible apply State.reMark_keeps
    | simp only [Keeps.mk_iff]
    | with_reducible apply KeepsCore.of
    | (split <;> (rename_i hp; have hp := congrArg Prod.fst hp; dsimp only at hp; subst hp))
    | split

theorem State.caughtUp_keeps {z s : State} {n : Nat} {k : Nat} (hz : Keeps z s) :
    Keeps z (State.caughtUp s n k) := by
  unfold State.caughtUp
  try dsimp only
  repeat' first
    | (with_reducible intro _)
    | with_reducible assumption
    | with_reducible apply Keeps.ite
    | with_reducible apply State.nameJoin_keeps
    | with_reducible apply State.modChan_keeps
    | with_reducible apply State.settleChan_keeps
    | simp only [Keeps.mk_iff]
    | with_reducible apply KeepsCore.of
    | (split <;> (rename_i hp; have hp := congrArg Prod.fst hp; dsimp only at hp; subst hp))
    | split

theorem State.snapRx_keeps {z s : State} {n : Nat} {x : SnapBody} (hz : Keeps z s) :
    Keeps z (State.snapRx s n x) := by
  unfold State.snapRx
  try dsimp only
  repeat' first
    | (with_reducible intro _)
    | with_reducible assumption
    | with_reducible apply Keeps.ite
    | with_reducible apply State.when_keeps
    | with_reducible apply State.modChan_keeps
    | with_reducible apply State.catchBand_keeps
    | with_reducible apply State.snapEvent_keeps
    | with_reducible apply State.requestSnapshot_keeps
    | with_reducible apply State.modPic_keeps
    | with_reducible apply State.keepHalo_keeps
    | with_reducible apply State.modItem_keeps
    | with_reducible apply State.placeDecoded_keeps
    | with_reducible apply State.caughtUp_keeps
    | with_reducible apply State.takeJoin_keeps
    | with_reducible apply State.muxState_keeps
    | simp only [Keeps.mk_iff]
    | with_reducible apply KeepsCore.of
    | (split <;> (rename_i hp; have hp := congrArg Prod.fst hp; dsimp only at hp; subst hp))
    | split

theorem execSnapshotFrameRx_keeps {z s : State} {dt : Nat} {h : LHeader} {n : Fin 96} {x : SnapBody} (hz : Keeps z s) :
    KeepsOut z (execSnapshotFrameRx dt h n x s) := by
  unfold execSnapshotFrameRx
  try dsimp only
  repeat' first
    | (with_reducible intro _)
    | with_reducible assumption
    | with_reducible apply KeepsOut.next
    | with_reducible apply KeepsOut.ite
    | with_reducible apply done_keeps
    | with_reducible apply Keeps.ite
    | with_reducible apply State.elapse_keeps
    | with_reducible apply State.lanternRx_keeps
    | with_reducible apply State.when_keeps
    | with_reducible apply State.snapRx_keeps
    | with_reducible apply State.pumpTakes_keeps
    | with_reducible apply done_keeps
    | simp only [Keeps.mk_iff]
    | with_reducible apply KeepsCore.of
    | (split <;> (rename_i hp; have hp := congrArg Prod.fst hp; dsimp only at hp; subst hp))
    | split

theorem State.flowJoin_keeps {z s : State} {i : Nat} (hz : Keeps z s) :
    Keeps z (State.flowJoin s i) := by
  unfold State.flowJoin
  try dsimp only
  repeat' first
    | (with_reducible intro _)
    | with_reducible assumption
    | with_reducible apply Keeps.ite
    | with_reducible apply State.lanternSend_keeps
    | simp only [Keeps.mk_iff]
    | with_reducible apply KeepsCore.of
    | (split <;> (rename_i hp; have hp := congrArg Prod.fst hp; dsimp only at hp; subst hp))
    | split

theorem State.joinRx_keeps {z s : State} {x : JoinBody} (hz : Keeps z s) :
    Keeps z (State.joinRx s x) := by
  unfold State.joinRx
  try dsimp only
  repeat' first
    | (with_reducible intro _)
    | with_reducible assumption
    | with_reducible apply Keeps.ite
    | with_reducible apply State.request_keeps
    | with_reducible apply State.when_keeps
    | with_reducible apply State.modChan_keeps
    | with_reducible apply State.unpin_keeps
    | with_reducible apply State.flowJoin_keeps
    | with_reducible apply State.sendJoin_keeps
    | with_reducible apply State.doffStep_keeps
    | simp only [Keeps.mk_iff]
    | with_reducible apply KeepsCore.of
    | (split <;> (rename_i hp; have hp := congrArg Prod.fst hp; dsimp only at hp; subst hp))
    | split

theorem execJoinControlRx_keeps {z s : State} {dt : Nat} {h : LHeader} {x : JoinBody} (hz : Keeps z s) :
    KeepsOut z (execJoinControlRx dt h x s) := by
  unfold execJoinControlRx
  try dsimp only
  repeat' first
    | (with_reducible intro _)
    | with_reducible assumption
    | with_reducible apply KeepsOut.next
    | with_reducible apply KeepsOut.ite
    | with_reducible apply done_keeps
    | with_reducible apply Keeps.ite
    | with_reducible apply State.elapse_keeps
    | with_reducible apply State.lanternRx_keeps
    | with_reducible apply State.joinRx_keeps
    | with_reducible apply done_keeps
    | simp only [Keeps.mk_iff]
    | with_reducible apply KeepsCore.of
    | (split <;> (rename_i hp; have hp := congrArg Prod.fst hp; dsimp only at hp; subst hp))
    | split

end Sys2Proof.Machine
end

