-- ==== Sys2Proof/Laws/KeepsThermal.lean ====
section
/-! SUPPORT. One lemma for each operation of Machine/Thermal.lean: it keeps what `Keeps` names. -/

namespace Sys2Proof.Machine

set_option linter.all false

theorem State.takeSensor_keeps {z s : State} {d : Nat} {i : Nat} {e : Int × Int} (hz : Keeps z s) :
    Keeps z (State.takeSensor s d i e) := by
  unfold State.takeSensor
  try dsimp only
  repeat' first
    | (with_reducible intro _)
    | with_reducible assumption
    | with_reducible apply Keeps.ite
    | with_reducible apply State.when_keeps
    | with_reducible apply State.freshId_keeps
    | with_reducible apply State.raiseT_keeps
    | with_reducible apply State.wrN_keeps
    | simp only [Keeps.mk_iff]
    | with_reducible apply KeepsCore.of
    | (split <;> (rename_i hp; have hp := congrArg Prod.fst hp; dsimp only at hp; subst hp))
    | split

theorem State.unitHot_keeps {z s : State}  (hz : Keeps z s) :
    Keeps z (State.unitHot s) := by
  unfold State.unitHot
  try dsimp only
  repeat' first
    | (with_reducible intro _)
    | with_reducible assumption
    | with_reducible apply Keeps.ite
    | with_reducible apply Keeps.foldl
    | with_reducible apply Keeps.foldlFst
    | with_reducible apply State.wrN_keeps
    | with_reducible apply State.setFld_keeps
    | simp only [Keeps.mk_iff]
    | with_reducible apply KeepsCore.of
    | (split <;> (rename_i hp; have hp := congrArg Prod.fst hp; dsimp only at hp; subst hp))
    | split

theorem State.enterThrottle_keeps {z s : State} {d : Nat} (hz : Keeps z s) :
    Keeps z (State.enterThrottle s d) := by
  unfold State.enterThrottle
  try dsimp only
  repeat' first
    | (with_reducible intro _)
    | with_reducible assumption
    | with_reducible apply Keeps.ite
    | with_reducible apply State.raiseT_keeps
    | with_reducible apply State.bump_keeps
    | with_reducible apply State.modTherm_keeps
    | with_reducible apply State.modAvs_keeps
    | simp only [Keeps.mk_iff]
    | with_reducible apply KeepsCore.of
    | (split <;> (rename_i hp; have hp := congrArg Prod.fst hp; dsimp only at hp; subst hp))
    | split

theorem State.judgeDie_keeps {z s : State} {d : Nat} (hz : Keeps z s) :
    Keeps z (State.judgeDie s d) := by
  unfold State.judgeDie
  try dsimp only
  repeat' first
    | (with_reducible intro _)
    | with_reducible assumption
    | with_reducible apply Keeps.ite
    | with_reducible apply State.modTherm_keeps
    | with_reducible apply State.setFld_keeps
    | with_reducible apply State.raiseT_keeps
    | with_reducible apply State.setBit_keeps
    | with_reducible apply State.when_keeps
    | with_reducible apply State.enterThrottle_keeps
    | with_reducible apply State.throtPin_keeps
    | with_reducible apply State.retire_keeps
    | simp only [Keeps.mk_iff]
    | with_reducible apply KeepsCore.of
    | (split <;> (rename_i hp; have hp := congrArg Prod.fst hp; dsimp only at hp; subst hp))
    | split

theorem State.compensate_keeps {z s : State} {d : Nat} (hz : Keeps z s) :
    Keeps z (State.compensate s d) := by
  unfold State.compensate
  try dsimp only
  repeat' first
    | (with_reducible intro _)
    | with_reducible assumption
    | with_reducible apply Keeps.ite
    | with_reducible apply State.modTherm_keeps
    | with_reducible apply State.each_keeps
    | with_reducible apply State.stageRef_keeps
    | simp only [Keeps.mk_iff]
    | with_reducible apply KeepsCore.of
    | (split <;> (rename_i hp; have hp := congrArg Prod.fst hp; dsimp only at hp; subst hp))
    | split

theorem execSensorSample_keeps {z s : State} {dt : Nat} {d : Fin 8} {elems : List (Int × Int)} (hz : Keeps z s) :
    KeepsOut z (execSensorSample dt d elems s) := by
  unfold execSensorSample
  try dsimp only
  repeat' first
    | (with_reducible intro _)
    | with_reducible assumption
    | with_reducible apply KeepsOut.next
    | with_reducible apply KeepsOut.ite
    | with_reducible apply done_keeps
    | with_reducible apply Keeps.ite
    | with_reducible apply State.elapse_keeps
    | with_reducible apply State.each_keeps
    | with_reducible apply State.takeSensor_keeps
    | with_reducible apply State.compensate_keeps
    | with_reducible apply State.setFld_keeps
    | with_reducible apply State.setBit_keeps
    | with_reducible apply State.modTherm_keeps
    | with_reducible apply State.unitHot_keeps
    | with_reducible apply State.judgeDie_keeps
    | with_reducible apply State.pumpTakes_keeps
    | with_reducible apply State.afterRaises_keeps
    | with_reducible apply done_keeps
    | simp only [Keeps.mk_iff]
    | with_reducible apply KeepsCore.of
    | (split <;> (rename_i hp; have hp := congrArg Prod.fst hp; dsimp only at hp; subst hp))
    | split

theorem State.setDim_keeps {z s : State} {d : Nat} {v : Nat} (hz : Keeps z s) :
    Keeps z (State.setDim s d v) := by
  unfold State.setDim
  try dsimp only
  repeat' first
    | (with_reducible intro _)
    | with_reducible assumption
    | with_reducible apply Keeps.ite
    | with_reducible apply State.noteUndo_keeps
    | with_reducible apply State.setFld_keeps
    | with_reducible apply State.modTherm_keeps
    | with_reducible apply State.bump_keeps
    | with_reducible apply State.throtPin_keeps
    | with_reducible apply State.showEff_keeps
    | with_reducible apply State.reportDims_keeps
    | simp only [Keeps.mk_iff]
    | with_reducible apply KeepsCore.of
    | (split <;> (rename_i hp; have hp := congrArg Prod.fst hp; dsimp only at hp; subst hp))
    | split

theorem State.riseDim_keeps {z s : State} {d : Nat} (hz : Keeps z s) :
    Keeps z (State.riseDim s d) := by
  unfold State.riseDim
  try dsimp only
  repeat' first
    | (with_reducible intro _)
    | with_reducible assumption
    | with_reducible apply Keeps.ite
    | with_reducible apply State.modTherm_keeps
    | with_reducible apply State.setDim_keeps
    | simp only [Keeps.mk_iff]
    | with_reducible apply KeepsCore.of
    | (split <;> (rename_i hp; have hp := congrArg Prod.fst hp; dsimp only at hp; subst hp))
    | split

theorem execThermalGraceExpiry_keeps {z s : State} {dt : Nat} {d : Fin 8} (hz : Keeps z s) :
    KeepsOut z (execThermalGraceExpiry dt d s) := by
  unfold execThermalGraceExpiry
  try dsimp only
  repeat' first
    | (with_reducible intro _)
    | with_reducible assumption
    | with_reducible apply KeepsOut.next
    | with_reducible apply KeepsOut.ite
    | with_reducible apply done_keeps
    | with_reducible apply Keeps.ite
    | with_reducible apply State.elapse_keeps
    | with_reducible apply State.riseDim_keeps
    | with_reducible apply done_keeps
    | simp only [Keeps.mk_iff]
    | with_reducible apply KeepsCore.of
    | (split <;> (rename_i hp; have hp := congrArg Prod.fst hp; dsimp only at hp; subst hp))
    | split

theorem execDimStepTimer_keeps {z s : State} {dt : Nat} {d : Fin 8} (hz : Keeps z s) :
    KeepsOut z (execDimStepTimer dt d s) := by
  unfold execDimStepTimer
  try dsimp only
  repeat' first
    | (with_reducible intro _)
    | with_reducible assumption
    | with_reducible apply KeepsOut.next
    | with_reducible apply KeepsOut.ite
    | with_reducible apply done_keeps
    | with_reducible apply Keeps.ite
    | with_reducible apply State.elapse_keeps
    | with_reducible apply State.riseDim_keeps
    | with_reducible apply done_keeps
    | simp only [Keeps.mk_iff]
    | with_reducible apply KeepsCore.of
    | (split <;> (rename_i hp; have hp := congrArg Prod.fst hp; dsimp only at hp; subst hp))
    | split

theorem execDimRecoveryTimer_keeps {z s : State} {dt : Nat} {d : Fin 8} (hz : Keeps z s) :
    KeepsOut z (execDimRecoveryTimer dt d s) := by
  unfold execDimRecoveryTimer
  try dsimp only
  repeat' first
    | (with_reducible intro _)
    | with_reducible assumption
    | with_reducible apply KeepsOut.next
    | with_reducible apply KeepsOut.ite
    | with_reducible apply done_keeps
    | with_reducible apply Keeps.ite
    | with_reducible apply State.elapse_keeps
    | with_reducible apply State.modTherm_keeps
    | with_reducible apply State.setDim_keeps
    | with_reducible apply done_keeps
    | simp only [Keeps.mk_iff]
    | with_reducible apply KeepsCore.of
    | (split <;> (rename_i hp; have hp := congrArg Prod.fst hp; dsimp only at hp; subst hp))
    | split

theorem State.avsEvent_keeps {z s : State} {d : Nat} {code : Nat} {word : Nat} (hz : Keeps z s) :
    Keeps z (State.avsEvent s d code word) := by
  unfold State.avsEvent
  try dsimp only
  repeat' first
    | (with_reducible intro _)
    | with_reducible assumption
    | with_reducible apply Keeps.ite
    | with_reducible apply State.raiseT_keeps
    | simp only [Keeps.mk_iff]
    | with_reducible apply KeepsCore.of
    | (split <;> (rename_i hp; have hp := congrArg Prod.fst hp; dsimp only at hp; subst hp))
    | split

theorem State.showAvs_keeps {z s : State} {d : Nat} (hz : Keeps z s) :
    Keeps z (State.showAvs s d) := by
  unfold State.showAvs
  try dsimp only
  repeat' first
    | (with_reducible intro _)
    | with_reducible assumption
    | with_reducible apply Keeps.ite
    | with_reducible apply State.setBit_keeps
    | simp only [Keeps.mk_iff]
    | with_reducible apply KeepsCore.of
    | (split <;> (rename_i hp; have hp := congrArg Prod.fst hp; dsimp only at hp; subst hp))
    | split

theorem State.avsLost_keeps {z s : State} {d : Nat} (hz : Keeps z s) :
    Keeps z (State.avsLost s d) := by
  unfold State.avsLost
  try dsimp only
  repeat' first
    | (with_reducible intro _)
    | with_reducible assumption
    | with_reducible apply Keeps.ite
    | with_reducible apply State.modAvs_keeps
    | with_reducible apply State.showAvs_keeps
    | with_reducible apply State.avsEvent_keeps
    | simp only [Keeps.mk_iff]
    | with_reducible apply KeepsCore.of
    | (split <;> (rename_i hp; have hp := congrArg Prod.fst hp; dsimp only at hp; subst hp))
    | split

theorem State.pmbGood_keeps {z s : State} {x : PmbXfer} {value : Nat} (hz : Keeps z s) :
    Keeps z (State.pmbGood s x value) := by
  unfold State.pmbGood
  try dsimp only
  repeat' first
    | (with_reducible intro _)
    | with_reducible assumption
    | with_reducible apply Keeps.ite
    | with_reducible apply State.avsLost_keeps
    | with_reducible apply State.when_keeps
    | with_reducible apply State.wrN_keeps
    | with_reducible apply State.pmbAsk_keeps
    | with_reducible apply State.modAvs_keeps
    | with_reducible apply State.setFld_keeps
    | with_reducible apply State.avsEvent_keeps
    | simp only [Keeps.mk_iff]
    | with_reducible apply KeepsCore.of
    | (split <;> (rename_i hp; have hp := congrArg Prod.fst hp; dsimp only at hp; subst hp))
    | split

theorem State.pmbBad_keeps {z s : State} {x : PmbXfer} {rest : List PmbXfer} (hz : Keeps z s) :
    Keeps z (State.pmbBad s x rest) := by
  unfold State.pmbBad
  try dsimp only
  repeat' first
    | (with_reducible intro _)
    | with_reducible assumption
    | with_reducible apply Keeps.ite
    | with_reducible apply State.bump_keeps
    | with_reducible apply State.avsLost_keeps
    | with_reducible apply State.wrN_keeps
    | with_reducible apply State.modAvs_keeps
    | simp only [Keeps.mk_iff]
    | with_reducible apply KeepsCore.of
    | (split <;> (rename_i hp; have hp := congrArg Prod.fst hp; dsimp only at hp; subst hp))
    | split

theorem execPmbAlert_keeps {z s : State} {dt : Nat} (hz : Keeps z s) :
    KeepsOut z (execPmbAlert dt s) := by
  unfold execPmbAlert
  try dsimp only
  repeat' first
    | (with_reducible intro _)
    | with_reducible assumption
    | with_reducible apply KeepsOut.next
    | with_reducible apply KeepsOut.ite
    | with_reducible apply done_keeps
    | with_reducible apply Keeps.ite
    | with_reducible apply State.elapse_keeps
    | with_reducible apply State.each_keeps
    | with_reducible apply State.pmbAsk_keeps
    | with_reducible apply done_keeps
    | simp only [Keeps.mk_iff]
    | with_reducible apply KeepsCore.of
    | (split <;> (rename_i hp; have hp := congrArg Prod.fst hp; dsimp only at hp; subst hp))
    | split

theorem execPmbusPoll_keeps {z s : State} {dt : Nat} (hz : Keeps z s) :
    KeepsOut z (execPmbusPoll dt s) := by
  unfold execPmbusPoll
  try dsimp only
  repeat' first
    | (with_reducible intro _)
    | with_reducible assumption
    | with_reducible apply KeepsOut.next
    | with_reducible apply KeepsOut.ite
    | with_reducible apply done_keeps
    | with_reducible apply Keeps.ite
    | with_reducible apply State.elapse_keeps
    | with_reducible apply State.each_keeps
    | with_reducible apply State.pmbAsk_keeps
    | with_reducible apply done_keeps
    | simp only [Keeps.mk_iff]
    | with_reducible apply KeepsCore.of
    | (split <;> (rename_i hp; have hp := congrArg Prod.fst hp; dsimp only at hp; subst hp))
    | split

theorem execPmbusTransferDone_keeps {z s : State} {dt : Nat} {ok : Bool} {value : Nat} (hz : Keeps z s) :
    KeepsOut z (execPmbusTransferDone dt ok value s) := by
  unfold execPmbusTransferDone
  try dsimp only
  repeat' first
    | (with_reducible intro _)
    | with_reducible assumption
    | with_reducible apply KeepsOut.next
    | with_reducible apply KeepsOut.ite
    | with_reducible apply done_keeps
    | with_reducible apply Keeps.ite
    | with_reducible apply State.elapse_keeps
    | with_reducible apply State.pmbGood_keeps
    | with_reducible apply State.afterRaises_keeps
    | with_reducible apply State.pmbStart_keeps
    | with_reducible apply State.pmbBad_keeps
    | with_reducible apply done_keeps
    | simp only [Keeps.mk_iff]
    | with_reducible apply KeepsCore.of
    | (split <;> (rename_i hp; have hp := congrArg Prod.fst hp; dsimp only at hp; subst hp))
    | split

theorem execPmbusStuck_keeps {z s : State} {dt : Nat} (hz : Keeps z s) :
    KeepsOut z (execPmbusStuck dt s) := by
  unfold execPmbusStuck
  try dsimp only
  repeat' first
    | (with_reducible intro _)
    | with_reducible assumption
    | with_reducible apply KeepsOut.next
    | with_reducible apply KeepsOut.ite
    | with_reducible apply done_keeps
    | with_reducible apply Keeps.ite
    | with_reducible apply State.elapse_keeps
    | with_reducible apply State.pmbBad_keeps
    | with_reducible apply State.pmbStart_keeps
    | with_reducible apply State.afterRaises_keeps
    | with_reducible apply done_keeps
    | simp only [Keeps.mk_iff]
    | with_reducible apply KeepsCore.of
    | (split <;> (rename_i hp; have hp := congrArg Prod.fst hp; dsimp only at hp; subst hp))
    | split

theorem State.planAt_keeps {z s : State} {d : Nat} {st : PlanStage} (hz : Keeps z s) :
    Keeps z (State.planAt s d st).1 := by
  unfold State.planAt
  try dsimp only
  repeat' first
    | (with_reducible intro _)
    | with_reducible assumption
    | with_reducible apply Keeps.ite
    | with_reducible apply State.modAvs_keeps
    | simp only [Keeps.mk_iff]
    | with_reducible apply KeepsCore.of
    | (split <;> (rename_i hp; have hp := congrArg Prod.fst hp; dsimp only at hp; subst hp))
    | split

theorem State.planDie_keeps {z s : State} {d : Nat} (hz : Keeps z s) :
    Keeps z (State.planDie s d) := by
  unfold State.planDie
  try dsimp only
  repeat' first
    | (with_reducible intro _)
    | with_reducible assumption
    | with_reducible apply Keeps.ite
    | with_reducible apply State.modAvs_keeps
    | with_reducible apply State.setFld_keeps
    | with_reducible apply State.setBit_keeps
    | with_reducible apply State.when_keeps
    | with_reducible apply State.raiseT_keeps
    | simp only [Keeps.mk_iff]
    | with_reducible apply KeepsCore.of
    | (split <;> (rename_i hp; have hp := congrArg Prod.fst hp; dsimp only at hp; subst hp))
    | split

theorem State.dayDone_keeps {z s : State} {d : Nat} (hz : Keeps z s) :
    Keeps z (State.dayDone s d) := by
  unfold State.dayDone
  try dsimp only
  repeat' first
    | (with_reducible intro _)
    | with_reducible assumption
    | with_reducible apply Keeps.ite
    | with_reducible apply State.modTherm_keeps
    | simp only [Keeps.mk_iff]
    | with_reducible apply KeepsCore.of
    | (split <;> (rename_i hp; have hp := congrArg Prod.fst hp; dsimp only at hp; subst hp))
    | split

theorem State.dayLimits_keeps {z s : State}  (hz : Keeps z s) :
    Keeps z (State.dayLimits s) := by
  unfold State.dayLimits
  try dsimp only
  repeat' first
    | (with_reducible intro _)
    | with_reducible assumption
    | with_reducible apply Keeps.ite
    | with_reducible apply State.setLims_keeps
    | with_reducible apply State.when_keeps
    | with_reducible apply State.replan_keeps
    | simp only [Keeps.mk_iff]
    | with_reducible apply KeepsCore.of
    | (split <;> (rename_i hp; have hp := congrArg Prod.fst hp; dsimp only at hp; subst hp))
    | split

theorem State.endPlanning_keeps {z s : State}  (hz : Keeps z s) :
    Keeps z (State.endPlanning s) := by
  unfold State.endPlanning
  try dsimp only
  repeat' first
    | (with_reducible intro _)
    | with_reducible assumption
    | with_reducible apply Keeps.ite
    | with_reducible apply State.each_keeps
    | with_reducible apply State.planDie_keeps
    | with_reducible apply State.ageingRecord_keeps
    | with_reducible apply State.dayDone_keeps
    | with_reducible apply State.dayLimits_keeps
    | simp only [Keeps.mk_iff]
    | with_reducible apply KeepsCore.of
    | (split <;> (rename_i hp; have hp := congrArg Prod.fst hp; dsimp only at hp; subst hp))
    | split

theorem State.planFrom_keeps {z : State} (k : Nat) :
    ∀ {d : Nat} {st : PlanStage} {s : State}, Keeps z s → Keeps z (State.planFrom k d st s) := by
  induction k with
  | zero => intro _ _ s h; exact State.endPlanning_keeps h
  | succ k ih =>
    intro d st s h
    unfold State.planFrom
    split
    · exact State.endPlanning_keeps h
    · have hk : Keeps z (if s.dieOk d = true then s.planAt d st else (s, none)).1 := by
        split
        · exact State.planAt_keeps h
        · exact h
      generalize (if s.dieOk d = true then s.planAt d st else (s, none)) = x at hk
      obtain ⟨x, w⟩ := x
      cases w with
      | none => exact ih hk
      | some w => exact Keeps.mk_iff .. |>.2 (KeepsCore.of hk)

theorem execDailyPlanning_keeps {z s : State} {dt : Nat} (hz : Keeps z s) :
    KeepsOut z (execDailyPlanning dt s) := by
  unfold execDailyPlanning
  try dsimp only
  repeat' first
    | (with_reducible intro _)
    | with_reducible assumption
    | with_reducible apply KeepsOut.next
    | with_reducible apply KeepsOut.ite
    | with_reducible apply done_keeps
    | with_reducible apply Keeps.ite
    | with_reducible apply State.elapse_keeps
    | with_reducible apply State.each_keeps
    | with_reducible apply State.modAvs_keeps
    | with_reducible apply State.showAvs_keeps
    | with_reducible apply State.planFrom_keeps
    | with_reducible apply done_keeps
    | simp only [Keeps.mk_iff]
    | with_reducible apply KeepsCore.of
    | (split <;> (rename_i hp; have hp := congrArg Prod.fst hp; dsimp only at hp; subst hp))
    | split

theorem execVoutStep_keeps {z s : State} {dt : Nat} {d : Fin 8} (hz : Keeps z s) :
    KeepsOut z (execVoutStep dt d s) := by
  unfold execVoutStep
  try dsimp only
  repeat' first
    | (with_reducible intro _)
    | with_reducible assumption
    | with_reducible apply KeepsOut.next
    | with_reducible apply KeepsOut.ite
    | with_reducible apply done_keeps
    | with_reducible apply Keeps.ite
    | with_reducible apply State.elapse_keeps
    | with_reducible apply State.modAvs_keeps
    | with_reducible apply State.planFrom_keeps
    | with_reducible apply State.wrN_keeps
    | with_reducible apply State.bump_keeps
    | with_reducible apply State.pmbAsk_keeps
    | with_reducible apply done_keeps
    | simp only [Keeps.mk_iff]
    | with_reducible apply KeepsCore.of
    | (split <;> (rename_i hp; have hp := congrArg Prod.fst hp; dsimp only at hp; subst hp))
    | split

theorem execVoutConfirmTimeout_keeps {z s : State} {dt : Nat} {d : Fin 8} (hz : Keeps z s) :
    KeepsOut z (execVoutConfirmTimeout dt d s) := by
  unfold execVoutConfirmTimeout
  try dsimp only
  repeat' first
    | (with_reducible intro _)
    | with_reducible assumption
    | with_reducible apply KeepsOut.next
    | with_reducible apply KeepsOut.ite
    | with_reducible apply done_keeps
    | with_reducible apply Keeps.ite
    | with_reducible apply State.elapse_keeps
    | with_reducible apply State.modAvs_keeps
    | with_reducible apply State.wrN_keeps
    | with_reducible apply State.pmbAsk_keeps
    | with_reducible apply State.showAvs_keeps
    | with_reducible apply State.avsEvent_keeps
    | with_reducible apply State.planFrom_keeps
    | with_reducible apply State.afterRaises_keeps
    | with_reducible apply done_keeps
    | simp only [Keeps.mk_iff]
    | with_reducible apply KeepsCore.of
    | (split <;> (rename_i hp; have hp := congrArg Prod.fst hp; dsimp only at hp; subst hp))
    | split

theorem State.measureCluster_keeps {z s : State} {d : Nat} {c : Nat} {counts : List Nat} (hz : Keeps z s) :
    Keeps z (State.measureCluster s d c counts) := by
  unfold State.measureCluster
  try dsimp only
  repeat' first
    | (with_reducible intro _)
    | with_reducible assumption
    | with_reducible apply Keeps.ite
    | with_reducible apply State.each_keeps
    | with_reducible apply State.when_keeps
    | with_reducible apply State.raiseT_keeps
    | with_reducible apply State.wrN_keeps
    | simp only [Keeps.mk_iff]
    | with_reducible apply KeepsCore.of
    | (split <;> (rename_i hp; have hp := congrArg Prod.fst hp; dsimp only at hp; subst hp))
    | split

theorem State.measuredAvs_keeps {z s : State} {d : Nat} (hz : Keeps z s) :
    Keeps z (State.measuredAvs s d) := by
  unfold State.measuredAvs
  try dsimp only
  repeat' first
    | (with_reducible intro _)
    | with_reducible assumption
    | with_reducible apply Keeps.ite
    | with_reducible apply State.modAvs_keeps
    | with_reducible apply State.when_keeps
    | with_reducible apply State.planFrom_keeps
    | simp only [Keeps.mk_iff]
    | with_reducible apply KeepsCore.of
    | (split <;> (rename_i hp; have hp := congrArg Prod.fst hp; dsimp only at hp; subst hp))
    | split

theorem execWaxMeasurement_keeps {z s : State} {dt : Nat} {d : Fin 8} {counts : List Nat} (hz : Keeps z s) :
    KeepsOut z (execWaxMeasurement dt d counts s) := by
  unfold execWaxMeasurement
  try dsimp only
  repeat' first
    | (with_reducible intro _)
    | with_reducible assumption
    | with_reducible apply KeepsOut.next
    | with_reducible apply KeepsOut.ite
    | with_reducible apply done_keeps
    | with_reducible apply Keeps.ite
    | with_reducible apply State.elapse_keeps
    | with_reducible apply State.each_keeps
    | with_reducible apply State.measureCluster_keeps
    | with_reducible apply State.freshId_keeps
    | with_reducible apply State.setFld_keeps
    | with_reducible apply State.when_keeps
    | with_reducible apply State.wrN_keeps
    | with_reducible apply State.redim_keeps
    | with_reducible apply State.showAll_keeps
    | with_reducible apply State.reportDims_keeps
    | with_reducible apply State.measuredAvs_keeps
    | with_reducible apply State.afterRaises_keeps
    | with_reducible apply done_keeps
    | simp only [Keeps.mk_iff]
    | with_reducible apply KeepsCore.of
    | (split <;> (rename_i hp; have hp := congrArg Prod.fst hp; dsimp only at hp; subst hp))
    | split

end Sys2Proof.Machine
end

