-- ==== Sys2Proof/Laws/KeepsBus.lean ====
section
/-! SUPPORT. One lemma for each operation of Machine/Bus.lean: it keeps what `Keeps` names. -/

namespace Sys2Proof.Machine

set_option linter.all false

theorem State.posted_keeps {z s : State} {mdie : Nat} {mid : Nat} {a : Nat} (hz : Keeps z s) :
    Keeps z (State.posted s mdie mid a) := by
  unfold State.posted
  try dsimp only
  repeat' first
    | (with_reducible intro _)
    | with_reducible assumption
    | with_reducible apply Keeps.ite
    | with_reducible apply State.issue_keeps
    | simp only [Keeps.mk_iff]
    | with_reducible apply KeepsCore.of
    | (split <;> (rename_i hp; have hp := congrArg Prod.fst hp; dsimp only at hp; subst hp))
    | split

theorem State.latchPair_keeps {z s : State} {m : Nat} {a : Nat} (hz : Keeps z s) :
    Keeps z (State.latchPair s m a) := by
  unfold State.latchPair
  try dsimp only
  repeat' first
    | (with_reducible intro _)
    | with_reducible assumption
    | with_reducible apply Keeps.ite
    | with_reducible apply State.latchSet_keeps
    | with_reducible apply State.when_keeps
    | simp only [Keeps.mk_iff]
    | with_reducible apply KeepsCore.of
    | (split <;> (rename_i hp; have hp := congrArg Prod.fst hp; dsimp only at hp; subst hp))
    | split

theorem State.latchWindow_keeps {z s : State} {m : Nat} {r : Nat} (hz : Keeps z s) :
    Keeps z (State.latchWindow s m r) := by
  unfold State.latchWindow
  try dsimp only
  repeat' first
    | (with_reducible intro _)
    | with_reducible assumption
    | with_reducible apply Keeps.ite
    | with_reducible apply State.each_keeps
    | with_reducible apply State.latchSet_keeps
    | simp only [Keeps.mk_iff]
    | with_reducible apply KeepsCore.of
    | (split <;> (rename_i hp; have hp := congrArg Prod.fst hp; dsimp only at hp; subst hp))
    | split

theorem State.endLatch_keeps {z s : State} {m : Nat} {r : Nat} (hz : Keeps z s) :
    Keeps z (State.endLatch s m r) := by
  unfold State.endLatch
  try dsimp only
  repeat' first
    | (with_reducible intro _)
    | with_reducible assumption
    | with_reducible apply Keeps.ite
    | with_reducible apply State.each_keeps
    | with_reducible apply State.latchDrop_keeps
    | simp only [Keeps.mk_iff]
    | with_reducible apply KeepsCore.of
    | (split <;> (rename_i hp; have hp := congrArg Prod.fst hp; dsimp only at hp; subst hp))
    | split

theorem State.readWord_keeps {z s : State} {first : Bool} {mdie : Nat} {mid : Nat} {a : Nat} (hz : Keeps z s) :
    Keeps z (State.readWord s first mdie mid a).1 := by
  unfold State.readWord
  try dsimp only
  repeat' first
    | (with_reducible intro _)
    | with_reducible assumption
    | with_reducible apply Keeps.ite
    | with_reducible apply State.abortLog_keeps
    | with_reducible apply State.when_keeps
    | with_reducible apply State.posted_keeps
    | with_reducible apply State.latchPair_keeps
    | with_reducible apply State.latchDrop_keeps
    | with_reducible apply State.latchWindow_keeps
    | with_reducible apply State.endLatch_keeps
    | simp only [Keeps.mk_iff]
    | with_reducible apply KeepsCore.of
    | (split <;> (rename_i hp; have hp := congrArg Prod.fst hp; dsimp only at hp; subst hp))
    | split

theorem State.readBus_keeps {z s : State} {mdie : Nat} {mid : Nat} {a : Nat} (hz : Keeps z s) :
    Keeps z (State.readBus s mdie mid a).1 := by
  unfold State.readBus
  try dsimp only
  repeat' first
    | (with_reducible intro _)
    | with_reducible assumption
    | with_reducible apply Keeps.ite
    | with_reducible apply State.readWord_keeps
    | simp only [Keeps.mk_iff]
    | with_reducible apply KeepsCore.of
    | (split <;> (rename_i hp; have hp := congrArg Prod.fst hp; dsimp only at hp; subst hp))
    | split

theorem State.guardedWrite_keeps {z s : State} {ok : State → Bool} {a : Nat} {v : Word} (hz : Keeps z s) :
    Keeps z (State.guardedWrite s ok a v) := by
  unfold State.guardedWrite
  try dsimp only
  repeat' first
    | (with_reducible intro _)
    | with_reducible assumption
    | with_reducible apply Keeps.ite
    | with_reducible apply State.when_keeps
    | with_reducible apply State.wr_keeps
    | with_reducible apply State.mirrorWrite_keeps
    | with_reducible apply State.refuse_keeps
    | simp only [Keeps.mk_iff]
    | with_reducible apply KeepsCore.of
    | (split <;> (rename_i hp; have hp := congrArg Prod.fst hp; dsimp only at hp; subst hp))
    | split

theorem State.plainWrite_keeps {z s : State} {a : Nat} {v : Word} (hz : Keeps z s) :
    Keeps z (State.plainWrite s a v) := by
  unfold State.plainWrite
  try dsimp only
  repeat' first
    | (with_reducible intro _)
    | with_reducible assumption
    | with_reducible apply Keeps.ite
    | with_reducible apply State.guardedWrite_keeps
    | simp only [Keeps.mk_iff]
    | with_reducible apply KeepsCore.of
    | (split <;> (rename_i hp; have hp := congrArg Prod.fst hp; dsimp only at hp; subst hp))
    | split

theorem State.tailWrite_keeps {z s : State} {v : Word} (hz : Keeps z s) :
    Keeps z (State.tailWrite s v) := by
  unfold State.tailWrite
  try dsimp only
  repeat' first
    | (with_reducible intro _)
    | with_reducible assumption
    | with_reducible apply Keeps.ite
    | with_reducible apply State.refuse_keeps
    | with_reducible apply State.wrN_keeps
    | with_reducible apply State.setPinned_keeps
    | simp only [Keeps.mk_iff]
    | with_reducible apply KeepsCore.of
    | (split <;> (rename_i hp; have hp := congrArg Prod.fst hp; dsimp only at hp; subst hp))
    | split

theorem State.maskWrite_keeps {z s : State} {p : Nat} {v : Word} (hz : Keeps z s) :
    Keeps z (State.maskWrite s p v) := by
  unfold State.maskWrite
  try dsimp only
  repeat' first
    | (with_reducible intro _)
    | with_reducible assumption
    | with_reducible apply Keeps.ite
    | with_reducible apply State.setFld_keeps
    | with_reducible apply State.modAport_keeps
    | with_reducible apply State.mirrorWrite_keeps
    | with_reducible apply State.when_keeps
    | with_reducible apply State.refuse_keeps
    | simp only [Keeps.mk_iff]
    | with_reducible apply KeepsCore.of
    | (split <;> (rename_i hp; have hp := congrArg Prod.fst hp; dsimp only at hp; subst hp))
    | split

theorem State.adminWrite_keeps {z s : State} {p : Nat} {a : Nat} {v : Word} (hz : Keeps z s) :
    Keeps z (State.adminWrite s p a v) := by
  unfold State.adminWrite
  try dsimp only
  repeat' first
    | (with_reducible intro _)
    | with_reducible assumption
    | with_reducible apply Keeps.ite
    | with_reducible apply State.bump_keeps
    | with_reducible apply State.plainWrite_keeps
    | simp only [Keeps.mk_iff]
    | with_reducible apply KeepsCore.of
    | (split <;> (rename_i hp; have hp := congrArg Prod.fst hp; dsimp only at hp; subst hp))
    | split

theorem State.chanCtrlWrite_keeps {z s : State} {n : Nat} {v : Word} (hz : Keeps z s) :
    Keeps z (State.chanCtrlWrite s n v) := by
  unfold State.chanCtrlWrite
  try dsimp only
  repeat' first
    | (with_reducible intro _)
    | with_reducible assumption
    | with_reducible apply Keeps.ite
    | with_reducible apply State.when_keeps
    | with_reducible apply State.enableChan_keeps
    | with_reducible apply State.mirrorWrite_keeps
    | with_reducible apply State.refuse_keeps
    | simp only [Keeps.mk_iff]
    | with_reducible apply KeepsCore.of
    | (split <;> (rename_i hp; have hp := congrArg Prod.fst hp; dsimp only at hp; subst hp))
    | split

theorem State.setClamp_keeps {z s : State} {n : Nat} {b : Bool} (hz : Keeps z s) :
    Keeps z (State.setClamp s n b) := by
  unfold State.setClamp
  try dsimp only
  repeat' first
    | (with_reducible intro _)
    | with_reducible assumption
    | with_reducible apply Keeps.ite
    | with_reducible apply State.setBit_keeps
    | simp only [Keeps.mk_iff]
    | with_reducible apply KeepsCore.of
    | (split <;> (rename_i hp; have hp := congrArg Prod.fst hp; dsimp only at hp; subst hp))
    | split

theorem State.effortWrite_keeps {z s : State} {n : Nat} {v : Word} (hz : Keeps z s) :
    Keeps z (State.effortWrite s n v) := by
  unfold State.effortWrite
  try dsimp only
  repeat' first
    | (with_reducible intro _)
    | with_reducible assumption
    | with_reducible apply Keeps.ite
    | with_reducible apply State.when_keeps
    | with_reducible apply State.setFld_keeps
    | with_reducible apply State.setClamp_keeps
    | with_reducible apply State.mirrorWrite_keeps
    | with_reducible apply State.refuse_keeps
    | simp only [Keeps.mk_iff]
    | with_reducible apply KeepsCore.of
    | (split <;> (rename_i hp; have hp := congrArg Prod.fst hp; dsimp only at hp; subst hp))
    | split

theorem State.capRateWrite_keeps {z s : State} {n : Nat} {v : Word} (hz : Keeps z s) :
    Keeps z (State.capRateWrite s n v) := by
  unfold State.capRateWrite
  try dsimp only
  repeat' first
    | (with_reducible intro _)
    | with_reducible assumption
    | with_reducible apply Keeps.ite
    | with_reducible apply State.setFld_keeps
    | with_reducible apply State.setClamp_keeps
    | with_reducible apply State.mirrorWrite_keeps
    | with_reducible apply State.when_keeps
    | with_reducible apply State.refuse_keeps
    | simp only [Keeps.mk_iff]
    | with_reducible apply KeepsCore.of
    | (split <;> (rename_i hp; have hp := congrArg Prod.fst hp; dsimp only at hp; subst hp))
    | split

theorem State.capPicWrite_keeps {z s : State} {n : Nat} {v : Word} (hz : Keeps z s) :
    Keeps z (State.capPicWrite s n v) := by
  unfold State.capPicWrite
  try dsimp only
  repeat' first
    | (with_reducible intro _)
    | with_reducible assumption
    | with_reducible apply Keeps.ite
    | with_reducible apply State.wr_keeps
    | with_reducible apply State.mirrorWrite_keeps
    | with_reducible apply State.when_keeps
    | with_reducible apply State.refuse_keeps
    | simp only [Keeps.mk_iff]
    | with_reducible apply KeepsCore.of
    | (split <;> (rename_i hp; have hp := congrArg Prod.fst hp; dsimp only at hp; subst hp))
    | split

theorem State.policerWrite_keeps {z s : State} {i : Nat} {a : Nat} {v : Word} (hz : Keeps z s) :
    Keeps z (State.policerWrite s i a v) := by
  unfold State.policerWrite
  try dsimp only
  repeat' first
    | (with_reducible intro _)
    | with_reducible assumption
    | with_reducible apply Keeps.ite
    | with_reducible apply State.plainWrite_keeps
    | with_reducible apply State.when_keeps
    | with_reducible apply State.refill_keeps
    | simp only [Keeps.mk_iff]
    | with_reducible apply KeepsCore.of
    | (split <;> (rename_i hp; have hp := congrArg Prod.fst hp; dsimp only at hp; subst hp))
    | split

theorem State.traceCtrlWrite_keeps {z s : State} {d : Nat} {v : Word} (hz : Keeps z s) :
    Keeps z (State.traceCtrlWrite s d v) := by
  unfold State.traceCtrlWrite
  try dsimp only
  repeat' first
    | (with_reducible intro _)
    | with_reducible assumption
    | with_reducible apply Keeps.ite
    | with_reducible apply State.plainWrite_keeps
    | with_reducible apply State.when_keeps
    | with_reducible apply State.wr_keeps
    | simp only [Keeps.mk_iff]
    | with_reducible apply KeepsCore.of
    | (split <;> (rename_i hp; have hp := congrArg Prod.fst hp; dsimp only at hp; subst hp))
    | split

theorem State.crcRegWrite_keeps {z s : State} {host : Bool} {d : Nat} {u : Nat} {a : Nat} {v : Word} (hz : Keeps z s) :
    Keeps z (State.crcRegWrite s host d u a v) := by
  unfold State.crcRegWrite
  try dsimp only
  repeat' first
    | (with_reducible intro _)
    | with_reducible assumption
    | with_reducible apply Keeps.ite
    | with_reducible apply State.crcGuard_keeps
    | with_reducible apply State.crcCfgWrite_keeps
    | with_reducible apply State.when_keeps
    | with_reducible apply State.crcStart_keeps
    | with_reducible apply State.crcFeedBytes_keeps
    | with_reducible apply State.plainWrite_keeps
    | simp only [Keeps.mk_iff]
    | with_reducible apply KeepsCore.of
    | (split <;> (rename_i hp; have hp := congrArg Prod.fst hp; dsimp only at hp; subst hp))
    | split

theorem State.chanWrite_keeps {z s : State} {n : Nat} {a : Nat} {v : Word} (hz : Keeps z s) :
    Keeps z (State.chanWrite s n a v) := by
  unfold State.chanWrite
  try dsimp only
  repeat' first
    | (with_reducible intro _)
    | with_reducible assumption
    | with_reducible apply Keeps.ite
    | with_reducible apply State.chanCtrlWrite_keeps
    | with_reducible apply State.effortWrite_keeps
    | with_reducible apply State.capPicWrite_keeps
    | with_reducible apply State.capRateWrite_keeps
    | with_reducible apply State.guardedWrite_keeps
    | with_reducible apply State.when_keeps
    | with_reducible apply State.noteUndo_keeps
    | simp only [Keeps.mk_iff]
    | with_reducible apply KeepsCore.of
    | (split <;> (rename_i hp; have hp := congrArg Prod.fst hp; dsimp only at hp; subst hp))
    | split

theorem State.tmgWrite_keeps {z s : State} {p : Nat} {a : Nat} {v : Word} (hz : Keeps z s) :
    Keeps z (State.tmgWrite s p a v) := by
  unfold State.tmgWrite
  try dsimp only
  repeat' first
    | (with_reducible intro _)
    | with_reducible assumption
    | with_reducible apply Keeps.ite
    | with_reducible apply State.adminWrite_keeps
    | with_reducible apply State.gclCtrlWrite_keeps
    | with_reducible apply State.gclDataWrite_keeps
    | with_reducible apply State.plainWrite_keeps
    | simp only [Keeps.mk_iff]
    | with_reducible apply KeepsCore.of
    | (split <;> (rename_i hp; have hp := congrArg Prod.fst hp; dsimp only at hp; subst hp))
    | split

theorem State.writeReg_keeps {z s : State} {host : Bool} {a : Nat} {v : Word} (hz : Keeps z s) :
    Keeps z (State.writeReg s host a v) := by
  unfold State.writeReg
  try dsimp only
  repeat' first
    | (with_reducible intro _)
    | with_reducible assumption
    | with_reducible apply Keeps.ite
    | with_reducible apply State.emgResetWrite_keeps
    | with_reducible apply State.when_keeps
    | with_reducible apply State.closeRestore_keeps
    | with_reducible apply State.tailWrite_keeps
    | with_reducible apply State.twnCmdWrite_keeps
    | with_reducible apply State.maskWrite_keeps
    | with_reducible apply State.tmgWrite_keeps
    | with_reducible apply State.tfRateWrite_keeps
    | with_reducible apply State.traceCtrlWrite_keeps
    | with_reducible apply State.chanWrite_keeps
    | with_reducible apply State.policerWrite_keeps
    | with_reducible apply State.calWrite_keeps
    | with_reducible apply State.crcRegWrite_keeps
    | with_reducible apply State.plainWrite_keeps
    | simp only [Keeps.mk_iff]
    | with_reducible apply KeepsCore.of
    | (split <;> (rename_i hp; have hp := congrArg Prod.fst hp; dsimp only at hp; subst hp))
    | split

theorem State.pairWrite_keeps {z s : State} {host : Bool} {a : Nat} {x : Nat} {d : RegDef} (hz : Keeps z s) :
    Keeps z (State.pairWrite s host a x d) := by
  unfold State.pairWrite
  try dsimp only
  repeat' first
    | (with_reducible intro _)
    | with_reducible assumption
    | with_reducible apply Keeps.ite
    | with_reducible apply State.crcGuard_keeps
    | with_reducible apply State.crcValueWrite_keeps
    | with_reducible apply State.wr64_keeps
    | with_reducible apply State.when_keeps
    | with_reducible apply State.refuse_keeps
    | simp only [Keeps.mk_iff]
    | with_reducible apply KeepsCore.of
    | (split <;> (rename_i hp; have hp := congrArg Prod.fst hp; dsimp only at hp; subst hp))
    | split

theorem State.writeBus_keeps {z s : State} {mdie : Nat} {mid : Nat} {a : Nat} {v : Word} (hz : Keeps z s) :
    Keeps z (State.writeBus s mdie mid a v) := by
  unfold State.writeBus
  try dsimp only
  repeat' first
    | (with_reducible intro _)
    | with_reducible assumption
    | with_reducible apply Keeps.ite
    | with_reducible apply State.abortLog_keeps
    | with_reducible apply State.posted_keeps
    | with_reducible apply State.holdLo_keeps
    | with_reducible apply State.pairWrite_keeps
    | with_reducible apply State.writeReg_keeps
    | simp only [Keeps.mk_iff]
    | with_reducible apply KeepsCore.of
    | (split <;> (rename_i hp; have hp := congrArg Prod.fst hp; dsimp only at hp; subst hp))
    | split

theorem State.takeLive_keeps {z s : State} {a : Nat} {v : Word} (hz : Keeps z s) :
    Keeps z (State.takeLive s a v) := by
  unfold State.takeLive
  try dsimp only
  repeat' first
    | (with_reducible intro _)
    | with_reducible assumption
    | with_reducible apply Keeps.ite
    | with_reducible apply State.writeReg_keeps
    | simp only [Keeps.mk_iff]
    | with_reducible apply KeepsCore.of
    | (split <;> (rename_i hp; have hp := congrArg Prod.fst hp; dsimp only at hp; subst hp))
    | split

theorem State.takeImage_keeps {z s : State} {e : Nat × Nat} (hz : Keeps z s) :
    Keeps z (State.takeImage s e) := by
  unfold State.takeImage
  try dsimp only
  repeat' first
    | (with_reducible intro _)
    | with_reducible assumption
    | with_reducible apply Keeps.ite
    | with_reducible apply State.when_keeps
    | with_reducible apply State.setFld_keeps
    | with_reducible apply State.modGate_keeps
    | with_reducible apply State.takeLive_keeps
    | simp only [Keeps.mk_iff]
    | with_reducible apply KeepsCore.of
    | (split <;> (rename_i hp; have hp := congrArg Prod.fst hp; dsimp only at hp; subst hp))
    | split

end Sys2Proof.Machine
end

