-- ==== Sys2Proof/Laws/KeepsBeacon.lean ====
section
/-! SUPPORT. One lemma for each operation of Machine/Beacon.lean: it keeps what `Keeps` names. -/

namespace Sys2Proof.Machine

set_option linter.all false

theorem State.beaconReads_keeps {z s : State} {l : List Nat} (hz : Keeps z s) :
    Keeps z (State.beaconReads s l).1 := by
  unfold State.beaconReads
  try dsimp only
  repeat' first
    | (with_reducible intro _)
    | with_reducible assumption
    | with_reducible apply Keeps.ite
    | with_reducible apply Keeps.foldl
    | with_reducible apply Keeps.foldlFst
    | with_reducible apply State.readBus_keeps
    | simp only [Keeps.mk_iff]
    | with_reducible apply KeepsCore.of
    | (split <;> (rename_i hp; have hp := congrArg Prod.fst hp; dsimp only at hp; subst hp))
    | split

theorem State.beaconBlock_keeps {z s : State} {start : Nat} {count : Nat} (hz : Keeps z s) :
    Keeps z (State.beaconBlock s start count).1 := by
  unfold State.beaconBlock
  try dsimp only
  repeat' first
    | (with_reducible intro _)
    | with_reducible assumption
    | with_reducible apply Keeps.ite
    | with_reducible apply Keeps.foldl
    | with_reducible apply Keeps.foldlFst
    | with_reducible apply State.readWord_keeps
    | simp only [Keeps.mk_iff]
    | with_reducible apply KeepsCore.of
    | (split <;> (rename_i hp; have hp := congrArg Prod.fst hp; dsimp only at hp; subst hp))
    | split

theorem execBeaconRead_keeps {z s : State} {dt : Nat} {m : BeaconMsg} (hz : Keeps z s) :
    KeepsOut z (execBeaconRead dt m s) := by
  unfold execBeaconRead
  try dsimp only
  repeat' first
    | (with_reducible intro _)
    | with_reducible assumption
    | with_reducible apply KeepsOut.next
    | with_reducible apply KeepsOut.ite
    | with_reducible apply done_keeps
    | with_reducible apply Keeps.ite
    | with_reducible apply State.elapse_keeps
    | with_reducible apply State.request_keeps
    | with_reducible apply State.respond_keeps
    | with_reducible apply State.beaconReads_keeps
    | with_reducible apply done_keeps
    | simp only [Keeps.mk_iff]
    | with_reducible apply KeepsCore.of
    | (split <;> (rename_i hp; have hp := congrArg Prod.fst hp; dsimp only at hp; subst hp))
    | split

theorem State.beaconWrites_keeps {z s : State} {l : List (Nat × Nat)} (hz : Keeps z s) :
    Keeps z (State.beaconWrites s l).1 := by
  unfold State.beaconWrites
  try dsimp only
  repeat' first
    | (with_reducible intro _)
    | with_reducible assumption
    | with_reducible apply Keeps.ite
    | with_reducible apply Keeps.foldl
    | with_reducible apply Keeps.foldlFst
    | with_reducible apply State.writeBus_keeps
    | with_reducible apply Keeps.foldlFst2
    | simp only [Keeps.mk_iff]
    | with_reducible apply KeepsCore.of
    | (split <;> (rename_i hp; have hp := congrArg Prod.fst hp; dsimp only at hp; subst hp))
    | split

theorem execBeaconWrite_keeps {z s : State} {dt : Nat} {m : BeaconMsg} (hz : Keeps z s) :
    KeepsOut z (execBeaconWrite dt m s) := by
  unfold execBeaconWrite
  try dsimp only
  repeat' first
    | (with_reducible intro _)
    | with_reducible assumption
    | with_reducible apply KeepsOut.next
    | with_reducible apply KeepsOut.ite
    | with_reducible apply done_keeps
    | with_reducible apply Keeps.ite
    | with_reducible apply State.elapse_keeps
    | with_reducible apply State.request_keeps
    | with_reducible apply State.respond_keeps
    | with_reducible apply State.beaconWrites_keeps
    | with_reducible apply done_keeps
    | simp only [Keeps.mk_iff]
    | with_reducible apply KeepsCore.of
    | (split <;> (rename_i hp; have hp := congrArg Prod.fst hp; dsimp only at hp; subst hp))
    | split

theorem execBeaconBlockRead_keeps {z s : State} {dt : Nat} {m : BeaconMsg} {start : Nat} {count : Nat} (hz : Keeps z s) :
    KeepsOut z (execBeaconBlockRead dt m start count s) := by
  unfold execBeaconBlockRead
  try dsimp only
  repeat' first
    | (with_reducible intro _)
    | with_reducible assumption
    | with_reducible apply KeepsOut.next
    | with_reducible apply KeepsOut.ite
    | with_reducible apply done_keeps
    | with_reducible apply Keeps.ite
    | with_reducible apply State.elapse_keeps
    | with_reducible apply State.request_keeps
    | with_reducible apply State.respond_keeps
    | with_reducible apply State.beaconBlock_keeps
    | with_reducible apply done_keeps
    | simp only [Keeps.mk_iff]
    | with_reducible apply KeepsCore.of
    | (split <;> (rename_i hp; have hp := congrArg Prod.fst hp; dsimp only at hp; subst hp))
    | split

theorem State.setSubs_keeps {z s : State} {l : List Sub} (hz : Keeps z s) :
    Keeps z (State.setSubs s l) := by
  unfold State.setSubs
  try dsimp only
  repeat' first
    | (with_reducible intro _)
    | with_reducible assumption
    | with_reducible apply Keeps.ite
    | with_reducible apply Keeps.foldl
    | with_reducible apply Keeps.foldlFst
    | with_reducible apply State.wrN_keeps
    | simp only [Keeps.mk_iff]
    | with_reducible apply KeepsCore.of
    | (split <;> (rename_i hp; have hp := congrArg Prod.fst hp; dsimp only at hp; subst hp))
    | split

theorem State.putSub_keeps {z s : State} {x : Sub} (hz : Keeps z s) :
    Keeps z (State.putSub s x) := by
  unfold State.putSub
  try dsimp only
  repeat' first
    | (with_reducible intro _)
    | with_reducible assumption
    | with_reducible apply Keeps.ite
    | with_reducible apply State.setSubs_keeps
    | simp only [Keeps.mk_iff]
    | with_reducible apply KeepsCore.of
    | (split <;> (rename_i hp; have hp := congrArg Prod.fst hp; dsimp only at hp; subst hp))
    | split

theorem State.subscribe_keeps {z s : State} {m : BeaconMsg} {kind : Nat} {action : Nat} {ps : List Nat} (hz : Keeps z s) :
    Keeps z (State.subscribe s m kind action ps) := by
  unfold State.subscribe
  try dsimp only
  repeat' first
    | (with_reducible intro _)
    | with_reducible assumption
    | with_reducible apply Keeps.ite
    | with_reducible apply State.respond_keeps
    | with_reducible apply State.setSubs_keeps
    | with_reducible apply State.putSub_keeps
    | simp only [Keeps.mk_iff]
    | with_reducible apply KeepsCore.of
    | (split <;> (rename_i hp; have hp := congrArg Prod.fst hp; dsimp only at hp; subst hp))
    | split

theorem execBeaconSubscribe_keeps {z s : State} {dt : Nat} {m : BeaconMsg} {kind : Nat} {action : Nat} {params : List Nat} (hz : Keeps z s) :
    KeepsOut z (execBeaconSubscribe dt m kind action params s) := by
  unfold execBeaconSubscribe
  try dsimp only
  repeat' first
    | (with_reducible intro _)
    | with_reducible assumption
    | with_reducible apply KeepsOut.next
    | with_reducible apply KeepsOut.ite
    | with_reducible apply done_keeps
    | with_reducible apply Keeps.ite
    | with_reducible apply State.elapse_keeps
    | with_reducible apply State.request_keeps
    | with_reducible apply State.subscribe_keeps
    | with_reducible apply done_keeps
    | simp only [Keeps.mk_iff]
    | with_reducible apply KeepsCore.of
    | (split <;> (rename_i hp; have hp := congrArg Prod.fst hp; dsimp only at hp; subst hp))
    | split

theorem execSubscriptionExpiry_keeps {z s : State} {dt : Nat} {i : Fin 8} (hz : Keeps z s) :
    KeepsOut z (execSubscriptionExpiry dt i s) := by
  unfold execSubscriptionExpiry
  try dsimp only
  repeat' first
    | (with_reducible intro _)
    | with_reducible assumption
    | with_reducible apply KeepsOut.next
    | with_reducible apply KeepsOut.ite
    | with_reducible apply done_keeps
    | with_reducible apply Keeps.ite
    | with_reducible apply State.elapse_keeps
    | with_reducible apply State.setSubs_keeps
    | with_reducible apply done_keeps
    | simp only [Keeps.mk_iff]
    | with_reducible apply KeepsCore.of
    | (split <;> (rename_i hp; have hp := congrArg Prod.fst hp; dsimp only at hp; subst hp))
    | split

theorem State.notify_keeps {z s : State} {x : Sub} {payload : List Byte} {lost : Nat} (hz : Keeps z s) :
    Keeps z (State.notify s x payload lost) := by
  unfold State.notify
  try dsimp only
  repeat' first
    | (with_reducible intro _)
    | with_reducible assumption
    | with_reducible apply Keeps.ite
    | with_reducible apply State.bump_keeps
    | with_reducible apply State.putSub_keeps
    | with_reducible apply State.sendBeacon_keeps
    | simp only [Keeps.mk_iff]
    | with_reducible apply KeepsCore.of
    | (split <;> (rename_i hp; have hp := congrArg Prod.fst hp; dsimp only at hp; subst hp))
    | split

theorem execTelemetryNotify_keeps {z s : State} {dt : Nat} {i : Fin 8} (hz : Keeps z s) :
    KeepsOut z (execTelemetryNotify dt i s) := by
  unfold execTelemetryNotify
  try dsimp only
  repeat' first
    | (with_reducible intro _)
    | with_reducible assumption
    | with_reducible apply KeepsOut.next
    | with_reducible apply KeepsOut.ite
    | with_reducible apply done_keeps
    | with_reducible apply Keeps.ite
    | with_reducible apply State.elapse_keeps
    | with_reducible apply State.beaconReads_keeps
    | with_reducible apply State.each_keeps
    | with_reducible apply State.notify_keeps
    | with_reducible apply done_keeps
    | simp only [Keeps.mk_iff]
    | with_reducible apply KeepsCore.of
    | (split <;> (rename_i hp; have hp := congrArg Prod.fst hp; dsimp only at hp; subst hp))
    | split

theorem execEventBatchNotify_keeps {z s : State} {dt : Nat} {i : Fin 8} (hz : Keeps z s) :
    KeepsOut z (execEventBatchNotify dt i s) := by
  unfold execEventBatchNotify
  try dsimp only
  repeat' first
    | (with_reducible intro _)
    | with_reducible assumption
    | with_reducible apply KeepsOut.next
    | with_reducible apply KeepsOut.ite
    | with_reducible apply done_keeps
    | with_reducible apply Keeps.ite
    | with_reducible apply State.elapse_keeps
    | with_reducible apply State.take_keeps
    | with_reducible apply State.putSub_keeps
    | with_reducible apply State.notify_keeps
    | with_reducible apply done_keeps
    | simp only [Keeps.mk_iff]
    | with_reducible apply KeepsCore.of
    | (split <;> (rename_i hp; have hp := congrArg Prod.fst hp; dsimp only at hp; subst hp))
    | split

theorem execTraceNotify_keeps {z s : State} {dt : Nat} {i : Fin 8} (hz : Keeps z s) :
    KeepsOut z (execTraceNotify dt i s) := by
  unfold execTraceNotify
  try dsimp only
  repeat' first
    | (with_reducible intro _)
    | with_reducible assumption
    | with_reducible apply KeepsOut.next
    | with_reducible apply KeepsOut.ite
    | with_reducible apply done_keeps
    | with_reducible apply Keeps.ite
    | with_reducible apply State.elapse_keeps
    | with_reducible apply State.putSub_keeps
    | with_reducible apply State.bump_keeps
    | with_reducible apply State.notify_keeps
    | with_reducible apply done_keeps
    | simp only [Keeps.mk_iff]
    | with_reducible apply KeepsCore.of
    | (split <;> (rename_i hp; have hp := congrArg Prod.fst hp; dsimp only at hp; subst hp))
    | split

end Sys2Proof.Machine
end

