-- ==== Sys2Proof/Laws/KeepsLanes.lean ====
section
/-! SUPPORT. One lemma for each operation of Machine/Lanes.lean: it keeps what `Keeps` names. -/

namespace Sys2Proof.Machine

set_option linter.all false

theorem State.idleRx_keeps {z s : State} {rx : Nat} {tx : Nat} {ack : Nat} {underWay : Bool} (hz : Keeps z s) :
    Keeps z (State.idleRx s rx tx ack underWay) := by
  unfold State.idleRx
  try dsimp only
  repeat' first
    | (with_reducible intro _)
    | with_reducible assumption
    | with_reducible apply Keeps.ite
    | with_reducible apply State.setFld_keeps
    | with_reducible apply State.when_keeps
    | with_reducible apply State.raise_keeps
    | with_reducible apply State.restripe_keeps
    | with_reducible apply State.pump_keeps
    | with_reducible apply done_keeps
    | simp only [Keeps.mk_iff]
    | with_reducible apply KeepsCore.of
    | (split <;> (rename_i hp; have hp := congrArg Prod.fst hp; dsimp only at hp; subst hp))
    | split

theorem execIdleSetRx_keeps {z s : State} {dt : Nat} {lane : Fin 8} {rx : Nat} {tx : Nat} {ack : Nat} {check : Nat} {underWay : Bool} (hz : Keeps z s) :
    KeepsOut z (execIdleSetRx dt lane rx tx ack check underWay s) := by
  unfold execIdleSetRx
  try dsimp only
  repeat' first
    | (with_reducible intro _)
    | with_reducible assumption
    | with_reducible apply KeepsOut.next
    | with_reducible apply KeepsOut.ite
    | with_reducible apply done_keeps
    | with_reducible apply Keeps.ite
    | with_reducible apply State.elapse_keeps
    | with_reducible apply State.commitRecv_keeps
    | with_reducible apply State.idleRx_keeps
    | with_reducible apply done_keeps
    | simp only [Keeps.mk_iff]
    | with_reducible apply KeepsCore.of
    | (split <;> (rename_i hp; have hp := congrArg Prod.fst hp; dsimp only at hp; subst hp))
    | split

theorem execIdleSend_keeps {z s : State} {dt : Nat} (hz : Keeps z s) :
    KeepsOut z (execIdleSend dt s) := by
  unfold execIdleSend
  try dsimp only
  repeat' first
    | (with_reducible intro _)
    | with_reducible assumption
    | with_reducible apply KeepsOut.next
    | with_reducible apply KeepsOut.ite
    | with_reducible apply done_keeps
    | with_reducible apply Keeps.ite
    | with_reducible apply State.elapse_keeps
    | with_reducible apply State.sendIdle_keeps
    | with_reducible apply done_keeps
    | simp only [Keeps.mk_iff]
    | with_reducible apply KeepsCore.of
    | (split <;> (rename_i hp; have hp := congrArg Prod.fst hp; dsimp only at hp; subst hp))
    | split

theorem execSkipSend_keeps {z s : State} {dt : Nat} (hz : Keeps z s) :
    KeepsOut z (execSkipSend dt s) := by
  unfold execSkipSend
  try dsimp only
  repeat' first
    | (with_reducible intro _)
    | with_reducible assumption
    | with_reducible apply KeepsOut.next
    | with_reducible apply KeepsOut.ite
    | with_reducible apply done_keeps
    | with_reducible apply Keeps.ite
    | with_reducible apply State.elapse_keeps
    | with_reducible apply State.send_keeps
    | with_reducible apply done_keeps
    | simp only [Keeps.mk_iff]
    | with_reducible apply KeepsCore.of
    | (split <;> (rename_i hp; have hp := congrArg Prod.fst hp; dsimp only at hp; subst hp))
    | split

theorem State.setElastic_keeps {z s : State} {lane : Nat} {x : Int} (hz : Keeps z s) :
    Keeps z (State.setElastic s lane x) := by
  unfold State.setElastic
  try dsimp only
  repeat' first
    | (with_reducible intro _)
    | with_reducible assumption
    | with_reducible apply Keeps.ite
    | simp only [Keeps.mk_iff]
    | with_reducible apply KeepsCore.of
    | (split <;> (rename_i hp; have hp := congrArg Prod.fst hp; dsimp only at hp; subst hp))
    | split

theorem execSkipSetRx_keeps {z s : State} {dt : Nat} {lane : Fin 8} {drift : Int} (hz : Keeps z s) :
    KeepsOut z (execSkipSetRx dt lane drift s) := by
  unfold execSkipSetRx
  try dsimp only
  repeat' first
    | (with_reducible intro _)
    | with_reducible assumption
    | with_reducible apply KeepsOut.next
    | with_reducible apply KeepsOut.ite
    | with_reducible apply done_keeps
    | with_reducible apply Keeps.ite
    | with_reducible apply State.elapse_keeps
    | with_reducible apply State.commitRecv_keeps
    | with_reducible apply State.loseLane_keeps
    | with_reducible apply State.setElastic_keeps
    | with_reducible apply State.bump_keeps
    | with_reducible apply done_keeps
    | simp only [Keeps.mk_iff]
    | with_reducible apply KeepsCore.of
    | (split <;> (rename_i hp; have hp := congrArg Prod.fst hp; dsimp only at hp; subst hp))
    | split

theorem execAbortSetRx_keeps {z s : State} {dt : Nat} (hz : Keeps z s) :
    KeepsOut z (execAbortSetRx dt s) := by
  unfold execAbortSetRx
  try dsimp only
  repeat' first
    | (with_reducible intro _)
    | with_reducible assumption
    | with_reducible apply KeepsOut.next
    | with_reducible apply KeepsOut.ite
    | with_reducible apply done_keeps
    | with_reducible apply Keeps.ite
    | with_reducible apply State.elapse_keeps
    | with_reducible apply done_keeps
    | simp only [Keeps.mk_iff]
    | with_reducible apply KeepsCore.of
    | (split <;> (rename_i hp; have hp := congrArg Prod.fst hp; dsimp only at hp; subst hp))
    | split

theorem execLanternResendTimeout_keeps {z s : State} {dt : Nat} (hz : Keeps z s) :
    KeepsOut z (execLanternResendTimeout dt s) := by
  unfold execLanternResendTimeout
  try dsimp only
  repeat' first
    | (with_reducible intro _)
    | with_reducible assumption
    | with_reducible apply KeepsOut.next
    | with_reducible apply KeepsOut.ite
    | with_reducible apply done_keeps
    | with_reducible apply Keeps.ite
    | with_reducible apply State.elapse_keeps
    | with_reducible apply State.resendAll_keeps
    | with_reducible apply done_keeps
    | simp only [Keeps.mk_iff]
    | with_reducible apply KeepsCore.of
    | (split <;> (rename_i hp; have hp := congrArg Prod.fst hp; dsimp only at hp; subst hp))
    | split

theorem execLaneLockLoss_keeps {z s : State} {dt : Nat} {d : Fin 8} {n : Fin 10} {underWay : Bool} (hz : Keeps z s) :
    KeepsOut z (execLaneLockLoss dt d n underWay s) := by
  unfold execLaneLockLoss
  try dsimp only
  repeat' first
    | (with_reducible intro _)
    | with_reducible assumption
    | with_reducible apply KeepsOut.next
    | with_reducible apply KeepsOut.ite
    | with_reducible apply done_keeps
    | with_reducible apply Keeps.ite
    | with_reducible apply State.elapse_keeps
    | with_reducible apply State.loseLane_keeps
    | with_reducible apply done_keeps
    | simp only [Keeps.mk_iff]
    | with_reducible apply KeepsCore.of
    | (split <;> (rename_i hp; have hp := congrArg Prod.fst hp; dsimp only at hp; subst hp))
    | split

theorem execLaneLockAcquire_keeps {z s : State} {dt : Nat} {d : Fin 8} {n : Fin 10} {underWay : Bool} (hz : Keeps z s) :
    KeepsOut z (execLaneLockAcquire dt d n underWay s) := by
  unfold execLaneLockAcquire
  try dsimp only
  repeat' first
    | (with_reducible intro _)
    | with_reducible assumption
    | with_reducible apply KeepsOut.next
    | with_reducible apply KeepsOut.ite
    | with_reducible apply done_keeps
    | with_reducible apply Keeps.ite
    | with_reducible apply State.elapse_keeps
    | with_reducible apply State.setBit_keeps
    | with_reducible apply State.setLane_keeps
    | with_reducible apply State.setFld_keeps
    | with_reducible apply State.restripe_keeps
    | with_reducible apply done_keeps
    | simp only [Keeps.mk_iff]
    | with_reducible apply KeepsCore.of
    | (split <;> (rename_i hp; have hp := congrArg Prod.fst hp; dsimp only at hp; subst hp))
    | split

theorem execLaneJoin_keeps {z s : State} {dt : Nat} {lane : Fin 8} {skewed : Bool} (hz : Keeps z s) :
    KeepsOut z (execLaneJoin dt lane skewed s) := by
  unfold execLaneJoin
  try dsimp only
  repeat' first
    | (with_reducible intro _)
    | with_reducible assumption
    | with_reducible apply KeepsOut.next
    | with_reducible apply KeepsOut.ite
    | with_reducible apply done_keeps
    | with_reducible apply Keeps.ite
    | with_reducible apply State.elapse_keeps
    | with_reducible apply State.bump_keeps
    | with_reducible apply State.setRxLanes_keeps
    | with_reducible apply done_keeps
    | simp only [Keeps.mk_iff]
    | with_reducible apply KeepsCore.of
    | (split <;> (rename_i hp; have hp := congrArg Prod.fst hp; dsimp only at hp; subst hp))
    | split

theorem State.fecInterval_keeps {z s : State} {p : Nat} {n : Nat} {corr : Nat} {uncorr : Nat} (hz : Keeps z s) :
    Keeps z (State.fecInterval s p n corr uncorr) := by
  unfold State.fecInterval
  try dsimp only
  repeat' first
    | (with_reducible intro _)
    | with_reducible assumption
    | with_reducible apply Keeps.ite
    | with_reducible apply State.bump64_keeps
    | with_reducible apply State.bump_keeps
    | with_reducible apply State.when_keeps
    | with_reducible apply State.subOutage_keeps
    | simp only [Keeps.mk_iff]
    | with_reducible apply KeepsCore.of
    | (split <;> (rename_i hp; have hp := congrArg Prod.fst hp; dsimp only at hp; subst hp))
    | split

theorem execFomUpdate_keeps {z s : State} {dt : Nat} {d : Fin 8} {n : Fin 10} {eye : EyeScan} {viol : Nat} {corr : Nat} {uncorr : Nat} (hz : Keeps z s) :
    KeepsOut z (execFomUpdate dt d n eye viol corr uncorr s) := by
  unfold execFomUpdate
  try dsimp only
  repeat' first
    | (with_reducible intro _)
    | with_reducible assumption
    | with_reducible apply KeepsOut.next
    | with_reducible apply KeepsOut.ite
    | with_reducible apply done_keeps
    | with_reducible apply Keeps.ite
    | with_reducible apply State.elapse_keeps
    | with_reducible apply State.bump_keeps
    | with_reducible apply State.verifyLane_keeps
    | with_reducible apply State.when_keeps
    | with_reducible apply State.fecInterval_keeps
    | with_reducible apply State.setFld_keeps
    | with_reducible apply State.setLane_keeps
    | with_reducible apply State.recvGood_keeps
    | with_reducible apply State.setBit_keeps
    | with_reducible apply State.laneNotGood_keeps
    | with_reducible apply done_keeps
    | simp only [Keeps.mk_iff]
    | with_reducible apply KeepsCore.of
    | (split <;> (rename_i hp; have hp := congrArg Prod.fst hp; dsimp only at hp; subst hp))
    | split

theorem execSubportUp_keeps {z s : State} {dt : Nat} {p : Fin 8} {q : Fin 4} (hz : Keeps z s) :
    KeepsOut z (execSubportUp dt p q s) := by
  unfold execSubportUp
  try dsimp only
  repeat' first
    | (with_reducible intro _)
    | with_reducible assumption
    | with_reducible apply KeepsOut.next
    | with_reducible apply KeepsOut.ite
    | with_reducible apply done_keeps
    | with_reducible apply Keeps.ite
    | with_reducible apply State.elapse_keeps
    | with_reducible apply State.setPath_keeps
    | with_reducible apply State.setFld_keeps
    | with_reducible apply State.raise_keeps
    | with_reducible apply done_keeps
    | simp only [Keeps.mk_iff]
    | with_reducible apply KeepsCore.of
    | (split <;> (rename_i hp; have hp := congrArg Prod.fst hp; dsimp only at hp; subst hp))
    | split

theorem execMgmtLinkChange_keeps {z s : State} {dt : Nat} {up : Bool} {refused : Bool} {errs : Nat} (hz : Keeps z s) :
    KeepsOut z (execMgmtLinkChange dt up refused errs s) := by
  unfold execMgmtLinkChange
  try dsimp only
  repeat' first
    | (with_reducible intro _)
    | with_reducible assumption
    | with_reducible apply KeepsOut.next
    | with_reducible apply KeepsOut.ite
    | with_reducible apply done_keeps
    | with_reducible apply Keeps.ite
    | with_reducible apply State.elapse_keeps
    | with_reducible apply State.bump_keeps
    | with_reducible apply State.setBit_keeps
    | with_reducible apply State.when_keeps
    | with_reducible apply State.raise_keeps
    | with_reducible apply done_keeps
    | simp only [Keeps.mk_iff]
    | with_reducible apply KeepsCore.of
    | (split <;> (rename_i hp; have hp := congrArg Prod.fst hp; dsimp only at hp; subst hp))
    | split

end Sys2Proof.Machine
end

