-- ==== Sys2Proof/Laws/KeepsRegister.lean ====
section
/-! SUPPORT. One lemma for each operation of Machine/Register.lean: it keeps what `Keeps` names. -/

namespace Sys2Proof.Machine

set_option linter.all false

theorem execReg64LoRead_keeps {z s : State} {dt : Nat} {mdie : Fin 8} {mid : Fin 4} {addr : Nat} (hz : Keeps z s) :
    KeepsOut z (execReg64LoRead dt mdie mid addr s) := by
  unfold execReg64LoRead
  try dsimp only
  repeat' first
    | (with_reducible intro _)
    | with_reducible assumption
    | with_reducible apply KeepsOut.next
    | with_reducible apply KeepsOut.ite
    | with_reducible apply done_keeps
    | with_reducible apply Keeps.ite
    | with_reducible apply State.elapse_keeps
    | with_reducible apply State.readBus_keeps
    | with_reducible apply State.send_keeps
    | with_reducible apply done_keeps
    | simp only [Keeps.mk_iff]
    | with_reducible apply KeepsCore.of
    | (split <;> (rename_i hp; have hp := congrArg Prod.fst hp; dsimp only at hp; subst hp))
    | split

theorem execCalCtxRead_keeps {z s : State} {dt : Nat} {mdie : Fin 8} {mid : Fin 4} {r : Fin 144} (hz : Keeps z s) :
    KeepsOut z (execCalCtxRead dt mdie mid r s) := by
  unfold execCalCtxRead
  try dsimp only
  repeat' first
    | (with_reducible intro _)
    | with_reducible assumption
    | with_reducible apply KeepsOut.next
    | with_reducible apply KeepsOut.ite
    | with_reducible apply done_keeps
    | with_reducible apply Keeps.ite
    | with_reducible apply State.elapse_keeps
    | with_reducible apply State.readBus_keeps
    | with_reducible apply State.send_keeps
    | with_reducible apply done_keeps
    | simp only [Keeps.mk_iff]
    | with_reducible apply KeepsCore.of
    | (split <;> (rename_i hp; have hp := congrArg Prod.fst hp; dsimp only at hp; subst hp))
    | split

theorem execCalSigRead_keeps {z s : State} {dt : Nat} {mdie : Fin 8} {mid : Fin 4} {r : Fin 144} (hz : Keeps z s) :
    KeepsOut z (execCalSigRead dt mdie mid r s) := by
  unfold execCalSigRead
  try dsimp only
  repeat' first
    | (with_reducible intro _)
    | with_reducible assumption
    | with_reducible apply KeepsOut.next
    | with_reducible apply KeepsOut.ite
    | with_reducible apply done_keeps
    | with_reducible apply Keeps.ite
    | with_reducible apply State.elapse_keeps
    | with_reducible apply State.readBus_keeps
    | with_reducible apply State.send_keeps
    | with_reducible apply done_keeps
    | simp only [Keeps.mk_iff]
    | with_reducible apply KeepsCore.of
    | (split <;> (rename_i hp; have hp := congrArg Prod.fst hp; dsimp only at hp; subst hp))
    | split

theorem execReg64LoWrite_keeps {z s : State} {dt : Nat} {mdie : Fin 8} {mid : Fin 4} {addr : Nat} {v : Word} (hz : Keeps z s) :
    KeepsOut z (execReg64LoWrite dt mdie mid addr v s) := by
  unfold execReg64LoWrite
  try dsimp only
  repeat' first
    | (with_reducible intro _)
    | with_reducible assumption
    | with_reducible apply KeepsOut.next
    | with_reducible apply KeepsOut.ite
    | with_reducible apply done_keeps
    | with_reducible apply Keeps.ite
    | with_reducible apply State.elapse_keeps
    | with_reducible apply State.writeBus_keeps
    | with_reducible apply done_keeps
    | simp only [Keeps.mk_iff]
    | with_reducible apply KeepsCore.of
    | (split <;> (rename_i hp; have hp := congrArg Prod.fst hp; dsimp only at hp; subst hp))
    | split

theorem execReg64HiWrite_keeps {z s : State} {dt : Nat} {mdie : Fin 8} {mid : Fin 4} {addr : Nat} {v : Word} (hz : Keeps z s) :
    KeepsOut z (execReg64HiWrite dt mdie mid addr v s) := by
  unfold execReg64HiWrite
  try dsimp only
  repeat' first
    | (with_reducible intro _)
    | with_reducible assumption
    | with_reducible apply KeepsOut.next
    | with_reducible apply KeepsOut.ite
    | with_reducible apply done_keeps
    | with_reducible apply Keeps.ite
    | with_reducible apply State.elapse_keeps
    | with_reducible apply State.writeBus_keeps
    | with_reducible apply done_keeps
    | simp only [Keeps.mk_iff]
    | with_reducible apply KeepsCore.of
    | (split <;> (rename_i hp; have hp := congrArg Prod.fst hp; dsimp only at hp; subst hp))
    | split

theorem execRegisterWrite_keeps {z s : State} {dt : Nat} {mdie : Fin 8} {mid : Fin 4} {addr : Nat} {v : Word} (hz : Keeps z s) :
    KeepsOut z (execRegisterWrite dt mdie mid addr v s) := by
  unfold execRegisterWrite
  try dsimp only
  repeat' first
    | (with_reducible intro _)
    | with_reducible assumption
    | with_reducible apply KeepsOut.next
    | with_reducible apply KeepsOut.ite
    | with_reducible apply done_keeps
    | with_reducible apply Keeps.ite
    | with_reducible apply State.elapse_keeps
    | with_reducible apply State.writeBus_keeps
    | with_reducible apply done_keeps
    | simp only [Keeps.mk_iff]
    | with_reducible apply KeepsCore.of
    | (split <;> (rename_i hp; have hp := congrArg Prod.fst hp; dsimp only at hp; subst hp))
    | split

theorem execEvtTailWrite_keeps {z s : State} {dt : Nat} {v : Word} (hz : Keeps z s) :
    KeepsOut z (execEvtTailWrite dt v s) := by
  unfold execEvtTailWrite
  try dsimp only
  repeat' first
    | (with_reducible intro _)
    | with_reducible assumption
    | with_reducible apply KeepsOut.next
    | with_reducible apply KeepsOut.ite
    | with_reducible apply done_keeps
    | with_reducible apply Keeps.ite
    | with_reducible apply State.elapse_keeps
    | with_reducible apply State.tailWrite_keeps
    | with_reducible apply done_keeps
    | simp only [Keeps.mk_iff]
    | with_reducible apply KeepsCore.of
    | (split <;> (rename_i hp; have hp := congrArg Prod.fst hp; dsimp only at hp; subst hp))
    | split

theorem execRateLimitWindowClose_keeps {z s : State} {dt : Nat} {src : Nat} (hz : Keeps z s) :
    KeepsOut z (execRateLimitWindowClose dt src s) := by
  unfold execRateLimitWindowClose
  try dsimp only
  repeat' first
    | (with_reducible intro _)
    | with_reducible assumption
    | with_reducible apply KeepsOut.next
    | with_reducible apply KeepsOut.ite
    | with_reducible apply done_keeps
    | with_reducible apply Keeps.ite
    | with_reducible apply State.elapse_keeps
    | with_reducible apply State.closeWindow_keeps
    | with_reducible apply done_keeps
    | simp only [Keeps.mk_iff]
    | with_reducible apply KeepsCore.of
    | (split <;> (rename_i hp; have hp := congrArg Prod.fst hp; dsimp only at hp; subst hp))
    | split

theorem execFtPolWrite_keeps {z s : State} {dt : Nat} {entry : Fin 65536} {burst : Bool} {v : Word} (hz : Keeps z s) :
    KeepsOut z (execFtPolWrite dt entry burst v s) := by
  unfold execFtPolWrite
  try dsimp only
  repeat' first
    | (with_reducible intro _)
    | with_reducible assumption
    | with_reducible apply KeepsOut.next
    | with_reducible apply KeepsOut.ite
    | with_reducible apply done_keeps
    | with_reducible apply Keeps.ite
    | with_reducible apply State.elapse_keeps
    | with_reducible apply State.policerWrite_keeps
    | with_reducible apply done_keeps
    | simp only [Keeps.mk_iff]
    | with_reducible apply KeepsCore.of
    | (split <;> (rename_i hp; have hp := congrArg Prod.fst hp; dsimp only at hp; subst hp))
    | split

theorem execAudSlotMaskWrite_keeps {z s : State} {dt : Nat} {p : Fin 16} {v : Word} (hz : Keeps z s) :
    KeepsOut z (execAudSlotMaskWrite dt p v s) := by
  unfold execAudSlotMaskWrite
  try dsimp only
  repeat' first
    | (with_reducible intro _)
    | with_reducible assumption
    | with_reducible apply KeepsOut.next
    | with_reducible apply KeepsOut.ite
    | with_reducible apply done_keeps
    | with_reducible apply Keeps.ite
    | with_reducible apply State.elapse_keeps
    | with_reducible apply State.maskWrite_keeps
    | with_reducible apply done_keeps
    | simp only [Keeps.mk_iff]
    | with_reducible apply KeepsCore.of
    | (split <;> (rename_i hp; have hp := congrArg Prod.fst hp; dsimp only at hp; subst hp))
    | split

theorem execAudCsTxWrite_keeps {z s : State} {dt : Nat} {p : Fin 16} {b : Bool} {i : Fin 6} {v : Word} (hz : Keeps z s) :
    KeepsOut z (execAudCsTxWrite dt p b i v s) := by
  unfold execAudCsTxWrite
  try dsimp only
  repeat' first
    | (with_reducible intro _)
    | with_reducible assumption
    | with_reducible apply KeepsOut.next
    | with_reducible apply KeepsOut.ite
    | with_reducible apply done_keeps
    | with_reducible apply Keeps.ite
    | with_reducible apply State.elapse_keeps
    | with_reducible apply State.plainWrite_keeps
    | with_reducible apply done_keeps
    | simp only [Keeps.mk_iff]
    | with_reducible apply KeepsCore.of
    | (split <;> (rename_i hp; have hp := congrArg Prod.fst hp; dsimp only at hp; subst hp))
    | split

theorem execAudEnableWrite_keeps {z s : State} {dt : Nat} {p : Fin 16} {enable : Bool} (hz : Keeps z s) :
    KeepsOut z (execAudEnableWrite dt p enable s) := by
  unfold execAudEnableWrite
  try dsimp only
  repeat' first
    | (with_reducible intro _)
    | with_reducible assumption
    | with_reducible apply KeepsOut.next
    | with_reducible apply KeepsOut.ite
    | with_reducible apply done_keeps
    | with_reducible apply Keeps.ite
    | with_reducible apply State.elapse_keeps
    | with_reducible apply State.plainWrite_keeps
    | with_reducible apply done_keeps
    | simp only [Keeps.mk_iff]
    | with_reducible apply KeepsCore.of
    | (split <;> (rename_i hp; have hp := congrArg Prod.fst hp; dsimp only at hp; subst hp))
    | split

theorem execTrcRestart_keeps {z s : State} {dt : Nat} {d : Fin 8} {v : Word} (hz : Keeps z s) :
    KeepsOut z (execTrcRestart dt d v s) := by
  unfold execTrcRestart
  try dsimp only
  repeat' first
    | (with_reducible intro _)
    | with_reducible assumption
    | with_reducible apply KeepsOut.next
    | with_reducible apply KeepsOut.ite
    | with_reducible apply done_keeps
    | with_reducible apply Keeps.ite
    | with_reducible apply State.elapse_keeps
    | with_reducible apply State.traceCtrlWrite_keeps
    | with_reducible apply done_keeps
    | simp only [Keeps.mk_iff]
    | with_reducible apply KeepsCore.of
    | (split <;> (rename_i hp; have hp := congrArg Prod.fst hp; dsimp only at hp; subst hp))
    | split

theorem execLiveWriteRx_keeps {z s : State} {dt : Nat} {h : LHeader} {addr : Nat} {v : Word} (hz : Keeps z s) :
    KeepsOut z (execLiveWriteRx dt h addr v s) := by
  unfold execLiveWriteRx
  try dsimp only
  repeat' first
    | (with_reducible intro _)
    | with_reducible assumption
    | with_reducible apply KeepsOut.next
    | with_reducible apply KeepsOut.ite
    | with_reducible apply done_keeps
    | with_reducible apply Keeps.ite
    | with_reducible apply State.elapse_keeps
    | with_reducible apply State.lanternRx_keeps
    | with_reducible apply State.when_keeps
    | with_reducible apply State.takeLive_keeps
    | with_reducible apply done_keeps
    | simp only [Keeps.mk_iff]
    | with_reducible apply KeepsCore.of
    | (split <;> (rename_i hp; have hp := congrArg Prod.fst hp; dsimp only at hp; subst hp))
    | split

theorem execLiveRegisterImageRx_keeps {z s : State} {dt : Nat} {h : LHeader} {fields : List (Nat × Nat)} (hz : Keeps z s) :
    KeepsOut z (execLiveRegisterImageRx dt h fields s) := by
  unfold execLiveRegisterImageRx
  try dsimp only
  repeat' first
    | (with_reducible intro _)
    | with_reducible assumption
    | with_reducible apply KeepsOut.next
    | with_reducible apply KeepsOut.ite
    | with_reducible apply done_keeps
    | with_reducible apply Keeps.ite
    | with_reducible apply State.elapse_keeps
    | with_reducible apply State.lanternRx_keeps
    | with_reducible apply State.when_keeps
    | with_reducible apply State.each_keeps
    | with_reducible apply State.takeImage_keeps
    | with_reducible apply done_keeps
    | simp only [Keeps.mk_iff]
    | with_reducible apply KeepsCore.of
    | (split <;> (rename_i hp; have hp := congrArg Prod.fst hp; dsimp only at hp; subst hp))
    | split

end Sys2Proof.Machine
end

