-- ==== Sys2Proof/Laws/KeepsService.lean ====
section
/-! SUPPORT. One lemma for each operation of Machine/Service.lean: it keeps what `Keeps` names. -/

namespace Sys2Proof.Machine

set_option linter.all false

theorem State.answer_keeps {z s : State} {port : Option Nat} {sub : Nat} {len : Nat} {kind : Nat} {dst : Nat} {groups : List (List Nat)} (hz : Keeps z s) :
    Keeps z (State.answer s port sub len kind dst groups) := by
  unfold State.answer
  try dsimp only
  repeat' first
    | (with_reducible intro _)
    | with_reducible assumption
    | with_reducible apply Keeps.ite
    | with_reducible apply State.send_keeps
    | with_reducible apply State.toSub_keeps
    | simp only [Keeps.mk_iff]
    | with_reducible apply KeepsCore.of
    | (split <;> (rename_i hp; have hp := congrArg Prod.fst hp; dsimp only at hp; subst hp))
    | split

theorem State.countMgmt_keeps {z s : State} {port : Option Nat} (hz : Keeps z s) :
    Keeps z (State.countMgmt s port) := by
  unfold State.countMgmt
  try dsimp only
  repeat' first
    | (with_reducible intro _)
    | with_reducible assumption
    | with_reducible apply Keeps.ite
    | with_reducible apply State.when_keeps
    | with_reducible apply State.bump_keeps
    | simp only [Keeps.mk_iff]
    | with_reducible apply KeepsCore.of
    | (split <;> (rename_i hp; have hp := congrArg Prod.fst hp; dsimp only at hp; subst hp))
    | split

theorem execArpRx_keeps {z s : State} {dt : Nat} {port : Option (Fin 8)} {sub : Fin 4} {src : Nat} {own : AddrRequest} (hz : Keeps z s) :
    KeepsOut z (execArpRx dt port sub src own s) := by
  unfold execArpRx
  try dsimp only
  repeat' first
    | (with_reducible intro _)
    | with_reducible assumption
    | with_reducible apply KeepsOut.next
    | with_reducible apply KeepsOut.ite
    | with_reducible apply done_keeps
    | with_reducible apply Keeps.ite
    | with_reducible apply State.elapse_keeps
    | with_reducible apply State.countMgmt_keeps
    | with_reducible apply State.when_keeps
    | with_reducible apply State.answer_keeps
    | with_reducible apply done_keeps
    | simp only [Keeps.mk_iff]
    | with_reducible apply KeepsCore.of
    | (split <;> (rename_i hp; have hp := congrArg Prod.fst hp; dsimp only at hp; subst hp))
    | split

theorem State.echoOk_keeps {z s : State} {p : Nat} (hz : Keeps z s) :
    Keeps z (State.echoOk s p).1 := by
  unfold State.echoOk
  try dsimp only
  repeat' first
    | (with_reducible intro _)
    | with_reducible assumption
    | with_reducible apply Keeps.ite
    | simp only [Keeps.mk_iff]
    | with_reducible apply KeepsCore.of
    | (split <;> (rename_i hp; have hp := congrArg Prod.fst hp; dsimp only at hp; subst hp))
    | split

theorem execIcmpEchoRx_keeps {z s : State} {dt : Nat} {port : Option (Fin 8)} {sub : Fin 4} {src : Nat} {len : Nat} (hz : Keeps z s) :
    KeepsOut z (execIcmpEchoRx dt port sub src len s) := by
  unfold execIcmpEchoRx
  try dsimp only
  repeat' first
    | (with_reducible intro _)
    | with_reducible assumption
    | with_reducible apply KeepsOut.next
    | with_reducible apply KeepsOut.ite
    | with_reducible apply done_keeps
    | with_reducible apply Keeps.ite
    | with_reducible apply State.elapse_keeps
    | with_reducible apply State.countMgmt_keeps
    | with_reducible apply State.answer_keeps
    | with_reducible apply State.echoOk_keeps
    | with_reducible apply State.bump_keeps
    | with_reducible apply done_keeps
    | simp only [Keeps.mk_iff]
    | with_reducible apply KeepsCore.of
    | (split <;> (rename_i hp; have hp := congrArg Prod.fst hp; dsimp only at hp; subst hp))
    | split

theorem execIgmpQueryRx_keeps {z s : State} {dt : Nat} {port : Fin 8} {sub : Fin 4} {mld : Bool} (hz : Keeps z s) :
    KeepsOut z (execIgmpQueryRx dt port sub mld s) := by
  unfold execIgmpQueryRx
  try dsimp only
  repeat' first
    | (with_reducible intro _)
    | with_reducible assumption
    | with_reducible apply KeepsOut.next
    | with_reducible apply KeepsOut.ite
    | with_reducible apply done_keeps
    | with_reducible apply Keeps.ite
    | with_reducible apply State.elapse_keeps
    | with_reducible apply State.answer_keeps
    | with_reducible apply done_keeps
    | simp only [Keeps.mk_iff]
    | with_reducible apply KeepsCore.of
    | (split <;> (rename_i hp; have hp := congrArg Prod.fst hp; dsimp only at hp; subst hp))
    | split

theorem State.setI2c_keeps {z s : State} {ptr : Nat} {busy : Bool} (hz : Keeps z s) :
    Keeps z (State.setI2c s ptr busy) := by
  unfold State.setI2c
  try dsimp only
  repeat' first
    | (with_reducible intro _)
    | with_reducible assumption
    | with_reducible apply Keeps.ite
    | simp only [Keeps.mk_iff]
    | with_reducible apply KeepsCore.of
    | (split <;> (rename_i hp; have hp := congrArg Prod.fst hp; dsimp only at hp; subst hp))
    | split

theorem execI2cPointerWrite_keeps {z s : State} {dt : Nat} {v : Byte} (hz : Keeps z s) :
    KeepsOut z (execI2cPointerWrite dt v s) := by
  unfold execI2cPointerWrite
  try dsimp only
  repeat' first
    | (with_reducible intro _)
    | with_reducible assumption
    | with_reducible apply KeepsOut.next
    | with_reducible apply KeepsOut.ite
    | with_reducible apply done_keeps
    | with_reducible apply Keeps.ite
    | with_reducible apply State.elapse_keeps
    | with_reducible apply State.setI2c_keeps
    | with_reducible apply done_keeps
    | simp only [Keeps.mk_iff]
    | with_reducible apply KeepsCore.of
    | (split <;> (rename_i hp; have hp := congrArg Prod.fst hp; dsimp only at hp; subst hp))
    | split

theorem execI2cRead_keeps {z s : State} {dt : Nat} {len : Nat} {stop : Bool} (hz : Keeps z s) :
    KeepsOut z (execI2cRead dt len stop s) := by
  unfold execI2cRead
  try dsimp only
  repeat' first
    | (with_reducible intro _)
    | with_reducible assumption
    | with_reducible apply KeepsOut.next
    | with_reducible apply KeepsOut.ite
    | with_reducible apply done_keeps
    | with_reducible apply Keeps.ite
    | with_reducible apply State.elapse_keeps
    | with_reducible apply State.send_keeps
    | with_reducible apply State.setI2c_keeps
    | with_reducible apply done_keeps
    | simp only [Keeps.mk_iff]
    | with_reducible apply KeepsCore.of
    | (split <;> (rename_i hp; have hp := congrArg Prod.fst hp; dsimp only at hp; subst hp))
    | split

theorem execI2cWindowRefresh_keeps {z s : State} {dt : Nat} (hz : Keeps z s) :
    KeepsOut z (execI2cWindowRefresh dt s) := by
  unfold execI2cWindowRefresh
  try dsimp only
  repeat' first
    | (with_reducible intro _)
    | with_reducible assumption
    | with_reducible apply KeepsOut.next
    | with_reducible apply KeepsOut.ite
    | with_reducible apply done_keeps
    | with_reducible apply Keeps.ite
    | with_reducible apply State.elapse_keeps
    | with_reducible apply State.i2cRefresh_keeps
    | with_reducible apply done_keeps
    | simp only [Keeps.mk_iff]
    | with_reducible apply KeepsCore.of
    | (split <;> (rename_i hp; have hp := congrArg Prod.fst hp; dsimp only at hp; subst hp))
    | split

theorem execI2cTimeout_keeps {z s : State} {dt : Nat} (hz : Keeps z s) :
    KeepsOut z (execI2cTimeout dt s) := by
  unfold execI2cTimeout
  try dsimp only
  repeat' first
    | (with_reducible intro _)
    | with_reducible assumption
    | with_reducible apply KeepsOut.next
    | with_reducible apply KeepsOut.ite
    | with_reducible apply done_keeps
    | with_reducible apply Keeps.ite
    | with_reducible apply State.elapse_keeps
    | with_reducible apply State.setI2c_keeps
    | with_reducible apply done_keeps
    | simp only [Keeps.mk_iff]
    | with_reducible apply KeepsCore.of
    | (split <;> (rename_i hp; have hp := congrArg Prod.fst hp; dsimp only at hp; subst hp))
    | split

theorem execJtagInstruction_keeps {z s : State} {dt : Nat} {kind : Fin 3} {capture : Nat} (hz : Keeps z s) :
    KeepsOut z (execJtagInstruction dt kind capture s) := by
  unfold execJtagInstruction
  try dsimp only
  repeat' first
    | (with_reducible intro _)
    | with_reducible assumption
    | with_reducible apply KeepsOut.next
    | with_reducible apply KeepsOut.ite
    | with_reducible apply done_keeps
    | with_reducible apply Keeps.ite
    | with_reducible apply State.elapse_keeps
    | with_reducible apply State.send_keeps
    | with_reducible apply done_keeps
    | simp only [Keeps.mk_iff]
    | with_reducible apply KeepsCore.of
    | (split <;> (rename_i hp; have hp := congrArg Prod.fst hp; dsimp only at hp; subst hp))
    | split

end Sys2Proof.Machine
end

