-- ==== Sys2Proof/Laws/Dispatch.lean ====
section
/-! SUPPORT. Every command keeps what `Keeps` names: the arms of exec, each by the lemma of its meaning. -/

namespace Sys2Proof.Machine

/-- Whatever command runs, a next state keeps the queue, the canonical tables, the fuses already blown, and what was drawn and
sent. -/
theorem exec_keeps (i : Instr) (s : State) : KeepsOut s (exec i s) :=
  match i with
  | .resetNAssert .. => execResetNAssert_keeps (Keeps.refl s)
  | .e0Start .. => execE0Start_keeps (Keeps.refl s)
  | .railLoss .. => execRailLoss_keeps (Keeps.refl s)
  | .vcoreRailInRange .. => execVcoreRailInRange_keeps (Keeps.refl s)
  | .vcoreRangeTimeout .. => execVcoreRangeTimeout_keeps (Keeps.refl s)
  | .e0Complete .. => execE0Complete_keeps (Keeps.refl s)
  | .dieSelfTestDone .. => execDieSelfTestDone_keeps (Keeps.refl s)
  | .e1DieTimeout .. => execE1DieTimeout_keeps (Keeps.refl s)
  | .e2Complete .. => execE2Complete_keeps (Keeps.refl s)
  | .imageLoadDone .. => execImageLoadDone_keeps (Keeps.refl s)
  | .haltedRescan .. => execHaltedRescan_keeps (Keeps.refl s)
  | .restoreDone .. => execRestoreDone_keeps (Keeps.refl s)
  | .restoreWindowTimeout .. => execRestoreWindowTimeout_keeps (Keeps.refl s)
  | .memoryTrainingDone .. => execMemoryTrainingDone_keeps (Keeps.refl s)
  | .memoryFillDone .. => execMemoryFillDone_keeps (Keeps.refl s)
  | .laneUpTimeout .. => execLaneUpTimeout_keeps (Keeps.refl s)
  | .e5Complete .. => execE5Complete_keeps (Keeps.refl s)
  | .timeAcquisitionTimeout .. => execTimeAcquisitionTimeout_keeps (Keeps.refl s)
  | .twinJoinTimeout .. => execTwinJoinTimeout_keeps (Keeps.refl s)
  | .admission .. => execAdmission_keeps (Keeps.refl s)
  | .e8Timeout .. => execE8Timeout_keeps (Keeps.refl s)
  | .emgReset .. => execEmgReset_keeps (Keeps.refl s)
  | .flashOpen .. => execFlashOpen_keeps (Keeps.refl s)
  | .flashData .. => execFlashData_keeps (Keeps.refl s)
  | .flashCommit .. => execFlashCommit_keeps (Keeps.refl s)
  | .flashAbort .. => execFlashAbort_keeps (Keeps.refl s)
  | .flashSessionTimeout .. => execFlashSessionTimeout_keeps (Keeps.refl s)
  | .keyClaim .. => execKeyClaim_keeps (Keeps.refl s)
  | .wearLogAppend .. => execWearLogAppend_keeps (Keeps.refl s)
  | .chnEnableWrite .. => execChnEnableWrite_keeps (Keeps.refl s)
  | .channelDisabled .. => execChannelDisabled_keeps (Keeps.refl s)
  | .pictureBoundary .. => execPictureBoundary_keeps (Keeps.refl s)
  | .controlStep .. => execControlStep_keeps (Keeps.refl s)
  | .mediaFrameRx .. => execMediaFrameRx_keeps (Keeps.refl s)
  | .pathDown .. => execPathDown_keeps (Keeps.refl s)
  | .tsGapPass .. => execTsGapPass_keeps (Keeps.refl s)
  | .slotEmpty .. => execSlotEmpty_keeps (Keeps.refl s)
  | .bandDeadline .. => execBandDeadline_keeps (Keeps.refl s)
  | .ftPolWrite .. => execFtPolWrite_keeps (Keeps.refl s)
  | .recordWaitTimeout .. => execRecordWaitTimeout_keeps (Keeps.refl s)
  | .preparationDone .. => execPreparationDone_keeps (Keeps.refl s)
  | .allocationWaitEnd .. => execAllocationWaitEnd_keeps (Keeps.refl s)
  | .takeRequest .. => execTakeRequest_keeps (Keeps.refl s)
  | .workComplete .. => execWorkComplete_keeps (Keeps.refl s)
  | .workFault .. => execWorkFault_keeps (Keeps.refl s)
  | .channelTagFault .. => execChannelTagFault_keeps (Keeps.refl s)
  | .stallWatchdog .. => execStallWatchdog_keeps (Keeps.refl s)
  | .bandTimingDeparture .. => execBandTimingDeparture_keeps (Keeps.refl s)
  | .engineResetDone .. => execEngineResetDone_keeps (Keeps.refl s)
  | .engineResetTimeout .. => execEngineResetTimeout_keeps (Keeps.refl s)
  | .trcRestart .. => execTrcRestart_keeps (Keeps.refl s)
  | .datagramClose .. => execDatagramClose_keeps (Keeps.refl s)
  | .datagramRelease .. => execDatagramRelease_keeps (Keeps.refl s)
  | .frameSelect .. => execFrameSelect_keeps (Keeps.refl s)
  | .cursorSample .. => execCursorSample_keeps (Keeps.refl s)
  | .departureJudgement .. => execDepartureJudgement_keeps (Keeps.refl s)
  | .dieLimitExpiry .. => execDieLimitExpiry_keeps (Keeps.refl s)
  | .tfRateWrite .. => execTfRateWrite_keeps (Keeps.refl s)
  | .tmgGclDataWrite .. => execTmgGclDataWrite_keeps (Keeps.refl s)
  | .gclCommit .. => execGclCommit_keeps (Keeps.refl s)
  | .gateCycleStart .. => execGateCycleStart_keeps (Keeps.refl s)
  | .gateEntryExpiry .. => execGateEntryExpiry_keeps (Keeps.refl s)
  | .audioFrameSync .. => execAudioFrameSync_keeps (Keeps.refl s)
  | .audSlotMaskWrite .. => execAudSlotMaskWrite_keeps (Keeps.refl s)
  | .audCsTxWrite .. => execAudCsTxWrite_keeps (Keeps.refl s)
  | .audEnableWrite .. => execAudEnableWrite_keeps (Keeps.refl s)
  | .aes3FrameRx .. => execAes3FrameRx_keeps (Keeps.refl s)
  | .wclkStop .. => execWclkStop_keeps (Keeps.refl s)
  | .wclkGlitch .. => execWclkGlitch_keeps (Keeps.refl s)
  | .wclkRateChange .. => execWclkRateChange_keeps (Keeps.refl s)
  | .flywheelExpiry .. => execFlywheelExpiry_keeps (Keeps.refl s)
  | .wclkQualified .. => execWclkQualified_keeps (Keeps.refl s)
  | .syncRx .. => execSyncRx_keeps (Keeps.refl s)
  | .followUpRx .. => execFollowUpRx_keeps (Keeps.refl s)
  | .announceRx .. => execAnnounceRx_keeps (Keeps.refl s)
  | .delayReqSend .. => execDelayReqSend_keeps (Keeps.refl s)
  | .delayRespRx .. => execDelayRespRx_keeps (Keeps.refl s)
  | .pdelayReqRx .. => execPdelayReqRx_keeps (Keeps.refl s)
  | .announceTimeout .. => execAnnounceTimeout_keeps (Keeps.refl s)
  | .ppsInEdge .. => execPpsInEdge_keeps (Keeps.refl s)
  | .ppsStop .. => execPpsStop_keeps (Keeps.refl s)
  | .ppsOutSecond .. => execPpsOutSecond_keeps (Keeps.refl s)
  | .refclkStop .. => execRefclkStop_keeps (Keeps.refl s)
  | .refclkGlitch .. => execRefclkGlitch_keeps (Keeps.refl s)
  | .refclkRateChange .. => execRefclkRateChange_keeps (Keeps.refl s)
  | .refclkQualified .. => execRefclkQualified_keeps (Keeps.refl s)
  | .pilotRatioMeasure .. => execPilotRatioMeasure_keeps (Keeps.refl s)
  | .flameSetRx .. => execFlameSetRx_keeps (Keeps.refl s)
  | .wickWordRx .. => execWickWordRx_keeps (Keeps.refl s)
  | .presenceBeaconRx .. => execPresenceBeaconRx_keeps (Keeps.refl s)
  | .leaseSend .. => execLeaseSend_keeps (Keeps.refl s)
  | .wickWordSend .. => execWickWordSend_keeps (Keeps.refl s)
  | .presenceBeaconSend .. => execPresenceBeaconSend_keeps (Keeps.refl s)
  | .leaseLapse .. => execLeaseLapse_keeps (Keeps.refl s)
  | .twnCmdHandover .. => execTwnCmdHandover_keeps (Keeps.refl s)
  | .handoverDrainDone .. => execHandoverDrainDone_keeps (Keeps.refl s)
  | .twnCmdResync .. => execTwnCmdResync_keeps (Keeps.refl s)
  | .snapshotReferencesArrived .. => execSnapshotReferencesArrived_keeps (Keeps.refl s)
  | .holdOffExpiry .. => execHoldOffExpiry_keeps (Keeps.refl s)
  | .holderDigestMissing .. => execHolderDigestMissing_keeps (Keeps.refl s)
  | .decisionRecordRx .. => execDecisionRecordRx_keeps (Keeps.refl s)
  | .bandEntryRx .. => execBandEntryRx_keeps (Keeps.refl s)
  | .gapEntryRx .. => execGapEntryRx_keeps (Keeps.refl s)
  | .liveWriteRx .. => execLiveWriteRx_keeps (Keeps.refl s)
  | .spliceCommandRx .. => execSpliceCommandRx_keeps (Keeps.refl s)
  | .dimReportRx .. => execDimReportRx_keeps (Keeps.refl s)
  | .inputDigestRx .. => execInputDigestRx_keeps (Keeps.refl s)
  | .outputDigestRx .. => execOutputDigestRx_keeps (Keeps.refl s)
  | .cursorFrameRx .. => execCursorFrameRx_keeps (Keeps.refl s)
  | .failureRecordRx .. => execFailureRecordRx_keeps (Keeps.refl s)
  | .liveRegisterImageRx .. => execLiveRegisterImageRx_keeps (Keeps.refl s)
  | .snapshotFrameRx .. => execSnapshotFrameRx_keeps (Keeps.refl s)
  | .joinControlRx .. => execJoinControlRx_keeps (Keeps.refl s)
  | .idleSetRx .. => execIdleSetRx_keeps (Keeps.refl s)
  | .idleSend .. => execIdleSend_keeps (Keeps.refl s)
  | .skipSend .. => execSkipSend_keeps (Keeps.refl s)
  | .skipSetRx .. => execSkipSetRx_keeps (Keeps.refl s)
  | .abortSetRx .. => execAbortSetRx_keeps (Keeps.refl s)
  | .lanternResendTimeout .. => execLanternResendTimeout_keeps (Keeps.refl s)
  | .laneLockLoss .. => execLaneLockLoss_keeps (Keeps.refl s)
  | .laneLockAcquire .. => execLaneLockAcquire_keeps (Keeps.refl s)
  | .laneJoin .. => execLaneJoin_keeps (Keeps.refl s)
  | .fomUpdate .. => execFomUpdate_keeps (Keeps.refl s)
  | .subportUp .. => execSubportUp_keeps (Keeps.refl s)
  | .mgmtLinkChange .. => execMgmtLinkChange_keeps (Keeps.refl s)
  | .adaptationCycle .. => execAdaptationCycle_keeps (Keeps.refl s)
  | .calibrationCommit .. => execCalibrationCommit_keeps (Keeps.refl s)
  | .calCtxRead .. => execCalCtxRead_keeps (Keeps.refl s)
  | .calSigRead .. => execCalSigRead_keeps (Keeps.refl s)
  | .calWindowWrite .. => execCalWindowWrite_keeps (Keeps.refl s)
  | .vcoreOutOfWindow .. => execVcoreOutOfWindow_keeps (Keeps.refl s)
  | .autoResetExpiry .. => execAutoResetExpiry_keeps (Keeps.refl s)
  | .lockstepMismatch .. => execLockstepMismatch_keeps (Keeps.refl s)
  | .lockstepRestartDone .. => execLockstepRestartDone_keeps (Keeps.refl s)
  | .sramUncorrectableError .. => execSramUncorrectableError_keeps (Keeps.refl s)
  | .dieLinkFailure .. => execDieLinkFailure_keeps (Keeps.refl s)
  | .dieLinkAck .. => execDieLinkAck_keeps (Keeps.refl s)
  | .memoryRequest .. => execMemoryRequest_keeps (Keeps.refl s)
  | .memoryAccessDone .. => execMemoryAccessDone_keeps (Keeps.refl s)
  | .refreshDue .. => execRefreshDue_keeps (Keeps.refl s)
  | .memoryTempRead .. => execMemoryTempRead_keeps (Keeps.refl s)
  | .selfRefreshEntry .. => execSelfRefreshEntry_keeps (Keeps.refl s)
  | .selfRefreshScrub .. => execSelfRefreshScrub_keeps (Keeps.refl s)
  | .retrainIntervalExpiry .. => execRetrainIntervalExpiry_keeps (Keeps.refl s)
  | .memoryErrorInterval .. => execMemoryErrorInterval_keeps (Keeps.refl s)
  | .retrainingSliceStart .. => execRetrainingSliceStart_keeps (Keeps.refl s)
  | .retrainingSliceEnd .. => execRetrainingSliceEnd_keeps (Keeps.refl s)
  | .sensorSample .. => execSensorSample_keeps (Keeps.refl s)
  | .thermalGraceExpiry .. => execThermalGraceExpiry_keeps (Keeps.refl s)
  | .dimStepTimer .. => execDimStepTimer_keeps (Keeps.refl s)
  | .dimRecoveryTimer .. => execDimRecoveryTimer_keeps (Keeps.refl s)
  | .waxMeasurement .. => execWaxMeasurement_keeps (Keeps.refl s)
  | .pmbAlert .. => execPmbAlert_keeps (Keeps.refl s)
  | .pmbusPoll .. => execPmbusPoll_keeps (Keeps.refl s)
  | .pmbusTransferDone .. => execPmbusTransferDone_keeps (Keeps.refl s)
  | .pmbusStuck .. => execPmbusStuck_keeps (Keeps.refl s)
  | .voutStep .. => execVoutStep_keeps (Keeps.refl s)
  | .voutConfirmTimeout .. => execVoutConfirmTimeout_keeps (Keeps.refl s)
  | .dailyPlanning .. => execDailyPlanning_keeps (Keeps.refl s)
  | .crcStart .. => execCrcStart_keeps (Keeps.refl s)
  | .crcFeedB .. => execCrcFeedB_keeps (Keeps.refl s)
  | .crcFeedH .. => execCrcFeedH_keeps (Keeps.refl s)
  | .crcFeedW .. => execCrcFeedW_keeps (Keeps.refl s)
  | .crcCfgWrite .. => execCrcCfgWrite_keeps (Keeps.refl s)
  | .crcValueWrite .. => execCrcValueWrite_keeps (Keeps.refl s)
  | .reg64LoRead .. => execReg64LoRead_keeps (Keeps.refl s)
  | .reg64LoWrite .. => execReg64LoWrite_keeps (Keeps.refl s)
  | .reg64HiWrite .. => execReg64HiWrite_keeps (Keeps.refl s)
  | .registerWrite .. => execRegisterWrite_keeps (Keeps.refl s)
  | .wrongWidthAccess .. => execWrongWidthAccess_keeps (Keeps.refl s)
  | .undecodedAccess .. => execUndecodedAccess_keeps (Keeps.refl s)
  | .masterResetMidBurst .. => execMasterResetMidBurst_keeps (Keeps.refl s)
  | .evtTailWrite .. => execEvtTailWrite_keeps (Keeps.refl s)
  | .rateLimitWindowClose .. => execRateLimitWindowClose_keeps (Keeps.refl s)
  | .beaconRead .. => execBeaconRead_keeps (Keeps.refl s)
  | .beaconWrite .. => execBeaconWrite_keeps (Keeps.refl s)
  | .beaconBlockRead .. => execBeaconBlockRead_keeps (Keeps.refl s)
  | .beaconSubscribe .. => execBeaconSubscribe_keeps (Keeps.refl s)
  | .subscriptionExpiry .. => execSubscriptionExpiry_keeps (Keeps.refl s)
  | .telemetryNotify .. => execTelemetryNotify_keeps (Keeps.refl s)
  | .eventBatchNotify .. => execEventBatchNotify_keeps (Keeps.refl s)
  | .traceNotify .. => execTraceNotify_keeps (Keeps.refl s)
  | .arpRx .. => execArpRx_keeps (Keeps.refl s)
  | .icmpEchoRx .. => execIcmpEchoRx_keeps (Keeps.refl s)
  | .igmpQueryRx .. => execIgmpQueryRx_keeps (Keeps.refl s)
  | .i2cPointerWrite .. => execI2cPointerWrite_keeps (Keeps.refl s)
  | .i2cRead .. => execI2cRead_keeps (Keeps.refl s)
  | .i2cWindowRefresh .. => execI2cWindowRefresh_keeps (Keeps.refl s)
  | .i2cTimeout .. => execI2cTimeout_keeps (Keeps.refl s)
  | .releaseInstant .. => execReleaseInstant_keeps (Keeps.refl s)
  | .audioDueInstant .. => execAudioDueInstant_keeps (Keeps.refl s)
  | .audioFlowPacketTime .. => execAudioFlowPacketTime_keeps (Keeps.refl s)
  | .sramCorrectedError .. => execSramCorrectedError_keeps (Keeps.refl s)
  | .jtagInstruction .. => execJtagInstruction_keeps (Keeps.refl s)

end Sys2Proof.Machine
end

