-- ==== Sys2Proof/Laws/State.lean ====
section
/-! SUPPORT. One lemma for each field and each basic update of the state, and how registers and fields read after a write. -/

namespace Sys2Proof.Machine

variable (s : State)

/-! ## Fields the basic updates leave alone -/

@[simp] theorem State.wr_pending (a : Nat) (v : Word) : (s.wr a v).pending = s.pending := rfl
@[simp] theorem State.wr_sent (a : Nat) (v : Word) : (s.wr a v).sent = s.sent := rfl
@[simp] theorem State.wr_fresh (a : Nat) (v : Word) : (s.wr a v).fresh = s.fresh := rfl
@[simp] theorem State.wr_draws (a : Nat) (v : Word) : (s.wr a v).draws = s.draws := rfl
@[simp] theorem State.wr_fuses (a : Nat) (v : Word) : (s.wr a v).fuses = s.fuses := rfl
@[simp] theorem State.wr_flashA (a : Nat) (v : Word) : (s.wr a v).flashA = s.flashA := rfl
@[simp] theorem State.wr_flashB (a : Nat) (v : Word) : (s.wr a v).flashB = s.flashB := rfl
@[simp] theorem State.wr_emg (a : Nat) (v : Word) : (s.wr a v).emg = s.emg := rfl
@[simp] theorem State.wr_clk (a : Nat) (v : Word) : (s.wr a v).clk = s.clk := rfl
@[simp] theorem State.wr_evt (a : Nat) (v : Word) : (s.wr a v).evt = s.evt := rfl
@[simp] theorem State.wr_bus (a : Nat) (v : Word) : (s.wr a v).bus = s.bus := rfl
@[simp] theorem State.wr_twin (a : Nat) (v : Word) : (s.wr a v).twin = s.twin := rfl
@[simp] theorem State.wr_link (a : Nat) (v : Word) : (s.wr a v).link = s.link := rfl
@[simp] theorem State.wr_saf (a : Nat) (v : Word) : (s.wr a v).saf = s.saf := rfl
@[simp] theorem State.wr_links (a : Nat) (v : Word) : (s.wr a v).links = s.links := rfl
@[simp] theorem State.wr_mgt (a : Nat) (v : Word) : (s.wr a v).mgt = s.mgt := rfl
@[simp] theorem State.wr_cap (a : Nat) (v : Word) : (s.wr a v).cap = s.cap := rfl
@[simp] theorem State.wr_chans (a : Nat) (v : Word) : (s.wr a v).chans = s.chans := rfl
@[simp] theorem State.wr_sch (a : Nat) (v : Word) : (s.wr a v).sch = s.sch := rfl
@[simp] theorem State.wr_ing (a : Nat) (v : Word) : (s.wr a v).ing = s.ing := rfl
@[simp] theorem State.wr_aud (a : Nat) (v : Word) : (s.wr a v).aud = s.aud := rfl
@[simp] theorem State.wr_egr (a : Nat) (v : Word) : (s.wr a v).egr = s.egr := rfl
@[simp] theorem State.wr_cal (a : Nat) (v : Word) : (s.wr a v).cal = s.cal := rfl
@[simp] theorem State.wr_pic (a : Nat) (v : Word) : (s.wr a v).pic = s.pic := rfl
@[simp] theorem State.wr_plant (a : Nat) (v : Word) : (s.wr a v).plant = s.plant := rfl

@[simp] theorem State.wrN_pending (a v : Nat) : (s.wrN a v).pending = s.pending := rfl
@[simp] theorem State.wrN_sent (a v : Nat) : (s.wrN a v).sent = s.sent := rfl
@[simp] theorem State.wrN_fresh (a v : Nat) : (s.wrN a v).fresh = s.fresh := rfl
@[simp] theorem State.wrN_draws (a v : Nat) : (s.wrN a v).draws = s.draws := rfl
@[simp] theorem State.wrN_fuses (a v : Nat) : (s.wrN a v).fuses = s.fuses := rfl
@[simp] theorem State.wrN_flashA (a v : Nat) : (s.wrN a v).flashA = s.flashA := rfl
@[simp] theorem State.wrN_flashB (a v : Nat) : (s.wrN a v).flashB = s.flashB := rfl
@[simp] theorem State.wrN_emg (a v : Nat) : (s.wrN a v).emg = s.emg := rfl
@[simp] theorem State.wrN_clk (a v : Nat) : (s.wrN a v).clk = s.clk := rfl
@[simp] theorem State.wrN_evt (a v : Nat) : (s.wrN a v).evt = s.evt := rfl
@[simp] theorem State.wrN_bus (a v : Nat) : (s.wrN a v).bus = s.bus := rfl
@[simp] theorem State.wrN_twin (a v : Nat) : (s.wrN a v).twin = s.twin := rfl
@[simp] theorem State.wrN_link (a v : Nat) : (s.wrN a v).link = s.link := rfl
@[simp] theorem State.wrN_saf (a v : Nat) : (s.wrN a v).saf = s.saf := rfl
@[simp] theorem State.wrN_links (a v : Nat) : (s.wrN a v).links = s.links := rfl
@[simp] theorem State.wrN_mgt (a v : Nat) : (s.wrN a v).mgt = s.mgt := rfl
@[simp] theorem State.wrN_cap (a v : Nat) : (s.wrN a v).cap = s.cap := rfl
@[simp] theorem State.wrN_chans (a v : Nat) : (s.wrN a v).chans = s.chans := rfl
@[simp] theorem State.wrN_sch (a v : Nat) : (s.wrN a v).sch = s.sch := rfl
@[simp] theorem State.wrN_ing (a v : Nat) : (s.wrN a v).ing = s.ing := rfl
@[simp] theorem State.wrN_aud (a v : Nat) : (s.wrN a v).aud = s.aud := rfl
@[simp] theorem State.wrN_egr (a v : Nat) : (s.wrN a v).egr = s.egr := rfl
@[simp] theorem State.wrN_cal (a v : Nat) : (s.wrN a v).cal = s.cal := rfl
@[simp] theorem State.wrN_pic (a v : Nat) : (s.wrN a v).pic = s.pic := rfl
@[simp] theorem State.wrN_plant (a v : Nat) : (s.wrN a v).plant = s.plant := rfl

@[simp] theorem State.wrI_pending (a : Nat) (v : Int) : (s.wrI a v).pending = s.pending := rfl
@[simp] theorem State.wrI_sent (a : Nat) (v : Int) : (s.wrI a v).sent = s.sent := rfl
@[simp] theorem State.wrI_fresh (a : Nat) (v : Int) : (s.wrI a v).fresh = s.fresh := rfl
@[simp] theorem State.wrI_draws (a : Nat) (v : Int) : (s.wrI a v).draws = s.draws := rfl
@[simp] theorem State.wrI_fuses (a : Nat) (v : Int) : (s.wrI a v).fuses = s.fuses := rfl
@[simp] theorem State.wrI_flashA (a : Nat) (v : Int) : (s.wrI a v).flashA = s.flashA := rfl
@[simp] theorem State.wrI_flashB (a : Nat) (v : Int) : (s.wrI a v).flashB = s.flashB := rfl
@[simp] theorem State.wrI_emg (a : Nat) (v : Int) : (s.wrI a v).emg = s.emg := rfl
@[simp] theorem State.wrI_clk (a : Nat) (v : Int) : (s.wrI a v).clk = s.clk := rfl
@[simp] theorem State.wrI_evt (a : Nat) (v : Int) : (s.wrI a v).evt = s.evt := rfl
@[simp] theorem State.wrI_bus (a : Nat) (v : Int) : (s.wrI a v).bus = s.bus := rfl
@[simp] theorem State.wrI_twin (a : Nat) (v : Int) : (s.wrI a v).twin = s.twin := rfl
@[simp] theorem State.wrI_link (a : Nat) (v : Int) : (s.wrI a v).link = s.link := rfl
@[simp] theorem State.wrI_saf (a : Nat) (v : Int) : (s.wrI a v).saf = s.saf := rfl
@[simp] theorem State.wrI_links (a : Nat) (v : Int) : (s.wrI a v).links = s.links := rfl
@[simp] theorem State.wrI_mgt (a : Nat) (v : Int) : (s.wrI a v).mgt = s.mgt := rfl
@[simp] theorem State.wrI_cap (a : Nat) (v : Int) : (s.wrI a v).cap = s.cap := rfl
@[simp] theorem State.wrI_chans (a : Nat) (v : Int) : (s.wrI a v).chans = s.chans := rfl
@[simp] theorem State.wrI_sch (a : Nat) (v : Int) : (s.wrI a v).sch = s.sch := rfl
@[simp] theorem State.wrI_ing (a : Nat) (v : Int) : (s.wrI a v).ing = s.ing := rfl
@[simp] theorem State.wrI_aud (a : Nat) (v : Int) : (s.wrI a v).aud = s.aud := rfl
@[simp] theorem State.wrI_egr (a : Nat) (v : Int) : (s.wrI a v).egr = s.egr := rfl
@[simp] theorem State.wrI_cal (a : Nat) (v : Int) : (s.wrI a v).cal = s.cal := rfl
@[simp] theorem State.wrI_pic (a : Nat) (v : Int) : (s.wrI a v).pic = s.pic := rfl
@[simp] theorem State.wrI_plant (a : Nat) (v : Int) : (s.wrI a v).plant = s.plant := rfl

@[simp] theorem State.setFld_pending (a hi lo v : Nat) : (s.setFld a hi lo v).pending = s.pending := rfl
@[simp] theorem State.setFld_sent (a hi lo v : Nat) : (s.setFld a hi lo v).sent = s.sent := rfl
@[simp] theorem State.setFld_fresh (a hi lo v : Nat) : (s.setFld a hi lo v).fresh = s.fresh := rfl
@[simp] theorem State.setFld_draws (a hi lo v : Nat) : (s.setFld a hi lo v).draws = s.draws := rfl
@[simp] theorem State.setFld_fuses (a hi lo v : Nat) : (s.setFld a hi lo v).fuses = s.fuses := rfl
@[simp] theorem State.setFld_flashA (a hi lo v : Nat) : (s.setFld a hi lo v).flashA = s.flashA := rfl
@[simp] theorem State.setFld_flashB (a hi lo v : Nat) : (s.setFld a hi lo v).flashB = s.flashB := rfl
@[simp] theorem State.setFld_emg (a hi lo v : Nat) : (s.setFld a hi lo v).emg = s.emg := rfl
@[simp] theorem State.setFld_clk (a hi lo v : Nat) : (s.setFld a hi lo v).clk = s.clk := rfl
@[simp] theorem State.setFld_evt (a hi lo v : Nat) : (s.setFld a hi lo v).evt = s.evt := rfl
@[simp] theorem State.setFld_bus (a hi lo v : Nat) : (s.setFld a hi lo v).bus = s.bus := rfl
@[simp] theorem State.setFld_twin (a hi lo v : Nat) : (s.setFld a hi lo v).twin = s.twin := rfl
@[simp] theorem State.setFld_link (a hi lo v : Nat) : (s.setFld a hi lo v).link = s.link := rfl
@[simp] theorem State.setFld_saf (a hi lo v : Nat) : (s.setFld a hi lo v).saf = s.saf := rfl
@[simp] theorem State.setFld_links (a hi lo v : Nat) : (s.setFld a hi lo v).links = s.links := rfl
@[simp] theorem State.setFld_mgt (a hi lo v : Nat) : (s.setFld a hi lo v).mgt = s.mgt := rfl
@[simp] theorem State.setFld_cap (a hi lo v : Nat) : (s.setFld a hi lo v).cap = s.cap := rfl
@[simp] theorem State.setFld_chans (a hi lo v : Nat) : (s.setFld a hi lo v).chans = s.chans := rfl
@[simp] theorem State.setFld_sch (a hi lo v : Nat) : (s.setFld a hi lo v).sch = s.sch := rfl
@[simp] theorem State.setFld_ing (a hi lo v : Nat) : (s.setFld a hi lo v).ing = s.ing := rfl
@[simp] theorem State.setFld_aud (a hi lo v : Nat) : (s.setFld a hi lo v).aud = s.aud := rfl
@[simp] theorem State.setFld_egr (a hi lo v : Nat) : (s.setFld a hi lo v).egr = s.egr := rfl
@[simp] theorem State.setFld_cal (a hi lo v : Nat) : (s.setFld a hi lo v).cal = s.cal := rfl
@[simp] theorem State.setFld_pic (a hi lo v : Nat) : (s.setFld a hi lo v).pic = s.pic := rfl
@[simp] theorem State.setFld_plant (a hi lo v : Nat) : (s.setFld a hi lo v).plant = s.plant := rfl

@[simp] theorem State.setBit_pending (a i : Nat) (b : Bool) : (s.setBit a i b).pending = s.pending := rfl
@[simp] theorem State.setBit_sent (a i : Nat) (b : Bool) : (s.setBit a i b).sent = s.sent := rfl
@[simp] theorem State.setBit_fresh (a i : Nat) (b : Bool) : (s.setBit a i b).fresh = s.fresh := rfl
@[simp] theorem State.setBit_draws (a i : Nat) (b : Bool) : (s.setBit a i b).draws = s.draws := rfl
@[simp] theorem State.setBit_fuses (a i : Nat) (b : Bool) : (s.setBit a i b).fuses = s.fuses := rfl
@[simp] theorem State.setBit_flashA (a i : Nat) (b : Bool) : (s.setBit a i b).flashA = s.flashA := rfl
@[simp] theorem State.setBit_flashB (a i : Nat) (b : Bool) : (s.setBit a i b).flashB = s.flashB := rfl
@[simp] theorem State.setBit_emg (a i : Nat) (b : Bool) : (s.setBit a i b).emg = s.emg := rfl
@[simp] theorem State.setBit_clk (a i : Nat) (b : Bool) : (s.setBit a i b).clk = s.clk := rfl
@[simp] theorem State.setBit_evt (a i : Nat) (b : Bool) : (s.setBit a i b).evt = s.evt := rfl
@[simp] theorem State.setBit_bus (a i : Nat) (b : Bool) : (s.setBit a i b).bus = s.bus := rfl
@[simp] theorem State.setBit_twin (a i : Nat) (b : Bool) : (s.setBit a i b).twin = s.twin := rfl
@[simp] theorem State.setBit_link (a i : Nat) (b : Bool) : (s.setBit a i b).link = s.link := rfl
@[simp] theorem State.setBit_saf (a i : Nat) (b : Bool) : (s.setBit a i b).saf = s.saf := rfl
@[simp] theorem State.setBit_links (a i : Nat) (b : Bool) : (s.setBit a i b).links = s.links := rfl
@[simp] theorem State.setBit_mgt (a i : Nat) (b : Bool) : (s.setBit a i b).mgt = s.mgt := rfl
@[simp] theorem State.setBit_cap (a i : Nat) (b : Bool) : (s.setBit a i b).cap = s.cap := rfl
@[simp] theorem State.setBit_chans (a i : Nat) (b : Bool) : (s.setBit a i b).chans = s.chans := rfl
@[simp] theorem State.setBit_sch (a i : Nat) (b : Bool) : (s.setBit a i b).sch = s.sch := rfl
@[simp] theorem State.setBit_ing (a i : Nat) (b : Bool) : (s.setBit a i b).ing = s.ing := rfl
@[simp] theorem State.setBit_aud (a i : Nat) (b : Bool) : (s.setBit a i b).aud = s.aud := rfl
@[simp] theorem State.setBit_egr (a i : Nat) (b : Bool) : (s.setBit a i b).egr = s.egr := rfl
@[simp] theorem State.setBit_cal (a i : Nat) (b : Bool) : (s.setBit a i b).cal = s.cal := rfl
@[simp] theorem State.setBit_pic (a i : Nat) (b : Bool) : (s.setBit a i b).pic = s.pic := rfl
@[simp] theorem State.setBit_plant (a i : Nat) (b : Bool) : (s.setBit a i b).plant = s.plant := rfl

@[simp] theorem State.bump_pending (a n : Nat) : (s.bump a n).pending = s.pending := rfl
@[simp] theorem State.bump_sent (a n : Nat) : (s.bump a n).sent = s.sent := rfl
@[simp] theorem State.bump_fresh (a n : Nat) : (s.bump a n).fresh = s.fresh := rfl
@[simp] theorem State.bump_draws (a n : Nat) : (s.bump a n).draws = s.draws := rfl
@[simp] theorem State.bump_fuses (a n : Nat) : (s.bump a n).fuses = s.fuses := rfl
@[simp] theorem State.bump_flashA (a n : Nat) : (s.bump a n).flashA = s.flashA := rfl
@[simp] theorem State.bump_flashB (a n : Nat) : (s.bump a n).flashB = s.flashB := rfl
@[simp] theorem State.bump_emg (a n : Nat) : (s.bump a n).emg = s.emg := rfl
@[simp] theorem State.bump_clk (a n : Nat) : (s.bump a n).clk = s.clk := rfl
@[simp] theorem State.bump_evt (a n : Nat) : (s.bump a n).evt = s.evt := rfl
@[simp] theorem State.bump_bus (a n : Nat) : (s.bump a n).bus = s.bus := rfl
@[simp] theorem State.bump_twin (a n : Nat) : (s.bump a n).twin = s.twin := rfl
@[simp] theorem State.bump_link (a n : Nat) : (s.bump a n).link = s.link := rfl
@[simp] theorem State.bump_saf (a n : Nat) : (s.bump a n).saf = s.saf := rfl
@[simp] theorem State.bump_links (a n : Nat) : (s.bump a n).links = s.links := rfl
@[simp] theorem State.bump_mgt (a n : Nat) : (s.bump a n).mgt = s.mgt := rfl
@[simp] theorem State.bump_cap (a n : Nat) : (s.bump a n).cap = s.cap := rfl
@[simp] theorem State.bump_chans (a n : Nat) : (s.bump a n).chans = s.chans := rfl
@[simp] theorem State.bump_sch (a n : Nat) : (s.bump a n).sch = s.sch := rfl
@[simp] theorem State.bump_ing (a n : Nat) : (s.bump a n).ing = s.ing := rfl
@[simp] theorem State.bump_aud (a n : Nat) : (s.bump a n).aud = s.aud := rfl
@[simp] theorem State.bump_egr (a n : Nat) : (s.bump a n).egr = s.egr := rfl
@[simp] theorem State.bump_cal (a n : Nat) : (s.bump a n).cal = s.cal := rfl
@[simp] theorem State.bump_pic (a n : Nat) : (s.bump a n).pic = s.pic := rfl
@[simp] theorem State.bump_plant (a n : Nat) : (s.bump a n).plant = s.plant := rfl

@[simp] theorem State.wr64_pending (a v : Nat) : (s.wr64 a v).pending = s.pending := rfl
@[simp] theorem State.wr64_sent (a v : Nat) : (s.wr64 a v).sent = s.sent := rfl
@[simp] theorem State.wr64_fresh (a v : Nat) : (s.wr64 a v).fresh = s.fresh := rfl
@[simp] theorem State.wr64_draws (a v : Nat) : (s.wr64 a v).draws = s.draws := rfl
@[simp] theorem State.wr64_fuses (a v : Nat) : (s.wr64 a v).fuses = s.fuses := rfl
@[simp] theorem State.wr64_flashA (a v : Nat) : (s.wr64 a v).flashA = s.flashA := rfl
@[simp] theorem State.wr64_flashB (a v : Nat) : (s.wr64 a v).flashB = s.flashB := rfl
@[simp] theorem State.wr64_emg (a v : Nat) : (s.wr64 a v).emg = s.emg := rfl
@[simp] theorem State.wr64_clk (a v : Nat) : (s.wr64 a v).clk = s.clk := rfl
@[simp] theorem State.wr64_evt (a v : Nat) : (s.wr64 a v).evt = s.evt := rfl
@[simp] theorem State.wr64_bus (a v : Nat) : (s.wr64 a v).bus = s.bus := rfl
@[simp] theorem State.wr64_twin (a v : Nat) : (s.wr64 a v).twin = s.twin := rfl
@[simp] theorem State.wr64_link (a v : Nat) : (s.wr64 a v).link = s.link := rfl
@[simp] theorem State.wr64_saf (a v : Nat) : (s.wr64 a v).saf = s.saf := rfl
@[simp] theorem State.wr64_links (a v : Nat) : (s.wr64 a v).links = s.links := rfl
@[simp] theorem State.wr64_mgt (a v : Nat) : (s.wr64 a v).mgt = s.mgt := rfl
@[simp] theorem State.wr64_cap (a v : Nat) : (s.wr64 a v).cap = s.cap := rfl
@[simp] theorem State.wr64_chans (a v : Nat) : (s.wr64 a v).chans = s.chans := rfl
@[simp] theorem State.wr64_sch (a v : Nat) : (s.wr64 a v).sch = s.sch := rfl
@[simp] theorem State.wr64_ing (a v : Nat) : (s.wr64 a v).ing = s.ing := rfl
@[simp] theorem State.wr64_aud (a v : Nat) : (s.wr64 a v).aud = s.aud := rfl
@[simp] theorem State.wr64_egr (a v : Nat) : (s.wr64 a v).egr = s.egr := rfl
@[simp] theorem State.wr64_cal (a v : Nat) : (s.wr64 a v).cal = s.cal := rfl
@[simp] theorem State.wr64_pic (a v : Nat) : (s.wr64 a v).pic = s.pic := rfl
@[simp] theorem State.wr64_plant (a v : Nat) : (s.wr64 a v).plant = s.plant := rfl

@[simp] theorem State.bump64_pending (a n : Nat) : (s.bump64 a n).pending = s.pending := rfl
@[simp] theorem State.bump64_sent (a n : Nat) : (s.bump64 a n).sent = s.sent := rfl
@[simp] theorem State.bump64_fresh (a n : Nat) : (s.bump64 a n).fresh = s.fresh := rfl
@[simp] theorem State.bump64_draws (a n : Nat) : (s.bump64 a n).draws = s.draws := rfl
@[simp] theorem State.bump64_fuses (a n : Nat) : (s.bump64 a n).fuses = s.fuses := rfl
@[simp] theorem State.bump64_flashA (a n : Nat) : (s.bump64 a n).flashA = s.flashA := rfl
@[simp] theorem State.bump64_flashB (a n : Nat) : (s.bump64 a n).flashB = s.flashB := rfl
@[simp] theorem State.bump64_emg (a n : Nat) : (s.bump64 a n).emg = s.emg := rfl
@[simp] theorem State.bump64_clk (a n : Nat) : (s.bump64 a n).clk = s.clk := rfl
@[simp] theorem State.bump64_evt (a n : Nat) : (s.bump64 a n).evt = s.evt := rfl
@[simp] theorem State.bump64_bus (a n : Nat) : (s.bump64 a n).bus = s.bus := rfl
@[simp] theorem State.bump64_twin (a n : Nat) : (s.bump64 a n).twin = s.twin := rfl
@[simp] theorem State.bump64_link (a n : Nat) : (s.bump64 a n).link = s.link := rfl
@[simp] theorem State.bump64_saf (a n : Nat) : (s.bump64 a n).saf = s.saf := rfl
@[simp] theorem State.bump64_links (a n : Nat) : (s.bump64 a n).links = s.links := rfl
@[simp] theorem State.bump64_mgt (a n : Nat) : (s.bump64 a n).mgt = s.mgt := rfl
@[simp] theorem State.bump64_cap (a n : Nat) : (s.bump64 a n).cap = s.cap := rfl
@[simp] theorem State.bump64_chans (a n : Nat) : (s.bump64 a n).chans = s.chans := rfl
@[simp] theorem State.bump64_sch (a n : Nat) : (s.bump64 a n).sch = s.sch := rfl
@[simp] theorem State.bump64_ing (a n : Nat) : (s.bump64 a n).ing = s.ing := rfl
@[simp] theorem State.bump64_aud (a n : Nat) : (s.bump64 a n).aud = s.aud := rfl
@[simp] theorem State.bump64_egr (a n : Nat) : (s.bump64 a n).egr = s.egr := rfl
@[simp] theorem State.bump64_cal (a n : Nat) : (s.bump64 a n).cal = s.cal := rfl
@[simp] theorem State.bump64_pic (a n : Nat) : (s.bump64 a n).pic = s.pic := rfl
@[simp] theorem State.bump64_plant (a n : Nat) : (s.bump64 a n).plant = s.plant := rfl

@[simp] theorem State.maxN_pending (a v : Nat) : (s.maxN a v).pending = s.pending := rfl
@[simp] theorem State.maxN_sent (a v : Nat) : (s.maxN a v).sent = s.sent := rfl
@[simp] theorem State.maxN_fresh (a v : Nat) : (s.maxN a v).fresh = s.fresh := rfl
@[simp] theorem State.maxN_draws (a v : Nat) : (s.maxN a v).draws = s.draws := rfl
@[simp] theorem State.maxN_fuses (a v : Nat) : (s.maxN a v).fuses = s.fuses := rfl
@[simp] theorem State.maxN_flashA (a v : Nat) : (s.maxN a v).flashA = s.flashA := rfl
@[simp] theorem State.maxN_flashB (a v : Nat) : (s.maxN a v).flashB = s.flashB := rfl
@[simp] theorem State.maxN_emg (a v : Nat) : (s.maxN a v).emg = s.emg := rfl
@[simp] theorem State.maxN_clk (a v : Nat) : (s.maxN a v).clk = s.clk := rfl
@[simp] theorem State.maxN_evt (a v : Nat) : (s.maxN a v).evt = s.evt := rfl
@[simp] theorem State.maxN_bus (a v : Nat) : (s.maxN a v).bus = s.bus := rfl
@[simp] theorem State.maxN_twin (a v : Nat) : (s.maxN a v).twin = s.twin := rfl
@[simp] theorem State.maxN_link (a v : Nat) : (s.maxN a v).link = s.link := rfl
@[simp] theorem State.maxN_saf (a v : Nat) : (s.maxN a v).saf = s.saf := rfl
@[simp] theorem State.maxN_links (a v : Nat) : (s.maxN a v).links = s.links := rfl
@[simp] theorem State.maxN_mgt (a v : Nat) : (s.maxN a v).mgt = s.mgt := rfl
@[simp] theorem State.maxN_cap (a v : Nat) : (s.maxN a v).cap = s.cap := rfl
@[simp] theorem State.maxN_chans (a v : Nat) : (s.maxN a v).chans = s.chans := rfl
@[simp] theorem State.maxN_sch (a v : Nat) : (s.maxN a v).sch = s.sch := rfl
@[simp] theorem State.maxN_ing (a v : Nat) : (s.maxN a v).ing = s.ing := rfl
@[simp] theorem State.maxN_aud (a v : Nat) : (s.maxN a v).aud = s.aud := rfl
@[simp] theorem State.maxN_egr (a v : Nat) : (s.maxN a v).egr = s.egr := rfl
@[simp] theorem State.maxN_cal (a v : Nat) : (s.maxN a v).cal = s.cal := rfl
@[simp] theorem State.maxN_pic (a v : Nat) : (s.maxN a v).pic = s.pic := rfl
@[simp] theorem State.maxN_plant (a v : Nat) : (s.maxN a v).plant = s.plant := rfl

@[simp] theorem State.elapse_pending (n : Nat) : (s.elapse n).pending = s.pending := rfl
@[simp] theorem State.elapse_sent (n : Nat) : (s.elapse n).sent = s.sent := rfl
@[simp] theorem State.elapse_fresh (n : Nat) : (s.elapse n).fresh = s.fresh := rfl
@[simp] theorem State.elapse_draws (n : Nat) : (s.elapse n).draws = s.draws := rfl
@[simp] theorem State.elapse_regs (n : Nat) : (s.elapse n).regs = s.regs := rfl
@[simp] theorem State.elapse_fuses (n : Nat) : (s.elapse n).fuses = s.fuses := rfl
@[simp] theorem State.elapse_flashA (n : Nat) : (s.elapse n).flashA = s.flashA := rfl
@[simp] theorem State.elapse_flashB (n : Nat) : (s.elapse n).flashB = s.flashB := rfl
@[simp] theorem State.elapse_emg (n : Nat) : (s.elapse n).emg = s.emg := rfl
@[simp] theorem State.elapse_evt (n : Nat) : (s.elapse n).evt = s.evt := rfl
@[simp] theorem State.elapse_bus (n : Nat) : (s.elapse n).bus = s.bus := rfl
@[simp] theorem State.elapse_twin (n : Nat) : (s.elapse n).twin = s.twin := rfl
@[simp] theorem State.elapse_link (n : Nat) : (s.elapse n).link = s.link := rfl
@[simp] theorem State.elapse_saf (n : Nat) : (s.elapse n).saf = s.saf := rfl
@[simp] theorem State.elapse_links (n : Nat) : (s.elapse n).links = s.links := rfl
@[simp] theorem State.elapse_mgt (n : Nat) : (s.elapse n).mgt = s.mgt := rfl
@[simp] theorem State.elapse_cap (n : Nat) : (s.elapse n).cap = s.cap := rfl
@[simp] theorem State.elapse_chans (n : Nat) : (s.elapse n).chans = s.chans := rfl
@[simp] theorem State.elapse_sch (n : Nat) : (s.elapse n).sch = s.sch := rfl
@[simp] theorem State.elapse_ing (n : Nat) : (s.elapse n).ing = s.ing := rfl
@[simp] theorem State.elapse_aud (n : Nat) : (s.elapse n).aud = s.aud := rfl
@[simp] theorem State.elapse_egr (n : Nat) : (s.elapse n).egr = s.egr := rfl
@[simp] theorem State.elapse_cal (n : Nat) : (s.elapse n).cal = s.cal := rfl
@[simp] theorem State.elapse_pic (n : Nat) : (s.elapse n).pic = s.pic := rfl
@[simp] theorem State.elapse_plant (n : Nat) : (s.elapse n).plant = s.plant := rfl

@[simp] theorem State.send_pending (x : Sent) : (s.send x).pending = s.pending := rfl
@[simp] theorem State.send_fresh (x : Sent) : (s.send x).fresh = s.fresh := rfl
@[simp] theorem State.send_draws (x : Sent) : (s.send x).draws = s.draws := rfl
@[simp] theorem State.send_regs (x : Sent) : (s.send x).regs = s.regs := rfl
@[simp] theorem State.send_fuses (x : Sent) : (s.send x).fuses = s.fuses := rfl
@[simp] theorem State.send_flashA (x : Sent) : (s.send x).flashA = s.flashA := rfl
@[simp] theorem State.send_flashB (x : Sent) : (s.send x).flashB = s.flashB := rfl
@[simp] theorem State.send_emg (x : Sent) : (s.send x).emg = s.emg := rfl
@[simp] theorem State.send_clk (x : Sent) : (s.send x).clk = s.clk := rfl
@[simp] theorem State.send_evt (x : Sent) : (s.send x).evt = s.evt := rfl
@[simp] theorem State.send_bus (x : Sent) : (s.send x).bus = s.bus := rfl
@[simp] theorem State.send_twin (x : Sent) : (s.send x).twin = s.twin := rfl
@[simp] theorem State.send_link (x : Sent) : (s.send x).link = s.link := rfl
@[simp] theorem State.send_saf (x : Sent) : (s.send x).saf = s.saf := rfl
@[simp] theorem State.send_links (x : Sent) : (s.send x).links = s.links := rfl
@[simp] theorem State.send_mgt (x : Sent) : (s.send x).mgt = s.mgt := rfl
@[simp] theorem State.send_cap (x : Sent) : (s.send x).cap = s.cap := rfl
@[simp] theorem State.send_chans (x : Sent) : (s.send x).chans = s.chans := rfl
@[simp] theorem State.send_sch (x : Sent) : (s.send x).sch = s.sch := rfl
@[simp] theorem State.send_ing (x : Sent) : (s.send x).ing = s.ing := rfl
@[simp] theorem State.send_aud (x : Sent) : (s.send x).aud = s.aud := rfl
@[simp] theorem State.send_egr (x : Sent) : (s.send x).egr = s.egr := rfl
@[simp] theorem State.send_cal (x : Sent) : (s.send x).cal = s.cal := rfl
@[simp] theorem State.send_pic (x : Sent) : (s.send x).pic = s.pic := rfl
@[simp] theorem State.send_plant (x : Sent) : (s.send x).plant = s.plant := rfl

@[simp] theorem State.freshId_pending : (s.freshId).pending = s.pending := rfl
@[simp] theorem State.freshId_sent : (s.freshId).sent = s.sent := rfl
@[simp] theorem State.freshId_draws : (s.freshId).draws = s.draws := rfl
@[simp] theorem State.freshId_regs : (s.freshId).regs = s.regs := rfl
@[simp] theorem State.freshId_fuses : (s.freshId).fuses = s.fuses := rfl
@[simp] theorem State.freshId_flashA : (s.freshId).flashA = s.flashA := rfl
@[simp] theorem State.freshId_flashB : (s.freshId).flashB = s.flashB := rfl
@[simp] theorem State.freshId_emg : (s.freshId).emg = s.emg := rfl
@[simp] theorem State.freshId_clk : (s.freshId).clk = s.clk := rfl
@[simp] theorem State.freshId_evt : (s.freshId).evt = s.evt := rfl
@[simp] theorem State.freshId_bus : (s.freshId).bus = s.bus := rfl
@[simp] theorem State.freshId_twin : (s.freshId).twin = s.twin := rfl
@[simp] theorem State.freshId_link : (s.freshId).link = s.link := rfl
@[simp] theorem State.freshId_saf : (s.freshId).saf = s.saf := rfl
@[simp] theorem State.freshId_links : (s.freshId).links = s.links := rfl
@[simp] theorem State.freshId_mgt : (s.freshId).mgt = s.mgt := rfl
@[simp] theorem State.freshId_cap : (s.freshId).cap = s.cap := rfl
@[simp] theorem State.freshId_chans : (s.freshId).chans = s.chans := rfl
@[simp] theorem State.freshId_sch : (s.freshId).sch = s.sch := rfl
@[simp] theorem State.freshId_ing : (s.freshId).ing = s.ing := rfl
@[simp] theorem State.freshId_aud : (s.freshId).aud = s.aud := rfl
@[simp] theorem State.freshId_egr : (s.freshId).egr = s.egr := rfl
@[simp] theorem State.freshId_cal : (s.freshId).cal = s.cal := rfl
@[simp] theorem State.freshId_pic : (s.freshId).pic = s.pic := rfl
@[simp] theorem State.freshId_plant : (s.freshId).plant = s.plant := rfl

@[simp] theorem State.afterDraw_pending : (s.afterDraw).pending = s.pending := rfl
@[simp] theorem State.afterDraw_sent : (s.afterDraw).sent = s.sent := rfl
@[simp] theorem State.afterDraw_fresh : (s.afterDraw).fresh = s.fresh := rfl
@[simp] theorem State.afterDraw_regs : (s.afterDraw).regs = s.regs := rfl
@[simp] theorem State.afterDraw_fuses : (s.afterDraw).fuses = s.fuses := rfl
@[simp] theorem State.afterDraw_flashA : (s.afterDraw).flashA = s.flashA := rfl
@[simp] theorem State.afterDraw_flashB : (s.afterDraw).flashB = s.flashB := rfl
@[simp] theorem State.afterDraw_emg : (s.afterDraw).emg = s.emg := rfl
@[simp] theorem State.afterDraw_clk : (s.afterDraw).clk = s.clk := rfl
@[simp] theorem State.afterDraw_evt : (s.afterDraw).evt = s.evt := rfl
@[simp] theorem State.afterDraw_bus : (s.afterDraw).bus = s.bus := rfl
@[simp] theorem State.afterDraw_twin : (s.afterDraw).twin = s.twin := rfl
@[simp] theorem State.afterDraw_link : (s.afterDraw).link = s.link := rfl
@[simp] theorem State.afterDraw_saf : (s.afterDraw).saf = s.saf := rfl
@[simp] theorem State.afterDraw_links : (s.afterDraw).links = s.links := rfl
@[simp] theorem State.afterDraw_mgt : (s.afterDraw).mgt = s.mgt := rfl
@[simp] theorem State.afterDraw_cap : (s.afterDraw).cap = s.cap := rfl
@[simp] theorem State.afterDraw_chans : (s.afterDraw).chans = s.chans := rfl
@[simp] theorem State.afterDraw_sch : (s.afterDraw).sch = s.sch := rfl
@[simp] theorem State.afterDraw_ing : (s.afterDraw).ing = s.ing := rfl
@[simp] theorem State.afterDraw_aud : (s.afterDraw).aud = s.aud := rfl
@[simp] theorem State.afterDraw_egr : (s.afterDraw).egr = s.egr := rfl
@[simp] theorem State.afterDraw_cal : (s.afterDraw).cal = s.cal := rfl
@[simp] theorem State.afterDraw_pic : (s.afterDraw).pic = s.pic := rfl
@[simp] theorem State.afterDraw_plant : (s.afterDraw).plant = s.plant := rfl

@[simp] theorem State.raise_pending (src info : Nat) : (s.raise src info).pending = s.pending := rfl
@[simp] theorem State.raise_sent (src info : Nat) : (s.raise src info).sent = s.sent := rfl
@[simp] theorem State.raise_fresh (src info : Nat) : (s.raise src info).fresh = s.fresh := rfl
@[simp] theorem State.raise_draws (src info : Nat) : (s.raise src info).draws = s.draws := rfl
@[simp] theorem State.raise_regs (src info : Nat) : (s.raise src info).regs = s.regs := rfl
@[simp] theorem State.raise_fuses (src info : Nat) : (s.raise src info).fuses = s.fuses := rfl
@[simp] theorem State.raise_flashA (src info : Nat) : (s.raise src info).flashA = s.flashA := rfl
@[simp] theorem State.raise_flashB (src info : Nat) : (s.raise src info).flashB = s.flashB := rfl
@[simp] theorem State.raise_emg (src info : Nat) : (s.raise src info).emg = s.emg := rfl
@[simp] theorem State.raise_clk (src info : Nat) : (s.raise src info).clk = s.clk := rfl
@[simp] theorem State.raise_bus (src info : Nat) : (s.raise src info).bus = s.bus := rfl
@[simp] theorem State.raise_twin (src info : Nat) : (s.raise src info).twin = s.twin := rfl
@[simp] theorem State.raise_link (src info : Nat) : (s.raise src info).link = s.link := rfl
@[simp] theorem State.raise_saf (src info : Nat) : (s.raise src info).saf = s.saf := rfl
@[simp] theorem State.raise_links (src info : Nat) : (s.raise src info).links = s.links := rfl
@[simp] theorem State.raise_mgt (src info : Nat) : (s.raise src info).mgt = s.mgt := rfl
@[simp] theorem State.raise_cap (src info : Nat) : (s.raise src info).cap = s.cap := rfl
@[simp] theorem State.raise_chans (src info : Nat) : (s.raise src info).chans = s.chans := rfl
@[simp] theorem State.raise_sch (src info : Nat) : (s.raise src info).sch = s.sch := rfl
@[simp] theorem State.raise_ing (src info : Nat) : (s.raise src info).ing = s.ing := rfl
@[simp] theorem State.raise_aud (src info : Nat) : (s.raise src info).aud = s.aud := rfl
@[simp] theorem State.raise_egr (src info : Nat) : (s.raise src info).egr = s.egr := rfl
@[simp] theorem State.raise_cal (src info : Nat) : (s.raise src info).cal = s.cal := rfl
@[simp] theorem State.raise_pic (src info : Nat) : (s.raise src info).pic = s.pic := rfl
@[simp] theorem State.raise_plant (src info : Nat) : (s.raise src info).plant = s.plant := rfl

@[simp] theorem State.raiseLimited_pending (src info : Nat) : (s.raiseLimited src info).pending = s.pending := rfl
@[simp] theorem State.raiseLimited_sent (src info : Nat) : (s.raiseLimited src info).sent = s.sent := rfl
@[simp] theorem State.raiseLimited_fresh (src info : Nat) : (s.raiseLimited src info).fresh = s.fresh := rfl
@[simp] theorem State.raiseLimited_draws (src info : Nat) : (s.raiseLimited src info).draws = s.draws := rfl
@[simp] theorem State.raiseLimited_regs (src info : Nat) : (s.raiseLimited src info).regs = s.regs := rfl
@[simp] theorem State.raiseLimited_fuses (src info : Nat) : (s.raiseLimited src info).fuses = s.fuses := rfl
@[simp] theorem State.raiseLimited_flashA (src info : Nat) : (s.raiseLimited src info).flashA = s.flashA := rfl
@[simp] theorem State.raiseLimited_flashB (src info : Nat) : (s.raiseLimited src info).flashB = s.flashB := rfl
@[simp] theorem State.raiseLimited_emg (src info : Nat) : (s.raiseLimited src info).emg = s.emg := rfl
@[simp] theorem State.raiseLimited_clk (src info : Nat) : (s.raiseLimited src info).clk = s.clk := rfl
@[simp] theorem State.raiseLimited_bus (src info : Nat) : (s.raiseLimited src info).bus = s.bus := rfl
@[simp] theorem State.raiseLimited_twin (src info : Nat) : (s.raiseLimited src info).twin = s.twin := rfl
@[simp] theorem State.raiseLimited_link (src info : Nat) : (s.raiseLimited src info).link = s.link := rfl
@[simp] theorem State.raiseLimited_saf (src info : Nat) : (s.raiseLimited src info).saf = s.saf := rfl
@[simp] theorem State.raiseLimited_links (src info : Nat) : (s.raiseLimited src info).links = s.links := rfl
@[simp] theorem State.raiseLimited_mgt (src info : Nat) : (s.raiseLimited src info).mgt = s.mgt := rfl
@[simp] theorem State.raiseLimited_cap (src info : Nat) : (s.raiseLimited src info).cap = s.cap := rfl
@[simp] theorem State.raiseLimited_chans (src info : Nat) : (s.raiseLimited src info).chans = s.chans := rfl
@[simp] theorem State.raiseLimited_sch (src info : Nat) : (s.raiseLimited src info).sch = s.sch := rfl
@[simp] theorem State.raiseLimited_ing (src info : Nat) : (s.raiseLimited src info).ing = s.ing := rfl
@[simp] theorem State.raiseLimited_aud (src info : Nat) : (s.raiseLimited src info).aud = s.aud := rfl
@[simp] theorem State.raiseLimited_egr (src info : Nat) : (s.raiseLimited src info).egr = s.egr := rfl
@[simp] theorem State.raiseLimited_cal (src info : Nat) : (s.raiseLimited src info).cal = s.cal := rfl
@[simp] theorem State.raiseLimited_pic (src info : Nat) : (s.raiseLimited src info).pic = s.pic := rfl
@[simp] theorem State.raiseLimited_plant (src info : Nat) : (s.raiseLimited src info).plant = s.plant := rfl

@[simp] theorem State.raiseT_pending (src info : Nat) : (s.raiseT src info).pending = s.pending := rfl
@[simp] theorem State.raiseT_sent (src info : Nat) : (s.raiseT src info).sent = s.sent := rfl
@[simp] theorem State.raiseT_fresh (src info : Nat) : (s.raiseT src info).fresh = s.fresh := rfl
@[simp] theorem State.raiseT_draws (src info : Nat) : (s.raiseT src info).draws = s.draws := rfl
@[simp] theorem State.raiseT_regs (src info : Nat) : (s.raiseT src info).regs = s.regs := rfl
@[simp] theorem State.raiseT_fuses (src info : Nat) : (s.raiseT src info).fuses = s.fuses := rfl
@[simp] theorem State.raiseT_flashA (src info : Nat) : (s.raiseT src info).flashA = s.flashA := rfl
@[simp] theorem State.raiseT_flashB (src info : Nat) : (s.raiseT src info).flashB = s.flashB := rfl
@[simp] theorem State.raiseT_emg (src info : Nat) : (s.raiseT src info).emg = s.emg := rfl
@[simp] theorem State.raiseT_clk (src info : Nat) : (s.raiseT src info).clk = s.clk := rfl
@[simp] theorem State.raiseT_bus (src info : Nat) : (s.raiseT src info).bus = s.bus := rfl
@[simp] theorem State.raiseT_twin (src info : Nat) : (s.raiseT src info).twin = s.twin := rfl
@[simp] theorem State.raiseT_link (src info : Nat) : (s.raiseT src info).link = s.link := rfl
@[simp] theorem State.raiseT_saf (src info : Nat) : (s.raiseT src info).saf = s.saf := rfl
@[simp] theorem State.raiseT_links (src info : Nat) : (s.raiseT src info).links = s.links := rfl
@[simp] theorem State.raiseT_mgt (src info : Nat) : (s.raiseT src info).mgt = s.mgt := rfl
@[simp] theorem State.raiseT_cap (src info : Nat) : (s.raiseT src info).cap = s.cap := rfl
@[simp] theorem State.raiseT_chans (src info : Nat) : (s.raiseT src info).chans = s.chans := rfl
@[simp] theorem State.raiseT_sch (src info : Nat) : (s.raiseT src info).sch = s.sch := rfl
@[simp] theorem State.raiseT_ing (src info : Nat) : (s.raiseT src info).ing = s.ing := rfl
@[simp] theorem State.raiseT_aud (src info : Nat) : (s.raiseT src info).aud = s.aud := rfl
@[simp] theorem State.raiseT_egr (src info : Nat) : (s.raiseT src info).egr = s.egr := rfl
@[simp] theorem State.raiseT_cal (src info : Nat) : (s.raiseT src info).cal = s.cal := rfl
@[simp] theorem State.raiseT_pic (src info : Nat) : (s.raiseT src info).pic = s.pic := rfl
@[simp] theorem State.raiseT_plant (src info : Nat) : (s.raiseT src info).plant = s.plant := rfl

@[simp] theorem State.refuse_pending (a : Nat) : (s.refuse a).pending = s.pending := rfl
@[simp] theorem State.refuse_sent (a : Nat) : (s.refuse a).sent = s.sent := rfl
@[simp] theorem State.refuse_fresh (a : Nat) : (s.refuse a).fresh = s.fresh := rfl
@[simp] theorem State.refuse_draws (a : Nat) : (s.refuse a).draws = s.draws := rfl
@[simp] theorem State.refuse_fuses (a : Nat) : (s.refuse a).fuses = s.fuses := rfl
@[simp] theorem State.refuse_flashA (a : Nat) : (s.refuse a).flashA = s.flashA := rfl
@[simp] theorem State.refuse_flashB (a : Nat) : (s.refuse a).flashB = s.flashB := rfl
@[simp] theorem State.refuse_emg (a : Nat) : (s.refuse a).emg = s.emg := rfl
@[simp] theorem State.refuse_clk (a : Nat) : (s.refuse a).clk = s.clk := rfl
@[simp] theorem State.refuse_bus (a : Nat) : (s.refuse a).bus = s.bus := rfl
@[simp] theorem State.refuse_twin (a : Nat) : (s.refuse a).twin = s.twin := rfl
@[simp] theorem State.refuse_link (a : Nat) : (s.refuse a).link = s.link := rfl
@[simp] theorem State.refuse_saf (a : Nat) : (s.refuse a).saf = s.saf := rfl
@[simp] theorem State.refuse_links (a : Nat) : (s.refuse a).links = s.links := rfl
@[simp] theorem State.refuse_mgt (a : Nat) : (s.refuse a).mgt = s.mgt := rfl
@[simp] theorem State.refuse_cap (a : Nat) : (s.refuse a).cap = s.cap := rfl
@[simp] theorem State.refuse_chans (a : Nat) : (s.refuse a).chans = s.chans := rfl
@[simp] theorem State.refuse_sch (a : Nat) : (s.refuse a).sch = s.sch := rfl
@[simp] theorem State.refuse_ing (a : Nat) : (s.refuse a).ing = s.ing := rfl
@[simp] theorem State.refuse_aud (a : Nat) : (s.refuse a).aud = s.aud := rfl
@[simp] theorem State.refuse_egr (a : Nat) : (s.refuse a).egr = s.egr := rfl
@[simp] theorem State.refuse_cal (a : Nat) : (s.refuse a).cal = s.cal := rfl
@[simp] theorem State.refuse_pic (a : Nat) : (s.refuse a).pic = s.pic := rfl
@[simp] theorem State.refuse_plant (a : Nat) : (s.refuse a).plant = s.plant := rfl

@[simp] theorem State.setPinned_pending (l : List Nat) : (s.setPinned l).pending = s.pending := rfl
@[simp] theorem State.setPinned_sent (l : List Nat) : (s.setPinned l).sent = s.sent := rfl
@[simp] theorem State.setPinned_fresh (l : List Nat) : (s.setPinned l).fresh = s.fresh := rfl
@[simp] theorem State.setPinned_draws (l : List Nat) : (s.setPinned l).draws = s.draws := rfl
@[simp] theorem State.setPinned_fuses (l : List Nat) : (s.setPinned l).fuses = s.fuses := rfl
@[simp] theorem State.setPinned_flashA (l : List Nat) : (s.setPinned l).flashA = s.flashA := rfl
@[simp] theorem State.setPinned_flashB (l : List Nat) : (s.setPinned l).flashB = s.flashB := rfl
@[simp] theorem State.setPinned_emg (l : List Nat) : (s.setPinned l).emg = s.emg := rfl
@[simp] theorem State.setPinned_clk (l : List Nat) : (s.setPinned l).clk = s.clk := rfl
@[simp] theorem State.setPinned_bus (l : List Nat) : (s.setPinned l).bus = s.bus := rfl
@[simp] theorem State.setPinned_twin (l : List Nat) : (s.setPinned l).twin = s.twin := rfl
@[simp] theorem State.setPinned_link (l : List Nat) : (s.setPinned l).link = s.link := rfl
@[simp] theorem State.setPinned_saf (l : List Nat) : (s.setPinned l).saf = s.saf := rfl
@[simp] theorem State.setPinned_links (l : List Nat) : (s.setPinned l).links = s.links := rfl
@[simp] theorem State.setPinned_mgt (l : List Nat) : (s.setPinned l).mgt = s.mgt := rfl
@[simp] theorem State.setPinned_cap (l : List Nat) : (s.setPinned l).cap = s.cap := rfl
@[simp] theorem State.setPinned_chans (l : List Nat) : (s.setPinned l).chans = s.chans := rfl
@[simp] theorem State.setPinned_sch (l : List Nat) : (s.setPinned l).sch = s.sch := rfl
@[simp] theorem State.setPinned_ing (l : List Nat) : (s.setPinned l).ing = s.ing := rfl
@[simp] theorem State.setPinned_aud (l : List Nat) : (s.setPinned l).aud = s.aud := rfl
@[simp] theorem State.setPinned_egr (l : List Nat) : (s.setPinned l).egr = s.egr := rfl
@[simp] theorem State.setPinned_cal (l : List Nat) : (s.setPinned l).cal = s.cal := rfl
@[simp] theorem State.setPinned_pic (l : List Nat) : (s.setPinned l).pic = s.pic := rfl
@[simp] theorem State.setPinned_plant (l : List Nat) : (s.setPinned l).plant = s.plant := rfl

@[simp] theorem State.modChan_pending (n : Nat) (f : Chan → Chan) : (s.modChan n f).pending = s.pending := rfl
@[simp] theorem State.modChan_sent (n : Nat) (f : Chan → Chan) : (s.modChan n f).sent = s.sent := rfl
@[simp] theorem State.modChan_fresh (n : Nat) (f : Chan → Chan) : (s.modChan n f).fresh = s.fresh := rfl
@[simp] theorem State.modChan_draws (n : Nat) (f : Chan → Chan) : (s.modChan n f).draws = s.draws := rfl
@[simp] theorem State.modChan_regs (n : Nat) (f : Chan → Chan) : (s.modChan n f).regs = s.regs := rfl
@[simp] theorem State.modChan_fuses (n : Nat) (f : Chan → Chan) : (s.modChan n f).fuses = s.fuses := rfl
@[simp] theorem State.modChan_flashA (n : Nat) (f : Chan → Chan) : (s.modChan n f).flashA = s.flashA := rfl
@[simp] theorem State.modChan_flashB (n : Nat) (f : Chan → Chan) : (s.modChan n f).flashB = s.flashB := rfl
@[simp] theorem State.modChan_emg (n : Nat) (f : Chan → Chan) : (s.modChan n f).emg = s.emg := rfl
@[simp] theorem State.modChan_clk (n : Nat) (f : Chan → Chan) : (s.modChan n f).clk = s.clk := rfl
@[simp] theorem State.modChan_evt (n : Nat) (f : Chan → Chan) : (s.modChan n f).evt = s.evt := rfl
@[simp] theorem State.modChan_bus (n : Nat) (f : Chan → Chan) : (s.modChan n f).bus = s.bus := rfl
@[simp] theorem State.modChan_twin (n : Nat) (f : Chan → Chan) : (s.modChan n f).twin = s.twin := rfl
@[simp] theorem State.modChan_link (n : Nat) (f : Chan → Chan) : (s.modChan n f).link = s.link := rfl
@[simp] theorem State.modChan_saf (n : Nat) (f : Chan → Chan) : (s.modChan n f).saf = s.saf := rfl
@[simp] theorem State.modChan_links (n : Nat) (f : Chan → Chan) : (s.modChan n f).links = s.links := rfl
@[simp] theorem State.modChan_mgt (n : Nat) (f : Chan → Chan) : (s.modChan n f).mgt = s.mgt := rfl
@[simp] theorem State.modChan_cap (n : Nat) (f : Chan → Chan) : (s.modChan n f).cap = s.cap := rfl
@[simp] theorem State.modChan_sch (n : Nat) (f : Chan → Chan) : (s.modChan n f).sch = s.sch := rfl
@[simp] theorem State.modChan_ing (n : Nat) (f : Chan → Chan) : (s.modChan n f).ing = s.ing := rfl
@[simp] theorem State.modChan_aud (n : Nat) (f : Chan → Chan) : (s.modChan n f).aud = s.aud := rfl
@[simp] theorem State.modChan_egr (n : Nat) (f : Chan → Chan) : (s.modChan n f).egr = s.egr := rfl
@[simp] theorem State.modChan_cal (n : Nat) (f : Chan → Chan) : (s.modChan n f).cal = s.cal := rfl
@[simp] theorem State.modChan_pic (n : Nat) (f : Chan → Chan) : (s.modChan n f).pic = s.pic := rfl
@[simp] theorem State.modChan_plant (n : Nat) (f : Chan → Chan) : (s.modChan n f).plant = s.plant := rfl

/-! ## What they write -/

theorem State.wr_regs (a : Nat) (v : Word) : (s.wr a v).regs = sparseSet resetOf s.regs a v := rfl
theorem State.elapse_clk (n : Nat) : (s.elapse n).clk = { s.clk with
    dtc := if s.emg.started then (s.clk.dtc + n * s.tickInc) % 2 ^ 96 else s.clk.dtc } := rfl
@[simp] theorem State.elapse_doff (n : Nat) : (s.elapse n).clk.doff = s.clk.doff := rfl
@[simp] theorem State.elapse_inc (n : Nat) : (s.elapse n).clk.inc = s.clk.inc := rfl
@[simp] theorem State.send_sent (x : Sent) : (s.send x).sent = x :: s.sent := rfl
@[simp] theorem State.freshId_fresh : s.freshId.fresh = s.fresh + 1 := rfl
@[simp] theorem State.afterDraw_draws : s.afterDraw.draws = s.draws + 1 := rfl
@[simp] theorem State.raise_evt (src info : Nat) :
    (s.raise src info).evt = { s.evt with raises := s.evt.raises ++ [⟨src, info, false⟩] } := rfl

/-! ## Reading after a write -/

/-- A register reads what was written; every other reads as before. -/
theorem State.rd_wr (a b : Nat) (v : Word) : (s.wr a v).rd b = if b = a then v else s.rd b :=
  sparseGet_set resetOf s.regs a v b

@[simp] theorem State.rd_wr_self (a : Nat) (v : Word) : (s.wr a v).rd a = v := by rw [State.rd_wr, if_pos rfl]

theorem State.rd_wr_other (a b : Nat) (v : Word) (h : b ≠ a) : (s.wr a v).rd b = s.rd b := by
  rw [State.rd_wr, if_neg h]

@[simp] theorem State.rd_wrN_self (a v : Nat) : (s.wrN a v).rd a = BitVec.ofNat 32 v := by simp [State.wrN]

theorem State.rd_wrN_other (a b v : Nat) (h : b ≠ a) : (s.wrN a v).rd b = s.rd b := State.rd_wr_other s a b _ h

theorem State.rd_setFld_other (a b hi lo v : Nat) (h : b ≠ a) : (s.setFld a hi lo v).rd b = s.rd b :=
  State.rd_wr_other s a b _ h

theorem State.rd_setBit_other (a b i : Nat) (c : Bool) (h : b ≠ a) : (s.setBit a i c).rd b = s.rd b :=
  State.rd_wr_other s a b _ h

theorem State.rd_bump_other (a b n : Nat) (h : b ≠ a) : (s.bump a n).rd b = s.rd b := State.rd_wr_other s a b _ h

/-- Counters wrap at 2³² (R502, R511). -/
theorem State.rdN_bump (a n : Nat) : (s.bump a n).rdN a = (s.rdN a + n) % 4294967296 := by
  simp [State.bump, State.rdN, BitVec.toNat_ofNat]

theorem State.rdN_wrN (a v : Nat) : (s.wrN a v).rdN a = v % 4294967296 := by
  simp [State.rdN, BitVec.toNat_ofNat]

/-! ## What reads only the register file -/

theorem State.rd_congr {s t : State} (h : t.regs = s.regs) (a : Nat) : t.rd a = s.rd a := by unfold State.rd; rw [h]
theorem State.rdN_of {s t : State} {a : Nat} (h : t.rd a = s.rd a) : t.rdN a = s.rdN a := by unfold State.rdN; rw [h]
theorem State.fld_of {s t : State} {a : Nat} (h : t.rd a = s.rd a) (hi lo : Nat) : t.fld a hi lo = s.fld a hi lo := by
  unfold State.fld; rw [h]
theorem State.bit_of {s t : State} {a : Nat} (h : t.rd a = s.rd a) (i : Nat) : t.bit a i = s.bit a i := by
  unfold State.bit; rw [State.fld_of h]

@[simp] theorem State.rd_elapse (n : Nat) (a₀ : Nat) : (s.elapse n).rd a₀ = s.rd a₀ := rfl
@[simp] theorem State.rdN_elapse (n : Nat) (a₀ : Nat) : (s.elapse n).rdN a₀ = s.rdN a₀ := rfl
@[simp] theorem State.fld_elapse (n : Nat) (a₀ hi lo : Nat) : (s.elapse n).fld a₀ hi lo = s.fld a₀ hi lo := rfl
@[simp] theorem State.bit_elapse (n : Nat) (a₀ i₀ : Nat) : (s.elapse n).bit a₀ i₀ = s.bit a₀ i₀ := rfl
@[simp] theorem State.rd_send (x : Sent) (a₀ : Nat) : (s.send x).rd a₀ = s.rd a₀ := rfl
@[simp] theorem State.rdN_send (x : Sent) (a₀ : Nat) : (s.send x).rdN a₀ = s.rdN a₀ := rfl
@[simp] theorem State.fld_send (x : Sent) (a₀ hi lo : Nat) : (s.send x).fld a₀ hi lo = s.fld a₀ hi lo := rfl
@[simp] theorem State.bit_send (x : Sent) (a₀ i₀ : Nat) : (s.send x).bit a₀ i₀ = s.bit a₀ i₀ := rfl
@[simp] theorem State.rd_freshId (a₀ : Nat) : (s.freshId).rd a₀ = s.rd a₀ := rfl
@[simp] theorem State.rdN_freshId (a₀ : Nat) : (s.freshId).rdN a₀ = s.rdN a₀ := rfl
@[simp] theorem State.fld_freshId (a₀ hi lo : Nat) : (s.freshId).fld a₀ hi lo = s.fld a₀ hi lo := rfl
@[simp] theorem State.bit_freshId (a₀ i₀ : Nat) : (s.freshId).bit a₀ i₀ = s.bit a₀ i₀ := rfl
@[simp] theorem State.rd_afterDraw (a₀ : Nat) : (s.afterDraw).rd a₀ = s.rd a₀ := rfl
@[simp] theorem State.rdN_afterDraw (a₀ : Nat) : (s.afterDraw).rdN a₀ = s.rdN a₀ := rfl
@[simp] theorem State.fld_afterDraw (a₀ hi lo : Nat) : (s.afterDraw).fld a₀ hi lo = s.fld a₀ hi lo := rfl
@[simp] theorem State.bit_afterDraw (a₀ i₀ : Nat) : (s.afterDraw).bit a₀ i₀ = s.bit a₀ i₀ := rfl
@[simp] theorem State.rd_raise (src info : Nat) (a₀ : Nat) : (s.raise src info).rd a₀ = s.rd a₀ := rfl
@[simp] theorem State.rdN_raise (src info : Nat) (a₀ : Nat) : (s.raise src info).rdN a₀ = s.rdN a₀ := rfl
@[simp] theorem State.fld_raise (src info : Nat) (a₀ hi lo : Nat) : (s.raise src info).fld a₀ hi lo = s.fld a₀ hi lo := rfl
@[simp] theorem State.bit_raise (src info : Nat) (a₀ i₀ : Nat) : (s.raise src info).bit a₀ i₀ = s.bit a₀ i₀ := rfl
@[simp] theorem State.rd_raiseLimited (src info : Nat) (a₀ : Nat) : (s.raiseLimited src info).rd a₀ = s.rd a₀ := rfl
@[simp] theorem State.rdN_raiseLimited (src info : Nat) (a₀ : Nat) : (s.raiseLimited src info).rdN a₀ = s.rdN a₀ := rfl
@[simp] theorem State.fld_raiseLimited (src info : Nat) (a₀ hi lo : Nat) : (s.raiseLimited src info).fld a₀ hi lo = s.fld a₀ hi lo := rfl
@[simp] theorem State.bit_raiseLimited (src info : Nat) (a₀ i₀ : Nat) : (s.raiseLimited src info).bit a₀ i₀ = s.bit a₀ i₀ := rfl
@[simp] theorem State.rd_raiseT (src info : Nat) (a₀ : Nat) : (s.raiseT src info).rd a₀ = s.rd a₀ := rfl
@[simp] theorem State.rdN_raiseT (src info : Nat) (a₀ : Nat) : (s.raiseT src info).rdN a₀ = s.rdN a₀ := rfl
@[simp] theorem State.fld_raiseT (src info : Nat) (a₀ hi lo : Nat) : (s.raiseT src info).fld a₀ hi lo = s.fld a₀ hi lo := rfl
@[simp] theorem State.bit_raiseT (src info : Nat) (a₀ i₀ : Nat) : (s.raiseT src info).bit a₀ i₀ = s.bit a₀ i₀ := rfl
@[simp] theorem State.rd_modChan (n : Nat) (f : Chan → Chan) (a₀ : Nat) : (s.modChan n f).rd a₀ = s.rd a₀ := rfl
@[simp] theorem State.rdN_modChan (n : Nat) (f : Chan → Chan) (a₀ : Nat) : (s.modChan n f).rdN a₀ = s.rdN a₀ := rfl
@[simp] theorem State.fld_modChan (n : Nat) (f : Chan → Chan) (a₀ hi lo : Nat) : (s.modChan n f).fld a₀ hi lo = s.fld a₀ hi lo := rfl
@[simp] theorem State.bit_modChan (n : Nat) (f : Chan → Chan) (a₀ i₀ : Nat) : (s.modChan n f).bit a₀ i₀ = s.bit a₀ i₀ := rfl

/-! ## Fields of a word -/

theorem fldOf_lt (w : Word) (hi lo : Nat) : fldOf w hi lo < 2 ^ (hi + 1 - lo) := Nat.mod_lt _ (Nat.two_pow_pos _)

/-- The lower bits of a natural number, its field above them and the rest. -/
theorem field_split (x lo n : Nat) :
    x = x % 2 ^ lo + x / 2 ^ lo % 2 ^ n * 2 ^ lo + x / 2 ^ lo / 2 ^ n * (2 ^ n * 2 ^ lo) := by
  have a := Nat.div_add_mod x (2 ^ lo)
  have b := Nat.div_add_mod (x / 2 ^ lo) (2 ^ n)
  have c : x / 2 ^ lo * 2 ^ lo = x / 2 ^ lo % 2 ^ n * 2 ^ lo + x / 2 ^ lo / 2 ^ n * (2 ^ n * 2 ^ lo) := by
    rw [← Nat.mul_assoc, ← Nat.add_mul, Nat.mul_comm (x / 2 ^ lo / 2 ^ n), Nat.add_comm, b]
  rw [Nat.mul_comm] at a
  omega

/-- A field reads what was put into it, cut to its width. -/
theorem fldOf_fldPut (w : Word) (hi lo v : Nat) (h : hi < 32) (hl : lo ≤ hi) :
    fldOf (fldPut w hi lo v) hi lo = v % 2 ^ (hi + 1 - lo) := by
  obtain ⟨n, hn⟩ : ∃ n, n = hi + 1 - lo := ⟨_, rfl⟩
  have e : 2 ^ 32 = 2 ^ lo * (2 ^ n * 2 ^ (31 - hi)) := by
    rw [← Nat.pow_add, ← Nat.pow_add]; congr 1; omega
  unfold fldPut fldOf
  rw [← hn, BitVec.toNat_ofNat]
  have hs := field_split w.toNat lo n
  have hm := Nat.mod_lt w.toNat (Nat.two_pow_pos lo)
  have hv := Nat.mod_lt v (Nat.two_pow_pos n)
  generalize w.toNat % 2 ^ lo = r at hs hm
  generalize w.toNat / 2 ^ lo / 2 ^ n = q at hs
  generalize w.toNat / 2 ^ lo % 2 ^ n = f at hs
  have hk : w.toNat - f * 2 ^ lo + v % 2 ^ n * 2 ^ lo = r + (v % 2 ^ n + 2 ^ n * q) * 2 ^ lo := by
    rw [Nat.add_mul, show 2 ^ n * q * 2 ^ lo = q * (2 ^ n * 2 ^ lo) by rw [Nat.mul_comm (2 ^ n), Nat.mul_assoc]]
    omega
  rw [hk, e, Nat.mod_mul_right_div_self, Nat.add_mul_div_right _ _ (Nat.two_pow_pos lo), Nat.div_eq_of_lt hm,
    Nat.zero_add, Nat.mod_mul_right_mod, Nat.add_mul_mod_self_left, Nat.mod_mod]

/-- A word after a field was put, as its parts: below, the field, above. -/
theorem fldPut_parts (w : Word) (hi lo v : Nat) (h : hi < 32) (hl : lo ≤ hi) : (fldPut w hi lo v).toNat =
    w.toNat % 2 ^ lo + (v % 2 ^ (hi + 1 - lo) + 2 ^ (hi + 1 - lo) * (w.toNat / 2 ^ lo / 2 ^ (hi + 1 - lo))) * 2 ^ lo := by
  obtain ⟨n, hn⟩ : ∃ n, n = hi + 1 - lo := ⟨_, rfl⟩
  have e : 2 ^ 32 = 2 ^ lo * (2 ^ n * 2 ^ (31 - hi)) := by
    rw [← Nat.pow_add, ← Nat.pow_add]; congr 1; omega
  unfold fldPut fldOf
  rw [← hn, BitVec.toNat_ofNat]
  have hw := w.isLt
  have hs := field_split w.toNat lo n
  have hm := Nat.mod_lt w.toNat (Nat.two_pow_pos lo)
  have hv := Nat.mod_lt v (Nat.two_pow_pos n)
  have hq : w.toNat / 2 ^ lo / 2 ^ n < 2 ^ (31 - hi) := by
    rw [Nat.div_div_eq_div_mul, Nat.div_lt_iff_lt_mul (Nat.mul_pos (Nat.two_pow_pos _) (Nat.two_pow_pos _)),
      Nat.mul_comm, Nat.mul_assoc, ← e]
    exact hw
  generalize w.toNat % 2 ^ lo = r at *
  generalize w.toNat / 2 ^ lo / 2 ^ n = q at *
  generalize w.toNat / 2 ^ lo % 2 ^ n = f at *
  have hk : w.toNat - f * 2 ^ lo + v % 2 ^ n * 2 ^ lo = r + (v % 2 ^ n + 2 ^ n * q) * 2 ^ lo := by
    rw [Nat.add_mul, show 2 ^ n * q * 2 ^ lo = q * (2 ^ n * 2 ^ lo) by rw [Nat.mul_comm (2 ^ n), Nat.mul_assoc]]
    omega
  rw [hk]
  apply Nat.mod_eq_of_lt
  have h1 : v % 2 ^ n + 2 ^ n * q < 2 ^ n * 2 ^ (31 - hi) := by
    calc v % 2 ^ n + 2 ^ n * q < 2 ^ n + 2 ^ n * q := by omega
      _ = 2 ^ n * (q + 1) := by rw [Nat.mul_add, Nat.mul_one, Nat.add_comm]
      _ ≤ _ := Nat.mul_le_mul_left _ hq
  calc r + (v % 2 ^ n + 2 ^ n * q) * 2 ^ lo < 2 ^ lo + (v % 2 ^ n + 2 ^ n * q) * 2 ^ lo := by omega
    _ = (v % 2 ^ n + 2 ^ n * q + 1) * 2 ^ lo := by rw [Nat.add_mul _ 1, Nat.one_mul, Nat.add_comm]
    _ ≤ (2 ^ n * 2 ^ (31 - hi)) * 2 ^ lo := Nat.mul_le_mul_right _ h1
    _ = _ := by rw [e, Nat.mul_comm]

theorem fldOf_fldPut_below (w : Word) (hi lo v h2 l2 : Nat) (h : hi < 32) (hl : lo ≤ hi) (hb : h2 < lo) :
    fldOf (fldPut w hi lo v) h2 l2 = fldOf w h2 l2 := by
  unfold fldOf
  rw [fldPut_parts w hi lo v h hl]
  by_cases hl2 : l2 ≤ h2 + 1
  · obtain ⟨d, hd⟩ : ∃ d, lo = l2 + (h2 + 1 - l2) + d := ⟨lo - (h2 + 1), by omega⟩
    have key : ∀ x y : Nat, x % 2 ^ lo = y % 2 ^ lo →
        x / 2 ^ l2 % 2 ^ (h2 + 1 - l2) = y / 2 ^ l2 % 2 ^ (h2 + 1 - l2) := by
      intro x y e
      rw [← Nat.mod_mul_right_div_self, ← Nat.mod_mul_right_div_self, ← Nat.pow_add]
      have dv : 2 ^ (l2 + (h2 + 1 - l2)) ∣ 2 ^ lo := ⟨2 ^ d, by rw [← Nat.pow_add, ← hd]⟩
      rw [← Nat.mod_mod_of_dvd x dv, e, Nat.mod_mod_of_dvd y dv]
    apply key
    rw [Nat.add_mul_mod_self_right, Nat.mod_mod]
  · have : h2 + 1 - l2 = 0 := by omega
    rw [this, Nat.pow_zero, Nat.mod_one, Nat.mod_one]

theorem fldOf_fldPut_above (w : Word) (hi lo v h2 l2 : Nat) (h : hi < 32) (hl : lo ≤ hi) (hb : hi < l2) :
    fldOf (fldPut w hi lo v) h2 l2 = fldOf w h2 l2 := by
  unfold fldOf
  have key : (fldPut w hi lo v).toNat / 2 ^ l2 = w.toNat / 2 ^ l2 := by
    obtain ⟨d, hd⟩ : ∃ d, l2 = lo + (hi + 1 - lo) + d := ⟨l2 - (hi + 1), by omega⟩
    rw [hd, Nat.pow_add, Nat.pow_add, ← Nat.div_div_eq_div_mul, ← Nat.div_div_eq_div_mul, ← Nat.div_div_eq_div_mul,
      ← Nat.div_div_eq_div_mul, fldPut_parts w hi lo v h hl, Nat.add_mul_div_right _ _ (Nat.two_pow_pos lo),
      Nat.div_eq_of_lt (Nat.mod_lt _ (Nat.two_pow_pos lo)), Nat.zero_add, Nat.add_mul_div_left _ _ (Nat.two_pow_pos _),
      Nat.div_eq_of_lt (Nat.mod_lt _ (Nat.two_pow_pos _)), Nat.zero_add]
  rw [key]
theorem State.fld_setFld_apart (a hi lo v h2 l2 : Nat) (h : hi < 32) (hl : lo ≤ hi) (hd : h2 < lo ∨ hi < l2) :
    (s.setFld a hi lo v).fld a h2 l2 = s.fld a h2 l2 := by
  simp only [State.fld, State.setFld, State.rd_wr_self]
  rcases hd with hd | hd
  · exact fldOf_fldPut_below _ _ _ _ _ _ h hl hd
  · exact fldOf_fldPut_above _ _ _ _ _ _ h hl hd
theorem State.fld_setFld (a hi lo v : Nat) (h : hi < 32) (hl : lo ≤ hi) :
    (s.setFld a hi lo v).fld a hi lo = v % 2 ^ (hi + 1 - lo) := by
  simp only [State.fld, State.setFld, State.rd_wr_self, fldOf_fldPut _ _ _ _ h hl]

theorem State.bit_setBit (a i : Nat) (b : Bool) (h : i < 32) : (s.setBit a i b).bit a i = b := by
  simp only [State.bit, State.setBit, State.fld_setFld s a i i _ h (Nat.le_refl i)]
  cases b <;> simp [b2n]

end Sys2Proof.Machine
end

