-- ==== Sys2Proof/Laws/Settle.lean ====
section
/-! SUPPORT. What ending a command does beyond its own effect: `settle` writes event records, so it changes the registers of the
event unit, the event unit's own state and the counts of the event subscriptions, and nothing else. -/

namespace Sys2Proof.Machine

/-- `t` differs from `s` by event records at most. -/
structure EventsOnly (s t : State) : Prop where
  rd : ∀ a, ¬ eventReg a → t.rd a = s.rd a
  pending : t.pending = s.pending
  sent : t.sent = s.sent
  fresh : t.fresh = s.fresh
  draws : t.draws = s.draws
  fuses : t.fuses = s.fuses
  flashA : t.flashA = s.flashA
  flashB : t.flashB = s.flashB
  emg : t.emg = s.emg
  clk : t.clk = s.clk
  bus : t.bus = s.bus
  twin : t.twin = s.twin
  link : t.link = s.link
  saf : t.saf = s.saf
  links : t.links = s.links
  cap : t.cap = s.cap
  chans : t.chans = s.chans
  sch : t.sch = s.sch
  ing : t.ing = s.ing
  aud : t.aud = s.aud
  egr : t.egr = s.egr
  cal : t.cal = s.cal
  pic : t.pic = s.pic
  plant : t.plant = s.plant

theorem EventsOnly.refl (s : State) : EventsOnly s s := by constructor <;> intros <;> rfl

theorem EventsOnly.trans {s t u : State} (h : EventsOnly s t) (k : EventsOnly t u) : EventsOnly s u where
  rd a n := (k.rd a n).trans (h.rd a n)
  pending := k.pending.trans h.pending
  sent := k.sent.trans h.sent
  fresh := k.fresh.trans h.fresh
  draws := k.draws.trans h.draws
  fuses := k.fuses.trans h.fuses
  flashA := k.flashA.trans h.flashA
  flashB := k.flashB.trans h.flashB
  emg := k.emg.trans h.emg
  clk := k.clk.trans h.clk
  bus := k.bus.trans h.bus
  twin := k.twin.trans h.twin
  link := k.link.trans h.link
  saf := k.saf.trans h.saf
  links := k.links.trans h.links
  cap := k.cap.trans h.cap
  chans := k.chans.trans h.chans
  sch := k.sch.trans h.sch
  ing := k.ing.trans h.ing
  aud := k.aud.trans h.aud
  egr := k.egr.trans h.egr
  cal := k.cal.trans h.cal
  pic := k.pic.trans h.pic
  plant := k.plant.trans h.plant

theorem EventsOnly.wr {z s : State} {a : Nat} {v : Word} (ha : eventReg a) (h : EventsOnly z s) :
    EventsOnly z (s.wr a v) := h.trans
  { EventsOnly.refl s with rd := fun b nb => State.rd_wr_other s a b v (fun e => nb (e ▸ ha)) }

theorem EventsOnly.wrN {z s : State} {a v : Nat} (ha : eventReg a) (h : EventsOnly z s) : EventsOnly z (s.wrN a v) :=
  h.wr ha

theorem EventsOnly.bump {z s : State} {a n : Nat} (ha : eventReg a) (h : EventsOnly z s) : EventsOnly z (s.bump a n) :=
  h.wr ha

theorem EventsOnly.setFld {z s : State} {a hi lo v : Nat} (ha : eventReg a) (h : EventsOnly z s) :
    EventsOnly z (s.setFld a hi lo v) := h.wr ha

theorem EventsOnly.evt {z s : State} {e : Evt} (h : EventsOnly z s) : EventsOnly z { s with evt := e } :=
  h.trans { EventsOnly.refl s with }

theorem EventsOnly.mgt {z s : State} {m : Mgt} (h : EventsOnly z s) : EventsOnly z { s with mgt := m } :=
  h.trans { EventsOnly.refl s with }

theorem EventsOnly.when {z s : State} {c : Bool} {f : State → State} (h : EventsOnly z s)
    (k : ∀ x, EventsOnly z x → EventsOnly z (f x)) : EventsOnly z (s.when c f) := by
  unfold State.when; split
  · exact k s h
  · exact h

theorem eventReg_ring (h k : Nat) (hh : h < 4096) (hk : k < 4) : eventReg (Reg.EVT_RING h k) := by
  unfold eventReg Reg.EVT_RING; omega

theorem severityOf_lt (n : Nat) : severityOf n < 4 := by
  unfold severityOf
  dsimp only
  repeat' split
  all_goals omega

theorem sourceAssigned_lt (n : Nat) (h : sourceAssigned n = true) : n < 1014 := by
  unfold sourceAssigned at h
  repeat' split at h
  all_goals first
    | omega
    | (simp at h; omega)

theorem State.setPinned_events {z s : State} {l : List Nat} (h : EventsOnly z s) : EventsOnly z (s.setPinned l) :=
  (h.evt (e := { s.evt with pinned := l })).wrN (a := Reg.EVT_PENDING) (by decide)

theorem State.noteOverwrite_events {z s : State} {n : Nat} (h : EventsOnly z s) : EventsOnly z (s.noteOverwrite n) := by
  unfold State.noteOverwrite
  split
  · exact h
  · exact h.mgt

theorem State.writeRecord_events {z s : State} {src time info : Nat} (h : EventsOnly z s) :
    EventsOnly z (s.writeRecord src time info) := by
  unfold State.writeRecord
  extract_lets hd s1 t full pin old w0 s2 s3 s4 s5 s6
  have r : hd < 4096 := Nat.mod_lt _ (by omega)
  have k1 : EventsOnly z s1 := State.noteOverwrite_events h
  have k2 : EventsOnly z s2 := (((k1.wrN (eventReg_ring _ _ r (by omega))).wrN (eventReg_ring _ _ r (by omega))).wrN
    (eventReg_ring _ _ r (by omega))).wrN (eventReg_ring _ _ r (by omega))
  have k3 : EventsOnly z s3 := k2.wrN (by decide)
  have k4 : EventsOnly z s4 := k3.when fun x hx => (hx.wrN (by decide)).bump (by decide)
  have k5 : EventsOnly z s5 := k4.bump (by
    have := severityOf_lt src
    unfold eventReg Reg.EVT_COUNT_SEV; omega)
  exact State.setPinned_events k5.evt

theorem State.recordIfEnabled_events {z s : State} {src time info : Nat} (h : EventsOnly z s) :
    EventsOnly z (s.recordIfEnabled src time info) := h.when fun _ hx => State.writeRecord_events hx

theorem State.closeWindow_events {z s : State} {src : Nat} (h : EventsOnly z s) : EventsOnly z (s.closeWindow src) := by
  unfold State.closeWindow
  split
  · exact h
  · exact h.evt.when fun _ hx => State.recordIfEnabled_events hx

theorem State.takeRaise_events {z s : State} {r : Raise} (h : EventsOnly z s) : EventsOnly z (s.takeRaise r) := by
  unfold State.takeRaise
  split
  · rename_i ha
    have k : EventsOnly z (s.setFld (Reg.EVT_SRC r.src) 15 0 (s.fld (Reg.EVT_SRC r.src) 15 0 + 1)) := h.setFld (by
      have := sourceAssigned_lt _ ha
      unfold eventReg Reg.EVT_SRC; omega)
    generalize s.setFld (Reg.EVT_SRC r.src) 15 0 (s.fld (Reg.EVT_SRC r.src) 15 0 + 1) = x at k
    dsimp only
    split
    · split
      · split
        · exact k.evt
        · exact ((State.closeWindow_events k).evt).when fun _ hx => State.recordIfEnabled_events hx
      · exact k.evt.when fun _ hx => State.recordIfEnabled_events hx
    · exact State.recordIfEnabled_events k
  · exact h

/-- What the end of a command may change. -/
theorem State.settle_events (s : State) : EventsOnly s s.settle := by
  unfold State.settle State.each
  have : ∀ (l : List Raise) (x : State), EventsOnly s x → EventsOnly s (l.foldl (fun t r => t.takeRaise r) x) := by
    intro l
    induction l with
    | nil => exact fun x h => h
    | cons r l ih => exact fun x h => ih _ (State.takeRaise_events h)
  exact this _ _ (EventsOnly.refl s).evt

theorem State.settle_rd (s : State) (a : Nat) (h : ¬ eventReg a) : s.settle.rd a = s.rd a := (State.settle_events s).rd a h
theorem State.settle_rdN (s : State) (a : Nat) (h : ¬ eventReg a) : s.settle.rdN a = s.rdN a :=
  State.rdN_of (State.settle_rd s a h)
theorem State.settle_fld (s : State) (a hi lo : Nat) (h : ¬ eventReg a) : s.settle.fld a hi lo = s.fld a hi lo :=
  State.fld_of (State.settle_rd s a h) hi lo
theorem State.settle_bit (s : State) (a i : Nat) (h : ¬ eventReg a) : s.settle.bit a i = s.bit a i :=
  State.bit_of (State.settle_rd s a h) i
@[simp] theorem State.settle_pending (s : State) : s.settle.pending = s.pending := (State.settle_events s).pending
@[simp] theorem State.settle_sent (s : State) : s.settle.sent = s.sent := (State.settle_events s).sent
@[simp] theorem State.settle_fresh (s : State) : s.settle.fresh = s.fresh := (State.settle_events s).fresh
@[simp] theorem State.settle_draws (s : State) : s.settle.draws = s.draws := (State.settle_events s).draws
@[simp] theorem State.settle_fuses (s : State) : s.settle.fuses = s.fuses := (State.settle_events s).fuses
@[simp] theorem State.settle_flashA (s : State) : s.settle.flashA = s.flashA := (State.settle_events s).flashA
@[simp] theorem State.settle_flashB (s : State) : s.settle.flashB = s.flashB := (State.settle_events s).flashB
@[simp] theorem State.settle_emg (s : State) : s.settle.emg = s.emg := (State.settle_events s).emg
@[simp] theorem State.settle_clk (s : State) : s.settle.clk = s.clk := (State.settle_events s).clk
@[simp] theorem State.settle_bus (s : State) : s.settle.bus = s.bus := (State.settle_events s).bus
@[simp] theorem State.settle_twin (s : State) : s.settle.twin = s.twin := (State.settle_events s).twin
@[simp] theorem State.settle_link (s : State) : s.settle.link = s.link := (State.settle_events s).link
@[simp] theorem State.settle_saf (s : State) : s.settle.saf = s.saf := (State.settle_events s).saf
@[simp] theorem State.settle_links (s : State) : s.settle.links = s.links := (State.settle_events s).links
@[simp] theorem State.settle_cap (s : State) : s.settle.cap = s.cap := (State.settle_events s).cap
@[simp] theorem State.settle_chans (s : State) : s.settle.chans = s.chans := (State.settle_events s).chans
@[simp] theorem State.settle_sch (s : State) : s.settle.sch = s.sch := (State.settle_events s).sch
@[simp] theorem State.settle_ing (s : State) : s.settle.ing = s.ing := (State.settle_events s).ing
@[simp] theorem State.settle_aud (s : State) : s.settle.aud = s.aud := (State.settle_events s).aud
@[simp] theorem State.settle_egr (s : State) : s.settle.egr = s.egr := (State.settle_events s).egr
@[simp] theorem State.settle_cal (s : State) : s.settle.cal = s.cal := (State.settle_events s).cal
@[simp] theorem State.settle_pic (s : State) : s.settle.pic = s.pic := (State.settle_events s).pic
@[simp] theorem State.settle_plant (s : State) : s.settle.plant = s.plant := (State.settle_events s).plant

/-- With nothing raised the end of a command changes nothing. -/
theorem State.settle_quiet (s : State) (h : s.evt.raises = []) : s.settle = s := by
  unfold State.settle State.each
  rw [h]
  obtain ⟨_, _, _, _, _, _, _, _, _, _, e, _⟩ := s
  obtain ⟨_⟩ := e
  cases h
  rfl

end Sys2Proof.Machine
end

