-- ==== Sys2Proof/WellFormed.lean ====
section
/-! DEFINITION. Which commands are well formed: their operands lie within the widths and counts the spec gives. What a command
does on a state is defined for every operand; this says which operands can come about. -/

namespace Sys2Proof

/-- Header fields of a Beacon message fit their bytes, its OP is the command's and its tag has 16 bytes (R504). -/
def beaconWf (m : BeaconMsg) (op : Nat) : Bool :=
  decide (m.magic < 65536) && decide (m.version < 256) && decide (m.op = op) && decide (m.flags < 256) &&
  decide (m.status < 256) && decide (m.length < 65536) && decide (m.session < 2 ^ 32) && decide (m.seq < 2 ^ 64) &&
  decide (m.tag.length = 16) && (match m.port with | none => true | some p => decide (p < 8))

/-- Port, sub-port, length and fields of a received frame (R101, R385). -/
def frameWf (m : MediaFrame) : Bool :=
  decide (m.port < 8) && decide (m.sub < 4) && decide (64 ≤ m.len) && decide (m.len ≤ 9216) && decide (m.fault ≤ 3) &&
  decide (m.dport < 65536) && m.tags.all fun v => decide (v < 4096)

/-- Fields of a flame word (R350, R351). -/
def wordWf (w : FlameWord) : Bool :=
  decide (w.kind < 8) && decide (w.unit < 2) && decide (w.aux < 16) && decide (w.epoch < 2 ^ 32) && decide (w.check < 256)

/-- LSEQ of a Lantern frame has 16 bits (R396). -/
def headerWf (h : LHeader) : Bool := decide (h.lseq < 65536)

/-- A network lane has three eyes, an NRZ lane one; no opening passes the largest separation or the unit interval (R383). -/
def eyeWf (n : Nat) (e : EyeScan) : Bool :=
  let eyes := if n < 8 then 3 else 1
  let sep := e.separations.foldl max 0
  decide (e.heights.length = eyes) && decide (e.separations.length = eyes) && decide (e.widths.length = eyes) &&
    decide (0 < sep) && decide (0 < e.ui) && e.heights.all (fun h => decide (h ≤ sep)) &&
    e.widths.all fun w => decide (w ≤ e.ui)

/-- A burst has at most 16 beats, and is cut short (R489, R492). -/
def burstWf (b : Burst) : Bool := decide (b.mdie < 8) && decide (b.mid < 8) && decide (b.total ≤ 16) && decide (b.beats < b.total)

/-- A well-formed command. -/
def Instr.wf : Instr → Bool
  | .resetNAssert _ => true
  | .e0Start _ vcores rails => decide (vcores.length = 8) && decide (rails.length = 5)
  | .railLoss _ _ _ => true
  | .vcoreRailInRange _ _ => true
  | .vcoreRangeTimeout _ _ => true
  | .e0Complete _ => true
  | .dieSelfTestDone _ _ _ => true
  | .e1DieTimeout _ _ => true
  | .e2Complete _ linksUp => decide (linksUp.length = 12)
  | .imageLoadDone _ _ _ => true
  | .haltedRescan _ => true
  | .restoreDone _ => true
  | .restoreWindowTimeout _ => true
  | .memoryTrainingDone _ _ _ _ _ _ => true
  | .memoryFillDone _ _ _ => true
  | .laneUpTimeout _ => true
  | .e5Complete _ => true
  | .timeAcquisitionTimeout _ => true
  | .twinJoinTimeout _ => true
  | .admission _ => true
  | .e8Timeout _ => true
  | .emgReset _ _ => true
  | .flashOpen _ m _ _ => beaconWf m 5
  | .flashData _ m _ data => beaconWf m 5 && decide (1 ≤ data.length) && decide (data.length ≤ 1024)
  | .flashCommit _ m => beaconWf m 5
  | .flashAbort _ m => beaconWf m 5
  | .flashSessionTimeout _ => true
  | .keyClaim _ m => beaconWf m 6
  | .wearLogAppend _ => true
  | .chnEnableWrite _ _ _ => true
  | .channelDisabled _ _ => true
  | .pictureBoundary _ _ => true
  | .controlStep _ _ => true
  | .mediaFrameRx _ m => frameWf m
  | .pathDown _ _ _ => true
  | .tsGapPass _ _ => true
  | .slotEmpty _ _ _ => true
  | .bandDeadline _ _ _ b => decide (b < 64)
  | .ftPolWrite _ _ _ _ => true
  | .recordWaitTimeout _ _ _ step b => decide (step ≤ 3) && decide (b < 64)
  | .preparationDone _ _ _ => true
  | .allocationWaitEnd _ _ => true
  | .takeRequest _ _ => true
  | .workComplete _ _ _ => true
  | .workFault _ _ => true
  | .channelTagFault _ _ => true
  | .stallWatchdog _ _ _ => true
  | .bandTimingDeparture _ _ _ b => decide (b < 64)
  | .engineResetDone _ _ => true
  | .engineResetTimeout _ _ => true
  | .trcRestart _ _ _ => true
  | .datagramClose _ _ _ _ => true
  | .datagramRelease _ _ _ _ => true
  | .frameSelect _ _ _ _ _ => true
  | .cursorSample _ => true
  | .departureJudgement _ _ _ => true
  | .dieLimitExpiry _ _ _ => true
  | .tfRateWrite _ _ _ => true
  | .tmgGclDataWrite _ _ _ => true
  | .gclCommit _ _ _ => true
  | .gateCycleStart _ _ => true
  | .gateEntryExpiry _ _ => true
  | .audioFrameSync _ _ ins _ => decide (ins.length ≤ 16)
  | .audSlotMaskWrite _ _ _ => true
  | .audCsTxWrite _ _ _ _ _ => true
  | .audEnableWrite _ _ _ => true
  | .aes3FrameRx _ _ f => decide (f.subs.length = 2)
  | .wclkStop _ => true
  | .wclkGlitch _ => true
  | .wclkRateChange _ _ => true
  | .flywheelExpiry _ => true
  | .wclkQualified _ _ => true
  | .syncRx _ m => decide (m.port < 32) && decide (m.domain < 256) && decide (m.seq < 65536)
  | .followUpRx _ _ seq _ _ => decide (seq < 65536)
  | .announceRx _ m => decide (m.port < 32) && decide (m.domain < 256) && decide (m.sm.length ≤ 16)
  | .delayReqSend _ => true
  | .delayRespRx _ domain seq _ _ _ => decide (domain < 256) && decide (seq < 65536)
  | .pdelayReqRx _ port domain _ _ => decide (port < 32) && decide (domain < 256)
  | .announceTimeout _ => true
  | .ppsInEdge _ => true
  | .ppsStop _ => true
  | .ppsOutSecond _ => true
  | .refclkStop _ _ => true
  | .refclkGlitch _ _ => true
  | .refclkRateChange _ _ _ => true
  | .refclkQualified _ _ => true
  | .pilotRatioMeasure _ _ => true
  | .flameSetRx _ _ w => wordWf w
  | .wickWordRx _ w => wordWf w
  | .presenceBeaconRx _ _ payload => decide (payload.length = 40)
  | .leaseSend _ => true
  | .wickWordSend _ => true
  | .presenceBeaconSend _ => true
  | .leaseLapse _ => true
  | .twnCmdHandover _ => true
  | .handoverDrainDone _ => true
  | .twnCmdResync _ => true
  | .snapshotReferencesArrived _ _ => true
  | .holdOffExpiry _ => true
  | .holderDigestMissing _ _ _ => true
  | .decisionRecordRx _ h _ bytes => headerWf h && decide (bytes.length = 96)
  | .bandEntryRx _ h _ _ bytes => headerWf h && decide (bytes.length = 72)
  | .gapEntryRx _ h bytes => headerWf h && decide (bytes.length = 16)
  | .liveWriteRx _ h addr _ => headerWf h && decide (addr < 2 ^ 32) && decide (addr % 4 = 0)
  | .spliceCommandRx _ h _ _ _ _ => headerWf h
  | .dimReportRx _ h _ _ => headerWf h
  | .inputDigestRx _ h _ _ part digest => headerWf h && decide (part < 2) && decide (digest < 2 ^ 64)
  | .outputDigestRx _ h _ _ _ digest => headerWf h && decide (digest < 2 ^ 64)
  | .cursorFrameRx _ h entries => headerWf h && decide (entries.length ≤ 256)
  | .failureRecordRx _ h bytes => headerWf h && decide (bytes.length = 32)
  | .liveRegisterImageRx _ h fields => headerWf h && fields.all fun e => decide (e.1 % 4 = 0) && decide (e.2 < 2 ^ 32)
  | .snapshotFrameRx _ h _ _ => headerWf h
  | .joinControlRx _ h _ => headerWf h
  | .idleSetRx _ _ rx tx ack check _ =>
    decide (rx < 256) && decide (tx < 256) && decide (ack < 65536) && decide (check < 256)
  | .idleSend _ => true
  | .skipSend _ => true
  | .skipSetRx _ _ _ => true
  | .abortSetRx _ => true
  | .lanternResendTimeout _ => true
  | .laneLockLoss _ _ _ _ => true
  | .laneLockAcquire _ _ _ _ => true
  | .laneJoin _ _ _ => true
  | .fomUpdate _ _ n eye _ _ _ => eyeWf n eye
  | .subportUp _ _ _ => true
  | .mgmtLinkChange _ _ _ _ => true
  | .adaptationCycle _ _ _ => true
  | .calibrationCommit _ _ _ => true
  | .calCtxRead _ _ _ _ => true
  | .calSigRead _ _ _ _ => true
  | .calWindowWrite _ r i _ => decide (i.val ≤ if 80 ≤ r.val then 10 else 5)
  | .vcoreOutOfWindow _ _ _ => true
  | .autoResetExpiry _ => true
  | .lockstepMismatch _ _ _ => true
  | .lockstepRestartDone _ _ _ => true
  | .sramUncorrectableError _ _ _ => true
  | .dieLinkFailure _ _ cut taken => cut.all burstWf && decide (taken.length ≤ 1024)
  | .dieLinkAck _ _ => true
  | .memoryRequest _ _ _ _ write _ _ len data => decide (len ≤ 256) && (!write || decide (data.bytes.length = len))
  | .memoryAccessDone _ _ _ _ => true
  | .refreshDue _ _ _ => true
  | .memoryTempRead _ _ _ _ => true
  | .selfRefreshEntry _ _ => true
  | .selfRefreshScrub _ _ => true
  | .retrainIntervalExpiry _ _ _ => true
  | .memoryErrorInterval _ _ _ => true
  | .retrainingSliceStart _ _ _ => true
  | .retrainingSliceEnd _ _ _ _ => true
  | .sensorSample _ _ elems => decide (elems.length = 16)
  | .thermalGraceExpiry _ _ => true
  | .dimStepTimer _ _ => true
  | .dimRecoveryTimer _ _ => true
  | .waxMeasurement _ _ counts => decide (counts.length = 32)
  | .pmbAlert _ => true
  | .pmbusPoll _ => true
  | .pmbusTransferDone _ _ _ => true
  | .pmbusStuck _ => true
  | .voutStep _ _ => true
  | .voutConfirmTimeout _ _ => true
  | .dailyPlanning _ => true
  | .crcStart _ _ _ _ _ => true
  | .crcFeedB _ _ _ _ _ => true
  | .crcFeedH _ _ _ _ _ => true
  | .crcFeedW _ _ _ _ _ => true
  | .crcCfgWrite _ _ _ _ _ => true
  | .crcValueWrite _ _ _ _ _ => true
  | .reg64LoRead _ _ _ addr => decide (addr < 2 ^ 32)
  | .reg64LoWrite _ _ _ addr _ => decide (addr < 2 ^ 32)
  | .reg64HiWrite _ _ _ addr _ => decide (addr < 2 ^ 32)
  | .registerWrite _ _ _ addr _ => decide (addr < 2 ^ 32)
  | .wrongWidthAccess _ _ _ addr width =>
    decide (addr < 2 ^ 32) && (width == 8 || width == 16 || width == 32 || width == 64 || width == 128)
  | .undecodedAccess _ _ _ addr => decide (addr < 2 ^ 32)
  | .masterResetMidBurst _ b _ _ => burstWf b
  | .evtTailWrite _ _ => true
  | .rateLimitWindowClose _ src => decide (src < 1024)
  | .beaconRead _ m => beaconWf m 1
  | .beaconWrite _ m => beaconWf m 2
  | .beaconBlockRead _ m start _ => beaconWf m 3 && decide (start < 2 ^ 32)
  | .beaconSubscribe _ m _ _ _ => beaconWf m 4
  | .subscriptionExpiry _ _ => true
  | .telemetryNotify _ _ => true
  | .eventBatchNotify _ _ => true
  | .traceNotify _ _ => true
  | .arpRx _ _ _ _ _ => true
  | .icmpEchoRx _ _ _ _ _ => true
  | .igmpQueryRx _ _ _ _ => true
  | .i2cPointerWrite _ _ => true
  | .i2cRead _ len _ => decide (1 ≤ len)
  | .i2cWindowRefresh _ => true
  | .i2cTimeout _ => true
  | .releaseInstant _ _ _ => true
  | .audioDueInstant _ _ _ => true
  | .audioFlowPacketTime _ _ _ => true
  | .sramCorrectedError _ _ => true
  | .jtagInstruction _ _ _ => true

end Sys2Proof
end

