-- ==== Sys2Proof/Tests/Slice0.lean ====
section
/-! SUPPORT. The package's own tests. `witness_<statement>_<clause>`: a concrete state and operands that meet the hypotheses of
that clause of the statement, at the edge of a range where it has one. `test_<what>`: a value that the spec gives. `wf_<check>`:
an ill-formed command for each check of WellFormed. -/

namespace Sys2Proof.Tests

set_option Elab.async false

open Sys2Proof.Machine

/-! ## Small states -/

/-- `s` with registers set. -/
def put (l : List (Nat × Nat)) (s : State) : State := l.foldl (fun s e => s.wrN e.1 e.2) s

/-- The state after reset with registers set. -/
def at0 (l : List (Nat × Nat)) : State := put l State.reset

/-- Emergence has reached phase `p`, every die works. -/
def inPhase (p : Nat) (l : List (Nat × Nat) := []) : State :=
  let s := at0 ((Reg.EMG_STATUS, p) :: (Reg.SAF_STATUS, 0x00FF0000) :: l)
  { s with emg := { s.emg with started := true, mgmtUp := decide (3 ≤ p), i2cUp := decide (1 ≤ p) } }

/-- A LIVE, sealed unit with live permissions for whole registers. -/
def liveWith (perms : List Nat) (l : List (Nat × Nat) := []) : State :=
  let s := inPhase 9 l
  let s := s.setBit Reg.EMG_STATUS 8 true
  { s with emg := { s.emg with imageLoaded := true, operatingKey := [1, 2, 3], livePerms := perms.map fun a => (a, 0xFFFFFFFF) } }

/-- A unit of a pair in phase `p`. -/
def twinUnit (p : Nat) (role : Role) (l : List (Nat × Nat) := []) : State :=
  let s := inPhase p ((Reg.IDN_UNIT, 2) :: l)
  { s with twin := { s.twin with role := role } }

def record (n k : Nat) : DecisionRecord where
  chan := n
  forceRefresh := false
  discontinuity := false
  mirrorH := false
  mirrorV := false
  slateEn := false
  effort := 4
  dim := 0
  lookahead := 0
  boundary := 0
  index := k
  qtarget := 900
  capPic := 0
  capRate := 0
  capWin := 0
  gdrSpan := 1
  period := 1
  slateId := 0
  slateTime := 0
  outcome := 0
  refreshCause := 0
  splices := []
  sourceTs := 0
  refInstant := 0
  bandCount := 1

/-- Item `k` of channel `n` in a format of one band. -/
def item (n k : Nat) : Item := { State.reset.blankItem n k (record n k) with bands := [Band.reset] }

/-- `s` with channel `n` holding item `k` as `f` makes it. -/
def withItem (n k : Nat) (f : Item → Item) (s : State) : State :=
  s.modChan n fun c => { c with items := [f (item n k)], next := k + 1 }

/-! ## Messages -/

/-- A Beacon request on the MGMT lane under the operating key [1, 2, 3] of session 0, number 1. -/
def opMsg (op : Nat) (p : List Byte) : BeaconMsg :=
  ⟨0x424E, 1, op, 0, 0, p.length, 0, 1, p, beaconTag [1, 2, 3] (beaconHead op 0 0 p.length 0 1 ++ p), 9, none, 15⟩

/-- The same under the recovery key. -/
def recMsg (op : Nat) (p : List Byte) : BeaconMsg :=
  ⟨0x424E, 1, op, 4, 0, p.length, 0, 1, p, beaconTag Config.recoveryKey (beaconHead op 4 0 p.length 0 1 ++ p), 9, none, 15⟩

theorem opMsg_accepted (s : State) (op : Nat) (p : List Byte) (h1 : s.emg.mgmtUp = true) (h2 : s.emg.imageLoaded = true)
    (h3 : s.emg.operatingKey = [1, 2, 3]) (h4 : s.rdN Reg.MGT_SESSION = 0) (h5 : s.mgt.seqOp = 0)
    (h6 : p.length ≤ 1400) : s.accepts (opMsg op p) op := by
  refine ⟨?_, rfl, ?_, by simp [opMsg], by simp [opMsg], ?_, ?_, ?_⟩
  · simp [State.beaconReach, opMsg, h1]
  · simp [msgFormOk, opMsg, beaconTag_length, h6]
  · simp [State.tagOk, State.keyAllowed, State.keyOf, msgRecovery, opMsg, h2, h3]
  · simp [opMsg, h4]
  · simp [State.seqHigh, msgRecovery, opMsg, h5]

theorem recMsg_accepted (s : State) (op : Nat) (p : List Byte) (h1 : s.emg.mgmtUp = true) (h2 : s.emg.imageLoaded = false)
    (h4 : s.rdN Reg.MGT_SESSION = 0) (h5 : s.mgt.seqRec = 0) (h6 : p.length ≤ 1400) : s.accepts (recMsg op p) op := by
  refine ⟨?_, rfl, ?_, by simp [recMsg], by simp [recMsg], ?_, ?_, ?_⟩
  · simp [State.beaconReach, recMsg, h1]
  · simp [msgFormOk, recMsg, beaconTag_length, h6]
  · simp [State.tagOk, State.keyAllowed, State.keyOf, State.noImage, msgRecovery, recMsg, h2]
  · simp [recMsg, h4]
  · simp [State.seqHigh, msgRecovery, recMsg, h5]

/-! ## Witnesses: the core statements -/

def queued : State := { State.reset with pending := [.i2cPointerWrite 1 7#8, .railLoss 0 .vsd 0] }

theorem witness_FrontCommandRuns_queue : queued.pending = .i2cPointerWrite 1 7#8 :: [.railLoss 0 .vsd 0] := rfl
theorem witness_FrontCommandRuns_idle : State.reset.pending = [] := rfl
theorem witness_ResetRegisters_zero : Reg.MGT_SESSION < 0x01000000 ∧
    Reg.MGT_SESSION ∉ [Reg.EVT_CTRL, Reg.CAP_AVS, Reg.CAP_AVS_CFG, Reg.THM_CTRL, Reg.IDN_PART] ∧
    (∀ i < 4, Reg.MGT_SESSION ≠ Reg.IDN_SERIAL i) ∧ ¬ (0x4000 ≤ Reg.MGT_SESSION ∧ Reg.MGT_SESSION < 0x5000) ∧ ∀ p < 8, Reg.MGT_SESSION ≠ Reg.TMG_STATUS p := by
  decide +kernel
theorem witness_EveryStepKeepsCanonicalTables : ∃ t, queued.wf = true ∧ step queued = .next t :=
  ⟨_, by decide +kernel, rfl⟩
theorem witness_FuseBitsOnlyRise : ∃ t, step queued = .next t := ⟨_, rfl⟩
theorem witness_QueueIsFirstInFirstOut : ∃ t, step State.reset = .next t := ⟨_, rfl⟩
theorem witness_NoRaiseWaitsBetweenCommands_command : ∃ t, exec (.railLoss 0 .vsd 0) State.reset = .next t := ⟨_, rfl⟩
theorem witness_NoRaiseWaitsBetweenCommands_idle : ∃ t, State.reset.pending = [] ∧ State.reset.evt.raises = [] ∧
    step State.reset = .next t := ⟨_, rfl, rfl, rfl⟩

/-! ## Witnesses: emergence -/

theorem witness_ResetsClearEveryRegister_pin : (inPhase 9).emg.started = true := by decide +kernel
theorem witness_ResetsClearEveryRegister_halted : (inPhase 10).halted = true := by decide +kernel
theorem witness_ResetsClearEveryRegister_snuffed : (inPhase 9 [(Reg.SAF_STATUS, 0x80FF0000)]).snuffed = true := by
  decide +kernel
/-- A LIVE unit whose image sets RESET_LIVE. -/
def resetLive : State := let s := inPhase 9; { s with emg := { s.emg with resetLive := true } }
theorem witness_ResetsClearEveryRegister_live : resetLive.live = true ∧ resetLive.emg.resetLive = true := by decide +kernel
/-- Snuffed at instant 0 for the cause `c`, AUTO_DELAY 1 s, every die at `x` eighths of a degree. -/
def snuffedFor (c x : Nat) : State :=
  let s := inPhase 9 ([(Reg.SAF_STATUS, 0x80FF0000 + c), (Reg.SAF_CTRL, 0x80010000)] ++
    (List.range 8).map fun d => (Reg.THD_STATUS d, x))
  { s with saf := { s.saf with snuffAt := some 0 } }
theorem witness_ResetsClearEveryRegister_auto : ∀ c ∈ [1, 7], (snuffedFor c 799).snuffed = true ∧
    (snuffedFor c 799).bit Reg.SAF_CTRL 31 = true ∧ ((snuffedFor c 799).elapse 200000000).autoDue = true ∧ ((snuffedFor c 799).fld Reg.SAF_STATUS 7 0 = 7 →
      ∀ d < 8, (BitVec.ofNat 16 ((snuffedFor c 799).fld (Reg.THD_STATUS d) 15 0)).toInt < 800) := by decide +kernel
theorem witness_ResetsClearEveryRegister_refused :
    (¬ (0xA55B#32 = 0xA55A#32 ∧ ((inPhase 10).halted = true ∨ (inPhase 10).snuffed = true ∨
      ((inPhase 10).live = true ∧ (inPhase 10).emg.resetLive = true)))) ∧
    ¬ (0xA55A#32 = 0xA55A#32 ∧ ((inPhase 9).halted = true ∨ (inPhase 9).snuffed = true ∨
      ((inPhase 9).live = true ∧ (inPhase 9).emg.resetLive = true))) := by decide +kernel

theorem witness_ResetsClearEveryRegister_rail : ∀ x ∈ [(Rail.vsd, 824999), (.vsh, 1236001), (.vio, 1890001), (.vio, 3134999)],
    railInRange x.1 x.2 = false := by decide +kernel
/-- Every rail at an end of its range; VCORE0 and VCORE7 in range, VCORE3 out of it. -/
def rails : List (Rail × Nat) := [(.vsd, 825000), (.vsh, 1236000), (.vgio, 1067000), (.vaux, 1890000), (.vio, 3135000)]
theorem witness_EarlyPhasesBegin_start : State.reset.emg.started = false ∧ railsInRange rails = true ∧
    vcoreInRange ([750000, 0, 0, 0, 0, 0, 0, 620000].getD 0 0) = true ∧
    vcoreInRange ([750000, 0, 0, 0, 0, 0, 0, 620000].getD 7 0) = true ∧
    ∀ d < 8, State.reset.emg.rails.getD d false = true → vcoreInRange ([750000, 0, 0, 0, 0, 0, 0, 620000].getD d 0) = true := by
  decide +kernel
theorem witness_EarlyPhasesBegin_complete : (inPhase 0).emg.started = true ∧ (inPhase 0).phase = 0 ∧
    (inPhase 0).emg.i2cUp = false ∧ (inPhase 0).emg.tests.length = 8 := by decide +kernel

/-- E1 with every die's test in one state, die 3 at `x` eighths of a degree. -/
def testsAt (x : DieTest) (temp : Nat) : State :=
  let s := inPhase 1 [(Reg.THD_STATUS 3, temp)]
  { s with emg := { s.emg with tests := List.replicate 8 x } }
theorem witness_SelfTestsEnd_waiting : (testsAt .waiting 0).phase = 1 ∧ (testsAt .waiting 0).emg.tests.length = 8 ∧
    (testsAt .waiting 0).dieTest 3 = .waiting := by decide +kernel
theorem witness_SelfTestsEnd_testing : ∀ x ∈ [799, 800, 0xFFFF], (testsAt .testing x).phase = 1 ∧
    (testsAt .testing x).emg.tests.length = 8 ∧ (testsAt .testing x).dieTest 3 = .testing := by decide +kernel

/-- E2 with the dies' test results `l`. -/
def tested (l : List DieTest) : State := let s := inPhase 2; { s with emg := { s.emg with tests := l } }
def allPassed : List DieTest := List.replicate 8 .passed
theorem witness_LaterPhasesFollow_e2 : ∀ r ∈ [allPassed, allPassed.set 0 .failed, (allPassed.set 3 .failed).set 7 .failed],
    (tested r).phase = 2 ∧ (∀ d < 8, (tested r).dieTest d = .passed ∨ (tested r).dieTest d = .failed) ∧
    ((tested r).dieTest 0 = .passed ∨ (tested r).dieTest 7 = .passed) ∧
    ∀ d < 8, (tested r).dieTest d = .passed → ∃ l < 12, (List.replicate 12 true).getD l false = true ∧
      (tested r).dieTest (linkEnds l).1 = .passed ∧ (tested r).dieTest (linkEnds l).2 = .passed ∧
      ((linkEnds l).1 = d ∨ (linkEnds l).2 = d) := by decide +kernel
theorem witness_LaterPhasesFollow_e3 : (inPhase 3).phase = 3 := by decide +kernel
theorem witness_LaterPhasesFollow_none : (inPhase 3).candidates (fun p => if p = 0 then true else false) = [] ∧
    ((inPhase 3).choose []).2 = none := by decide +kernel

/-- The bytes of a copy with the five required sections, empty but for the flags word of the live permissions, SEQUENCE 7 and
CLAIM: a header and body of 108 bytes, and a signature block whose ECDSA P-384 signature verifies. -/
def copyBytes : Nat :=
  0x4e434c460100089607000000000000002c00000005000001999f54d200000000464c532d3000000000000000000000000000000000000000000000000000000001000100000000000200010000000000070001000000000009000100000000000c000100040000000000000004209ae47104a8fd4f7a8e8fee69eb1d4260617656e7cb3dba9263fe902d53d2f948afba2631cbf5f3e8c6bf1fd71ff930c13f555ed96d0e9573d3009dd1ca486a10834aad3049e7d6a17bff74020f7ed7ab4eb649deccdbaa6047721bafb2af26000000b4780ba6795534dcfcbfef01aaeb19f4da63aca1d37c93cc9c85bd65fc3eeeff09a80d2bd55089d7f8aef39ccbadf5c2b4780ba6795534dcfcbfef01aaeb19f4da63aca1d37c93cc9c85bd65fc3eeeff09a80d2bd55089d7f8aef39ccbadf5c2000000000000000000000000000000000000000000000000000000000000000000000000000000000000000000000000000000000000000000000000
def copyCells : List Host.Cell :=
  ((List.range 364).map fun i => (i, BitVec.ofNat 8 (copyBytes / 256 ^ (363 - i)))).filter fun e => e.2 != 0xFF#8
def copyHeader : CopyHeader := ⟨0, 0, 7, 44, 5, 0, true, false⟩
def withCopy : State := { inPhase 3 with flashA := copyCells }
theorem test_copy_is_candidate : withCopy.candidates (fun p => if p = 0 then true else false) = [copyHeader] := by decide +kernel
theorem test_copy_is_authentic : authFault withCopy.fuses (withCopy.flash 0) copyHeader = 0 := by decide +kernel
def copySections : List Section :=
  [⟨1, 1, false, [], 64⟩, ⟨2, 1, false, [], 72⟩, ⟨7, 1, false, [], 80⟩, ⟨9, 1, false, [], 88⟩,
    ⟨12, 1, false, [0, 0, 0, 0], 96⟩]
theorem test_copy_sections : sectionsOf (withCopy.flash 0) copyHeader = (copySections, none) := by decide +kernel
theorem reset_no_output_slots : ∀ k ∈ List.range 256, State.reset.audOut (k / 16) = false := by decide +kernel
theorem reset_no_input_slots : ∀ k ∈ List.range 256, State.reset.bit (Reg.AUD_SLOT_MASK (k / 16)) (k % 16) = false := by
  decide +kernel
theorem reset_no_audio_pids : ∀ n ∈ allChans, ∀ a ∈ List.range 8, State.reset.bit (Reg.CHN_OUT_AUD n a) 31 = false := by
  decide +kernel
theorem reset_no_flows : ∀ i ∈ List.range 2048, State.reset.flowValid i = false := by decide +kernel
theorem reset_readers (b : Nat) : State.reset.readersOf b = 0 := by
  have h1 := reset_no_output_slots
  have h2 := reset_no_audio_pids
  have h3 := reset_no_flows
  unfold State.readersOf
  rw [List.filter_eq_nil_iff.2 fun k hk => by simp [h1 k hk], List.filter_eq_nil_iff.2 fun i hi => by simp [h3 i hi],
    List.flatMap_eq_nil_iff.2 fun n hn => List.filter_eq_nil_iff.2 fun a ha => by simp [h2 n hn a ha]]
  rfl
theorem reset_writers (b : Nat) : State.reset.writersOf b = 0 := by
  have h1 := reset_no_input_slots
  have h0 : State.reset.flows = [] := by decide +kernel
  unfold State.writersOf
  rw [h0, List.filter_nil, List.filter_eq_nil_iff.2 fun k hk => by simp [h1 k hk]]
  rfl
theorem test_reset_keeps_image_rules : (imageRegs []).imageFaults [] = [] := by
  have h1 : loadedIn [] 0x100000 0x1000 96 = [] ∧ loadedIn [] 0x10000 0x400 16 = [] := by decide +kernel
  have h2 : (State.reset.flows.all State.reset.entryOk && State.reset.indexOk) = true := by decide +kernel
  have h3 : (List.range 2048).filter State.reset.flowValid = [] :=
    List.filter_eq_nil_iff.2 fun i hi => by simp [reset_no_flows i hi]
  have h4 : State.reset.bothPathsOk = true ∧ (List.range 8).all State.reset.gatesOk = true := by decide +kernel
  have h5 : State.reset.fld Reg.CAP_AVS 15 0 ≤ State.reset.fld Reg.CAP_AVS 31 16 ∧ ((List.range 16).all fun k =>
      decide (State.reset.fld (Reg.MC_CTRL (k / 2) (k % 2)) 15 8 ≤ State.reset.fld (Reg.MC_CTRL (k / 2) (k % 2)) 23 16)) = true := by
    decide +kernel
  have h : imageRegs [] = State.reset := rfl
  rw [h]
  unfold State.imageFaults
  rw [h1.1, h1.2, h2, h3, h4.1, h4.2, h5.2]
  simp [reset_readers, reset_writers, h5.1]

/-- The layout of the sections is not in the spec, and open in Config: where it takes this copy's empty sections and they load
nothing, the copy is chosen. -/
theorem copy_has_no_fault (hl : ∀ t v b, Config.sectionLayoutOk t v b = true) (ho : ∀ t b, Config.sectionLoads t b = []) :
    copyFault withCopy.fuses (withCopy.flash 0) copyHeader = none := by
  have hs : sectionsFault (withCopy.flash 0) copyHeader = none := by
    have hp : permSectionOk [0, 0, 0, 0] = true := by decide +kernel
    have ht : structureFaults copyHeader copySections = [] := by decide +kernel
    have hk := test_reset_keeps_image_rules
    have hv : ∀ c ∈ copySections, sectionValueOk c = true := by
      intro c hc
      by_cases h12 : c.type = 12
      · have : c.value = [0, 0, 0, 0] := by
          revert c; decide
        simp only [sectionValueOk, h12, this, if_true]
        exact hp
      · simp [sectionValueOk, h12, hl, ho]
    have hz : valueFaults copySections = [] := by
      have hn : copySections.flatMap sectionLoaded = [] := List.flatMap_eq_nil_iff.2 fun c _ => by
        simp [sectionLoaded, ho]
      simp only [valueFaults, hn, hk]
      rw [List.filter_eq_nil_iff.2 fun c hc => by simp [hv c hc]]
      rfl
    simp [sectionsFault, test_copy_sections, hz, ht, firstFault]
  have h5 : ¬ copyHeader.rollback < withCopy.fuses.count := by decide +kernel
  simp only [copyFault, test_copy_is_authentic, hs]
  simp [h5]
theorem witness_LaterPhasesFollow_image (hl : ∀ t v b, Config.sectionLayoutOk t v b = true)
    (ho : ∀ t b, Config.sectionLoads t b = []) :
    withCopy.phase = 3 ∧
    (withCopy.choose (withCopy.candidates fun p => if p = 0 then true else false)).2 = some copyHeader := by
  refine ⟨by decide +kernel, ?_⟩
  have hp : copyHeader.port = 0 := rfl
  rw [test_copy_is_candidate]
  simp only [State.choose, hp, copy_has_no_fault hl ho]
theorem witness_LaterPhasesFollow_halted : (inPhase 10).phase = 10 ∧ (inPhase 10).evt.raises = [] := by decide +kernel

/-- The restore window open, receiver 3 holding a whole copy whose signature word is `sig`. -/
def heldBody : List Nat := [0x01000003, 0, 0, 0, 0]
def holdingCopy (sig : Nat) : State :=
  let s := inPhase 4 [(Reg.EMG_STATUS, 0x804)]
  s.setRecv 3 { s.recv 3 with held := (heldBody ++ [sig]).mapIdx fun i w => (i, w) }
theorem test_holding_whole (sig : Nat) : (List.range (sigIndex 3 + 1)).filterMap
    (fun i => (((holdingCopy sig).recv 3).held.find? fun e => e.1 == i).map (·.2)) = heldBody ++ [sig] := rfl
theorem held_setting_of_whole (s : State) (r : Nat) (ws : List Nat) (hw : (List.range (sigIndex r + 1)).filterMap
      (fun i => ((s.recv r).held.find? fun e => e.1 == i).map (·.2)) = ws)
    (h : ws.length = sigIndex r + 1 ∧ ws.getD (sigIndex r) 0 = calSignature (ws.take (sigIndex r)) ∧
      (ws.take (sigIndex r)).getD 0 0 = s.calCtx r ∧ inRanges r (wordsSetting r (ws.take (sigIndex r))) = true) :
    s.heldSetting r = some (wordsSetting r (ws.take (sigIndex r))) := by
  subst hw
  exact if_pos h
theorem held_setting_of_empty (s : State) (r : Nat) (h : (s.recv r).held = []) : s.heldSetting r = none := by
  have hw : (List.range (sigIndex r + 1)).filterMap (fun i => ((s.recv r).held.find? fun e => e.1 == i).map (·.2)) = [] := by
    simp [h]
  unfold State.heldSetting
  exact if_neg fun hc => by simp [hw] at hc
theorem witness_LaterPhasesFollow_restore :
    let s := holdingCopy (calSignature heldBody)
    s.bit Reg.EMG_STATUS 11 = true ∧ s.heldSetting 3 = some (wordsSetting 3 heldBody) ∧ s.heldSetting 4 = none := by
  have hb (sig : Nat) : (holdingCopy sig).bit Reg.EMG_STATUS 11 = (holdingCopy 0).bit Reg.EMG_STATUS 11 := rfl
  have h0 : (holdingCopy 0).bit Reg.EMG_STATUS 11 = true := by decide +kernel
  have hc : heldBody.getD 0 0 = (holdingCopy 0).calCtx 3 := by decide +kernel
  have hr : inRanges 3 (wordsSetting 3 heldBody) = true := by decide +kernel
  have hx (sig : Nat) : (holdingCopy sig).calCtx 3 = (holdingCopy 0).calCtx 3 := rfl
  have e1 (sig : Nat) : (heldBody ++ [sig]).getD (sigIndex 3) 0 = sig := rfl
  have e2 (sig : Nat) : (heldBody ++ [sig]).take (sigIndex 3) = heldBody := rfl
  have hw := held_setting_of_whole (holdingCopy (calSignature heldBody)) 3 _ (test_holding_whole _)
  rw [e1, e2, hx] at hw
  exact ⟨(hb _).trans h0, hw ⟨rfl, rfl, hc, hr⟩,
    held_setting_of_empty _ 4 rfl⟩
theorem witness_LaterPhasesFollow_e5 : (inPhase 5).phase = 5 ∧ (inPhase 5).plant.avs.length = 8 ∧
    (inPhase 5).timeState ≠ 2 ∧ (inPhase 5).timeState ≠ 4 ∧ (inPhase 5).dieOk 7 = true := by decide +kernel

/-- E5 of a locked unit whose regulators take no further step. -/
def lockedStopped : State :=
  let s := inPhase 5 [(Reg.TIME_STATUS, 2)]
  { s with plant := { s.plant with avs := List.replicate 8 { Avs.reset with stopped := true } } }
theorem witness_LaterPhasesFollow_locked : lockedStopped.phase = 5 ∧ lockedStopped.plant.avs.length = 8 ∧
    lockedStopped.timeState = 2 ∧ ∀ d < 8, lockedStopped.canStep d true = false := by decide +kernel
theorem witness_LaterPhasesFollow_e6 : (inPhase 6).phase = 6 ∧ (inPhase 6 [(Reg.TIME_STATUS, 1)]).timeState = 1 := by
  decide +kernel

/-- HALTED with a FLASH session. -/
def session (f : Option FlashSession) : State := let s := inPhase 10; { s with emg := { s.emg with session := f } }
def flashAt (next : Nat) : FlashSession := ⟨1, 1, next, []⟩

theorem witness_FlashSessions_open : ((session none).elapse 0).accepts (recMsg 5 []) 5 ∧
    (session none).flashAllowed 1 1 = true ∧ (session none).emg.session = none :=
  ⟨recMsg_accepted _ _ _ (by decide +kernel) (by decide +kernel) (by decide +kernel) (by decide +kernel)
    (by decide +kernel), by decide +kernel, rfl⟩
/-- The last 1,024 bytes of a copy, and a first single byte. -/
theorem witness_FlashSessions_data : ∀ x ∈ [(0, 1), (32505856 - 1024, 1024)],
    ((session (some (flashAt x.1))).elapse 0).accepts (recMsg 5 []) 5 ∧
    (session (some (flashAt x.1))).emg.session = some (flashAt x.1) ∧
    (session (some (flashAt x.1))).flashAllowed (flashAt x.1).port (flashAt x.1).copy = true ∧
    List.replicate x.2 (0 : Byte) ≠ [] ∧ (List.replicate x.2 (0 : Byte)).length ≤ 1024 ∧
    (flashAt x.1).next + (List.replicate x.2 (0 : Byte)).length ≤ 32505856 := by
  intro x hx
  refine ⟨recMsg_accepted _ _ _ ?_ ?_ ?_ ?_ ?_, ?_⟩ <;> revert x <;> decide +kernel
/-- COMMIT of a copy without a header, and of the whole of the copy above. -/
theorem witness_FlashSessions_commit : commitFault (session none).fuses
    (flashProgram ((session none).flash 1) (copyBase 1) []) 1 1 = some (2, 0, 0) := by decide +kernel
def heldCopy : State :=
  session (some ⟨0, 0, 364, (List.range 364).map fun i => BitVec.ofNat 8 (copyBytes / 256 ^ (363 - i))⟩)
theorem test_held_copy_programmed : flashProgram (heldCopy.flash 0) (copyBase 0)
    ((List.range 364).map fun i => BitVec.ofNat 8 (copyBytes / 256 ^ (363 - i))) = copyCells := by decide +kernel
theorem witness_FlashSessions_commit_valid (hl : ∀ t v b, Config.sectionLayoutOk t v b = true)
    (ho : ∀ t b, Config.sectionLoads t b = []) :
    heldCopy.flashAllowed 0 0 = true ∧ commitFault heldCopy.fuses (flashProgram (heldCopy.flash 0) (copyBase 0)
      ((List.range 364).map fun i => BitVec.ofNat 8 (copyBytes / 256 ^ (363 - i)))) 0 0 = none := by
  have hh : readHeader copyCells 0 0 = some copyHeader := by decide +kernel
  have hf : copyFault heldCopy.fuses copyCells copyHeader = none := copy_has_no_fault hl ho
  refine ⟨by decide +kernel, ?_⟩
  rw [test_held_copy_programmed]
  simp only [commitFault, hh, hf]
theorem witness_FlashSessions_end : ((session (some (flashAt 9))).elapse 0).accepts (recMsg 5 []) 5 ∧
    (session (some (flashAt 9))).emg.session = some (flashAt 9) ∧
    (session (some (flashAt 9))).flashAllowed (flashAt 9).port (flashAt 9).copy = true ∧
    (session (some (flashAt 9))).emg.running ≠ some ((flashAt 9).port, (flashAt 9).copy) :=
  ⟨recMsg_accepted _ _ _ (by decide +kernel) (by decide +kernel) (by decide +kernel) (by decide +kernel)
    (by decide +kernel), by decide +kernel, by decide +kernel, by decide +kernel⟩

theorem witness_KeyClaimsAndWearLog_claim : ((inPhase 10).elapse 0).accepts (recMsg 6 (List.replicate 193 0)) 6 ∧
    (recMsg 6 (List.replicate 193 0)).payload.length = 193 ∧ (inPhase 10).fuses.claimLock = false ∧
    (inPhase 10).halted = true :=
  ⟨recMsg_accepted _ _ _ (by decide +kernel) (by decide +kernel) (by decide +kernel) (by decide +kernel)
    (by decide +kernel), by decide +kernel, by decide +kernel, by decide +kernel⟩
/-- One wear-log record waits; the next page is the last of a sector. -/
def logWaits : State := let s := inPhase 9; { s with emg := { s.emg with logQueue := [⟨1, [0]⟩], logNext := 255 } }
theorem witness_KeyClaimsAndWearLog_append : logWaits.emg.logQueue = ⟨1, [0]⟩ :: [] ∧
    logWaits.sectorBlank logWaits.oldestSector = true := by
  decide +kernel

/-! ## Witnesses: registers, fabric and events -/

theorem witness_ReservedOffsets : regAt 0x2018 = .reserved ∧
    ((inPhase 9).elapse 0).decodes 0x2018 = true := by decide +kernel

/-- Master 1 of die 2 has latched the _HI half of pair `a`. -/
def latched (a : Nat) : State :=
  let s := inPhase 9
  { s with bus := { s.bus with latches := [(masterNo 2 1, a, 5#32)] } }
theorem witness_PairsAreLatchedPerMaster_lo : ∃ d, regAt (Reg.CRC_POLY_LO 7 4) = .reg d ∧ d.half = 1 ∧ writable d = true ∧
    ((inPhase 9).elapse 0).decodes (Reg.CRC_POLY_LO 7 4) = true := by
  refine ⟨_, rfl, ?_⟩; decide +kernel
theorem witness_PairsAreLatchedPerMaster_hi : ∃ d, regAt (Reg.DTC_INC_LO + 4) = .reg d ∧ d.half = 2 ∧
    ((latched (Reg.DTC_INC_LO + 4)).elapse 0).decodes (Reg.DTC_INC_LO + 4) = true ∧
    (latched (Reg.DTC_INC_LO + 4)).latchOf (masterNo 2 1) (Reg.DTC_INC_LO + 4) = some 5#32 := by
  refine ⟨_, rfl, ?_⟩; decide +kernel
theorem witness_PairsAreLatchedPerMaster_poly : 4 ≤ (4 : Fin 8).val ∧
    ((inPhase 9).elapse 0).decodes (Reg.CRC_POLY_LO (7 : Fin 8) (4 : Fin 8) + 4) = true := by decide +kernel

theorem witness_WritesFollowTheAccessCode_status : fldOf 0x100#32 8 8 ≠ (inPhase 9).fld Reg.EMG_STATUS 8 8 := by
  decide +kernel
theorem witness_WritesFollowTheAccessCode_delay : (inPhase 8).sealed = false ∧
    fldOf 1#32 22 0 ≠ (inPhase 8).fld (Reg.CHN_DELAY (95 : Fin 96)) 22 0 := by decide +kernel

theorem witness_LivePermittedWritesTake_mask :
    (liveWith [Reg.AUD_SLOT_MASK 15] [(Reg.AUD_CTRL 15, 0x30011)]).mayWrite (Reg.AUD_SLOT_MASK 15) 15 0 = true ∧
    fldOf 0xFFFF#32 15 0 < 2 ^ (liveWith [Reg.AUD_SLOT_MASK 15] [(Reg.AUD_CTRL 15, 0x30011)]).audSlots 15 ∧
    (liveWith [Reg.AUD_SLOT_MASK 15] [(Reg.AUD_CTRL 15, 0x30011)]).aud.ports.length = 16 := by decide +kernel
theorem witness_LivePermittedWritesTake_status :
    (liveWith [Reg.AUD_CS_TX_A 0 5]).mayWrite (Reg.AUD_CS_TX_A 0 5) 31 0 = true := by decide +kernel
theorem witness_LivePermittedWritesTake_enable :
    (liveWith [Reg.AUD_CTRL 15]).mayWrite (Reg.AUD_CTRL 15) 31 31 = true := by decide +kernel
theorem witness_LivePermittedWritesTake_policer :
    ((liveWith [Reg.FT_POL_BURST 65535]).mayWrite (Reg.FT_POL_BURST 65535) 23 0 = true ∧ 1518 ≤ fldOf 1518#32 23 0) ∧
    (liveWith [Reg.FT_POL_RATE 65535]).mayWrite (Reg.FT_POL_RATE 65535) 19 0 = true ∧
      1 ≤ fldOf 400000#32 19 0 ∧ fldOf 400000#32 19 0 ≤ 400000 := by decide +kernel

theorem witness_CrcUnitsFollowTheModel : (true = true → 4 ≤ (4 : Fin 8).val) ∧ (false = true → 4 ≤ (0 : Fin 8).val) ∧
    ((inPhase 9).elapse 0).dieGone 7 = false ∧ fldOf 1#32 0 0 = 1 ∧ 1 ≤ fldOf 1#32 6 0 ∧ fldOf 64#32 6 0 ≤ 64 ∧
    ((inPhase 9 [(Reg.CRC_CFG 7 4, 8)]).crcCfg 7 4).w ≠ 0 ∧ (3 : Fin 8).val < 4 := by decide +kernel

theorem witness_AbnormalAccessesAreLogged : ¬ (16 = 32 ∧ 0 % 4 = 0) ∧ ¬ (32 = 32 ∧ 2 % 4 = 0) ∧
    ((inPhase 9).elapse 0).decodes 0x3000 = false := by decide +kernel

/-- A transaction in flight on link direction 3, and one waiting there where `w`. -/
def crossing (w : Bool) : State :=
  let s := inPhase 9
  { s with links := ⟨3, [⟨1, 1, 0, 3, [], true, none, none⟩], (if w then [⟨2, 1, 0, 3, [], false, none, none⟩] else []), [], []⟩,
           emg := { s.emg with links := List.replicate 12 true } }
theorem witness_DieLinkTransactions_ack : ∀ w ∈ [false, true],
    (crossing w).links.flight.find? (fun y => y.seq == 1) = some ⟨1, 1, 0, 3, [], true, none, none⟩ := by decide +kernel
theorem witness_DieLinkTransactions_failure : (crossing false).emg.links.getD 11 false = true ∧
    ∀ d < 8, d = (linkEnds 11).1 ∨ d = (linkEnds 11).2 →
      ∃ k < 3, linkNo d k ≠ 11 ∧ (crossing false).emg.links.getD (linkNo d k) false = true := by decide +kernel

/-- Two records unread, across the end of the ring. -/
def unreadTwo : State := at0 [(Reg.EVT_TAIL, 4095), (Reg.EVT_HEAD, 1)]
theorem witness_EventTailAndWindows_taken : unreadTwo.evt.raises = [] ∧
    (fldOf 1#32 11 0 + 4096 - unreadTwo.fld Reg.EVT_TAIL 11 0) % 4096 ≤ unreadTwo.unread := by decide +kernel
theorem witness_EventTailAndWindows_refused :
    unreadTwo.unread < (fldOf 2#32 11 0 + 4096 - unreadTwo.fld Reg.EVT_TAIL 11 0) % 4096 := by decide +kernel
theorem witness_EventTailAndWindows_close : State.reset.evt.raises = [] := rfl
theorem witness_RingWritesOneRecord : sourceAssigned 1 = true ∧ (at0 [(Reg.EVT_TAIL, 1)]).unread = 4095 ∧
    unreadTwo.unread ≠ 4095 := by decide +kernel

/-- One failed link: D0 to D1. -/
def oneLinkDown : State :=
  let s := inPhase 9
  { s with emg := { s.emg with links := (List.replicate 12 true).set (linkNo 0 0) false } }
theorem witness_DieLinkTransactions_routes : (∀ m < 12, oneLinkDown.emg.links.getD m false = decide (m ≠ linkNo 0 0)) ∧
    oneLinkDown.route 0 1 = some [1, 0, 1] ∧ oneLinkDown.route 2 5 = some [0, 1, 2] := by decide +kernel

/-! ## Witnesses: device time -/

def announce : Announce := ⟨0, 127, 1, 6, 0x21, 0x4E5D, 1, 7, 0, 5, [], 0, 1⟩
def sync (two : Bool) : SyncMsg := ⟨0, 127, 5, 1, two, 10, 2, 0, -3⟩
/-- A unit of PTP domain 127 that follows `announce`. -/
def follower : State :=
  let s := inPhase 9 [(Reg.PTP_CTRL, 0x7F000000), (Reg.NP_STATUS 0, 2)]
  { s with clk := { s.clk with master := some announce, foreign := [announce], waitFollow := some (sync true, 20), dreqAt := some 30 } }
theorem witness_PtpMessages_discard : follower.island = false ∧ follower.ptpAccepts 126 (follower.ptpUdp 0) = false ∧
    follower.ptpAccepts 127 (follower.ptpUdp 2) = false ∧ follower.syncOk { sync false with interval := -8 } = false ∧
    follower.announceOk { announce with interval := 4 } = false := by decide +kernel
theorem witness_PtpMessages_sync : ∀ two ∈ [false, true], follower.island = false ∧
    follower.ptpHears (sync two).port = true ∧ follower.syncOk (sync two) = true ∧ follower.clk.master = some announce ∧
    announce.sender = (sync two).sender ∧ announce.port = (sync two).port ∧ (sync two).twoStep = two := by decide +kernel
theorem witness_PtpMessages_pdelay : 5 ≤ follower.phase ∧ follower.halted = false ∧ follower.ptpHears announce.port = true ∧
    follower.bit Reg.PTP_CTRL 2 = false := by decide +kernel
theorem witness_PtpMessages_followUp : follower.clk.waitFollow = some (sync true, 20) ∧
    follower.clk.master = some announce := by decide +kernel
theorem witness_PtpMessages_delay : follower.island = false ∧ follower.ptpAccepts 127 (follower.ptpUdp 0) = true ∧
    follower.clk.dreqAt = some 30 := by decide +kernel
theorem witness_PtpMessages_announce : follower.island = false ∧
    follower.announceOk announce = true ∧
    ((follower.clk.foreign.filter fun f => !(f.sender == announce.sender && f.port == announce.port)).filter
      fun f => f.port == announce.port).length < 16 := by decide +kernel

/-- The sub-port of the primary PTP port is UP; a peer-to-peer image. -/
def ptpUp : State := inPhase 5 [(Reg.PTP_CTRL, 0x7F000004), (Reg.PTP_PORTS, 31), (Reg.NP_STATUS 7, 0x80)]
theorem witness_PtpSendsAndTimeouts_sends : ptpUp.island = false ∧ 5 ≤ ptpUp.phase ∧ ptpUp.halted = false ∧
    ptpUp.bit Reg.PTP_STATUS 4 = false ∧ ptpUp.subUp (ptpUp.fld Reg.PTP_PORTS 4 0 / 4 % 8) (ptpUp.fld Reg.PTP_PORTS 4 0 % 4) = true ∧
    ptpUp.ptpAccepts 127 (ptpUp.ptpUdp 0) = true ∧ ptpUp.bit Reg.PTP_CTRL 2 = true := by decide +kernel
/-- PPS_OUT is enabled in a locked unit that has marked the second before. -/
def ppsReady : State :=
  let s := inPhase 7 [(Reg.PPS_CTRL, 0x80000001), (Reg.TIME_STATUS, 2)]
  { s with clk := { s.clk with ppsMarked := some (-1) } }
theorem witness_PtpSendsAndTimeouts_pps : ppsReady.bit Reg.PPS_CTRL 31 = true ∧
    (ppsReady.phase = 7 ∨ ppsReady.phase = 8 ∨ ppsReady.phase = 9) ∧
    (ppsReady.timeState = 2 ∨ ppsReady.timeState = 4 ∨ ppsReady.bit Reg.PPS_CTRL 30 = true) ∧
    ((ppsReady.elapse 0).ptpNow - ((ppsReady.elapse 0).ptpNow + 500000000) / 1000000000 * 1000000000).natAbs ≤ 4 ∧
    ∀ m, ppsReady.clk.ppsMarked = some m → m < ((ppsReady.elapse 0).ptpNow + 500000000) / 1000000000 := by
  refine ⟨by decide +kernel, by decide +kernel, by decide +kernel, by decide +kernel, ?_⟩
  have h : ppsReady.clk.ppsMarked = some (-1) := by decide +kernel
  intro m e
  rw [h] at e
  obtain rfl := Option.some.inj e
  decide +kernel

/-- Island mode from E6 on, a good edge had, 2 ms past a whole second. -/
def islandUnit : State :=
  let s := inPhase 6 [(Reg.TIME_CTRL, 1)]
  { s with clk := { s.clk with ppsGood := some 0, ppsStopped := false, doff := 2000000 } }
theorem portStamp_near (s : State) : s.ns - 4 ≤ s.portStamp ∧ s.portStamp ≤ s.ns + 4 := by
  unfold State.portStamp clipInt
  omega
theorem witness_PpsInputAndOutput_glitch : islandUnit.island = true ∧ 6 ≤ islandUnit.phase ∧ islandUnit.halted = false ∧
    islandUnit.clk.ppsGood = some 0 ∧ 1000000 < (islandUnit.ppsError (islandUnit.elapse 0).portStamp).natAbs ∧
    islandUnit.clk.ppsStopped = false := by
  have h := portStamp_near (islandUnit.elapse 0)
  have hn : (islandUnit.elapse 0).ns = 0 := by decide +kernel
  have hd : islandUnit.clk.doff = 2000000 := by decide +kernel
  refine ⟨by decide +kernel, by decide +kernel, by decide +kernel, by decide +kernel, ?_, by decide +kernel⟩
  unfold State.ppsError
  rw [hd]
  rw [hn] at h
  dsimp only
  split <;> omega
/-- The same, good edges had more than 999 ms ago, 1 ms past a whole second but for 4 ns. -/
def islandGood : State :=
  { islandUnit with clk := { islandUnit.clk with ppsGood := some (-999000004), ppsRun := 3, doff := 999996 } }
theorem witness_PpsInputAndOutput_good : islandGood.island = true ∧ 6 ≤ islandGood.phase ∧ islandGood.halted = false ∧
    (islandGood.ppsError (islandGood.elapse 0).portStamp).natAbs ≤ 1000000 ∧
    (-999000004 : Int) + 999000000 ≤ (islandGood.elapse 0).portStamp ∧ 3 ≤ islandGood.clk.ppsRun ∧ islandGood.live = false := by
  have h := portStamp_near (islandGood.elapse 0)
  have hn : (islandGood.elapse 0).ns = 0 := by decide +kernel
  have hd : islandGood.clk.doff = 999996 := by decide +kernel
  rw [hn] at h
  refine ⟨by decide +kernel, by decide +kernel, by decide +kernel, ?_, by omega, by decide +kernel, by decide +kernel⟩
  unfold State.ppsError
  rw [hd]
  dsimp only
  split <;> omega
/-- The same, the last good edge 1.1 s ago. -/
def islandSilent : State := { islandUnit with clk := { islandUnit.clk with ppsGood := some (-1100000000) } }
theorem witness_PpsInputAndOutput_stop : islandSilent.island = true ∧ islandSilent.clk.ppsStopped = false ∧
    islandSilent.clk.ppsGood = some (-1100000000) ∧ (-1100000000 : Int) + 1100000000 ≤ (islandSilent.elapse 0).now := by
  decide +kernel
theorem witness_PpsInputAndOutput_out : ∃ t, exec (.ppsOutSecond 0) islandUnit = .next t := ⟨_, rfl⟩

/-- Reference selection `sel`, and whether B is qualified. -/
def refs (sel : Nat) (qB : Bool) : State := inPhase 4 [(Reg.REF_STATUS, sel * 65536 + 1 + (if qB then 256 else 0))]
theorem witness_ReferenceFaults : ∀ x ∈ [(0, true), (0, false), (1, true)],
    (refs x.1 x.2).refsJudged = true ∧ 2000 < (2001 : Int).natAbs ∧
    ((refs x.1 x.2).refQual (1 - (0 : Fin 2).val) = true →
      2000 < ((2001 : Int) - ((refs x.1 x.2).rd Reg.REF_FREQ_B).toInt).natAbs) ∧
    ((refs x.1 x.2).refSel = 0 ↔ x.1 = 0) ∧ (refs x.1 x.2).refQual 1 = x.2 := by decide +kernel
theorem witness_ReferenceFaults_qualified : (refs 2 false).refsJudged = true ∧ (refs 2 false).refSel = 2 ∧
    (refs 0 false).refSel ≠ 2 := by decide +kernel
theorem witness_DeviceTimeOnlyAdvances : ∃ t, (inPhase 9).emg.started = true ∧ step (inPhase 9) = .next t :=
  ⟨_, by decide +kernel, rfl⟩

/-! ## Witnesses: lanes, the Lantern link and the flame -/

/-- Lane `d` of the Lantern link is locked and GOOD, and all eight lanes are in the link and its stripe set. -/
def lanesUp (p : Nat) (role : Role) : State :=
  twinUnit p role ([(Reg.LNK_CTRL, 255), (Reg.LNK_STATUS, 0xFFFFFFFF)] ++
    (List.range 8).map fun d => (Reg.LN_STATUS d 8, 0x84000000))

theorem witness_OrderedSetsLeave_sets : (lanesUp 5 .unpaired).setLanes ≠ 0 ∧
    ((lanesUp 5 .unpaired).elapse 0).skipDue = true := by decide +kernel
theorem witness_OrderedSetsLeave_words : ∀ p ∈ [7, 9], ∀ r ∈ [Role.unpaired, .holder, .standby],
    (lanesUp p r).sendsWords = true := by decide +kernel

theorem witness_LanternSetsAreReceived_idle : (lanesUp 9 .holder).laneLocked 7 8 = true ∧ 255 < 256 ∧ 65535 < 65536 := by
  decide +kernel
theorem witness_LanternSetsAreReceived_ack : (lanesUp 9 .holder).link.queue = [] ∧
    (lanesUp 9 .holder).setLanes &&& 255 = (lanesUp 9 .holder).stripe := by decide +kernel
theorem witness_LanternSetsAreReceived_skip : (lanesUp 9 .holder).laneLocked 7 8 = true ∧
    (lanesUp 9 .holder).link.elastic.length = 8 ∧ ((lanesUp 9 .holder).elastic 7 + 8).natAbs ≤ 8 ∧
    ((lanesUp 9 .holder).elastic 7 + -8).natAbs ≤ 8 := by decide +kernel
theorem witness_LanternSetsAreReceived_passed : (lanesUp 9 .holder).laneLocked 7 8 = true ∧
    8 < ((lanesUp 9 .holder).elastic 7 + 9).natAbs := by decide +kernel
/-- A holder whose oldest unacknowledged frame ended at instant 0. -/
def unacknowledged : State :=
  let s := lanesUp 9 .holder
  { s with link := { s.link with unacked := [⟨⟨1, false, .dim 0 1⟩, 0⟩] } }
theorem witness_LanternSetsAreReceived_resend : unacknowledged.stripe ≠ 0 ∧ (unacknowledged.elapse 1000).resendDue = true := by
  decide +kernel

/-- Port 7 in mode 2, its second sub-port DOWN with four good lanes, network lane 0 without lock. -/
def portLanes (locked : List Nat) (st : Nat) : State :=
  inPhase 5 ([(Reg.NP_CTRL 7, 2), (Reg.NP_STATUS 7, 4 * st), (Reg.LN_STATUS 7 8, 0x84000000), (Reg.LNK_CTRL, 255)] ++
    locked.map fun n => (Reg.LN_STATUS 7 n, 0x84000000))
theorem witness_LanesLockAndRate_lock : (portLanes [4] 1).laneLocked 7 4 = true ∧ (portLanes [4] 1).lanePresent 7 4 = true ∧
    (portLanes [4] 1).lanePresent 7 0 = true ∧ (portLanes [4] 1).laneLocked 7 0 = false := by decide +kernel
theorem witness_LanesLockAndRate_join : (portLanes [] 1).laneLocked 7 8 = true ∧
    (portLanes [] 1).fld (Reg.LN_STATUS (7 : Fin 8) 8) 26 24 = 4 ∧ ((portLanes [] 1).elapse 1000000).laneSteady 7 = true := by decide +kernel
theorem witness_LanesLockAndRate_up : ∀ st ∈ [1, 3], ((portLanes [4, 5, 6, 7] st).subState 7 1 = 1 ∨
      (portLanes [4, 5, 6, 7] st).subState 7 1 = 3) ∧ (portLanes [4, 5, 6, 7] st).lanesOfSub 7 1 ≠ [] ∧
    ∀ n ∈ (portLanes [4, 5, 6, 7] st).lanesOfSub 7 1, (portLanes [4, 5, 6, 7] st).laneLocked 7 n = true ∧
      (portLanes [4, 5, 6, 7] st).fld (Reg.LN_STATUS 7 n) 26 24 = 4 ∧
      ((portLanes [4, 5, 6, 7] st).elapse 0).cleanFor 7 1 = true := by decide +kernel
theorem witness_LanesLockAndRate_mgmt : (inPhase 3).emg.mgmtUp = true := by decide +kernel

theorem witness_FlameWordsAreJudged_bad : flameCheck 1 1 0 0 + 1 ≠ flameCheck 1 1 0 0 ∧
    wickCheck 1 1 0 0 + 1 ≠ wickCheck 1 1 0 0 := by decide +kernel
theorem witness_FlameWordsAreJudged_renewal : (lanesUp 9 .standby).laneLocked 7 8 = true ∧ (lanesUp 9 .standby).paired = true ∧
    (lanesUp 9 .standby).live = true ∧ 1 % 2 ≠ (lanesUp 9 .standby).unitNo ∧ (lanesUp 9 .standby).holding = false ∧
    (lanesUp 9 .standby).twin.lastSeq.length = 3 ∧ (lanesUp 9 .standby).twin.renewAt.length = 3 ∧
    (lanesUp 9 .standby).twin.lastSeq.getD 0 none ≠ some 15 ∧ (lanesUp 9 .standby).twin.lastSeq.getD 1 none ≠ some 15 := by
  decide +kernel
/-- A presence beacon of unit 1 of a pair of this unit's numbers, sequence number 1, under the pair key. -/
def presence : List Byte :=
  let b := beBytes 4 0x4C414D50 ++ [1, 1] ++ beBytes 2 0 ++ [0, 0, 0, 0] ++ beBytes 4 0 ++ beBytes 8 1
  b ++ beaconTag [4, 5] b
def beaconTaker : State :=
  let s := put [(Reg.NP_CTRL 0, 1), (Reg.NP_STATUS 0, 2)] (lanesUp 9 .standby)
  { s with twin := { s.twin with pairKey := [4, 5], lastSeq := [none, none, some 0] } }
theorem witness_FlameWordsAreJudged_presence :
    let be := fun o n => beNat ((presence.drop o).take n)
    presence.length = 40 ∧ beaconTaker.paired = true ∧ beaconTaker.live = true ∧ beaconTaker.portUp 0 = true ∧
    be 0 4 = 0x4C414D50 ∧ presence.drop 0x18 = beaconTag beaconTaker.twin.pairKey (presence.take 0x18) ∧
    be 6 2 = beaconTaker.fld Reg.IDN_UNIT 31 16 ∧ be 8 1 = beaconTaker.fld Reg.IDN_UNIT 11 8 ∧ be 4 1 = 1 ∧
    be 5 1 % 2 ≠ beaconTaker.unitNo ∧ be 0xC 4 = beaconTaker.epoch ∧ beaconTaker.holding = false ∧
    beaconTaker.twin.lastSeq.length = 3 ∧ beaconTaker.twin.renewAt.length = 3 ∧
    beaconTaker.twin.lastSeq.getD 2 none = some 0 ∧ 0 < be 0x10 8 := by decide +kernel
theorem witness_FlameWordsAreJudged_e7 : (twinUnit 7 .unpaired).phase = 7 := by decide +kernel

/-- A standby whose holder was last heard at instant 0, `t` ns ago. -/
def silentStandby (t : Nat) : State :=
  let s := lanesUp 9 .standby
  { s with twin := { s.twin with renewAt := [some 0, none, none] }, clk := { s.clk with dtc := t * 2 ^ 32 } }
theorem witness_TheFlameIsTakenAndGivenUp_lapse : (silentStandby 18000).paired = true ∧ (silentStandby 18000).isStandby = true ∧
    (silentStandby 18000).live = true ∧ (silentStandby 18000).snuffed = false ∧
    (∀ p < 3, ((silentStandby 18000).elapse 0).pathAlive p = false) ∧ (silentStandby 18000).lastRenewal.isSome = true := by
  decide +kernel
/-- A holder that may write TWN_CMD; where `ok`, its partner is a confirmed standby. -/
def mayHandOver (ok : Bool) : State :=
  let s := liveWith [Reg.TWN_CMD] [(Reg.IDN_UNIT, 2)]
  { s with twin := { s.twin with role := .holder, partnerStatus := if ok then 15 else 0,
                                 validAt := [some 0, none, none] } }
theorem witness_TheFlameIsTakenAndGivenUp_command : ∀ ok ∈ [false, true],
    (mayHandOver ok).mayWrite Reg.TWN_CMD 31 31 = true ∧ (mayHandOver ok).handoverOk = ok := by decide +kernel
def drained : State := let s := lanesUp 9 .holder; { s with twin := { s.twin with handover := true } }
theorem witness_TheFlameIsTakenAndGivenUp_drain : drained.egr.leaving = [] ∧ drained.twin.handover = true ∧ drained.holding = true ∧
    drained.paired = true ∧ drained.twin.after = [] := by decide +kernel
/-- A confirmed standby of preference 0 that takes the flame back, its hold-off begun. -/
def heldOff : State :=
  let s := put [(Reg.TWN_CTRL, 0x80000000)] (lanesUp 9 .standby)
  { s with twin := { s.twin with holdoffFrom := some 0, validAt := [some 0, none, none] } }
theorem witness_TheFlameIsTakenAndGivenUp_holdOff : heldOff.twin.holdoffFrom = some 0 ∧ (heldOff.elapse 0).heldOffFrom 0 = true ∧ heldOff.paired = true ∧
    (heldOff.elapse 0).takesBack = true := by decide +kernel
/-- A standby that may ask for a resync, with channel 0 in SHADOW where `sh`. -/
def mayResync (sh : Bool) : State :=
  let s := liveWith [Reg.TWN_CMD] ([(Reg.IDN_UNIT, 2)] ++ if sh then [(Reg.CHN_STATE 0, 5)] else [])
  { s with twin := { s.twin with role := .standby } }
theorem witness_ResyncAndCursors : ∀ sh ∈ [false, true], (mayResync sh).mayWrite Reg.TWN_CMD 30 30 = true ∧
    (mayResync sh).isStandby = true ∧ (mayResync sh).live = true ∧
    (decide ((mayResync sh).shadowChans = []) = !sh) := by decide +kernel

/-! ## Witnesses: picture memory -/

/-- Controller 1 of die 7 as `f` makes it, its channels' registers in state `c`. -/
def memAt (p c : Nat) (l : List (Nat × Nat)) (f : MCtl → MCtl) : State :=
  let s := inPhase p (l ++ (List.range 8).map fun k => (mccStatus 7 k, c))
  s.modMctl 15 f
def training : State := memAt 4 0 [] fun x => { x with phase := .training }
theorem witness_MemoryIsTrainedAndFilled : training.phase = 4 ∧
    (∃ e < 8, e ≠ (7 : Fin 8).val ∧ training.dieOk e = true ∧ training.memReady e = false) ∧
    training.pic.ctls.length = 16 ∧ training.pic.chans.length = 64 ∧ training.trains 7 1 = true := by decide +kernel
theorem witness_MemoryIsTrainedAndFilled_density : ((1 : Fin 4).val = 1 ∨ (2 : Fin 4).val = 2) ∧
    ¬ ((3 : Fin 4).val = 1 ∨ (3 : Fin 4).val = 2) := by decide
theorem witness_MemoryIsTrainedAndFilled_fill :
    let s := memAt 4 2 [] fun x => { x with phase := .filling, fill := [0, 3] }
    s.phase = 4 ∧ (∃ e < 8, e ≠ (7 : Fin 8).val ∧ s.dieOk e = true ∧ s.memReady e = false) ∧ s.pic.ctls.length = 16 ∧
    s.pic.chans.length = 64 ∧ (s.mctl (2 * 7 + 1)).phase = .filling := by decide +kernel

/-- The memory of die 7 works, density code 1; controller 1 is ready. -/
def memReady : State := memAt 9 2 [(Reg.MC_STATUS 7 0, 0x10000), (Reg.MC_STATUS 7 1, 0x10000)] fun x => { x with phase := .ready }
/-- The last byte of the die's last granule, and a whole granule: both lie on controller 1. -/
theorem witness_MemoryAccessesComplete_request : ∀ x ∈ [(memReady.dieBytes 7 - 1, 1), (128 * 7, 128)],
    memReady.pic.ctls.length = 16 ∧ memReady.pic.chans.length = 64 ∧ (memReady.mctl (2 * 7 + 1)).phase = .ready ∧
    List.replicate x.2 (0 : Byte) ≠ [] ∧ x.1 % 128 + (List.replicate x.2 (0 : Byte)).length ≤ 128 ∧
    x.1 + (List.replicate x.2 (0 : Byte)).length ≤ memReady.dieBytes 7 ∧ (memReady.mcPlaceOf 7 x.1).1 / 4 = 1 ∧
    memReady.bit (Reg.MC_STATUS 7 0) 31 = false ∧ (memReady.mctl (2 * 7 + 1)).waits = [] ∧
    (memReady.mctl (2 * 7 + 1)).writes.length < 96 ∧ (memReady.mctl (2 * 7 + 1)).reads.length < 192 := by decide +kernel
/-- An access under way in channel 7 of die 7. -/
def accessing (w : Bool) : State := memReady.modMchan 63 fun x => { x with
  cur := some ⟨7, w, false, 128 * 7, 2, if w then [1, 2] else [], 0, []⟩ }
theorem witness_MemoryAccessesComplete_done : ∀ w ∈ [false, true], (accessing w).pic.ctls.length = 16 ∧
    (accessing w).pic.chans.length = 64 ∧
    (((accessing w).mchan (8 * 7 + 7)).cur.map fun r => (r.write, r.scrub)) = some (w, false) ∧
    ((accessing w).mctl (2 * 7 + 7 / 4)).waits = [] ∧
    ∀ b ∈ (accessing w).blocksOf 7 ⟨7, w, false, 128 * 7, 2, if w then [1, 2] else [], 0, []⟩,
      b.1 ∉ ((accessing w).mchan (8 * 7 + 7)).poison := by decide +kernel

def retrained : State := memReady.modMchan 63 fun x => { x with found := true, errs := [(0, 8)], trainTemp := 20 }
theorem witness_MemoryIsMaintained_channel : retrained.pic.ctls.length = 16 ∧ retrained.pic.chans.length = 64 ∧
    retrained.mcWorks 7 7 = true ∧ retrained.bit (Reg.MC_STATUS 7 1) 31 = false ∧ (retrained.mchan 63).found = true ∧
    retrained.bit (mccStatus 7 7) 9 = false ∧ retrained.bit (mccStatus 7 7) 8 = false ∧ retrained.mcState 7 7 = 2 ∧
    retrained.fld (Reg.MC_CTRL 7 1) 15 8 ≤ (retrained.elapse 0).liveErrs 7 7 ∧
    8 ≤ ((28 : Int) - (retrained.mchan (8 * 7 + (4 * 1 + 3))).trainTemp).natAbs ∧ (retrained.mctl (2 * 7 + 1)).phase ≠ .off ∧
    (retrained.elapse 150000000000).trainDue 7 7 = true := by decide +kernel
def idleDie : State := put [(Reg.MC_CTRL 7 0, 0x80), (Reg.MC_CTRL 7 1, 0x80)]
  (memReady.modMctl 14 fun x => { x with phase := .ready })
theorem witness_MemoryIsMaintained_selfRefresh : (∀ m < 2, idleDie.bit (Reg.MC_CTRL 7 m) 7 = true ∧ (idleDie.mctl (2 * 7 + m)).pass = false ∧
      ∀ r ∈ (idleDie.mctl (2 * 7 + m)).waits ++ (idleDie.mctl (2 * 7 + m)).reads ++ (idleDie.mctl (2 * 7 + m)).writes,
        r.port = 7) ∧
    (∀ k < 8, idleDie.bit (mccStatus 7 k) 9 = false ∧ idleDie.bit (mccStatus 7 k) 8 = false ∧
      (idleDie.mchan (8 * 7 + k)).cur = none) ∧
    idleDie.memReady 7 = true ∧ idleDie.bit (Reg.MC_STATUS 7 0) 31 = false ∧
    (idleDie.elapse 2000000).memIdle 7 = true := by decide +kernel
theorem witness_MemoryIsMaintained_wake :
    let s := (idleDie.setBit (Reg.MC_STATUS 7 0) 31 true).modMdie 7 fun x => { x with srTime := 86400000000000 }
    s.bit (Reg.MC_STATUS 7 0) 31 = true ∧ 86400000000000 ≤ (s.elapse 0).srSpent 7 := by decide +kernel
/-- Channel 3 of the controller waits for its retraining; its slice runs where `r`. -/
def slices (r : Bool) : State :=
  ((memReady.setBit (mccStatus 7 7) 9 true).modMctl 15 fun x => { x with slicing := if r then some 3 else none, sliceAt := some (-40000) }).modMchan 63
    fun x => { x with passes := List.replicate 126 255 }
theorem witness_MemoryIsMaintained_slice : ((slices false).mctl (2 * 7 + 1)).slicing = none ∧
    (∀ t ∈ ((slices false).mctl (2 * 7 + 1)).sliceAt, t + 40000 ≤ ((slices false).elapse 0).now) ∧
    ((List.range 4).map fun j => (((slices false).mctl (2 * 7 + 1)).turn + 1 + j) % 4).find?
      (fun c => ((slices false).trainees 7 1).contains c) = some 3 ∧
    ((slices true).mctl (2 * 7 + 1)).slicing = some 3 ∧ ((slices true).mchan (8 * 7 + (4 * 1 + 3))).passes.length < 127 := by
  decide +kernel

/-! ## Witnesses: sensors, gauges, thermal dim and regulators -/

/-- The lowest and the highest readings below the clear levels. -/
theorem witness_SensorsAndGaugesAreRead_sensors : ∀ x ∈ [(-360 : Int), 743], (inPhase 5).plant.dies.length = 8 ∧
    (inPhase 5).sch.engines = [] ∧ ∀ i < 16, (inPhase 5).bit (Reg.THS_READ 7 i) 31 = false ∧
      -360 ≤ (List.replicate 16 x).getD i 0 ∧ (List.replicate 16 x).getD i 0 < 800 ∧
      (List.replicate 16 x).getD i 0 < 8 * (warnSet (inPhase 5) - 5 : Nat) ∧
      (List.replicate 16 x).getD i 0 < 8 * (throtSet (inPhase 5) - 5 : Nat) := by decide +kernel

/-- Counts that give every gauge of a die SI_NOW 1,000,000, whatever its fused frequency. -/
def evenCounts (d : Nat) : List Nat := (List.range 32).map fun g => max 1 (Config.gaugeRef d g)
theorem siNow_even (d g : Nat) (h : g < 32) : siNow d g ((evenCounts d).getD g 0) = 1000000 := by
  have e : (evenCounts d).getD g 0 = max 1 (Config.gaugeRef d g) := by simp [evenCounts, List.getD, h]
  rw [e, siNow, ← Nat.mul_assoc]
  exact Nat.mul_div_cancel _ (by omega)
theorem witness_SensorsAndGaugesAreRead_gauges : (evenCounts 7).length = 32 ∧ 5 ≤ (inPhase 9).phase ∧ (inPhase 9).phase ≤ 9 ∧
    (inPhase 9).bit Reg.CAP_CTRL 0 = false ∧ (inPhase 9).plant.daily = none ∧
    (∀ c < 8, (inPhase 9).clusterOk 7 c = true) ∧
    ∀ c < 8, ∀ i < 4, (inPhase 9).bit (Reg.WAX_G 7 (4 * c + i)) 31 = false ∧ (evenCounts 7).getD (4 * c + i) 0 ≠ 0 ∧
      let now := fun k => siNow 7 (4 * c + k % 4) ((evenCounts 7).getD (4 * c + k % 4) 0)
      ((now i : Int) - median3 (now (i + 1)) (now (i + 2)) (now (i + 3))).natAbs ≤ 100 := by
  refine ⟨by simp [evenCounts], by decide +kernel, by decide +kernel, by decide +kernel, by decide +kernel,
    by decide +kernel, fun c hc i hi => ⟨?_, ?_, ?_⟩⟩
  · exact (show ∀ c < 8, ∀ i < 4, (inPhase 9).bit (Reg.WAX_G 7 (4 * c + i)) 31 = false by decide +kernel) c hc i hi
  · have e : 4 * c + i < 32 := by omega
    simp only [evenCounts, List.getD_eq_getElem?_getD, List.getElem?_map, List.getElem?_range e, Option.map_some,
      Option.getD_some]
    omega
  · have e : ∀ k, siNow 7 (4 * c + k % 4) ((evenCounts 7).getD (4 * c + k % 4) 0) = 1000000 :=
      fun k => siNow_even 7 _ (by omega)
    simp only [e]
    decide

/-- Die 7 in the throttle state where `hot`, at dim level `v`. -/
def dimAt (v : Nat) (hot : Bool) : State :=
  let s := inPhase 9 [(Reg.THM_DIM, v * 2 ^ 28), (Reg.THD_STATUS 7, 743)]
  s.modTherm 7 fun x => { x with
    throt := hot, riseAt := if hot then some s.now else none, below := if hot then none else some (s.now - 2000000000) }
theorem witness_ThermalDimStepsByOne_grace : (dimAt 0 true).plant.dies.length = 8 ∧ thermState ((dimAt 0 true).therm 7) = 2 ∧
    ((dimAt 0 true).therm 7).riseAt = some ((dimAt 0 true).elapse 0).now ∧ (dimAt 0 true).thermDim 7 = 0 := by decide +kernel
theorem witness_ThermalDimStepsByOne_step : ∀ v ∈ [1, 3], thermState ((dimAt v true).therm 7) = 2 ∧
    ((dimAt v true).therm 7).riseAt = some ((dimAt v true).elapse 0).now ∧ 1 ≤ (dimAt v true).thermDim 7 ∧ (dimAt v true).thermDim 7 < 4 ∧ v + 1 = (dimAt v true).thermDim 7 + 1 := by decide +kernel
theorem witness_ThermalDimStepsByOne_recovery : ∀ v ∈ [1, 4],
    ((dimAt v false).therm 7).below = some (((dimAt v false).elapse 0).now - 2000000000) ∧ 1 ≤ (dimAt v false).thermDim 7 ∧
    (dimAt v false).thermDim 7 = v - 1 + 1 := by decide +kernel

/-- Die 7 normal, one of its sensors at the throttle set level. -/
theorem witness_ThermalDimStepsByOne_entry : (inPhase 9).plant.dies.length = 8 ∧ (inPhase 9).sch.engines = [] ∧
    thermState ((inPhase 9).therm 7) ≤ 1 ∧ ((inPhase 9).therm 7).shut = false ∧
    (∀ i < 16, (inPhase 9).bit (Reg.THS_READ 7 i) 31 = false ∧ -360 ≤ (List.replicate 16 (848 : Int)).getD i 0 ∧
      (List.replicate 16 (848 : Int)).getD i 0 < 944) ∧
    8 * (throtSet (inPhase 9) : Nat) ≤ (List.replicate 16 (848 : Int)).getD 15 0 := by decide +kernel

def queuedPmb (x : PmbXfer) : State := let s := inPhase 9; { s with plant := { s.plant with pmb := [x] } }
theorem witness_RegulatorsAreDriven_poll : (inPhase 9).chrysalis = false := by decide +kernel
theorem witness_RegulatorsAreDriven_transfer : ∀ x ∈ [(⟨7, .iout, 0, 0⟩ : PmbXfer), ⟨7, .iout, 0, 2⟩, ⟨7, .setpoint, 900, 3⟩],
    (queuedPmb x).plant.pmb = x :: [] ∧ x.die < 8 ∧ ((x.why = .iout ∧ x.tries < 3) ∨ (3 ≤ x.tries ∧ x.why ≠ .mode)) ∧
    (queuedPmb x).emg.e6Over = false ∧ (queuedPmb x).phase ≠ 4 := by
  decide +kernel
/-- Die 7 at 855 mV of 860 mV, one raise due. -/
def raising : State :=
  let s := inPhase 9 [(Reg.AVS_VOUT 7, 855)]
  { s with plant := { s.plant with avs := s.plant.avs.modify 7 fun x => { x with once := true } } }
theorem witness_RegulatorsAreDriven_step : raising.plant.avs.length = 8 ∧ raising.plant.daily = none ∧
    raising.stepDue 7 = some (true, none) ∧ (raising.avs 7).step = none ∧ (raising.avs 7).confirmed = none ∧ raising.canStep 7 true = true := by decide +kernel
/-- Its step to 855 mV under way, its write made 1 ms ago where `written`; the transfer under way is READ_VOUT or that write. -/
def stepping (written : Bool) : State :=
  { raising with plant := { raising.plant with
      pmb := [⟨7, if written then .vout else .setpoint, 0, 0⟩]
      avs := raising.plant.avs.modify 7 fun x => { x with
        step := some (850, if written then some (raising.now - 1000000) else none) } } }
theorem witness_RegulatorsAreDriven_confirm : ∀ w ∈ [true, false], (stepping w).plant.avs.length = 8 ∧
    (stepping w).plant.daily = none ∧ (stepping w).emg.e6Over = false ∧
    (stepping w).plant.pmb = ⟨7, if w then .vout else .setpoint, 0, 0⟩ :: [] ∧
    ((stepping w).avs 7).step = some (850, if w then some (((stepping w).elapse 0).now - 1000000) else none) ∧
    (((860 : Nat) : Int) - (stepping w).rdN (Reg.AVS_VOUT 7)).natAbs ≤ 5 := by decide +kernel
/-- A LIVE unit with 24 h of operating time behind it and none of it planned. -/
def dayOld : State := let s := inPhase 9; { s with plant := { s.plant with baseHours := 24 } }
theorem witness_RegulatorsAreDriven_daily : dayOld.live = true ∧ dayOld.plant.daily = none ∧
    dayOld.plant.plannedDays < (dayOld.elapse 0).opHours / 24 ∧
    dayOld.plant.avs.length = 8 ∧ dayOld.bit Reg.CAP_CTRL 0 = false := by decide +kernel

/-! ## Witnesses: management -/

/-- A LIVE unit that takes Beacon requests under the operating key, `n` subscriptions taken. -/
def beaconUnit (n : Nat) : State :=
  let s := liveWith []
  { s with mgt := { s.mgt with subs := (List.range n).map fun i => ⟨i, 1, [0], i, none, false, 0, 0, 0, 0⟩ } }

theorem beaconUnit_accepts (n op : Nat) (p : List Byte) (h : p.length ≤ 1400) :
    ((beaconUnit n).elapse 0).accepts (opMsg op p) op :=
  opMsg_accepted _ _ _ (by show (liveWith []).emg.mgmtUp = true; decide +kernel)
    (by show (liveWith []).emg.imageLoaded = true; decide +kernel)
    (by show (liveWith []).emg.operatingKey = [1, 2, 3]; decide +kernel)
    (by show (liveWith []).rdN Reg.MGT_SESSION = 0; decide +kernel)
    (by show (liveWith []).mgt.seqOp = 0; decide +kernel) h
theorem witness_BeaconRequestsAreAnswered_accepted :
    ((beaconUnit 0).elapse 0).accepts (opMsg 1 (beBytes 4 Reg.EMG_STATUS ++ beBytes 4 Reg.EMG_FAIL)) 1 ∧
    ((beaconUnit 0).elapse 0).accepts (opMsg 2 (beBytes 4 Reg.EMG_LOG_SEL ++ beBytes 4 (0x1FFF#32).toNat)) 2 ∧
    ((beaconUnit 0).elapse 0).accepts (opMsg 3 (List.replicate 6 0)) 3 ∧
    ((beaconUnit 8).elapse 0).accepts (opMsg 4 (List.replicate 8 0)) 4 :=
  ⟨beaconUnit_accepts _ _ _ (by decide), beaconUnit_accepts _ _ _ (by decide), beaconUnit_accepts _ _ _ (by decide),
    beaconUnit_accepts _ _ _ (by decide)⟩
theorem witness_BeaconRequestsAreAnswered_key : (opMsg 2 []).port = none ∧ msgRecovery (opMsg 2 []) = false ∧
    (beaconUnit 0).emg.started = true := by decide +kernel
/-- The payloads of READ at their edges: 1 and 64 words, none, 65 words, and a part of a word. -/
theorem witness_BeaconRequestsAreAnswered_read : (∀ n ∈ [4, 256], (List.replicate n (0 : Byte)).length % 4 = 0 ∧
      List.replicate n (0 : Byte) ≠ [] ∧ (List.replicate n (0 : Byte)).length ≤ 256) ∧
    ∀ n ∈ [0, 3, 260], (List.replicate n (0 : Byte)).length % 4 ≠ 0 ∨ List.replicate n (0 : Byte) = [] ∨
      256 < (List.replicate n (0 : Byte)).length := by decide +kernel
theorem witness_BeaconRequestsAreAnswered_blockRead : (∀ n ∈ [1, 256], 1 ≤ n ∧ n ≤ 256) ∧ ∀ n ∈ [0, 257], n = 0 ∨ 256 < n := by
  decide
theorem witness_BeaconRequestsAreAnswered_subscribe : ∀ n ∈ [0, 8], subParamsOk 2 [10, 0, 64] = true ∧ 1 ≠ 0 ∧
    (beaconUnit n).evt.raises = [] ∧ (∀ x ∈ (beaconUnit n).mgt.subs, x.kind ≠ 2 ∨ x.params ≠ [10, 0, 64] ∨ x.dst ≠ 9) ∧
    ((List.range 8).find? fun i => ((beaconUnit n).sub? i).isNone) = (if n = 0 then some 0 else none) := by decide +kernel

/-- A READ of one word with 16 waiting, with a tag of zeros, and of a number already accepted. -/
theorem witness_UnauthenticRequestsAreDiscarded_form : (beaconUnit 0).beaconReach (opMsg 1 [0, 0, 0, 0]) = true ∧
    (opMsg 1 [0, 0, 0, 0]).op = 1 ∧ msgFormOk (opMsg 1 [0, 0, 0, 0]) = true ∧ (opMsg 1 [0, 0, 0, 0]).flags % 4 = 0 := by
  decide +kernel
theorem witness_UnauthenticRequestsAreDiscarded_overrun :
    16 ≤ ({ opMsg 1 [0, 0, 0, 0] with waiting := 16 } : BeaconMsg).waiting := by decide
theorem witness_UnauthenticRequestsAreDiscarded_tag :
    let m := { opMsg 1 [0, 0, 0, 0] with tag := List.replicate 16 0 }
    msgFormOk m = true ∧ m.waiting < 16 ∧ (beaconUnit 0).tagOk m = false := by decide +kernel
theorem witness_UnauthenticRequestsAreDiscarded_stale :
    let s := { beaconUnit 0 with mgt := { (beaconUnit 0).mgt with seqOp := 1 } }
    (opMsg 1 [0, 0, 0, 0]).waiting < 16 ∧ s.tagOk (opMsg 1 [0, 0, 0, 0]) = true ∧
    (opMsg 1 [0, 0, 0, 0]).session = s.rdN Reg.MGT_SESSION ∧
    (opMsg 1 [0, 0, 0, 0]).seq ≤ s.seqHigh (msgRecovery (opMsg 1 [0, 0, 0, 0])) := by decide +kernel

/-- A subscription of each kind, with one record in the ring and 64 trace entries on die 7. -/
def subOf (kind : Nat) (ps : List Nat) : Sub := ⟨7, kind, ps, 9, none, false, -60000000000, 0, 0, 0⟩
def notifier (kind : Nat) (ps : List Nat) : State :=
  let s := inPhase 9 ([(Reg.EVT_HEAD, 1), (Reg.EVT_RING 0 0, 0xC01), (Reg.TRC_HEAD 7, 64)] ++
    (List.range 64).map fun k => (Reg.TRACE 7 k 3, 65536 * k))
  { s with mgt := { s.mgt with subs := [subOf kind ps] }, evt := { s.evt with seq := 1 },
           sch := { s.sch with traceSeq := [0, 0, 0, 0, 0, 0, 0, 64] } }
theorem witness_NotificationsLeave : ∀ x ∈ [(1, [3]), (2, [10, 0, 64]), (2, [10, Reg.EMG_STATUS, 1]), (3, [7])],
    (notifier x.1 x.2).sub? 7 = some (subOf x.1 x.2) ∧ (notifier x.1 x.2).evt.raises = [] ∧ (subOf x.1 x.2).port = none ∧
    (notifier x.1 x.2).emg.mgmtUp = true ∧
    (subOf x.1 x.2).renewed + 60000000000 ≤ ((notifier x.1 x.2).elapse 0).now ∧
    ((notifier x.1 x.2).elapse 0).ns % (1000000 * 10) = 0 ∧
    (x.1 = 1 → ((notifier x.1 x.2).recordsFrom (subOf x.1 x.2).cursor).filter
      (fun e => (subOf x.1 x.2).wants ((notifier x.1 x.2).rdN (Reg.EVT_RING e.2 0))) ≠ []) ∧
    (subOf x.1 x.2).cursor + 64 ≤ (notifier x.1 x.2).sch.traceSeq.getD 7 0 := by decide +kernel
theorem witness_NotificationsLeave_trace : ∀ k ∈ [0, 1, 63],
    ((notifier 3 [7]).traceIndex 7 ((subOf 3 [7]).cursor + k)).isSome = true := by decide +kernel

/-- Sub-port 0 of port 7 is UP, and `n` echoes have been answered there in the present second; one flow joins its group on
the port. -/
def echoing (n : Nat) : State :=
  let s := inPhase 9 [(Reg.NP_STATUS 7, 2), (Reg.FT_CTRL 5, 0x81800000), (Reg.FT_DST 5 0, 0xEF000001)]
  { s with ing := { s.ing with echoes := List.replicate 8 (0, n) } }
theorem witness_SideInterfacesAnswer_mgmt : (inPhase 3).emg.mgmtUp = true := by decide +kernel
theorem witness_SideInterfacesAnswer_port : ∀ n ∈ [99, 100], (echoing n).subUp 7 0 = true ∧ (echoing n).classOn 7 4 < 1024 ∧
    0 < (echoing n).bufFree 7 ∧ (echoing n).ing.echoes.length = 8 ∧
    (((echoing n).elapse 0).echoOk 7).2 = decide (n = 99) := by decide +kernel
theorem witness_SideInterfacesAnswer_groups : (echoing 0).groupsOn 7 false ≠ [] := by decide +kernel
theorem witness_SideInterfacesAnswer_i2c : (inPhase 1).emg.i2cUp = true ∧ (inPhase 1).mgt.i2cPtr < 256 := by decide +kernel

/-! ## Witnesses: what the partner sends -/

def head (type : Nat) : LHeader := ⟨type, 0, 1, true⟩
/-- A unit of a LIVE pair with all lanes in the link. -/
def mirror (role : Role) : State := lanesUp 9 role

theorem witness_LanternFramesAreChecked : (mirror .standby).paired = true ∧ (mirror .standby).fld Reg.LNK_STATUS 15 8 ≠ 0 ∧
    ({ head 1 with crcOk := false } : LHeader).crcOk = false ∧ (head 2).crcOk = true ∧ (head 2).type ≠ 1 ∧
    ({ head 1 with lseq := 2 } : LHeader).lseq ≠ ((mirror .standby).link.rxSeq + 1) % 65536 ∧ 1 ≠ 9 := by decide +kernel

theorem takes (s : State) (ty : Nat) (h1 : s.paired = true) (h2 : s.fld Reg.LNK_STATUS 15 8 ≠ 0)
    (h3 : (s.link.rxSeq + 1) % 65536 = 1) : s.takesFrame (head ty) ty := ⟨h1, h2, rfl, rfl, .inr h3.symm⟩
theorem witness_HolderMessagesAreKept_frame : ∀ ty ∈ [1, 2, 3, 5, 6, 9, 10], (mirror .standby).takesFrame (head ty) ty ∧
    (mirror .standby).chans.length = 96 ∧ (mirror .standby).isStandby = true ∧ (mirror .standby).sch.engines = [] := by
  intro ty _
  exact ⟨takes _ _ (by decide +kernel) (by decide +kernel) (by decide +kernel), by decide +kernel, by decide +kernel,
    by decide +kernel⟩
theorem witness_HolderMessagesAreKept_parts : (record 95 0).chan < 96 ∧ (mirror .standby).item? 95 0 = none ∧
    ((mirror .standby).chan 95).next ≤ (record 95 0).index := by decide +kernel
theorem witness_HolderMessagesAreKept_gap :
    let g : GapEntry := ⟨95, 3, 10⟩
    g.chan < 96 ∧ ∀ x ∈ ((mirror .standby).chan g.chan).gaps ++ [g], ((mirror .standby).chan g.chan).nextSeq ≠ some x.first := by
  decide +kernel
theorem witness_HolderMessagesAreKept_rest : (mirror .standby).twin.cursors.find? (fun e => e.1 == 2047) = none ∧ 2047 < 2048 ∧
    (List.replicate 32 (0 : Byte)).length = 32 := by decide +kernel

/-- A standby with item 4 of channel 0, as `f` makes it. -/
def comparing (f : Item → Item) : State := withItem 0 4 f (mirror .standby)
def twoPart : Item := { item 0 4 with inDigest := [none, none], inPartner := [none, none] }
theorem witness_PartnersAreComparedAndJoined_input : (comparing fun _ => twoPart).takesFrame (head 7) 7 ∧
    (comparing fun _ => twoPart).chans.length = 96 ∧ (comparing fun _ => twoPart).item? 0 4 = some twoPart ∧
    ({ twoPart with inPartner := twoPart.inPartner.set 1 (some 7) } : Item).agrees = none ∧
    twoPart.left = none ∧ twoPart.abandoned = false :=
  ⟨takes _ _ (by decide +kernel) (by decide +kernel) (by decide +kernel), by decide +kernel⟩
theorem witness_PartnersAreComparedAndJoined_output : (comparing id).takesFrame (head 8) 8 ∧
    (comparing id).item? 0 4 = some (item 0 4) ∧ (item 0 4).left = none ∧ (item 0 4).abandoned = false ∧
    ({ item 0 4 with muxPartner := some 7 } : Item).agrees = none ∧
    (((comparing id).modBand 0 4 0 fun x => { x with partner := some 7 }).item? 0 4).map Item.agrees = some none ∧
    0 < (item 0 4).bands.length :=
  ⟨takes _ _ (by decide +kernel) (by decide +kernel) (by decide +kernel), by decide +kernel⟩
/-- A sealed standby that may write a channel-status word of port 15. -/
def copying : State :=
  let s := put [(Reg.LNK_STATUS, 0xFFFFFFFF)] (liveWith [Reg.AUD_CS_TX_A 15 5] [(Reg.IDN_UNIT, 2)])
  { s with twin := { s.twin with role := .standby } }
theorem witness_PartnersAreComparedAndJoined_write : copying.takesFrame (head 4) 4 ∧ copying.takesFrame (head 13) 13 ∧
    copying.isStandby = true ∧ copying.mayWrite (Reg.AUD_CS_TX_A 15 5) 31 0 = true :=
  ⟨takes _ _ (by decide +kernel) (by decide +kernel) (by decide +kernel),
    takes _ _ (by decide +kernel) (by decide +kernel) (by decide +kernel), by decide +kernel⟩
/-- A holder with two lanes whose channel 95 runs. -/
def asked : State := put [(Reg.LNK_STATUS, 0x03030303), (Reg.CHN_STATE 95, 2)] (mirror .holder)
theorem witness_PartnersAreComparedAndJoined_request : asked.takesFrame (head 12) 12 ∧ asked.chans.length = 96 ∧
    asked.holding = true ∧ asked.running 95 = true ∧ 2 ≤ lanesOf asked.stripe :=
  ⟨takes _ _ (by decide +kernel) (by decide +kernel) (by decide +kernel), by decide +kernel⟩
def joining : State := (mirror .standby).modChan 95 fun c => { c with await := some 9, snap := .requested true }
theorem witness_PartnersAreComparedAndJoined_join : joining.takesFrame (head 11) 11 ∧ joining.isStandby = true ∧
    joining.sch.engines = [] ∧ (joining.chan 95).await = some 9 ∧ (joining.chan 95).items = [] ∧
    (∀ d ∈ joining.sch.descs, d.st ≠ .waiting) ∧ (joining.chan 95).snap = .requested true :=
  ⟨takes _ _ (by decide +kernel) (by decide +kernel) (by decide +kernel), by decide +kernel⟩
theorem witness_PartnersAreComparedAndJoined_missing :
    let s := put [(Reg.CHN_STATE 0, 5)] (comparing fun it => { it with controlFixed := true })
    (s.item? 0 4).map (fun it => (it.compared, it.controlFixed, it.inputFixed, it.accepted)) = some (false, true, false, false) ∧
    s.isStandby = true ∧ s.paired = true ∧ s.chanState 0 = 5 ∧ s.sch.engines = [] ∧
    (s.item? 0 4).all (fun it => decide (s.releaseAt 0 it + 1000000 ≤ (s.elapse 30000000).now) &&
      (s.asCompared 0 it).lacksPartner) = true := by decide +kernel

/-! ## Witnesses: channels and ingest -/

/-- E8 with channel 95 enabled; admission is done where `a`. -/
def e8 (a : Bool) : State :=
  let s := inPhase 8 [(Reg.CHN_CTRL 95, 1)]
  { s with cap := { s.cap with admitted := a } }
theorem witness_ChannelsAreAdmittedAndEnabled_admission : (e8 false).phase = 8 ∧ (e8 false).cap.admitted = false ∧
    (e8 false).chans.length = 96 ∧ (e8 false).bit (Reg.CHN_CTRL 95) 0 = true ∧ (e8 false).bit (Reg.CHN_CTRL 0) 0 = false := by
  decide +kernel
theorem witness_ChannelsAreAdmittedAndEnabled_live :
    let s := put [(Reg.CHN_STATE 95, 6)] (e8 true)
    s.phase = 8 ∧ s.cap.admitted = true ∧ s.paired = false ∧ ∀ n < 96, s.chanState n = 0 ∨ s.chanState n = 6 := by
  decide +kernel
/-- A sealed unit in phase `p` whose host may write channel 95's ENABLE; the channel's state and its ENABLE. -/
def mayEnable (p st en : Nat) : State :=
  (put [(Reg.CHN_STATE 95, st), (Reg.CHN_CTRL 95, en)] (liveWith [Reg.CHN_CTRL 95])).setFld Reg.EMG_STATUS 3 0 p
theorem witness_ChannelsAreAdmittedAndEnabled_refused : (mayEnable 9 3 1).chans.length = 96 ∧
    (mayEnable 9 3 1).mayWrite (Reg.CHN_CTRL (0 : Fin 96)) 0 0 = false ∧
    (mayEnable 9 3 1).bit (Reg.CHN_CTRL (0 : Fin 96)) 0 ≠ true := by decide +kernel
theorem witness_ChannelsAreAdmittedAndEnabled_on : (mayEnable 8 0 0).mayWrite (Reg.CHN_CTRL (95 : Fin 96)) 0 0 = true ∧
    (mayEnable 8 0 0).live = false ∧ (mayEnable 8 0 0).bit (Reg.CHN_CTRL (95 : Fin 96)) 0 = false := by decide +kernel
theorem witness_ChannelsAreAdmittedAndEnabled_off : ∀ st ∈ [2, 5],
    (mayEnable 9 st 1).mayWrite (Reg.CHN_CTRL (95 : Fin 96)) 0 0 = true ∧
    (mayEnable 9 st 1).bit (Reg.CHN_CTRL (95 : Fin 96)) 0 = true ∧ (mayEnable 9 st 1).running 95 = true := by decide +kernel
def disabling : State := (withItem 95 4 (fun it => { it with left := some 0 }) (inPhase 9)).modChan 95 fun c =>
  { c with disabling := true }
theorem witness_ChannelsAreAdmittedAndEnabled_disabled : disabling.egr.leaving = [] ∧ (disabling.chan 95).disabling = true ∧
    ∀ it ∈ (disabling.chan 95).items, it.left.isSome = true ∨ it.abandoned = true := by decide +kernel

/-- A LIVE unit with channel 95 in state `st`, as `f` makes it. -/
def chanAt (st : Nat) (f : Chan → Chan) : State := (inPhase 9 [(Reg.CHN_STATE 95, st)]).modChan 95 f
theorem witness_ChannelsPrimeAndStep_boundary :
    let s := chanAt 1 fun c => { c with place := some ⟨[⟨7, [7], none, 100, false, 8, 1000000, 4⟩], true⟩ }
    s.chans.length = 96 ∧ s.sch.engines = [] ∧ s.phase = 9 ∧ s.isStandby = false ∧ (s.chan 95).disabling = false ∧
    (s.chan 95).shedding = none ∧ (s.chan 95).place.isSome = true ∧ (s.chan 95).freed = false ∧ s.chanState 95 = 1 := by
  decide +kernel
theorem witness_ChannelsPrimeAndStep_none : (chanAt 1 fun c => c).running 95 = false ∧
    ((chanAt 3 fun c => { c with disabling := true }).chan 95).disabling = true := by decide +kernel
theorem witness_ChannelsPrimeAndStep_skip :
    let s := chanAt 5 fun c => { c with snap := .joining 9, next := 8 }
    s.running 95 = true ∧ (s.chan 95).disabling = false ∧ s.skips 95 = true := by decide +kernel
theorem witness_ChannelsPrimeAndStep_step : ∀ st ∈ [2, 5], (chanAt st fun c => c).running 95 = true ∧
    ((chanAt st fun c => c).chan 95).disabling = false ∧ (chanAt st fun c => c).skips 95 = false ∧
    (chanAt st fun c => c).paired = false ∧
    (chanAt st fun c => c).item? 95 ((chanAt st fun c => c).chan 95).next = none := by decide +kernel

/-- Port 7 in service; flow-table entry 65535 takes audio for buffer 1023 from the group 239.0.0.1, bucket of 1,518 bytes. -/
def ingesting : State := inPhase 9 [(Reg.NP_CTRL 7, 1), (Reg.NP_STATUS 7, 2), (Reg.FT_CTRL 65535, 0x81000000),
  (Reg.FT_DST 65535 0, 0xEF000001), (Reg.FT_VLAN_PORT 65535, 5004), (Reg.FT_POL_BURST 65535, 1518), (Reg.FT_POL_RATE 65535, 1),
  (Reg.FT_BIND 65535, 1023 * 1024 + 1)]
def mediaFrame (len dport : Nat) : MediaFrame :=
  ⟨7, 3, len, 0, [], false, false, false, true, some true, false, 0xEF000001, 1, dport, 77, 0, .audio [[⟨5, false, false, false, false⟩]]⟩
theorem witness_FramesAreCountedAndPoliced_port : (mediaFrame 64 5004).port < 8 ∧ (mediaFrame 64 5004).sub < 4 ∧
    ingesting.portUp 7 = true ∧ (mediaFrame 64 5004).fault = 0 ∧
    badHeader (mediaFrame 64 5004) = false ∧ badHeader { mediaFrame 64 5004 with headerSum := false } = true ∧
    (mediaFrame 64 5004).control = false := by decide +kernel
theorem witness_FramesAreCountedAndPoliced_unmatched :
    ingesting.flowOf (mediaFrame 64 5003) (ingesting.fld (Reg.NP_CTRL 7) 2 2) = none := by decide +kernel
theorem witness_FramesAreCountedAndPoliced_matched :
    (∀ x ∈ ingesting.sch.engines, x.2.isWaiting = false) ∧ ingesting.flowOf (mediaFrame 1518 5004) (ingesting.fld (Reg.NP_CTRL 7) 2 2) = some 65535 ∧ 65535 < 65536 ∧
    8000 * (mediaFrame 1518 5004).len ≤ (ingesting.elapse 0).bucketFill 65535 7 ∧
    (ingesting.elapse 0).bucketFill 65535 7 < 8000 * (mediaFrame 1519 5004).len ∧
    (mediaFrame 1518 5004).body = .audio [[⟨5, false, false, false, false⟩]] ∧ ingesting.fld (Reg.FT_CTRL 65535) 26 24 = 1 ∧
    ingesting.fld (Reg.FT_BIND 65535) 6 0 = 1 ∧
    (ingesting.elapse 0).seqTaken (ingesting.flowKey 65535) (mediaFrame 1518 5004).seq = false := by decide +kernel

/-- Channel 95 of an unpaired unit with one path up, a TS gap held, and item 4 of one band. -/
def gapped (f : Item → Item) : State :=
  let s := withItem 95 4 f (inPhase 9 [(Reg.CHN_STATE 95, 3), (Reg.CHN_IN_STATUS 95, 2), (Reg.CHN_FORMAT 95, 128 * 1024 + 10)])
  s.modChan 95 fun c => { c with paths := [⟨false, none⟩, ⟨true, none⟩], nextSeq := some 5, held := [(6, [])] }
theorem witness_InputsEndAndBegin_path : (gapped id).chans.length = 96 ∧ ((gapped id).chan 95).paths.length = 2 ∧
    (((gapped id).chan 95).paths.getD 1 ⟨false, none⟩).up = true := by decide +kernel
theorem witness_InputsEndAndBegin_gap : (gapped id).paired = false ∧ (∀ x ∈ (gapped id).sch.engines, x.2.isWaiting = false) ∧ ((gapped id).chan 95).nextSeq = some 5 ∧
    (((gapped id).chan 95).held.map (·.1)).min? = some 6 ∧ 5 < 6 ∧
    ∀ x ∈ ((gapped id).chan 95).held, x.2 = [] := by decide +kernel
theorem witness_InputsEndAndBegin_slot :
    let f := fun it : Item => { it with controlFixed := true }
    (gapped f).item? 95 4 = some (f (item 95 4)) ∧ (f (item 95 4)).inputFixed = false ∧ (f (item 95 4)).accepted = false ∧
    (f (item 95 4)).controlFixed = true ∧ (f (item 95 4)).dr.slateEn = false ∧ (gapped f).inputOf 95 < 96 ∧
    ((gapped f).chan ((gapped f).inputOf 95)).absent = none := by decide +kernel
theorem witness_InputsEndAndBegin_deadline : (gapped id).item? 95 4 = some (item 95 4) ∧ ((item 95 4).band 0).done = 0 ∧
    0 < (gapped id).bands 95 ∧ (gapped id).inputOf 95 < 96 ∧ (gapped id).chKind ((gapped id).inputOf 95) ≠ 1 := by decide +kernel
theorem witness_InputsEndAndBegin_preparation :
    let f := fun it : Item => { it with prep := 1, inDigest := [none] }
    (gapped f).item? 95 4 = some (f (item 95 4)) ∧ (f (item 95 4)).prep = 1 ∧ (f (item 95 4)).inDigest = [none] := by
  decide +kernel

/-! ## Witnesses: engines, output and the traffic managers -/

/-- Piece 32767 of die 7: stage 1 of band 0 of item 4 of channel 95, in state `st`, taken `a` times. -/
def piece (st : DescState) (a e : Nat) : Desc :=
  ⟨7, 32767, 95, 4, 0, 1, st, 0, 0, false, false, a, e, 0, 0, false⟩
/-- Die 7's engines work; `d` is in use, engine 392 is in state `x`. -/
def scheduled (d : Option Desc) (x : Option EngSt) : State :=
  let s := withItem 95 4 id (inPhase 9 ([(Reg.CHN_STATE 95, 3), (Reg.CHN_PLACE 95, 255)] ++ (List.range 8).map fun c => (Reg.CL_STATUS 7 c, 0x7F)))
  let s := s.modChan 95 fun c => { c with place := some ⟨[⟨7, [0, 1, 2, 3, 4, 5, 6, 7], none, 100, false, 8, 1000000, 4⟩], true⟩ }
  { s with sch := { s.sch with descs := d.toList, engines := x.toList.map fun y => (392, y) } }
theorem witness_EnginesTakeAndFinishWork_wait : (∀ x ∈ (scheduled none none).sch.engines, x.2.isWaiting = false) ∧
    (scheduled none none).engOk 392 = true ∧ (scheduled none none).eng? 392 = none ∧
    (scheduled none none).bestFor 392 = none := by decide +kernel
theorem witness_EnginesTakeAndFinishWork_take : (scheduled (some (piece .ready 0 1023)) none).eng? 392 = none ∧
    (scheduled (some (piece .ready 0 1023)) none).engOk 392 = true ∧
    (scheduled (some (piece .ready 0 1023)) none).bestFor 392 = some (piece .ready 0 1023) ∧
    (scheduled (some (piece .ready 0 1023)) none).descAt 7 32767 = some (piece .ready 0 1023) := by decide +kernel
def holding : State := scheduled (some (piece .taken 2 392)) (some (.holds 7 32767 0))
theorem witness_EnginesTakeAndFinishWork_complete : (∀ x ∈ holding.sch.engines, x.2.isWaiting = false) ∧
    holding.eng? 392 = some (.holds 7 32767 0) ∧ holding.descAt 7 32767 = some (piece .taken 2 392) ∧
    (piece .taken 2 392).decode = false ∧ (piece .taken 2 392).stage ∈ [1, 2, 4, 7] := by decide +kernel
/-- The same at stage `st`, the band complete up to it. -/
def holdingAt (st : Nat) : State :=
  let s := scheduled (some { piece .taken 2 392 with stage := st }) (some (.holds 7 32767 0))
  s.modItem 95 4 fun it => { it with bands := it.bands.map fun b => { b with done := st } }
theorem witness_EnginesTakeAndFinishWork_band : ∀ st ∈ [1, 2, 4, 7],
    (holdingAt st).descAt 7 32767 = some { piece .taken 2 392 with stage := st } ∧
    (holdingAt st).eng? 392 = some (.holds 7 32767 0) ∧
    ((holdingAt st).item? 95 4).map (fun it => (it.band 0).done) = some st ∧
    ((holdingAt st).item? 95 4).all (fun it => decide (0 < it.bands.length)) = true := by decide +kernel
theorem witness_EnginesTakeAndFinishWork_reset : (scheduled none (some .resets)).eng? 392 = some .resets := by decide +kernel
/-- An allocation of band 0 of item `k` waits; `d` is in use. -/
def allocating (k : Nat) (d : Option Desc) : State :=
  let s := scheduled d none
  { s with sch := { s.sch with waits := [⟨95, k, 0, 1, false, 7, 0⟩] } }
theorem witness_EnginesTakeAndFinishWork_gone : (allocating 5 none).sch.waits[0]? = some ⟨95, 5, 0, 1, false, 7, 0⟩ ∧
    (allocating 5 none).item? 95 5 = none := by decide +kernel
theorem witness_EnginesTakeAndFinishWork_blocked :
    let s := allocating 4 (some { piece .ready 0 1023 with idx := 20 })
    s.sch.waits[0]? = some ⟨95, 4, 0, 1, false, 7, 0⟩ ∧ s.slotFree 95 4 false = false ∧ (s.item? 95 4).isSome = true := by
  decide +kernel
theorem witness_EnginesTakeAndFinishWork_made : (allocating 4 none).item? 95 4 = some (item 95 4) ∧
    (allocating 4 none).slotFree 95 4 false = true ∧
    (allocating 4 none).descFree 95 ((allocating 4 none).partOf 95 0) ((allocating 4 none).dieOf 95 ((allocating 4 none).partOf 95 0)) = true := by decide +kernel

theorem witness_FaultsRedispatchWork : holding.eng? 392 = some (.holds (piece .taken 2 392).die (piece .taken 2 392).no 0) ∧
    (piece .taken 2 392).attempt < 3 ∧ (holding.elapse 0).faultsOf 392 < 2 ∧ (piece .taken 2 392).die < 8 ∧
    (piece .taken 2 392).chan < 96 ∧ (piece .taken 2 392).engine = 392 ∧ (piece .taken 2 392).st = .taken ∧
    (holding.elapse 0).stalled (piece .taken 2 392) = true ∧
    ((put [(Reg.SAF_CTRL, 256)] holding).elapse 0).stalled (piece .taken 2 392) = false := by decide +kernel
/-- Two band periods, 0.6 ms and `x` ns after time 0, at which band 0 became ready. -/
def atBound (x : Int) : State := { holding with clk := { holding.clk with dtc := ((84016667 + x).toNat) * 4294967296 } }
theorem witness_FaultsRedispatchWork_late : (atBound 0).chans.length = 96 ∧ (atBound 0).item? 95 4 = some (item 95 4) ∧
    0 < (item 95 4).bands.length ∧ (atBound 0).dieOf 95 ((atBound 0).partOf 95 0) < 8 ∧
    ((atBound 0).elapse 0).boundPast 95 (item 95 4) 0 = true ∧ ((atBound (-1)).elapse 0).boundPast 95 (item 95 4) 0 = false := by
  decide +kernel

/-- Egress flow 2047 of kind `k` with channel 95 as its programme, on sub-port 0 of port 7, red only. -/
def sending (k aux : Nat) : State := withItem 95 4 (fun it => { it with inputFixed := true, bands := [{ Band.reset with done := 7 }] })
  (inPhase 9 [(Reg.CHN_STATE 95, 2), (Reg.CHN_OUT_FLOW 95, 0x80000000 + 2047), (Reg.OF_CTRL 2047, 0xA0000000 + k * 2 ^ 20),
    (Reg.OF_NET 2047, 28 * 2 ^ 27), (Reg.OF_AUX 2047, aux), (Reg.NP_STATUS 7, 2), (Reg.NP_CTRL 7, 1)])
theorem witness_DatagramsFormAndAreHandedOver_invalid : (inPhase 9).flowValid 2047 = false := by decide +kernel
/-- FEC flow 2047 over flow 3, which carries channel 95 and whose first copy has left every path; where `l` a later one too. -/
def parity (k left : Nat) : State :=
  let s := put [(Reg.CHN_OUT_FLOW 95, 0x80000003), (Reg.OF_CTRL 3, 0xA0000000)] (sending k 3)
  s.modFlow 3 fun f => { f with left := left }
theorem witness_DatagramsFormAndAreHandedOver_fec : ∀ k ∈ [3, 4], (parity k 1).egr.leaving = [] ∧ (parity k 1).flowValid 2047 = true ∧
    ((parity k 1).flowKind 2047 = 3 ∨ (parity k 1).flowKind 2047 = 4) ∧
    (parity k 1).flowRuns ((parity k 1).fld (Reg.OF_AUX 2047) 15 0) = true ∧ (parity k 1).isStandby = false ∧
    (∀ m ∈ (parity k 1).fecMembers 2047, m < ((parity k 1).flow ((parity k 1).fld (Reg.OF_AUX 2047) 15 0)).left) ∧
    ((parity k 1).pathEn 2047 false = true ∨ (parity k 1).pathEn 2047 true = true) := by decide +kernel
/-- A flow of kind `k` whose channel's item 4 has its bands handed over, at 1 Mb/s, 10 s past its release. -/
def assembled (k : Nat) : State :=
  let s := (put [(Reg.OF_CTRL 2047, 0xA0000000 + k * 2 ^ 20 + 95 * 2 ^ 8)] (sending k 0)).modItem 95 4 fun it =>
    { it with rh := 1000000, bands := [{ Band.reset with done := 8 }] }
  { s.modPic 95 4 fun p => { p with bytes := [(0, [0, 0, 1, 0x40, 1, 7])] } with clk := { s.clk with dtc := 10000000000 * 2 ^ 32 } }
theorem witness_DatagramsFormAndAreHandedOver_nal : (assembled 1).egr.leaving = [] ∧ (assembled 1).flowValid 2047 = true ∧ (assembled 1).flowKind 2047 = 1 ∧
    (assembled 1).flowRuns 2047 = true ∧ (assembled 1).isStandby = false ∧ (assembled 1).paired = false ∧
    let u := (((assembled 1).elapse 0).crcChain 0 false).startBase 2047
    (match u.nalNext ((assembled 1).fld (Reg.OF_CTRL 2047) 19 8)
        ((assembled 1).chan ((assembled 1).fld (Reg.OF_CTRL 2047) 19 8)).mux with
      | .packet due p _ => decide (due ≤ u.now) && decide (p.payload = [0x40, 1, 7])
      | _ => false) = true := by decide +kernel
theorem witness_DatagramsFormAndAreHandedOver_ts : (assembled 0).egr.leaving = [] ∧ (assembled 0).flowValid 2047 = true ∧ (assembled 0).flowKind 2047 = 0 ∧
    (assembled 0).flowRuns 2047 = true ∧ (assembled 0).isStandby = false ∧ (assembled 0).paired = false ∧
    let u := (((assembled 0).elapse 0).crcChain 0 false).startBase 2047
    (closeOf (u.waiting 2047).1 (u.waiting 2047).2).map (fun c => decide (c ≤ u.now)) = some true := by decide +kernel
/-- Eight channels from buffer 1020 on, latency 4; reader and fill of each buffer where `r`. -/
def audioFlow (r : Bool) : State :=
  (List.range 8).foldl (fun s c => s.setAbuf ((1020 + c) % 1024)
    { ABuf.reset with wr := 4, words := [1#32, 2#32, 3#32, 4#32], rds := if r then [⟨1024 + 2047, 0, false, 0, false⟩] else [] })
    (sending 2 (1020 * 2 ^ 22 + 7 * 2 ^ 18 + 4))
theorem witness_DatagramsFormAndAreHandedOver_audio : (audioFlow true).flowValid 2047 = true ∧
    (audioFlow true).flowKind 2047 = 2 ∧ (audioFlow true).live = true ∧
    (audioFlow true).fld (Reg.OF_AUX 2047) 21 18 + 1 ≤ 8 ∧
    ∀ ch < (audioFlow true).fld (Reg.OF_AUX 2047) 21 18 + 1,
      ((audioFlow true).abuf (((audioFlow true).fld (Reg.OF_AUX 2047) 31 22 + ch) % 1024)).rds.any (fun r =>
        r.id == 1024 + 2047 && (r.started || decide ((audioFlow true).fld (Reg.OF_AUX 2047) 12 0 ≤
          ((audioFlow true).abuf (((audioFlow true).fld (Reg.OF_AUX 2047) 31 22 + ch) % 1024)).wr - r.idx))) = true := by
  decide +kernel
theorem witness_DatagramsFormAndAreHandedOver_attach : (∀ ch < 8, ((audioFlow false).abuf ((1020 + ch) % 1024)).rds = []) ∧
    0 < (audioFlow false).fld (Reg.OF_AUX 2047) 12 0 ∧ (audioFlow false).fld (Reg.OF_AUX 2047) 31 22 = 1020 ∧
    (audioFlow false).fld (Reg.OF_AUX 2047) 21 18 + 1 = 8 := by decide +kernel
def datagram : Dgram := ⟨2047, 7, 0, 3, false, ([], []), [], (true, false), (true, false)⟩
def closed : State := let s := sending 0 0; { s with egr := { s.egr with dgrams := [datagram] } }
theorem witness_DatagramsFormAndAreHandedOver_release :
    closed.egr.dgrams.find? (fun x => x.flow == (2047 : Fin 2048).val && x.seq == 7) = some datagram ∧
    (if false then datagram.wait.2 else datagram.wait.1) = true ∧ closed.built datagram = true ∧
    closed.earlierHanded datagram false = true ∧ closed.streamRoom (closed.pathPort 2047 false).1 = true ∧
    datagram.close ≤ (closed.elapse 0).now ∧
    closed.subUp (closed.pathPort 2047 false).1 (closed.pathPort 2047 false).2 = true := by decide +kernel
theorem witness_DatagramsFormAndAreHandedOver_noOutput :
    let s := put [(Reg.CHN_OUT_FLOW 95, 0)] (sending 0 0)
    s.chans.length = 96 ∧ s.noOutput 95 = true ∧ (s.item? 95 4).map (fun it => (it.inputFixed,
      it.bands.all fun b => decide (7 ≤ b.done), it.left, it.abandoned)) = some (true, true, none, false) := by decide +kernel
theorem witness_DatagramsFormAndAreHandedOver_audioDue :
    let s := put [(Reg.CHN_OUT_AUD 95 7, 0x80000001)] (sending 0 0)
    (s.item? 95 4).isSome = true ∧ s.bit (Reg.CHN_OUT_AUD 95 7) 31 = true := by decide +kernel

/-- A frame of class `c` waits on sub-port 0 of port 7; gates `open_` of the streams. -/
def frameOf (c : Nat) : QFrame := ⟨7, 0, c, 0, false, 0, 64, 0, false, true, [], .reply 1 7 9 []⟩
def queuedFrame (c : Nat) : State :=
  let s := inPhase 9 [(Reg.NP_STATUS 7, 2), (Reg.TF_RATE 0, 1000), (Reg.NP_CTRL 7, 1)]
  { s with egr := { s.egr with queue := [frameOf c] } }
/-- The line of sub-port 0 of port 7 is free from instant `at_` on. -/
def lineOf (at_ : Int) : State :=
  let s := inPhase 9 [(Reg.NP_STATUS 7, 2)]
  { s with egr := { s.egr with lines := [(28, s.now50 + at_)] } }
theorem witness_FramesLeaveAndGatesRun_busy : (lineOf 1).subUp 7 0 = true ∧ (lineOf 1).egr.leaving = [] ∧
    ((lineOf 1).elapse 0).lineFree 7 0 = false ∧ ((lineOf 0).elapse 0).lineFree 7 0 = true := by decide +kernel
theorem witness_FramesLeaveAndGatesRun_none : (inPhase 9 [(Reg.NP_STATUS 7, 2)]).subUp 7 0 = true ∧
    (inPhase 9 [(Reg.NP_STATUS 7, 2)]).egr.leaving = [] ∧ ((inPhase 9 [(Reg.NP_STATUS 7, 2)]).elapse 0).lineFree 7 0 = true ∧
    ((inPhase 9 [(Reg.NP_STATUS 7, 2)]).elapse 0).heldBack 7 0 = [] ∧
    ((inPhase 9 [(Reg.NP_STATUS 7, 2)]).elapse 0).framePick 7 0 = none := by decide +kernel
theorem witness_FramesLeaveAndGatesRun_pick : ∀ c ∈ [7, 4, 0, 6, 5], (queuedFrame c).subUp 7 0 = true ∧ (queuedFrame c).egr.leaving = [] ∧
    ((queuedFrame c).elapse 0).lineFree 7 0 = true ∧
    ((queuedFrame c).elapse 0).heldBack 7 0 = [] ∧ ((queuedFrame c).elapse 0).framePick 7 0 = some (frameOf c) ∧
    (frameOf c).cls = c ∧ (frameOf c).port = 7 ∧ (frameOf c).sub = 0 ∧ (frameOf c).replay = true ∧
    (queuedFrame c).twin.gatesOpen = false ∧ (queuedFrame c).isStandby = false := by decide +kernel
def rates : State := liveWith [Reg.TF_RATE 2047] [(Reg.TF_FLOOR 2047, 5)]
theorem witness_FramesLeaveAndGatesRun_rate : rates.mayWrite (Reg.TF_RATE 2047) 29 0 = true ∧
    (∀ r ∈ [5, 360000000], fldOf (BitVec.ofNat 32 r) 29 0 = r ∧ r ≤ 360000000 ∧ rates.fld (Reg.TF_FLOOR 2047) 29 0 ≤ r ∧
      rates.ratesFit 2047 r = true) ∧
    ¬ (rates.fld (Reg.TF_FLOOR 2047) 29 0 ≤ 4) ∧ 4 ≠ rates.fld (Reg.TF_RATE 2047) 29 0 := by decide +kernel
/-- A sealed unit that may write port 7's gate list; gating where `on`, a list pending where `p`, INDEX at its end. -/
def gating (on p : Bool) (len : Nat) : State :=
  let s := liveWith [Reg.TMG_GCL_DATA 7, Reg.TMG_GCL_CTRL 7] [(Reg.TMG_GCL_CTRL 7, 1023), (Reg.TMG_CTRL 7, b2n on),
    (Reg.TMG_ADMIN_CYCLE 7, 1000000000), (Reg.TMG_ADMIN_LEN 7, len)]
  s.modGate 7 fun g => { g with shadow := [(0, 0xFF000001)], oper := ⟨1000, [(255, 500), (1, 500)]⟩,
                                pending := if p then some (⟨2000, [(255, 2000)]⟩, 0) else none, start := some (0, 0) }
theorem witness_FramesLeaveAndGatesRun_data : ∀ p ∈ [false, true], (gating true p 1).egr.gates.length = 8 ∧
    (gating true p 1).mayWrite (Reg.TMG_GCL_DATA 7) 31 24 = true ∧ (gating true p 1).mayWrite (Reg.TMG_GCL_DATA 7) 23 0 = true ∧
    ((gating true p 1).gate 7).pending.isSome = p := by decide +kernel
theorem witness_FramesLeaveAndGatesRun_commit : ∀ on ∈ [false, true], ∀ x ∈ [(false, 1), (true, 1), (false, 2), (false, 0)],
    (gating on x.1 x.2).mayWrite (Reg.TMG_GCL_CTRL 7) 9 0 = true ∧
    (gating on x.1 x.2).mayWrite (Reg.TMG_GCL_CTRL 7) 31 31 = true ∧ fldOf 0x800003FF#32 31 31 = 1 ∧
    ((gating on x.1 x.2).gate 7).pending.isSome = x.1 ∧
    ((gating on x.1 x.2).shadowList 7).valid = decide (x.2 = 1) ∧ (gating on x.1 x.2).bit (Reg.TMG_CTRL 7) 0 = on := by
  decide +kernel
theorem witness_FramesLeaveAndGatesRun_cycle : ∀ p ∈ [false, true], (gating true p 1).gated 7 = true := by decide +kernel
theorem witness_FramesLeaveAndGatesRun_entry : ((gating true false 1).gate 7).start.isSome = true ∧
    ((gating true false 1).gate 7).entry + 1 < ((gating true false 1).gate 7).oper.entries.length := by decide +kernel

/-! ## Witnesses: serial audio, calibration and the safety monitors -/

/-- A buffer with a reader `n` samples behind its writer. -/
def behind (n : Nat) : State := State.reset.setAbuf 1023 { ABuf.reset with wr := 9000, rds := [⟨0, 9000 - n, true, 0, false⟩] }
theorem witness_OverrunKeepsUnreadSamples : ∀ n ∈ [8191, 8192],
    ∃ r ∈ ((behind n).abuf 1023).rds, r.idx ≤ 8998 ∧ ((behind n).abuf 1023).wr ≤ 8998 + 8192 ∧
      8998 + 1 < ((behind n).abuf 1023).wr ∧
      (((behind n).abuf 1023).rds.any fun r => decide (8192 ≤ ((behind n).abuf 1023).wr - r.idx)) = decide (n = 8192) := by
  decide +kernel

/-- Port 15 of a LIVE unit, enabled, pre-roll of one frame, in phase `ph`. -/
def audioPort (ph : APhase) (ctrl : Nat) : State :=
  (inPhase 9 [(Reg.AUD_CTRL 15, 0x80000000 + ctrl), (Reg.AUD_PREROLL 15, 1)]).modAport 15 fun x => { x with phase := ph }
theorem witness_AudioPortsFollowTheirClock_early : (inPhase 8).live = false := by decide +kernel
theorem witness_AudioPortsFollowTheirClock_start : (audioPort .stopped 1).live = true ∧ (audioPort .stopped 1).dieOk (15 / 2) = true ∧
    (audioPort .stopped 1).aud.ports.length = 16 ∧ (audioPort .stopped 1).audWanted 15 = true ∧
    ((audioPort .stopped 1).aport 15).phase = .stopped ∧ ((audioPort .stopped 1).elapse 0).gapOver 15 = true ∧
    (audioPort .stopped 1).audFollows 15 = false ∧ (((audioPort .stopped 1).elapse 0).takeSync 15).2 = true ∧
    0 < (audioPort .stopped 1).fld (Reg.AUD_PREROLL 15) 12 0 := by decide +kernel
theorem witness_AudioPortsFollowTheirClock_data : (audioPort .data 1).audWanted 15 = true ∧
    ((audioPort .data 1).aport 15).phase = .data ∧
    (((audioPort .data 1).elapse 0).takeSync 15).2 = true ∧
    ((audioPort .data 1).aport 15).restart = false := by decide +kernel
theorem witness_AudioPortsFollowTheirClock_aes3 : (audioPort .data 0x20).aesIn 15 = true ∧
    (audioPort .data 0x20).bit (Reg.AUD_CTRL 15) 31 = true := by decide +kernel
/-- Port 15 in data on an input of mode bits `ctrl`, slots 0 and 1 on buffers 3 and 4, buffer 3 one word short of full. -/
def audioInput (ctrl status : Nat) : State :=
  let s := inPhase 9 [(Reg.AUD_CTRL 15, 0x80000000 + ctrl), (Reg.AUD_SLOT_BUF 15 0, 3), (Reg.AUD_SLOT_BUF 15 1, 4),
    (Reg.AUD_STATUS 15, status)]
  (s.modAport 15 fun x => { x with phase := .data, mask := 3 }).setAbuf 3
    { ABuf.reset with wr := 9000, rds := [⟨0, 9000 - 8191, true, 0, false⟩] }
theorem witness_AudioPortsFollowTheirClock_slot : ∀ x ∈ [(0, 0), (0x20, 0x100)],
    let s := audioInput x.1 x.2
    s.audOut 15 = false ∧ (s.aport 15).staged = [] ∧ (s.aport 15).mask.testBit 0 = true ∧ s.audBuf 15 0 = 3 ∧
    s.audBuf 15 1 = 4 ∧ (∀ j < 16, j ≠ 0 → s.audBuf 15 j ≠ 3) ∧ (s.aport 15).phase = .data ∧
    (∀ r ∈ (s.abuf 3).rds, (s.abuf 3).wr - r.idx < 8192) ∧ s.bit (Reg.AUD_STATUS 15) 8 = decide (x.2 = 0x100) ∧
    s.audWanted 15 = true ∧ ((s.elapse 0).takeSync 15).2 = true ∧ s.audSlots 15 = 2 ∧ s.aesIn 15 = decide (x.1 = 0x20) := by
  decide +kernel
theorem witness_AudioPortsFollowTheirClock_clock :
    let s := inPhase 9 [(Reg.AUD_WC_CTRL, 0x01800001)]
    s.bit Reg.AUD_WC_CTRL 0 = true ∧ s.onWclk = true ∧ s.bit Reg.AUD_WC_CTRL 23 = true ∧ s.bit Reg.AUD_WC_CTRL 24 = true := by
  decide +kernel

/-- The network lane 7 of die 7 is locked and its receiver stages `sh`. -/
def adapting (sh : Option (List Int)) : State :=
  let s := inPhase 9 [(Reg.LN_STATUS 7 7, 0x80000000)]
  s.setRecv 77 { s.recv 77 with shadow := sh }
theorem witness_CalibrationIsStagedAndCommitted_none : recvExists 78 = true ∧ (inPhase 9).adapts 78 = false := by decide +kernel
theorem witness_CalibrationIsStagedAndCommitted_adapt : recvExists 77 = true ∧ (adapting none).adapts 77 = true ∧
    ((adapting none).recv 77).shadow = none ∧ (assocGet (0, none) (adapting none).cal.refs 77).2 = none ∧
    ((adapting (some [1])).recv 77).shadow = some [1] ∧ laneId 7 7 = 77 := by
  decide +kernel
theorem witness_CalibrationIsStagedAndCommitted_context : recvExists 143 = true ∧
    ((inPhase 9).elapse 0).decodes (calAddr 143 0) = true := by decide +kernel
theorem witness_CalibrationIsStagedAndCommitted_signature :
    (latched (calAddr 143 (sigIndex 143))).latchOf (masterNo 2 1) (calAddr 143 (sigIndex 143)) = some 5#32 ∧
    ((latched 0).elapse 0).decodes (calAddr 143 (sigIndex 143)) = true := by decide +kernel
theorem witness_CalibrationIsStagedAndCommitted_window : sigIndex 143 ≤ 10 ∧
    (inPhase 4 [(Reg.EMG_STATUS, 0x804)]).bit Reg.EMG_STATUS 11 = true ∧ (inPhase 9).bit Reg.EMG_STATUS 11 = false ∧
    (0#32).toNat &&& calMask 143 1 = ((inPhase 9).windowNow 143).getD 1 0 &&& calMask 143 1 ∧
    (0xFFFFFFFF#32).toNat &&& calMask 143 1 ≠ ((inPhase 9).windowNow 143).getD 1 0 &&& calMask 143 1 := by decide +kernel

/-- Item 4 of channel 95, as `f` makes it, 1 ms after its release instant; its DIE_LIMIT is 1 ms too. -/
def judging (f : Item → Item) : State :=
  let s := withItem 95 4 f (inPhase 9 [(Reg.SAF_CTRL, 1)])
  { s with clk := { s.clk with dtc := (s.releaseAt 95 (item 95 4) + 1000000).toNat * 4294967296 } }
theorem witness_SafetyMonitorsAct_judged : (judging id).egr.leaving = [] ∧ (judging fun it => { it with judged := true }).chans.length = 96 ∧
    ((judging fun it => { it with judged := true }).item? 95 4).map (·.judged) = some true ∧
    ((judging fun it => { it with abandoned := true }).item? 95 4).map (·.abandoned) = some true ∧
    (put [(Reg.SAF_STATUS, 0x80FF0000)] (judging id)).snuffed = true := by decide +kernel
/-- Left exactly 1 ms after E_k, and not left at all. -/
theorem witness_SafetyMonitorsAct_departure :
    let late := (judging id).releaseAt 95 (item 95 4) + 1000000
    (judging id).snuffed = false ∧ (item 95 4).judged = false ∧ (item 95 4).abandoned = false ∧
    (∀ x, ({ item 95 4 with left := some late } : Item).left = some x → x ≤ (judging id).releaseAt 95 (item 95 4) + 1000000) ∧
    (item 95 4).left = none ∧ (judging id).paired = false ∧ (judging id).item? 95 4 = some (item 95 4) ∧
    ((judging id).elapse 0).sinceRelease 95 (item 95 4) 1 = true ∧ ((judging id).elapse 0).sinceRelease 95 (item 95 4) 2 = false := by
  refine ⟨by decide +kernel, by decide +kernel, by decide +kernel, ?_, by decide +kernel, by decide +kernel, by decide +kernel,
    by decide +kernel, by decide +kernel⟩
  intro x e
  obtain rfl := Option.some.inj e
  exact Int.le_refl _
theorem witness_SafetyMonitorsAct_limit : (judging id).snuffed = false ∧ (item 95 4).left = none ∧
    (item 95 4).abandoned = false ∧ (judging id).paired = false ∧ (judging id).twin.handover = false ∧
    (judging id).twin.after = [] ∧ (judging id).namedDie 95 (item 95 4) < 8 ∧
    ((judging id).elapse 0).sinceRelease 95 (item 95 4) ((judging id).fld Reg.SAF_CTRL 7 0) = true := by decide +kernel
theorem witness_SafetyMonitorsAct_lockstep : (inPhase 9).dieOk 7 = true ∧ 2 * 7 + 1 ∉ (inPhase 9).saf.held ∧
    (inPhase 9).saf.lockstepAt = [] ∧ (inPhase 9).sch.engines = [] := by decide +kernel
theorem witness_SafetyMonitorsAct_rail : (inPhase 9).dieOk 7 = true ∧ (inPhase 9).bit Reg.THM_STATUS 7 = false ∧
    (inPhase 9 [(Reg.THM_STATUS, 0x80)]).bit Reg.THM_STATUS 7 = true ∧ (inPhase 9).paired = false ∧
    (inPhase 9).twin.handover = false ∧ (inPhase 9).twin.after = [] := by decide +kernel

/-! ## Ill-formed commands: one for each check of WellFormed -/

theorem wf_good : (Instr.beaconRead 0 (opMsg 1 [0, 0, 0, 0])).wf = true ∧ (Instr.mediaFrameRx 0 (mediaFrame 64 5004)).wf = true ∧
    (Instr.flameSetRx 0 7 ⟨7, 1, 15, 0xFFFFFFFF, 255⟩).wf = true ∧
    (Instr.masterResetMidBurst 0 ⟨7, 3, 0, 15, 16, none⟩ false .nothing).wf = true := by decide +kernel
/-- Each header field of a Beacon message one past its bits, another OP, a short tag, a port that is not there. -/
theorem wf_beacon : ∀ m ∈ [{ opMsg 1 [] with magic := 65536 }, { opMsg 1 [] with version := 256 }, opMsg 2 [],
      { opMsg 1 [] with flags := 256 }, { opMsg 1 [] with status := 256 }, { opMsg 1 [] with length := 65536 },
      { opMsg 1 [] with session := 2 ^ 32 }, { opMsg 1 [] with seq := 2 ^ 64 }, { opMsg 1 [] with tag := [] },
      { opMsg 1 [] with port := some 8 }], (Instr.beaconRead 0 m).wf = false := by decide +kernel
theorem wf_beacon_op : (Instr.beaconWrite 0 (opMsg 1 [])).wf = false ∧ (Instr.beaconBlockRead 0 (opMsg 1 []) 0 1).wf = false ∧
    (Instr.beaconSubscribe 0 (opMsg 1 []) 1 1 []).wf = false ∧ (Instr.flashOpen 0 (opMsg 1 []) 0 0).wf = false ∧
    (Instr.flashData 0 (opMsg 1 []) 0 [0]).wf = false ∧ (Instr.flashCommit 0 (opMsg 1 [])).wf = false ∧
    (Instr.flashAbort 0 (opMsg 1 [])).wf = false ∧ (Instr.keyClaim 0 (opMsg 1 [])).wf = false := by decide +kernel
theorem wf_beacon_operands : (Instr.flashData 0 (opMsg 5 []) 0 []).wf = false ∧
    (Instr.flashData 0 (opMsg 5 []) 0 (List.replicate 1025 0)).wf = false ∧
    (Instr.beaconBlockRead 0 (opMsg 3 []) (2 ^ 32) 1).wf = false := by decide +kernel
theorem wf_mediaFrame : ∀ m ∈ [{ mediaFrame 64 1 with port := 8 }, { mediaFrame 64 1 with sub := 4 }, mediaFrame 63 1,
      mediaFrame 9217 1, { mediaFrame 64 1 with fault := 4 }, mediaFrame 64 65536, { mediaFrame 64 1 with tags := [4096] }],
    (Instr.mediaFrameRx 0 m).wf = false := by decide +kernel
theorem wf_flameWord : ∀ w ∈ [(⟨8, 0, 0, 0, 0⟩ : FlameWord), ⟨1, 2, 0, 0, 0⟩, ⟨1, 0, 16, 0, 0⟩, ⟨1, 0, 0, 2 ^ 32, 0⟩,
      ⟨1, 0, 0, 0, 256⟩], (Instr.flameSetRx 0 0 w).wf = false ∧ (Instr.wickWordRx 0 w).wf = false := by decide +kernel
theorem wf_burst : ∀ b ∈ [(⟨8, 0, 0, 0, 1, none⟩ : Burst), ⟨0, 8, 0, 0, 1, none⟩, ⟨0, 0, 0, 0, 17, none⟩, ⟨0, 0, 0, 1, 1, none⟩],
    (Instr.masterResetMidBurst 0 b false .nothing).wf = false ∧ (Instr.dieLinkFailure 0 0 [b] []).wf = false := by decide +kernel
theorem wf_lantern : (Instr.dimReportRx 0 ⟨6, 0, 65536, true⟩ 0 0).wf = false ∧
    (Instr.decisionRecordRx 0 (head 1) false [0]).wf = false ∧
    (Instr.bandEntryRx 0 (head 2) 0 0 [0]).wf = false ∧ (Instr.gapEntryRx 0 (head 3) []).wf = false ∧ (Instr.liveWriteRx 0 (head 4) (2 ^ 32) 0).wf = false ∧
    (Instr.liveWriteRx 0 (head 4) 2 0).wf = false ∧ (Instr.inputDigestRx 0 (head 7) 0 0 2 0).wf = false ∧
    (Instr.inputDigestRx 0 (head 7) 0 0 0 (2 ^ 64)).wf = false ∧
    (Instr.outputDigestRx 0 (head 8) 0 0 none (2 ^ 64)).wf = false ∧
    (Instr.cursorFrameRx 0 (head 9) (List.replicate 257 (0, 0))).wf = false ∧
    (Instr.failureRecordRx 0 (head 10) []).wf = false ∧ (Instr.liveRegisterImageRx 0 (head 13) [(2, 0)]).wf = false ∧
    (Instr.liveRegisterImageRx 0 (head 13) [(0, 2 ^ 32)]).wf = false := by decide +kernel
theorem wf_idleSet : (Instr.idleSetRx 0 0 256 0 0 0 false).wf = false ∧ (Instr.idleSetRx 0 0 0 256 0 0 false).wf = false ∧
    (Instr.idleSetRx 0 0 0 0 65536 0 false).wf = false ∧ (Instr.idleSetRx 0 0 0 0 0 256 false).wf = false := by decide +kernel
theorem wf_time : (Instr.syncRx 0 { sync false with port := 32 }).wf = false ∧
    (Instr.syncRx 0 { sync false with domain := 256 }).wf = false ∧ (Instr.syncRx 0 { sync false with seq := 65536 }).wf = false ∧
    (Instr.followUpRx 0 5 65536 0 0).wf = false ∧ (Instr.announceRx 0 { announce with port := 32 }).wf = false ∧
    (Instr.announceRx 0 { announce with domain := 256 }).wf = false ∧
    (Instr.announceRx 0 { announce with sm := List.replicate 17 0 }).wf = false ∧
    (Instr.delayRespRx 0 256 0 0 0 0).wf = false ∧ (Instr.pdelayReqRx 0 32 0 0 0).wf = false ∧
    (Instr.pdelayReqRx 0 0 256 0 0).wf = false := by decide +kernel
theorem wf_bands : (Instr.bandDeadline 0 0 0 64).wf = false ∧ (Instr.bandTimingDeparture 0 0 0 64).wf = false ∧
    (Instr.recordWaitTimeout 0 0 0 4 0).wf = false ∧ (Instr.recordWaitTimeout 0 0 0 0 64).wf = false := by decide +kernel
theorem wf_lists : (Instr.e0Start 0 [] rails).wf = false ∧ (Instr.e0Start 0 (List.replicate 8 0) []).wf = false ∧ (Instr.e2Complete 0 []).wf = false ∧
    (Instr.presenceBeaconRx 0 0 []).wf = false ∧ (Instr.audioFrameSync 0 0 (List.replicate 17 0) none).wf = false ∧
    (Instr.aes3FrameRx 0 0 ⟨false, []⟩).wf = false ∧ (Instr.sensorSample 0 0 []).wf = false ∧
    (Instr.waxMeasurement 0 0 []).wf = false ∧ (Instr.i2cRead 0 0 true).wf = false ∧
    (Instr.fomUpdate 0 0 8 ⟨[1, 1], [1], [1], 1⟩ 0 0 0).wf = false ∧ (Instr.fomUpdate 0 0 7 ⟨[1], [1], [1], 1⟩ 0 0 0).wf = false := by decide +kernel
theorem wf_addresses : (Instr.reg64LoRead 0 0 0 (2 ^ 32)).wf = false ∧ (Instr.reg64LoWrite 0 0 0 (2 ^ 32) 0).wf = false ∧
    (Instr.reg64HiWrite 0 0 0 (2 ^ 32) 0).wf = false ∧ (Instr.registerWrite 0 0 0 (2 ^ 32) 0).wf = false ∧
    (Instr.undecodedAccess 0 0 0 (2 ^ 32)).wf = false ∧ (Instr.wrongWidthAccess 0 0 0 (2 ^ 32) 8).wf = false ∧
    (Instr.wrongWidthAccess 0 0 0 0 24).wf = false ∧ (Instr.rateLimitWindowClose 0 1024).wf = false ∧
    (Instr.calWindowWrite 0 0 6 0).wf = false ∧ (Instr.memoryRequest 0 0 0 0 false false 0 257 ⟨[], none⟩).wf = false ∧
    (Instr.memoryRequest 0 0 0 0 true false 0 2 ⟨[0], none⟩).wf = false := by decide +kernel

theorem test_decodeTableWord_spells_none : ∀ w ∈ [0, 1, 0xFFFFFFFF], decodeTableWord 32 w = none := by decide +kernel

/-! ## Values that the spec gives -/

/-- The bytes "123456789". -/
def digits : List Byte := [0x31, 0x32, 0x33, 0x34, 0x35, 0x36, 0x37, 0x38, 0x39]

/-- The check values of the table of R487. -/
theorem test_crc_check_values : crcOf ⟨5, 0x05, 0x1F, true, true, 0x1F⟩ digits = 0x19 ∧
    crcOf ⟨8, 0x07, 0, false, false, 0⟩ digits = 0xF4 ∧ crcOf ⟨8, 0x1D, 0xFF, true, true, 0⟩ digits = 0x97 ∧
    crcOf ⟨16, 0x1021, 0xFFFF, false, false, 0⟩ digits = 0x29B1 ∧
    crcOf ⟨32, 0x04C11DB7, 0xFFFFFFFF, true, true, 0xFFFFFFFF⟩ digits = 0xCBF43926 ∧
    crcOf ⟨32, 0x1EDC6F41, 0xFFFFFFFF, true, true, 0xFFFFFFFF⟩ digits = 0xE3069283 ∧
    crcOf ⟨64, 0x42F0E1EBA9EA3693, 0, false, false, 0⟩ digits = 0x6C40DF5F0B497347 := by decide +kernel
/-- The fixed datapath checks of R53, R104, R143, R298 and R350 over the same bytes. -/
theorem test_crc_datapath : crc32 digits = 0xCBF43926 ∧ crc32c digits = 0xE3069283 ∧ crcOf crc8Aes3Params digits = 0x97 ∧
    crc64 digits = 0x6C40DF5F0B497347 ∧ crc8Flame digits = 0xF4 ∧ crcOf crc16RowParams digits = 0x29B1 := by decide +kernel

/-- What exec answers, where it is a next state. -/
def after (i : Instr) (s : State) : Option State := match exec i s with
  | .next t => some t
  | _ => none

/-- Unit 4 of die D2 as step 5 of the example of R487 leaves it: configured, VALUE after "1234", COUNT 0. -/
def crcUnit : State :=
  let p : CrcParams := ⟨32, 0x04C11DB7, 0xFFFFFFFF, true, true, 0xFFFFFFFF⟩
  inPhase 9 [(Reg.CRC_CFG 2 4, 0xC0000020), (Reg.CRC_POLY_LO 2 4, 0x04C11DB7), (Reg.CRC_INIT_LO 2 4, 0xFFFFFFFF),
    (Reg.CRC_XOROUT_LO 2 4, 0xFFFFFFFF),
    (Reg.CRC_VALUE_LO 2 4, (digits.take 4).foldl (fun v b => crcFeed p v b.toNat) 0xFFFFFFFF)]
/-- Step 6: "5678" is four steps; CRC_FEED_B takes "9" to the result 0xCBF4_3926. -/
theorem test_crcFeedW_steps : (after (.crcFeedW 0 true 2 4 0x38373635) crcUnit).map
    (fun t => (t.rdN (Reg.CRC_COUNT 2 4), crcResult (t.crcCfg 2 4) (crcFeed (t.crcCfg 2 4) (t.crcValue 2 4) 0x39))) =
    some (4, 0xCBF43926) := by decide +kernel
theorem test_crcStart_loads_init : (after (.crcStart 0 true 2 4 1) crcUnit).map (fun t => t.crcValue 2 4) = some 0xFFFFFFFF := by
  decide +kernel
theorem test_crcFeedB_other_unit : (after (.crcFeedB 0 true 2 3 0x39) crcUnit).map
    (fun t => (t.rdN (Reg.CRC_COUNT 2 3), t.rdN Reg.MGT_REFUSED)) = some (0, 1) := by decide +kernel

/-- 7680×4320 at 120 pictures per second, 4:2:2, VVC, with lookahead `l`. -/
def format8k (l : Nat) : State :=
  at0 [(Reg.CHN_FORMAT 0, 0x01B00000 + 540 * 1024 + 960), (Reg.CHN_LOOKAHEAD 0, l)]
/-- 4,976.64 tapers at e4; lookahead multiplies by 1.03 (chapter 1); the efforts under D0 to D4 of a channel admitted at e4
(chapter 6). -/
theorem test_costAt_8k : (format8k 0).costAt 0 4 = 497664 ∧ (format8k 3).costAt 0 4 = 512594 ∧
    (List.range 5).map (dimCap 4) = [4, 3, 2, 1, 0] := by decide +kernel
/-- The ember floors of chapter 7. -/
theorem test_emberFloor : (format8k 0).emberFloor 0 = 192128 ∧
    (at0 [(Reg.CHN_FORMAT 0, 135 * 1024 + 240)]).emberFloor 0 = 49488 := by decide +kernel
/-- The sweep of chapter 6 ends its columns at 3, 5, 8, 10, 13 and 15. -/
theorem test_sweepCols : (List.range 6).map (sweepCols 15 6) = [3, 5, 8, 10, 13, 15] := by decide +kernel

/-- The routes of chapter 1: D2, D3, D1, D5, and from D0 to D1 with their link failed D0, D2, then D3, D1. -/
theorem test_route : (crossing false).route 2 5 = some [0, 1, 2] ∧ oneLinkDown.route 0 1 = some [1, 0, 1] := by decide +kernel
/-- A TS datagram of seven packets over IPv4 without a VLAN tag is 1,374 B (chapter 12). -/
theorem test_frame_length : State.reset.headLen 0 false + 7 * 188 + 4 = 1374 := by decide +kernel
/-- 24 Gb devices and one FAILED channel leave 5,016,387,584 B of pool space (chapter 17). -/
theorem test_pool_space : ((at0 [(Reg.MC_STATUS 1 0, 0x00010000), (Reg.MC_STATUS 1 1, 0x00010000),
    (Reg.MCC_STATUS 1 0 2, 4)]).showPool 1).rd64 (Reg.DIE_POOL_SPACE_LO 1) = 5016387584 := by decide +kernel
/-- The network lane of chapter 18: thresholds −60, 0 and 66 step toward −64, 1 and 64. -/
theorem test_threshold_steps :
    let st : AdaptStats := ⟨[[(-97, 1), (-31, 1), (33, 1), (95, 1)]], [], [], []⟩
    ([(10, -60), (11, 0), (12, 66)].map fun x => (stepParam 0 x.1 x.2 (stepDir 0 x.1 x.2 st)).1) = [-61, 1, 65] := by
  decide +kernel
/-- SI_NEED of chapter 19: 640.76 tapers with a margin of 2.0 % need 1,022; guaranteed mode needs 1,000. -/
theorem test_siNeed : (at0 [(Reg.CAP_CTRL, 0x1401), (Reg.CL_USE 0 0, 64076)]).siNeed 0 = 1022 ∧
    (at0 [(Reg.CAP_CTRL, 0x1400), (Reg.CL_USE 0 0, 64076)]).siNeed 0 = 1000 := by decide +kernel

/-! ## One step -/

/-- The ring of the example of chapter 21 after its two records: head 102, tail 100. -/
def ring : State := inPhase 9 [(Reg.EVT_HEAD, 102), (Reg.EVT_TAIL, 100)]
/-- A tail of 103 is refused and counted; a tail of 102 is taken. -/
theorem test_registerWrite_tail : (after (.registerWrite 0 0 2 Reg.EVT_TAIL 103) ring).map
      (fun t => (t.rdN Reg.EVT_TAIL, t.rdN Reg.MGT_REFUSED)) = some (100, 1) ∧
    (after (.registerWrite 0 0 2 Reg.EVT_TAIL 102) ring).map
      (fun t => (t.rdN Reg.EVT_TAIL, t.rdN Reg.MGT_REFUSED)) = some (102, 0) := by decide +kernel
/-- EMG_RESET acts on its key only (R44). -/
theorem test_emgReset_key : (after (.emgReset 0 0x12345678) ring).map (fun t => t.rdN Reg.EVT_HEAD) = some 102 := by
  decide +kernel
/-- The front command is taken, the second stays. -/
theorem test_step_takes_the_front : (match step { ring with pending := [.crcStart 0 true 2 4 1, .crcStart 0 true 2 4 0] } with
    | .next t => t.pending
    | _ => []) = [.crcStart 0 true 2 4 0] := by decide +kernel
/-- R520, R521 and R525: row 66 is CJ, the groups add to the grid's 6,241 balls, and the typical power is 410.0 W. -/
theorem test_package : rowName 66 = "CJ" ∧ rowName 79 = "DC" ∧ (ballGroups.map (·.2)).sum = 79 * 79 ∧ typicalPower = 410000 ∧
    lidLimit 520000 = 79000 := by decide +kernel

end Sys2Proof.Tests
end

section
/-! PROOFS. Scope: the registers at reset, the pairs, the abort log, live-permitted slot masks and the resets. First what the
end of a command leaves, which every settled statement uses. -/

namespace Sys2Proof.Machine

/-! ## What a command's end leaves -/

/-- A command that ends in `done u` leaves `u` with its event records written. -/
theorem Completes.of_done {i : Instr} {s u : State} {P : State → Prop} (h : exec i s = done u) (k : P u.settle) :
    Completes i s P := ⟨u.settle, h, k⟩

/-- With nothing raised a command that ends in `done u` leaves `u`. -/
theorem Completes.of_done_quiet {i : Instr} {s u : State} {P : State → Prop} (h : exec i s = done u)
    (quiet : u.evt.raises = []) (k : P u) : Completes i s P := .of_done h (by rwa [State.settle_quiet u quiet])

theorem State.regsBut_of_regs {s t : State} {l : List Nat} (h : t.regs = s.regs) : s.regsBut t l :=
  fun a _ _ => State.rd_congr h a

theorem State.regsBut.wr {s t : State} {l : List Nat} {a : Nat} {v : Word} (h : s.regsBut t l) (m : a ∈ l) :
    s.regsBut (t.wr a v) l := fun b out ev =>
  (State.rd_wr_other t a b v fun e => out (e ▸ m)).trans (h b out ev)

theorem State.regsBut.settle {s t : State} {l : List Nat} (h : s.regsBut t l) : s.regsBut t.settle l :=
  fun a out ev => (State.settle_rd t a ev).trans (h a out ev)

theorem State.settle_rd64 (s : State) (a : Nat) (lo : ¬ eventReg a) (hi : ¬ eventReg (a + 4)) :
    s.settle.rd64 a = s.rd64 a := by
  rw [State.rd64, State.settle_rdN _ _ lo, State.settle_rdN _ _ hi, State.rd64]

theorem State.rd64_wr64 (s : State) (a v : Nat) : (s.wr64 a v).rd64 a = v % 2 ^ 64 := by
  have lo : ((s.wrN a v).wrN (a + 4) (v / 4294967296)).rdN a = v % 4294967296 := by
    rw [State.rdN_of (State.rd_wrN_other _ _ _ _ (by omega)), State.rdN_wrN]
  rw [State.wr64, State.rd64, lo, State.rdN_wrN]
  omega

theorem State.sameBut_settle {s t : State} (h : s.sameBut t) : s.sameBut t.settle := by
  have e := t.settle_events
  obtain ⟨h1, h2, h3, h4, h5, h6, h7, h8, h9, h10, h11, h12, h13, h14, h15, h16, h17, h18, h19, h20⟩ := h
  exact ⟨e.pending.trans h1, e.sent.trans h2, e.fuses.trans h3, e.flashA.trans h4, e.flashB.trans h5, e.emg.trans h6,
    e.bus.trans h7, e.twin.trans h8, e.link.trans h9, e.saf.trans h10, e.links.trans h11, e.cap.trans h12, e.chans.trans h13,
    e.sch.trans h14, e.ing.trans h15, e.aud.trans h16, e.egr.trans h17, e.cal.trans h18, e.pic.trans h19, e.plant.trans h20⟩

/-- A refused write is counted, and changes no other register and no other state than the event unit's. -/
theorem State.refuse_settle (s : State) (a : Nat) :
    (s.refuse a).settle.rdN Reg.MGT_REFUSED = (s.rdN Reg.MGT_REFUSED + 1) % 4294967296 ∧
    s.regsBut (s.refuse a).settle [Reg.MGT_REFUSED] ∧ s.sameBut (s.refuse a).settle := by
  refine ⟨?_, ?_, State.sameBut_settle ?_⟩
  · rw [State.settle_rdN _ _ (by decide)]
    exact State.rdN_bump s Reg.MGT_REFUSED 1
  · exact State.regsBut.settle fun b out _ => State.rd_bump_other s Reg.MGT_REFUSED b 1 (by simpa using out)
  · simp [State.sameBut, State.refuse]

/-! ## Registers at reset -/

@[simp] theorem State.rd_reset (a : Nat) : State.reset.rd a = resetOf a := rfl

/-- Below the die regions a register whose chapter states no reset value has 0 (R11). -/
theorem resetOf_eq_zero {a : Nat} (h : a < 0x01000000)
    (named : a ∉ [Reg.EVT_CTRL, Reg.CAP_AVS, Reg.CAP_AVS_CFG, Reg.THM_CTRL]) (sources : ¬ (0x4000 ≤ a ∧ a < 0x5000))
    (ports : ∀ p < 8, a ≠ Reg.TMG_STATUS p) : resetOf a = 0 := by
  have noPort : ¬ (0x40000 ≤ a ∧ a < 0x50000 ∧ a % 0x2000 = 4) := by
    intro ⟨lo, hi, off⟩
    exact ports ((a - 0x40000) / 0x2000) (by omega) (by unfold Reg.TMG_STATUS; omega)
  simp only [List.mem_cons, List.not_mem_nil, or_false, not_or] at named
  obtain ⟨evt, avs, avsCfg, thm⟩ := named
  simp [resetOf, resetNat, h, evt, avs, avsCfg, thm, sources, noPort]

/-- The source table at reset: EN set, PIN from severity 2 on, and the severity (R498). -/
theorem resetOf_source {n : Nat} (h : n < 1024) : resetOf (Reg.EVT_SRC n) =
    if sourceAssigned n = true then
      BitVec.ofNat 32 (2 ^ 31 + (if 2 ≤ severityOf n then 2 ^ 30 else 0) + severityOf n * 2 ^ 28) else 0 := by
  have table : 0x4000 ≤ Reg.EVT_SRC n ∧ Reg.EVT_SRC n < 0x5000 ∧ Reg.EVT_SRC n % 4 = 0 := by
    unfold Reg.EVT_SRC; omega
  have index : (Reg.EVT_SRC n - 0x4000) / 4 = n := by unfold Reg.EVT_SRC; omega
  obtain ⟨lo, hi, aligned⟩ := table
  have other : Reg.EVT_SRC n < 0x01000000 ∧ Reg.EVT_SRC n ≠ 0x2000 ∧ Reg.EVT_SRC n ≠ 0xC040 ∧
      Reg.EVT_SRC n ≠ 0xC044 ∧ Reg.EVT_SRC n ≠ 0xD000 := by omega
  obtain ⟨below, evt, avs, avsCfg, thm⟩ := other
  unfold resetOf resetNat
  rw [if_pos below, if_neg evt, if_neg avs, if_neg avsCfg, if_neg thm, if_pos ⟨lo, hi⟩, index]
  by_cases assigned : sourceAssigned n = true
  · rw [if_pos ⟨aligned, assigned⟩, if_pos assigned]
  · rw [if_neg (fun both => assigned both.2), if_neg assigned]; rfl

/-- Settles O2: reset lists no register, so each reads what `resetNat` gives its address. -/
theorem resetRegisters : Obligations.ResetRegisters := by
  have ports : ∀ p < 8, resetOf (Reg.TMG_STATUS p) = 0x40000000#32 := by decide
  have dies : ∀ d < 8, (resetOf (Reg.DIE_STATUS d)).toNat = d ∧ ∀ m < 2, resetOf (Reg.MC_CTRL d m) = 0x00400884#32 := by
    decide
  refine ⟨rfl, rfl, rfl, rfl, ports, dies, fun n h => resetOf_source h, ?_, rfl, rfl, rfl, rfl, rfl, rfl, rfl⟩
  intro a below named _ sources notStatus
  have named' : a ∉ [Reg.EVT_CTRL, Reg.CAP_AVS, Reg.CAP_AVS_CFG, Reg.THM_CTRL] := fun m =>
    named (List.mem_append_left [Reg.IDN_PART] m)
  exact resetOf_eq_zero below named' sources notStatus

/-! ## Latches and held halves (R10, R491) -/

theorem find?_filter_of_imp {α : Type} (l : List α) {p q : α → Bool} (h : ∀ e, q e = true → p e = true) :
    (l.filter p).find? q = l.find? q := by
  rw [List.find?_filter]
  congr 1
  funext e
  cases hq : q e <;> simp [hq, h e]

theorem find?_filter_eq_none {α : Type} (l : List α) {p q : α → Bool} (h : ∀ e, q e = true → p e = false) :
    (l.filter p).find? q = none := by
  rw [List.find?_filter, List.find?_eq_none]
  intro e _
  cases hq : q e <;> simp [h e, hq]

theorem State.latchOf_of_bus {s t : State} (h : t.bus = s.bus) (m a : Nat) : t.latchOf m a = s.latchOf m a := by
  unfold State.latchOf; rw [h]

theorem State.heldLo_of_bus {s t : State} (h : t.bus = s.bus) (m a : Nat) : t.heldLo m a = s.heldLo m a := by
  unfold State.heldLo; rw [h]

@[simp] theorem State.latchOf_latchSet_self (s : State) (m a : Nat) (v : Word) : (s.latchSet m a v).latchOf m a = some v := by
  simp [State.latchOf, State.latchSet]

/-- A bus table with the word of one master and register replaced holds every other master's or register's as before. -/
theorem find?_replaced_other (l : List (Nat × Nat × Word)) {m a n b : Nat} (v : Word) (h : (n, b) ≠ (m, a)) :
    ((m, a, v) :: l.filter fun e => !(e.1 == m && e.2.1 == a)).find? (fun e => e.1 == n && e.2.1 == b) =
      l.find? fun e => e.1 == n && e.2.1 == b := by
  have apart : ¬ (m = n ∧ a = b) := fun e => h (by rw [e.1, e.2])
  have head : (m == n && a == b) = false := by simpa using apart
  have keep : ∀ e : Nat × Nat × Word, (e.1 == n && e.2.1 == b) = true → (!(e.1 == m && e.2.1 == a)) = true := by
    rintro ⟨k, c, w⟩ e
    simp only [Bool.and_eq_true, beq_iff_eq] at e
    obtain ⟨rfl, rfl⟩ := e
    rw [Bool.beq_comm (a := k), Bool.beq_comm (a := c), head]
    rfl
  rw [List.find?_cons, head]
  exact find?_filter_of_imp l keep

theorem State.latchOf_latchSet_other (s : State) {m a n b : Nat} (v : Word) (h : (n, b) ≠ (m, a)) :
    (s.latchSet m a v).latchOf n b = s.latchOf n b :=
  congrArg (Option.map fun e : Nat × Nat × Word => e.2.2) (find?_replaced_other s.bus.latches v h)

@[simp] theorem State.latchOf_latchDrop_self (s : State) (m a : Nat) : (s.latchDrop m a).latchOf m a = none := by
  simp only [State.latchOf, State.latchDrop, Option.map_eq_none_iff]
  exact find?_filter_eq_none _ fun e h => by rw [h]; rfl

@[simp] theorem State.heldLo_holdLo_self (s : State) (m a : Nat) (v : Word) : (s.holdLo m a v).heldLo m a = v := by
  simp [State.heldLo, State.holdLo]

theorem State.heldLo_holdLo_other (s : State) {m a n b : Nat} (v : Word) (h : (n, b) ≠ (m, a)) :
    (s.holdLo m a v).heldLo n b = s.heldLo n b := by
  simp only [State.heldLo, State.holdLo, find?_replaced_other s.bus.held v h]

/-- The reset of a master leaves it neither latch nor held half. -/
theorem State.masterReset_own (s : State) (m a : Nat) :
    (s.masterReset m).latchOf m a = none ∧ (s.masterReset m).heldLo m a = 0 := by
  have gone : ∀ e : Nat × Nat × Word, (e.1 == m && e.2.1 == a) = true → (e.1 != m) = false := by simp +contextual
  simp only [State.latchOf, State.heldLo, State.masterReset, find?_filter_eq_none _ gone, Option.map_none, and_self]

theorem State.masterReset_other (s : State) {m n : Nat} (a : Nat) (h : n ≠ m) :
    (s.masterReset m).latchOf n a = s.latchOf n a ∧ (s.masterReset m).heldLo n a = s.heldLo n a := by
  have keep : ∀ e : Nat × Nat × Word, (e.1 == n && e.2.1 == a) = true → (e.1 != m) = true := by simp +contextual [h]
  simp only [State.latchOf, State.heldLo, State.masterReset, find?_filter_of_imp _ keep, and_self]

/-! ## The abort log (R494, R495) -/

/-- The third word of an abort-log entry: kind, master, channel, beats done and asked. -/
def abortWord (kind mdie mid chan beats total : Nat) : Nat :=
  kind % 16 * 268435456 + mdie % 8 * 33554432 + mid % 8 * 4194304 + chan % 128 * 32768 + beats % 32 * 1024 + total % 32 * 32

theorem fldOf_abortWord (kind mdie mid chan beats total : Nat) :
    fldOf (BitVec.ofNat 32 (abortWord kind mdie mid chan beats total)) 31 28 = kind % 16 := by
  simp only [fldOf, abortWord, BitVec.toNat_ofNat]
  omega

/-- Where the next entry of die `d`'s log goes. -/
def State.abortEntry (s : State) (d : Nat) : Nat := Reg.FAB_ABORT_LOG d (4 * s.fld (Reg.FAB_HEAD d) 5 0)

/-- The count and the head of the log are no words of the entry. -/
theorem State.abortEntry_apart (s : State) (d : Nat) :
    let e := s.abortEntry d
    Reg.FAB_ABORTS d ≠ e ∧ Reg.FAB_ABORTS d ≠ e + 4 ∧ Reg.FAB_ABORTS d ≠ e + 8 ∧ Reg.FAB_ABORTS d ≠ e + 12 ∧
    Reg.FAB_HEAD d ≠ e ∧ Reg.FAB_HEAD d ≠ e + 4 ∧ Reg.FAB_HEAD d ≠ e + 8 ∧ Reg.FAB_HEAD d ≠ e + 12 ∧
    Reg.FAB_ABORTS d ≠ Reg.FAB_HEAD d := by
  simp only [State.abortEntry, Reg.FAB_ABORTS, Reg.FAB_HEAD, Reg.FAB_ABORT_LOG]
  omega

/-- The fabric block's registers are none of the event unit's. -/
theorem State.fabric_not_eventReg (s : State) (d : Nat) :
    ¬ eventReg (Reg.FAB_ABORTS d) ∧ ¬ eventReg (Reg.FAB_HEAD d) ∧ ∀ k, ¬ eventReg (s.abortEntry d + k) := by
  simp only [eventReg, State.abortEntry, Reg.FAB_ABORTS, Reg.FAB_HEAD, Reg.FAB_ABORT_LOG]
  exact ⟨by omega, by omega, fun k => by omega⟩

/-- Raising a source, rate-limited or not, changes no register. -/
theorem State.rd_raise_ite (c : Prop) [Decidable c] (s : State) (src info b : Nat) :
    (if c then s.raiseLimited src info else s.raise src info).rd b = s.rd b := by split <;> rfl

theorem State.raise_ite_bus (c : Prop) [Decidable c] (s : State) (src info : Nat) :
    (if c then s.raiseLimited src info else s.raise src info).bus = s.bus := by split <;> rfl

/-- How every register reads after an entry was logged: the entry's four words at the head, the head and the count. -/
theorem State.rd_abortLog (s : State) (d kind addr mdie mid chan beats total idx b : Nat) :
    (s.abortLog d kind addr mdie mid chan beats total idx).rd b =
      if b = Reg.FAB_ABORTS d then BitVec.ofNat 32 (s.rdN (Reg.FAB_ABORTS d) + 1)
      else if b = Reg.FAB_HEAD d then fldPut (s.rd (Reg.FAB_HEAD d)) 5 0 (s.fld (Reg.FAB_HEAD d) 5 0 + 1)
      else if b = s.abortEntry d + 12 then BitVec.ofNat 32 idx
      else if b = s.abortEntry d + 8 then BitVec.ofNat 32 (abortWord kind mdie mid chan beats total)
      else if b = s.abortEntry d + 4 then BitVec.ofNat 32 addr
      else if b = s.abortEntry d then BitVec.ofNat 32 s.phaseTime
      else s.rd b := by
  obtain ⟨c1, c2, c3, c4, h1, h2, h3, h4, ch⟩ := s.abortEntry_apart d
  unfold State.abortLog
  rw [State.rd_raise_ite]
  change (((((((s.wrN (s.abortEntry d) _).wrN (s.abortEntry d + 4) _).wrN (s.abortEntry d + 8)
    (abortWord kind mdie mid chan beats total)).wrN (s.abortEntry d + 12) _).setFld _ 5 0 _).bump _).rd b) = _
  generalize s.abortEntry d = e at *
  generalize Reg.FAB_ABORTS d = c at *
  generalize Reg.FAB_HEAD d = h at *
  simp only [State.bump, State.setFld, State.wrN, State.rdN, State.rd_wr, c1, c2, c3, c4, h1, h2, h3, h4, ch, if_false]

/-- What the registers of the log hold after an entry was logged. -/
theorem State.abortLog_written (s : State) (d kind addr mdie mid chan beats total idx : Nat) :
    let u := s.abortLog d kind addr mdie mid chan beats total idx
    u.rd (s.abortEntry d) = BitVec.ofNat 32 s.phaseTime ∧ u.rd (s.abortEntry d + 4) = BitVec.ofNat 32 addr ∧
    u.rd (s.abortEntry d + 8) = BitVec.ofNat 32 (abortWord kind mdie mid chan beats total) ∧
    u.rd (Reg.FAB_HEAD d) = fldPut (s.rd (Reg.FAB_HEAD d)) 5 0 (s.fld (Reg.FAB_HEAD d) 5 0 + 1) ∧
    u.rd (Reg.FAB_ABORTS d) = BitVec.ofNat 32 (s.rdN (Reg.FAB_ABORTS d) + 1) := by
  intro u
  have log := s.rd_abortLog d kind addr mdie mid chan beats total idx
  obtain ⟨c1, c2, c3, c4, h1, h2, h3, h4, ch⟩ := s.abortEntry_apart d
  refine ⟨?_, ?_, ?_, ?_, ?_⟩
  · rw [log, if_neg c1.symm, if_neg h1.symm, if_neg (by omega), if_neg (by omega), if_neg (by omega), if_pos rfl]
  · rw [log, if_neg c2.symm, if_neg h2.symm, if_neg (by omega), if_neg (by omega), if_pos rfl]
  · rw [log, if_neg c3.symm, if_neg h3.symm, if_neg (by omega), if_pos rfl]
  · rw [log, if_neg ch.symm, if_pos rfl]
  · rw [log, if_pos rfl]

/-- Logging an entry writes no register but the entry, the head and the count. -/
theorem State.abortLog_frame (s : State) (d kind addr mdie mid chan beats total idx : Nat) :
    s.regsBut (s.abortLog d kind addr mdie mid chan beats total idx) [s.abortEntry d, s.abortEntry d + 4, s.abortEntry d + 8,
      s.abortEntry d + 12, Reg.FAB_HEAD d, Reg.FAB_ABORTS d] := by
  intro a out _
  simp only [List.mem_cons, List.not_mem_nil, or_false, not_or] at out
  obtain ⟨n0, n1, n2, n3, nh, nc⟩ := out
  rw [State.rd_abortLog, if_neg nc, if_neg nh, if_neg n3, if_neg n2, if_neg n1, if_neg n0]

@[simp] theorem State.abortLog_bus (s : State) (d kind addr mdie mid chan beats total idx : Nat) :
    (s.abortLog d kind addr mdie mid chan beats total idx).bus = s.bus := by
  unfold State.abortLog
  rw [State.raise_ite_bus, State.bump_bus, State.setFld_bus, State.wrN_bus, State.wrN_bus, State.wrN_bus, State.wrN_bus]

theorem State.phaseTime_lt (s : State) : s.phaseTime < 4294967296 := Nat.mod_lt _ (by decide)

/-- A state `x` with the registers of `s`, after `dt` ticks, that logs an abort logs it as R494 and R495 say. -/
theorem State.abortLog_logged {s x : State} {dt d kind : Nat} (addr mdie mid chan beats total idx : Nat)
    (regs : x.regs = s.regs) (time : x.phaseTime = (s.elapse dt).phaseTime) (hk : kind < 16) :
    s.loggedAbort dt (x.abortLog d kind addr mdie mid chan beats total idx).settle d kind addr := by
  have rd := State.rd_congr regs
  have entry : x.abortEntry d = s.abortEntry d := congrArg (fun i => Reg.FAB_ABORT_LOG d (4 * i)) (State.fld_of (rd _) 5 0)
  obtain ⟨w0, w1, w2, wh, wc⟩ := x.abortLog_written d kind addr mdie mid chan beats total idx
  have frame := x.abortLog_frame d kind addr mdie mid chan beats total idx
  obtain ⟨qc, qh, qe⟩ := s.fabric_not_eventReg d
  generalize x.abortLog d kind addr mdie mid chan beats total idx = u at *
  rw [entry] at w0 w1 w2 frame
  rw [rd, State.fld_of (rd _)] at wh
  rw [State.rdN_of (rd _)] at wc
  change u.settle.rdN (s.abortEntry d) = _ ∧ u.settle.rdN (s.abortEntry d + 4) = _ ∧
    u.settle.fld (s.abortEntry d + 8) 31 28 = _ ∧ _ ∧ _ ∧ _
  refine ⟨?_, ?_, ?_, ?_, ?_, ?_⟩
  · rw [State.settle_rdN u (s.abortEntry d) (qe 0), State.rdN, w0, BitVec.toNat_ofNat, time]
    exact Nat.mod_eq_of_lt (State.phaseTime_lt _)
  · rw [State.settle_rdN _ _ (qe 4), State.rdN, w1, BitVec.toNat_ofNat]
  · rw [State.settle_fld _ _ _ _ (qe 8), State.fld, w2, fldOf_abortWord, Nat.mod_eq_of_lt hk]
  · rw [State.settle_fld _ _ _ _ qh, State.fld, wh]
    exact fldOf_fldPut _ _ _ _ (by decide) (by decide)
  · rw [State.settle_rdN _ _ qc, State.rdN, wc, BitVec.toNat_ofNat]
  · exact State.regsBut.settle fun a out ev => (frame a out ev).trans (rd a)

/-- A cut burst is logged as one entry of its kind at its first address, whatever item it served. -/
theorem State.logBurst_eq (s : State) (kind : Nat) (b : Burst) : ∃ chan idx, s.logBurst kind b =
    s.abortLog (s.logDie b.addr b.mdie) kind b.addr b.mdie b.mid chan (min b.beats 16) (min b.total 16) idx := by
  unfold State.logBurst
  split
  · exact ⟨_, _, rfl⟩
  · exact ⟨_, _, rfl⟩

/-- Settles O21: the three accesses end in one `abortLog`, which writes no register outside the log, and the reset of a master
takes that master's latches and held halves alone. -/
theorem abnormalAccessesAreLogged : Obligations.AbnormalAccessesAreLogged := by
  refine ⟨?_, ?_, ?_⟩
  · intro dt mdie mid a width s wrong
    refine Completes.of_done (u := (s.elapse dt).abortLog ((s.elapse dt).logDie a mdie) 1 a mdie mid 0x7F 0 1 0) ?_ ?_
    · exact if_neg wrong
    · exact State.abortLog_logged _ _ _ _ _ _ _ rfl rfl (by decide)
  · intro dt mdie mid a s undecoded
    refine Completes.of_done (u := (s.elapse dt).abortLog ((s.elapse dt).logDie a mdie) 2 a mdie mid 0x7F 0 1 0) ?_ ?_
    · exact if_neg (by simp [undecoded])
    · exact State.abortLog_logged _ _ _ _ _ _ _ rfl rfl (by decide)
  · intro dt b left s
    have ⟨chan, idx, logged⟩ :=
      ((s.elapse dt).masterReset (masterNo b.mdie b.mid)).logBurst_eq 3 { b with beats := 0 }
    refine Completes.of_done (congrArg done logged) ⟨?_, fun a => ?_, fun m a other => ?_⟩
    · exact State.abortLog_logged _ _ _ _ _ _ _ rfl rfl (by decide)
    · rw [State.latchOf_of_bus (State.settle_bus _), State.heldLo_of_bus (State.settle_bus _),
        State.latchOf_of_bus (State.abortLog_bus ..), State.heldLo_of_bus (State.abortLog_bus ..)]
      exact State.masterReset_own _ _ a
    · rw [State.latchOf_of_bus (State.settle_bus _), State.heldLo_of_bus (State.settle_bus _),
        State.latchOf_of_bus (State.abortLog_bus ..), State.heldLo_of_bus (State.abortLog_bus ..)]
      exact State.masterReset_other _ a other

/-! ## Accesses to 64-bit pairs (R10) -/

theorem regAt_aligned {a : Nat} {d : RegDef} (h : regAt a = .reg d) : a % 4 = 0 := by
  by_cases aligned : a % 4 = 0
  · exact aligned
  · rw [regAt, if_pos aligned] at h
    cases h

/-- Carrying an access over the die links changes nothing but the links (R22). -/
theorem State.posted_eq (s : State) (mdie mid a : Nat) : ∃ l, s.posted mdie mid a = { s with links := l } := by
  unfold State.posted State.issue State.postTx State.when
  dsimp only
  split <;> split <;> exact ⟨_, rfl⟩

@[simp] theorem State.posted_regs (s : State) (mdie mid a : Nat) : (s.posted mdie mid a).regs = s.regs := by
  obtain ⟨l, e⟩ := s.posted_eq mdie mid a; rw [e]

@[simp] theorem State.posted_bus (s : State) (mdie mid a : Nat) : (s.posted mdie mid a).bus = s.bus := by
  obtain ⟨l, e⟩ := s.posted_eq mdie mid a; rw [e]

@[simp] theorem State.posted_sent (s : State) (mdie mid a : Nat) : (s.posted mdie mid a).sent = s.sent := by
  obtain ⟨l, e⟩ := s.posted_eq mdie mid a; rw [e]

/-- A read of a decoded _LO register returns the word shown and latches the pair. -/
theorem State.readBus_lo {s : State} {a : Nat} {d : RegDef} (mdie mid : Nat) (h : regAt a = .reg d) (half : d.half = 1)
    (dec : s.decodes a = true) : s.readBus mdie mid a =
      ((s.posted mdie mid a).latchPair (masterNo mdie mid) a, (s.posted mdie mid a).shown a) := by
  simp [State.readBus, State.readWord, regAt_aligned h, dec, h, half, State.when]

/-- A read of a latched _HI register returns the latch and drops it. -/
theorem State.readBus_hi {s : State} {a : Nat} {d : RegDef} {w : Word} (mdie mid : Nat) (h : regAt a = .reg d)
    (half : d.half = 2) (dec : s.decodes a = true) (latched : s.latchOf (masterNo mdie mid) a = some w) :
    s.readBus mdie mid a = ((s.posted mdie mid a).latchDrop (masterNo mdie mid) a, w.toNat) := by
  rw [← State.latchOf_of_bus (s.posted_bus mdie mid a)] at latched
  simp [State.readBus, State.readWord, regAt_aligned h, dec, h, half, State.when, latched]

/-- A write of a decoded writable _LO register is held for its master. -/
theorem State.writeBus_lo {s : State} {a : Nat} {d : RegDef} (mdie mid : Nat) (v : Word) (h : regAt a = .reg d)
    (half : d.half = 1) (wr : writable d = true) (dec : s.decodes a = true) :
    s.writeBus mdie mid a v = (s.posted mdie mid a).holdLo (masterNo mdie mid) a v := by
  simp [State.writeBus, regAt_aligned h, dec, h, half, wr]

/-- A write of a decoded writable _HI register writes the pair, with the half its master holds. -/
theorem State.writeBus_hi {s : State} {a : Nat} {d : RegDef} (mdie mid : Nat) (v : Word) (h : regAt a = .reg d)
    (half : d.half = 2) (wr : writable d = true) (dec : s.decodes a = true) :
    s.writeBus mdie mid a v = (s.posted mdie mid a).pairWrite (decide (2 ≤ mid)) (a - 4)
      ((s.heldLo (masterNo mdie mid) (a - 4)).toNat + 4294967296 * v.toNat) d := by
  simp [State.writeBus, regAt_aligned h, dec, h, half, wr, State.heldLo_of_bus (s.posted_bus mdie mid a)]

/-- Latching a pair changes nothing but the latches. -/
theorem State.latchPair_eq (s : State) (m a : Nat) : ∃ b, s.latchPair m a = { s with bus := b } := by
  unfold State.latchPair State.when
  split <;> exact ⟨_, rfl⟩

theorem State.latchOf_latchPair_hi (s : State) (m a : Nat) :
    (s.latchPair m a).latchOf m (a + 4) = some (BitVec.ofNat 32 (s.shown (a + 4))) := by
  unfold State.latchPair State.when
  split
  case isTrue h =>
    have apart : (m, a + 4) ≠ (m, Reg.DTC_FRAC) := by
      rw [of_decide_eq_true h]; exact fun e => absurd (Prod.mk.inj e).2 (by decide)
    rw [State.latchOf_latchSet_other _ _ apart, State.latchOf_latchSet_self]
  case isFalse => exact State.latchOf_latchSet_self ..

theorem State.latchOf_latchPair_other (s : State) {m a n b : Nat} (hi : (n, b) ≠ (m, a + 4))
    (frac : ¬ (a = Reg.DTC_NS_LO ∧ (n, b) = (m, Reg.DTC_FRAC))) : (s.latchPair m a).latchOf n b = s.latchOf n b := by
  unfold State.latchPair State.when
  split
  case isTrue h =>
    rw [State.latchOf_latchSet_other _ _ fun e => frac ⟨of_decide_eq_true h, e⟩, State.latchOf_latchSet_other _ _ hi]
  case isFalse => exact State.latchOf_latchSet_other _ _ hi

/-! ## The pairs of the CRC units (R485) -/

theorem regAt_crcPolyHi : ∀ d u : Fin 8,
    regAt (Reg.CRC_POLY_LO d u + 4) = .reg ⟨0x00C, [], "CRC_POLY_HI", 2, [rwf 31 0]⟩ := by
  decide +kernel

theorem crcUnitAt_crcPolyLo (d u : Fin 8) : crcUnitAt (Reg.CRC_POLY_LO d u) = some (d.val, u.val) := by
  revert d u; decide

/-- Both halves of a polynomial come into force, cut to the unit's width, where the unit is a host's (R485). -/
theorem State.pairWrite_crcPoly (s : State) (host : Bool) (d u : Fin 8) (x : Nat) (r : RegDef) (hu : 4 ≤ u.val) :
    s.pairWrite host (Reg.CRC_POLY_LO d u) x r = s.wr64 (Reg.CRC_POLY_LO d u) (x % 2 ^ s.fld (Reg.CRC_CFG d u) 6 0) := by
  have value : Reg.CRC_POLY_LO d u ≠ Reg.CRC_VALUE_LO d u := by unfold Reg.CRC_POLY_LO Reg.CRC_VALUE_LO; omega
  have own : ¬ (host = true ∧ u.val < 4) := by omega
  simp only [State.pairWrite, crcUnitAt_crcPolyLo, State.crcGuard, if_neg own, if_neg value]

/-- A 64-bit value cut to a width, and cut to a pair. -/
theorem mod_width_mod_pair {x w : Nat} (h : x < 2 ^ 64) : x % 2 ^ w % 2 ^ 64 = x % 2 ^ min 64 w := by
  rcases Nat.le_total w 64 with le | le
  · rw [Nat.min_eq_right le]
    exact Nat.mod_eq_of_lt (Nat.lt_of_lt_of_le (Nat.mod_lt _ (Nat.two_pow_pos w)) (Nat.pow_le_pow_right (by decide) le))
  · rw [Nat.min_eq_left le, Nat.mod_eq_of_lt (Nat.lt_of_lt_of_le h (Nat.pow_le_pow_right (by decide) le))]

/-- Settles O16: a read or write of a half is `latchPair`, `latchDrop`, `holdLo` or `pairWrite` on the state in which the
access is on its way, which differs from the state before in its links alone. -/
theorem pairsAreLatchedPerMaster : Obligations.PairsAreLatchedPerMaster := by
  refine ⟨?_, ?_, ?_, ?_⟩
  · intro dt mdie mid a d s reg half dec
    have read := State.readBus_lo mdie mid reg half dec
    have regs := (s.elapse dt).posted_regs mdie mid a
    have bus := (s.elapse dt).posted_bus mdie mid a
    have sent := (s.elapse dt).posted_sent mdie mid a
    generalize (s.elapse dt).posted mdie mid a = p at *
    obtain ⟨b, pair⟩ := p.latchPair_eq (masterNo mdie mid) a
    refine Completes.of_done (u := (p.latchPair (masterNo mdie mid) a).send (.busRead mdie mid a (p.shown a))) ?_
      ⟨?_, ?_, fun m c hi frac => ?_, ?_⟩
    · exact congrArg (fun r : State × Nat => done (r.1.send (.busRead mdie mid a r.2))) read
    · rw [State.settle_sent, State.send_sent, pair]
      exact congrArg _ sent
    · rw [State.latchOf_of_bus (State.settle_bus _)]
      exact State.latchOf_latchPair_hi p _ a
    · rw [State.latchOf_of_bus (State.settle_bus _)]
      exact (State.latchOf_latchPair_other p hi frac).trans (State.latchOf_of_bus bus m c)
    · refine State.regsBut.settle (State.regsBut_of_regs ?_)
      rw [pair]
      exact regs
  · intro dt mdie mid a d w s reg half dec latched
    have read := State.readBus_hi (s := s.elapse dt) mdie mid reg half dec latched
    have regs := (s.elapse dt).posted_regs mdie mid a
    have sent := (s.elapse dt).posted_sent mdie mid a
    generalize (s.elapse dt).posted mdie mid a = p at *
    refine Completes.of_done (u := (p.latchDrop (masterNo mdie mid) a).send (.busRead mdie mid a w.toNat)) ?_ ⟨?_, ?_, ?_⟩
    · exact congrArg (fun r : State × Nat => done (r.1.send (.busRead mdie mid a r.2))) read
    · rw [State.settle_sent]
      exact congrArg _ sent
    · rw [State.latchOf_of_bus (State.settle_bus _)]
      exact State.latchOf_latchDrop_self p _ a
    · exact State.regsBut.settle (State.regsBut_of_regs regs)
  · intro dt mdie mid a d v s reg half wr dec
    have write := State.writeBus_lo mdie mid v reg half wr dec
    have regs := (s.elapse dt).posted_regs mdie mid a
    have bus := (s.elapse dt).posted_bus mdie mid a
    generalize (s.elapse dt).posted mdie mid a = p at *
    refine Completes.of_done (congrArg done write) ⟨?_, fun m b other => ?_, ?_⟩
    · rw [State.heldLo_of_bus (State.settle_bus _)]
      exact State.heldLo_holdLo_self p _ a v
    · rw [State.heldLo_of_bus (State.settle_bus _)]
      exact (State.heldLo_holdLo_other p v other).trans (State.heldLo_of_bus bus m b)
    · exact State.regsBut.settle (State.regsBut_of_regs regs)
  · intro dt mdie mid d u v s hu dec
    have write := State.writeBus_hi mdie mid v (regAt_crcPolyHi d u) rfl rfl dec
    rw [Nat.add_sub_cancel, State.pairWrite_crcPoly _ _ d u _ _ hu] at write
    have regs := (s.elapse dt).posted_regs mdie mid (Reg.CRC_POLY_LO d u + 4)
    generalize (s.elapse dt).posted mdie mid (Reg.CRC_POLY_LO d u + 4) = p at *
    have quiet : ¬ eventReg (Reg.CRC_POLY_LO d u) ∧ ¬ eventReg (Reg.CRC_POLY_LO d u + 4) := by
      simp only [eventReg, Reg.CRC_POLY_LO]; omega
    refine Completes.of_done (congrArg done write) ⟨?_, ?_⟩
    · rw [State.settle_rd64 _ _ quiet.1 quiet.2, State.rd64_wr64, mod_width_mod_pair (by omega),
        State.fld_of (State.rd_congr regs _)]
      rfl
    · refine State.regsBut.settle (State.regsBut.wr (State.regsBut.wr (State.regsBut_of_regs regs) ?_) ?_)
      · exact List.mem_cons_self
      · exact List.mem_cons_of_mem _ List.mem_cons_self

/-! ## Slot masks (R12, R133) -/

/-- A slot mask with which a buffer would have two writers or five readers is refused: the field stays. -/
theorem State.maskWrite_fld_of_shared (s : State) (p : Nat) (v : Word)
    (shared : (s.setFld (Reg.AUD_SLOT_MASK p) 15 0 (fldOf v 15 0)).slotBufsOk p = false) :
    (s.maskWrite p v).fld (Reg.AUD_SLOT_MASK p) 15 0 = s.fld (Reg.AUD_SLOT_MASK p) 15 0 := by
  have counter : Reg.AUD_SLOT_MASK p ≠ Reg.MGT_REFUSED := by unfold Reg.AUD_SLOT_MASK Reg.MGT_REFUSED; omega
  unfold State.maskWrite State.when
  dsimp only
  rw [shared, Bool.and_false, if_neg Bool.false_ne_true]
  split
  · exact State.fld_of (State.rd_bump_other s Reg.MGT_REFUSED _ 1 counter) 15 0
  · rfl

/-- LIVE and sealed, with the slot mask of port 0 live-permitted: an input port of two slots that both name buffer 0. -/
def sharedSlots : State :=
  { State.reset with
      regs := [(Reg.EMG_STATUS, 0x109)],
      emg := { Emg.reset with started := true, livePerms := [(Reg.AUD_SLOT_MASK 0, 0xFFFF)] } }

/-- Both slots of `sharedSlots` would write buffer 0. -/
theorem sharedSlots_shared :
    ((sharedSlots.elapse 0).setFld (Reg.AUD_SLOT_MASK (0 : Fin 16)) 15 0 (fldOf 3#32 15 0)).slotBufsOk (0 : Fin 16) =
      false := by
  decide +kernel

/-- Refutes O19: the mask 3 lies within the two slots of port 0, but it gives buffer 0 two writers, so that R133 has the write
refused and the mask stays 0. -/
theorem not_livePermittedWritesTake : ¬ Obligations.LivePermittedWritesTake := by
  intro ⟨masks, _⟩
  obtain ⟨t, run, taken, _⟩ := masks 0 0 3#32 sharedSlots (by decide) (by decide) rfl
  have stays := State.maskWrite_fld_of_shared (sharedSlots.elapse 0) (0 : Fin 16) 3#32 sharedSlots_shared
  obtain rfl : State.settle ((sharedSlots.elapse 0).maskWrite (0 : Fin 16) 3#32) = t := Host.Outcome.next.inj run
  rw [State.settle_fld _ _ _ _ (by decide), stays] at taken
  exact absurd taken (by decide)

/-! ## Fuses and flash -/

/-- Fuses and both flashes of `t` are those of `s`. -/
structure SameStore (s t : State) : Prop where
  fuses : t.fuses = s.fuses
  flashA : t.flashA = s.flashA
  flashB : t.flashB = s.flashB

theorem SameStore.refl (s : State) : SameStore s s := ⟨rfl, rfl, rfl⟩

theorem SameStore.trans {s t u : State} (h : SameStore s t) (k : SameStore t u) : SameStore s u :=
  ⟨k.fuses.trans h.fuses, k.flashA.trans h.flashA, k.flashB.trans h.flashB⟩

theorem SameStore.wr (s : State) (a : Nat) (v : Word) : SameStore s (s.wr a v) := ⟨rfl, rfl, rfl⟩

theorem SameStore.wrN (s : State) (a v : Nat) : SameStore s (s.wrN a v) := .wr ..

theorem SameStore.setFld (s : State) (a hi lo v : Nat) : SameStore s (s.setFld a hi lo v) := .wr ..

theorem SameStore.setBit (s : State) (a i : Nat) (b : Bool) : SameStore s (s.setBit a i b) := .wr ..

theorem SameStore.twin (s : State) (w : Twin) : SameStore s { s with twin := w } := ⟨rfl, rfl, rfl⟩

theorem SameStore.saf (s : State) (x : Safety) : SameStore s { s with saf := x } := ⟨rfl, rfl, rfl⟩

theorem SameStore.emg (s : State) (x : Emg) : SameStore s { s with emg := x } := ⟨rfl, rfl, rfl⟩

theorem SameStore.freshId (s : State) : SameStore s s.freshId := ⟨rfl, rfl, rfl⟩

theorem SameStore.raise (s : State) (src info : Nat) : SameStore s (s.raise src info) := ⟨rfl, rfl, rfl⟩

theorem SameStore.when {s : State} {c : Bool} {f : State → State} (h : ∀ x, SameStore x (f x)) :
    SameStore s (s.when c f) := by
  unfold State.when
  split
  · exact h s
  · exact .refl s

theorem SameStore.each {α : Type} {f : α → State → State} (l : List α) (h : ∀ a x, SameStore x (f a x)) (s : State) :
    SameStore s (s.each l f) := by
  unfold State.each
  induction l generalizing s with
  | nil => exact .refl s
  | cons a r ih => exact (h a s).trans (ih (f a s))

theorem State.toPort_store (s : State) (p cls len : Nat) (x : Sent) : SameStore s (s.toPort p cls len x) := by
  unfold State.toPort State.toSub
  dsimp only
  split
  · exact ⟨rfl, rfl, rfl⟩
  · split
    · exact ⟨rfl, rfl, rfl⟩
    · split <;> exact ⟨rfl, rfl, rfl⟩

theorem State.sendEverywhere_store (s : State) (kind : Nat) : SameStore s (s.sendEverywhere kind) := by
  have words : SameStore s ((s.sendSet kind).sendWick kind) := ⟨rfl, rfl, rfl⟩
  refine words.trans (SameStore.each _ (fun p x => SameStore.when fun y => ?_) _)
  exact (SameStore.twin y _).trans (State.toPort_store ..)

theorem State.setRole_store (s : State) (r : Role) : SameStore s (s.setRole r) := (SameStore.twin s _).trans (.setBit ..)

theorem State.chansToShadow_store (s : State) : SameStore s s.chansToShadow := by
  refine SameStore.each _ (fun n x => SameStore.when fun y => ?_) s
  have moved : SameStore y (y.setChan n 5 8) := ((SameStore.setFld ..).trans (.setFld ..)).trans (.raise ..)
  exact moved.trans (.setBit ..)

theorem State.endSnaps_store (s : State) : SameStore s s.endSnaps := by
  refine SameStore.each _ (fun n x => ?_) s
  dsimp only
  split <;> exact ⟨rfl, rfl, rfl⟩

theorem State.dropFlame_store (s : State) (cause : Nat) : SameStore s (s.dropFlame cause) := by
  have standby : ∀ x : State, SameStore x ((x.setGates false).setRole .standby) := fun x =>
    SameStore.trans (SameStore.twin x _) (State.setRole_store _ _)
  exact (((((SameStore.twin s _).trans (.setBit ..)).trans (standby _)).trans (State.chansToShadow_store _)).trans
    (State.endSnaps_store _)).trans (.raise ..)

theorem State.releaseFlame_store (s : State) (lanesRun : Bool) : SameStore s (s.releaseFlame lanesRun) := by
  unfold State.releaseFlame
  refine SameStore.trans ?_ (State.dropFlame_store _ 2)
  split
  · exact State.sendEverywhere_store s 2
  · exact ⟨rfl, rfl, rfl⟩

theorem State.journal_store (s : State) (type : Nat) (payload : List Byte) : SameStore s (s.journal type payload) := by
  unfold State.journal
  split <;> exact ⟨rfl, rfl, rfl⟩

/-! ## Snuff (R409 to R411) -/

theorem State.rd_saf (s : State) (x : Safety) (a : Nat) : ({ s with saf := x } : State).rd a = s.rd a := rfl

theorem State.rd_emg (s : State) (x : Emg) (a : Nat) : ({ s with emg := x } : State).rd a = s.rd a := rfl

theorem State.journal_rd_other (s : State) (type : Nat) (payload : List Byte) {a : Nat} (h : a ≠ Reg.EMG_LOG_DROP) :
    (s.journal type payload).rd a = s.rd a := by
  unfold State.journal
  split
  · exact State.rd_bump_other s _ a 1 h
  · rfl

theorem State.snuff_of_snuffed {s : State} (cause : Nat) (h : s.snuffed = true) : s.snuff cause = s := by
  unfold State.snuff; rw [if_pos h]

/-- What a snuff notes of itself: SNUFFED and the cause, its instant and its latency, and source 16. -/
def State.snuffNoted (s : State) (cause : Nat) : State :=
  let s := (s.setFld Reg.SAF_STATUS 31 30 2).setFld Reg.SAF_STATUS 7 0 cause
  let s := { s with saf := { s.saf with snuffAt := some s.now } }
  let s := (s.wrN Reg.SAF_SNUFF_T s.phaseTime).wrN Reg.SAF_SNUFF_LAT (snuffLatency s.fresh)
  s.freshId.raiseT 16 cause

/-- The state in which a snuff notes itself: gates closed, and the flame released where the unit held it. -/
def State.snuffReleased (s : State) (cause : Nat) : State :=
  (s.setGates false).when (s.setGates false).holding fun s => s.releaseFlame (decide (cause ≠ 3))

theorem State.snuffReleased_store (s : State) (cause : Nat) : SameStore s (s.snuffReleased cause) :=
  (SameStore.twin s _).trans (.when fun x => State.releaseFlame_store x _)

/-- A snuff notes itself and, but for cause 6, leaves its summary, for causes 4, 5 and 7 in the journal too (R409, R411). -/
theorem State.snuff_eq {s : State} (cause : Nat) (h : s.snuffed = false) :
    let t := (s.snuffReleased cause).snuffNoted cause
    ∃ b, s.snuff cause = if cause = 6 then t else
      ({ t with emg := { t.emg with summary := some b } }).when (decide (cause = 4 ∨ cause = 5 ∨ cause = 7)) fun s =>
        s.journal 3 b := by
  refine ⟨((s.snuffReleased cause).snuffNoted cause).summaryBytes s.twin.role.code cause, ?_⟩
  unfold State.snuff
  rw [if_neg (by simp [h])]
  rfl

theorem State.snuffNoted_store (s : State) (cause : Nat) : SameStore s (s.snuffNoted cause) :=
  ((((((SameStore.setFld ..).trans (.setFld ..)).trans (.saf ..)).trans (.wrN ..)).trans (.wrN ..)).trans (.freshId _)).trans
    (.raise ..)

theorem State.snuffNoted_status (s : State) (cause : Nat) :
    (s.snuffNoted cause).rd Reg.SAF_STATUS = fldPut (fldPut (s.rd Reg.SAF_STATUS) 31 30 2) 7 0 cause := by
  have last : ∀ (x : State) (t l : Nat),
      (((x.wrN Reg.SAF_SNUFF_T t).wrN Reg.SAF_SNUFF_LAT l).freshId.raiseT 16 cause).rd Reg.SAF_STATUS =
        x.rd Reg.SAF_STATUS := by
    intro x t l
    rw [State.rd_raiseT, State.rd_freshId, State.rd_wrN_other _ _ _ _ (by decide), State.rd_wrN_other _ _ _ _ (by decide)]
  have marked : ((s.setFld Reg.SAF_STATUS 31 30 2).setFld Reg.SAF_STATUS 7 0 cause).rd Reg.SAF_STATUS =
      fldPut (fldPut (s.rd Reg.SAF_STATUS) 31 30 2) 7 0 cause := by
    rw [State.setFld, State.rd_wr_self, State.setFld, State.rd_wr_self]
  exact (last _ _ _).trans ((State.rd_saf ..).trans marked)

theorem State.snuff_store (s : State) (cause : Nat) : SameStore s (s.snuff cause) := by
  by_cases h : s.snuffed = true
  · rw [State.snuff_of_snuffed cause h]; exact .refl s
  · obtain ⟨b, e⟩ := State.snuff_eq cause (Bool.eq_false_iff.mpr h)
    have noted := (s.snuffReleased_store cause).trans (State.snuffNoted_store _ cause)
    rw [e]
    split
    · exact noted
    · exact (noted.trans (.emg ..)).trans (.when fun x => State.journal_store x 3 b)

/-- A snuff shows SNUFFED and its cause in SAF_STATUS. -/
theorem State.snuff_status {s : State} {cause : Nat} (h : s.snuffed = false) (hc : cause < 256) :
    (s.snuff cause).snuffed = true ∧ (s.snuff cause).fld Reg.SAF_STATUS 7 0 = cause := by
  have statusKept : Reg.SAF_STATUS ≠ Reg.EMG_LOG_DROP := by decide
  obtain ⟨b, e⟩ := State.snuff_eq cause h
  have shown : (s.snuff cause).rd Reg.SAF_STATUS = ((s.snuffReleased cause).snuffNoted cause).rd Reg.SAF_STATUS := by
    rw [e]
    split
    · rfl
    · unfold State.when
      split
      · exact (State.journal_rd_other _ 3 b statusKept).trans (State.rd_emg ..)
      · exact State.rd_emg ..
  rw [State.snuffNoted_status] at shown
  constructor
  · have top : ∀ x : Word, fldOf x 31 31 = fldOf x 31 30 / 2 := by intro x; unfold fldOf; omega
    rw [State.snuffed, State.bit, State.fld, shown, fldOf_fldPut_above _ _ _ _ _ _ (by decide) (by decide) (by decide), top,
      fldOf_fldPut _ _ _ _ (by decide) (by decide)]
    rfl
  · rw [State.fld, shown, fldOf_fldPut _ _ _ _ (by decide) (by decide)]
    exact Nat.mod_eq_of_lt hc

/-! ## Warm and cold resets (R44) -/

/-- What a warm reset leaves in each register: WARM, after a snuff its record, and for the rest the reset value. -/
theorem State.rd_warmReset (s : State) (a : Nat) : s.warmReset.rd a =
    if s.snuffed = true ∧ a = Reg.SAF_LAST_SNUFF_T then BitVec.ofNat 32 (s.rdN Reg.SAF_SNUFF_T)
    else if s.snuffed = true ∧ a = Reg.SAF_LAST_SNUFF then BitVec.ofNat 32 (2147483648 + s.fld Reg.SAF_STATUS 7 0)
    else if a = Reg.EMG_STATUS then fldPut (resetOf Reg.EMG_STATUS) 10 10 1
    else resetOf a := by
  obtain ⟨x, fresh, e⟩ : ∃ x : State, (∀ b, x.rd b = resetOf b) ∧
      s.warmReset = (x.setBit Reg.EMG_STATUS 10 true).when s.snuffed fun t =>
        (t.wrN Reg.SAF_LAST_SNUFF (2147483648 + s.fld Reg.SAF_STATUS 7 0)).wrN Reg.SAF_LAST_SNUFF_T
          (s.rdN Reg.SAF_SNUFF_T) := ⟨_, fun _ => rfl, rfl⟩
  rw [e]
  cases s.snuffed <;> simp [State.when, State.setBit, State.setFld, State.wrN, State.rd_wr, fresh, b2n]

theorem State.warmReset_store (s : State) : SameStore s s.warmReset := by
  have cleared : SameStore s { s.cleared with
      emg := { s.cleared.emg with summary := s.emg.summary }, pic := s.pic.kept } := ⟨rfl, rfl, rfl⟩
  exact (cleared.trans (.setBit ..)).trans (.when fun _ => (SameStore.wrN ..).trans (.wrN ..))

theorem State.warmReset_emg (s : State) : s.warmReset.emg = { Emg.reset with
    rails := s.emg.rails, resetN := s.emg.resetN, summary := s.emg.summary } := by
  unfold State.warmReset State.when
  dsimp only
  split <;> rfl

@[simp] theorem State.warmReset_raises (s : State) : s.warmReset.evt.raises = [] := by
  unfold State.warmReset State.when
  dsimp only
  split <;> rfl

@[simp] theorem State.warmReset_emgStatus (s : State) : s.warmReset.rd Reg.EMG_STATUS = 0x400#32 := by
  rw [State.rd_warmReset, if_neg (fun both => absurd both.2 (by decide)), if_neg (fun both => absurd both.2 (by decide)),
    if_pos rfl]
  decide

/-- A warm reset leaves nothing begun and no register but EMG_STATUS and the record of a snuff off its reset value; fuses and
flash are kept. -/
theorem State.warmReset_leaves {s x : State} (store : SameStore s x) :
    x.warmReset.emg.started = false ∧ x.warmReset.fuses = s.fuses ∧ x.warmReset.flashA = s.flashA ∧
    x.warmReset.flashB = s.flashB ∧ x.warmReset.bit Reg.EMG_STATUS 10 = true ∧
    ∀ a, a ∉ [Reg.EMG_STATUS, Reg.SAF_LAST_SNUFF, Reg.SAF_LAST_SNUFF_T] → x.warmReset.rd a = resetOf a := by
  obtain ⟨fuses, flashA, flashB⟩ := store.trans x.warmReset_store
  refine ⟨by rw [x.warmReset_emg]; rfl, fuses, flashA, flashB, ?_, fun a out => ?_⟩
  · rw [State.bit, State.fld, State.warmReset_emgStatus]
    decide
  · simp only [List.mem_cons, List.not_mem_nil, or_false, not_or] at out
    obtain ⟨status, cause, time⟩ := out
    rw [State.rd_warmReset, if_neg (fun h => time h.2), if_neg (fun h => cause h.2), if_neg status]

/-- A warm reset after a snuff keeps its cause. -/
theorem State.warmReset_lastSnuff {x : State} (h : x.snuffed = true) :
    x.warmReset.rd Reg.SAF_LAST_SNUFF = BitVec.ofNat 32 (2147483648 + x.fld Reg.SAF_STATUS 7 0) := by
  rw [State.rd_warmReset, if_neg (fun both => absurd both.2 (by decide)), if_pos ⟨h, rfl⟩]

theorem State.snuffAndReset_lastSnuff {s : State} {cause : Nat} (h : s.snuffed = false) (hc : cause < 256) :
    (s.snuffAndReset cause).rd Reg.SAF_LAST_SNUFF = BitVec.ofNat 32 (2147483648 + cause) := by
  obtain ⟨snuffed, shown⟩ := State.snuff_status h hc
  rw [State.snuffAndReset, State.warmReset_lastSnuff snuffed, shown]

theorem State.warmReset_not_live (s : State) : s.warmReset.live = false := by
  rw [State.live, State.phase, State.fld, State.warmReset_emgStatus]
  decide

/-- SAFE_N and FLAME are low outside LIVE (R49). -/
theorem State.pins_low {s : State} (h : s.live = false) : s.safePin = .low ∧ s.flamePin = .low := by
  simp [State.safePin, State.flamePin, h]

/-! ## Resets as commands (R44 to R46, R73, R410) -/

theorem State.emgResetWrite_honoured {s : State}
    (h : s.halted = true ∨ s.snuffed = true ∨ (s.live = true ∧ s.emg.resetLive = true)) :
    s.emgResetWrite 0xA55A#32 = s.snuffAndReset 2 := if_pos ⟨rfl, h⟩

@[simp] theorem State.coldReset_rd (s : State) (a : Nat) : s.coldReset.rd a = resetOf a := rfl

/-- A die below 100 °C by the two's complement of its reading is below it by `signedOf`. -/
theorem signedOf_eq_toInt {x : Nat} (h : x < 65536) : signedOf 16 x = (BitVec.ofNat 16 x).toInt := by
  rw [BitVec.toInt_eq_toNat_cond, BitVec.toNat_ofNat, Nat.mod_eq_of_lt h]
  unfold signedOf
  split <;> split <;> omega

/-- The automatic reset comes due in a snuffed unit with AUTO set and, after a thermal snuff, every die cool (R410, R468). -/
theorem execAutoResetExpiry_due {dt : Nat} {s : State} (snuffed : s.snuffed = true) (auto : s.bit Reg.SAF_CTRL 31 = true)
    (due : (s.elapse dt).autoDue = true)
    (cool : s.fld Reg.SAF_STATUS 7 0 = 7 → ∀ d < 8, (BitVec.ofNat 16 (s.fld (Reg.THD_STATUS d) 15 0)).toInt < 800) :
    exec (.autoResetExpiry dt) s = done (s.elapse dt).warmReset := by
  have notHot : (decide (s.fld Reg.SAF_STATUS 7 0 = 7) && (List.range 8).any fun d =>
      decide (800 ≤ signedOf 16 (s.fld (Reg.THD_STATUS d) 15 0))) = false := by
    by_cases thermal : s.fld Reg.SAF_STATUS 7 0 = 7
    · rw [decide_eq_true thermal, Bool.true_and, List.any_eq_false]
      intro d hd
      have below := cool thermal d (List.mem_range.mp hd)
      have reading : s.fld (Reg.THD_STATUS d) 15 0 < 65536 := fldOf_lt _ 15 0
      rw [← signedOf_eq_toInt reading] at below
      simpa using below
    · rw [decide_eq_false thermal, Bool.false_and]
  refine if_pos ?_
  rw [Bool.and_eq_true, Bool.and_eq_true, Bool.and_eq_true, Bool.not_eq_true']
  exact ⟨⟨⟨snuffed, auto⟩, due⟩, notHot⟩

/-- Settles O9: RESET_N, an honoured EMG_RESET and the automatic reset end in `warmReset`, a rail loss in `coldReset`, which
begin again from `State.reset` with fuses and flash kept; a snuff before them writes neither. -/
theorem resetsClearEveryRegister : Obligations.ResetsClearEveryRegister := by
  refine ⟨?_, ?_, ?_, ?_, ?_⟩
  · intro dt s started
    obtain ⟨begun, fuses, flashA, flashB, warm, regs⟩ := State.warmReset_leaves ((s.elapse dt).snuff_store 1)
    obtain ⟨safe, flame⟩ := State.pins_low ((s.elapse dt).snuff 1).warmReset_not_live
    have quiet := ((s.elapse dt).snuff 1).warmReset_raises
    have last := State.snuffAndReset_lastSnuff (s := s.elapse dt) (cause := 1)
    have begins : (s.elapse dt).emg.started = true := started
    refine Completes.of_done_quiet (u := { (s.elapse dt).snuffAndReset 1 with
      emg := { ((s.elapse dt).snuffAndReset 1).emg with resetN := false } }) ?_ quiet ?_
    · exact congrArg (fun w : State => done { w with emg := { w.emg with resetN := false } }) (if_pos begins)
    · exact ⟨begun, rfl, safe, flame, fuses, flashA, flashB, warm, fun h => last h (by decide), regs⟩
  · intro dt s honoured
    obtain ⟨begun, fuses, flashA, flashB, warm, regs⟩ := State.warmReset_leaves ((s.elapse dt).snuff_store 2)
    have last := State.snuffAndReset_lastSnuff (s := s.elapse dt) (cause := 2)
    exact Completes.of_done_quiet (congrArg done (State.emgResetWrite_honoured (s := s.elapse dt) honoured))
      ((s.elapse dt).snuff 2).warmReset_raises
      ⟨begun, fuses, flashA, flashB, warm, fun h => last h (by decide), regs⟩
  · intro dt s snuffed auto due cool
    obtain ⟨begun, fuses, flashA, flashB, warm, regs⟩ := State.warmReset_leaves (SameStore.refl (s.elapse dt))
    have kept : (s.elapse dt).warmReset.fld Reg.SAF_LAST_SNUFF 7 0 = s.fld Reg.SAF_STATUS 7 0 := by
      rw [State.fld, State.warmReset_lastSnuff (x := s.elapse dt) snuffed, State.fld_elapse]
      have byte : s.fld Reg.SAF_STATUS 7 0 < 2 ^ 8 := fldOf_lt _ 7 0
      rw [fldOf, BitVec.toNat_ofNat]
      omega
    exact Completes.of_done_quiet (execAutoResetExpiry_due snuffed auto due cool) (s.elapse dt).warmReset_raises
      ⟨begun, fuses, flashA, flashB, warm, kept, regs⟩
  · intro dt rail uv s out
    obtain ⟨fuses, flashA, flashB⟩ := (s.elapse dt).snuff_store 6
    exact Completes.of_done_quiet (u := ((s.elapse dt).snuff 6).coldReset) (if_neg (by simp [out])) rfl
      ⟨rfl, fuses, flashA, flashB, State.coldReset_rd _⟩
  · intro dt key s refused
    exact Completes.of_done (congrArg done (if_neg refused)) ((s.elapse dt).refuse_settle Reg.EMG_RESET)

end Sys2Proof.Machine
end

section
/-! PROOFS. Scope: a picture boundary of a channel that waits for the capacity of a shed one (R92, R94, R95). -/

namespace Sys2Proof.Machine

/-! ## Engines with nothing to take -/

theorem State.waiters_of_noneWaits {s : State} (h : s.noneWaits) : s.waiters = [] := by
  rw [State.waiters, List.filterMap_eq_nil_iff.mpr, List.foldr_nil]
  rintro ⟨e, st⟩ mem
  have idle : st.isWaiting = false := h _ mem
  cases st with
  | waits t => exact absurd idle Bool.noConfusion
  | holds | resets | failed => rfl

theorem State.pumpTakes_of_noneWaits {s : State} (h : s.noneWaits) : s.pumpTakes = s := by
  rw [State.pumpTakes, State.waiters_of_noneWaits h]
  rfl

/-! ## A placed channel that still waits (R94) -/

/-- Nothing happens at its boundary to a channel placed into capacity that is not free yet. -/
theorem State.pictureBoundary_of_waits {s : State} {n : Nat} (enabled : (s.chan n).disabling = false)
    (kept : (s.chan n).shedding = none) (waits : (s.chan n).waitFor ≠ []) (alone : (s.chan n).snap = .none)
    (emerged : s.phase ≠ 8) : s.pictureBoundary n = s := by
  simp [State.pictureBoundary, State.when, enabled, kept, waits, alone, emerged]

/-- Where no engine waits either, time passes and nothing else is done. -/
theorem execPictureBoundary_of_waits {s : State} {dt : Nat} {n : Fin 96} (idle : s.noneWaits) (live : s.phase = 9)
    (enabled : (s.chan n).disabling = false) (kept : (s.chan n).shedding = none) (waits : (s.chan n).waitFor ≠ [])
    (alone : (s.chan n).snap = .none) : exec (.pictureBoundary dt n) s = done (s.elapse dt) := by
  have emerged : s.phase ≠ 8 := by omega
  have stays : (s.elapse dt).pictureBoundary n = s.elapse dt :=
    State.pictureBoundary_of_waits enabled kept waits alone emerged
  calc exec (.pictureBoundary dt n) s
      = done ((s.elapse dt).pictureBoundary n).pumpTakes := if_neg fun out => out.2 live
    _ = done (s.elapse dt) := by rw [stays, State.pumpTakes_of_noneWaits (s := s.elapse dt) idle]

/-- A LIVE unit: channel 94, shed to make room, still codes its begun items on cluster 7 of die 7, where the newly enabled
channel 95 is placed and ADMITTED. -/
def drainingUnit : State :=
  let place : Placement := ⟨[⟨7, [7], none, 100, false, 8, 1000000, 4⟩], true⟩
  { State.reset with
      regs := [(Reg.EMG_STATUS, 0x109), (Reg.CHN_CTRL 94, 1), (Reg.CHN_STATE 94, 0xC06), (Reg.CHN_CTRL 95, 1),
        (Reg.CHN_STATE 95, 0xE01)]
      emg := { Emg.reset with started := true }
      chans := List.replicate 94 Chan.reset ++
        [{ Chan.reset with place := some place, freed := true, pool := [⟨0, 0, .source, .coding, [4], false⟩] },
         { Chan.reset with place := some place, cause := 14 }] }

/-- The draining unit once the offer of R95 has noted for which channels channel 95 waits. -/
def awaitsCapacity : State :=
  drainingUnit.modChan 95 fun c => { c with waitFor := drainingUnit.waitsOf 95 }

/-- Channel 95 waits for the capacity of channel 94. -/
theorem awaitsCapacity_waitFor : (awaitsCapacity.chan 95).waitFor = [94] := by decide +kernel

theorem awaitsCapacity_noneWaits : awaitsCapacity.noneWaits := by
  intro x mem
  exact absurd mem List.not_mem_nil

/-- Refutes O50: channel 95 is placed and ADMITTED, but in capacity that the shed channel 94 still uses, so that R94 has it
start only at a boundary after that capacity is free: it stays ADMITTED at this one. -/
theorem not_channelsPrimeAndStep : ¬ Obligations.ChannelsPrimeAndStep := by
  intro h
  have waits : (awaitsCapacity.chan 95).waitFor ≠ [] := by
    rw [awaitsCapacity_waitFor]
    exact List.cons_ne_nil _ _
  obtain ⟨boundary, _⟩ := h 0 95 awaitsCapacity (by decide) awaitsCapacity_noneWaits
  obtain ⟨t, run, primed, _⟩ := boundary (by decide) (by decide) rfl rfl rfl rfl (by decide)
  obtain rfl : (awaitsCapacity.elapse 0).settle = t :=
    Host.Outcome.next.inj ((execPictureBoundary_of_waits awaitsCapacity_noneWaits (by decide) rfl rfl waits rfl).symm.trans run)
  rw [State.chanState, State.settle_fld _ _ _ _ (by decide)] at primed
  exact absurd primed (by decide)

end Sys2Proof.Machine
end

section
/-! PROOFS. Scope: a write to a full audio buffer (R138), and the pins of a serial audio port of a snuffed unit (R154). -/

namespace Sys2Proof.Machine

/-! ## Audio buffers -/

theorem find?_replaceKey {α : Type} {l : List (Nat × α)} {k : Nat} (v : α) (listed : l.any (fun e => e.1 == k) = true) :
    (l.map fun e => if e.1 = k then (k, v) else e).find? (fun e => e.1 == k) = some (k, v) := by
  induction l with
  | nil => exact absurd listed Bool.false_ne_true
  | cons e r ih =>
    by_cases h : e.1 = k
    · simp [h]
    · have later : r.any (fun e => e.1 == k) = true := by simpa [h] using listed
      simpa [h] using ih later

theorem assocGet_assocSet {α : Type} (d : α) (l : List (Nat × α)) (k : Nat) (v : α) :
    assocGet d (assocSet l k v) k = v := by
  unfold assocGet assocSet
  by_cases listed : l.any (fun e => e.1 == k) = true
  · rw [if_pos listed, find?_replaceKey v listed]
  · have absent : l.find? (fun e => e.1 == k) = none :=
      List.find?_eq_none.mpr (List.any_eq_false.mp (Bool.eq_false_iff.mpr listed))
    simp [listed, List.find?_append, absent]

@[simp] theorem State.abuf_setAbuf (s : State) (b : Nat) (x : ABuf) : (s.setAbuf b x).abuf b = x :=
  assocGet_assocSet ..

theorem State.abuf_of_aud {s t : State} (h : t.aud = s.aud) (b : Nat) : t.abuf b = s.abuf b := by
  rw [State.abuf, h, State.abuf]

/-- A reader stands 8,192 samples or more behind the writer of the buffer. -/
def ABuf.full (x : ABuf) : Bool := x.rds.any fun r => decide (8192 ≤ x.wr - r.idx)

/-- The buffer after a write while it is full: the newest sample is replaced, and the overrun counted (R138, R139). -/
theorem State.audioWrite_abuf_of_full {s : State} {b : Nat} (full : (s.abuf b).full = true) (w : Word) (stamp : Int) :
    (s.audioWrite b w stamp).abuf b = { s.abuf b with
      words := w :: (s.abuf b).words.drop 1, overs := (s.abuf b).overs + 1, stamp := stamp,
      overAt := if s.firstIn1s (s.abuf b).overAt then some s.now else (s.abuf b).overAt } := by
  refine (congrArg (State.abuf · b) (if_pos full)).trans ((State.abuf_of_aud ?_ b).trans (State.abuf_setAbuf s ..))
  unfold State.when
  split <;> rfl

/-- The buffer after a write while there is room: the word is the newest of the 8,192 that it holds. -/
theorem State.audioWrite_abuf_of_room {s : State} {b : Nat} (room : (s.abuf b).full = false) (w : Word) (stamp : Int) :
    (s.audioWrite b w stamp).abuf b = { s.abuf b with
      words := (w :: (s.abuf b).words).take 8192, wr := (s.abuf b).wr + 1, stamp := stamp } :=
  (congrArg (State.abuf · b) (if_neg (Bool.eq_false_iff.mp room))).trans (State.abuf_setAbuf ..)

/-- Where there is room every reader's unread samples are fewer than the buffer holds. -/
theorem ABuf.unread_lt_of_room {x : ABuf} (room : x.full = false) {r : AReader} (m : r ∈ x.rds) : x.wr - r.idx < 8192 := by
  have h := List.any_eq_false.mp room r m
  simpa using h

/-- Settles O57: a full buffer keeps all words behind its newest, and one with room moves them back by one place, where a
reader's unread ones stay among the 8,192. -/
theorem overrunKeepsUnreadSamples : Obligations.OverrunKeepsUnreadSamples := by
  intro s b w stamp x y full
  by_cases h : full = true
  · have after : y = _ := State.audioWrite_abuf_of_full h w stamp
    rw [after, h]
    refine ⟨rfl, rfl, rfl, rfl, ?_⟩
    intro r _ j _ _ older
    obtain ⟨k, place⟩ : ∃ k, x.wr - 1 - j = k + 1 := ⟨x.wr - 2 - j, by have : j + 1 < x.wr := older; omega⟩
    show (w :: x.words.drop 1).getD (x.wr - 1 - j) 0 = x.words.getD (x.wr - 1 - j) 0
    rw [place, List.getD_cons_succ, List.getD_eq_getElem?_getD, List.getElem?_drop, Nat.add_comm,
      List.getD_eq_getElem?_getD]
  · have room : full = false := Bool.eq_false_iff.mpr h
    have after : y = _ := State.audioWrite_abuf_of_room room w stamp
    rw [after, room]
    refine ⟨rfl, rfl, rfl, rfl, ?_⟩
    intro r m j unread _ written
    have fits : x.wr - r.idx < 8192 := ABuf.unread_lt_of_room room m
    obtain ⟨k, place⟩ : ∃ k, x.wr - j = k + 1 := ⟨x.wr - 1 - j, by have : j < x.wr := written; omega⟩
    have index : x.wr + 1 - 1 - j = k + 1 ∧ x.wr - 1 - j = k ∧ k < 8191 := by omega
    obtain ⟨new, old, kept⟩ := index
    show ((w :: x.words).take 8192).getD (x.wr + 1 - 1 - j) 0 = x.words.getD (x.wr - 1 - j) 0
    rw [new, old, List.take_succ_cons, List.getD_cons_succ, List.getD_eq_getElem?_getD, List.getElem?_take_of_lt kept,
      List.getD_eq_getElem?_getD]

/-! ## Pins of a snuffed unit (R154) -/

/-- From `s` to `t` SAF_STATUS stays, and while it shows the unit snuffed nothing is sent. -/
structure PinsHeld (s t : State) : Prop where
  status : t.rd Reg.SAF_STATUS = s.rd Reg.SAF_STATUS
  sent : s.snuffed = true → t.sent = s.sent

theorem PinsHeld.of_eq {s t : State} (regs : t.regs = s.regs) (sent : t.sent = s.sent) : PinsHeld s t :=
  ⟨State.rd_congr regs _, fun _ => sent⟩

theorem PinsHeld.refl (s : State) : PinsHeld s s := .of_eq rfl rfl

theorem PinsHeld.snuffed {s t : State} (h : PinsHeld s t) : t.snuffed = s.snuffed := State.bit_of h.status 31

theorem PinsHeld.trans {s t u : State} (h : PinsHeld s t) (k : PinsHeld t u) : PinsHeld s u :=
  ⟨k.status.trans h.status, fun snuffed => (k.sent (h.snuffed.trans snuffed)).trans (h.sent snuffed)⟩

theorem PinsHeld.wr (s : State) {a : Nat} (v : Word) (other : Reg.SAF_STATUS ≠ a) : PinsHeld s (s.wr a v) :=
  ⟨State.rd_wr_other s a _ v other, fun _ => rfl⟩

theorem PinsHeld.when {s : State} {c : Bool} {f : State → State} (h : PinsHeld s (f s)) : PinsHeld s (s.when c f) := by
  unfold State.when
  split
  · exact h
  · exact .refl s

theorem PinsHeld.each {α : Type} {f : α → State → State} (l : List α) (h : ∀ a x, PinsHeld x (f a x)) (s : State) :
    PinsHeld s (s.each l f) := by
  unfold State.each
  induction l generalizing s with
  | nil => exact .refl s
  | cons a r ih => exact (h a s).trans (ih (f a s))

theorem PinsHeld.foldlFst {α β : Type} {f : State × β → α → State × β} (l : List α)
    (h : ∀ x a, PinsHeld x.1 (f x a).1) (x : State × β) : PinsHeld x.1 (l.foldl f x).1 := by
  induction l generalizing x with
  | nil => exact .refl x.1
  | cons a r ih => exact (h x a).trans (ih (f x a))

theorem PinsHeld.modAport (s : State) (p : Nat) (f : APort → APort) : PinsHeld s (s.modAport p f) := .of_eq rfl rfl

theorem PinsHeld.freshId (s : State) : PinsHeld s s.freshId := .of_eq rfl rfl

theorem PinsHeld.setAbuf (s : State) (b : Nat) (x : ABuf) : PinsHeld s (s.setAbuf b x) := .of_eq rfl rfl

theorem PinsHeld.setAbuf_audioEvent (s : State) (b : Nat) (x : ABuf) (c : Bool) (what port buf : Nat) :
    PinsHeld s ((s.setAbuf b x).when c fun s => s.audioEvent what port buf) :=
  (PinsHeld.setAbuf ..).trans (.when (.of_eq rfl rfl))

/-! ### Buffers -/

theorem State.attach_pinsHeld (s : State) (b id : Nat) : PinsHeld s (s.attach b id) := by
  unfold State.attach State.attachAt
  dsimp only
  split
  · exact .refl s
  · exact .setAbuf ..

theorem State.audioWrite_pinsHeld (s : State) (b : Nat) (w : Word) (stamp : Int) :
    PinsHeld s (s.audioWrite b w stamp) := by
  unfold State.audioWrite
  dsimp only
  split
  · exact .setAbuf_audioEvent ..
  · exact .setAbuf ..

theorem State.audioRead_pinsHeld (s : State) (b id lat : Nat) : PinsHeld s (s.audioRead b id lat).1 := by
  unfold State.audioRead
  dsimp only
  split
  · exact .refl s
  · split
    · exact .refl s
    · split
      · exact .setAbuf_audioEvent ..
      · exact .setAbuf ..

theorem State.detachPort_pinsHeld (s : State) (p : Nat) : PinsHeld s (s.detachPort p) :=
  .each _ (fun _ _ => .setAbuf ..) s

theorem State.syncSlots_pinsHeld (s : State) (p : Nat) : PinsHeld s (s.syncSlots p) := by
  refine .each _ (fun i x => ?_) s
  split
  · exact State.attach_pinsHeld ..
  · exact .setAbuf ..

theorem State.readSlots_pinsHeld (s : State) (p : Nat) : PinsHeld s (s.readSlots p).1 := by
  refine PinsHeld.foldlFst _ (fun acc i => ?_) (s, [])
  dsimp only
  split
  · exact State.audioRead_pinsHeld ..
  · exact .refl acc.1

/-! ### Frames -/

/-- The one place where a frame leaves a port: not while the unit is snuffed. -/
theorem State.emitAudio_pinsHeld (s : State) (p : Nat) (ws : List Nat) : PinsHeld s (s.emitAudio p ws) where
  status := by
    unfold State.emitAudio State.when
    split <;> rfl
  sent snuffed := by simp [State.emitAudio, State.when, snuffed]

theorem State.aesFrame_pinsHeld (s : State) (p : Nat) (ws : List (Word × Bool)) (data : Bool) :
    PinsHeld s (s.aesFrame p ws data) :=
  ((PinsHeld.modAport ..).trans (PinsHeld.freshId _)).trans (State.emitAudio_pinsHeld ..)

theorem State.rollFrame_pinsHeld (s : State) (p : Nat) : PinsHeld s (s.rollFrame p) := by
  unfold State.rollFrame
  split
  · exact .refl s
  · split
    · exact State.aesFrame_pinsHeld ..
    · exact State.emitAudio_pinsHeld ..

theorem State.dataFrame_pinsHeld (s : State) (p : Nat) (ins : List Word) : PinsHeld s (s.dataFrame p ins) := by
  have attached := (PinsHeld.modAport s p fun x => { x with phase := .data }).trans (State.syncSlots_pinsHeld _ p)
  refine attached.trans ?_
  unfold State.dataFrame
  dsimp only
  generalize (s.modAport p _).syncSlots p = t
  split
  · have read := t.readSlots_pinsHeld p
    split
    · exact read.trans (State.aesFrame_pinsHeld ..)
    · exact read.trans (State.emitAudio_pinsHeld ..)
  · split
    · exact .refl t
    · exact .each _ (fun _ _ => State.audioWrite_pinsHeld ..) t

/-! ### Starts and stops -/

theorem State.endFlywheel_pinsHeld (s : State) : PinsHeld s s.endFlywheel := .when (.of_eq rfl rfl)

theorem PinsHeld.setLock (s : State) (p : Nat) (b : Bool) : PinsHeld s (s.setBit (Reg.AUD_STATUS p) 8 b) :=
  .wr s _ (by unfold Reg.SAF_STATUS Reg.AUD_STATUS; omega)

theorem PinsHeld.countStart (s : State) (p : Nat) : PinsHeld s (s.bump (Reg.AUD_STARTS p)) :=
  .wr s _ (by unfold Reg.SAF_STATUS Reg.AUD_STARTS; omega)

theorem State.startPort_pinsHeld (s : State) (p : Nat) (ins : List Word) : PinsHeld s (s.startPort p ins) := by
  unfold State.startPort
  extract_lets pre counted unlocked
  have begun : PinsHeld s unlocked := ((PinsHeld.countStart ..).trans (.modAport ..)).trans (.when (.setLock ..))
  split
  · exact begun.trans (State.dataFrame_pinsHeld ..)
  · exact (begun.trans (.modAport ..)).trans (State.rollFrame_pinsHeld ..)

theorem State.stopPort_pinsHeld (s : State) (p : Nat) : PinsHeld s (s.stopPort p) :=
  (((State.detachPort_pinsHeld s p).trans (.setLock ..)).trans (.modAport ..)).trans (State.endFlywheel_pinsHeld _)

theorem State.postFrame_pinsHeld (s : State) (p : Nat) : PinsHeld s (s.postFrame p) := by
  unfold State.postFrame
  dsimp only
  split
  · exact State.stopPort_pinsHeld ..
  · exact (PinsHeld.modAport ..).trans (State.rollFrame_pinsHeld ..)

theorem State.startPost_pinsHeld (s : State) (p : Nat) : PinsHeld s (s.startPost p) :=
  (PinsHeld.modAport ..).trans (State.postFrame_pinsHeld ..)

theorem State.midwaySync_pinsHeld (s : State) (p : Nat) : PinsHeld s (s.midwaySync p).1 := by
  unfold State.midwaySync
  dsimp only
  split
  · exact .modAport ..
  · exact .modAport ..

theorem State.takeSync_pinsHeld (s : State) (p : Nat) : PinsHeld s (s.takeSync p).1 := by
  unfold State.takeSync
  dsimp only
  split
  · exact .refl s
  · split
    · exact .modAport ..
    · split
      · exact .modAport ..
      · split
        · exact State.midwaySync_pinsHeld ..
        · exact .modAport ..

theorem State.frameSync_pinsHeld (s : State) (p : Nat) (ins : List Word) : PinsHeld s (s.frameSync p ins) := by
  have masked : PinsHeld s (s.when (!s.aesIn p) fun s => s.takeMask p) := .when (.modAport ..)
  refine masked.trans ?_
  unfold State.frameSync
  generalize s.when _ _ = t
  dsimp only
  split
  case h_1 =>
    split
    · exact State.startPort_pinsHeld ..
    · exact .refl t
  case h_2 =>
    split
    · exact State.startPost_pinsHeld ..
    · split
      · exact State.dataFrame_pinsHeld ..
      · exact (PinsHeld.modAport ..).trans (State.rollFrame_pinsHeld ..)
  case h_3 =>
    split
    · exact State.dataFrame_pinsHeld ..
    · exact State.startPost_pinsHeld ..
  case h_4 => exact State.postFrame_pinsHeld ..

/-- A frame sync in a snuffed unit sends nothing, whatever the port: its pins hold their last value (R154). -/
theorem audioFrameSync_sent_of_snuffed {s : State} (snuffed : s.snuffed = true) (dt : Nat) (p : Fin 16) (ins : List Word) :
    Completes (.audioFrameSync dt p ins none) s fun t => t.sent = s.sent := by
  have synced := (s.elapse dt).takeSync_pinsHeld p
  by_cases idle : (!(s.elapse dt).live || !(s.elapse dt).dieOk (p.val / 2)) = true
  · exact Completes.of_done (if_pos idle) (State.settle_sent _)
  · refine Completes.of_done (if_neg idle) ?_
    rw [State.settle_sent]
    exact ((synced.trans (.when (.modAport ..))).trans (.when (State.frameSync_pinsHeld ..))).sent snuffed

/-- A LIVE unit that a snuff of cause 4 has left snuffed; port 0, a serial output, is in data. -/
def snuffedOutput : State :=
  { State.reset with
      regs := [(Reg.EMG_STATUS, 9), (Reg.SAF_STATUS, 0x80FF0004), (Reg.AUD_CTRL 0, 0x80000001)]
      emg := { Emg.reset with started := true }
      aud := { Audio.reset with ports := { APort.reset with phase := .data } :: List.replicate 15 APort.reset } }

/-- Refutes O58: at a sync that it takes the port of `snuffedOutput` goes on in data, but it sends no frame: while the unit is
snuffed its audio output pins hold their last value (R154). -/
theorem not_audioPortsFollowTheirClock : ¬ Obligations.AudioPortsFollowTheirClock := by
  intro ⟨ports, _⟩
  obtain ⟨_, syncs⟩ := ports 0 0 [] snuffedOutput
  obtain ⟨_, data⟩ := syncs (by decide) (by decide) rfl (by decide) (by decide)
  obtain ⟨t, run, _, sends, _⟩ := data rfl rfl
  obtain ⟨ws, _, frame⟩ := sends (by decide) (by decide) (by decide)
  obtain ⟨t', run', silent⟩ := audioFrameSync_sent_of_snuffed (s := snuffedOutput) (by decide) 0 0 []
  obtain rfl : t = t' := Host.Outcome.next.inj (run.symm.trans run')
  exact List.cons_ne_self _ _ (frame.symm.trans silent)

end Sys2Proof.Machine
end

section
/-! PROOFS. Scope: a completion after which another item takes the freed descriptor (R257, R260, R269), and a fault of an engine
whose piece is no longer its own (R266). -/

namespace Sys2Proof.Machine

/-! ## What an engine's accounts leave alone -/

@[simp] theorem State.setEng_descs (s : State) (e : Nat) (x : Option EngSt) : (s.setEng e x).sch.descs = s.sch.descs := rfl

/-- Counting busy time changes the fractions of a microsecond and counters, and nothing else of the scheduler. -/
theorem State.busy_sch (s : State) (e ns : Nat) : (s.busy e ns).sch =
    { s.sch with busyNs := assocSet s.sch.busyNs e ((assocGet 0 s.sch.busyNs e + ns) % 1000) } := by
  unfold State.busy
  dsimp only
  split
  · rfl
  · split
    · rfl
    · split <;> rfl

@[simp] theorem State.busy_descs (s : State) (e ns : Nat) : (s.busy e ns).sch.descs = s.sch.descs := by rw [State.busy_sch]

@[simp] theorem State.busy_engines (s : State) (e ns : Nat) : (s.busy e ns).sch.engines = s.sch.engines := by
  rw [State.busy_sch]

theorem State.descAt_of_descs {s t : State} (h : t.sch.descs = s.sch.descs) (die no : Nat) :
    t.descAt die no = s.descAt die no := by rw [State.descAt, h, State.descAt]

theorem State.eng?_of_engines {s t : State} (h : t.sch.engines = s.sch.engines) (e : Nat) : t.eng? e = s.eng? e := by
  rw [State.eng?, h, State.eng?]

/-- An engine put to other than waiting leaves none waiting where none waited. -/
theorem State.setEng_noneWaits {s : State} (h : s.noneWaits) (e : Nat) {x : EngSt} (idle : x.isWaiting = false) :
    (s.setEng e (some x)).noneWaits := by
  intro y mem
  obtain old | new := List.mem_append.mp mem
  · exact h y (List.mem_filter.mp old).1
  · rw [List.mem_singleton.mp new]
    exact idle

/-! ## A fault with a piece that is not the engine's own (R266) -/

/-- Where the descriptor that the engine holds is not TAKEN by it, only the engine is reset. -/
theorem State.faultOf_of_foreign {s : State} {e die no since : Nat} {d : Desc} (idle : s.noneWaits)
    (held : s.eng? e = some (.holds die no since)) (listed : s.descAt die no = some d)
    (foreign : d.st ≠ .taken ∨ d.engine ≠ e) (kind : Nat) : s.faultOf e kind = s.setEng e (some .resets) := by
  have notOwn : (decide (d.st = .taken) && d.engine == e) = false := by
    cases foreign with
    | inl free => simp [free]
    | inr other => simp [other]
  have noPiece : ((some d).filter fun d => decide (d.st = .taken) && d.engine == e) = none := by
    simp only [Option.filter_some, notOwn, Bool.false_eq_true, if_false]
  calc s.faultOf e kind
      = (s.setEng e (some .resets)).pumpTakes := by simp only [State.faultOf, held, listed, noPiece]
    _ = s.setEng e (some .resets) := State.pumpTakes_of_noneWaits (State.setEng_noneWaits idle e rfl)

/-- So FAULT of that engine leaves every descriptor as it was. -/
theorem execWorkFault_descs_of_foreign {s : State} {e : Fin 464} {die no since : Nat} {d : Desc} (idle : s.noneWaits)
    (held : s.eng? e = some (.holds die no since)) (listed : s.descAt die no = some d)
    (foreign : d.st ≠ .taken ∨ d.engine ≠ e) (dt : Nat) :
    Completes (.workFault dt e) s fun t => t.sch.descs = s.sch.descs := by
  let u := (s.elapse dt).busy e ((s.elapse dt).ns - since)
  have engines : u.sch.engines = s.sch.engines := State.busy_engines ..
  have descs : u.sch.descs = s.sch.descs := State.busy_descs ..
  have idle' : u.noneWaits := fun x mem => idle x (engines ▸ mem)
  have reset : u.faultOf e 1 = u.setEng e (some .resets) := State.faultOf_of_foreign idle'
    ((State.eng?_of_engines engines e).trans held) ((State.descAt_of_descs descs die no).trans listed) foreign 1
  have held' : (s.elapse dt).eng? e = some (.holds die no since) := held
  have run : exec (.workFault dt e) s = done (u.faultOf e 1) := by
    show execWorkFault dt e s = _
    simp only [execWorkFault, held', u]
  refine Completes.of_done run ?_
  rw [State.settle_sch, reset, State.setEng_descs, descs]

/-! ## A LIVE unit with channel 95 on die 7 -/

/-- Channel 95 is LIVE, of 128 by 128 samples in one band, on cluster 7 of die 7; its next item is item 4. -/
def oneBandUnit : State :=
  { State.reset with
      regs := [(Reg.EMG_STATUS, 0x109), (Reg.CHN_STATE 95, 3), (Reg.CHN_FORMAT 95, 16 * 1024 + 16)]
      emg := { Emg.reset with started := true }
      chans := List.replicate 95 Chan.reset ++
        [{ Chan.reset with place := some ⟨[⟨7, [7], none, 100, false, 8, 1000000, 4⟩], true⟩, next := 4 }] }

/-- Piece 0 of die 7, the band of item 4, was given up under engine 392, and its number is now that of a piece of item 5, which
is READY. -/
def renumberedPiece : Desc := ⟨7, 0, 95, 5, 0, 1, .ready, 0, 0, false, false, 0, 1023, 0, 0, false⟩

/-- Engine 392 still holds piece 0 of die 7. -/
def holdsRenumbered : State :=
  { oneBandUnit with sch := { Sched.reset with descs := [renumberedPiece], engines := [(392, .holds 7 0 0)] } }

theorem holdsRenumbered_noneWaits : holdsRenumbered.noneWaits := by
  intro x mem
  rw [List.mem_singleton.mp mem]
  rfl

/-- Refutes O54: engine 392 of `holdsRenumbered` holds a piece that is no longer its own, which the statement does not exclude
for FAULT: the engine is reset, but the piece is not re-dispatched. -/
theorem not_faultsRedispatchWork : ¬ Obligations.FaultsRedispatchWork := by
  intro ⟨engines, _⟩
  obtain ⟨⟨t, run, _, redispatched, _⟩, _⟩ := engines 0 392 renumberedPiece 0 holdsRenumbered holdsRenumbered_noneWaits
    rfl rfl (by decide) (by decide +kernel) (by decide) (by decide)
  obtain ⟨t', run', kept⟩ := execWorkFault_descs_of_foreign (e := 392) holdsRenumbered_noneWaits (die := 7) (no := 0)
    rfl rfl (Or.inl (by decide : renumberedPiece.st ≠ .taken)) 0
  obtain rfl : t = t' := Host.Outcome.next.inj (run.symm.trans run')
  have same : t.descAt 7 0 = some renumberedPiece := State.descAt_of_descs kept 7 0
  have flag := congrArg Desc.redisp (Option.some.inj (same.symm.trans redispatched))
  exact Bool.false_ne_true flag

/-! ## A completion of stage 7 (R260) -/

/-- The completion of piece `d`, which engine `e` held from `since` on, up to where its consequences for the channel begin. -/
def State.finishPiece (s : State) (e since : Nat) (d : Desc) (r : CheckRead) : State :=
  let s := (s.setEng e none).busy e (s.ns - since)
  let s := s.when (decide (e < 448)) fun s => s.bump (Reg.CL_ITEMS_E (engDie e) (engCluster e) (e % 7))
  let s := s.complete e d r
  let ember := (((s.item? d.chan d.idx).map fun it => (it.band d.band).ember).getD false)
  (s.trace d.die 3 d.chan d.idx d.band d.stage d.attempt e (32768 * d.die + d.no) (b2n (d.stage == 5 && ember))).freeIfEnded
    d.chan

/-- An engine that completes a piece of its own finishes it, and `afterWork` follows. -/
theorem execWorkComplete_of_own {s : State} {e : Fin 464} {d : Desc} {since : Nat}
    (held : s.eng? e = some (.holds d.die d.no since)) (listed : s.descAt d.die d.no = some d) (own : d.engine = e)
    (taken : d.st = .taken) (dt : Nat) (r : CheckRead) :
    exec (.workComplete dt e r) s = done (((s.elapse dt).finishPiece e since d r).afterWork d.chan) := by
  have held' : (s.elapse dt).eng? e = some (.holds d.die d.no since) := held
  have counted (c : Bool) (x : State) (a : Nat) : (x.when c fun s => s.bump a).sch.descs = x.sch.descs := by
    cases c <;> rfl
  have listed' (x : State) (h : x.sch.descs = s.sch.descs) : x.descAt d.die d.no = some d :=
    (State.descAt_of_descs h ..).trans listed
  show execWorkComplete dt e r s = _
  simp only [execWorkComplete, held']
  rw [listed' _ (by rw [counted, State.busy_descs, State.setEng_descs, State.elapse_sch])]
  simp only [own, taken, ne_eq, not_true_eq_false, or_self, if_false]
  rfl

/-- Stage 7 of the band of item 4, held by the stream-assembly engine of die 7. -/
def lastPiece : Desc := ⟨7, 0, 95, 4, 0, 7, .taken, 0, 0, false, false, 1, 463, 0, 0, false⟩

/-- Item 4 of channel 95 is sealed and at stage 7. Item 20, a repeat picture of the same slot whose refresh decision is open,
waits for that slot to be free (R257, R269). -/
def slotAwaited : State :=
  let s := (oneBandUnit.beginItem 95).modItem 95 4 fun it => { it with
    controlFixed := true, inputFixed := true, accepted := true, prep := 2, refresh := some .none, closed := true,
    bands := [{ Band.reset with done := 7 }] }
  let s := ((s.modChan 95 fun c => { c with next := 20, decided := 20 }).beginItem 95).modItem 95 20 fun it => { it with
    controlFixed := true, inputFixed := true, form := .repeated, prep := 2, bands := [{ Band.reset with done := 5 }] }
  { s with sch := { Sched.reset with
      descs := [lastPiece], engines := [(463, .holds 7 0 0)], waits := [⟨95, 20, 0, 2, false, 7, 0⟩] } }

theorem slotAwaited_noneWaits : slotAwaited.noneWaits := by
  intro x mem
  rw [List.mem_singleton.mp mem]
  rfl

/-- The operand of a completion that checks nothing: only stage 6 reads it (R237). -/
def noRead : CheckRead := ⟨95, 4, [], [], [], [], []⟩

/-- The unit once stage 7 of item 4 is complete, its descriptor and its slot free. -/
def slotFreed : State := (slotAwaited.elapse 0).finishPiece 463 0 lastPiece noRead

/-- Item 20 is then decided to start a refresh (R181, R185), and its piece, at stage 2, gets the lowest free number of the die. -/
theorem slotFreed_afterWork_descAt : (slotFreed.afterWork 95).descAt 7 0 =
    some ⟨7, 0, 95, 20, 0, 2, .ready, 0, 0, false, false, 0, 1023, 0, 0, false⟩ := by decide +kernel

/-- Refutes O53: the completion of stage 7 frees descriptor 0 of die 7, but in `slotAwaited` the same command decides item 20,
which waited for the slot, and allocates its piece under that number. -/
theorem not_enginesTakeAndFinishWork : ¬ Obligations.EnginesTakeAndFinishWork := by
  intro ⟨_, completions, _⟩
  obtain ⟨completes, _⟩ := completions 0 463 slotAwaited slotAwaited_noneWaits
  obtain ⟨t, run, _, _, band⟩ := completes lastPiece 0 noRead rfl rfl rfl rfl rfl (by decide)
  obtain rfl : (slotFreed.afterWork 95).settle = t := Host.Outcome.next.inj
    ((execWorkComplete_of_own (d := lastPiece) (e := 463) rfl rfl rfl rfl 0 noRead).symm.trans run)
  obtain ⟨it, sealed, bands, done⟩ : ∃ it, slotAwaited.item? 95 4 = some it ∧ 0 < it.bands.length ∧ (it.band 0).done = 7 :=
    ⟨_, rfl, by decide, rfl⟩
  obtain ⟨_, last⟩ := band it sealed bands done
  obtain ⟨free, _⟩ := last rfl
  rw [State.descAt_of_descs (congrArg Sched.descs (State.settle_sch _)) _ _] at free
  exact absurd (slotFreed_afterWork_descAt.symm.trans free) (Option.some_ne_none _)

end Sys2Proof.Machine
end

section
/-! PROOFS. Scope: the windows that a multiplexer reads from an audio buffer which already has its four readers (R133, R289). -/

namespace Sys2Proof.Machine

/-! ## A buffer that has no place for a reader (R133) -/

theorem find?_replaceKey_other {α : Type} (l : List (Nat × α)) {k m : Nat} (v : α) (other : m ≠ k) :
    (l.map fun e => if e.1 = k then (k, v) else e).find? (fun e => e.1 == m) = l.find? fun e => e.1 == m := by
  induction l with
  | nil => rfl
  | cons e r ih =>
    by_cases h : e.1 = k
    · simp [h, other.symm, ih]
    · simp [h, List.find?_cons, ih]

theorem assocGet_assocSet_other {α : Type} (d : α) (l : List (Nat × α)) {k m : Nat} (v : α) (other : m ≠ k) :
    assocGet d (assocSet l k v) m = assocGet d l m := by
  unfold assocGet assocSet
  by_cases listed : l.any (fun e => e.1 == k) = true
  · rw [if_pos listed, find?_replaceKey_other l v other]
  · simp [listed, List.find?_append, other.symm]

theorem State.abuf_setAbuf_other (s : State) {b c : Nat} (x : ABuf) (other : b ≠ c) : (s.setAbuf c x).abuf b = s.abuf b :=
  assocGet_assocSet_other _ _ _ other

theorem State.abuf_when_of_aud {s : State} {f : State → State} (same : (f s).aud = s.aud) (c : Bool) (b : Nat) :
    (s.when c f).abuf b = s.abuf b := by
  cases c
  · rfl
  · exact State.abuf_of_aud same b

/-- The buffer has its four readers, and `id` is none of them. -/
def ABuf.closedTo (x : ABuf) (id : Nat) : Prop := 4 ≤ x.rds.length ∧ ∀ r ∈ x.rds, r.id ≠ id

section
variable {s : State} {b id : Nat} {x : ABuf} (closed : x.closedTo id) (here : s.abuf b = x)
include closed here

theorem State.attachAt_abuf_of_closed (c idx : Nat) : (s.attachAt c id idx).abuf b = x := by
  obtain ⟨four, -⟩ := closed
  unfold State.attachAt
  dsimp only
  split
  case isTrue => exact here
  case isFalse room =>
    have other : b ≠ c := by
      rintro rfl
      exact room (by rw [here, decide_eq_true four, Bool.or_true])
    rw [State.abuf_setAbuf_other _ _ other, here]

theorem State.detach_abuf_of_closed (c : Nat) : (s.detach c id).abuf b = x := by
  obtain ⟨-, absent⟩ := closed
  by_cases h : b = c
  · subst h
    have kept : (s.abuf b).rds.filter (fun r => r.id != id) = (s.abuf b).rds :=
      List.filter_eq_self.mpr fun r mem => bne_iff_ne.mpr (absent r (here ▸ mem))
    unfold State.detach
    dsimp only
    rw [State.abuf_setAbuf, kept, here]
  · exact (State.abuf_setAbuf_other _ _ h).trans here

theorem State.audioRead_abuf_of_closed (c lat : Nat) : (s.audioRead c id lat).1.abuf b = x := by
  obtain ⟨-, absent⟩ := closed
  unfold State.audioRead
  dsimp only
  split
  case h_1 => exact here
  case h_2 r found =>
    have other : b ≠ c := by
      rintro rfl
      exact absent r (here ▸ List.mem_of_find?_eq_some found) (by simpa using List.find?_some found)
    split
    · exact here
    · split
      · exact (State.abuf_when_of_aud rfl _ b).trans ((State.abuf_setAbuf_other _ _ other).trans here)
      · exact (State.abuf_setAbuf_other _ _ other).trans here

/-- Reading a window for `id` from any buffer leaves one that is closed to it as it was. -/
theorem State.readWindow_abuf_of_closed (n c count : Nat) : (s.readWindow n c id count).1.abuf b = x := by
  refine List.foldlRecOn (motive := fun acc : State × List Word => acc.1.abuf b = x) _ _ here fun acc kept _ _ => ?_
  exact (State.abuf_when_of_aud rfl _ b).trans (State.audioRead_abuf_of_closed closed kept c 0)

end

/-- Nor does a PES packet of the multiplexer, which attaches the readers of its PID and reads their windows (R289). -/
theorem State.audioPes_abuf_of_closed {s : State} {b n a : Nat} {x : ABuf} (closed : x.closedTo (256 + 8 * n + a))
    (here : s.abuf b = x) (it : Item) : (s.audioPes n it a).1.abuf b = x := by
  refine List.foldlRecOn (motive := fun acc : State × List (List Word) => acc.1.abuf b = x) _ _ here fun acc kept ch _ => ?_
  refine State.readWindow_abuf_of_closed closed (State.attachAt_abuf_of_closed closed ?_ ..) ..
  unfold State.when
  split
  · exact State.detach_abuf_of_closed closed kept _
  · exact kept

/-- A due instant leaves a buffer that is closed to the readers of the channel's audio PIDs as it was. -/
theorem execAudioDueInstant_abuf_of_closed {s : State} {b : Nat} {n : Fin 96}
    (closed : ∀ a, (s.abuf b).closedTo (256 + 8 * n.val + a)) (dt k : Nat) :
    Completes (.audioDueInstant dt n k) s fun t => t.abuf b = s.abuf b := by
  show ∃ t, execAudioDueInstant dt n k s = .next t ∧ _
  unfold execAudioDueInstant
  dsimp only
  split
  · exact ⟨_, rfl, State.abuf_of_aud (State.settle_aud _) b⟩
  · split
    · exact ⟨_, rfl, State.abuf_of_aud (State.settle_aud _) b⟩
    · refine ⟨_, rfl, (State.abuf_of_aud (State.settle_aud _) b).trans ?_⟩
      refine List.foldlRecOn (motive := fun acc : State × List (Nat × List Byte) => acc.1.abuf b = s.abuf b) _ _ rfl
        fun acc kept pa _ => ?_
      exact State.audioPes_abuf_of_closed (closed pa.2) kept _

/-! ## A fifth reader -/

/-- Slot 0 of the serial output ports 0 to 3 is attached. -/
def fourPorts : ABuf := { ABuf.reset with rds := [0, 16, 32, 48].map fun id => ⟨id, 0, true, 0, false⟩ }

/-- Item 4 of channel 95 has begun, and the channel's audio PID 0 takes two channels from buffer 0 on. Slot 0 of ports 0 to 2
sends buffer 0; the slot mask of port 3 has been cleared, and its reader is detached at the port's next frame (R141). -/
def fifthReader : State :=
  (((oneBandUnit.beginItem 95).wr (Reg.CHN_OUT_AUD 95 0) 0x80000000#32).each [0, 1, 2] fun p s =>
    (s.wr (Reg.AUD_CTRL p) 0x80000001#32).wr (Reg.AUD_SLOT_MASK p) 1#32).setAbuf 0 fourPorts

/-- By the registers no buffer that the PID names has more than four readers (R133). -/
theorem fifthReader_readersOf : fifthReader.readersOf 0 = 4 ∧ fifthReader.readersOf 1 = 1 := by decide +kernel

theorem fifthReader_enabled : fifthReader.bit (Reg.CHN_OUT_AUD (95 : Fin 96) 0) 31 = true := by decide +kernel

theorem fifthReader_channels : 0 < 2 * (fifthReader.fld (Reg.CHN_OUT_AUD (95 : Fin 96) 0) 1 0 + 1) := by omega

theorem fifthReader_source : (fifthReader.fld (Reg.CHN_OUT_AUD_SRC (95 : Fin 96) 0) 31 22 + 0) % 1024 = 0 := by
  decide +kernel

theorem fourPorts_closedTo {id : Nat} (mux : 256 ≤ id) : fourPorts.closedTo id := by
  refine ⟨by decide, fun r mem => ?_⟩
  have port : r.id < 256 := (by decide : ∀ r ∈ fourPorts.rds, r.id < 256) r mem
  omega

/-- Refutes O55: the registers of `fifthReader` keep R133 (`fifthReader_readersOf`), but port 3 has not yet given up its reader
of buffer 0, so that the due instant of the audio of item 4 attaches none of audio PID 0 to that buffer; the statement asks for
one at every buffer that the PID names. -/
theorem not_datagramsFormAndAreHandedOver : ¬ Obligations.DatagramsFormAndAreHandedOver := by
  intro ⟨_, _, _, _, dueInstants⟩
  obtain ⟨it, begun, unread⟩ : ∃ it, fifthReader.item? 95 4 = some it ∧ it.audio = none := ⟨_, rfl, rfl⟩
  obtain ⟨t, run, _, _, _, attached⟩ := dueInstants 0 95 4 it fifthReader begun unread
  have four : fifthReader.abuf 0 = fourPorts := State.abuf_setAbuf ..
  obtain ⟨t', run', kept⟩ := execAudioDueInstant_abuf_of_closed (s := fifthReader) (b := 0) (n := 95)
    (fun a => four ▸ fourPorts_closedTo (by omega)) 0 4
  obtain rfl : t = t' := Host.Outcome.next.inj (run.symm.trans run')
  have reader := attached 0 (by decide) fifthReader_enabled 0 fifthReader_channels
  rw [fifthReader_source, kept, four] at reader
  exact absurd reader (by decide)

end Sys2Proof.Machine
end

section
/-! PROOFS. Scope: the departure of a frame on a port whose TC7 class is full, so that a generator waits for its room (R315). -/

namespace Sys2Proof.Machine

/-! ## A frame of TC7, TC4 or TC0 that is selected (R303) -/

theorem State.settleLeft_of_nil {s : State} (gone : s.egr.leaving = []) : s.settleLeft = s := by
  have kept : ({ s with egr := { s.egr with leaving := [] } } : State) = s := by rw [← gone]
  simp only [State.settleLeft, gone, List.filter_nil, State.each, List.foldl_nil, kept]

/-- The frame that a free line takes is sent, where none is held back and it is no stream frame. -/
theorem execFrameSelect_of_control {s : State} {dt : Nat} {p : Fin 8} {q : Fin 4} {f : QFrame}
    (up : s.subUp p q = true) (gone : s.egr.leaving = []) (free : (s.elapse dt).lineFree p q = true)
    (held : (s.elapse dt).heldBack p q = []) (pick : (s.elapse dt).framePick p q = some f)
    (control : (f.cls == 6 || f.cls == 5) = false) (reads : List (List Byte)) (noCopy : Bool) :
    exec (.frameSelect dt p q reads noCopy) s = done ((s.elapse dt).sendFrame f) := by
  have settled : (s.elapse dt).settleLeft = s.elapse dt := State.settleLeft_of_nil gone
  have served : (s.elapse dt).subUp p q = true := up
  show execFrameSelect dt p q reads noCopy s = _
  simp [execFrameSelect, settled, served, free, held, State.each, pick, control, State.when]

theorem State.keepCopy_of_control {f : QFrame} (control : (f.cls == 6 || f.cls == 5) = false) (s : State) :
    s.keepCopy f = s := by
  obtain ⟨notSix, -⟩ := Bool.or_eq_false_iff.mp control
  unfold State.keepCopy
  split
  · exact if_pos (by simp [bne, notSix])
  · rfl

@[simp] theorem State.noteRequest_egr (s : State) (f : QFrame) : (s.noteRequest f).egr = s.egr := by
  unfold State.noteRequest State.when
  split
  · split <;> rfl
  · rfl

@[simp] theorem State.countSent_queue (s : State) (f : QFrame) : (s.countSent f).egr.queue = s.egr.queue := by
  unfold State.countSent State.when
  dsimp only
  split <;> rfl

/-- Sending such a frame changes the queues as its removal does. -/
theorem State.sendFrame_queue_of_control {f : QFrame} (control : (f.cls == 6 || f.cls == 5) = false) (s : State) :
    (s.sendFrame f).egr.queue = (s.dropFrame f).egr.queue := by
  simp [State.sendFrame, control, State.when, State.keepCopy_of_control, State.takeLine]

/-! ## A generator that waits for room in TC7 (R315) -/

/-- With room in TC7 the frame of the generator that waits longest stands last in the queue. -/
theorem State.promoteFrame_queue {s : State} {p : Nat} {g : QFrame}
    (waits : s.egr.waiting.find? (fun f => f.port == p) = some g)
    (room : s.classRoom p 7 = true) (up : s.subUp g.port g.sub = true) : (s.promoteFrame p).egr.queue = s.egr.queue ++ [g] := by
  have served : ({ s with egr := { s.egr with waiting := s.egr.waiting.erase g } } : State).subUp g.port g.sub = true := up
  simp [State.promoteFrame, waits, room, served, State.enqueueFrame]

/-- The state with the frame taken out of its queue. -/
def State.without (s : State) (f : QFrame) : State := { s with egr := { s.egr with queue := s.egr.queue.erase f } }

/-- A frame of TC7, TC4 or TC0 that leaves, and makes room in TC7, lets in the frame that waits longest on its port. -/
theorem execFrameSelect_queue_of_waiting {s : State} {dt : Nat} {p : Fin 8} {q : Fin 4} {f g : QFrame}
    (up : s.subUp p q = true) (gone : s.egr.leaving = []) (free : (s.elapse dt).lineFree p q = true)
    (held : (s.elapse dt).heldBack p q = []) (pick : (s.elapse dt).framePick p q = some f)
    (control : (f.cls == 6 || f.cls == 5) = false) (waits : s.egr.waiting.find? (fun g => g.port == f.port) = some g)
    (room : (s.without f).classRoom f.port 7 = true) (served : s.subUp g.port g.sub = true) (reads : List (List Byte))
    (noCopy : Bool) : Completes (.frameSelect dt p q reads noCopy) s fun t => t.egr.queue = s.egr.queue.erase f ++ [g] := by
  refine Completes.of_done (execFrameSelect_of_control up gone free held pick control reads noCopy) ?_
  calc ((s.elapse dt).sendFrame f).settle.egr.queue
      = ((s.elapse dt).sendFrame f).egr.queue := by rw [State.settle_egr]
    _ = (((s.elapse dt).without f).promoteFrame f.port).egr.queue := State.sendFrame_queue_of_control control _
    _ = s.egr.queue.erase f ++ [g] := State.promoteFrame_queue waits room served

/-! ## A full class -/

/-- What frame `k` of TC7 sends on port 7: a response to a peer's delay request. -/
def delayResponse (k : Nat) : Sent := .ptp 3 28 k

def responseFrame (k : Nat) : QFrame := ⟨7, 0, 7, 0, false, 0, 64, 0, false, false, [], delayResponse k⟩

/-- A LIVE unit with port 7 in service, whose TC7 holds its 256 frames (R302) when one more is handed to it. -/
def fullClass : State :=
  ({ State.reset with
      regs := [(Reg.EMG_STATUS, 0x109), (Reg.NP_STATUS 7, 2)]
      emg := { Emg.reset with started := true }
      egr := { Egress.reset with queue := (List.range 256).map responseFrame } } : State).toSub 7 0 7 64 (delayResponse 256)

theorem fullClass_up : fullClass.subUp 7 0 = true := by decide +kernel

theorem fullClass_leaving : fullClass.egr.leaving = [] := by decide +kernel

/-- By R315 frame 256 waits: TC7 holds its 256 frames. -/
theorem fullClass_full : fullClass.classRoom 7 7 = false := by decide +kernel

theorem fullClass_waits : fullClass.egr.waiting.find? (fun g => g.port == 7) = some (responseFrame 256) := by decide +kernel

theorem fullClass_lineFree : (fullClass.elapse 0).lineFree 7 0 = true := by decide +kernel

theorem fullClass_heldBack : (fullClass.elapse 0).heldBack 7 0 = [] := by decide +kernel

theorem fullClass_framePick : (fullClass.elapse 0).framePick 7 0 = some (responseFrame 0) := by decide +kernel

theorem fullClass_room : (fullClass.without (responseFrame 0)).classRoom 7 7 = true := by decide +kernel

/-- Refutes O56: TC7 of `fullClass` has no room (`fullClass_full`) until its first frame leaves; then the frame whose generator
waits joins the queue in the same command (R315), which the statement has lose the departing frame and gain none. -/
theorem not_framesLeaveAndGatesRun : ¬ Obligations.FramesLeaveAndGatesRun := by
  intro ⟨_, freeLine, _⟩
  obtain ⟨_, departures, _⟩ := freeLine 0 7 0 fullClass fullClass_up fullClass_leaving fullClass_lineFree fullClass_heldBack
  obtain ⟨t, run, queue, _⟩ := departures (responseFrame 0) fullClass_framePick (Or.inl rfl) rfl rfl [] false
  obtain ⟨t', run', joined⟩ := execFrameSelect_queue_of_waiting (p := 7) (q := 0) fullClass_up fullClass_leaving
    fullClass_lineFree fullClass_heldBack fullClass_framePick rfl fullClass_waits fullClass_room fullClass_up [] false
  obtain rfl : t = t' := Host.Outcome.next.inj (run.symm.trans run')
  rw [joined] at queue
  exact absurd (List.append_right_eq_self.mp queue) (List.cons_ne_nil _ _)

end Sys2Proof.Machine
end

section
/-! PROOFS. Scope: what a host reads of device time (R10, R324), and bits of a register beside a field that is set. -/

namespace Sys2Proof.Machine

/-! ## Reads of device time (R10, R324) -/

theorem regAt_dtcNs : regAt Reg.DTC_NS_LO = .reg ⟨0x000, [], "DTC_NS_LO", 1, [ro 31 0]⟩ ∧
    regAt Reg.DTC_NS_HI = .reg ⟨0x004, [], "DTC_NS_HI", 2, [ro 31 0]⟩ ∧
    regAt Reg.DTC_FRAC = .reg ⟨0x008, [], "DTC_FRAC", 0, [ro 31 0]⟩ := by
  decide +kernel

theorem regAt_doffLo : regAt Reg.DOFF_LO = .reg ⟨0x018, [], "DOFF_LO", 1, [ro 31 0]⟩ := by decide +kernel

theorem regAt_dtcIncLo : regAt Reg.DTC_INC_LO = .reg ⟨0x010, [], "DTC_INC_LO", 1, [ro 31 0]⟩ := by decide +kernel

/-- A register of no die's own region decodes in every state. -/
theorem State.decodes_of_reg {a : Nat} {d : RegDef} (s : State) (reg : regAt a = .reg d) (out : dieAt a = none) :
    s.decodes a = true := by
  simp [State.decodes, reg, out]

@[simp] theorem State.posted_clk (s : State) (mdie mid a : Nat) : (s.posted mdie mid a).clk = s.clk := by
  obtain ⟨l, e⟩ := s.posted_eq mdie mid a; rw [e]

theorem State.shown_time (s : State) {o : Nat} (h : o < 0x20) : s.shown (0xA000 + o) = s.shownTime o (0xA000 + o) := by
  have notBefore : ¬ (0x1100 ≤ 0xA000 + o ∧ 0xA000 + o < 0x1200) ∧ ¬ (0xA000 + o = 0x2014) ∧
      ¬ (0xA000 + o = 0x9040 ∨ 0xA000 + o = 0x9060) ∧ ¬ (0xA000 + o = 0x9064) := by omega
  obtain ⟨window, severity, status, holdoff⟩ := notBefore
  rw [State.shown, if_pos (by omega), if_neg window, if_neg severity, if_neg status, if_neg holdoff, if_pos (by omega),
    Nat.add_sub_cancel_left]

/-- What the five words and the two pairs of device time show (R340). -/
theorem State.shown_dtc (s : State) : s.shown Reg.DTC_NS_LO = s.clk.dtc / 2 ^ 32 % 2 ^ 32 ∧
    s.shown Reg.DTC_NS_HI = s.clk.dtc / 2 ^ 64 % 2 ^ 32 ∧ s.shown Reg.DTC_FRAC = s.clk.dtc % 2 ^ 32 := by
  refine ⟨s.shown_time (o := 0x00) (by decide), (s.shown_time (o := 0x04) (by decide)).trans ?_,
    s.shown_time (o := 0x08) (by decide)⟩
  have split : s.clk.dtc / 4294967296 / 4294967296 = s.clk.dtc / 2 ^ 64 := Nat.div_div_eq_div_mul ..
  exact congrArg (· % 4294967296) split

theorem State.shown_doff (s : State) : s.shown Reg.DOFF_LO = (s.clk.doff % 2 ^ 32).toNat ∧
    BitVec.ofNat 32 (s.shown Reg.DOFF_HI) = BitVec.ofInt 32 (s.clk.doff / 2 ^ 32) := by
  refine ⟨s.shown_time (o := 0x18) (by decide), ?_⟩
  have upper : s.shown Reg.DOFF_HI = (s.clk.doff / 2 ^ 32 % 2 ^ 32).toNat := s.shown_time (o := 0x1C) (by decide)
  rw [upper]
  apply BitVec.eq_of_toNat_eq
  rw [BitVec.toNat_ofNat, BitVec.toNat_ofInt]
  omega

theorem State.shown_inc (s : State) : s.shown Reg.DTC_INC_LO = s.clk.inc % 2 ^ 32 ∧
    s.shown Reg.DTC_INC_HI = s.clk.inc / 2 ^ 32 % 2 ^ 8 :=
  ⟨s.shown_time (o := 0x10) (by decide), s.shown_time (o := 0x14) (by decide)⟩

/-- Two facts about what a command leaves are facts about one state. -/
theorem Completes.and {i : Instr} {s : State} {P Q : State → Prop} (h : Completes i s P) (k : Completes i s Q) :
    Completes i s fun t => P t ∧ Q t := by
  obtain ⟨t, run, p⟩ := h
  obtain ⟨t', run', q⟩ := k
  obtain rfl : t = t' := Host.Outcome.next.inj (run.symm.trans run')
  exact ⟨t, run, p, q⟩

/-- A read of DTC_NS_LO latches DTC_FRAC as it is shown at the read. -/
theorem execReg64LoRead_latchesFrac (dt : Nat) (mdie : Fin 8) (mid : Fin 4) (s : State) :
    Completes (.reg64LoRead dt mdie mid Reg.DTC_NS_LO) s fun t =>
      t.latchOf (masterNo mdie mid) Reg.DTC_FRAC = some (BitVec.ofNat 32 ((s.elapse dt).clk.dtc % 2 ^ 32)) := by
  obtain ⟨lo, -, -⟩ := regAt_dtcNs
  have read := State.readBus_lo mdie mid lo rfl ((s.elapse dt).decodes_of_reg lo rfl)
  refine Completes.of_done (congrArg (fun r : State × Nat => done (r.1.send (.busRead mdie mid Reg.DTC_NS_LO r.2))) read) ?_
  rw [State.latchOf_of_bus (State.settle_bus _)]
  obtain ⟨-, -, frac⟩ := ((s.elapse dt).posted mdie mid Reg.DTC_NS_LO).shown_dtc
  rw [State.posted_clk] at frac
  rw [← frac]
  exact State.latchOf_latchSet_self ..

/-- A read of DTC_FRAC returns the master's latch where it holds one. -/
theorem execReg64LoRead_frac {dt : Nat} {mdie : Fin 8} {mid : Fin 4} {w : Word} {s : State}
    (latched : s.latchOf (masterNo mdie mid) Reg.DTC_FRAC = some w) :
    Completes (.reg64LoRead dt mdie mid Reg.DTC_FRAC) s fun t =>
      t.sent = .busRead mdie mid Reg.DTC_FRAC w.toNat :: s.sent := by
  obtain ⟨-, -, frac⟩ := regAt_dtcNs
  have dec := (s.elapse dt).decodes_of_reg frac rfl
  have held : ((s.elapse dt).posted mdie mid Reg.DTC_FRAC).latchOf (masterNo mdie mid) Reg.DTC_FRAC = some w :=
    (State.latchOf_of_bus ((s.elapse dt).posted_bus ..) _ _).trans latched
  have read : (s.elapse dt).readBus mdie mid Reg.DTC_FRAC =
      (((s.elapse dt).posted mdie mid Reg.DTC_FRAC).latchDrop (masterNo mdie mid) Reg.DTC_FRAC, w.toNat) := by
    simp [State.readBus, State.readWord, regAt_aligned frac, dec, frac, State.when, held]
  refine Completes.of_done (congrArg (fun r : State × Nat => done (r.1.send (.busRead mdie mid Reg.DTC_FRAC r.2))) read) ?_
  rw [State.settle_sent, State.send_sent]
  exact congrArg _ ((s.elapse dt).posted_sent mdie mid Reg.DTC_FRAC)

/-- Settles O17: the three words of a sample are latched by one `latchPair`, and a latch does not move with the counter. -/
theorem timePairsFormOneSample : Obligations.TimePairsFormOneSample := by
  obtain ⟨loRead, hiRead, -, -⟩ := pairsAreLatchedPerMaster
  have word (n : Nat) : (BitVec.ofNat 32 (n % 2 ^ 32)).toNat = n % 2 ^ 32 := by rw [BitVec.toNat_ofNat, Nat.mod_mod]
  intro dt mdie mid s
  refine ⟨?_, ?_, ?_⟩
  · obtain ⟨lo, hi, -⟩ := regAt_dtcNs
    obtain ⟨shownLo, shownHi, -⟩ := ((s.elapse dt).posted mdie mid Reg.DTC_NS_LO).shown_dtc
    rw [State.posted_clk] at shownLo shownHi
    obtain ⟨t, run, ⟨sent, latched, -, -⟩, frac⟩ := (loRead dt mdie mid _ _ s lo rfl (State.decodes_of_reg _ lo rfl)).and
      (execReg64LoRead_latchesFrac dt mdie mid s)
    have upper := latched.trans (congrArg (fun v => some (BitVec.ofNat 32 v)) shownHi)
    refine ⟨t, run, shownLo ▸ sent, fun dt' => ?_, fun dt' => ?_⟩
    · obtain ⟨u, run', answer, -, -⟩ := hiRead dt' mdie mid _ _ _ t hi rfl (State.decodes_of_reg _ hi rfl) upper
      exact ⟨u, run', word _ ▸ answer⟩
    · obtain ⟨u, run', answer⟩ := execReg64LoRead_frac (dt := dt') frac
      exact ⟨u, run', word _ ▸ answer⟩
  · obtain ⟨lower, upper⟩ := ((s.elapse dt).posted mdie mid Reg.DOFF_LO).shown_doff
    rw [State.posted_clk] at lower upper
    obtain ⟨t, run, sent, latched, -, -⟩ :=
      loRead dt mdie mid _ _ s regAt_doffLo rfl (State.decodes_of_reg _ regAt_doffLo rfl)
    exact ⟨t, run, lower ▸ sent, latched.trans (congrArg some upper)⟩
  · obtain ⟨lower, upper⟩ := ((s.elapse dt).posted mdie mid Reg.DTC_INC_LO).shown_inc
    rw [State.posted_clk] at lower upper
    obtain ⟨t, run, sent, latched, -, -⟩ :=
      loRead dt mdie mid _ _ s regAt_dtcIncLo rfl (State.decodes_of_reg _ regAt_dtcIncLo rfl)
    exact ⟨t, run, lower ▸ sent, latched.trans (congrArg (fun v => some (BitVec.ofNat 32 v)) upper)⟩

/-! ## Bits beside a field -/

theorem State.bit_setFld_apart (s : State) (a hi lo v : Nat) {j : Nat} (h : hi < 32) (hl : lo ≤ hi) (apart : j < lo ∨ hi < j) :
    (s.setFld a hi lo v).bit a j = s.bit a j := by
  rw [State.bit, State.fld_setFld_apart s a hi lo v j j h hl apart, State.bit]

theorem State.bit_setBit_apart (s : State) (a : Nat) (b : Bool) {i j : Nat} (h : i < 32) (ne : j ≠ i) :
    (s.setBit a i b).bit a j = s.bit a j :=
  State.bit_setFld_apart s a i i _ h (Nat.le_refl i) (Nat.lt_or_gt_of_ne ne)

end Sys2Proof.Machine
end

section
/-! PROOFS. Scope: PTP messages and timeouts (R325 to R329), the servo and the time state they lead to, PPS_IN and PPS_OUT
(R332, R333). -/

namespace Sys2Proof.Machine

/-! ## What the end of E6 leaves alone (R47, R101, R107) -/

/-- What entering a phase and joining the groups may write: the emergence block up to EMG_T_LIVE, and the counters of the
traffic managers. -/
abbrev phaseReg (a : Nat) : Prop := (0x1000 ≤ a ∧ a < 0x104C) ∨ (0x40000 ≤ a ∧ a < 0x50000)

/-- `t` keeps the clock of `s` and every register that no phase writes. -/
structure PhaseOnly (s t : State) : Prop where
  rd : ∀ a, ¬ phaseReg a → t.rd a = s.rd a
  clk : t.clk = s.clk

theorem PhaseOnly.refl (s : State) : PhaseOnly s s := ⟨fun _ _ => rfl, rfl⟩

theorem PhaseOnly.trans {s t u : State} (h : PhaseOnly s t) (k : PhaseOnly t u) : PhaseOnly s u :=
  ⟨fun a out => (k.rd a out).trans (h.rd a out), k.clk.trans h.clk⟩

theorem PhaseOnly.wr (s : State) {a : Nat} (v : Word) (h : phaseReg a) : PhaseOnly s (s.wr a v) :=
  ⟨fun b out => State.rd_wr_other s a b v fun e => out (e ▸ h), rfl⟩

theorem PhaseOnly.of_regs {s t : State} (regs : t.regs = s.regs) (clk : t.clk = s.clk) : PhaseOnly s t :=
  ⟨fun a _ => State.rd_congr regs a, clk⟩

theorem PhaseOnly.when {s : State} {c : Bool} {f : State → State} (h : PhaseOnly s (f s)) : PhaseOnly s (s.when c f) := by
  unfold State.when
  split
  · exact h
  · exact .refl s

theorem PhaseOnly.each {α : Type} {f : α → State → State} (l : List α) (h : ∀ a ∈ l, ∀ x, PhaseOnly x (f a x)) (s : State) :
    PhaseOnly s (s.each l f) := by
  unfold State.each
  induction l generalizing s with
  | nil => exact .refl s
  | cons a r ih =>
    exact (h a List.mem_cons_self s).trans (ih (fun b m => h b (List.mem_cons_of_mem a m)) (f a s))

theorem State.toSub_phaseOnly (s : State) {p i cls : Nat} (len : Nat) (x : Sent) (hp : p < 8) (hi : i < 4) (hc : cls < 8) :
    PhaseOnly s (s.toSub p i cls len x) := by
  have dropped : PhaseOnly s (s.bump (Reg.TMC_DROPPED p i cls)) := .wr s _ (.inr (by unfold Reg.TMC_DROPPED; omega))
  unfold State.toSub
  dsimp only
  split
  · exact dropped
  · split
    · exact .of_regs rfl rfl
    · split
      · exact .of_regs rfl rfl
      · exact dropped

theorem State.report_phaseOnly (s : State) {p : Nat} (kind : Nat) (mld : Bool) (g : List (List Nat)) (hp : p < 8) :
    PhaseOnly s (s.report p kind mld g) :=
  .each _ (fun q m x => x.toSub_phaseOnly _ _ hp (List.mem_range.mp (List.mem_filter.mp m).1) (by decide)) s

theorem State.syncGroups_phaseOnly (s : State) : PhaseOnly s s.syncGroups := by
  refine .each _ (fun x m y => ?_) s
  have port : x.1 < 8 := by
    obtain ⟨p, hp, pair⟩ := List.mem_flatMap.mp m
    have port : p < 8 := List.mem_range.mp hp
    rcases List.mem_cons.mp pair with rfl | last
    · exact port
    · rw [List.mem_singleton.mp last]
      exact port
  exact ((y.report_phaseOnly _ _ _ port).trans (State.report_phaseOnly _ _ _ _ port)).trans (.of_regs rfl rfl)

theorem State.enterPhase_phaseOnly (s : State) (p : Nat) : PhaseOnly s (s.enterPhase p) := by
  have entered : PhaseOnly s (s.setFld Reg.EMG_STATUS 3 0 p) := .wr s _ (by decide)
  have stamped (x : State) : PhaseOnly x (x.when (decide (p ≤ 8)) fun s => s.wrN (Reg.EMG_T_E p) s.usE0) := by
    unfold State.when
    split
    case isTrue le =>
      have := of_decide_eq_true le
      exact .wr x _ (.inl (by unfold Reg.EMG_T_E; omega))
    case isFalse => exact .refl x
  exact ((entered.trans (stamped _)).trans (.when (.wr _ _ (by decide)))).trans (.of_regs rfl rfl)

theorem State.fillBuckets_phaseOnly (s : State) : PhaseOnly s s.fillBuckets := .of_regs rfl rfl

theorem State.startE8_phaseOnly (s : State) : PhaseOnly s s.startE8 :=
  ((s.enterPhase_phaseOnly 8).trans (State.syncGroups_phaseOnly _)).trans (State.fillBuckets_phaseOnly _)

theorem State.endE6_phaseOnly (s : State) : PhaseOnly s s.endE6 := by
  refine .when ?_
  dsimp only
  split
  · exact .of_regs rfl rfl
  · split
    · exact s.enterPhase_phaseOnly 7
    · exact s.startE8_phaseOnly

/-! ## What the servo and the time state leave alone (R321 to R323, R328, R329) -/

/-- What a completed measurement may write beside the phase: the time state, the count of DOFF steps, the clamp flag and the
runs discarded. -/
abbrev servoReg (a : Nat) : Prop :=
  a = Reg.TIME_STATUS ∨ a = Reg.DOFF_STEPS ∨ a = Reg.PTP_STATUS ∨ a = Reg.PTP_OUTLIERS ∨ phaseReg a

/-- `t` keeps every register that no measurement writes, the Sync that waits, and the record of the PPS_IN edges. -/
structure ServoOnly (s t : State) : Prop where
  rd : ∀ a, ¬ servoReg a → t.rd a = s.rd a
  waitFollow : t.clk.waitFollow = s.clk.waitFollow
  ppsGood : t.clk.ppsGood = s.clk.ppsGood
  ppsRun : t.clk.ppsRun = s.clk.ppsRun
  ppsStopped : t.clk.ppsStopped = s.clk.ppsStopped

theorem ServoOnly.refl (s : State) : ServoOnly s s := ⟨fun _ _ => rfl, rfl, rfl, rfl, rfl⟩

theorem ServoOnly.trans {s t u : State} (h : ServoOnly s t) (k : ServoOnly t u) : ServoOnly s u where
  rd a out := (k.rd a out).trans (h.rd a out)
  waitFollow := k.waitFollow.trans h.waitFollow
  ppsGood := k.ppsGood.trans h.ppsGood
  ppsRun := k.ppsRun.trans h.ppsRun
  ppsStopped := k.ppsStopped.trans h.ppsStopped

theorem ServoOnly.wr {z s : State} {a : Nat} (v : Word) (h : ServoOnly z s) (may : servoReg a) : ServoOnly z (s.wr a v) :=
  h.trans ⟨fun b out => State.rd_wr_other s a b v fun e => out (e ▸ may), rfl, rfl, rfl, rfl⟩

theorem ServoOnly.raiseT {z s : State} (src info : Nat) (h : ServoOnly z s) : ServoOnly z (s.raiseT src info) :=
  h.trans ⟨fun _ _ => rfl, rfl, rfl, rfl, rfl⟩

/-- The other fields of the clock are the measurement's to set. -/
theorem ServoOnly.clk {z s : State} {c : Clock} (h : ServoOnly z s) (waitFollow : c.waitFollow = s.clk.waitFollow)
    (ppsGood : c.ppsGood = s.clk.ppsGood) (ppsRun : c.ppsRun = s.clk.ppsRun) (ppsStopped : c.ppsStopped = s.clk.ppsStopped) :
    ServoOnly z { s with clk := c } := h.trans ⟨fun _ _ => rfl, waitFollow, ppsGood, ppsRun, ppsStopped⟩

theorem ServoOnly.when {z s : State} {c : Bool} {f : State → State} (h : ServoOnly z s)
    (k : ∀ x, ServoOnly z x → ServoOnly z (f x)) : ServoOnly z (s.when c f) := by
  unfold State.when
  split
  · exact k s h
  · exact h

theorem PhaseOnly.servoOnly {s t : State} (h : PhaseOnly s t) : ServoOnly s t where
  rd a out := h.rd a fun phase => out (.inr (.inr (.inr (.inr phase))))
  waitFollow := by rw [h.clk]
  ppsGood := by rw [h.clk]
  ppsRun := by rw [h.clk]
  ppsStopped := by rw [h.clk]

theorem State.setTime_servoOnly (s : State) (st : Nat) : ServoOnly s (s.setTime st) := by
  unfold State.setTime
  split
  · exact .refl s
  · exact ((ServoOnly.refl s).wr _ (.inl rfl)).raiseT _ _

theorem State.doffStep_servoOnly (s : State) (d : Int) : ServoOnly s (s.doffStep d) := by
  unfold State.doffStep
  dsimp only
  refine ServoOnly.when ?_ fun x h => ((h.wr _ (.inr (.inl rfl))).wr _ (.inl rfl)).raiseT _ _
  exact ⟨fun _ _ => rfl, rfl, rfl, rfl, rfl⟩

theorem State.servo_servoOnly (s : State) (off : Int) (slews : Bool) : ServoOnly s (s.servo off slews) := by
  unfold State.servo
  dsimp only
  refine ServoOnly.clk (ServoOnly.wr _ ?_ (.inr (.inr (.inl rfl)))) rfl rfl rfl rfl
  exact (ServoOnly.refl s).clk rfl rfl rfl rfl

theorem State.outlier_servoOnly (s : State) (c : Bool) : ServoOnly s (s.when c fun s => s.bump Reg.PTP_OUTLIERS) :=
  (ServoOnly.refl s).when fun _ h => h.wr _ (.inr (.inr (.inr (.inl rfl))))

theorem State.slewOffset_servoOnly (s : State) (off : Int) : ServoOnly s (s.slewOffset off) := by
  unfold State.slewOffset
  refine ServoOnly.trans ?_ (State.servo_servoOnly _ off true)
  exact (s.outlier_servoOnly _).clk rfl rfl rfl rfl

theorem State.runOffset_servoOnly (s : State) (off : Int) : ServoOnly s (s.runOffset off) := by
  unfold State.runOffset
  extract_lets joins run counted
  have noted : ServoOnly s counted := s.outlier_servoOnly _
  split
  · refine ServoOnly.trans ?_ (State.doffStep_servoOnly _ _)
    exact noted.clk rfl rfl rfl rfl
  · exact noted.clk rfl rfl rfl rfl

theorem State.takeOffset_servoOnly (s : State) (off : Int) : ServoOnly s (s.takeOffset off) := by
  unfold State.takeOffset
  split
  · exact (s.doffStep_servoOnly _).trans (State.servo_servoOnly _ off false)
  · split
    · exact s.slewOffset_servoOnly off
    · exact s.runOffset_servoOnly off

theorem State.lockTime_servoOnly (s : State) (st : Nat) : ServoOnly s (s.lockTime st) := by
  unfold State.lockTime
  refine ServoOnly.trans (ServoOnly.trans ?_ (State.setTime_servoOnly _ st)) (State.endE6_phaseOnly _).servoOnly
  exact (ServoOnly.refl s).clk rfl rfl rfl rfl

theorem State.lockJudge_servoOnly (s : State) (off : Int) : ServoOnly s (s.lockJudge off) := by
  unfold State.lockJudge
  extract_lets clock counted
  have noted : ServoOnly s counted := (ServoOnly.refl s).clk rfl rfl rfl rfl
  split
  · exact noted.trans (counted.lockTime_servoOnly 2)
  · split
    · exact noted.trans (counted.setTime_servoOnly 1)
    · exact noted

/-! ## The time state -/

@[simp] theorem State.setTime_clk (s : State) (st : Nat) : (s.setTime st).clk = s.clk := by
  unfold State.setTime
  split
  · rfl
  · rw [State.raiseT_clk, State.setFld_clk]

theorem State.timeState_setTime (s : State) {st : Nat} (h : st < 8) : (s.setTime st).timeState = st := by
  unfold State.setTime
  split
  case isTrue already => exact already
  case isFalse =>
    rw [State.timeState, State.fld_raiseT, State.fld_setFld _ _ _ _ _ (by decide) (by decide)]
    exact Nat.mod_eq_of_lt h

theorem State.rd_setTime_other (s : State) (st : Nat) {a : Nat} (h : a ≠ Reg.TIME_STATUS) : (s.setTime st).rd a = s.rd a := by
  unfold State.setTime
  split
  · rfl
  · rw [State.rd_raiseT, State.rd_setFld_other _ _ _ _ _ _ h]

theorem State.timeState_settle (s : State) : s.settle.timeState = s.timeState := State.settle_fld _ _ _ _ (by decide)

theorem State.timeState_lockTime (s : State) {st : Nat} (h : st < 8) : (s.lockTime st).timeState = st := by
  have ended := State.endE6_phaseOnly (({ s with clk := { s.clk with
    everLocked := true, incLog := [(s.ns, s.clk.inc)] } } : State).setTime st)
  exact (State.fld_of (ended.rd _ (by decide)) 2 0).trans (State.timeState_setTime _ h)

theorem State.lockTime_doff (s : State) (st : Nat) : (s.lockTime st).clk.doff = s.clk.doff := by
  rw [State.lockTime, (State.endE6_phaseOnly _).clk, State.setTime_clk]

/-! ## Measurements (R328) -/

/-- A completed Sync is counted and its offset shown; nothing that follows from the offset touches either. -/
theorem State.syncMeasured_shows (s : State) (rx origin corr : Int) :
    let t := s.syncMeasured rx origin corr
    t.rdN Reg.PTP_SYNC_RX = (s.rdN Reg.PTP_SYNC_RX + 1) % 4294967296 ∧
    t.rd Reg.PTP_OFFSET = BitVec.ofInt 32 (sat32 (rx + s.clk.doff - origin - corr - (s.rd Reg.PTP_MPD).toInt)) ∧
    t.clk.waitFollow = s.clk.waitFollow := by
  unfold State.syncMeasured
  extract_lets clock noted off shown t
  have kept : ServoOnly shown t := (State.takeOffset_servoOnly shown off).trans (State.lockJudge_servoOnly _ off)
  have counted : shown.rdN Reg.PTP_SYNC_RX = (s.rdN Reg.PTP_SYNC_RX + 1) % 4294967296 := by
    have apart : (noted.wrI Reg.PTP_OFFSET (sat32 off)).rd Reg.PTP_SYNC_RX = s.rd Reg.PTP_SYNC_RX :=
      State.rd_wr_other _ _ _ _ (by decide)
    rw [State.rdN_bump, State.rdN_of apart]
  have written : shown.rd Reg.PTP_OFFSET = BitVec.ofInt 32 (sat32 off) := by
    rw [State.rd_bump_other _ _ _ _ (by decide), State.wrI, State.rd_wr_self]
  exact ⟨(State.rdN_of (kept.rd _ (by decide))).trans counted, (kept.rd _ (by decide)).trans written, kept.waitFollow⟩

/-! ## The master followed (R326, R328) -/

theorem bestAnnounce_isSome (primary : Nat) (l : List Announce) : (bestAnnounce primary l).isSome = decide (l ≠ []) := by
  cases l with
  | nil => rfl
  | cons a l =>
    rw [bestAnnounce]
    split
    · rfl
    · split <;> rfl

/-- No master is followed. -/
def State.unfollowed (s : State) : State :=
  (({ s with clk := { s.clk with master := none } }).setBit Reg.PTP_STATUS 0 false).setBit Reg.PTP_STATUS 4 false

/-- The master `b` is followed and shown. -/
def State.following (s : State) (b : Announce) : State :=
  let s' := { s with clk := { s.clk with master := some b } }
  let seen := (s'.setBit Reg.PTP_STATUS 0 true).setBit Reg.PTP_STATUS 4 (decide (b.port ≠ s.fld Reg.PTP_PORTS 4 0))
  (seen.wr64 Reg.PTP_GM_LO b.gm).wrN Reg.PTP_GM_CLASS (b.cls % 256 * 256 + b.domain % 256)

theorem State.followBest_cases (s : State) : let best := bestAnnounce (s.fld Reg.PTP_PORTS 4 0) s.clk.foreign
    best = none ∧ s.followBest = s.unfollowed ∨
    ∃ b changed info, best = some b ∧ s.followBest = (s.following b).when changed fun t => t.raiseT 1013 info := by
  unfold State.followBest
  dsimp only
  rcases bestAnnounce (s.fld Reg.PTP_PORTS 4 0) s.clk.foreign with _ | b
  · exact .inl ⟨rfl, rfl⟩
  · exact .inr ⟨b, _, _, rfl, rfl⟩

theorem State.rd_when_raiseT (s : State) (c : Bool) (src info a : Nat) :
    (s.when c fun t => t.raiseT src info).rd a = s.rd a := by
  unfold State.when
  split <;> rfl

theorem State.when_raiseT_clk (s : State) (c : Bool) (src info : Nat) :
    (s.when c fun t => t.raiseT src info).clk = s.clk := by
  unfold State.when
  split <;> rfl

theorem State.followBest_clk (s : State) : s.followBest.clk =
    { s.clk with master := bestAnnounce (s.fld Reg.PTP_PORTS 4 0) s.clk.foreign } := by
  rcases s.followBest_cases with ⟨none, best⟩ | ⟨b, changed, info, some, best⟩
  · rw [best, none, State.unfollowed, State.setBit_clk, State.setBit_clk]
  · rw [best, some, State.when_raiseT_clk, State.following, State.wrN_clk, State.wr64_clk, State.setBit_clk, State.setBit_clk]

/-- MASTER_SEEN shows whether a master is followed. -/
theorem State.followBest_seen (s : State) : s.followBest.bit Reg.PTP_STATUS 0 = decide (s.clk.foreign ≠ []) := by
  rw [← bestAnnounce_isSome (s.fld Reg.PTP_PORTS 4 0)]
  rcases s.followBest_cases with ⟨none, best⟩ | ⟨b, changed, info, some, best⟩
  · rw [best, none, State.unfollowed, State.bit_setBit_apart _ _ _ (by decide) (by decide), State.bit_setBit _ _ _ _ (by decide)]
    rfl
  · have shown : ((s.following b).when changed fun t => t.raiseT 1013 info).bit Reg.PTP_STATUS 0 =
        (s.following b).bit Reg.PTP_STATUS 0 := State.bit_of (State.rd_when_raiseT ..) 0
    rw [best, some, shown, State.following, State.bit_of (State.rd_wrN_other _ _ _ _ (by decide)), State.wr64,
      State.bit_of (State.rd_wrN_other _ _ _ _ (by decide)), State.bit_of (State.rd_wrN_other _ _ _ _ (by decide)),
      State.bit_setBit_apart _ _ _ (by decide) (by decide), State.bit_setBit _ _ _ _ (by decide)]
    rfl

theorem State.rd_followBest_other (s : State) {a : Nat}
    (h : a ∉ [Reg.PTP_STATUS, Reg.PTP_GM_LO, Reg.PTP_GM_HI, Reg.PTP_GM_CLASS]) : s.followBest.rd a = s.rd a := by
  simp only [List.mem_cons, List.not_mem_nil, or_false, not_or] at h
  obtain ⟨status, low, high, cls⟩ := h
  rcases s.followBest_cases with ⟨none, best⟩ | ⟨b, changed, info, some, best⟩
  · rw [best, State.unfollowed, State.rd_setBit_other _ _ _ _ _ status, State.rd_setBit_other _ _ _ _ _ status]
    rfl
  · rw [best, State.rd_when_raiseT, State.following, State.rd_wrN_other _ _ _ _ cls, State.wr64,
      State.rd_wrN_other _ _ _ _ high, State.rd_wrN_other _ _ _ _ low, State.rd_setBit_other _ _ _ _ _ status,
      State.rd_setBit_other _ _ _ _ _ status]
    rfl

/-! ## A lost master (R326, R328, R334) -/

theorem State.rd_holdInc_other (s : State) {a : Nat} (h : a ≠ Reg.PTP_STATUS) : s.holdInc.rd a = s.rd a := by
  rw [State.holdInc, State.rd_freshId, State.rd_setBit_other _ _ _ _ _ h]
  rfl

theorem State.holdInc_clk (s : State) : s.holdInc.clk = { s.clk with inc := s.meanInc } := by
  rw [State.holdInc, State.freshId_clk, State.setBit_clk]

/-- HOLDOVER where the unit has ever been locked. -/
theorem State.timeState_holdTime {s : State} (ever : s.clk.everLocked = true) : s.holdTime.timeState = 3 := by
  unfold State.holdTime State.when
  split
  · exact State.timeState_setTime _ (by decide)
  case isFalse already => simpa [ever] using already

theorem State.rd_holdTime_other (s : State) {a : Nat} (h : a ≠ Reg.TIME_STATUS) (k : a ≠ Reg.PTP_STATUS) :
    s.holdTime.rd a = s.rd a := by
  unfold State.holdTime State.when
  split
  · exact (State.rd_setTime_other _ 3 h).trans (s.rd_holdInc_other k)
  · rfl

/-- Holding DTC_INC clears CLAMPED and leaves MASTER_SEEN. -/
theorem State.holdTime_seen (s : State) : s.holdTime.bit Reg.PTP_STATUS 0 = s.bit Reg.PTP_STATUS 0 := by
  unfold State.holdTime State.when
  split
  · have held : s.holdInc.bit Reg.PTP_STATUS 0 = s.bit Reg.PTP_STATUS 0 :=
      (State.bit_freshId _ _ _).trans (State.bit_setBit_apart _ _ _ (by decide) (by decide))
    exact (State.bit_of (State.rd_setTime_other _ 3 (by decide)) 0).trans held
  · rfl

theorem State.holdTime_masters (s : State) : s.holdTime.clk.foreign = s.clk.foreign ∧ s.holdTime.clk.master = s.clk.master := by
  unfold State.holdTime State.when
  split
  · rw [State.setTime_clk]
    dsimp only
    rw [State.holdInc_clk]
    exact ⟨rfl, rfl⟩
  · exact ⟨rfl, rfl⟩

/-- The masters that are left when the one followed is lost: those heard on another port. -/
def State.mastersLeft (s : State) : List Announce :=
  match s.clk.master with
  | none => []
  | some m => s.clk.foreign.filter fun f => f.port != m.port

/-- The masters of the lost one's port are forgotten and the best one left is followed, before the unit goes into HOLDOVER. -/
def State.masterLeft (s : State) : State :=
  ({ s with clk := { s.clk with foreign := s.mastersLeft, waitFollow := none } } : State).followBest

theorem State.masterLost_eq (s : State) : s.masterLost = s.masterLeft.when s.masterLeft.clk.master.isNone State.holdTime := rfl

theorem State.masterLeft_clk (s : State) : s.masterLeft.clk.foreign = s.mastersLeft ∧
    s.masterLeft.clk.master = bestAnnounce (s.fld Reg.PTP_PORTS 4 0) s.mastersLeft ∧
    s.masterLeft.clk.everLocked = s.clk.everLocked := by
  rw [State.masterLeft, State.followBest_clk]
  exact ⟨rfl, rfl, rfl⟩

theorem State.masterLost_masters (s : State) : s.masterLost.clk.foreign = s.mastersLeft ∧
    s.masterLost.clk.master = bestAnnounce (s.fld Reg.PTP_PORTS 4 0) s.mastersLeft := by
  obtain ⟨foreign, master, -⟩ := s.masterLeft_clk
  obtain ⟨heldForeign, heldMaster⟩ := s.masterLeft.holdTime_masters
  rw [State.masterLost_eq, State.when]
  split
  · exact ⟨heldForeign.trans foreign, heldMaster.trans master⟩
  · exact ⟨foreign, master⟩

theorem State.masterLost_seen (s : State) : s.masterLost.bit Reg.PTP_STATUS 0 = decide (s.mastersLeft ≠ []) := by
  have seen : s.masterLeft.bit Reg.PTP_STATUS 0 = decide (s.mastersLeft ≠ []) := State.followBest_seen _
  rw [State.masterLost_eq, State.when]
  split
  · exact s.masterLeft.holdTime_seen.trans seen
  · exact seen

theorem State.timeState_masterLost {s : State} (none : s.mastersLeft = []) (ever : s.clk.everLocked = true) :
    s.masterLost.timeState = 3 := by
  obtain ⟨-, master, locked⟩ := s.masterLeft_clk
  rw [none] at master
  rw [State.masterLost_eq, master]
  exact State.timeState_holdTime (locked.trans ever)

theorem State.rd_masterLost_other (s : State) {a : Nat} (time : a ≠ Reg.TIME_STATUS)
    (h : a ∉ [Reg.PTP_STATUS, Reg.PTP_GM_LO, Reg.PTP_GM_HI, Reg.PTP_GM_CLASS]) : s.masterLost.rd a = s.rd a := by
  have left : s.masterLeft.rd a = s.rd a := State.rd_followBest_other _ h
  rw [State.masterLost_eq, State.when]
  split
  · exact (s.masterLeft.rd_holdTime_other time fun e => h (e ▸ List.mem_cons_self)).trans left
  · exact left

/-! ## PTP messages (R325 to R329) -/

section
variable (s : State) (dt : Nat)

@[simp] theorem State.island_elapse : (s.elapse dt).island = s.island := rfl
@[simp] theorem State.phase_elapse : (s.elapse dt).phase = s.phase := rfl
@[simp] theorem State.halted_elapse : (s.elapse dt).halted = s.halted := rfl
@[simp] theorem State.ptpHears_elapse (port : Nat) : (s.elapse dt).ptpHears port = s.ptpHears port := rfl
@[simp] theorem State.ptpAccepts_elapse (domain : Nat) (supported : Bool) :
    (s.elapse dt).ptpAccepts domain supported = s.ptpAccepts domain supported := rfl
@[simp] theorem State.ptpUdp_elapse (transport : Nat) : (s.elapse dt).ptpUdp transport = s.ptpUdp transport := rfl
@[simp] theorem State.syncOk_elapse (m : SyncMsg) : (s.elapse dt).syncOk m = s.syncOk m := rfl
@[simp] theorem State.announceOk_elapse (m : Announce) : (s.elapse dt).announceOk m = s.announceOk m := rfl

end

/-- A message that is discarded is counted, and that is all. -/
theorem Completes.of_discard {i : Instr} {s : State} {dt : Nat} (h : exec i s = done ((s.elapse dt).bump Reg.PTP_RX_DISCARD)) :
    Completes i s fun t => t.rdN Reg.PTP_RX_DISCARD = (s.rdN Reg.PTP_RX_DISCARD + 1) % 4294967296 ∧
      s.regsBut t [Reg.PTP_RX_DISCARD] := by
  refine .of_done h ⟨?_, (State.regsBut.wr (State.regsBut_of_regs rfl) List.mem_cons_self).settle⟩
  rw [State.settle_rdN _ _ (by decide), State.rdN_bump, State.rdN_elapse]

theorem exec_discarded {dt : Nat} {s : State} (off : s.island = false) :
    (∀ m : SyncMsg, s.ptpHears m.port = true → s.syncOk m = false →
      exec (.syncRx dt m) s = done ((s.elapse dt).bump Reg.PTP_RX_DISCARD)) ∧
    (∀ m : Announce, s.ptpHears m.port = true → s.announceOk m = false →
      exec (.announceRx dt m) s = done ((s.elapse dt).bump Reg.PTP_RX_DISCARD)) ∧
    (∀ dom seq at_ corr sup, s.ptpAccepts dom (s.ptpUdp sup) = false →
      exec (.delayRespRx dt dom seq at_ corr sup) s = done ((s.elapse dt).bump Reg.PTP_RX_DISCARD)) ∧
    (∀ port dom corr sup, 5 ≤ s.phase → s.halted = false → s.ptpHears port = true →
      s.ptpAccepts dom (s.ptpUdp sup) = false ∨ s.bit Reg.PTP_CTRL 2 = false →
      exec (.pdelayReqRx dt port dom corr sup) s = done ((s.elapse dt).bump Reg.PTP_RX_DISCARD)) := by
  refine ⟨fun m hears bad => ?_, fun m hears bad => ?_, fun dom seq at_ corr sup bad => ?_, ?_⟩
  · show execSyncRx dt m s = _
    simp [execSyncRx, off, hears, bad]
  · show execAnnounceRx dt m s = _
    simp [execAnnounceRx, off, hears, bad]
  · show execDelayRespRx dt dom seq at_ corr sup s = _
    simp [execDelayRespRx, off, bad]
  · intro port dom corr sup begun running hears bad
    exact (if_neg (by simp [off, running, hears, Nat.not_lt.mpr begun])).trans (if_pos (by simpa using bad))

/-- A Sync of the master followed waits for its Follow_Up or is measured (R328). -/
theorem execSyncRx_followed {dt : Nat} {m : SyncMsg} {b : Announce} {s : State} (off : s.island = false)
    (hears : s.ptpHears m.port = true) (good : s.syncOk m = true) (master : s.clk.master = some b)
    (sender : b.sender = m.sender) (port : b.port = m.port) : exec (.syncRx dt m) s =
      let x := s.elapse dt
      if m.twoStep = true then done { x with clk := { x.clk with waitFollow := some (m, x.portStamp) } }.freshId
      else done (x.syncMeasured x.portStamp m.origin m.correction).freshId := by
  have followed : (s.elapse dt).clk.master = some b := master
  show execSyncRx dt m s = _
  simp [execSyncRx, off, hears, good, followed, sender, port]

theorem execFollowUpRx_followed {dt : Nat} {m : SyncMsg} {b : Announce} {rx : Int} {s : State}
    (waits : s.clk.waitFollow = some (m, rx)) (master : s.clk.master = some b) (sender : b.sender = m.sender)
    (port : b.port = m.port) (origin correction : Int) : exec (.followUpRx dt m.sender m.seq origin correction) s =
      let x := s.elapse dt
      done (({ x with clk := { x.clk with waitFollow := none } } : State).syncMeasured rx origin (m.correction + correction)) := by
  have followed : (s.elapse dt).clk.master = some b := master
  have pending : (s.elapse dt).clk.waitFollow = some (m, rx) := waits
  show execFollowUpRx dt m.sender m.seq origin correction s = _
  simp [execFollowUpRx, pending, followed, sender, port]

theorem execDelayRespRx_present {dt dom sup : Nat} {at_ corr sent : Int} {s : State} (off : s.island = false)
    (good : s.ptpAccepts dom (s.ptpUdp sup) = true) (asked : s.clk.dreqAt = some sent) :
    exec (.delayRespRx dt dom s.clk.dreqSeq at_ corr sup) s =
      let x := s.elapse dt
      done (({ x with clk := { x.clk with dreqAt := none } } : State).pathDelay (x.delayMeasured sent at_ corr)).freshId.freshId := by
  have pending : (s.elapse dt).clk.dreqAt = some sent := asked
  have present : (s.elapse dt).clk.dreqSeq = s.clk.dreqSeq := rfl
  show execDelayRespRx dt dom s.clk.dreqSeq at_ corr sup s = _
  simp [execDelayRespRx, off, good, pending, present]

/-- A delay stands first in the last 16, and PTP_MPD shows their median. -/
theorem State.pathDelay_shows (s : State) (d : Int) : (s.pathDelay d).clk.mpds = (d :: s.clk.mpds).take 16 ∧
    (s.pathDelay d).rd Reg.PTP_MPD = BitVec.ofInt 32 (medianInt ((d :: s.clk.mpds).take 16)) ∧
    s.regsBut (s.pathDelay d) [Reg.PTP_MPD] :=
  ⟨rfl, State.rd_wr_self .., State.regsBut.wr (State.regsBut_of_regs rfl) List.mem_cons_self⟩

/-- The body of the metadata TLV of an Announce is shown in PTP_SM (R325). -/
def State.showMetadata (s : State) (m : Announce) : State :=
  s.when (decide (m.sm ≠ [])) fun s => s.each (List.range 16) fun i s => s.wr (Reg.PTP_SM i) (m.sm.getD i 0)

theorem State.showMetadata_clk (s : State) (m : Announce) : (s.showMetadata m).clk = s.clk := by
  have written (l : List Nat) : ∀ x : State, (x.each l fun i s => s.wr (Reg.PTP_SM i) (m.sm.getD i 0)).clk = x.clk := by
    induction l with
    | nil => exact fun _ => rfl
    | cons i l ih => exact fun x => (ih _).trans (State.wr_clk ..)
  unfold State.showMetadata State.when
  split
  · exact written _ s
  · rfl

/-- The foreign-master table with the sender of `m` put first (R326). -/
def State.remembering (s : State) (m : Announce) : State :=
  { s with clk := { s.clk with foreign := m :: s.clk.foreign.filter fun f => !(f.sender == m.sender && f.port == m.port) } }

/-- An Announce taken stands in the foreign-master table where its port has room, and the best master is followed (R326). -/
theorem execAnnounceRx_taken {dt : Nat} {m : Announce} {s : State} (off : s.island = false)
    (hears : s.ptpHears m.port = true) (good : s.announceOk m = true)
    (room : ((s.clk.foreign.filter fun f => !(f.sender == m.sender && f.port == m.port)).filter fun f =>
      f.port == m.port).length < 16) :
    exec (.announceRx dt m) s = done (((s.elapse dt).remembering m).showMetadata m).followBest := by
  have free : decide (16 ≤ (((s.elapse dt).clk.foreign.filter fun f => !(f.sender == m.sender && f.port == m.port)).filter fun f =>
      f.port == m.port).length) = false := decide_eq_false (Nat.not_le.mpr room)
  show execAnnounceRx dt m s = _
  unfold execAnnounceRx
  dsimp only
  rw [if_neg (by simp [off, hears]), if_neg (by simp [good]), free]
  rfl

/-- Settles O25: a message is discarded with one `bump`, or it comes to `syncMeasured`, `pathDelay` or `followBest`; what the
servo and the time state do with the offset is `ServoOnly`, which leaves what a measurement shows. -/
theorem ptpMessages : Obligations.PtpMessages := by
  refine ⟨?_, ?_, ?_, ?_, ?_⟩
  · intro dt s off
    obtain ⟨sync, announce, response, request⟩ := exec_discarded (dt := dt) off
    exact ⟨fun m hears bad => .of_discard (sync m hears bad), fun m hears bad => .of_discard (announce m hears bad),
      fun dom seq at_ corr sup bad => .of_discard (response dom seq at_ corr sup bad),
      fun port dom corr sup begun running hears bad => .of_discard (request port dom corr sup begun running hears bad)⟩
  · intro dt m b s off hears good master sender port
    have run := execSyncRx_followed (dt := dt) off hears good master sender port
    refine ⟨fun two => ?_, fun one => ?_⟩
    · refine Completes.of_done (run.trans (if_pos two)) ⟨?_, (State.regsBut_of_regs rfl).settle⟩
      rw [State.settle_clk, State.freshId_clk]
    · obtain ⟨counted, shown, -⟩ := (s.elapse dt).syncMeasured_shows (s.elapse dt).portStamp m.origin m.correction
      refine Completes.of_done (run.trans (if_neg (by simp [one]))) ⟨?_, ?_⟩
      · rw [State.settle_rdN _ _ (by decide), State.rdN_freshId, counted, State.rdN_elapse]
      · rw [State.settle_rd _ _ (by decide), State.rd_freshId, shown, State.elapse_doff, State.rd_elapse]
  · intro dt m b rx origin correction s waits master sender port
    have measured := State.syncMeasured_shows ({ s.elapse dt with clk := { (s.elapse dt).clk with waitFollow := none } } : State)
      rx origin (m.correction + correction)
    obtain ⟨counted, shown, gone⟩ := measured
    refine Completes.of_done (execFollowUpRx_followed waits master sender port origin correction) ⟨?_, ?_, ?_⟩
    · rw [State.settle_clk]
      exact gone
    · rw [State.settle_rdN _ _ (by decide)]
      exact counted
    · rw [State.settle_rd _ _ (by decide)]
      exact shown
  · intro dt dom at_ corr sent sup s off good asked
    dsimp only
    have delay := State.pathDelay_shows ({ s.elapse dt with clk := { (s.elapse dt).clk with dreqAt := none } } : State)
      ((s.elapse dt).delayMeasured sent at_ corr)
    obtain ⟨first, shown, frame⟩ := delay
    refine Completes.of_done (execDelayRespRx_present off good asked) ⟨?_, ?_, State.regsBut.settle frame⟩
    · rw [State.settle_clk]
      exact first
    · rw [State.settle_rd _ _ (by decide)]
      exact shown
  · intro dt m s off hears good room
    have clock := ((s.elapse dt).remembering m).showMetadata_clk m
    refine Completes.of_done (execAnnounceRx_taken off hears good room) ⟨?_, ?_, ?_⟩
    · rw [State.settle_clk, State.followBest_clk, clock]
      exact List.mem_cons_self
    · rw [State.settle_clk, State.followBest_clk, bestAnnounce_isSome, clock]
      rfl
    · rw [State.settle_bit _ _ _ (by decide), State.followBest_seen, clock]
      rfl

/-! ## Requests, responses and timeouts (R327, R328) -/

/-- With the sub-port in service and room in the class, a frame handed to it stands last in the queue (R302). -/
theorem State.toSub_queue {s : State} {p i cls : Nat} (len : Nat) (x : Sent) (up : s.subUp p i = true)
    (room : s.classRoom p cls = true) : (s.toSub p i cls len x).egr.queue =
      s.egr.queue ++ [⟨p, i, cls, 0, false, 0, max 64 len, 0, false, false, [], x⟩] := by
  simp [State.toSub, up, room, State.enqueueFrame]

/-- The active PTP port (R326). -/
def State.activePort (s : State) : Nat :=
  if s.bit Reg.PTP_STATUS 4 then s.fld Reg.PTP_PORTS 12 8 else s.fld Reg.PTP_PORTS 4 0

/-- The next delay request is under way: its sequence number is the present one, and it has not left. -/
def State.asking (s : State) : State :=
  { s with clk := { s.clk with dreqSeq := (s.clk.dreqSeq + 1) % 65536, dreqAt := none } }

theorem execDelayReqSend_eq {dt : Nat} {s : State} (off : s.island = false) (begun : 5 ≤ s.phase) (running : s.halted = false) :
    exec (.delayReqSend dt) s = done ((s.elapse dt).asking.toSub (s.activePort / 4 % 8) (s.activePort % 4) 7 Config.ptpLength
      (.ptp (if s.bit Reg.PTP_CTRL 2 then 2 else 1) s.activePort ((s.clk.dreqSeq + 1) % 65536 : Nat))) :=
  if_neg (by simp [off, running, Nat.not_lt.mpr begun])

theorem execPdelayReqRx_eq {dt port dom sup : Nat} {s : State} (corr : Int) (off : s.island = false) (begun : 5 ≤ s.phase)
    (running : s.halted = false) (hears : s.ptpHears port = true) (good : s.ptpAccepts dom (s.ptpUdp sup) = true)
    (peer : s.bit Reg.PTP_CTRL 2 = true) : exec (.pdelayReqRx dt port dom corr sup) s =
      done ((s.elapse dt).toSub (port / 4 % 8) (port % 4) 7 Config.ptpLength
        (.ptp 3 port (corr - (s.elapse dt).portStamp))).freshId := by
  show execPdelayReqRx dt port dom corr sup s = _
  simp [execPdelayReqRx, off, running, hears, good, peer, Nat.not_lt.mpr begun]

/-! ## PPS_OUT (R332) -/

/-- The whole second of PTP-visible time nearest to now. -/
def State.ppsSecond (s : State) : Int := (s.ptpNow + 500000000) / 1000000000

/-- No second so late has been marked. -/
def State.ppsFresh (s : State) : Bool :=
  match s.clk.ppsMarked with
  | none => true
  | some m => decide (m < s.ppsSecond)

theorem State.ppsFresh_iff (s : State) : s.ppsFresh = true ↔ ∀ m, s.clk.ppsMarked = some m → m < s.ppsSecond := by
  unfold State.ppsFresh
  split
  case h_1 none => simp [none]
  case h_2 m some => simp [some]

/-- The pulse that marks the second, and the record of it. -/
def State.ppsPulse (s : State) : State :=
  ({ s with clk := { s.clk with
    ppsMarked := some s.ppsSecond, ppsUntil := s.ns + s.fld Reg.PPS_CTRL 9 0 * 1000000 } }).send
      (.pps s.ppsSecond (s.fld Reg.PPS_CTRL 9 0))

theorem execPpsOutSecond_eq (dt : Nat) (s : State) : exec (.ppsOutSecond dt) s =
    let x := s.elapse dt
    if x.bit Reg.PPS_CTRL 31 ∧ (x.phase = 7 ∨ x.phase = 8 ∨ x.phase = 9) ∧
        (x.ptpNow - x.ppsSecond * 1000000000).natAbs ≤ 4 ∧ (x.timeLocked ∨ x.bit Reg.PPS_CTRL 30) ∧ x.ppsFresh then
      done x.ppsPulse
    else done x := rfl

/-- Settles O26: a request or response is one frame handed over by `toSub`, a lost master is `masterLost`, and PPS_OUT is
`ppsPulse`. -/
theorem ptpSendsAndTimeouts : Obligations.PtpSendsAndTimeouts := by
  refine ⟨?_, ?_, ?_, ?_⟩
  · intro dt s off begun running port up room
    have queued := State.toSub_queue (s := (s.elapse dt).asking) Config.ptpLength
      (.ptp (if s.bit Reg.PTP_CTRL 2 then 2 else 1) port ((s.clk.dreqSeq + 1) % 65536 : Nat)) up room
    exact Completes.of_done (execDelayReqSend_eq off begun running)
      ⟨_, (congrArg Egress.queue (State.settle_egr _)).trans queued, rfl, rfl, rfl, rfl⟩
  · intro dt port dom corr sup s off begun running hears good peer up room
    have queued := State.toSub_queue (s := s.elapse dt) Config.ptpLength (.ptp 3 port (corr - (s.elapse dt).portStamp)) up room
    exact Completes.of_done (execPdelayReqRx_eq corr off begun running hears good peer)
      ⟨_, (congrArg Egress.queue (State.settle_egr _)).trans queued, rfl, rfl⟩
  · intro dt s off left
    obtain ⟨foreign, master⟩ := ((s.elapse dt).bump Reg.PTP_ANN_TIMEOUT).masterLost_masters
    have seen := ((s.elapse dt).bump Reg.PTP_ANN_TIMEOUT).masterLost_seen
    have gone : ((s.elapse dt).bump Reg.PTP_ANN_TIMEOUT).mastersLeft = left := rfl
    have primary : ((s.elapse dt).bump Reg.PTP_ANN_TIMEOUT).fld Reg.PTP_PORTS 4 0 = s.fld Reg.PTP_PORTS 4 0 :=
      State.fld_of (State.rd_bump_other _ _ _ _ (by decide)) 4 0
    rw [gone] at foreign master seen
    refine Completes.of_done (u := ((s.elapse dt).bump Reg.PTP_ANN_TIMEOUT).masterLost) (if_neg (by simp [off]))
      ⟨?_, ?_, ?_, fun none ever => ?_, ?_⟩
    · rw [State.settle_clk, foreign]
    · rw [State.settle_clk, master, primary]
    · rw [State.settle_bit _ _ _ (by decide), seen]
    · rw [State.timeState_settle]
      exact State.timeState_masterLost (gone.trans none) ever
    · rw [State.settle_rdN _ _ (by decide), State.rdN_of (State.rd_masterLost_other _ (by decide) (by decide)),
        State.rdN_bump, State.rdN_elapse]
  · intro dt s sec enabled running locked fresh near
    have locked' : (s.elapse dt).timeLocked = true ∨ (s.elapse dt).bit Reg.PPS_CTRL 30 = true := by
      change ((s.timeState == 2 || s.timeState == 4) = true) ∨ s.bit Reg.PPS_CTRL 30 = true
      rw [Bool.or_eq_true, beq_iff_eq, beq_iff_eq]
      exact or_assoc.mpr locked
    have due := (s.elapse dt).ppsFresh_iff.mpr fresh
    exact Completes.of_done ((execPpsOutSecond_eq dt s).trans (if_pos ⟨enabled, running, near, locked', due⟩))
      ⟨congrArg Clock.ppsMarked (State.settle_clk _), State.settle_sent _, (State.regsBut_of_regs rfl).settle⟩

/-! ## PPS_IN (R332, R333) -/

/-- What a good edge stamped `t` leaves noted: it is the latest, one more of its run, and the edges have not stopped. -/
def State.ppsNoted (s : State) (t : Int) : State :=
  { s with clk := { s.clk with ppsGood := some t, ppsRun := s.clk.ppsRun + 1, ppsStopped := false } }

/-- The offset that a good edge shows is taken out, or by the first edge of all the seconds count given (R333). -/
def State.ppsTaken (s : State) (t : Int) : State :=
  let x := (s.ppsNoted t).when s.clk.ppsStopped fun s => s.raiseT 1012 3
  if s.clk.ppsGood.isNone && decide (s.phase = 6) then
    x.doffStep ((x.rd64 Reg.ISLAND_SEC_LO : Int) * 1000000000 - t - x.clk.doff)
  else x.takeOffset (x.ppsError t)

theorem State.ppsGoodEdge_eq (s : State) (t : Int) : s.ppsGoodEdge t =
    (s.ppsTaken t).when (decide (4 ≤ (s.ppsTaken t).clk.ppsRun) && (s.ppsTaken t).timeState != 4) fun s => s.lockTime 4 := rfl

theorem State.ppsTaken_servoOnly (s : State) (t : Int) : ServoOnly (s.ppsNoted t) (s.ppsTaken t) := by
  have noted : ServoOnly (s.ppsNoted t) ((s.ppsNoted t).when s.clk.ppsStopped fun s => s.raiseT 1012 3) :=
    (ServoOnly.refl _).when fun _ h => h.raiseT _ _
  unfold State.ppsTaken
  dsimp only
  split
  · exact noted.trans (State.doffStep_servoOnly _ _)
  · exact noted.trans (State.takeOffset_servoOnly _ _)

theorem State.ppsGoodEdge_servoOnly (s : State) (t : Int) : ServoOnly (s.ppsNoted t) (s.ppsGoodEdge t) := by
  rw [State.ppsGoodEdge_eq]
  exact (s.ppsTaken_servoOnly t).when fun x h => h.trans (x.lockTime_servoOnly 4)

/-- The fourth edge of a run, or a later one, gives ISLAND. -/
theorem State.timeState_ppsGoodEdge {s : State} (t : Int) (third : 3 ≤ s.clk.ppsRun) : (s.ppsGoodEdge t).timeState = 4 := by
  have run : (s.ppsTaken t).clk.ppsRun = s.clk.ppsRun + 1 := (s.ppsTaken_servoOnly t).ppsRun
  rw [State.ppsGoodEdge_eq, run, decide_eq_true (by omega), Bool.true_and, State.when]
  split
  · exact State.timeState_lockTime _ (by decide)
  case isFalse already => simpa using already

theorem State.doffStep_doff (s : State) (d : Int) : (s.doffStep d).clk.doff = s.clk.doff + d := by
  unfold State.doffStep State.when
  dsimp only
  split
  · rw [State.raiseT_clk, State.setBit_clk, State.bump_clk]
  · rfl

theorem State.servo_doff (s : State) (off : Int) (slews : Bool) : (s.servo off slews).clk.doff = s.clk.doff := by
  unfold State.servo
  dsimp only
  rw [State.setBit_clk]

/-- A unit not yet LIVE takes an offset out of DOFF in full (R329). -/
theorem State.takeOffset_doff_of_not_live {s : State} (off : Int) (early : s.live = false) :
    (s.takeOffset off).clk.doff = s.clk.doff - off := by
  rw [State.takeOffset, if_pos (by simp [early]), State.servo_doff, State.doffStep_doff, Int.sub_eq_add_neg]

theorem State.ppsError_of_doff {s u : State} (h : u.clk.doff = s.clk.doff) (t : Int) : u.ppsError t = s.ppsError t := by
  unfold State.ppsError; rw [h]

theorem State.live_of_status {s u : State} (h : u.rd Reg.EMG_STATUS = s.rd Reg.EMG_STATUS) : u.live = s.live := by
  unfold State.live State.phase; rw [State.fld_of h]

theorem State.ppsGoodEdge_doff {s : State} {x : Int} (t : Int) (after : s.clk.ppsGood = some x) (early : s.live = false) :
    (s.ppsGoodEdge t).clk.doff = s.clk.doff - s.ppsError t := by
  have taken : (s.ppsTaken t).clk.doff = s.clk.doff - s.ppsError t := by
    rw [State.ppsTaken, after]
    have doff := congrArg Clock.doff ((s.ppsNoted t).when_raiseT_clk s.clk.ppsStopped 1012 3)
    have live := (State.live_of_status ((s.ppsNoted t).rd_when_raiseT s.clk.ppsStopped 1012 3 _)).trans early
    refine (State.takeOffset_doff_of_not_live _ live).trans ?_
    rw [doff, State.ppsError_of_doff doff]
    rfl
  rw [State.ppsGoodEdge_eq, State.when]
  split
  · rw [State.lockTime_doff, taken]
  · exact taken

/-- The edge timestamped, with its distance from the second (R332). -/
def State.ppsStamped (s : State) : State :=
  ((s.wrN Reg.PPS_IN_LAST (s.portStamp % 4294967296).toNat).wrI Reg.PPS_IN_ERR (s.ppsError s.portStamp)).freshId

/-- An edge `err` from the second, stamped `t`, is good (R333). -/
def State.ppsAccepts (s : State) (err t : Int) : Bool :=
  match s.clk.ppsGood with
  | none => decide (s.phase = 6) || decide (err.natAbs ≤ 1000000)
  | some g => decide (err.natAbs ≤ 1000000) && decide (g + 999000000 ≤ t)

theorem execPpsInEdge_eq (dt : Nat) (s : State) : exec (.ppsInEdge dt) s =
    let x := s.elapse dt
    let y := x.ppsStamped
    if !y.island ∨ y.phase < 6 ∨ y.halted then done y
    else if y.ppsAccepts (x.ppsError x.portStamp) x.portStamp then done (y.ppsGoodEdge x.portStamp)
    else done ((y.bump Reg.PPS_IN_GLITCH).raiseT 1012 2) := rfl

@[simp] theorem State.ppsStamped_clk (s : State) : s.ppsStamped.clk = s.clk := by
  rw [State.ppsStamped, State.freshId_clk, State.wrI_clk, State.wrN_clk]

theorem State.rd_ppsStamped_other (s : State) {a : Nat} (last : a ≠ Reg.PPS_IN_LAST) (err : a ≠ Reg.PPS_IN_ERR) :
    s.ppsStamped.rd a = s.rd a := by
  rw [State.ppsStamped, State.rd_freshId, State.wrI, State.rd_wr_other _ _ _ _ err, State.rd_wrN_other _ _ _ _ last]

theorem State.ppsStamped_shows (s : State) : s.ppsStamped.rdN Reg.PPS_IN_LAST = (s.portStamp % 4294967296).toNat ∧
    s.ppsStamped.rd Reg.PPS_IN_ERR = BitVec.ofInt 32 (s.ppsError s.portStamp) := by
  constructor
  · rw [State.rdN, State.ppsStamped, State.rd_freshId, State.wrI, State.rd_wr_other _ _ _ _ (by decide),
      State.rd_wrN_self, BitVec.toNat_ofNat]
    omega
  · rw [State.ppsStamped, State.rd_freshId, State.wrI, State.rd_wr_self]

/-- In island mode from E6 on an edge after a good one is good, or a glitch (R333). -/
theorem execPpsInEdge_after {dt : Nat} {x : Int} {s : State} (island : s.island = true) (begun : 6 ≤ s.phase)
    (running : s.halted = false) (good : s.clk.ppsGood = some x) : exec (.ppsInEdge dt) s =
      let u := s.elapse dt
      if (u.ppsError u.portStamp).natAbs ≤ 1000000 ∧ x + 999000000 ≤ u.portStamp then
        done (u.ppsStamped.ppsGoodEdge u.portStamp)
      else done ((u.ppsStamped.bump Reg.PPS_IN_GLITCH).raiseT 1012 2) := by
  have status : (s.elapse dt).ppsStamped.rd Reg.EMG_STATUS = s.rd Reg.EMG_STATUS :=
    State.rd_ppsStamped_other _ (by decide) (by decide)
  have on : (s.elapse dt).ppsStamped.island = true :=
    (State.bit_of (State.rd_ppsStamped_other _ (by decide) (by decide)) 0).trans island
  have phase : (s.elapse dt).ppsStamped.phase = s.phase := State.fld_of status 3 0
  have halted : (s.elapse dt).ppsStamped.halted = false := by rw [← running, State.halted, phase, State.halted]
  have last : (s.elapse dt).clk.ppsGood = some x := good
  rw [execPpsInEdge_eq]
  simp [on, halted, phase, Nat.not_lt.mpr begun, State.ppsAccepts, last]

/-- The edges have stopped: the run ends. -/
def State.ppsSilent (s : State) : State := { s with clk := { s.clk with ppsStopped := true, ppsRun := 0 } }

theorem execPpsStop_silent {dt : Nat} {x : Int} {s : State} (island : s.island = true) (good : s.clk.ppsGood = some x)
    (unstopped : s.clk.ppsStopped = false) (silent : x + 1100000000 ≤ (s.elapse dt).now) :
    exec (.ppsStop dt) s = done (((s.elapse dt).ppsSilent.holdInc.setTime 5).raiseT 1012 1) := by
  have last : (s.elapse dt).clk.ppsGood = some x := good
  have running : (s.elapse dt).clk.ppsStopped = false := unstopped
  exact if_neg (by simp [island, last, running, silent])

/-- Settles O27: every edge is `ppsStamped`; a good one is then `ppsGoodEdge`, whose measurement is `ServoOnly` and whose fourth
locks, and a glitch is counted alone. A pulse goes out only for a `ppsFresh` second. -/
theorem ppsInputAndOutput : Obligations.PpsInputAndOutput := by
  refine ⟨?_, ?_, ?_, ?_, ?_⟩
  · intro dt s
    obtain ⟨stamped, -⟩ := (s.elapse dt).ppsStamped_shows
    have unread : ¬ eventReg Reg.PPS_IN_LAST := by decide
    have run := execPpsInEdge_eq dt s
    dsimp only at run
    split at run
    · exact .of_done run (by rw [State.settle_rdN _ _ unread, stamped])
    · split at run
      · refine .of_done run ?_
        have kept := ((s.elapse dt).ppsStamped.ppsGoodEdge_servoOnly (s.elapse dt).portStamp).rd Reg.PPS_IN_LAST (by decide)
        rw [State.settle_rdN _ _ unread, State.rdN_of kept]
        exact stamped
      · refine .of_done run ?_
        rw [State.settle_rdN _ _ unread, State.rdN_raiseT, State.rdN_of (State.rd_bump_other _ _ _ _ (by decide)), stamped]
  · intro dt x s island begun running good far
    refine Completes.of_done ((execPpsInEdge_after island begun running good).trans (if_neg fun near => ?_)) ⟨?_, ?_, ?_⟩
    · exact Nat.not_le.mpr far near.1
    · rw [State.settle_clk, State.raiseT_clk, State.bump_clk, State.ppsStamped_clk]
      rfl
    · rw [State.settle_clk, State.raiseT_clk, State.bump_clk, State.ppsStamped_clk]
      exact good
    · have before : (s.elapse dt).ppsStamped.rd Reg.PPS_IN_GLITCH = s.rd Reg.PPS_IN_GLITCH :=
        State.rd_ppsStamped_other _ (by decide) (by decide)
      rw [State.settle_rdN _ _ (by decide), State.rdN_raiseT, State.rdN_bump, State.rdN_of before]
  · intro dt x s island begun running good near late
    obtain ⟨-, shown⟩ := (s.elapse dt).ppsStamped_shows
    have clock : (s.elapse dt).ppsStamped.clk = (s.elapse dt).clk := State.ppsStamped_clk _
    have kept := (s.elapse dt).ppsStamped.ppsGoodEdge_servoOnly (s.elapse dt).portStamp
    refine Completes.of_done ((execPpsInEdge_after island begun running good).trans (if_pos ⟨near, late⟩))
      ⟨?_, ?_, ?_, ?_, fun third => ?_, fun early => ?_⟩
    · rw [State.settle_clk, kept.ppsGood]
      rfl
    · rw [State.settle_clk, kept.ppsRun, State.ppsNoted, clock]
      rfl
    · rw [State.settle_clk, kept.ppsStopped]
      rfl
    · rw [State.settle_rd _ _ (by decide), kept.rd _ (by decide)]
      exact shown
    · rw [State.timeState_settle]
      refine State.timeState_ppsGoodEdge _ ?_
      rw [clock]
      exact third
    · have still : (s.elapse dt).ppsStamped.live = false :=
        (State.live_of_status (State.rd_ppsStamped_other _ (by decide) (by decide))).trans early
      have after : (s.elapse dt).ppsStamped.clk.ppsGood = some x := by rw [clock]; exact good
      rw [State.settle_clk, State.ppsGoodEdge_doff _ after still, State.ppsError_of_doff (congrArg Clock.doff clock), clock]
      rfl
  · intro dt x s island good unstopped silent
    refine Completes.of_done (execPpsStop_silent island good unstopped silent) ⟨?_, ?_, ?_⟩
    · rw [State.settle_clk, State.raiseT_clk, State.setTime_clk, State.holdInc_clk]
      rfl
    · rw [State.settle_clk, State.raiseT_clk, State.setTime_clk, State.holdInc_clk]
      rfl
    · rw [State.timeState_settle]
      exact State.timeState_setTime _ (by decide)
  · intro dt s t run
    rw [execPpsOutSecond_eq] at run
    dsimp only at run
    split at run
    case isTrue due =>
      obtain ⟨-, -, -, -, fresh⟩ := due
      obtain rfl := Host.Outcome.next.inj run
      exact .inr ⟨_, _, State.settle_sent _, congrArg Clock.ppsMarked (State.settle_clk _), (State.ppsFresh_iff _).mp fresh⟩
    case isFalse =>
      obtain rfl := Host.Outcome.next.inj run
      exact .inl ⟨State.settle_sent _, by rw [State.settle_clk]; rfl⟩

end Sys2Proof.Machine
end

section
/-! PROOFS. Scope: the faults and the qualification of the reference clocks, and the pilot (R335 to R338). -/

namespace Sys2Proof.Machine

/-! ## Reference clocks (R335 to R338) -/

/-- The fault `kind` of reference `r` is noted: QUAL falls, the flag rises, source 1011. -/
def State.refNoted (s : State) (r kind : Nat) : State :=
  (((s.setBit Reg.REF_STATUS (8 * r) false).setBit Reg.REF_STATUS (8 * r + 1) false).setBit Reg.REF_STATUS
    (8 * r + kind) true).raiseT 1011 (256 * r + kind)

@[simp] theorem State.refNoted_emg (s : State) (r kind : Nat) : (s.refNoted r kind).emg = s.emg := by
  simp only [State.refNoted, State.raiseT_emg, State.setBit_emg]

theorem State.rd_refNoted_other (s : State) (r kind : Nat) {a : Nat} (h : a ≠ Reg.REF_STATUS) :
    (s.refNoted r kind).rd a = s.rd a := by
  rw [State.refNoted, State.rd_raiseT, State.rd_setBit_other _ _ _ _ _ h, State.rd_setBit_other _ _ _ _ _ h,
    State.rd_setBit_other _ _ _ _ _ h]

section
variable {s : State} {r kind : Nat} (hr : r < 2) (hk : 0 < kind ∧ kind < 4)
include hr hk

theorem State.refNoted_flags : (s.refNoted r kind).bit Reg.REF_STATUS (8 * r) = false ∧
    (s.refNoted r kind).bit Reg.REF_STATUS (8 * r + kind) = true := by
  constructor
  · rw [State.refNoted, State.bit_raiseT, State.bit_setBit_apart _ _ _ (by omega) (by omega),
      State.bit_setBit_apart _ _ _ (by omega) (by omega), State.bit_setBit _ _ _ _ (by omega)]
  · rw [State.refNoted, State.bit_raiseT, State.bit_setBit _ _ _ _ (by omega)]

theorem State.refNoted_fld_above {hi lo : Nat} (above : 8 * r + 3 < lo) :
    (s.refNoted r kind).fld Reg.REF_STATUS hi lo = s.fld Reg.REF_STATUS hi lo := by
  simp only [State.refNoted, State.fld_raiseT, State.setBit]
  rw [State.fld_setFld_apart _ _ _ _ _ _ _ (by omega) (by omega) (by omega),
    State.fld_setFld_apart _ _ _ _ _ _ _ (by omega) (by omega) (by omega),
    State.fld_setFld_apart _ _ _ _ _ _ _ (by omega) (by omega) (by omega)]

theorem State.refNoted_refSel : (s.refNoted r kind).refSel = s.refSel := State.refNoted_fld_above hr hk (by omega)

theorem State.refNoted_otherQual : (s.refNoted r kind).refQual (1 - r) = s.refQual (1 - r) := by
  simp only [State.refQual, State.refNoted, State.bit_raiseT]
  rw [State.bit_setBit_apart _ _ _ (by omega) (by omega), State.bit_setBit_apart _ _ _ (by omega) (by omega),
    State.bit_setBit_apart _ _ _ (by omega) (by omega)]

/-- What a fault leads to (R336, R338). -/
theorem State.refFault_eq (judged : s.refsJudged = true) : s.refFault r kind =
    if s.refSel ≠ r then s.refNoted r kind
    else if s.refQual (1 - r) = true then (s.refNoted r kind).selectRef (1 - r) true
    else (s.refNoted r kind).snuffAndReset 3 := by
  rw [← State.refNoted_refSel hr hk, ← State.refNoted_otherQual hr hk, State.refFault, if_neg (by simp [judged])]
  rfl

end

theorem State.rd_selectRef_other (s : State) (x : Nat) (count : Bool) {a : Nat} (status : a ≠ Reg.REF_STATUS)
    (switches : a ≠ Reg.REF_SWITCHES) : (s.selectRef x count).rd a = s.rd a := by
  unfold State.selectRef State.when
  dsimp only
  split
  · rw [State.rd_bump_other _ _ _ _ switches, State.rd_raiseT, State.rd_setFld_other _ _ _ _ _ _ status]
  · rw [State.rd_raiseT, State.rd_setFld_other _ _ _ _ _ _ status]

/-- REF_STATUS shows the selection; everything below it stays. -/
theorem State.rd_selectRef_status (s : State) (x : Nat) (count : Bool) :
    (s.selectRef x count).rd Reg.REF_STATUS = (s.setFld Reg.REF_STATUS 17 16 x).rd Reg.REF_STATUS := by
  unfold State.selectRef State.when
  dsimp only
  split
  · rw [State.rd_bump_other _ _ _ _ (by decide), State.rd_raiseT]
  · rw [State.rd_raiseT]

theorem State.selectRef_refSel (s : State) {x : Nat} (count : Bool) (h : x < 4) : (s.selectRef x count).refSel = x := by
  rw [State.refSel, State.fld_of (s.rd_selectRef_status x count), State.fld_setFld _ _ _ _ _ (by decide) (by decide)]
  exact Nat.mod_eq_of_lt h

theorem State.selectRef_fld_below (s : State) (x : Nat) (count : Bool) {hi lo : Nat} (below : hi < 16) :
    (s.selectRef x count).fld Reg.REF_STATUS hi lo = s.fld Reg.REF_STATUS hi lo := by
  rw [State.fld_of (s.rd_selectRef_status x count),
    State.fld_setFld_apart _ _ _ _ _ _ _ (by decide) (by decide) (.inl below)]

theorem State.selectRef_bit_below (s : State) (x : Nat) (count : Bool) {i : Nat} (below : i < 16) :
    (s.selectRef x count).bit Reg.REF_STATUS i = s.bit Reg.REF_STATUS i := by
  rw [State.bit, State.selectRef_fld_below s x count below, State.bit]

@[simp] theorem State.selectRef_emg (s : State) (x : Nat) (count : Bool) : (s.selectRef x count).emg = s.emg := by
  unfold State.selectRef State.when
  dsimp only
  split
  · rw [State.bump_emg, State.raiseT_emg, State.setFld_emg]
  · rw [State.raiseT_emg, State.setFld_emg]

theorem State.selectRef_switches (s : State) (x : Nat) :
    (s.selectRef x true).rdN Reg.REF_SWITCHES = (s.rdN Reg.REF_SWITCHES + 1) % 4294967296 := by
  rw [State.selectRef, State.when, if_pos rfl, State.rdN_bump, State.rdN_raiseT,
    State.rdN_of (State.rd_setFld_other _ _ _ _ _ _ (by decide))]

/-- A stop, a glitch, and an estimate beyond both limits are faults of their kinds; an estimate also writes its register. -/
theorem exec_refFault {dt : Nat} {r : Fin 2} {e : Int} {s : State} (judged : s.refsJudged = true) (pilot : 2000 < e.natAbs)
    (other : s.refQual (1 - r.val) = true →
      2000 < (e - (s.rd (if r.val = 0 then Reg.REF_FREQ_B else Reg.REF_FREQ_A)).toInt).natAbs)
    {i : Instr} {k : Nat} (fault : (i, k) ∈ [(Instr.refclkStop dt r, 1), (.refclkGlitch dt r, 2), (.refclkRateChange dt r e, 3)]) :
    (0 < k ∧ k < 4) ∧ ∃ x : State, exec i s = done (x.refFault r.val k) ∧ x.emg = s.emg ∧
      ∀ a, a ∉ [Reg.REF_FREQ_A, Reg.REF_FREQ_B] → x.rd a = s.rd a := by
  simp only [List.mem_cons, List.not_mem_nil, or_false, Prod.mk.injEq] at fault
  rcases fault with ⟨rfl, rfl⟩ | ⟨rfl, rfl⟩ | ⟨rfl, rfl⟩
  · exact ⟨by decide, s.elapse dt, rfl, rfl, fun _ _ => rfl⟩
  · exact ⟨by decide, s.elapse dt, rfl, rfl, fun _ _ => rfl⟩
  · obtain ⟨a, shown, ha⟩ : ∃ a, a = (if r.val = 0 then Reg.REF_FREQ_A else Reg.REF_FREQ_B) ∧
        a ∈ [Reg.REF_FREQ_A, Reg.REF_FREQ_B] := ⟨_, rfl, by split <;> simp⟩
    have kept : ∀ b, b ∉ [Reg.REF_FREQ_A, Reg.REF_FREQ_B] → ((s.elapse dt).wrI a e).rd b = s.rd b := fun b out =>
      State.rd_wr_other _ a b _ fun eq => out (eq ▸ ha)
    have qual : ((s.elapse dt).wrI a e).refQual (1 - r.val) = s.refQual (1 - r.val) :=
      State.bit_of (kept _ (by decide)) _
    refine ⟨by decide, (s.elapse dt).wrI a e, ?_, rfl, kept⟩
    have begun : (s.elapse dt).refsJudged = true := judged
    show execRefclkRateChange dt r e s = _
    rw [execRefclkRateChange, begun, State.when, if_pos rfl, ← shown]
    exact if_pos ⟨pilot, by rw [qual]; exact other⟩

/-- The reference shows QUAL with its flags cleared, and source 1011 where one was set. -/
def State.refQualified (s : State) (r : Nat) : State :=
  (s.setFld Reg.REF_STATUS (8 * r + 3) (8 * r) 1).when (decide (s.fld Reg.REF_STATUS (8 * r + 3) (8 * r + 1) ≠ 0)) fun s =>
    s.raiseT 1011 (256 * r + 4)

theorem State.rd_refQualified (s : State) (r a : Nat) :
    (s.refQualified r).rd a = (s.setFld Reg.REF_STATUS (8 * r + 3) (8 * r) 1).rd a := by
  unfold State.refQualified State.when
  split <;> rfl

theorem State.refQualified_refSel (s : State) {r : Nat} (hr : r < 2) : (s.refQualified r).refSel = s.refSel := by
  rw [State.refSel, State.fld_of (s.rd_refQualified r _),
    State.fld_setFld_apart _ _ _ _ _ _ _ (by omega) (by omega) (by omega), State.refSel]

theorem State.refQualified_fld (s : State) {r : Nat} (hr : r < 2) :
    (s.refQualified r).fld Reg.REF_STATUS (8 * r + 3) (8 * r) = 1 := by
  rw [State.fld_of (s.rd_refQualified r _), State.fld_setFld _ _ _ _ _ (by omega) (by omega)]
  exact Nat.mod_eq_of_lt (Nat.one_lt_two_pow (by omega))

theorem State.regsBut_refQualified (s : State) (r : Nat) :
    s.regsBut (s.refQualified r) [Reg.REF_STATUS, Reg.REF_SWITCHES] := fun a out _ =>
  (s.rd_refQualified r a).trans (State.rd_setFld_other _ _ _ _ _ _ fun eq => out (eq ▸ List.mem_cons_self))

theorem State.regsBut.selectRef {s t : State} (h : s.regsBut t [Reg.REF_STATUS, Reg.REF_SWITCHES]) (x : Nat) (count : Bool) :
    s.regsBut (t.selectRef x count) [Reg.REF_STATUS, Reg.REF_SWITCHES] := fun a out ev => by
  have apart : a ≠ Reg.REF_STATUS ∧ a ≠ Reg.REF_SWITCHES := by simpa using out
  exact (t.rd_selectRef_other x count apart.1 apart.2).trans (h a out ev)

/-- A reference that qualifies is selected where none was, or where the unit reverts to it (R336). -/
theorem execRefclkQualified_eq {dt : Nat} {r : Fin 2} {s : State} (judged : s.refsJudged = true) :
    (∃ count, exec (.refclkQualified dt r) s = done (((s.elapse dt).refQualified r.val).selectRef r.val count)) ∨
      s.refSel ≠ 2 ∧ exec (.refclkQualified dt r) s = done ((s.elapse dt).refQualified r.val) := by
  have begun : (s.elapse dt).refsJudged = true := judged
  have sel : ((s.elapse dt).refQualified r.val).refSel = s.refSel := State.refQualified_refSel _ r.isLt
  have unfolded : exec (.refclkQualified dt r) s =
      let q := (s.elapse dt).refQualified r.val
      if q.refSel = 2 then done (q.selectRef r.val false)
      else if q.refSel ≠ r.val ∧ q.bit Reg.REF_CTRL 1 ∧ q.fld Reg.REF_CTRL 0 0 = r.val then done (q.selectRef r.val true)
      else done q := if_neg (by simp [begun])
  rw [unfolded]
  dsimp only
  rw [sel]
  split
  · exact .inl ⟨false, rfl⟩
  case isFalse some =>
    split
    · exact .inl ⟨true, rfl⟩
    · exact .inr ⟨some, rfl⟩

/-- Settles O28: a fault is `refNoted`, and then nothing, a switch or `snuffAndReset`, as the selection and the other
reference stand; none of the registers they read is a frequency. -/
theorem referenceFaults : Obligations.ReferenceFaults := by
  refine ⟨?_, ?_, ?_⟩
  · intro dt r e s judged pilot other i k fault
    obtain ⟨hk, x, run, emg, kept⟩ := exec_refFault judged pilot other fault
    have status : x.rd Reg.REF_STATUS = s.rd Reg.REF_STATUS := kept _ (by decide)
    have sel : x.refSel = s.refSel := State.fld_of status 17 16
    have qual : x.refQual (1 - r.val) = s.refQual (1 - r.val) := State.bit_of status _
    have begun : x.refsJudged = true := by
      rw [← judged, State.refsJudged, State.halted, State.phase, State.fld_of (kept _ (by decide))]
      rfl
    have quiet : ¬ eventReg Reg.REF_STATUS := by decide
    rw [State.refFault_eq r.isLt hk begun, sel, qual] at run
    obtain ⟨fallen, raised⟩ := State.refNoted_flags (s := x) r.isLt hk
    refine ⟨fun unselected => ?_, fun selected spare => ?_, fun selected last => ?_⟩
    · rw [if_pos unselected] at run
      refine Completes.of_done run ⟨?_, ?_, ?_, ?_⟩
      · rw [State.settle_bit _ _ _ quiet, fallen]
      · rw [State.settle_bit _ _ _ quiet, raised]
      · rw [State.refSel, State.settle_fld _ _ _ _ quiet, ← sel]
        exact State.refNoted_refSel r.isLt hk
      · rw [State.settle_emg, State.refNoted_emg, emg]
    · rw [if_neg (fun other => other selected), if_pos spare] at run
      refine Completes.of_done run ⟨?_, ?_, ?_, ?_, ?_⟩
      · rw [State.refSel, State.settle_fld _ _ _ _ quiet]
        exact State.selectRef_refSel _ true (by omega)
      · rw [State.settle_bit _ _ _ quiet, State.selectRef_bit_below _ _ _ (by omega), fallen]
      · rw [State.settle_bit _ _ _ quiet, State.selectRef_bit_below _ _ _ (by omega), raised]
      · rw [State.settle_emg, State.selectRef_emg, State.refNoted_emg, emg]
      · have switches : (x.refNoted r.val k).rd Reg.REF_SWITCHES = s.rd Reg.REF_SWITCHES :=
          (x.rd_refNoted_other r.val k (by decide)).trans (kept _ (by decide))
        rw [State.settle_rdN _ _ (by decide), State.selectRef_switches, State.rdN_of switches]
    · rw [if_neg (fun other => other selected), if_neg (by simp [last])] at run
      refine Completes.of_done_quiet run (State.warmReset_raises _) ⟨?_, ?_, ?_⟩
      · rw [State.snuffAndReset, State.warmReset_emg]
        rfl
      · rw [State.bit, State.fld, State.snuffAndReset, State.warmReset_emgStatus]
        decide
      · rw [State.phase, State.fld, State.snuffAndReset, State.warmReset_emgStatus]
        decide
  · intro dt r s judged
    have quiet : ¬ eventReg Reg.REF_STATUS := by decide
    have shown := (s.elapse dt).refQualified_fld r.isLt
    have frame := (s.elapse dt).regsBut_refQualified r.val
    rcases execRefclkQualified_eq (dt := dt) (r := r) judged with ⟨count, run⟩ | ⟨some, run⟩
    · refine Completes.of_done run ⟨?_, fun _ => ?_, (frame.selectRef _ _).settle⟩
      · rw [State.settle_fld _ _ _ _ quiet, State.selectRef_fld_below _ _ _ (by omega), shown]
      · rw [State.refSel, State.settle_fld _ _ _ _ quiet]
        exact State.selectRef_refSel _ count (by omega)
    · refine Completes.of_done run ⟨?_, fun none => absurd none some, frame.settle⟩
      rw [State.settle_fld _ _ _ _ quiet, shown]
  · intro dt ratio s chosen
    have some : (s.elapse dt).refSel ≠ 2 := chosen
    refine Completes.of_done (u := (s.elapse dt).wrI Reg.PILOT_FREQ (Config.pilotLearn (s.rd Reg.PILOT_FREQ).toInt ratio))
      (if_neg some) ⟨?_, ?_⟩
    · rw [State.settle_rd _ _ (by decide), State.wrI, State.rd_wr_self]
    · exact State.regsBut.settle (State.regsBut.wr (State.regsBut_of_regs rfl) List.mem_cons_self)

end Sys2Proof.Machine
end

section
/-! PROOFS. Scope: a request for a handover whose partner falls silent as it comes (R366), and an input step of a join that
AUTO_RESYNC begins anew (R344, R346, R347). -/

namespace Sys2Proof.Machine

/-! ## A handover that is refused (R366) -/

theorem State.handoverOk_of_unseen {s : State} (unseen : s.partnerSeen = false) : s.handoverOk = false := by
  simp [State.handoverOk, State.partnerConfirmed, unseen]

/-- A live-permitted request is refused where, at its instant, the partner is no longer heard; it begins no handover. -/
theorem execTwnCmdHandover_of_unseen {dt : Nat} {s : State} (may : s.mayWrite Reg.TWN_CMD 31 31 = true)
    (unseen : (s.elapse dt).partnerSeen = false) :
    exec (.twnCmdHandover dt) s = done ((s.elapse dt).bump Reg.TWN_CMD_REFUSED) := by
  have may' : (s.elapse dt).mayWrite Reg.TWN_CMD 31 31 = true := may
  show execTwnCmdHandover dt s = _
  rw [execTwnCmdHandover, may', State.requestHandover, State.handoverOk_of_unseen unseen]
  rfl

/-- A holder that may write TWN_CMD; 17,999 ns ago its confirmed standby was last heard. -/
def lastHeard : State :=
  { State.reset with
      regs := [(Reg.IDN_UNIT, 2), (Reg.EMG_STATUS, 0x109), (Reg.TWN_STATUS, 0xC0000000)]
      emg := { Emg.reset with started := true, livePerms := [(Reg.TWN_CMD, 0xC0000000)] }
      clk := { Clock.reset with dtc := 17999 * 2 ^ 32 }
      twin := { Twin.reset with
        role := .holder, gatesOpen := true, partnerStatus := 15, validAt := [some 0, none, none] } }

/-- One tick later its standby has been silent for 18 µs. -/
theorem lastHeard_unseen : (lastHeard.elapse 1).partnerSeen = false := by decide +kernel

/-- Refutes O34: the request comes one tick after `lastHeard`, in which R366 would still have it accepted; the standby is then
silent, the request is refused, and no handover is under way. -/
theorem not_theFlameIsTakenAndGivenUp : ¬ Obligations.TheFlameIsTakenAndGivenUp := by
  intro ⟨_, requests, _⟩
  obtain ⟨_, accepted⟩ := requests 1 lastHeard (by decide +kernel)
  obtain ⟨t, run, underWay, _⟩ := accepted (by decide +kernel)
  have refused := execTwnCmdHandover_of_unseen (s := lastHeard) (by decide +kernel) lastHeard_unseen
  obtain rfl : ((lastHeard.elapse 1).bump Reg.TWN_CMD_REFUSED).settle = t := Host.Outcome.next.inj (refused.symm.trans run)
  rw [State.settle_twin] at underWay
  exact Bool.false_ne_true underWay

/-! ## A join that a new snapshot ends (R347, R373) -/

@[simp] theorem State.emitFrame_chans (s : State) (b : LBody) : (s.emitFrame b).chans = s.chans := by
  unfold State.emitFrame
  split <;> rfl

@[simp] theorem State.pumpLantern_chans (fuel : Nat) (s : State) : (s.pumpLantern fuel).chans = s.chans := by
  induction fuel generalizing s with
  | zero => rfl
  | succ fuel ih =>
    rw [State.pumpLantern]
    split
    · rfl
    · split
      · rfl
      · rw [ih, State.emitFrame_chans]

@[simp] theorem State.lanternSend_chans (s : State) (b : LBody) : (s.lanternSend b).chans = s.chans := by
  unfold State.lanternSend
  split
  · rfl
  · exact State.pumpLantern_chans _ _

/-- A channel that `f` leaves without items has none; one that does not exist has none in any case. -/
theorem State.items_modChan_of_nil {s : State} {n : Nat} {f : Chan → Chan} (empty : (f (s.chan n)).items = []) :
    ((s.modChan n f).chan n).items = [] := by
  rw [State.chan, List.getD_eq_getElem?_getD] at empty
  rw [State.modChan, State.chan, List.getD_eq_getElem?_getD, List.getElem?_modify_eq]
  cases there : s.chans[n]? with
  | none => rfl
  | some c => rwa [there] at empty

theorem State.dropWork_items (s : State) (n : Nat) : ((s.dropWork n).chan n).items = [] :=
  State.items_modChan_of_nil rfl

/-- A new snapshot of a channel whose join is under way forgets the items begun for that join (R373). -/
theorem State.requestSnapshot_items_of_joinOpen {s : State} {n : Nat} (join : (s.chan n).joinOpen = true) :
    ((s.requestSnapshot n).chan n).items = [] := by
  rw [State.requestSnapshot, State.chan, State.lanternSend_chans, ← State.chan, State.endJoin, if_pos join]
  exact State.items_modChan_of_nil (s.dropWork_items n)

/-- Channel `n` shown as unconfirmed, with source 962 (R346). -/
def State.shownUnconfirmed (s : State) (n : Nat) : State :=
  let was := s.confirmed n
  let s := (s.modChan n fun c => { c with confirmRun := 0 }).setConf n false
  let s := s.when (s.chanState n == 5) fun s => s.setBit (Reg.CHN_STATE n) 12 true
  s.when was fun s => s.raise 962 (n * 16777216 + 4294967296 * s.epoch)

/-- R347 has the standby ask for a snapshot of channel `n`, once it is unconfirmed. -/
def State.resyncs (s : State) (n : Nat) : Bool :=
  s.isStandby && s.bit Reg.TWN_CTRL 30 && decide (2 ≤ lanesOf s.stripe) && s.chanState n == 5 && !s.link.imageDue &&
    decide ((s.chan n).snap = Snap.none ∨ (s.chan n).snap = Snap.joined)

theorem State.unconfirm_of_resyncs {s : State} {n : Nat} (resyncs : (s.shownUnconfirmed n).resyncs n = true) :
    s.unconfirm n = (s.shownUnconfirmed n).requestSnapshot n := if_pos resyncs

/-! ## An input step that a standby fixes itself (R344) -/

/-- Item `k` repeats the one before it, as this unit's own decision. -/
def State.ownRepeat (s : State) (n k : Nat) : State :=
  (s.fixInput n k 1 0 0).modItem n k fun it => { it with own := true }

/-- The input step of a pictureless item of no rendition ends its wait as a repeat, and the channel is then unconfirmed. -/
theorem execRecordWaitTimeout_of_repeat {s : State} {dt : Nat} {n : Fin 96} {k b : Nat} {it : Item} (paired : s.paired = true)
    (here : s.item? n k = some it) (control : it.controlFixed = true) (unfixed : it.inputFixed = false)
    (unaccepted : it.accepted = false) (alone : s.inputOf n = n) (noSlate : it.dr.slateEn = false)
    (standby : ((s.elapse dt).fixInput n k 1 0 0).isStandby = true) :
    exec (.recordWaitTimeout dt n k 1 b) s = done (((s.elapse dt).ownRepeat n k).unconfirm n).pumpTakes := by
  have paired' : (s.elapse dt).paired = true := paired
  have here' : (s.elapse dt).item? n k = some it := here
  have alone' : (s.elapse dt).inputOf n = n := alone
  have ends : (s.elapse dt).waitEnds n k 1 b = ((s.elapse dt).ownRepeat n k).unconfirm n := by
    simp [State.waitEnds, here', control, unfixed, unaccepted, alone', noSlate, State.sourceOutcome, State.when, standby,
      State.ownRepeat]
  show execRecordWaitTimeout dt n k 1 b s = _
  simp [execRecordWaitTimeout, paired', ends]

/-- A standby with AUTO_RESYNC and all lanes: channel 95 has joined with the mux state, and item 9, its join item, has begun. It
still waits for the join state, and for the holder's input part of the item. -/
def joinAwaited : State :=
  let s := { State.reset with
      regs := [(Reg.IDN_UNIT, 2), (Reg.EMG_STATUS, 0x109), (Reg.TWN_CTRL, 0x40000000), (Reg.LNK_STATUS, 0xFFFFFFFF),
        (Reg.CHN_STATE 95, 0x1805), (Reg.CHN_FORMAT 95, 16 * 1024 + 16)]
      emg := { Emg.reset with started := true }
      twin := { Twin.reset with role := .standby }
      link := { Lantern.reset with up := true, everUp := true }
      chans := List.replicate 95 Chan.reset ++
        [{ Chan.reset with
            place := some ⟨[⟨7, [7], none, 100, false, 8, 1000000, 4⟩], true⟩
            snap := .joined, catchTo := some (8, 9), await := some 9, next := 9 }] }
  (s.beginItem 95).modItem 95 9 fun it => { it with controlFixed := true }

theorem joinAwaited_noneWaits : joinAwaited.noneWaits := by
  intro x mem
  exact absurd mem List.not_mem_nil

/-- Channel 95 once it is shown unconfirmed for the step that this unit fixed: R347 calls for a snapshot, while the join is still
under way. -/
theorem joinAwaited_resyncs : (((joinAwaited.elapse 0).ownRepeat 95 9).shownUnconfirmed 95).resyncs 95 = true ∧
    ((((joinAwaited.elapse 0).ownRepeat 95 9).shownUnconfirmed 95).chan 95).joinOpen = true := by decide +kernel

theorem joinAwaited_idle : (((joinAwaited.elapse 0).ownRepeat 95 9).unconfirm 95).sch.engines = [] := by decide +kernel

theorem joinAwaited_item : ∃ it, joinAwaited.item? 95 9 = some it ∧ it.controlFixed = true ∧ it.inputFixed = false ∧
    it.accepted = false ∧ it.dr.slateEn = false := ⟨_, rfl, rfl, rfl, rfl, rfl⟩

/-- The end of that wait leaves channel 95 without items. -/
theorem joinAwaited_timeout : ∃ u, exec (.recordWaitTimeout 0 95 9 1 0) joinAwaited = done u ∧ (u.chan 95).items = [] := by
  obtain ⟨it, here, control, unfixed, unaccepted, noSlate⟩ := joinAwaited_item
  obtain ⟨resyncs, join⟩ := joinAwaited_resyncs
  have idle : (((joinAwaited.elapse 0).ownRepeat 95 9).unconfirm 95).noneWaits := by
    rw [State.noneWaits, joinAwaited_idle]
    exact fun _ mem => absurd mem List.not_mem_nil
  refine ⟨(((joinAwaited.elapse 0).ownRepeat 95 9).unconfirm 95).pumpTakes,
    execRecordWaitTimeout_of_repeat (n := 95) (by decide +kernel) here control unfixed unaccepted (by decide +kernel) noSlate
      (by decide +kernel), ?_⟩
  rw [State.pumpTakes_of_noneWaits idle, State.unconfirm_of_resyncs resyncs]
  exact State.requestSnapshot_items_of_joinOpen join

/-- Refutes O48: the input step that the standby of `joinAwaited` fixes itself makes channel 95 unconfirmed, AUTO_RESYNC asks for a
new snapshot, and the join under way ends: item 9, begun for it, is gone. -/
theorem not_partnersAreComparedAndJoined : ¬ Obligations.PartnersAreComparedAndJoined := by
  intro ⟨_, _, _, _, missing⟩
  obtain ⟨it, here, control, unfixed, unaccepted, _⟩ := joinAwaited_item
  obtain ⟨_, input⟩ := missing 0 95 9 it joinAwaited here (by decide +kernel)
  obtain ⟨t, run, _, own⟩ := input (by decide +kernel) control unfixed unaccepted joinAwaited_noneWaits
  obtain ⟨u, run', empty⟩ := joinAwaited_timeout
  obtain rfl : u.settle = t := Host.Outcome.next.inj (run'.symm.trans run)
  have gone : u.settle.item? (95 : Fin 96) 9 = none := by
    show ((u.settle.chans.getD 95 Chan.reset).items.find? fun it => it.idx == 9) = none
    rw [State.settle_chans, ← State.chan, empty]
    rfl
  rw [gone] at own
  exact Option.some_ne_none _ own.symm

end Sys2Proof.Machine
end

section
/-! PROOFS. Scope: IDLE and SKIP sets, ABORT and the resend timer of the Lantern link (R389, R391, R395, R398), and a network lane
that loses lock while its port holds a frame (R316, R384, R388). -/

namespace Sys2Proof.Machine

/-! ## What a new stripe set leaves alone (R373, R374, R392, R398, R400) -/

/-- What a change of the stripe set may write: the trace of each die, with its head and its count of drops, and the Lantern
registers from LNK_STATUS to LNK_RESTRIPES. -/
abbrev stripeReg (a : Nat) : Prop :=
  a % 0x40 = 0x28 ∨ a % 0x40 = 0x2C ∨ 0x100000 ≤ a % 0x400000 ∨ (0x80004 ≤ a ∧ a ≤ 0x80020)

/-- From `s` to `t` only such registers change, and what the partner last said of its lanes stays. -/
structure StripeOnly (s t : State) : Prop where
  rd : ∀ a, ¬ stripeReg a → t.rd a = s.rd a
  partnerTx : t.fld Reg.LNK_STATUS 23 16 = s.fld Reg.LNK_STATUS 23 16
  partnerRx : t.link.partnerRx = s.link.partnerRx

theorem StripeOnly.of_eq {s t : State} (regs : t.regs = s.regs) (partnerRx : t.link.partnerRx = s.link.partnerRx) :
    StripeOnly s t :=
  ⟨fun a _ => State.rd_congr regs a, State.fld_of (State.rd_congr regs _) 23 16, partnerRx⟩

theorem StripeOnly.refl (s : State) : StripeOnly s s := .of_eq rfl rfl

theorem StripeOnly.trans {s t u : State} (h : StripeOnly s t) (k : StripeOnly t u) : StripeOnly s u :=
  ⟨fun a out => (k.rd a out).trans (h.rd a out), k.partnerTx.trans h.partnerTx, k.partnerRx.trans h.partnerRx⟩

theorem StripeOnly.wr (s : State) {a : Nat} (v : Word) (h : stripeReg a) (other : Reg.LNK_STATUS ≠ a) :
    StripeOnly s (s.wr a v) :=
  ⟨fun b out => State.rd_wr_other s a b v fun e => out (e ▸ h), State.fld_of (State.rd_wr_other s a _ v other) 23 16, rfl⟩

theorem StripeOnly.when {s : State} {c : Bool} {f : State → State} (h : StripeOnly s (f s)) : StripeOnly s (s.when c f) := by
  unfold State.when
  split
  · exact h
  · exact .refl s

theorem StripeOnly.each {α : Type} {f : α → State → State} (l : List α) (h : ∀ a x, StripeOnly x (f a x)) (s : State) :
    StripeOnly s (s.each l f) := by
  unfold State.each
  induction l generalizing s with
  | nil => exact .refl s
  | cons a r ih => exact (h a s).trans (ih (f a s))

theorem StripeOnly.modChan (s : State) (n : Nat) (f : Chan → Chan) : StripeOnly s (s.modChan n f) := .of_eq rfl rfl

theorem StripeOnly.raise (s : State) (src info : Nat) : StripeOnly s (s.raise src info) := .of_eq rfl rfl

theorem StripeOnly.send (s : State) (x : Sent) : StripeOnly s (s.send x) := .of_eq rfl rfl

/-! ### The trace and the end of work -/

theorem StripeOnly.wr_trace (s : State) (d : Nat) {h : Nat} (k : Nat) (v : Word) (hh : h < 65536) (hk : k < 4) :
    StripeOnly s (s.wr (Reg.TRACE d h k) v) :=
  .wr s v (by unfold stripeReg Reg.TRACE; omega) (by unfold Reg.LNK_STATUS Reg.TRACE; omega)

theorem StripeOnly.wr_traceHead (s : State) (d : Nat) (v : Word) : StripeOnly s (s.wr (Reg.TRC_HEAD d) v) :=
  .wr s v (by unfold stripeReg Reg.TRC_HEAD; omega) (by unfold Reg.LNK_STATUS Reg.TRC_HEAD; omega)

theorem State.trace_stripeOnly (s : State) (d kind n idx band stage attempt eng no info : Nat) :
    StripeOnly s (s.trace d kind n idx band stage attempt eng no info) := by
  unfold State.trace
  split
  · exact .refl s
  · extract_lets x count seq sch t h t1 t2 t3 t4 t5
    have numbered : StripeOnly s t := .of_eq rfl rfl
    have index : h < 65536 := fldOf_lt ..
    split
    · exact numbered.trans (.wr t _ (by unfold stripeReg Reg.TRC_DROP; omega) (by unfold Reg.LNK_STATUS Reg.TRC_DROP; omega))
    · have entry : StripeOnly t t4 := (((StripeOnly.wr_trace _ d 0 _ index (by decide)).trans
        (.wr_trace _ d 1 _ index (by decide))).trans (.wr_trace _ d 2 _ index (by decide))).trans
        (.wr_trace _ d 3 _ index (by decide))
      exact (numbered.trans entry).trans ((StripeOnly.wr_traceHead ..).trans (.when (.wr_traceHead ..)))

theorem State.freeDesc_stripeOnly (s : State) (d : Desc) : StripeOnly s (s.freeDesc d) := by
  unfold State.freeDesc
  refine .trans ?_ (State.trace_stripeOnly ..)
  exact .of_eq rfl rfl

theorem State.endAllocs_stripeOnly (s : State) (p : AllocWait → Bool) : StripeOnly s (s.endAllocs p) := by
  unfold State.endAllocs
  refine .trans (.each _ (fun w x => ?_) s) (.of_eq rfl rfl)
  exact (StripeOnly.modChan ..).trans (State.trace_stripeOnly ..)

theorem State.dropWork_stripeOnly (s : State) (n : Nat) : StripeOnly s (s.dropWork n) :=
  .trans (.trans (.each _ (fun d x => x.freeDesc_stripeOnly d) s) (State.endAllocs_stripeOnly ..)) (.modChan ..)

theorem State.endJoin_stripeOnly (s : State) (n : Nat) : StripeOnly s (s.endJoin n) := by
  unfold State.endJoin
  split
  · exact s.dropWork_stripeOnly n
  · exact .refl s

theorem State.releaseBuffers_stripeOnly (s : State) (n : Nat) : StripeOnly s (s.releaseBuffers n) :=
  ((StripeOnly.each _ (fun _ _ => .when (.modChan ..)) s).trans (.modChan ..)).trans (.modChan ..)

/-! ### Frames -/

theorem StripeOnly.bump_txFrames (s : State) (n : Nat) : StripeOnly s (s.bump Reg.LNK_TX_FRAMES n) :=
  .wr s _ (by decide) (by decide)

theorem State.emitFrame_stripeOnly (s : State) (b : LBody) : StripeOnly s (s.emitFrame b) := by
  unfold State.emitFrame
  dsimp only
  split
  · exact (StripeOnly.bump_txFrames ..).trans (.send ..)
  · refine .trans ?_ ((StripeOnly.bump_txFrames ..).trans (.send ..))
    exact .of_eq rfl rfl

theorem State.pumpLantern_stripeOnly (fuel : Nat) (s : State) : StripeOnly s (s.pumpLantern fuel) := by
  induction fuel generalizing s with
  | zero => exact .refl s
  | succ fuel ih =>
    rw [State.pumpLantern]
    split
    · exact .refl s
    · split
      · exact .refl s
      · refine .trans (.trans ?_ (State.emitFrame_stripeOnly ..)) (ih _)
        exact .of_eq rfl rfl

theorem State.pump_stripeOnly (s : State) : StripeOnly s s.pump := State.pumpLantern_stripeOnly ..

theorem State.lanternSend_stripeOnly (s : State) (b : LBody) : StripeOnly s (s.lanternSend b) := by
  unfold State.lanternSend
  dsimp only
  split
  · exact .refl s
  · refine .trans ?_ (State.pumpLantern_stripeOnly ..)
    exact .of_eq rfl rfl

theorem State.resendAll_stripeOnly (s : State) : StripeOnly s s.resendAll := by
  unfold State.resendAll
  dsimp only
  split
  · exact .refl s
  · have counted (x : State) (n : Nat) : StripeOnly x (x.bump Reg.LNK_RESENT n) := .wr x _ (by decide) (by decide)
    refine .trans (.trans ?_ ((counted ..).trans (.bump_txFrames ..))) (.each _ (fun _ _ => .send ..) _)
    exact .of_eq rfl rfl

/-! ### Snapshots -/

theorem State.abortSnap_stripeOnly (s : State) (n : Nat) : StripeOnly s (s.abortSnap n) := by
  have ended (f : Chan → Chan) : StripeOnly s (((s.endJoin n).modChan n f).snapEvent n 4) :=
    (s.endJoin_stripeOnly n).trans (.of_eq rfl rfl)
  unfold State.abortSnap
  split
  · exact .refl s
  · exact .when (ended _)
  · exact .modChan ..
  · exact ((StripeOnly.modChan s n _).trans ((StripeOnly.modChan ..).trans (State.releaseBuffers_stripeOnly ..))).trans
      (.of_eq rfl rfl)
  · exact .of_eq rfl rfl
  · exact .modChan ..
  · exact ended _

theorem State.requestSnapshot_stripeOnly (s : State) (n : Nat) : StripeOnly s (s.requestSnapshot n) :=
  ((s.endJoin_stripeOnly n).trans (.modChan ..)).trans (State.lanternSend_stripeOnly ..)

theorem State.linkUpNow_stripeOnly (s : State) : StripeOnly s s.linkUpNow := by
  unfold State.linkUpNow
  refine .trans ?_ (.when (State.lanternSend_stripeOnly ..))
  exact .of_eq rfl rfl

/-! ### The stripe set -/

theorem stripeReg_lnkStatus : stripeReg Reg.LNK_STATUS := by decide

theorem StripeOnly.setStripe (s : State) (m : Nat) : StripeOnly s (s.setFld Reg.LNK_STATUS 31 24 m) :=
  ⟨fun a out => State.rd_setFld_other s _ a _ _ _ fun e => out (by rw [e]; exact stripeReg_lnkStatus),
    State.fld_setFld_apart s _ 31 24 m 23 16 (by decide) (by decide) (.inl (by decide)),
    congrArg Lantern.partnerRx (State.setFld_link ..)⟩

theorem State.restripe_stripeOnly (s : State) (underWay : Bool) : StripeOnly s (s.restripe underWay) := by
  unfold State.restripe
  extract_lets old new
  split
  · exact .refl s
  · have restripes (x : State) : StripeOnly x (x.bump Reg.LNK_RESTRIPES) := .wr x _ (by decide) (by decide)
    have aborts (x : State) : StripeOnly x (x.bump Reg.LNK_ABORTS) := .wr x _ (by decide) (by decide)
    refine StripeOnly.trans ?_ (State.pump_stripeOnly _)
    refine StripeOnly.trans ?_ (.when (.each _ (fun _ _ => State.requestSnapshot_stripeOnly ..) _))
    refine StripeOnly.trans ?_ (.when (State.linkUpNow_stripeOnly _))
    refine StripeOnly.trans ?_ (.when (.of_eq rfl rfl))
    refine StripeOnly.trans ?_ (.when (.each _ (fun _ _ => State.abortSnap_stripeOnly ..) _))
    refine StripeOnly.trans ?_ (.when (State.resendAll_stripeOnly _))
    refine StripeOnly.trans ?_ (.when (.send ..))
    refine StripeOnly.trans ?_ (.when ((aborts _).trans (.send ..)))
    exact ((StripeOnly.setStripe s new).trans (restripes _)).trans (.raise ..)

theorem State.restripe_of_same {s : State} (same : s.setLanes &&& s.link.partnerRx = s.stripe) (underWay : Bool) :
    s.restripe underWay = s := if_pos same

theorem State.pump_of_noQueue {s : State} (empty : s.link.queue = []) : s.pump = s := by
  rw [State.pump, empty]
  rfl

/-! ## Commit points of a lane (R454) -/

@[simp] theorem State.commitRef_regs (s : State) (r : Nat) : (s.commitRef r).regs = s.regs := by
  unfold State.commitRef
  dsimp only
  split <;> rfl

@[simp] theorem State.commitRef_link (s : State) (r : Nat) : (s.commitRef r).link = s.link := by
  unfold State.commitRef
  dsimp only
  split <;> rfl

theorem State.commitRecv_rd (s : State) {r a : Nat} (stat : a ≠ calStat r) (commits : a ≠ calCommits r) :
    (s.commitRecv r).rd a = s.rd a := by
  unfold State.commitRecv
  dsimp only
  split
  · exact State.rd_congr (s.commitRef_regs r) a
  · rw [State.rd_bump_other _ _ _ _ commits, State.rd_setBit_other _ _ _ _ _ stat]
    exact State.rd_congr (s.commitRef_regs r) a

@[simp] theorem State.commitRecv_link (s : State) (r : Nat) : (s.commitRecv r).link = s.link := by
  unfold State.commitRecv
  dsimp only
  split
  · exact s.commitRef_link r
  · exact (State.bump_link ..).trans ((State.setBit_link ..).trans (s.commitRef_link r))

/-- The commit point of a Lantern lane writes neither the Lantern block nor a lane's status. -/
theorem State.commitLantern_rd (s : State) (lane : Fin 8) {a : Nat} (below : a < 0x01000000 ∨ a % 0x100 < 0x40) :
    (s.commitRecv (laneId lane 8)).rd a = s.rd a := by
  have lanes : ¬ 80 ≤ laneId lane 8 := by unfold laneId; omega
  refine s.commitRecv_rd ?_ ?_
  · unfold calStat
    rw [if_neg lanes]
    unfold Reg.CAL_STAT
    omega
  · unfold calCommits
    rw [if_neg lanes]
    unfold Reg.CAL_COMMITS
    omega

/-! ## IDLE sets (R391, R392, R398) -/

/-- The partner's lanes are shown and the acknowledged frames done with; the stripe set follows later. -/
def State.idleTaken (s : State) (rx tx ack : Nat) : State :=
  let was := s.fld Reg.LNK_STATUS 23 16
  let s := s.setFld Reg.LNK_STATUS 23 16 tx
  let s := s.when (decide (was ≠ tx)) fun s => s.raise 966 (256 * s.stripe + tx)
  let covered := fun (u : Unacked) => decide ((ack + 65536 - u.frame.lseq) % 65536 < 32768)
  { s with link := { s.link with partnerRx := rx, unacked := s.link.unacked.filter fun u => !covered u } }

theorem State.idleRx_eq (s : State) (rx tx ack : Nat) (underWay : Bool) :
    s.idleRx rx tx ack underWay = ((s.idleTaken rx tx ack).restripe underWay).pump := rfl

theorem State.idleTaken_rd (s : State) (rx tx ack a : Nat) :
    (s.idleTaken rx tx ack).rd a = (s.setFld Reg.LNK_STATUS 23 16 tx).rd a := by
  unfold State.idleTaken State.when
  dsimp only
  split <;> rfl

theorem State.idleTaken_link (s : State) (rx tx ack : Nat) : (s.idleTaken rx tx ack).link =
    { s.link with
      partnerRx := rx
      unacked := s.link.unacked.filter fun u => !decide ((ack + 65536 - u.frame.lseq) % 65536 < 32768) } := by
  unfold State.idleTaken State.when
  dsimp only
  split <;> simp only [State.raise_link, State.setFld_link]

theorem State.idleTaken_partnerTx (s : State) (rx ack : Nat) {tx : Nat} (h : tx < 256) :
    (s.idleTaken rx tx ack).fld Reg.LNK_STATUS 23 16 = tx := by
  rw [State.fld_of (s.idleTaken_rd ..), State.fld_setFld _ _ _ _ _ (by decide) (by decide)]
  exact Nat.mod_eq_of_lt h

theorem State.idleTaken_fld_apart (s : State) (rx tx ack : Nat) {hi lo : Nat} (apart : hi < 16 ∨ 23 < lo) :
    (s.idleTaken rx tx ack).fld Reg.LNK_STATUS hi lo = s.fld Reg.LNK_STATUS hi lo := by
  rw [State.fld_of (s.idleTaken_rd ..), State.fld_setFld_apart _ _ _ _ _ _ _ (by decide) (by decide) apart]

theorem State.idleTaken_setLanes (s : State) (rx tx ack : Nat) : (s.idleTaken rx tx ack).setLanes = s.setLanes := by
  have enabled : (s.idleTaken rx tx ack).rd Reg.LNK_CTRL = s.rd Reg.LNK_CTRL :=
    (s.idleTaken_rd ..).trans (State.rd_setFld_other _ _ _ _ _ _ (by decide))
  rw [State.setLanes, State.fld_of enabled, s.idleTaken_fld_apart rx tx ack (.inl (by decide)), State.setLanes]

theorem State.idleRx_partner (s : State) (rx ack : Nat) (underWay : Bool) {tx : Nat} (h : tx < 256) :
    (s.idleRx rx tx ack underWay).link.partnerRx = rx ∧ (s.idleRx rx tx ack underWay).fld Reg.LNK_STATUS 23 16 = tx := by
  rw [State.idleRx_eq]
  have kept := (State.restripe_stripeOnly (s.idleTaken rx tx ack) underWay).trans (State.pump_stripeOnly _)
  refine ⟨kept.partnerRx.trans ?_, kept.partnerTx.trans (s.idleTaken_partnerTx rx ack h)⟩
  rw [State.idleTaken_link]

/-- With the stripe set as it was and no message queued, an IDLE set moves no frame: it only acknowledges. -/
theorem State.idleRx_of_same {s : State} {rx : Nat} (queue : s.link.queue = []) (same : s.setLanes &&& rx = s.stripe)
    (tx ack : Nat) (underWay : Bool) : s.idleRx rx tx ack underWay = s.idleTaken rx tx ack := by
  have stays : (s.idleTaken rx tx ack).setLanes &&& (s.idleTaken rx tx ack).link.partnerRx = (s.idleTaken rx tx ack).stripe := by
    rw [State.idleTaken_setLanes, State.idleTaken_link, State.stripe, s.idleTaken_fld_apart rx tx ack (.inr (by decide))]
    exact same
  have quiet : (s.idleTaken rx tx ack).link.queue = [] := by rw [State.idleTaken_link]; exact queue
  rw [State.idleRx_eq, State.restripe_of_same stays, State.pump_of_noQueue quiet]

theorem execIdleSetRx_of_checked {s : State} {lane : Fin 8} {rx tx ack : Nat} (locked : s.laneLocked lane 8 = true)
    (hrx : rx < 256) (htx : tx < 256) (hack : ack < 65536) (dt : Nat) (u : Bool) :
    exec (.idleSetRx dt lane rx tx ack (idleCheck rx tx ack) u) s =
      done (((s.elapse dt).commitRecv (laneId lane 8)).idleRx rx tx ack u) := by
  have locked' : (s.elapse dt).laneLocked lane 8 = true := locked
  show execIdleSetRx dt lane rx tx ack (idleCheck rx tx ack) u s = _
  exact if_pos ⟨locked', hrx, htx, hack, rfl⟩

/-! ## SKIP sets (R384, R395) -/

theorem State.elastic_setElastic {s : State} {lane : Nat} (h : lane < s.link.elastic.length) (x : Int) :
    (s.setElastic lane x).elastic lane = x := by
  simp [State.elastic, State.setElastic, h]

theorem State.elastic_of_link {s t : State} (h : t.link = s.link) (lane : Nat) : t.elastic lane = s.elastic lane := by
  rw [State.elastic, h, State.elastic]

/-- Where the fill `x` that a SKIP set finds ends: one group nearer the centre. -/
def recentred (x : Int) : Int := x - (if 0 < x then 1 else 0) + (if x < 0 then 1 else 0)

/-- A SKIP set within ±8 leaves its buffer recentred and counts the group deleted or added. -/
def State.skipTaken (s : State) (lane : Nat) (x : Int) : State :=
  let s := s.setElastic lane (recentred x)
  if 0 < x then s.bump Reg.LNK_SKP_DEL else if x < 0 then s.bump Reg.LNK_SKP_ADD else s

theorem State.skipTaken_elastic {s : State} {lane : Nat} (h : lane < s.link.elastic.length) (x : Int) :
    (s.skipTaken lane x).elastic lane = recentred x := by
  unfold State.skipTaken
  dsimp only
  split
  · exact (State.elastic_of_link (State.bump_link ..) lane).trans (State.elastic_setElastic h _)
  · split
    · exact (State.elastic_of_link (State.bump_link ..) lane).trans (State.elastic_setElastic h _)
    · exact State.elastic_setElastic h _

/-- Each count has its sign of the fill. -/
theorem State.skipTaken_counts (s : State) (lane : Nat) (x : Int) :
    (s.skipTaken lane x).rdN Reg.LNK_SKP_DEL = (s.rdN Reg.LNK_SKP_DEL + (if 0 < x then 1 else 0)) % 4294967296 ∧
    (s.skipTaken lane x).rdN Reg.LNK_SKP_ADD = (s.rdN Reg.LNK_SKP_ADD + (if x < 0 then 1 else 0)) % 4294967296 := by
  have whole (a : Nat) : s.rdN a = s.rdN a % 4294967296 := (Nat.mod_eq_of_lt (s.rd a).isLt).symm
  have apart {a b : Nat} (ne : b ≠ a) : ((s.setElastic lane (recentred x)).bump a).rdN b = s.rdN b :=
    State.rdN_of (State.rd_bump_other _ _ _ _ ne)
  unfold State.skipTaken
  dsimp only
  rcases Int.lt_trichotomy x 0 with below | rfl | above
  · have notAbove : ¬ 0 < x := by omega
    simp only [if_neg notAbove, if_pos below, Nat.add_zero]
    exact ⟨(apart (by decide)).trans (whole _), State.rdN_bump ..⟩
  · exact ⟨whole _, whole _⟩
  · have notBelow : ¬ x < 0 := by omega
    simp only [if_pos above, if_neg notBelow, Nat.add_zero]
    exact ⟨State.rdN_bump .., (apart (by decide)).trans (whole _)⟩

theorem execSkipSetRx_of_locked {s : State} {lane : Fin 8} (locked : s.laneLocked lane 8 = true) (dt : Nat) (drift : Int) :
    exec (.skipSetRx dt lane drift) s = done (if 8 < (s.elastic lane + drift).natAbs
      then ((s.elapse dt).commitRecv (laneId lane 8)).loseLane lane 8 false
      else ((s.elapse dt).commitRecv (laneId lane 8)).skipTaken lane (s.elastic lane + drift)) := by
  have locked' : (s.elapse dt).laneLocked lane 8 = true := locked
  have fill : ((s.elapse dt).commitRecv (laneId lane 8)).elastic lane = s.elastic lane :=
    State.elastic_of_link (State.commitRecv_link ..) lane
  show execSkipSetRx dt lane drift s = _
  simp only [execSkipSetRx, locked', Bool.not_true, Bool.false_eq_true, if_false, fill]
  generalize s.elastic lane + drift = x
  unfold State.skipTaken recentred
  rcases Int.lt_trichotomy x 0 with below | rfl | above
  · have notAbove : ¬ 0 < x := by omega
    simp only [if_neg notAbove, if_pos below, Int.sub_zero]
    split <;> rfl
  · rfl
  · have notBelow : ¬ x < 0 := by omega
    simp only [if_pos above, if_neg notBelow, Int.add_zero]
    split <;> rfl

/-! ## A Lantern lane that loses lock (R384, R399) -/

theorem State.setLane_locked (s : State) (d n st : Nat) : (s.setLane d n st).laneLocked d n = s.laneLocked d n := by
  unfold State.setLane
  split
  · rfl
  · rw [State.laneLocked, State.bit_raise, State.bit_setFld_apart s _ 26 24 st (by decide) (by decide) (.inr (by decide)),
      State.laneLocked]

theorem State.recvLost_rd (s : State) {r a : Nat} (h : a ≠ calStat r) : (s.recvLost r).rd a = s.rd a :=
  State.rd_setBit_other _ _ _ _ _ h

theorem State.setRxLanes_rd (s : State) (m : Nat) {a : Nat} (h : a ≠ Reg.LNK_STATUS) : (s.setRxLanes m).rd a = s.rd a := by
  unfold State.setRxLanes
  split
  · rfl
  · exact State.rd_setFld_other _ _ _ _ _ _ h

/-- A lane's status is outside what the Lantern link may write. -/
theorem lanternLane_apart (lane : Fin 8) : ¬ stripeReg (Reg.LN_STATUS lane 8) ∧ Reg.LN_STATUS lane 8 ≠ Reg.LNK_STATUS ∧
    Reg.LN_STATUS lane 8 ≠ calStat (laneId lane 8) := by
  revert lane
  decide

/-- The status that a Lantern lane without lock shows: its adaptation starts again, its state and its figures of merit go. -/
def State.lockCleared (s : State) (lane : Nat) : State :=
  let s := ((s.bump (Reg.LN_LOCK_LOSS lane 8)).setBit (Reg.LN_STATUS lane 8) 31 false).recvLost (laneId lane 8)
  let s := s.setLane lane 8 (if s.dieOk lane then 1 else 0)
  (s.setFld (Reg.LN_STATUS lane 8) 7 0 0).setFld (Reg.LN_STATUS lane 8) 15 8 0

/-- The lane leaves LNK_STATUS, and its elastic buffer starts again. -/
def State.laneLeft (s : State) (lane : Nat) : State :=
  let s := s.setFld Reg.LNK_STATUS 15 8 (putBit (s.fld Reg.LNK_STATUS 15 8) lane false)
  let s := s.setRxLanes (putBit s.rxLanes lane false)
  { s with link := { s.link with elastic := s.link.elastic.set lane 0 } }

theorem State.loseLane_of_locked {s : State} {lane : Nat} (locked : s.laneLocked lane 8 = true) (underWay : Bool) :
    s.loseLane lane 8 underWay = ((s.lockCleared lane).laneLeft lane).restripe underWay := by
  simp only [State.loseLane, locked, Bool.not_true, Bool.false_eq_true, if_false, State.laneNotGood, Nat.lt_irrefl,
    if_true, decide_true, State.when, State.lockCleared, State.laneLeft]

theorem State.lockCleared_unlocked (s : State) (lane : Fin 8) : (s.lockCleared lane).laneLocked lane 8 = false := by
  obtain ⟨_, _, cal⟩ := lanternLane_apart lane
  unfold State.lockCleared
  dsimp only
  rw [State.laneLocked, State.bit_setFld_apart _ _ 15 8 0 (by decide) (by decide) (.inr (by decide)),
    State.bit_setFld_apart _ _ 7 0 0 (by decide) (by decide) (.inr (by decide)), ← State.laneLocked, State.setLane_locked,
    State.laneLocked, State.bit_of (State.recvLost_rd _ cal)]
  exact State.bit_setBit _ _ _ _ (by decide)

theorem State.laneLeft_rd (s : State) (lane : Nat) {a : Nat} (h : a ≠ Reg.LNK_STATUS) : (s.laneLeft lane).rd a = s.rd a :=
  (State.setRxLanes_rd _ _ h).trans (State.rd_setFld_other _ _ _ _ _ _ h)

theorem State.loseLane_unlocked (s : State) (lane : Fin 8) (underWay : Bool) :
    (s.loseLane lane 8 underWay).laneLocked lane 8 = false := by
  obtain ⟨stripe, lnk, _⟩ := lanternLane_apart lane
  cases locked : s.laneLocked lane 8
  · rw [State.loseLane, locked]
    exact locked
  · have kept := (((s.lockCleared lane).laneLeft lane).restripe_stripeOnly underWay).rd _ stripe
    rw [State.loseLane_of_locked locked, State.laneLocked, State.bit_of (kept.trans (State.laneLeft_rd _ _ lnk))]
    exact s.lockCleared_unlocked lane

/-! ## Resends (R398) -/

theorem State.each_sendLantern (l : List LFrame) (s : State) :
    (s.each l fun f s => s.send (.lantern s.stripe f)) = { s with sent := (l.map (Sent.lantern s.stripe)).reverse ++ s.sent } := by
  unfold State.each
  induction l generalizing s with
  | nil => rfl
  | cons f l ih =>
    rw [List.foldl_cons, ih, List.map_cons, List.reverse_cons, List.append_assoc]
    rfl

/-- The unacknowledged frames as a resend sends them. -/
def State.resentFrames (s : State) : List LFrame := s.link.unacked.map fun u => { u.frame with resent := true }

/-- The unit that resends: its frames are kept from now on, and counted. -/
def State.resendCounted (s : State) : State :=
  let kept := s.resentFrames.map fun f => (⟨f, s.now⟩ : Unacked)
  (({ s with link := { s.link with unacked := kept } }).bump Reg.LNK_RESENT s.resentFrames.length).bump Reg.LNK_TX_FRAMES
    s.resentFrames.length

theorem State.resendCounted_stripe (s : State) : s.resendCounted.stripe = s.stripe := by
  have status : s.resendCounted.rd Reg.LNK_STATUS = s.rd Reg.LNK_STATUS := by
    unfold State.resendCounted
    rw [State.rd_bump_other _ _ _ _ (by decide), State.rd_bump_other _ _ _ _ (by decide)]
    rfl
  exact State.fld_of status 31 24

theorem State.resendAll_eq {s : State} (up : s.stripe ≠ 0) : s.resendAll =
    { s.resendCounted with sent := (s.resentFrames.map (Sent.lantern s.stripe)).reverse ++ s.sent } := by
  have run : s.resendAll = s.resendCounted.each s.resentFrames fun f s => s.send (.lantern s.stripe f) := if_neg up
  rw [run, State.each_sendLantern, State.resendCounted_stripe]
  rfl

/-- What a resend marks, sends and counts. -/
theorem State.resendAll_effect {s : State} (up : s.stripe ≠ 0) :
    s.resendAll.link.unacked.map (·.frame) = s.resentFrames ∧
    s.resendAll.sent = (s.resentFrames.map (Sent.lantern s.stripe)).reverse ++ s.sent ∧
    s.resendAll.rdN Reg.LNK_RESENT = (s.rdN Reg.LNK_RESENT + s.resentFrames.length) % 4294967296 := by
  rw [State.resendAll_eq up]
  refine ⟨?_, rfl, ?_⟩
  · have kept : s.resendCounted.link.unacked = s.resentFrames.map fun f => ⟨f, s.now⟩ := by
      simp only [State.resendCounted, State.bump_link]
    show s.resendCounted.link.unacked.map (·.frame) = s.resentFrames
    rw [kept, List.map_map]
    exact List.map_id _
  · show s.resendCounted.rdN Reg.LNK_RESENT = _
    unfold State.resendCounted
    rw [State.rdN_of (State.rd_bump_other _ _ _ _ (by decide)), State.rdN_bump]
    rfl

/-- Settles O31: the commit point of the lane and the stripe set that follows an IDLE set or a lost lock leave alone what the
statement says of the link. -/
theorem lanternSetsAreReceived : Obligations.LanternSetsAreReceived := by
  have quiet : ¬ eventReg Reg.LNK_STATUS ∧ ¬ eventReg Reg.LNK_SKP_DEL ∧ ¬ eventReg Reg.LNK_SKP_ADD ∧
      ¬ eventReg Reg.LNK_RESENT := by decide
  obtain ⟨status, del, add, resent⟩ := quiet
  refine ⟨?_, ?_, ?_, ?_, ?_⟩
  · intro dt lane rx tx ack s u locked hrx htx hack
    let x := (s.elapse dt).commitRecv (laneId lane 8)
    have reg {a : Nat} (below : a < 0x01000000) : x.rd a = s.rd a := State.commitLantern_rd _ lane (.inl below)
    have link : x.link = s.link := State.commitRecv_link ..
    obtain ⟨partnerRx, partnerTx⟩ := x.idleRx_partner rx ack u htx
    refine .of_done (execIdleSetRx_of_checked locked hrx htx hack dt u) ⟨?_, ?_, fun queue same => ?_⟩
    · rw [State.settle_link]
      exact partnerRx
    · rw [State.settle_fld _ _ _ _ status]
      exact partnerTx
    · have same' : x.setLanes &&& rx = x.stripe := by
        rw [State.setLanes, State.fld_of (reg (by decide)), State.fld_of (reg (by decide)), State.stripe,
          State.fld_of (reg (by decide))]
        exact same
      have acked := State.idleRx_of_same (s := x) (link ▸ queue) same' tx ack u
      have keeps (n : Nat) : (!decide (n < 32768)) = decide (32768 ≤ n) := by
        rw [← decide_not]
        exact decide_eq_decide.mpr Nat.not_lt
      rw [State.settle_link, acked, State.idleTaken_link, link]
      simp only [keeps]
  · intro dt lane drift s locked eight within
    have run := execSkipSetRx_of_locked locked dt drift
    rw [if_neg (Nat.not_lt.mpr within)] at run
    let x := (s.elapse dt).commitRecv (laneId lane 8)
    have count {a : Nat} (below : a < 0x01000000) : x.rdN a = s.rdN a :=
      State.rdN_of (State.commitLantern_rd _ lane (.inl below))
    have there : lane.val < x.link.elastic.length := by
      have link : x.link = s.link := State.commitRecv_link ..
      rw [link, eight]
      exact lane.isLt
    obtain ⟨deleted, added⟩ := x.skipTaken_counts lane (s.elastic lane + drift)
    refine .of_done run ⟨?_, ?_, ?_⟩
    · rw [State.elastic_of_link (State.settle_link _)]
      exact State.skipTaken_elastic there _
    · rw [State.settle_rdN _ _ del, ← count (by decide)]
      exact deleted
    · rw [State.settle_rdN _ _ add, ← count (by decide)]
      exact added
  · intro dt lane drift s locked passed
    have run := execSkipSetRx_of_locked locked dt drift
    rw [if_pos passed] at run
    refine .of_done run ?_
    rw [State.laneLocked, State.settle_bit _ _ _ (by unfold eventReg Reg.LN_STATUS; omega)]
    exact State.loseLane_unlocked ..
  · intro dt s up due
    obtain ⟨frames, sent, counted⟩ := State.resendAll_effect (s := s.elapse dt) up
    refine .of_done (u := (s.elapse dt).resendAll) (if_pos due) ⟨?_, ?_, ?_⟩
    · rw [State.settle_link]
      exact frames
    · rw [State.settle_sent, sent, State.resentFrames, List.map_map]
      rfl
    · rw [State.settle_rdN _ _ resent, counted, State.resentFrames, List.length_map]
      rfl
  · intro dt s
    have same : s.sameBut (s.elapse dt) := by simp [State.sameBut]
    exact .of_done (u := s.elapse dt) rfl ⟨State.regsBut.settle (State.regsBut_of_regs rfl), State.sameBut_settle same⟩

/-! ## A frame of a class that no port has (R302, R316, R384) -/

/-- Lane 0 of port 0, a 400G port in service, is locked; the port holds a frame of class 1,052,656. R302 gives a port eight
classes, but no state that the statement speaks of is held to them. -/
def beyondClasses : State :=
  { State.reset with
      regs := [(Reg.NP_CTRL 0, 1), (Reg.NP_STATUS 0, 0x01000002), (Reg.LN_STATUS 0 0, 0x80000000)]
      egr := { Egress.reset with queue := [⟨0, 0, 1052656, 0, false, 0, 64, 0, false, false, [], .skip 0⟩] } }

/-- The loss of lock takes the port out of service, which drops the frame: TMC_DROPPED of that class would stand where LN_LOCK_LOSS
of the lane stands, so that the loss and then the drop are counted at one address. -/
theorem beyondClasses_lockLoss : beyondClasses.rdN (Reg.LN_LOCK_LOSS 0 0) = 0 ∧
    ((beyondClasses.elapse 0).loseLane 0 0 false).rdN (Reg.LN_LOCK_LOSS 0 0) = 2 := by decide +kernel

/-- Refutes O32: when lane 0 of `beyondClasses` loses lock, LN_LOCK_LOSS goes from 0 to 2: the statement bounds the class
of no frame that a port holds. -/
theorem not_lanesLockAndRate : ¬ Obligations.LanesLockAndRate := by
  intro ⟨losses, _⟩
  obtain ⟨t, run, _, counted, _⟩ := losses 0 0 0 false beyondClasses (by decide +kernel)
  obtain ⟨before, after⟩ := beyondClasses_lockLoss
  obtain rfl : ((beyondClasses.elapse 0).loseLane 0 0 false).settle = t := Host.Outcome.next.inj run
  have two : ((beyondClasses.elapse 0).loseLane 0 0 false).settle.rdN (Reg.LN_LOCK_LOSS 0 0) = 2 :=
    (State.settle_rdN _ _ (by decide)).trans after
  have counted' : ((beyondClasses.elapse 0).loseLane 0 0 false).settle.rdN (Reg.LN_LOCK_LOSS 0 0) =
      (beyondClasses.rdN (Reg.LN_LOCK_LOSS 0 0) + 1) % 4294967296 := counted
  rw [two, before] at counted'
  exact absurd counted' (by decide)

end Sys2Proof.Machine
end
